-- ==== Sys2Proof/Word.lean ====
section
/-! DEFINITION. The word types and their plainest arithmetic (R11, R16, R37). -/

namespace Sys2Proof

/-- A byte of memory. -/
abbrev Byte := BitVec 8

/-- A 32-bit entry: a trail entry, a scalar, a code word (R13, R21, R37). -/
abbrev Word := BitVec 32

/-- A 64-bit value: an address, a program counter, a pair of entries (R16, R26). -/
abbrev DWord := BitVec 64

/-- A sparse table: key and value pairs, keys strictly rising. -/
abbrev Sparse (α : Type) := List (Nat × α)

/-- The low word of a 64-bit value. -/
def DWord.lo (v : DWord) : Word := v.setWidth 32

/-- The high word of a 64-bit value. -/
def DWord.hi (v : DWord) : Word := (v >>> 32).setWidth 32

/-- A 64-bit value of its low and high words (R16). -/
def DWord.ofWords (lo hi : Word) : DWord := hi ++ lo

end Sys2Proof
end

