-- ==== Sys2Proof/Syntax.lean ====
section
/-! DEFINITION. The instructions and events of the opcode table, and the fields of each class
(R46 to R75). Field values are as the spec numbers them; register numbers and codes that the
spec names are constructors. -/

namespace Sys2Proof

/-- What a 12-bit source specifier names (R46): its KIND and INDEX. -/
inductive Src where
  | age (k : BitVec 5)
  | scalar (i : BitVec 7)
  | const (i : BitVec 7)
  | inline (i : BitVec 6)
  | lit0
  | lit1
  deriving DecidableEq, Repr, Inhabited

/-- A source specifier: what it names, and its modifier MOD (R46, R50). -/
structure Operand where
  src : Src
  mod : BitVec 3
  deriving DecidableEq, Repr, Inhabited

/-- The specifier 0x000, which an unused source must hold (R55). -/
def Operand.zero : Operand := ⟨.age 0, 0⟩

/-- The type codes 0 to 13 (R52). -/
inductive Ty where
  | b32 | i32 | n32 | f32 | f16x2 | bf16x2 | i16x2 | n16x2 | i8x4 | n8x4 | f64 | i64 | n64 | b64
  deriving DecidableEq, Repr, Inhabited

/-- The rounding modes (R95). -/
inductive Rm where
  | rne | rz | rdn | rup
  deriving DecidableEq, Repr, Inhabited

/-- Fields of a V instruction other than its opcode, with its literal words (R47, R56). -/
structure VFields where
  ty : Ty
  nfmt : BitVec 4
  rm : Rm
  sat : Bool
  narrow : Bool
  src0 : Operand
  src1 : Operand
  src2 : Operand
  grade : Bool
  lits : List Word
  deriving DecidableEq, Repr, Inhabited

/-- Fields of an I instruction (R60). -/
structure IFields where
  ty : Ty
  src0 : Operand
  src1 : Operand
  rm : Rm
  sat : Bool
  imm : BitVec 20
  deriving DecidableEq, Repr, Inhabited

/-- Fields of an S instruction (R62). -/
structure SFields where
  ty : Ty
  dst : BitVec 7
  srcA : Operand
  srcB : Operand
  cond : BitVec 3
  imm : BitVec 12
  lits : List Word
  deriving DecidableEq, Repr, Inhabited

/-- Access sizes of class M (R64). -/
inductive Size where
  | b8 | b16 | b32 | b64 | b128
  deriving DecidableEq, Repr, Inhabited

/-- Address spaces of class M (R64). -/
inductive Space where
  | global | scratch | cluster | bank
  deriving DecidableEq, Repr, Inhabited

/-- Orders of class M (R64, R204). -/
inductive Order where
  | plain | acquire | release | acqRel | relaxed
  deriving DecidableEq, Repr, Inhabited

/-- Scopes of the memory model (R3). -/
inductive Scope where
  | group | team | cluster | die | package | fabric
  deriving DecidableEq, Repr, Inhabited

/-- Cache hints (R64, R187). -/
inductive Hint where
  | normal | stream | keep | bypass
  deriving DecidableEq, Repr, Inhabited

/-- Fields of an M instruction (R64). -/
structure MFields where
  size : Size
  space : Space
  order : Order
  scope : Scope
  addr : Operand
  data : Operand
  sx : Bool
  fsel : Bool
  hint : Hint
  offset : BitVec 12
  deriving DecidableEq, Repr, Inhabited

/-- Fields of an E instruction (R66). -/
structure EFields where
  hdst : BitVec 7
  blk : BitVec 7
  var : BitVec 8
  imm : Word
  deriving DecidableEq, Repr, Inhabited

/-- Fields of an X instruction (R68). -/
structure XFields where
  slotA : BitVec 7
  slotD : BitVec 7
  scale : BitVec 7
  sect : BitVec 2
  fmtA : BitVec 4
  fmtB : BitVec 4
  flags : BitVec 3
  soff : BitVec 12
  count : BitVec 8
  deriving DecidableEq, Repr, Inhabited

/-- Fields of JOIN (R162). -/
structure JoinFields where
  d : BitVec 8
  c : BitVec 3
  sel0 : BitVec 5
  sel1 : BitVec 5
  sel2 : BitVec 5
  sel3 : BitVec 5
  sel4 : BitVec 5
  sel5 : BitVec 5
  deriving DecidableEq, Repr, Inhabited

/-- Fields of a G instruction (R72). -/
structure GFields where
  ty : Ty
  src0 : Operand
  src1 : Operand
  sdst : BitVec 7
  imm : BitVec 17
  deriving DecidableEq, Repr, Inhabited

/-- Fields of a Y instruction (R73). -/
structure YFields where
  sub : BitVec 8
  src : Operand
  sidx : BitVec 7
  imm : BitVec 25
  deriving DecidableEq, Repr, Inhabited

/-- Opcodes of a pair's integer half (R74). -/
inductive PairInt where
  | add | sub | mul | min | max | absdiff | and | or | xor | shl | shr | ceq | cne | clt | cle | cgt | cge
  deriving DecidableEq, Repr, Inhabited

/-- Opcodes of a pair's float half (R74). -/
inductive PairFloat where
  | fadd | fsub | fmul | fmin | fmax
  deriving DecidableEq, Repr, Inhabited

/-- Fields of a P instruction (R74). RM0 and SAT1 must be zero and are not kept. -/
structure PairFields where
  op0 : PairInt
  ty0 : Ty
  a0 : Operand
  b0 : Operand
  sat0 : Bool
  op1 : PairFloat
  ty1 : Ty
  a1 : Operand
  b1 : Operand
  rm1 : Rm
  deriving DecidableEq, Repr, Inhabited

/-- Operations of a nest (R75). -/
inductive NestOp where
  | add | sub | mul | max | min | fma | cvt | expsub | sumr | maxr | minr
  deriving DecidableEq, Repr, Inhabited

/-- Fields of an N instruction (R75). Extents and strides are lists: five extents less one, and
fifteen strides, operand o at level l at place 5 o + l. -/
structure NestFields where
  op : NestOp
  float : Bool
  levels : BitVec 3
  sd : BitVec 7
  sa : BitVec 7
  sb : BitVec 7
  narrow : Bool
  rm : Rm
  bscalar : Bool
  nfmt2 : BitVec 2
  extents : List (BitVec 12)
  strides : List (BitVec 10)
  deriving DecidableEq, Repr, Inhabited

/-- What another device answers to a remote request: refused (R410), an error (R423), or data with
the window of the home's package time, unknown when the home's SYNC is 0 (R415); any of them after retries of its link (R425). -/
inductive RemoteReply where
  | none
  | refused
  | error
  | data (bytes : List Byte) (window : Option Nat)
  /-- an answer some of whose packets, or its request's, a port's link has sent again after a CRC error: the port and how many (R425) -/
  | retried (port n : Nat) (r : RemoteReply)
  deriving DecidableEq, Repr, Inhabited

/-- What a remote request asks of this device (R410, R415): a read, a write, or an FATOM by its
operation code 0 to 6. -/
inductive RemoteKind where
  | read (len : Nat)
  | write (bytes : List Byte)
  | atomic (op : BitVec 3) (operand : Word)
  deriving DecidableEq, Repr, Inhabited

/-- A request that arrives from another device: at which fabric port, and after how many retries of the link's CRC (R408, R410, R425). -/
structure RemoteRequest where
  dev : Nat
  addr : Nat
  kind : RemoteKind
  port : Nat
  retries : Nat
  deriving DecidableEq, Repr, Inhabited

/-- Who starts a shoot-down: a core's SDCTL, or the driver's registers at BAR0 (R375). -/
inductive ShootSource where
  | core (key : Nat)
  | driver
  deriving DecidableEq, Repr, Inhabited

/-- A stream: the traffic of one network from one unit to one unit of another die (R356). Unit u of die d has the number 128d + u:
cores are 0 to 35 of their die, L2 slices 36 to 59, remote-data-cache slices 60 to 67, others 68 and up. -/
structure StreamKey where
  network : Nat
  sender : Nat
  receiver : Nat
  deriving DecidableEq, Repr, Inhabited

/-- What Sundoc asks of the pass of a context: to clear the STATUS of a queue (R394), to refuse the records whose entry lies in a code object
that is to be unloaded, its .text from `lo` up to `hi`, and no longer to once it is unloaded (R390, log entry 90). -/
inductive PassAct where
  | clear (queue : Nat)
  | unload (lo hi : Nat)
  | unloaded (lo hi : Nat)
  deriving DecidableEq, Repr, Inhabited

/-- Where a memory error is found (R302, R325): a clean or a dirty L2 line, HBM bytes, a clean remote-data-cache line, a line's
timestamps, a block's compression metadata, a scratch word; or an error of a die's L2, remote-data-cache or metadata lines that is
corrected in place. -/
inductive MemError where
  | l2Clean (line : Nat)
  | l2Dirty (line : Nat)
  | hbm (addr len : Nat)
  | rdcClean (die line : Nat)
  | stamps (line : Nat)
  | metadata (block : Nat)
  | scratch (core word : Nat)
  | corrected (die : Nat)
  deriving DecidableEq, Repr, Inhabited

/-- Where Sundoc has the records of a cluster: the core record of each rank, and the group record of each frame of a rank (R274). -/
structure RecAddrs where
  cores : List DWord
  groups : List (List DWord)
  deriving DecidableEq, Repr, Inhabited

/-- The cluster of a pre-emption or a save, and the record addresses where Sundoc changes them (R270, R274). -/
structure SaveArgs where
  cluster : Nat
  recs : Option RecAddrs
  deriving DecidableEq, Repr, Inhabited

/-- The choices of a placement (R396) and what Sundoc gives with it (R274, R281): the launch, the
cores by rank, the call stack of each group, the addresses of the save records, and the launch's save area (R323). -/
structure PlaceArgs where
  launch : Nat
  cores : List Nat
  callStacks : List DWord
  recs : RecAddrs
  area : DWord
  deriving DecidableEq, Repr, Inhabited

/-! ## Faults of a group -/

namespace Machine

/-- Causes of a fault (R261). -/
inductive Cause where
  | illop | badTarget | codeEnd | unitAbsent | page | prot | align | rlock | scratchOob | joinMis | sigMis
  | stackOvf | slotFault | fmtFault | mxQuart | handle | barFault | xpair | launchErr | actBusy | ecc | poison
  | linkErr | timeSync | brk | trap | watch | step
  deriving DecidableEq, Repr, Inhabited

/-- The code of a cause (R261). -/
def Cause.code : Cause → Nat
  | .illop => 0x01 | .badTarget => 0x02 | .codeEnd => 0x03 | .unitAbsent => 0x04 | .page => 0x08
  | .prot => 0x09 | .align => 0x0A | .rlock => 0x0C | .scratchOob => 0x0D | .joinMis => 0x10
  | .sigMis => 0x11 | .stackOvf => 0x12 | .slotFault => 0x14 | .fmtFault => 0x15 | .mxQuart => 0x16
  | .handle => 0x17 | .barFault => 0x18 | .xpair => 0x19 | .launchErr => 0x1A | .actBusy => 0x1B
  | .ecc => 0x20 | .poison => 0x21 | .linkErr => 0x22 | .timeSync => 0x23 | .brk => 0x30 | .trap => 0x31
  | .watch => 0x32 | .step => 0x33

/-- Kinds of a fault: precise, at a header, logged, asynchronous (R261). -/
inductive FaultKind where
  | P | H | L | A
  deriving DecidableEq, Repr, Inhabited

/-- A fault record of a group (R261, R274): `idx` is the index of its resume point, `op` the operand-log entry that a fault of a logged
load reports (R210, R269). -/
structure FaultRec where
  cause : Cause
  kind : FaultKind
  addr : DWord
  pc : DWord
  slice : Nat
  idx : Nat
  op : Option Nat
  deriving DecidableEq, Repr, Inhabited

/-- A poisoned trail entry: its ring index, the address of the poisoned data, the load's address and its
flag (R262). -/
structure PoisonMark where
  entry : BitVec 5
  addr : DWord
  pc : DWord
  flag : Option Nat
  deriving DecidableEq, Repr, Inhabited

/-- A fault to raise at the next clause boundary of some slices (R262, R423), or at their junction (R164). -/
structure Async where
  cause : Cause
  addr : DWord
  mask : BitVec 8
  deriving DecidableEq, Repr, Inhabited

/-- What Sundoc's account keeps of a saved group beside its record, which has no field for it (R36, log entry 43): the window of remote
writes that no WINFENCE has waited for (R422); the faults of its trap records by slice key, the `op` of each an index in the log; the log
entry that its recorded fault reports; the levels of the call records whose trails logged loads fill, by 32 times the log entry and the
lane; its poisoned entries by lane key, at level 0 a lane's own; its poisoned scalars and asynchronous faults; the flags of its NESTs in
issue order; the operands of its logged FATOMs, by 32 times the log entry and the lane; and the scalars of logged SLDs that an instruction
behind them has written, each with the number of the first log entry that may write it again and one. -/
structure GroupNote where
  rank : Nat
  frame : Nat
  win : Option Nat
  traps : List (Nat × FaultRec)
  entry : Option Nat
  homes : List (Nat × Nat)
  marks : List (Nat × List PoisonMark)
  scalar : List PoisonMark
  async : List Async
  nests : List (Option Nat)
  atoms : List (Nat × List Byte)
  late : List (Nat × Nat)
  deriving DecidableEq, Repr, Inhabited

end Machine

/-- A launch of another Ubari whose saved clusters are to be restored here (R36, R277, R323): its context, its record's address, its
saved clusters each with the number of its groups that have not retired, its save area, and what Sundoc's account there keeps of the
groups of each cluster beside their records (log entry 43). -/
structure ForeignLaunch where
  ctx : Nat
  addr : DWord
  clusters : List (Nat × Nat)
  area : DWord
  notes : List (Nat × List Machine.GroupNote)
  deriving DecidableEq, Repr, Inhabited

/-- The choices of a restore (R274, R277): which saved cluster, the cores by rank, where its records stand, the index of the group of
each frame by rank, and the launch as another Ubari had it where this one has not seen it. -/
structure RestoreArgs where
  launch : Nat
  cluster : Nat
  cores : List Nat
  recs : RecAddrs
  indexes : List (List Nat)
  foreign : Option ForeignLaunch
  deriving DecidableEq, Repr, Inhabited


/-- The instructions and the events of the part, one constructor for each row of the opcode table.
An instruction is decoded from code words; an event is a step of another agent, taken from the
agenda of moves, and has no encoding. -/
inductive Instr where
  /-- DUP (R116). -/
  | dup (f : VFields)
  /-- GET (R116). -/
  | get (slot : BitVec 6)
  /-- SAVE (R116). -/
  | save (age : BitVec 5) (slot : BitVec 6)
  /-- SEL (R116). -/
  | sel (f : VFields)
  /-- DROP (R116). -/
  | drop (n : BitVec 5)
  /-- LANE (R116). -/
  | lane (f : VFields)
  /-- ADD (R118). -/
  | add (f : VFields)
  /-- SUB (R118). -/
  | sub (f : VFields)
  /-- MUL (R118). -/
  | mul (f : VFields)
  /-- MULHI (R118). -/
  | mulhi (f : VFields)
  /-- MAD (R118). -/
  | mad (f : VFields)
  /-- DIV (R119). -/
  | div (f : VFields)
  /-- REM (R119). -/
  | rem (f : VFields)
  /-- ABS (R118). -/
  | abs (f : VFields)
  /-- NEG (R118). -/
  | neg (f : VFields)
  /-- MIN (R118). -/
  | min (f : VFields)
  /-- MAX (R118). -/
  | max (f : VFields)
  /-- CLAMP (R118). -/
  | clamp (f : VFields)
  /-- ABSDIFF (R118). -/
  | absdiff (f : VFields)
  /-- LEA (R120). -/
  | lea (f : VFields)
  /-- AND (R121). -/
  | and (f : VFields)
  /-- OR (R121). -/
  | or (f : VFields)
  /-- XOR (R121). -/
  | xor (f : VFields)
  /-- NOT (R121). -/
  | not (f : VFields)
  /-- SHL (R121). -/
  | shl (f : VFields)
  /-- SHR (R121). -/
  | shr (f : VFields)
  /-- ROTL (R121). -/
  | rotl (f : VFields)
  /-- BFX (R122). -/
  | bfx (f : VFields)
  /-- BFI (R122). -/
  | bfi (f : VFields)
  /-- POPC (R121). -/
  | popc (f : VFields)
  /-- CLZ (R121). -/
  | clz (f : VFields)
  /-- CTZ (R121). -/
  | ctz (f : VFields)
  /-- BREV (R121). -/
  | brev (f : VFields)
  /-- PERMB (R123). -/
  | permb (f : VFields)
  /-- PACK (R124). -/
  | pack (f : VFields)
  /-- CEQ (R125). -/
  | ceq (f : VFields)
  /-- CNE (R125). -/
  | cne (f : VFields)
  /-- CLT (R125). -/
  | clt (f : VFields)
  /-- CLE (R125). -/
  | cle (f : VFields)
  /-- CGT (R125). -/
  | cgt (f : VFields)
  /-- CGE (R125). -/
  | cge (f : VFields)
  /-- CUNO (R125). -/
  | cuno (f : VFields)
  /-- FCLASS (R126). -/
  | fclass (f : VFields)
  /-- FADD (R138). -/
  | fadd (f : VFields)
  /-- FSUB (R138). -/
  | fsub (f : VFields)
  /-- FMUL (R138). -/
  | fmul (f : VFields)
  /-- FFMA (R138). -/
  | ffma (f : VFields)
  /-- FMIN (R138). -/
  | fmin (f : VFields)
  /-- FMAX (R138). -/
  | fmax (f : VFields)
  /-- FRND (R138). -/
  | frnd (f : VFields)
  /-- FDOT2 (R139). -/
  | fdot2 (f : VFields)
  /-- FDOT4 (R140). -/
  | fdot4 (f : VFields)
  /-- FSCALE (R138). -/
  | fscale (f : VFields)
  /-- CVTF (R143). -/
  | cvtf (f : VFields)
  /-- CVTFI (R144). -/
  | cvtfi (f : VFields)
  /-- CVTIF (R144). -/
  | cvtif (f : VFields)
  /-- RCP (R146). -/
  | rcp (f : VFields)
  /-- RSQ (R146). -/
  | rsq (f : VFields)
  /-- SQRT (R146). -/
  | sqrt (f : VFields)
  /-- EXP2 (R146). -/
  | exp2 (f : VFields)
  /-- LOG2 (R146). -/
  | log2 (f : VFields)
  /-- SIN (R146). -/
  | sin (f : VFields)
  /-- COS (R146). -/
  | cos (f : VFields)
  /-- TANH (R146). -/
  | tanh (f : VFields)
  /-- SIGM (R146). -/
  | sigm (f : VFields)
  /-- ACT (R150). -/
  | act (f : VFields)
  /-- LDI (R127). -/
  | ldi (f : IFields)
  /-- LDHI (R127). -/
  | ldhi (f : IFields)
  /-- PCHI (R128). -/
  | pchi (f : IFields)
  /-- ADDI (R127). -/
  | addi (f : IFields)
  /-- MULI (R127). -/
  | muli (f : IFields)
  /-- ANDI (R127). -/
  | andi (f : IFields)
  /-- ORI (R127). -/
  | ori (f : IFields)
  /-- XORI (R127). -/
  | xori (f : IFields)
  /-- SHLI (R127). -/
  | shli (f : IFields)
  /-- SHRI (R127). -/
  | shri (f : IFields)
  /-- MINI (R127). -/
  | mini (f : IFields)
  /-- MAXI (R127). -/
  | maxi (f : IFields)
  /-- CLTI (R127). -/
  | clti (f : IFields)
  /-- FADDI (R141). -/
  | faddi (f : IFields)
  /-- FMULI (R141). -/
  | fmuli (f : IFields)
  /-- FFMAI (R141). -/
  | ffmai (f : IFields)
  /-- FMINI (R141). -/
  | fmini (f : IFields)
  /-- FMAXI (R141). -/
  | fmaxi (f : IFields)
  /-- SMOV (R130). -/
  | smov (f : SFields)
  /-- SSEL (R130). -/
  | ssel (f : SFields)
  /-- SADD (R130). -/
  | sadd (f : SFields)
  /-- SSUB (R130). -/
  | ssub (f : SFields)
  /-- SMUL (R130). -/
  | smul (f : SFields)
  /-- SMULHI (R130). -/
  | smulhi (f : SFields)
  /-- SDIV (R119). -/
  | sdiv (f : SFields)
  /-- SREM (R119). -/
  | srem (f : SFields)
  /-- SMIN (R130). -/
  | smin (f : SFields)
  /-- SMAX (R130). -/
  | smax (f : SFields)
  /-- SLEA (R131). -/
  | slea (f : SFields)
  /-- SAND (R130). -/
  | sand (f : SFields)
  /-- SOR (R130). -/
  | sor (f : SFields)
  /-- SXOR (R130). -/
  | sxor (f : SFields)
  /-- SNOT (R130). -/
  | snot (f : SFields)
  /-- SSHL (R130). -/
  | sshl (f : SFields)
  /-- SSHR (R130). -/
  | sshr (f : SFields)
  /-- SBFX (R131). -/
  | sbfx (f : SFields)
  /-- SPOPC (R130). -/
  | spopc (f : SFields)
  /-- SCLZ (R130). -/
  | sclz (f : SFields)
  /-- SCTZ (R130). -/
  | sctz (f : SFields)
  /-- SCMP (R130). -/
  | scmp (f : SFields)
  /-- SREAD (R132). -/
  | sread (f : SFields)
  /-- SWRITE (R132). -/
  | swrite (f : SFields)
  /-- LEASE_WRITE (R199). -/
  | leaseWrite (f : SFields)
  /-- DIESEL_WRITE (R361). -/
  | dieselWrite (f : SFields)
  /-- DBG_HALT (R278). -/
  | dbgHalt (core : Nat)
  /-- DBG_STEP (R278). -/
  | dbgStep (core : Nat)
  /-- SLD (R133). -/
  | sld (f : SFields)
  /-- SST (R133). -/
  | sst (f : SFields)
  /-- SATOM (R133). -/
  | satom (f : SFields)
  /-- LD (R206). -/
  | ld (f : MFields)
  /-- ST (R206). -/
  | st (f : MFields)
  /-- PREF (R206). -/
  | pref (f : MFields)
  /-- RENEW (R206). -/
  | renew (f : MFields)
  /-- WAITV (R207). -/
  | waitv (f : MFields)
  /-- AADD (R208). -/
  | aadd (f : MFields)
  /-- AMIN (R208). -/
  | amin (f : MFields)
  /-- AMAX (R208). -/
  | amax (f : MFields)
  /-- AAND (R208). -/
  | aand (f : MFields)
  /-- AOR (R208). -/
  | aor (f : MFields)
  /-- AXOR (R208). -/
  | axor (f : MFields)
  /-- AXCHG (R208). -/
  | axchg (f : MFields)
  /-- ACAS (R208). -/
  | acas (f : MFields)
  /-- AFADD (R208). -/
  | afadd (f : MFields)
  /-- AINC (R208). -/
  | ainc (f : MFields)
  /-- COPY (R217). -/
  | copy (f : EFields)
  /-- COPYND (R219). -/
  | copynd (f : EFields)
  /-- GATHER (R220). -/
  | gather (f : EFields)
  /-- SCATTER (R220). -/
  | scatter (f : EFields)
  /-- MAP (R223). -/
  | mapRange (f : EFields)
  /-- UNMAP (R229). -/
  | unmap (f : EFields)
  /-- WBACK (R229). -/
  | wback (f : EFields)
  /-- SETTLE (R345). -/
  | settle (f : EFields)
  /-- SUBWAIT (R230). -/
  | subwait (f : EFields)
  /-- WAITH (R221). -/
  | waith (f : EFields)
  /-- TESTH (R221). -/
  | testh (f : EFields)
  /-- CANCELH (R221). -/
  | cancelh (f : EFields)
  /-- WAITALL (R221). -/
  | waitall (f : EFields)
  /-- TAKE (R242). -/
  | take (f : XFields)
  /-- FREE (R242). -/
  | free (f : XFields)
  /-- BLOAD (R243). -/
  | bload (f : XFields)
  /-- CBLOAD (R244). -/
  | cbload (f : XFields)
  /-- BDROP (R245). -/
  | bdrop (f : XFields)
  /-- MMA (R246). -/
  | mma (f : XFields)
  /-- MXT (R247). -/
  | mxt (f : XFields)
  /-- MXP (R247). -/
  | mxp (f : XFields)
  /-- MXR (R247). -/
  | mxr (f : XFields)
  /-- ACCZ (R248). -/
  | accz (f : XFields)
  /-- ACCRD (R249). -/
  | accrd (f : XFields)
  /-- RKLD (R250). -/
  | rkld (f : XFields)
  /-- RKST (R250). -/
  | rkst (f : XFields)
  /-- BR (R157). -/
  | br (off : Word)
  /-- BRZ (R159). -/
  | brz (c : Operand) (junc : BitVec 22) (target : BitVec 20)
  /-- BRNZ (R159). -/
  | brnz (c : Operand) (junc : BitVec 22) (target : BitVec 20)
  /-- BRSZ (R157). -/
  | brsz (s : BitVec 7) (off : Word)
  /-- BRSNZ (R157). -/
  | brsnz (s : BitVec 7) (off : Word)
  /-- BRDEC (R157). -/
  | brdec (s : BitVec 7) (off : Word)
  /-- JOIN (R163). -/
  | join (f : JoinFields)
  /-- CALL (R167). -/
  | call (n : BitVec 4) (off : Word)
  /-- CALLI (R169). -/
  | calli (n : BitVec 4) (idx : Operand) (sig : Word)
  /-- RET (R170). -/
  | ret (m : BitVec 4)
  /-- EXIT (R171). -/
  | exit
  /-- YIELD (R171). -/
  | yieldGang
  /-- NOP (R171). -/
  | nop
  /-- BRK (R171). -/
  | brk (imm : BitVec 16)
  /-- TRAP (R171). -/
  | trap (imm : BitVec 16)
  /-- ERET (R269). -/
  | eret
  /-- BALLOT (R174). -/
  | ballot (f : GFields)
  /-- VANY (R174). -/
  | vany (f : GFields)
  /-- VALL (R174). -/
  | vall (f : GFields)
  /-- SHFL (R174). -/
  | shfl (f : GFields)
  /-- SHFLX (R174). -/
  | shflx (f : GFields)
  /-- SHFLUP (R174). -/
  | shflup (f : GFields)
  /-- SHFLDN (R174). -/
  | shfldn (f : GFields)
  /-- BCAST (R174). -/
  | bcast (f : GFields)
  /-- REDADD (R174). -/
  | redadd (f : GFields)
  /-- REDMIN (R174). -/
  | redmin (f : GFields)
  /-- REDMAX (R174). -/
  | redmax (f : GFields)
  /-- SCANADD (R174). -/
  | scanadd (f : GFields)
  /-- MATCH (R174). -/
  | matchLanes (f : GFields)
  /-- RANK (R174). -/
  | rank (f : GFields)
  /-- BAR (R296). -/
  | bar (f : YFields)
  /-- BARA (R296). -/
  | bara (f : YFields)
  /-- BARW (R296). -/
  | barw (f : YFields)
  /-- FENCE (R338). -/
  | fence (f : YFields)
  /-- XSWAP (R300). -/
  | xswap (f : YFields)
  /-- MSINC (R400). -/
  | msinc (f : YFields)
  /-- MSWAIT (R400). -/
  | mswait (f : YFields)
  /-- LAUNCH (R400). -/
  | launch (f : YFields)
  /-- LDACT (R259). -/
  | ldact (f : YFields)
  /-- ACTSEL (R260). -/
  | actsel (f : YFields)
  /-- CLOCK (R339). -/
  | clock (f : YFields)
  /-- PTIME (R339). -/
  | ptime (f : YFields)
  /-- SLEEP (R196). -/
  | sleep (f : YFields)
  /-- FWRITE (R420). -/
  | fwrite (f : YFields)
  /-- FCOPY (R421). -/
  | fcopy (f : YFields)
  /-- FATOM (R420). -/
  | fatom (f : YFields)
  /-- WINFENCE (R422). -/
  | winfence (f : YFields)
  /-- PAIR (R152). -/
  | pair (f : PairFields)
  /-- NEST (R255). -/
  | nest (f : NestFields)
  -- events: steps of other agents than the issuing gang
  /-- CLAUSE_START (R193). -/
  | clauseStart (core slot : Nat)
  /-- LOAD_DATA_ARRIVAL (R206). -/
  | loadDataArrival (req : Nat)
  /-- SCALAR_DATA_ARRIVAL (R23). -/
  | scalarDataArrival (req : Nat)
  /-- LONG_RESULT_READY (R137). -/
  | longResultReady (req : Nat)
  /-- STORE_ACK (R197). -/
  | storeAck (req : Nat)
  /-- SCRATCH_PERFORM (R186). -/
  | scratchPerform (req : Nat)
  /-- HOME_STORE (R334). -/
  | homeStore (req : Nat) (evict : List Nat)
  /-- HOME_ATOMIC (R208). -/
  | homeAtomic (req : Nat) (evict : List Nat)
  /-- HOME_RENEWAL (R334). -/
  | homeRenewal (req : Nat) (evict : List Nat)
  /-- HOME_READ (R334). -/
  | homeRead (req : Nat)
  /-- RENEWAL_REPLY (R334). -/
  | renewalReply (req : Nat) (ext : RemoteReply)
  /-- WAITV_REREAD (R207). -/
  | waitvReread (req : Nat)
  /-- CLOCK_CREEP (R334). -/
  | clockCreep (core : Nat)
  /-- REBASE (R337). -/
  | rebase
  /-- PRIORITY_PROMOTION (R194). -/
  | priorityPromotion (core launch : Nat)
  /-- SLEEP_END (R196). -/
  | sleepEnd (core frame slice : Nat)
  /-- REPLAY (R212). -/
  | replay (core frame : Nat)
  /-- FAULT_SERVICE_ANSWER (R264). -/
  | faultServiceAnswer (core frame : Nat) (repaired : Bool)
  /-- GROUP_RESUME (R265). -/
  | groupResume (core frame : Nat) (skip : Bool)
  /-- SOFT_ERROR (R262). -/
  | softError (core frame : Nat) (mask : BitVec 8)
  /-- PREEMPT_REQUEST (R270). -/
  | preemptRequest (launch : Nat) (a : SaveArgs)
  /-- SAVE_RECORDS (R271). -/
  | saveRecords (launch : Nat) (a : SaveArgs)
  /-- RESTORE (R277). -/
  | restore (a : RestoreArgs)
  /-- ENGINE_COMPLETE (R215). -/
  | engineComplete (core handle : Nat)
  /-- ENGINE_PAUSE (R216). -/
  | enginePause (core handle units : Nat)
  /-- ENGINE_RESUME (R216). -/
  | engineResume (core handle : Nat)
  /-- BLOCK_FILL (R225). -/
  | blockFill (core range block : Nat)
  /-- SUBSCRIPTION_FILL_DONE (R320). -/
  | subscriptionFillDone (core range : Nat)
  /-- SEQUENCER_NUMBER (R320). -/
  | sequencerNumber (die sub write : Nat)
  /-- UPDATE_APPLY (R226). -/
  | updateApply (core range : Nat)
  /-- SECTION_PERFORM (R241). -/
  | sectionPerform (core sect : Nat)
  /-- BDROP_ACT (R245). -/
  | bdropAct (core sect : Nat)
  /-- NEST_PERFORM (R258). -/
  | nestPerform (core : Nat)
  /-- SECTION_WAIT_END (R235). -/
  | sectionWaitEnd (core frame slice : Nat)
  /-- TAKE_CLAIM (R242). -/
  | takeClaim (core frame slice : Nat)
  /-- LDACT_BANK_WRITE (R259). -/
  | ldactBankWrite (core frame slice : Nat)
  /-- BARRIER_DEPART (R296). -/
  | barrierDepart (core frame slice : Nat)
  /-- XSWAP_MATCH (R300). -/
  | xswapMatch (core frame slice : Nat)
  /-- FENCE_COMPLETE (R338). -/
  | fenceComplete (core frame slice : Nat)
  /-- SETTLE_COMPLETE (R345). -/
  | settleComplete (core frame slice : Nat)
  /-- MSWAIT_REREAD (R400). -/
  | mswaitReread (core frame slice : Nat)
  /-- WINFENCE_WINDOW_END (R422). -/
  | winfenceWindowEnd (core frame slice : Nat)
  /-- GROUP_RETIRE (R397). -/
  | groupRetire (core frame : Nat)
  /-- TEAM_LEAVE (R229). -/
  | teamLeave (core launch : Nat)
  /-- LAUNCH_COMPLETE (R397). -/
  | launchComplete (launch : Nat)
  /-- QUEUE_TAIL_UPDATE (R395). -/
  | queueTailUpdate (ctx queue : Nat)
  /-- PASS_MILESTONE_REREAD (R395). -/
  | passMilestoneReread (rec : Nat)
  /-- CLUSTER_PLACE (R396). -/
  | clusterPlace (a : PlaceArgs)
  /-- SHOOTDOWN (R376). -/
  | shootdown (src : ShootSource)
  /-- SHOOTDOWN_COMPLETE (R376). -/
  | shootdownComplete
  /-- WALK_COMPLETE (R374). -/
  | walkComplete (req : Nat)
  /-- CONN_SETUP (R358). -/
  | connSetup (die entry : Nat)
  /-- CONN_TEARDOWN (R358). -/
  | connTeardown (die entry : Nat)
  /-- CONN_CLEAR (R358). -/
  | connClear (die entry : Nat)
  /-- CIRCUIT_UP (R358). -/
  | circuitUp (die entry : Nat)
  /-- CIRCUIT_DRAINED (R358). -/
  | circuitDrained (die entry : Nat)
  /-- OPTICAL_FAILURE (R358). -/
  | opticalFailure (die entry : Nat)
  /-- WAVELENGTH_FAILURE (R363). -/
  | wavelengthFailure (die bundle : Nat)
  /-- STREAM_MOVE (R356). -/
  | streamMove (stream : StreamKey) (path : Nat)
  /-- SPARE_WAY_REPLACE (R325). -/
  | spareWayReplace (die slice : Nat) (remote : Bool) (lines : List Nat)
  /-- HBM_ROW_REMAP (R363). -/
  | hbmRowRemap (die row : Nat)
  /-- MESH_LINK_SPARE (R363). -/
  | meshLinkSpare (die link : Nat)
  /-- CORE_RETIRE (R364). -/
  | coreRetire (core : Nat)
  /-- HARVEST_MODE_SET (R362). -/
  | harvestModeSet (dies : List Nat) (full : Bool)
  /-- POWER_SHARE_UPDATE (R365). -/
  | powerShareUpdate (shares : List Nat)
  /-- PACKAGE_RESET (R366). -/
  | packageReset
  /-- DIE_RESET (R367). -/
  | dieReset (die : Nat)
  /-- BIAS_FLIP_TO_HOST (R349). -/
  | biasFlipToHost (die region : Nat)
  /-- BIAS_FLIP_TO_DEVICE (R349). -/
  | biasFlipToDevice (die region : Nat)
  /-- HOST_SNOOP (R313). -/
  | hostSnoop (die line : Nat) (data : List Byte)
  /-- HOST_MEM_READ (R348). -/
  | hostMemRead (addr len : Nat)
  /-- HOST_MEM_WRITE (R348). -/
  | hostMemWrite (addr : Nat) (data : List Byte)
  /-- MIG_START (R378). -/
  | migStart (die entry : Nat)
  /-- MIG_RETIRE (R380). -/
  | migRetire (die entry : Nat)
  /-- MIG_CLEAR (R378). -/
  | migClear (die entry : Nat)
  /-- MIGRATION_BLOCK_COPY (R379). -/
  | migrationBlockCopy (die entry : Nat)
  /-- BAR0_WRITE (R359). -/
  | bar0Write (off : Nat) (val : DWord)
  /-- FWINCFG_WRITE (R412). -/
  | fwincfgWrite (val : Word)
  /-- FDEVCFG_WRITE (R412). -/
  | fdevcfgWrite (val : Word)
  /-- REMOTE_REQUEST (R410). -/
  | remoteRequest (r : RemoteRequest)
  /-- REMOTE_WRITE_PERFORM (R415). -/
  | remoteWritePerform (id : Nat)
  /-- REMOTE_WRITE_TIMEOUT (R415). -/
  | remoteWriteTimeout (req : Nat)
  /-- SYNC_LOSS (R411). -/
  | syncLoss (err : Option (BitVec 16))
  /-- SYNC_REGAIN (R411). -/
  | syncRegain (err : BitVec 16)
  /-- HEAD_FLIT_ERROR (R425). -/
  | headFlitError (req port : Nat)
  /-- UNCORRECTABLE_MEMORY_ERROR (R325). -/
  | uncorrectableMemoryError (e : MemError)
  /-- L2_SLICE_FAILURE (R325). -/
  | l2SliceFailure (die slice : Nat)
  /-- END_LAUNCH (R265). -/
  | endLaunch (launch : Nat)
  /-- QUEUE_STATUS_CLEAR (R394). -/
  | queueStatusClear (ctx : Nat) (act : PassAct)
  deriving DecidableEq, Repr, Inhabited

end Sys2Proof
end

