-- ==== Sys2Proof/Config.lean ====
section
/-! DEFINITION. The figures of the part, and the values the spec leaves open (R1 to R12, R182, R306). -/

namespace Sys2Proof

/-- What may happen next: a slot issues the next instruction of the clause it holds; another agent takes a
step; core cycles pass, in each of which every slot moves, or one cycle ends; an engine operation moves some of its units; an
instruction that waits at the next clause header (R221) is tried again. -/
inductive Move where
  | issue (core slot : Nat)
  | event (i : Instr)
  | advance (cycles : Nat)
  | tick
  | engineUnits (core handle units : Nat)
  | resume (core frame slice : Nat)
  deriving DecidableEq, Repr, Inhabited

/-- Which move comes next where the agenda names none: the spec fixes no order among the agents. A free
value: nothing in the model says what it is. -/
opaque Config.freeMove : Nat → Move

/-- What ACT pushes for a source whose position lies below segment 0, which only a negative SCALE gives: R150 names
no segment there. A free value. -/
opaque Config.actBelow : Word → Word

/-- Choices of a NEST whose operands overlap, by its number, its tuple and what is chosen (R257). 1 to 7: whether the read of that source
gives the value before the NEST. 0: whether a later write of one element leaves the earlier value. 8: whether all the reads of an element
come before every write. 16 and a source: whether the read gives what a later tuple writes. Free values. -/
opaque Config.nestChoice : Nat → Nat → Nat → Bool

/-- Whether the test of a reset finds a core healthy, by its key and the cycle of the reset; and a slice, by its die and number
(R364, R366). Free values. -/
opaque Config.selfTest : Nat → Nat → Bool
opaque Config.sliceTest : Nat → Nat → Nat → Bool

/-- Package time as Sundoc sets it from the host or from IEEE 1588 in step 6 of a package reset, by the cycle of the reset (R366).
A free value. -/
opaque Config.bootTime : Nat → Nat

/-- Whether the power governor throttles a free slot in a cycle, by its die's share, the cycle, the core and the slot: R6 and
R365 give no rule for it. A free value. -/
opaque Config.throttled : Nat → Nat → Nat → Nat → Bool

/-- Ways of a set of L1: R187 names sets and gives no number. A free value; 0 stands for 8. -/
opaque Config.l1WaysFree : Nat

/-- What is added to a line's number to find its set in an L1, in an L2 slice and in a remote-data cache: R187, R309 and R311
give no rule. Free values. -/
opaque Config.l1Hash : Nat → Nat
opaque Config.l2Hash : Nat → Nat
opaque Config.rdcHash : Nat → Nat

/-- Which line of a full set of an L2 slice or of a remote-data cache leaves it, by a counter and the line that comes: R309 and
R311 give no rule. A free value. -/
opaque Config.victim : Nat → Nat → Nat

/-- Sectors into which the memory controller compresses a 2 KiB block, 1 to 7 where it does: R314 gives no rule. A free value. -/
opaque Config.sectors : List (BitVec 8) → Nat

/-- Ways of a set of L1 (R187). -/
def Config.l1Ways : Nat := if Config.l1WaysFree = 0 then 8 else Config.l1WaysFree

/-- Sets of an L2 slice or a slice of a remote-data cache, and its ways in use (R309, R311). -/
def Config.sliceSets : Nat := 2048
def Config.sliceWays : Nat := 16

/-- Physical cores of a die (R360). -/
def Config.coresPerDie : Nat := 36

/-- Compute dies of the part (R2). -/
def Config.dies : Nat := 16

/-- L2 slices of a die (R307). -/
def Config.slicesPerDie : Nat := 24

/-- Core cycles between two creeps of a clock at most (R334). -/
def Config.creepCycles : Nat := 16

/-- Core cycles of a nanosecond, and so of a tick of package time (R355). -/
def Config.cyclesPerNs : Nat := 2

/-- Bytes of a line (R187, R309). -/
def Config.lineBytes : Nat := 128

/-- Bytes of a scratch pool at most (R183). -/
def Config.scratchMax : Nat := 2097152

/-- Starved cycles of one promotion (R194). -/
def Config.promoteCycles : Nat := 20000000

end Sys2Proof
end

