-- ==== Sys2Proof/Machine/Forms.lean ====
section
/-! DEFINITION. The forms of the instructions: class, opcode and fields, and the static rules of
each class that fault ILLOP (R46 to R76, steps 1 to 4, as far as the code words alone decide them). -/

namespace Sys2Proof

/-- Class, opcode and fields of an instruction. -/
inductive Form where
  | v (op : Nat) (f : VFields)
  | get (slot : BitVec 6)
  | save (age : BitVec 5) (slot : BitVec 6)
  | drop (n : BitVec 5)
  | i (op : Nat) (f : IFields)
  | s (op : Nat) (f : SFields)
  | m (op : Nat) (f : MFields)
  | e (op : Nat) (f : EFields)
  | x (op : Nat) (f : XFields)
  | bw (op : Nat) (n : BitVec 4) (off : Word)
  | bz (op : Nat) (c : Operand) (junc : BitVec 22) (target : BitVec 20)
  | bs (op : Nat) (s : BitVec 7) (off : Word)
  | join (f : JoinFields)
  | calli (n : BitVec 4) (idx : Operand) (sig : Word)
  | ret (m : BitVec 4)
  | b0 (op : Nat)
  | bi (op : Nat) (imm : BitVec 16)
  | g (op : Nat) (f : GFields)
  | y (op : Nat) (f : YFields)
  | pair (f : PairFields)
  | nest (f : NestFields)
  | event
  deriving DecidableEq, Repr, Inhabited

/-- The form of an instruction: its class, its opcode and its fields (R56 to R75); an event has none. -/
def Instr.form : Instr → Form
  | .dup f => .v 0x00 f
  | .get slot => .get slot
  | .save age slot => .save age slot
  | .sel f => .v 0x01 f
  | .drop n => .drop n
  | .lane f => .v 0x03 f
  | .add f => .v 0x10 f
  | .sub f => .v 0x11 f
  | .mul f => .v 0x12 f
  | .mulhi f => .v 0x13 f
  | .mad f => .v 0x14 f
  | .div f => .v 0x15 f
  | .rem f => .v 0x16 f
  | .abs f => .v 0x17 f
  | .neg f => .v 0x18 f
  | .min f => .v 0x19 f
  | .max f => .v 0x1A f
  | .clamp f => .v 0x1B f
  | .absdiff f => .v 0x1C f
  | .lea f => .v 0x1D f
  | .and f => .v 0x20 f
  | .or f => .v 0x21 f
  | .xor f => .v 0x22 f
  | .not f => .v 0x23 f
  | .shl f => .v 0x24 f
  | .shr f => .v 0x25 f
  | .rotl f => .v 0x26 f
  | .bfx f => .v 0x27 f
  | .bfi f => .v 0x28 f
  | .popc f => .v 0x29 f
  | .clz f => .v 0x2A f
  | .ctz f => .v 0x2B f
  | .brev f => .v 0x2C f
  | .permb f => .v 0x2D f
  | .pack f => .v 0x2E f
  | .ceq f => .v 0x30 f
  | .cne f => .v 0x31 f
  | .clt f => .v 0x32 f
  | .cle f => .v 0x33 f
  | .cgt f => .v 0x34 f
  | .cge f => .v 0x35 f
  | .cuno f => .v 0x36 f
  | .fclass f => .v 0x37 f
  | .fadd f => .v 0x40 f
  | .fsub f => .v 0x41 f
  | .fmul f => .v 0x42 f
  | .ffma f => .v 0x43 f
  | .fmin f => .v 0x44 f
  | .fmax f => .v 0x45 f
  | .frnd f => .v 0x46 f
  | .fdot2 f => .v 0x47 f
  | .fdot4 f => .v 0x48 f
  | .fscale f => .v 0x49 f
  | .cvtf f => .v 0x4A f
  | .cvtfi f => .v 0x4B f
  | .cvtif f => .v 0x4C f
  | .rcp f => .v 0x50 f
  | .rsq f => .v 0x51 f
  | .sqrt f => .v 0x52 f
  | .exp2 f => .v 0x53 f
  | .log2 f => .v 0x54 f
  | .sin f => .v 0x55 f
  | .cos f => .v 0x56 f
  | .tanh f => .v 0x57 f
  | .sigm f => .v 0x58 f
  | .act f => .v 0x59 f
  | .ldi f => .i 0x00 f
  | .ldhi f => .i 0x01 f
  | .pchi f => .i 0x02 f
  | .addi f => .i 0x10 f
  | .muli f => .i 0x11 f
  | .andi f => .i 0x12 f
  | .ori f => .i 0x13 f
  | .xori f => .i 0x14 f
  | .shli f => .i 0x15 f
  | .shri f => .i 0x16 f
  | .mini f => .i 0x17 f
  | .maxi f => .i 0x18 f
  | .clti f => .i 0x19 f
  | .faddi f => .i 0x40 f
  | .fmuli f => .i 0x41 f
  | .ffmai f => .i 0x42 f
  | .fmini f => .i 0x43 f
  | .fmaxi f => .i 0x44 f
  | .smov f => .s 0x00 f
  | .ssel f => .s 0x01 f
  | .sadd f => .s 0x10 f
  | .ssub f => .s 0x11 f
  | .smul f => .s 0x12 f
  | .smulhi f => .s 0x13 f
  | .sdiv f => .s 0x14 f
  | .srem f => .s 0x15 f
  | .smin f => .s 0x16 f
  | .smax f => .s 0x17 f
  | .slea f => .s 0x18 f
  | .sand f => .s 0x20 f
  | .sor f => .s 0x21 f
  | .sxor f => .s 0x22 f
  | .snot f => .s 0x23 f
  | .sshl f => .s 0x24 f
  | .sshr f => .s 0x25 f
  | .sbfx f => .s 0x26 f
  | .spopc f => .s 0x27 f
  | .sclz f => .s 0x28 f
  | .sctz f => .s 0x29 f
  | .scmp f => .s 0x30 f
  | .sread f => .s 0x40 f
  | .swrite f => .s 0x41 f
  | .leaseWrite f => .s 0x41 f
  | .dieselWrite f => .s 0x41 f
  | .dbgHalt _ => .event
  | .dbgStep _ => .event
  | .sld f => .s 0x50 f
  | .sst f => .s 0x51 f
  | .satom f => .s 0x52 f
  | .ld f => .m 0x00 f
  | .st f => .m 0x01 f
  | .pref f => .m 0x02 f
  | .renew f => .m 0x03 f
  | .waitv f => .m 0x04 f
  | .aadd f => .m 0x08 f
  | .amin f => .m 0x09 f
  | .amax f => .m 0x0A f
  | .aand f => .m 0x0B f
  | .aor f => .m 0x0C f
  | .axor f => .m 0x0D f
  | .axchg f => .m 0x0E f
  | .acas f => .m 0x0F f
  | .afadd f => .m 0x10 f
  | .ainc f => .m 0x11 f
  | .copy f => .e 0x00 f
  | .copynd f => .e 0x01 f
  | .gather f => .e 0x02 f
  | .scatter f => .e 0x03 f
  | .mapRange f => .e 0x04 f
  | .unmap f => .e 0x05 f
  | .wback f => .e 0x06 f
  | .settle f => .e 0x07 f
  | .subwait f => .e 0x08 f
  | .waith f => .e 0x10 f
  | .testh f => .e 0x11 f
  | .cancelh f => .e 0x12 f
  | .waitall f => .e 0x13 f
  | .take f => .x 0x00 f
  | .free f => .x 0x01 f
  | .bload f => .x 0x02 f
  | .cbload f => .x 0x03 f
  | .bdrop f => .x 0x04 f
  | .mma f => .x 0x05 f
  | .mxt f => .x 0x06 f
  | .mxp f => .x 0x07 f
  | .mxr f => .x 0x08 f
  | .accz f => .x 0x09 f
  | .accrd f => .x 0x0A f
  | .rkld f => .x 0x0B f
  | .rkst f => .x 0x0C f
  | .br off => .bw 0x00 0 off
  | .brz c j t => .bz 0x01 c j t
  | .brnz c j t => .bz 0x02 c j t
  | .brsz s off => .bs 0x03 s off
  | .brsnz s off => .bs 0x04 s off
  | .brdec s off => .bs 0x05 s off
  | .join f => .join f
  | .call n off => .bw 0x09 n off
  | .calli n x sig => .calli n x sig
  | .ret m => .ret m
  | .exit => .b0 0x0C
  | .yieldGang => .b0 0x0D
  | .nop => .b0 0x0E
  | .brk imm => .bi 0x0F imm
  | .trap imm => .bi 0x10 imm
  | .eret => .b0 0x11
  | .ballot f => .g 0x00 f
  | .vany f => .g 0x01 f
  | .vall f => .g 0x02 f
  | .shfl f => .g 0x03 f
  | .shflx f => .g 0x04 f
  | .shflup f => .g 0x05 f
  | .shfldn f => .g 0x06 f
  | .bcast f => .g 0x07 f
  | .redadd f => .g 0x08 f
  | .redmin f => .g 0x09 f
  | .redmax f => .g 0x0A f
  | .scanadd f => .g 0x0B f
  | .matchLanes f => .g 0x0C f
  | .rank f => .g 0x0D f
  | .bar f => .y 0x00 f
  | .bara f => .y 0x01 f
  | .barw f => .y 0x02 f
  | .fence f => .y 0x03 f
  | .xswap f => .y 0x04 f
  | .msinc f => .y 0x08 f
  | .mswait f => .y 0x09 f
  | .launch f => .y 0x0A f
  | .ldact f => .y 0x0C f
  | .actsel f => .y 0x0D f
  | .clock f => .y 0x10 f
  | .ptime f => .y 0x11 f
  | .sleep f => .y 0x12 f
  | .fwrite f => .y 0x20 f
  | .fcopy f => .y 0x21 f
  | .fatom f => .y 0x22 f
  | .winfence f => .y 0x23 f
  | .pair f => .pair f
  | .nest f => .nest f
  | .clauseStart _ _ => .event
  | .loadDataArrival _ => .event
  | .scalarDataArrival _ => .event
  | .longResultReady _ => .event
  | .storeAck _ => .event
  | .scratchPerform _ => .event
  | .homeStore _ _ => .event
  | .homeAtomic _ _ => .event
  | .homeRenewal _ _ => .event
  | .homeRead _ => .event
  | .renewalReply _ _ => .event
  | .waitvReread _ => .event
  | .clockCreep _ => .event
  | .rebase => .event
  | .priorityPromotion _ _ => .event
  | .sleepEnd _ _ _ => .event
  | .replay _ _ => .event
  | .faultServiceAnswer _ _ _ => .event
  | .groupResume _ _ _ => .event
  | .softError _ _ _ => .event
  | .preemptRequest _ _ => .event
  | .saveRecords _ _ => .event
  | .restore _ => .event
  | .engineComplete _ _ => .event
  | .enginePause _ _ _ => .event
  | .engineResume _ _ => .event
  | .blockFill _ _ _ => .event
  | .subscriptionFillDone _ _ => .event
  | .sequencerNumber _ _ _ => .event
  | .updateApply _ _ => .event
  | .sectionPerform _ _ => .event
  | .bdropAct _ _ => .event
  | .nestPerform _ => .event
  | .sectionWaitEnd _ _ _ => .event
  | .takeClaim _ _ _ => .event
  | .ldactBankWrite _ _ _ => .event
  | .barrierDepart _ _ _ => .event
  | .xswapMatch _ _ _ => .event
  | .fenceComplete _ _ _ => .event
  | .settleComplete _ _ _ => .event
  | .mswaitReread _ _ _ => .event
  | .winfenceWindowEnd _ _ _ => .event
  | .groupRetire _ _ => .event
  | .teamLeave _ _ => .event
  | .launchComplete _ => .event
  | .queueTailUpdate _ _ => .event
  | .passMilestoneReread _ => .event
  | .clusterPlace _ => .event
  | .shootdown _ => .event
  | .shootdownComplete => .event
  | .walkComplete _ => .event
  | .connSetup _ _ => .event
  | .connTeardown _ _ => .event
  | .connClear _ _ => .event
  | .circuitUp _ _ => .event
  | .circuitDrained _ _ => .event
  | .opticalFailure _ _ => .event
  | .wavelengthFailure _ _ => .event
  | .streamMove _ _ => .event
  | .spareWayReplace _ _ _ _ => .event
  | .hbmRowRemap _ _ => .event
  | .meshLinkSpare _ _ => .event
  | .coreRetire _ => .event
  | .harvestModeSet _ _ => .event
  | .powerShareUpdate _ => .event
  | .packageReset => .event
  | .dieReset _ => .event
  | .biasFlipToHost _ _ => .event
  | .biasFlipToDevice _ _ => .event
  | .hostSnoop _ _ _ => .event
  | .hostMemRead _ _ => .event
  | .hostMemWrite _ _ => .event
  | .migStart _ _ => .event
  | .migRetire _ _ => .event
  | .migClear _ _ => .event
  | .migrationBlockCopy _ _ => .event
  | .bar0Write _ _ => .event
  | .fwincfgWrite _ => .event
  | .fdevcfgWrite _ => .event
  | .remoteRequest _ => .event
  | .remoteWritePerform _ => .event
  | .remoteWriteTimeout _ => .event
  | .syncLoss _ => .event
  | .syncRegain _ => .event
  | .headFlitError _ _ => .event
  | .uncorrectableMemoryError _ => .event
  | .l2SliceFailure _ _ => .event
  | .endLaunch _ => .event
  | .queueStatusClear _ _ => .event

/-- The V instruction of an opcode (R57). -/
def Instr.ofV (op : Nat) (f : VFields) : Option Instr :=
  match op with
  | 0x00 => some (.dup f)
  | 0x01 => some (.sel f)
  | 0x03 => some (.lane f)
  | 0x10 => some (.add f)
  | 0x11 => some (.sub f)
  | 0x12 => some (.mul f)
  | 0x13 => some (.mulhi f)
  | 0x14 => some (.mad f)
  | 0x15 => some (.div f)
  | 0x16 => some (.rem f)
  | 0x17 => some (.abs f)
  | 0x18 => some (.neg f)
  | 0x19 => some (.min f)
  | 0x1A => some (.max f)
  | 0x1B => some (.clamp f)
  | 0x1C => some (.absdiff f)
  | 0x1D => some (.lea f)
  | 0x20 => some (.and f)
  | 0x21 => some (.or f)
  | 0x22 => some (.xor f)
  | 0x23 => some (.not f)
  | 0x24 => some (.shl f)
  | 0x25 => some (.shr f)
  | 0x26 => some (.rotl f)
  | 0x27 => some (.bfx f)
  | 0x28 => some (.bfi f)
  | 0x29 => some (.popc f)
  | 0x2A => some (.clz f)
  | 0x2B => some (.ctz f)
  | 0x2C => some (.brev f)
  | 0x2D => some (.permb f)
  | 0x2E => some (.pack f)
  | 0x30 => some (.ceq f)
  | 0x31 => some (.cne f)
  | 0x32 => some (.clt f)
  | 0x33 => some (.cle f)
  | 0x34 => some (.cgt f)
  | 0x35 => some (.cge f)
  | 0x36 => some (.cuno f)
  | 0x37 => some (.fclass f)
  | 0x40 => some (.fadd f)
  | 0x41 => some (.fsub f)
  | 0x42 => some (.fmul f)
  | 0x43 => some (.ffma f)
  | 0x44 => some (.fmin f)
  | 0x45 => some (.fmax f)
  | 0x46 => some (.frnd f)
  | 0x47 => some (.fdot2 f)
  | 0x48 => some (.fdot4 f)
  | 0x49 => some (.fscale f)
  | 0x4A => some (.cvtf f)
  | 0x4B => some (.cvtfi f)
  | 0x4C => some (.cvtif f)
  | 0x50 => some (.rcp f)
  | 0x51 => some (.rsq f)
  | 0x52 => some (.sqrt f)
  | 0x53 => some (.exp2 f)
  | 0x54 => some (.log2 f)
  | 0x55 => some (.sin f)
  | 0x56 => some (.cos f)
  | 0x57 => some (.tanh f)
  | 0x58 => some (.sigm f)
  | 0x59 => some (.act f)
  | _ => none

/-- The I instruction of an opcode (R61). -/
def Instr.ofI (op : Nat) (f : IFields) : Option Instr :=
  match op with
  | 0x00 => some (.ldi f)
  | 0x01 => some (.ldhi f)
  | 0x02 => some (.pchi f)
  | 0x10 => some (.addi f)
  | 0x11 => some (.muli f)
  | 0x12 => some (.andi f)
  | 0x13 => some (.ori f)
  | 0x14 => some (.xori f)
  | 0x15 => some (.shli f)
  | 0x16 => some (.shri f)
  | 0x17 => some (.mini f)
  | 0x18 => some (.maxi f)
  | 0x19 => some (.clti f)
  | 0x40 => some (.faddi f)
  | 0x41 => some (.fmuli f)
  | 0x42 => some (.ffmai f)
  | 0x43 => some (.fmini f)
  | 0x44 => some (.fmaxi f)
  | _ => none

/-- The S instruction of an opcode (R63). -/
def Instr.ofS (op : Nat) (f : SFields) : Option Instr :=
  match op with
  | 0x00 => some (.smov f)
  | 0x01 => some (.ssel f)
  | 0x10 => some (.sadd f)
  | 0x11 => some (.ssub f)
  | 0x12 => some (.smul f)
  | 0x13 => some (.smulhi f)
  | 0x14 => some (.sdiv f)
  | 0x15 => some (.srem f)
  | 0x16 => some (.smin f)
  | 0x17 => some (.smax f)
  | 0x18 => some (.slea f)
  | 0x20 => some (.sand f)
  | 0x21 => some (.sor f)
  | 0x22 => some (.sxor f)
  | 0x23 => some (.snot f)
  | 0x24 => some (.sshl f)
  | 0x25 => some (.sshr f)
  | 0x26 => some (.sbfx f)
  | 0x27 => some (.spopc f)
  | 0x28 => some (.sclz f)
  | 0x29 => some (.sctz f)
  | 0x30 => some (.scmp f)
  | 0x40 => some (.sread f)
  | 0x41 => some (if f.imm = 0x00A#12 then .leaseWrite f else if f.imm = 0x105#12 then .dieselWrite f else .swrite f)
  | 0x50 => some (.sld f)
  | 0x51 => some (.sst f)
  | 0x52 => some (.satom f)
  | _ => none

/-- The M instruction of an opcode (R65). -/
def Instr.ofM (op : Nat) (f : MFields) : Option Instr :=
  match op with
  | 0x00 => some (.ld f)
  | 0x01 => some (.st f)
  | 0x02 => some (.pref f)
  | 0x03 => some (.renew f)
  | 0x04 => some (.waitv f)
  | 0x08 => some (.aadd f)
  | 0x09 => some (.amin f)
  | 0x0A => some (.amax f)
  | 0x0B => some (.aand f)
  | 0x0C => some (.aor f)
  | 0x0D => some (.axor f)
  | 0x0E => some (.axchg f)
  | 0x0F => some (.acas f)
  | 0x10 => some (.afadd f)
  | 0x11 => some (.ainc f)
  | _ => none

/-- The E instruction of an opcode (R67). -/
def Instr.ofE (op : Nat) (f : EFields) : Option Instr :=
  match op with
  | 0x00 => some (.copy f)
  | 0x01 => some (.copynd f)
  | 0x02 => some (.gather f)
  | 0x03 => some (.scatter f)
  | 0x04 => some (.mapRange f)
  | 0x05 => some (.unmap f)
  | 0x06 => some (.wback f)
  | 0x07 => some (.settle f)
  | 0x08 => some (.subwait f)
  | 0x10 => some (.waith f)
  | 0x11 => some (.testh f)
  | 0x12 => some (.cancelh f)
  | 0x13 => some (.waitall f)
  | _ => none

/-- The X instruction of an opcode (R69). -/
def Instr.ofX (op : Nat) (f : XFields) : Option Instr :=
  match op with
  | 0x00 => some (.take f)
  | 0x01 => some (.free f)
  | 0x02 => some (.bload f)
  | 0x03 => some (.cbload f)
  | 0x04 => some (.bdrop f)
  | 0x05 => some (.mma f)
  | 0x06 => some (.mxt f)
  | 0x07 => some (.mxp f)
  | 0x08 => some (.mxr f)
  | 0x09 => some (.accz f)
  | 0x0A => some (.accrd f)
  | 0x0B => some (.rkld f)
  | 0x0C => some (.rkst f)
  | _ => none

/-- The G instruction of an opcode (R72). -/
def Instr.ofG (op : Nat) (f : GFields) : Option Instr :=
  match op with
  | 0x00 => some (.ballot f)
  | 0x01 => some (.vany f)
  | 0x02 => some (.vall f)
  | 0x03 => some (.shfl f)
  | 0x04 => some (.shflx f)
  | 0x05 => some (.shflup f)
  | 0x06 => some (.shfldn f)
  | 0x07 => some (.bcast f)
  | 0x08 => some (.redadd f)
  | 0x09 => some (.redmin f)
  | 0x0A => some (.redmax f)
  | 0x0B => some (.scanadd f)
  | 0x0C => some (.matchLanes f)
  | 0x0D => some (.rank f)
  | _ => none

/-- The Y instruction of an opcode (R73). -/
def Instr.ofY (op : Nat) (f : YFields) : Option Instr :=
  match op with
  | 0x00 => some (.bar f)
  | 0x01 => some (.bara f)
  | 0x02 => some (.barw f)
  | 0x03 => some (.fence f)
  | 0x04 => some (.xswap f)
  | 0x08 => some (.msinc f)
  | 0x09 => some (.mswait f)
  | 0x0A => some (.launch f)
  | 0x0C => some (.ldact f)
  | 0x0D => some (.actsel f)
  | 0x10 => some (.clock f)
  | 0x11 => some (.ptime f)
  | 0x12 => some (.sleep f)
  | 0x20 => some (.fwrite f)
  | 0x21 => some (.fcopy f)
  | 0x22 => some (.fatom f)
  | 0x23 => some (.winfence f)
  | _ => none

/-- The instruction of a form: none for an opcode that its class leaves unassigned (R57 to R75). -/
def Form.toInstr : Form → Option Instr
  | .v op f => Instr.ofV op f
  | .get slot => some (.get slot)
  | .save age slot => some (.save age slot)
  | .drop n => some (.drop n)
  | .i op f => Instr.ofI op f
  | .s op f => Instr.ofS op f
  | .m op f => Instr.ofM op f
  | .e op f => Instr.ofE op f
  | .x op f => Instr.ofX op f
  | .bw 0x00 n off => if n = 0 then some (.br off) else none
  | .bw 0x09 n off => some (.call n off)
  | .bw _ _ _ => none
  | .bz 0x01 c j t => some (.brz c j t)
  | .bz 0x02 c j t => some (.brnz c j t)
  | .bz _ _ _ _ => none
  | .bs 0x03 r off => some (.brsz r off)
  | .bs 0x04 r off => some (.brsnz r off)
  | .bs 0x05 r off => some (.brdec r off)
  | .bs _ _ _ => none
  | .join f => some (.join f)
  | .calli n idx sig => some (.calli n idx sig)
  | .ret k => some (.ret k)
  | .b0 0x0C => some .exit
  | .b0 0x0D => some .yieldGang
  | .b0 0x0E => some .nop
  | .b0 0x11 => some .eret
  | .b0 _ => none
  | .bi 0x0F imm => some (.brk imm)
  | .bi 0x10 imm => some (.trap imm)
  | .bi _ _ => none
  | .g op f => Instr.ofG op f
  | .y op f => Instr.ofY op f
  | .pair f => some (.pair f)
  | .nest f => some (.nest f)
  | .event => none

/-! ## Types and operands -/

/-- Types of two entries (R48, R52). -/
def Ty.is64 : Ty → Bool
  | .f64 | .i64 | .n64 | .b64 => true
  | _ => false

/-- Float types (R50, R52). -/
def Ty.isFloat : Ty → Bool
  | .f32 | .f16x2 | .bf16x2 | .f64 => true
  | _ => false

/-- The i-types (R50). -/
def Ty.isSigned : Ty → Bool
  | .i32 | .i16x2 | .i8x4 | .i64 => true
  | _ => false

/-- Width of an element of a type (R52, R92). -/
def Ty.width : Ty → Nat
  | .f16x2 | .bf16x2 | .i16x2 | .n16x2 => 16
  | .i8x4 | .n8x4 => 8
  | .f64 | .i64 | .n64 | .b64 => 64
  | _ => 32

/-- Elements of a value of a type (R92). -/
def Ty.lanes : Ty → Nat
  | .f16x2 | .bf16x2 | .i16x2 | .n16x2 => 2
  | .i8x4 | .n8x4 => 4
  | _ => 1

/-- The type of a type code: none for 14 and 15 (R52). -/
def Ty.ofCode : Nat → Option Ty
  | 0 => some .b32 | 1 => some .i32 | 2 => some .n32 | 3 => some .f32 | 4 => some .f16x2
  | 5 => some .bf16x2 | 6 => some .i16x2 | 7 => some .n16x2 | 8 => some .i8x4 | 9 => some .n8x4
  | 10 => some .f64 | 11 => some .i64 | 12 => some .n64 | 13 => some .b64
  | _ => none

/-- The code of a type (R52). -/
def Ty.code : Ty → Nat
  | .b32 => 0 | .i32 => 1 | .n32 => 2 | .f32 => 3 | .f16x2 => 4 | .bf16x2 => 5 | .i16x2 => 6
  | .n16x2 => 7 | .i8x4 => 8 | .n8x4 => 9 | .f64 => 10 | .i64 => 11 | .n64 => 12 | .b64 => 13

/-- Narrow formats of the integer family: i8, n8, i4, i4hi, n4, n4hi (R53). -/
def nfmtIsInt (n : Nat) : Bool := decide (7 ≤ n ∧ n ≤ 12)

/-- Narrow formats of the float family (R53). -/
def nfmtIsFloat (n : Nat) : Bool := decide ((1 ≤ n ∧ n ≤ 6) ∨ (13 ≤ n ∧ n ≤ 15))

/-- How an instruction reads a source: a value of a type with its modifiers; a plain value with MOD 000;
an inline constant 0 to 7 that is only a number; a word of four bytes each with a sign (FDOT4). -/
inductive Use where
  | val (t : Ty)
  | plain (t : Ty)
  | small
  | bytes
  deriving DecidableEq, Repr, Inhabited

/-- Kind and index checks of a specifier read at a type, with `lits` literal words (R46 to R49). -/
def Src.legal (t : Ty) (lits : Nat) : Src → Bool
  | .age k => !t.is64 || k != 31
  | .scalar i => decide (i.toNat < 96) && (!t.is64 || i.toNat % 2 == 0)
  | .const i => !t.is64 || i.toNat % 2 == 0
  | .inline i => t.isFloat || decide (i.toNat < 48)
  | .lit0 => if t.is64 then lits == 2 else decide (1 ≤ lits)
  | .lit1 => !t.is64 && lits == 2

/-- Where subfield mode stands: legal only in class V under types b32, i32, n32 and f32 with a narrow
format; a 16-bit format has fields 0 and 1 only (R50, R51). -/
structure SubMode where
  allowed : Bool
  ty : Ty
  nfmt : Nat
  deriving DecidableEq, Repr, Inhabited

/-- Subfield mode outside class V. -/
def SubMode.off : SubMode := ⟨false, .b32, 0⟩

def SubMode.legal (m : SubMode) (xx : Nat) : Bool :=
  m.allowed && (m.ty == .b32 || m.ty == .i32 || m.ty == .n32 || m.ty == .f32) && m.nfmt != 0 &&
    !((m.nfmt == 13 || m.nfmt == 14) && decide (2 ≤ xx))

/-- Modifier checks (R50). -/
def modLegal (t : Ty) (sub : SubMode) (mod : Nat) : Bool :=
  if mod = 0 then true
  else if mod < 4 then t.isFloat || t.isSigned
  else sub.legal (mod - 4)

/-- Whether a specifier may stand where an instruction reads a source in this way (R46 to R51). -/
def Use.legal (lits : Nat) (sub : SubMode) (o : Operand) : Use → Bool
  | .val t => o.src.legal t lits && modLegal t sub o.mod.toNat
  | .plain t => o.src.legal t lits && o.mod == 0
  | .small => o.mod == 0 && (match o.src with | .inline i => decide (i.toNat < 8) | _ => false)
  | .bytes => o.src.legal .f32 lits && decide (o.mod.toNat < 4)

/-- The literal words a source names: word 0 and word 1 (R47, R48). -/
def Use.names (u : Use) (o : Operand) : Bool × Bool :=
  let wide := match u with | .val t => t.is64 | .plain t => t.is64 | _ => false
  match o.src with
  | .lit0 => (true, wide)
  | .lit1 => (false, true)
  | _ => (false, false)

/-- Sources in order: each listed one legal, each other one 0x000 (R55). -/
def usesLegal (lits : Nat) (sub : SubMode) : List Use → List Operand → Bool
  | u :: us, o :: os => u.legal lits sub o && usesLegal lits sub us os
  | [], o :: os => o == Operand.zero && usesLegal lits sub [] os
  | us, [] => us.isEmpty

/-- Every literal word is named by at least one specifier (R47). -/
def litsNamed (lits : Nat) (us : List Use) (os : List Operand) : Bool :=
  let ns := (us.zip os).map fun p => p.1.names p.2
  decide (lits ≤ 2) && (decide (lits < 1) || ns.any (·.1)) && (decide (lits < 2) || ns.any (·.2))

/-- A specifier in subfield mode (R50). -/
def Operand.isSub (o : Operand) : Bool := decide (4 ≤ o.mod.toNat)

/-! ## Class V -/

def tysIW : List Ty := [.b32, .i32, .n32]
def tysIP : List Ty := [.i16x2, .n16x2, .i8x4, .n8x4]
def tysIL : List Ty := [.i64, .n64, .b64]
def tysFS : List Ty := [.f32, .f16x2, .bf16x2]
def tysAll : List Ty :=
  [.b32, .i32, .n32, .f32, .f16x2, .bf16x2, .i16x2, .n16x2, .i8x4, .n8x4, .f64, .i64, .n64, .b64]

/-- A row of the V opcode map (R57): how the sources are read, the types, NARROW and SAT. -/
structure VRule where
  uses : List Use
  tys : List Ty
  narrow : Bool
  sat : Bool
  deriving DecidableEq, Repr, Inhabited

/-- The type that SRC0 of PACK is read at (R124). -/
def packSrc : Ty → Ty
  | .i16x2 => .i32
  | .n16x2 => .n32
  | .i8x4 => .i16x2
  | _ => .n16x2

/-- The source type of a conversion, from NFMT (R142). -/
def cvtSrc (f : VFields) : Ty := (Ty.ofCode f.nfmt.toNat).getD .b32

/-- The V opcode map (R57, with R117, R120, R124, R126, R138 to R140, R142 and R150). DEDUCED: the `MOD 000 only' of R117 and R121
is R50's rule, which they cite, that b- and n-types take no modifier 001 to 011; subfield mode stays R51's (log entry 39). DESIGN CHOICE: a subfield-mode SRC1 of
FSCALE.f32 is widened to the i32 word that R138 reads, where R51 names the instruction's type f32 (log entry 24). -/
def vRule (op : Nat) (f : VFields) : Option VRule :=
  let t := f.ty
  match op with
  | 0x00 => some ⟨[.val t], tysAll, true, false⟩
  | 0x01 => some ⟨[.plain .b32, .val t, .val t], tysAll, false, false⟩
  | 0x03 => some ⟨[], [.i32, .n32], false, false⟩
  | 0x10 | 0x11 | 0x12 => some ⟨[.val t, .val t], tysIW ++ tysIP ++ tysIL, true, true⟩
  | 0x13 => some ⟨[.val t, .val t], [.i32, .n32, .i64, .n64], false, false⟩
  | 0x14 => some ⟨[.val t, .val t, .val t], tysIW ++ tysIP ++ tysIL, true, true⟩
  | 0x15 | 0x16 => some ⟨[.val t, .val t], [.i32, .n32, .i64, .n64], false, false⟩
  | 0x17 | 0x18 => some ⟨[.val t], [.i32, .i16x2, .i8x4, .i64], true, true⟩
  | 0x19 | 0x1A => some ⟨[.val t, .val t], [.i32, .n32] ++ tysIP ++ [.i64, .n64], true, false⟩
  | 0x1B => some ⟨[.val t, .val t, .val t], [.i32, .n32] ++ tysIP ++ [.i64, .n64], true, false⟩
  | 0x1C => some ⟨[.val t, .val t], [.i32, .n32] ++ tysIP, true, true⟩
  | 0x1D => some ⟨[.plain .b64, .val t, .small], [.i32, .n32], false, false⟩
  | 0x20 | 0x21 | 0x22 => some ⟨[.val t, .val t], [.b32, .b64], false, false⟩
  | 0x23 => some ⟨[.val t], [.b32, .b64], false, false⟩
  | 0x24 | 0x25 | 0x26 => some ⟨[.val t, .val t], tysIW ++ tysIL, false, false⟩
  | 0x27 => some ⟨[.val t, .val t, .val t], [.i32, .n32], false, false⟩
  | 0x28 => some ⟨[.val t, .val t, .val t], [.b32], false, false⟩
  | 0x29 | 0x2A | 0x2B | 0x2C => some ⟨[.val t], [.b32, .b64], false, false⟩
  | 0x2D => some ⟨[.val t, .val t], [.b32], false, false⟩
  | 0x2E => some ⟨[.val (packSrc t), .val (packSrc t)], tysIP, false, true⟩
  | 0x30 | 0x31 =>
    some ⟨[.val t, .val t], [.b32, .i32, .n32, .f32, .f64, .i64, .n64, .b64], false, false⟩
  | 0x32 | 0x33 | 0x34 | 0x35 =>
    some ⟨[.val t, .val t], [.i32, .n32, .f32, .f64, .i64, .n64], false, false⟩
  | 0x36 => some ⟨[.val t, .val t], [.f32, .f64], false, false⟩
  | 0x37 => some ⟨[.val t, .plain .b32], [.f32, .f64], false, false⟩
  | 0x40 | 0x41 | 0x42 | 0x44 | 0x45 => some ⟨[.val t, .val t], tysFS ++ [.f64], true, false⟩
  | 0x43 => some ⟨[.val t, .val t, .val t], tysFS ++ [.f64], true, false⟩
  | 0x46 => some ⟨[.val t], tysFS ++ [.f64], true, false⟩
  | 0x47 => some ⟨[.val t, .val t, .val .f32], [.f16x2, .bf16x2], false, false⟩
  | 0x48 => some ⟨[.bytes, .bytes, .val .f32], [.f32], false, false⟩
  | 0x49 => some ⟨[.val t, .val .i32], [.f32, .f64], true, false⟩
  | 0x4A => some ⟨[.val (cvtSrc f)], [.f32, .f16x2, .bf16x2, .f64], false, true⟩
  | 0x4B => some ⟨[.val (cvtSrc f)], [.i32, .n32, .i64, .n64], false, true⟩
  | 0x4C => some ⟨[.val (cvtSrc f)], [.f32, .f64], false, false⟩
  | 0x50 | 0x51 | 0x52 | 0x53 | 0x54 | 0x55 | 0x56 | 0x57 | 0x58 =>
    some ⟨[.val t], [.f32], true, false⟩
  | 0x59 => some ⟨[.val t, .small], [.f32], true, false⟩
  | _ => none

/-- NFMT of a V instruction (R53, R57, R58, R136, R142). -/
def vNfmtLegal (op : Nat) (f : VFields) : Bool :=
  let n := f.nfmt.toNat
  match op with
  | 0x48 => n == 1 || n == 2
  | 0x4A => (n == 3 || n == 4 || n == 5 || n == 10) && n != f.ty.code
  | 0x4B => n == 3 || n == 10
  | 0x4C => n == 1 || n == 2 || n == 11 || n == 12
  | _ => n == 0 || f.narrow || f.src0.isSub || f.src1.isSub || f.src2.isSub

/-- The static rules of a V instruction (R47, R53, R55 to R58, R136). DEDUCED: RM may be nonzero on any V instruction whose
result is narrowed to a float format (R53, R58; log entry 44). -/
def vLegal (op : Nat) (f : VFields) : Bool :=
  match vRule op f with
  | none => false
  | some r =>
    let n := f.nfmt.toNat
    let srcs := [f.src0, f.src1, f.src2]
    let sub : SubMode := ⟨!(decide (op = 0x48) || decide (0x4A ≤ op ∧ op ≤ 0x4C)), f.ty, n⟩
    r.tys.contains f.ty &&
    usesLegal f.lits.length sub r.uses srcs &&
    litsNamed f.lits.length r.uses srcs &&
    vNfmtLegal op f &&
    (!f.narrow || (r.narrow &&
      (((f.ty == .i32 || f.ty == .n32) && nfmtIsInt n) || (f.ty == .f32 && nfmtIsFloat n && n != 15)))) &&
    (!f.sat || f.narrow || r.sat) &&
    (f.rm == .rne || decide (0x40 ≤ op ∧ op ≤ 0x4C) || (f.narrow && nfmtIsFloat n)) &&
    (!f.grade || decide (0x50 ≤ op ∧ op ≤ 0x58))

/-! ## Class I -/

/-- A row of the I opcode map (R61). -/
structure IRule where
  srcs : Nat
  tys : List Ty
  rm : Bool
  sat : Bool
  immMax : Nat
  deriving DecidableEq, Repr, Inhabited

/-- The I opcode map (R61). -/
def iRule (op : Nat) : Option IRule :=
  let any : Nat := 0xFFFFF
  match op with
  | 0x00 => some ⟨0, [.b32, .i32, .n32, .f32], false, false, any⟩
  | 0x01 => some ⟨0, [.b32], false, false, any⟩
  | 0x02 => some ⟨0, [.b64], false, false, any⟩
  | 0x10 => some ⟨1, [.i32, .n32, .i64, .n64], false, true, any⟩
  | 0x11 => some ⟨1, [.i32, .n32], false, true, any⟩
  | 0x12 | 0x13 | 0x14 => some ⟨1, tysIW, false, false, any⟩
  | 0x15 | 0x16 => some ⟨1, tysIW, false, false, 31⟩
  | 0x17 | 0x18 | 0x19 => some ⟨1, [.i32, .n32], false, false, any⟩
  | 0x40 | 0x41 => some ⟨1, [.f32], true, false, any⟩
  | 0x42 => some ⟨2, [.f32], true, false, any⟩
  | 0x43 | 0x44 => some ⟨1, [.f32], false, false, any⟩
  | _ => none

/-- The static rules of an I instruction (R60, R61). -/
def iLegal (op : Nat) (f : IFields) : Bool :=
  match iRule op with
  | none => false
  | some r =>
    r.tys.contains f.ty &&
    usesLegal 0 SubMode.off (List.replicate r.srcs (.val f.ty)) [f.src0, f.src1] &&
    (r.rm || f.rm == .rne) && (r.sat || !f.sat) && decide (f.imm.toNat ≤ r.immMax)

/-! ## System registers and class S -/

/-- Width and access of a system register (R198, R268, R278, R360, R375, R411). -/
structure SysRule where
  wide : Bool
  writable : Bool
  /-- reading needs privilege -/
  privRead : Bool
  /-- writing needs privilege -/
  privWrite : Bool
  deriving DecidableEq, Repr, Inhabited

/-- The system-register map (R198, R268, R278, R360, R375, R411). -/
def sysRule (i : Nat) : Option SysRule :=
  if i = 0x000 then some ⟨true, false, false, false⟩
  else if i = 0x002 ∨ i = 0x003 ∨ i = 0x004 ∨ i = 0x005 ∨ i = 0x006 ∨ i = 0x008 ∨ i = 0x00C then
    some ⟨false, false, false, false⟩
  else if i = 0x00A then some ⟨false, true, false, true⟩
  else if i = 0x0F0 ∨ i = 0x0F1 then some ⟨false, false, false, false⟩
  else if 0x100 ≤ i ∧ i ≤ 0x104 then some ⟨false, false, false, false⟩
  else if i = 0x105 then some ⟨false, true, false, false⟩
  else if 0x110 ≤ i ∧ i ≤ 0x133 then some ⟨false, false, false, false⟩
  else if i = 0x200 then some ⟨false, true, true, true⟩
  else if i = 0x210 ∨ i = 0x212 ∨ i = 0x214 ∨ i = 0x216 then some ⟨true, true, true, true⟩
  else if 0x218 ≤ i ∧ i ≤ 0x21B then some ⟨false, true, true, true⟩
  else if i = 0x220 then some ⟨false, true, false, false⟩
  else if i = 0x240 then some ⟨true, true, true, true⟩
  else if i = 0x242 then some ⟨false, true, true, true⟩
  else if 0x260 ≤ i ∧ i ≤ 0x262 then some ⟨false, false, false, false⟩
  else none

/-- How DST is used by an S instruction. -/
inductive DstUse where
  | none
  | single
  | byType
  | wide
  deriving DecidableEq, Repr, Inhabited

/-- A row of the S opcode map (R63). -/
structure SRule where
  uses : List Use
  tys : List Ty
  dst : DstUse
  cond : Bool
  deriving DecidableEq, Repr, Inhabited

/-- The S opcode map (R63, R131, R133). -/
def sRule (op : Nat) (t : Ty) : Option SRule :=
  let w4 : List Ty := [.i32, .n32, .i64, .n64]
  match op with
  | 0x00 => some ⟨[.val t], [.b32, .i32, .n32, .f32, .i64, .n64, .b64], .byType, false⟩
  | 0x01 => some ⟨[.val t, .val t], [.b32, .b64], .byType, false⟩
  | 0x10 | 0x11 | 0x12 => some ⟨[.val t, .val t], w4, .byType, false⟩
  | 0x13 | 0x14 | 0x15 => some ⟨[.val t, .val t], [.i32, .n32], .byType, false⟩
  | 0x16 | 0x17 => some ⟨[.val t, .val t], w4, .byType, false⟩
  | 0x18 => some ⟨[.plain .b64, .val t], [.i32, .n32], .wide, false⟩
  | 0x20 | 0x21 | 0x22 => some ⟨[.val t, .val t], [.b32, .b64], .byType, false⟩
  | 0x23 => some ⟨[.val t], [.b32, .b64], .byType, false⟩
  | 0x24 | 0x25 => some ⟨[.val t, .val t], [.b32, .i32, .n32, .i64, .n64, .b64], .byType, false⟩
  | 0x26 => some ⟨[.val t], [.i32, .n32], .byType, false⟩
  | 0x27 | 0x28 | 0x29 => some ⟨[.val t], [.b32, .b64], .byType, false⟩
  | 0x30 => some ⟨[.val t, .val t], w4, .single, true⟩
  | 0x40 => some ⟨[], [.b32, .b64], .byType, false⟩
  | 0x41 => some ⟨[.val t], [.b32, .b64], .none, false⟩
  | 0x50 => some ⟨[.plain .b64], [.b32, .b64], .byType, false⟩
  | 0x51 => some ⟨[.plain .b64, .val t], [.b32, .b64], .none, false⟩
  | 0x52 => some ⟨[.plain .b64, .val t], w4, .byType, true⟩
  | _ => none

/-- IMM12 of an S instruction (R63). -/
def sImmLegal (op : Nat) (f : SFields) : Bool :=
  let n := f.imm.toNat
  match op with
  | 0x01 => decide (n < 96)
  | 0x18 => decide (n < 8)
  | 0x26 =>
    let w := n / 32 % 64
    decide (n < 2048) && decide (1 ≤ w ∧ n % 32 + w ≤ 32)
  | 0x40 => (match sysRule n with | some r => r.wide == f.ty.is64 | Option.none => false)
  | 0x41 => (match sysRule n with | some r => r.wide == f.ty.is64 && r.writable | Option.none => false)
  | 0x50 | 0x51 | 0x52 => true
  | _ => n == 0

/-- A trail-age specifier, which class S refuses (R62). -/
def Operand.isAge (o : Operand) : Bool := match o.src with | .age _ => true | _ => false

/-- The static rules of an S instruction (R47, R55, R62, R63). -/
def sLegal (op : Nat) (f : SFields) : Bool :=
  match sRule op f.ty with
  | none => false
  | some r =>
    let srcs := [f.srcA, f.srcB]
    r.tys.contains f.ty &&
    usesLegal f.lits.length SubMode.off r.uses srcs &&
    litsNamed f.lits.length r.uses srcs &&
    ((r.uses.zip srcs).all fun p => !p.2.isAge) &&
    sImmLegal op f &&
    (if r.cond then decide (f.cond.toNat ≤ 5) else f.cond == 0) &&
    (match r.dst with
      | .none => f.dst == 0
      | .single => decide (f.dst.toNat < 96)
      | .byType => decide (f.dst.toNat < 96) && (!f.ty.is64 || f.dst.toNat % 2 == 0)
      | .wide => decide (f.dst.toNat < 96) && f.dst.toNat % 2 == 0)

/-! ## Class M -/

def Size.code : Size → Nat
  | .b8 => 0 | .b16 => 1 | .b32 => 2 | .b64 => 3 | .b128 => 4

def Size.ofCode : Nat → Option Size
  | 0 => some .b8 | 1 => some .b16 | 2 => some .b32 | 3 => some .b64 | 4 => some .b128
  | _ => none

/-- Bytes of an access (R64). -/
def Size.bytes (s : Size) : Nat := 2 ^ s.code

def Space.code : Space → Nat
  | .global => 0 | .scratch => 1 | .cluster => 2 | .bank => 3

def Space.ofCode : Nat → Option Space
  | 0 => some .global | 1 => some .scratch | 2 => some .cluster | 3 => some .bank
  | _ => none

def Order.code : Order → Nat
  | .plain => 0 | .acquire => 1 | .release => 2 | .acqRel => 3 | .relaxed => 4

def Order.ofCode : Nat → Option Order
  | 0 => some .plain | 1 => some .acquire | 2 => some .release | 3 => some .acqRel | 4 => some .relaxed
  | _ => none

def Scope.code : Scope → Nat
  | .group => 0 | .team => 1 | .cluster => 2 | .die => 3 | .package => 4 | .fabric => 5

def Scope.ofCode : Nat → Option Scope
  | 0 => some .group | 1 => some .team | 2 => some .cluster | 3 => some .die | 4 => some .package
  | 5 => some .fabric
  | _ => none

def Hint.code : Hint → Nat
  | .normal => 0 | .stream => 1 | .keep => 2 | .bypass => 3

def Hint.ofCode : Nat → Option Hint
  | 0 => some .normal | 1 => some .stream | 2 => some .keep | 3 => some .bypass
  | _ => none

def Rm.code : Rm → Nat
  | .rne => 0 | .rz => 1 | .rdn => 2 | .rup => 3

def Rm.ofCode : Nat → Option Rm
  | 0 => some .rne | 1 => some .rz | 2 => some .rdn | 3 => some .rup
  | _ => none

/-- A DATA specifier of one or two words, no modifier and no literal (R50, R65, R201). -/
def mDataWord (sz : Size) (o : Operand) : Bool :=
  (Use.plain (if sz = .b64 then .b64 else .b32)).legal 0 SubMode.off o

/-- DATA of a 128-bit store: an age of at most 28, or a scalar whose index is a multiple of 4 (R201). -/
def mDataQuad (o : Operand) : Bool :=
  o.mod == 0 && (match o.src with
    | .age k => decide (k.toNat ≤ 28)
    | .scalar i => decide (i.toNat < 96) && i.toNat % 4 == 0
    | _ => false)

/-- DATA of a compare and swap (R201). -/
def mDataCas (sz : Size) (o : Operand) : Bool :=
  o.mod == 0 && (match o.src with
    | .age k => decide (k.toNat ≤ if sz = .b64 then 28 else 30)
    | _ => false)

/-- The static rules of an M instruction (R64, R65, R201). -/
def mLegal (op : Nat) (f : MFields) : Bool :=
  let sz := f.size.code
  let sp := f.space.code
  let or := f.order.code
  let word := sz == 2 || sz == 3
  (match op with
    | 0x00 => (or == 0 || or == 1 || or == 4) && f.data == Operand.zero && (sp != 3 || or == 0)
    | 0x01 => sp != 3 && (or == 0 || or == 2 || or == 4) &&
        (if f.size = .b128 then mDataQuad f.data else mDataWord f.size f.data)
    | 0x02 | 0x03 => sz == 0 && sp == 0 && or == 0 && f.data == Operand.zero
    | 0x04 => word && sp == 0 && (or == 0 || or == 1) && mDataWord f.size f.data
    | 0x08 | 0x09 | 0x0A | 0x0B | 0x0C | 0x0D | 0x0E | 0x11 => word && sp != 3 && mDataWord f.size f.data
    | 0x0F => word && sp != 3 && mDataCas f.size f.data
    | 0x10 => sz == 2 && sp != 3 && (Use.plain .f32).legal 0 SubMode.off f.data
    | _ => false) &&
  (if or == 0 then f.scope == .group
    else if sp == 0 then true
    else if sp == 1 then decide (f.scope.code ≤ 1)
    else decide (f.scope.code ≤ 2)) &&
  (!f.sx || (op == 0x00 && decide (sz ≤ 1)) || op == 0x09 || op == 0x0A) &&
  (f.hint == .normal || sp == 0) &&
  (!f.fsel || (op != 0x02 && op != 0x03)) &&
  (Use.plain (if sp == 0 then .b64 else .b32)).legal 0 SubMode.off f.addr

/-! ## Class E -/

/-- Operand-block length of an E opcode (R67). -/
def eBlock (op : Nat) : Nat :=
  match op with
  | 0x00 | 0x02 | 0x03 | 0x07 => 8
  | 0x01 => 16
  | 0x04 => 6
  | 0x08 => 2
  | 0x13 => 0
  | _ => 1

/-- The conversion codes of COPY's cvt: a float narrow format but e2m1, or f32 as 0 (R218). -/
def cvtCode (c : Nat) : Bool := decide (c ≤ 4) || c == 13 || c == 14

/-- The 6-bit formats, which COPYND refuses (R219, log entry 19). -/
def cvtSix (c : Nat) : Bool := c == 3 || c == 4

/-- VAR and IMM32 of COPY by transform (R217, R218). -/
def copyLegal (var imm : Nat) : Bool :=
  decide (var < 128) &&
  (match var / 16 with
    | 0 | 2 => imm == 0
    | 1 | 3 | 4 => decide (imm < 3)
    | 5 => decide (imm < 2048) && cvtCode (imm % 16) && cvtCode (imm / 16 % 16) && imm % 16 != imm / 16 % 16
    | _ => false)

/-- The static rules of an E instruction (R66, R67, R217 to R221, R223, R229, R230). -/
def eLegal (op : Nat) (f : EFields) : Bool :=
  let v := f.var.toNat
  let m := f.imm.toNat
  let h := f.hdst.toNat
  let n := eBlock op
  decide (h < 96 ∨ h = 127) &&
  decide (f.blk.toNat + n ≤ 96) && (decide (n < 2) || f.blk.toNat % 2 == 0) &&
  (n != 0 || f.blk == 0) &&
  (match op with
    | 0x00 => copyLegal v m
    | 0x01 => (v / 16 == 0 || (v / 16 == 5 && !cvtSix (m % 16) && !cvtSix (m / 16 % 16))) && copyLegal v m
    | 0x02 => decide (v < 2) && m == 0
    | 0x03 => m == 0 && decide (v < 64) &&
        (let c := v % 4
         let t := v / 4
         if c = 0 then t == 0 else (t == 1 || t == 2 || t == 3 || (t == 5 && c == 1)))
    | 0x04 => h == 127 && decide (v < 3) && m == 0
    | 0x05 | 0x06 => v == 0 && m == 0
    | 0x07 | 0x08 | 0x10 | 0x11 | 0x12 | 0x13 => h == 127 && v == 0 && m == 0
    | _ => false)

/-! ## Class X -/

/-- Which fields an X opcode reads (R69): SLOTA, SLOTD, SCALE, SECT, FMTA, FMTB, SOFF and COUNT. -/
structure XReads where
  slotA : Bool
  slotD : Bool
  scale : Bool
  sect : Bool
  fmtA : Bool
  fmtB : Bool
  soff : Bool
  count : Bool
  deriving DecidableEq, Repr, Inhabited

def xReads (op : Nat) : Option XReads :=
  match op with
  | 0x00 | 0x01 => some ⟨true, false, false, false, false, false, false, true⟩
  | 0x02 => some ⟨true, false, true, true, false, true, true, false⟩
  | 0x03 => some ⟨true, false, false, true, false, false, false, false⟩
  | 0x04 => some ⟨false, false, false, true, false, false, false, false⟩
  | 0x05 => some ⟨true, true, true, true, true, false, true, true⟩
  | 0x06 | 0x07 | 0x08 => some ⟨true, true, false, true, true, false, false, true⟩
  | 0x09 => some ⟨false, true, false, false, false, false, false, false⟩
  | 0x0A => some ⟨false, true, true, false, true, false, false, false⟩
  | 0x0B | 0x0C => some ⟨true, false, true, false, false, false, false, true⟩
  | _ => none

/-- Depth K of an A tile of a matrix format: 256 for e2m1, 64 for the 16-bit formats, else 128 (R236). -/
def kOfFmt (f : Nat) : Nat := if f = 4 then 256 else if f = 6 ∨ f = 7 then 64 else 128

/-- COUNT of an X opcode (R69, R242, R246, R247); a format that names no A tile sets no bound, and faults FMTFAULT. -/
def xCountLegal (op : Nat) (f : XFields) : Bool :=
  let c := f.count.toNat
  let k := kOfFmt f.fmtA.toNat
  let noA := f.fmtA == 5 || decide (9 ≤ f.fmtA.toNat)
  match op with
  | 0x00 | 0x01 => decide (1 ≤ c ∧ f.slotA.toNat + c ≤ 128)
  | 0x05 => decide (1 ≤ c ∧ c ≤ 8)
  | 0x06 => noA || decide (c < k / 32)
  | 0x07 => noA || decide (c / 64 < k / 64)
  | 0x08 => noA || (decide (c / 64 < k / 64) && c % 64 == 0)
  | 0x0B | 0x0C => decide (1 ≤ c ∧ c ≤ 128)
  | _ => c == 0

/-- The static rules of an X instruction (R55, R68, R69, R242 to R250). Format codes are checked
later, as FMTFAULT (R76). -/
def xLegal (op : Nat) (f : XFields) : Bool :=
  match xReads op with
  | none => false
  | some r =>
    (r.slotA || f.slotA == 0) && (r.slotD || f.slotD == 0) && (r.scale || f.scale == 0) &&
    (r.sect || f.sect == 0) && (r.fmtA || f.fmtA == 0) && (r.fmtB || f.fmtB == 0) &&
    (r.soff || f.soff == 0) && (r.count || f.count == 0) &&
    xCountLegal op f &&
    (match op with
      | 0x02 => decide (f.flags.toNat % 4 = 0) && (f.scale != 127 || f.soff == 0)
      | 0x05 => decide (f.flags.toNat < 4)
      | 0x0A | 0x0B | 0x0C => f.flags == 0 && decide (f.scale.toNat < 96)
      | _ => f.flags == 0)

/-- Matrix format checks made at decoding, which fault FMTFAULT after every ILLOP check (R54, R76,
R246, R247, R249): a code 9 to 15, cb2 in format A, and what the opcode never accepts. -/
def xFmtLegal (op : Nat) (f : XFields) : Bool :=
  let a := f.fmtA.toNat
  match op with
  | 0x02 => decide (f.fmtB.toNat ≤ 8)
  | 0x05 | 0x06 | 0x07 => decide (a ≤ 8) && a != 5
  | 0x08 => a == 0 || a == 2 || a == 3 || a == 4 || a == 8
  | 0x0A => decide (a ≤ 7) && a != 5
  | _ => true

/-! ## Classes B, G, Y, P and N -/

/-- A branch condition or CALLI index: one 32-bit word, no modifier, no literal (R71, R168). -/
def wordOperand (o : Operand) : Bool := (Use.plain .b32).legal 0 SubMode.off o

/-- The static rules of JOIN (R71, R162). -/
def joinLegal (f : JoinFields) : Bool :=
  let c := f.c.toNat
  decide (c ≤ 6) && (decide (0 < c) || f.sel0 == 0) && (decide (1 < c) || f.sel1 == 0) &&
  (decide (2 < c) || f.sel2 == 0) && (decide (3 < c) || f.sel3 == 0) && (decide (4 < c) || f.sel4 == 0) &&
  (decide (5 < c) || f.sel5 == 0)

/-- The G opcode map (R72, R174): how sources are read, the types, whether SDST is written. -/
def gRule (op : Nat) (t : Ty) : Option (List Use × List Ty × Bool × Nat) :=
  match op with
  | 0x00 => some ([.val .b32], [.b32], true, 0)
  | 0x01 | 0x02 | 0x0D => some ([.val .b32], [.b32], false, 0)
  | 0x03 | 0x04 | 0x05 | 0x06 => some ([.val t, .plain .b32], [.b32, .b64], false, 0)
  | 0x07 => some ([.val t], [.b32, .b64], false, 31)
  | 0x08 | 0x09 | 0x0A => some ([.val t], [.i32, .n32, .f32], false, 0)
  | 0x0B => some ([.val t], [.i32, .n32, .f32], false, 1)
  | 0x0C => some ([.val t], [.b32, .b64], false, 0)
  | _ => none

/-- The static rules of a G instruction (R72). -/
def gLegal (op : Nat) (f : GFields) : Bool :=
  match gRule op f.ty with
  | none => false
  | some (uses, tys, dst, immMax) =>
    tys.contains f.ty && usesLegal 0 SubMode.off uses [f.src0, f.src1] &&
    (if dst then decide (f.sdst.toNat < 96) else f.sdst == 0) && decide (f.imm.toNat ≤ immMax)

/-- A pair of scalars named by SIDX, with `n` scalars from it on (R73, R419). -/
def yBlock (f : YFields) (n : Nat) : Bool := f.sidx.toNat % 2 == 0 && decide (f.sidx.toNat + n ≤ 96)

/-- The increment of MSINC: a scalar, a constant-bank word or an inline constant 0 to 31, no modifier (R399). -/
def incOperand (o : Operand) : Bool :=
  wordOperand o && (match o.src with | .age _ => false | .inline i => decide (i.toNat < 32) | _ => true)

/-- The static rules of a Y instruction (R73, R295, R299, R338, R399, R419). -/
def yLegal (op : Nat) (f : YFields) : Bool :=
  let sub := f.sub.toNat
  let imm := f.imm.toNat
  let noSrc := f.src == Operand.zero
  match op with
  | 0x00 | 0x01 | 0x02 =>
    noSrc && f.sidx == 0 && imm == 0 &&
    (match sub / 32 with
      | 1 | 2 => decide (sub % 32 < 16)
      | 3 => decide (sub % 32 < 8)
      | _ => false)
  | 0x03 => noSrc && f.sidx == 0 && imm == 0 && decide (1 ≤ sub / 16 ∧ sub / 16 ≤ 3 ∧ sub % 16 ≤ 5)
  | 0x04 => sub == 0 && wordOperand f.src && decide (f.sidx.toNat < 96)
  | 0x08 => sub == 0 && incOperand f.src && yBlock f 2 && imm == 0
  | 0x09 => sub == 0 && noSrc && yBlock f 4 && imm == 0
  | 0x0A => sub == 0 && noSrc && yBlock f 2 && imm == 0
  | 0x0C => decide (sub < 2) && noSrc && yBlock f 2 && imm == 0
  | 0x0D => decide (sub < 2) && noSrc && f.sidx == 0 && imm == 0
  | 0x10 | 0x11 | 0x23 => sub == 0 && noSrc && f.sidx == 0 && imm == 0
  | 0x12 => sub == 0 && noSrc && f.sidx == 0 && decide (1 ≤ imm)
  | 0x20 => decide (sub < 8 ∧ sub % 4 < 2) && yBlock f 3 && imm == 0 &&
      (Use.plain (if sub % 4 = 1 then .b64 else .b32)).legal 0 SubMode.off f.src
  | 0x21 => decide (sub < 2) && noSrc && yBlock f 6 && decide (imm < 96 ∨ imm = 127)
  | 0x22 => decide (sub < 7) && wordOperand f.src && yBlock f 3 && imm == 0
  | _ => false

/-- The V opcode of a pair's integer half (R74). -/
def PairInt.op : PairInt → Nat
  | .add => 0x10 | .sub => 0x11 | .mul => 0x12 | .min => 0x19 | .max => 0x1A | .absdiff => 0x1C
  | .and => 0x20 | .or => 0x21 | .xor => 0x22 | .shl => 0x24 | .shr => 0x25 | .ceq => 0x30
  | .cne => 0x31 | .clt => 0x32 | .cle => 0x33 | .cgt => 0x34 | .cge => 0x35

def PairInt.ofOp : Nat → Option PairInt
  | 0x10 => some .add | 0x11 => some .sub | 0x12 => some .mul | 0x19 => some .min | 0x1A => some .max
  | 0x1C => some .absdiff | 0x20 => some .and | 0x21 => some .or | 0x22 => some .xor | 0x24 => some .shl
  | 0x25 => some .shr | 0x30 => some .ceq | 0x31 => some .cne | 0x32 => some .clt | 0x33 => some .cle
  | 0x34 => some .cgt | 0x35 => some .cge
  | _ => none

/-- The V opcode of a pair's float half (R74). -/
def PairFloat.op : PairFloat → Nat
  | .fadd => 0x40 | .fsub => 0x41 | .fmul => 0x42 | .fmin => 0x44 | .fmax => 0x45

def PairFloat.ofOp : Nat → Option PairFloat
  | 0x40 => some .fadd | 0x41 => some .fsub | 0x42 => some .fmul | 0x44 => some .fmin | 0x45 => some .fmax
  | _ => none

/-- The V instruction that a pair's integer half computes (R152). -/
def PairFields.half0 (f : PairFields) : VFields :=
  ⟨f.ty0, 0, .rne, f.sat0, false, f.a0, f.b0, Operand.zero, false, []⟩

/-- The V instruction that a pair's float half computes (R152). -/
def PairFields.half1 (f : PairFields) : VFields :=
  ⟨f.ty1, 0, f.rm1, false, false, f.a1, f.b1, Operand.zero, false, []⟩

/-- Sources of a pair. -/
def PairFields.srcs (f : PairFields) : List Src := [f.a0.src, f.b0.src, f.a1.src, f.b1.src]

/-- The static rules of a pair (R74, R153). -/
def pairLegal (f : PairFields) : Bool :=
  let srcs := f.srcs.dedup
  [Ty.b32, .i32, .n32, .i16x2, .n16x2, .i8x4, .n8x4].contains f.ty0 && tysFS.contains f.ty1 &&
  vLegal f.op0.op f.half0 && vLegal f.op1.op f.half1 &&
  (!f.sat0 || f.op0 == .add || f.op0 == .sub || f.op0 == .mul || f.op0 == .absdiff) &&
  decide ((srcs.filter fun s => match s with | .age _ => true | _ => false).length ≤ 4) &&
  decide ((srcs.filter fun s => match s with | .scalar _ => true | _ => false).length ≤ 2) &&
  decide ((srcs.filter fun s => match s with | .const _ => true | _ => false).length ≤ 1)

/-- The code of a nest's operation (R75). -/
def NestOp.code : NestOp → Nat
  | .add => 0 | .sub => 1 | .mul => 2 | .max => 3 | .min => 4 | .fma => 5 | .cvt => 6 | .expsub => 7
  | .sumr => 8 | .maxr => 9 | .minr => 10

def NestOp.ofCode : Nat → Option NestOp
  | 0 => some .add | 1 => some .sub | 2 => some .mul | 3 => some .max | 4 => some .min | 5 => some .fma
  | 6 => some .cvt | 7 => some .expsub | 8 => some .sumr | 9 => some .maxr | 10 => some .minr
  | _ => none

/-- A nest that reads no B (R75). -/
def NestOp.noB : NestOp → Bool
  | .cvt | .sumr | .maxr | .minr => true
  | _ => false

/-- A nest that reduces over level 0 (R256). -/
def NestOp.reduces : NestOp → Bool
  | .sumr | .maxr | .minr => true
  | _ => false

/-- Stride of operand `o` (0 destination, 1 A, 2 B) at level `l` (R75). -/
def NestFields.stride (f : NestFields) (o l : Nat) : BitVec 10 := f.strides.getD (5 * o + l) 0

/-- Extent of level `l` (R75). -/
def NestFields.extent (f : NestFields) (l : Nat) : Nat := (f.extents.getD l 0).toNat + 1

/-- The static rules of a nest (R75, R256). -/
def nestLegal (f : NestFields) : Bool :=
  let n := f.levels.toNat
  let unused := (List.range 5).filter fun l => decide (n ≤ l)
  let strideB := (List.range 5).all fun l => f.stride 2 l == 0
  f.extents.length == 5 && f.strides.length == 15 && decide (1 ≤ n ∧ n ≤ 5) &&
  (unused.all fun l => f.extents.getD l 0 == 0 && f.stride 0 l == 0 && f.stride 1 l == 0 && f.stride 2 l == 0) &&
  (f.float || !(f.op == .fma || f.op == .cvt || f.op == .expsub)) &&
  (f.float || f.rm == .rne) &&
  decide (f.sd.toNat < 96 ∧ f.sa.toNat < 96 ∧ f.sb.toNat < 96) &&
  (!f.op.noB || (f.sb == 0 && strideB && !f.bscalar)) &&
  (!f.bscalar || strideB) &&
  (f.narrow || f.nfmt2 == 0) && (!f.narrow || f.float) &&
  (f.op != .cvt || f.narrow) && (f.op != .fma || !f.narrow) &&
  (!f.op.reduces || f.stride 0 0 == 0)

/-- The static rules of a form: what the code words alone decide of R76's steps 1 to 4. -/
def Form.legal : Form → Bool
  | .v op f => vLegal op f
  | .get _ => true
  | .save _ _ => true
  | .drop n => n != 0
  | .i op f => iLegal op f
  | .s op f => sLegal op f
  | .m op f => mLegal op f
  | .e op f => eLegal op f
  | .x op f => xLegal op f
  | .bw op n _ => (op == 0x00 && n == 0) || op == 0x09
  | .bz _ c _ _ => wordOperand c
  | .bs _ r _ => decide (r.toNat < 96)
  | .join f => joinLegal f
  | .calli _ idx _ => wordOperand idx
  | .ret _ => true
  | .b0 _ => true
  | .bi _ _ => true
  | .g op f => gLegal op f
  | .y op f => yLegal op f
  | .pair f => pairLegal f
  | .nest f => nestLegal f
  | .event => false

end Sys2Proof
end

