-- ==== Sys2Proof/WellFormed.lean ====
section
/-! DEFINITION. Which instructions can stand in code: the static rules of every class (R46 to R75). -/

namespace Sys2Proof

/-- SWRITE, LEASE_WRITE and DIESEL_WRITE share one code: the register index tells them apart (R198,
R199, R361). -/
def Instr.canonical : Instr → Bool
  | .swrite f => f.imm != 0x00A && f.imm != 0x105
  | .leaseWrite f => f.imm == 0x00A
  | .dieselWrite f => f.imm == 0x105
  | _ => true

/-- An instruction that code words can hold and that no static check refuses; an event is none. -/
def Instr.wf (i : Instr) : Bool := i.form.legal && i.canonical

end Sys2Proof
end

