-- ==== Sys2Proof/Decode.lean ====
section
/-! DEFINITION. Decoding code words (R37, R46 to R76) and encoding instructions, from the same layouts. -/

namespace Sys2Proof

/-! ## Fields -/

/-- Fields of a code value from the most significant, by their widths. -/
def unpackBits : List Nat → Nat → List Nat
  | [], _ => []
  | w :: ws, x => x / 2 ^ ws.sum % 2 ^ w :: unpackBits ws x

/-- A code value of its fields, the most significant first. -/
def packBits : List Nat → List Nat → Nat
  | w :: ws, v :: vs => v % 2 ^ w * 2 ^ ws.sum + packBits ws vs
  | _, _ => 0

/-- The layouts of R56, R60, R62, R64, R66, R68, R70, R72, R73, R74 and R75: field widths from the
most significant bit. -/
def layoutV : List Nat := [4, 8, 4, 2, 4, 2, 1, 1, 12, 12, 12, 1, 1]
def layoutI : List Nat := [4, 8, 4, 12, 12, 2, 1, 1, 20]
def layoutS : List Nat := [4, 8, 4, 2, 7, 12, 12, 3, 12]
def layoutM : List Nat := [4, 6, 3, 3, 3, 3, 12, 12, 1, 1, 2, 2, 12]
def layoutE : List Nat := [4, 6, 7, 7, 8, 32]
def layoutX : List Nat := [4, 6, 7, 7, 7, 2, 4, 4, 3, 12, 8]
def layoutBw : List Nat := [4, 6, 4, 18, 32]
def layoutBz : List Nat := [4, 6, 12, 22, 20]
def layoutBs : List Nat := [4, 6, 7, 15, 32]
def layoutJoin : List Nat := [4, 6, 8, 3, 5, 5, 5, 5, 5, 5, 13]
def layoutCalli : List Nat := [4, 6, 4, 12, 6, 32]
def layoutRet : List Nat := [4, 6, 4, 50]
def layoutB0 : List Nat := [4, 6, 54]
def layoutBi : List Nat := [4, 6, 38, 16]
def layoutG : List Nat := [4, 8, 4, 12, 12, 7, 17]
def layoutY : List Nat := [4, 8, 8, 12, 7, 25]
def layoutP : List Nat := [4, 8, 4, 12, 12, 2, 1, 5, 8, 4, 12, 12, 2, 1, 41]
def layoutN : List Nat :=
  [4, 6, 4, 3, 7, 7, 7, 1, 2, 1, 2] ++ List.replicate 5 12 ++ List.replicate 15 10 ++ [2]

/-- The layout of a class B opcode (R70). -/
def layoutB (op : Nat) : Option (List Nat) :=
  match op with
  | 0x00 | 0x09 => some layoutBw
  | 0x01 | 0x02 => some layoutBz
  | 0x03 | 0x04 | 0x05 => some layoutBs
  | 0x08 => some layoutJoin
  | 0x0A => some layoutCalli
  | 0x0B => some layoutRet
  | 0x0C | 0x0D | 0x0E | 0x11 => some layoutB0
  | 0x0F | 0x10 => some layoutBi
  | _ => none

/-- The code of a source specifier (R46). -/
def Operand.code (o : Operand) : Nat :=
  o.mod.toNat * 128 +
  match o.src with
  | .age k => k.toNat
  | .scalar i => 1024 + i.toNat
  | .const i => 2048 + i.toNat
  | .inline i => 3072 + i.toNat
  | .lit0 => 3072 + 64
  | .lit1 => 3072 + 65

/-- The source specifier of a code, none where its index is invalid (R46). -/
def Operand.ofCode (n : Nat) : Option Operand :=
  let mod := BitVec.ofNat 3 (n / 128)
  let x := n % 128
  match n / 1024 with
  | 0 => if x < 32 then some ⟨.age (BitVec.ofNat 5 x), mod⟩ else none
  | 1 => some ⟨.scalar (BitVec.ofNat 7 x), mod⟩
  | 2 => some ⟨.const (BitVec.ofNat 7 x), mod⟩
  | 3 =>
    if x < 64 then some ⟨.inline (BitVec.ofNat 6 x), mod⟩
    else if x = 64 then some ⟨.lit0, mod⟩
    else if x = 65 then some ⟨.lit1, mod⟩
    else none
  | _ => none

/-! ## Encoding -/

/-- A code value by its layout and field values, with the literal words that follow it. -/
structure Code where
  layout : List Nat
  vals : List Nat
  lits : List Word
  deriving DecidableEq, Repr, Inhabited

/-- The code of a form: every field in the place its class's layout gives it. -/
def Form.code : Form → Code
  | .v op f => ⟨layoutV, [1, op, f.ty.code, f.lits.length, f.nfmt.toNat, f.rm.code, f.sat.toNat, f.narrow.toNat,
      f.src0.code, f.src1.code, f.src2.code, 0, f.grade.toNat], f.lits⟩
  | .get slot => ⟨layoutV, [1, 0, 0, 0, 0, 0, 0, 0, 0, 0, 0x400 + slot.toNat, 0, 0], []⟩
  | .save age slot => ⟨layoutV, [1, 0, 0, 0, 0, 0, 0, 0, age.toNat, 0, 0x800 + slot.toNat, 0, 0], []⟩
  | .drop n => ⟨layoutV, [1, 2, 0, 0, 0, 0, 0, 0, 0xC00 + n.toNat, 0, 0, 0, 0], []⟩
  | .i op f => ⟨layoutI, [2, op, f.ty.code, f.src0.code, f.src1.code, f.rm.code, f.sat.toNat, 0, f.imm.toNat], []⟩
  | .s op f => ⟨layoutS, [3, op, f.ty.code, f.lits.length, f.dst.toNat, f.srcA.code, f.srcB.code, f.cond.toNat,
      f.imm.toNat], f.lits⟩
  | .m op f => ⟨layoutM, [4, op, f.size.code, f.space.code, f.order.code, f.scope.code, f.addr.code, f.data.code,
      f.sx.toNat, f.fsel.toNat, f.hint.code, 0, f.offset.toNat], []⟩
  | .e op f => ⟨layoutE, [5, op, f.hdst.toNat, f.blk.toNat, f.var.toNat, f.imm.toNat], []⟩
  | .x op f => ⟨layoutX, [6, op, f.slotA.toNat, f.slotD.toNat, f.scale.toNat, f.sect.toNat, f.fmtA.toNat,
      f.fmtB.toNat, f.flags.toNat, f.soff.toNat, f.count.toNat], []⟩
  | .bw op n off => ⟨layoutBw, [7, op, n.toNat, 0, off.toNat], []⟩
  | .bz op c junc target => ⟨layoutBz, [7, op, c.code, junc.toNat, target.toNat], []⟩
  | .bs op r off => ⟨layoutBs, [7, op, r.toNat, 0, off.toNat], []⟩
  | .join f => ⟨layoutJoin, [7, 0x08, f.d.toNat, f.c.toNat, f.sel0.toNat, f.sel1.toNat, f.sel2.toNat,
      f.sel3.toNat, f.sel4.toNat, f.sel5.toNat, 0], []⟩
  | .calli n idx sig => ⟨layoutCalli, [7, 0x0A, n.toNat, idx.code, 0, sig.toNat], []⟩
  | .ret k => ⟨layoutRet, [7, 0x0B, k.toNat, 0], []⟩
  | .b0 op => ⟨layoutB0, [7, op, 0], []⟩
  | .bi op imm => ⟨layoutBi, [7, op, 0, imm.toNat], []⟩
  | .g op f => ⟨layoutG, [8, op, f.ty.code, f.src0.code, f.src1.code, f.sdst.toNat, f.imm.toNat], []⟩
  | .y op f => ⟨layoutY, [9, op, f.sub.toNat, f.src.code, f.sidx.toNat, f.imm.toNat], []⟩
  | .pair f => ⟨layoutP, [10, f.op0.op, f.ty0.code, f.a0.code, f.b0.code, 0, f.sat0.toNat, 0,
      f.op1.op, f.ty1.code, f.a1.code, f.b1.code, f.rm1.code, 0, 0], []⟩
  | .nest f => ⟨layoutN, [11, f.op.code, if f.float then 3 else 1, f.levels.toNat, f.sd.toNat, f.sa.toNat,
      f.sb.toNat, f.narrow.toNat, f.rm.code, f.bscalar.toNat, f.nfmt2.toNat] ++ f.extents.map (·.toNat) ++
      f.strides.map (·.toNat) ++ [0], []⟩
  | .event => ⟨[], [], []⟩

/-- The words of one 64-bit unit, the low word at the lower address (R37). -/
def unitWords (u : Nat) : List Word := [BitVec.ofNat 32 u, BitVec.ofNat 32 (u / 2 ^ 32)]

/-- The words of a value of `n` units, the most significant unit first (R37). -/
def valueWords : Nat → Nat → List Word
  | 0, _ => []
  | n + 1, x => unitWords (x / 2 ^ (64 * n) % 2 ^ 64) ++ valueWords n x

/-- The words of an instruction, none for an event. -/
def encode (i : Instr) : List Word :=
  let c := i.form.code
  valueWords (c.layout.sum / 64) (packBits c.layout c.vals) ++ c.lits

/-! ## Decoding -/

/-- Why code words hold no instruction: words outside the extent (CODEEND, R45), or one of the ILLOP
checks of R76 in its order. -/
inductive DecodeError where
  /-- a word of the instruction lies outside the extent (R45) -/
  | codeEnd
  /-- class 0x0 or 0xC to 0xF where an instruction is expected (R76, 1) -/
  | noClass
  /-- an unassigned opcode (R76, 2) -/
  | noOpcode
  /-- a field value outside its range, or a nonzero reserved field (R76, 3) -/
  | badField
  /-- a specifier, modifier, type or field-use rule (R76, 4) -/
  | badForm
  deriving DecidableEq, Repr, Inhabited

/-- Units of an instruction by its class nibble (R37). -/
def classUnits (c : Nat) : Option Nat :=
  if 1 ≤ c ∧ c ≤ 9 then some 1 else if c = 10 then some 2 else if c = 11 then some 4 else none

/-- One 64-bit unit of its two words (R37). -/
def unitOf (lo hi : Word) : Nat := lo.toNat + 2 ^ 32 * hi.toNat

/-- The value of `n` units and the words after them, none where a word is missing. -/
def takeUnits : Nat → List Word → Option (Nat × List Word)
  | 0, ws => some (0, ws)
  | n + 1, lo :: hi :: ws =>
    match takeUnits n ws with
    | some (x, rest) => some (unitOf lo hi * 2 ^ (64 * n) + x, rest)
    | none => none
  | _ + 1, _ => none

/-- `n` literal words and the words after them. -/
def takeLits : Nat → List Word → Option (List Word × List Word)
  | 0, ws => some ([], ws)
  | n + 1, w :: ws => (takeLits n ws).map fun p => (w :: p.1, p.2)
  | _ + 1, [] => none

/-- Literal words that follow an instruction: its LITCOUNT in classes V and S (R47). -/
def litCount (cls x : Nat) : Nat := if cls = 1 ∨ cls = 3 then x / 2 ^ 46 % 4 else 0

def bitOf (n : Nat) : Bool := n == 1

/-- The V form of its field values; opcode 0x00 uses SRC2 as a pantry field and DROP its SRC0 as a count (R59). -/
def formV (lits : List Word) : List Nat → Option Form
  | [_, op, ty, _, nf, rm, sat, nar, s0, s1, s2, rsv, grade] =>
    if rsv ≠ 0 then none
    else if op = 0 ∧ s2 ≠ 0 then
      if ty = 0 ∧ nf = 0 ∧ rm = 0 ∧ sat = 0 ∧ nar = 0 ∧ s1 = 0 ∧ grade = 0 ∧ lits = [] then
        if 0x400 ≤ s2 ∧ s2 < 0x440 ∧ s0 = 0 then some (.get (BitVec.ofNat 6 s2))
        else if 0x800 ≤ s2 ∧ s2 < 0x840 ∧ s0 < 32 then some (.save (BitVec.ofNat 5 s0) (BitVec.ofNat 6 s2))
        else none
      else none
    else if op = 2 then
      if ty = 0 ∧ nf = 0 ∧ rm = 0 ∧ sat = 0 ∧ nar = 0 ∧ s1 = 0 ∧ s2 = 0 ∧ grade = 0 ∧ lits = [] ∧
          0xC00 ≤ s0 ∧ s0 < 0xC20 then some (.drop (BitVec.ofNat 5 s0))
      else none
    else
      match Ty.ofCode ty, Rm.ofCode rm, Operand.ofCode s0, Operand.ofCode s1, Operand.ofCode s2 with
      | some t, some r, some a, some b, some c =>
        some (.v op ⟨t, BitVec.ofNat 4 nf, r, bitOf sat, bitOf nar, a, b, c, bitOf grade, lits⟩)
      | _, _, _, _, _ => none
  | _ => none

def formI : List Nat → Option Form
  | [_, op, ty, s0, s1, rm, sat, rsv, imm] =>
    match Ty.ofCode ty, Operand.ofCode s0, Operand.ofCode s1, Rm.ofCode rm with
    | some t, some a, some b, some r =>
      if rsv ≠ 0 then none else some (.i op ⟨t, a, b, r, bitOf sat, BitVec.ofNat 20 imm⟩)
    | _, _, _, _ => none
  | _ => none

def formS (lits : List Word) : List Nat → Option Form
  | [_, op, ty, _, dst, sa, sb, cond, imm] =>
    match Ty.ofCode ty, Operand.ofCode sa, Operand.ofCode sb with
    | some t, some a, some b =>
      some (.s op ⟨t, BitVec.ofNat 7 dst, a, b, BitVec.ofNat 3 cond, BitVec.ofNat 12 imm, lits⟩)
    | _, _, _ => none
  | _ => none

def formM : List Nat → Option Form
  | [_, op, size, space, order, scope, addr, data, sx, fsel, hint, rsv, off] =>
    match Size.ofCode size, Space.ofCode space, Order.ofCode order, Scope.ofCode scope, Operand.ofCode addr,
        Operand.ofCode data, Hint.ofCode hint with
    | some sz, some sp, some or, some sc, some a, some d, some h =>
      if rsv ≠ 0 then none
      else some (.m op ⟨sz, sp, or, sc, a, d, bitOf sx, bitOf fsel, h, BitVec.ofNat 12 off⟩)
    | _, _, _, _, _, _, _ => none
  | _ => none

def formE : List Nat → Option Form
  | [_, op, h, b, v, imm] =>
    some (.e op ⟨BitVec.ofNat 7 h, BitVec.ofNat 7 b, BitVec.ofNat 8 v, BitVec.ofNat 32 imm⟩)
  | _ => none

def formX : List Nat → Option Form
  | [_, op, a, d, sc, sect, fa, fb, fl, soff, count] =>
    some (.x op ⟨BitVec.ofNat 7 a, BitVec.ofNat 7 d, BitVec.ofNat 7 sc, BitVec.ofNat 2 sect, BitVec.ofNat 4 fa,
      BitVec.ofNat 4 fb, BitVec.ofNat 3 fl, BitVec.ofNat 12 soff, BitVec.ofNat 8 count⟩)
  | _ => none

/-- The B form of an opcode's field values (R70). -/
def formB (op : Nat) (vs : List Nat) : Option Form :=
  match op, vs with
  | 0x00, [_, _, n, rsv, off] => if rsv ≠ 0 then none else some (.bw 0x00 (BitVec.ofNat 4 n) (BitVec.ofNat 32 off))
  | 0x09, [_, _, n, rsv, off] => if rsv ≠ 0 then none else some (.bw 0x09 (BitVec.ofNat 4 n) (BitVec.ofNat 32 off))
  | 0x08, [_, _, d, c, e0, e1, e2, e3, e4, e5, rsv] =>
    if rsv ≠ 0 then none
    else some (.join ⟨BitVec.ofNat 8 d, BitVec.ofNat 3 c, BitVec.ofNat 5 e0, BitVec.ofNat 5 e1, BitVec.ofNat 5 e2,
      BitVec.ofNat 5 e3, BitVec.ofNat 5 e4, BitVec.ofNat 5 e5⟩)
  | 0x0A, [_, _, n, idx, rsv, sig] =>
    match Operand.ofCode idx with
    | some o => if rsv ≠ 0 then none else some (.calli (BitVec.ofNat 4 n) o (BitVec.ofNat 32 sig))
    | none => none
  | 0x0B, [_, _, k, rsv] => if rsv ≠ 0 then none else some (.ret (BitVec.ofNat 4 k))
  | 0x01, [_, _, c, junc, target] =>
    (Operand.ofCode c).map fun o => .bz 0x01 o (BitVec.ofNat 22 junc) (BitVec.ofNat 20 target)
  | 0x02, [_, _, c, junc, target] =>
    (Operand.ofCode c).map fun o => .bz 0x02 o (BitVec.ofNat 22 junc) (BitVec.ofNat 20 target)
  | 0x0F, [_, _, rsv, imm] => if rsv ≠ 0 then none else some (.bi 0x0F (BitVec.ofNat 16 imm))
  | 0x10, [_, _, rsv, imm] => if rsv ≠ 0 then none else some (.bi 0x10 (BitVec.ofNat 16 imm))
  | _, [_, _, rsv] => if rsv ≠ 0 then none else some (.b0 op)
  | _, [_, _, r, rsv, off] => if rsv ≠ 0 then none else some (.bs op (BitVec.ofNat 7 r) (BitVec.ofNat 32 off))
  | _, _ => none

def formG : List Nat → Option Form
  | [_, op, ty, s0, s1, sdst, imm] =>
    match Ty.ofCode ty, Operand.ofCode s0, Operand.ofCode s1 with
    | some t, some a, some b => some (.g op ⟨t, a, b, BitVec.ofNat 7 sdst, BitVec.ofNat 17 imm⟩)
    | _, _, _ => none
  | _ => none

def formY : List Nat → Option Form
  | [_, op, sub, src, sidx, imm] =>
    (Operand.ofCode src).map fun o => .y op ⟨BitVec.ofNat 8 sub, o, BitVec.ofNat 7 sidx, BitVec.ofNat 25 imm⟩
  | _ => none

def formP : List Nat → Option Form
  | [_, op0, ty0, a0, b0, rm0, sat0, r0, op1, ty1, a1, b1, rm1, sat1, r1] =>
    match PairInt.ofOp op0, Ty.ofCode ty0, Operand.ofCode a0, Operand.ofCode b0, PairFloat.ofOp op1,
        Ty.ofCode ty1, Operand.ofCode a1, Operand.ofCode b1, Rm.ofCode rm1 with
    | some o0, some t0, some x0, some y0, some o1, some t1, some x1, some y1, some rm =>
      if rm0 ≠ 0 ∨ r0 ≠ 0 ∨ sat1 ≠ 0 ∨ r1 ≠ 0 then none
      else some (.pair ⟨o0, t0, x0, y0, bitOf sat0, o1, t1, x1, y1, rm⟩)
    | _, _, _, _, _, _, _, _, _ => none
  | _ => none

def formN : List Nat → Option Form
  | _ :: op :: et :: lv :: sd :: sa :: sb :: nar :: rm :: bs :: nf :: rest =>
    match NestOp.ofCode op, Rm.ofCode rm with
    | some o, some r =>
      if (et ≠ 1 ∧ et ≠ 3) ∨ (rest.drop 20).headD 1 ≠ 0 then none
      else some (.nest ⟨o, et == 3, BitVec.ofNat 3 lv, BitVec.ofNat 7 sd, BitVec.ofNat 7 sa, BitVec.ofNat 7 sb,
        bitOf nar, r, bitOf bs, BitVec.ofNat 2 nf, (rest.take 5).map (BitVec.ofNat 12 ·),
        ((rest.drop 5).take 15).map (BitVec.ofNat 10 ·)⟩)
    | _, _ => none
  | _ => none

/-- The form of an instruction's value: none where a field is outside its range (R76, 3 and 4). -/
def formOf (cls x : Nat) (lits : List Word) : Option Form :=
  match cls with
  | 1 => formV lits (unpackBits layoutV x)
  | 2 => formI (unpackBits layoutI x)
  | 3 => formS lits (unpackBits layoutS x)
  | 4 => formM (unpackBits layoutM x)
  | 5 => formE (unpackBits layoutE x)
  | 6 => formX (unpackBits layoutX x)
  | 7 =>
    let op := x / 2 ^ 54 % 64
    match layoutB op with
    | some l => formB op (unpackBits l x)
    | none => none
  | 8 => formG (unpackBits layoutG x)
  | 9 => formY (unpackBits layoutY x)
  | 10 => formP (unpackBits layoutP x)
  | 11 => formN (unpackBits layoutN x)
  | _ => none

/-- The instruction at the head of a list of code words and the words after it (R37, R45 to R76). -/
def decode (ws : List Word) : Except DecodeError (Instr × List Word) :=
  match takeUnits 1 ws with
  | none => .error .codeEnd
  | some (u0, _) =>
    let cls := u0 / 2 ^ 60
    match classUnits cls with
    | none => .error .noClass
    | some n =>
      match takeUnits n ws with
      | none => .error .codeEnd
      | some (x, rest) =>
        if litCount cls x = 3 then .error .badField
        else
          match takeLits (litCount cls x) rest with
          | none => .error .codeEnd
          | some (lits, rest') =>
            match formOf cls x lits with
            | none => .error .badField
            | some f =>
              match f.toInstr with
              | none => .error .noOpcode
              | some i => if i.wf then .ok (i, rest') else .error .badForm

/-- The instruction that `decode` reads from an opcode-table word: 32-bit words from the lowest address,
bit 0 the least significant bit of the first; the words above `nbits` are zero. -/
def decodeTableWord (nbits w : Nat) : Option Instr :=
  match decode ((List.range 10).map fun k => BitVec.ofNat 32 (w % 2 ^ nbits / 2 ^ (32 * k))) with
  | .ok (i, _) => some i
  | .error _ => none

/-! ## Clause headers -/

/-- A clause header (R39). -/
structure Header where
  wait : BitVec 12
  flagA : BitVec 4
  flagB : BitVec 4
  count : BitVec 5
  yield : Bool
  deriving DecidableEq, Repr, Inhabited

/-- The layout of a clause header (R39). -/
def layoutH : List Nat := [4, 12, 4, 4, 5, 1, 34]

/-- A flag code of a header: 0 to 11, or 15 for none (R24, R39). -/
def flagCodeLegal (c : Nat) : Bool := decide (c ≤ 11) || c == 15

/-- The header of its two words: none where R41 faults it. -/
def decodeHeader (lo hi : Word) : Option Header :=
  match unpackBits layoutH (unitOf lo hi) with
  | [cls, wait, fa, fb, count, y, rsv] =>
    if cls = 0 ∧ rsv = 0 ∧ 1 ≤ count ∧ count ≤ 24 ∧ flagCodeLegal fa ∧ flagCodeLegal fb then
      some ⟨BitVec.ofNat 12 wait, BitVec.ofNat 4 fa, BitVec.ofNat 4 fb, BitVec.ofNat 5 count, bitOf y⟩
    else none
  | _ => none

/-- The words of a clause header (R39). -/
def encodeHeader (h : Header) : List Word :=
  unitWords (packBits layoutH [0, h.wait.toNat, h.flagA.toNat, h.flagB.toNat, h.count.toNat, h.yield.toNat, 0])

end Sys2Proof
end

