-- ==== Sys2Proof/Machine/State.lean ====
section
/-! DEFINITION. The whole state of the package as plain data, and the state after reset. -/

namespace Sys2Proof.Machine

open Sys2Proof

/-- Why the machine stops with a fault of the model. The spec's own faults are effects that a step takes
as a next state (R261 to R269); none of them is here. -/
inductive Fault where
  /-- Raised by an access to a device-physical address that no memory backs: host memory of a host that
  the model does not hold (R306, R369). Safe: the machine stops where the hardware would go on. -/
  | noMemory (addr : Nat)
  deriving DecidableEq, Repr, Inhabited

/-- Why an instruction has no meaning here. -/
inductive Refusal where
  /-- Raised by an instruction that the model gives no meaning. Safe. -/
  | notModelled (mnemonic : String)
  /-- Raised by `exec` of an instruction where the state's issuer names no resident group, so that there
  is nobody to execute it; no step raises it. Safe. -/
  | noIssuer
  deriving DecidableEq, Repr, Inhabited

/-- Whether a group runs, and why it does not (R176, R264, R265, R270). -/
inductive Status where
  /-- it issues -/
  | running
  /-- it waits for Sundoc's fault service (R264) -/
  | service
  /-- stopped by its own fault, with the flags NESTED and HFAIL of its record (R265 to R267) -/
  | faulted (nested hfail : Bool)
  /-- stopped because another group of its launch faulted under trap mode 2 (R265) -/
  | gridStop
  /-- stopped for the debugger (R176) -/
  | debug
  /-- its team is being pre-empted (R270) -/
  | preempt
  deriving DecidableEq, Repr, Inhabited

/-! ## Lanes, slices and groups -/

/-- A trail entry that waits for data: its ring index and the request that fills it (R17). -/
structure Pending where
  entry : BitVec 5
  req : Nat
  deriving DecidableEq, Repr, Inhabited

/-- A lane: head, NET, trail, pending and poisoned entries, pantry (R13, R17, R18, R19, R262). -/
structure Lane where
  head : BitVec 5
  net : BitVec 8
  trail : Vector Word 32
  pend : List Pending
  poison : List PoisonMark
  pantry : Vector Word 64
  deriving DecidableEq, Repr, Inhabited

/-- A lane at group start (R15, R18, R19). -/
def Lane.start : Lane := ⟨0, 0, Vector.replicate 32 0, [], [], Vector.replicate 64 0⟩

/-- A slice: its control state (R26), the index of its next instruction in the clause at PC (R266),
handler mode and TRESUME.SKIP (R267, R268), and when it may start clauses (R192, R193, R196). -/
structure Slice where
  pc : DWord
  iidx : Nat
  active : BitVec 4
  exited : BitVec 4
  depth : Nat
  dvtop : BitVec 6
  handler : Bool
  skip : Bool
  wake : Nat
  ready : Option Nat
  yielded : Bool
  /-- cycle at which a clause with YIELD ended, until the next pick (R193) -/
  late : Option Nat
  deriving DecidableEq, Repr, Inhabited

/-- A slice at group start (R28). -/
def Slice.start (entry : DWord) : Slice := ⟨entry, 0, 0xF, 0, 0, 63, false, false, 0, none, false, none⟩

/-- A divergence entry (R29). -/
structure DivEntry where
  jpc : DWord
  dpc : DWord
  pmask : BitVec 32
  amask : BitVec 32
  dmask : BitVec 32
  onet : BitVec 8
  depth : Nat
  deriving DecidableEq, Repr, Inhabited

/-- What a call record keeps of a lane (R32); entries of logged loads stay pending in it (R17, R266). -/
structure LaneRec where
  trail : Vector Word 32
  head : BitVec 5
  net : BitVec 8
  pend : List Pending
  poison : List PoisonMark
  deriving DecidableEq, Repr, Inhabited

/-- What a call record keeps of a slice (R32). -/
structure SliceRec where
  retPc : DWord
  active : BitVec 4
  argc : BitVec 4
  divDepth : Nat
  dvtop : BitVec 6
  ridx : Nat
  trapRec : Bool
  deriving DecidableEq, Repr, Inhabited

/-- A kernel header's fields (R385). -/
structure KHeader where
  ragged : Bool
  span : Nat
  pantry : Nat
  scalars : Nat
  barriers : Nat
  full : Bool
  scratch : Nat
  minL1 : Nat
  rack : Nat
  shape : Word
  trapMode : Nat
  handler : Nat
  constOff : Word
  constSize : Nat
  argSig : Word
  argSize : Nat
  divDepth : Nat
  callDepth : Nat
  deriving DecidableEq, Repr, Inhabited

/-! ## Memory requests -/

/-- The atomic operations of classes M, S and Y (R133, R208, R420). -/
inductive AtomOp where
  | add | min | max | and | or | xor | xchg | cas | fadd | inc
  deriving DecidableEq, Repr, Inhabited

/-- What a request does (R206 to R208, R133, R400, R420). -/
inductive ReqKind where
  | load
  | store
  | atomic (op : AtomOp) (signed : Bool)
  | waitv
  | pref
  | renew
  /-- a result of a special function, ACT or f64 instruction on its way to its entries (R137) -/
  | long
  deriving DecidableEq, Repr, Inhabited

/-- Where a request stands. -/
inductive Stage where
  /-- an access whose translation is not known yet (R210) -/
  | walk
  /-- translated; at the core, before its home or its copy is asked -/
  | ready
  /-- asked at the home; the reply is on its way -/
  | reply
  /-- the reply is at the core; its data goes to the entries next -/
  | data
  /-- a write performed at the home; the acknowledgement is on its way -/
  | ack
  /-- a WAITV that sleeps until its lease lapses (R207) -/
  | asleep
  /-- an access whose translation failed, kept in the operand log (R210) -/
  | logged
  /-- a scratch access, performed in issue order (R186) -/
  | scratch
  deriving DecidableEq, Repr, Inhabited

/-- What a home sends to answer a read: nothing where a cache of the core's own die answers, a grant without data, or data (R304, R312,
R334). -/
inductive Crossing where
  | none | grant | data
  deriving DecidableEq, Repr, Inhabited

/-- One access of one lane (or of a scalar instruction) in flight. -/
structure Req where
  id : Nat
  /-- the instruction issue that made it: the lanes of one issue share it -/
  op : Nat
  kind : ReqKind
  core : Nat
  frame : Nat
  lane : Nat
  /-- issue number within the group: program order (R326) -/
  seq : Nat
  ctx : Nat
  /-- virtual address, or scratch byte address for a scratch access -/
  va : DWord
  /-- physical address once translated -/
  pa : Nat
  space : Space
  /-- core whose scratch a scratch access reaches -/
  peer : Nat
  size : Nat
  order : Order
  scope : Scope
  hint : Hint
  data : List Byte
  cmp : List Byte
  sx : Bool
  /-- ring entries to fill, the least significant word first -/
  entries : List (BitVec 5)
  flag : Option Nat
  /-- scalar destination and its width in registers (R133) -/
  dst : Option (Nat × Nat)
  /-- clock the request carries (R334) -/
  clk : Nat
  stage : Stage
  wts : Nat
  rts : Nat
  /-- the page is software-managed (R343) -/
  soft : Bool
  /-- the page is on another device (R372) -/
  dev : Bool
  poison : Bool
  /-- the instruction's address and unit, for the operand log (R212) -/
  pc : DWord
  inst : Nat
  /-- SDGEN of the core when its walk began (R374) -/
  sdgen : Nat
  /-- package time at which it was sent to another device (R415) -/
  sent : Nat
  /-- slices of the split that issued it (R186, R205) -/
  mask : BitVec 8
  /-- scratch byte address that a write-back reads when it is performed (R229) -/
  src : Option Nat
  /-- issue number of the write-backs a release has started (R204) -/
  wb : Option Nat
  /-- the dirty bitmap that a write through its translation marks (R381) -/
  dirty : Option Nat
  /-- the page of a write has COMP (R315) -/
  comp : Bool
  /-- address bits within the page of its translation (R376) -/
  bits : Nat
  /-- the line of another die as this write left it, for the remote-data cache (R312) -/
  line : List Byte
  /-- what its home has sent for it (R304, R356) -/
  crossing : Crossing
  /-- the line that its answer carries has poisoned bytes, so that no copy of it is made (R262, R325) -/
  spoilt : Bool
  deriving DecidableEq, Repr, Inhabited

/-- An operand-log entry (R212). -/
structure LogEntry where
  op : Nat
  pc : DWord
  inst : Nat
  /-- the cause of the first faulting lane; none of a WAITV that waits, which has no faulting lane (R212, log entry 92) -/
  cause : Option Cause
  flag : Option Nat
  faddr : DWord
  deriving DecidableEq, Repr, Inhabited

/-- The issue in progress: who executes, where the instruction stands and where it continues. -/
structure Issuer where
  core : Nat
  frame : Nat
  /-- slices of the issuing split -/
  mask : BitVec 8
  /-- clause header, index and address of the instruction -/
  clause : DWord
  idx : Nat
  pc : DWord
  /-- clause header and index after the instruction, and the first word after the clause (R156) -/
  nextPc : DWord
  nextIdx : Nat
  clauseEnd : DWord
  flagA : BitVec 4
  flagB : BitVec 4
  /-- what a waiting instruction that is tried again read when it issued (R214, R221) -/
  kept : List Nat
  deriving DecidableEq, Repr, Inhabited

/-- An instruction of a group that waits: its issue, the instruction, its place in program order, and what it
read at issue. `parked` tells whether the split stands at the next clause header (R221), `retry` whether the
instruction is tried again rather than completed by another agent's step. -/
structure Wait where
  iss : Issuer
  instr : Instr
  seq : Nat
  vals : List Nat
  parked : Bool
  retry : Bool
  deriving DecidableEq, Repr, Inhabited

/-- A fault of some slices that their group could not take when it arose: that of a wait (R221, R300), or one that Sundoc's
fault service has declared invalid (R264), which is delivered without another service. -/
structure Due where
  mask : BitVec 8
  flt : FaultRec
  answered : Bool
  deriving DecidableEq, Repr, Inhabited

/-- A group (R13 to R35, R212, R274). -/
structure Group where
  lanes : Vector Lane 32
  slices : Vector Slice 8
  scalars : Vector Word 96
  sseq : Vector Nat 96
  flags : Vector Nat 12
  /-- flags that have been clear since before this cycle (R192) -/
  clear : BitVec 12
  div : Sparse DivEntry
  /-- the shadow: the call record that is not in memory yet, by lane and by slice (R34) -/
  laneRecs : Sparse LaneRec
  sliceRecs : Sparse SliceRec
  /-- of the call records that memory holds, by lane key: entries that logged loads fill, and poisoned ones (R17, R262, R266) -/
  recHeld : Sparse (List Pending × List PoisonMark)
  /-- the faults that trap records were written for, by slice key: R269 needs their kinds, which R32 has no field for -/
  traps : Sparse FaultRec
  csp : DWord
  actBank : Nat
  log : List LogEntry
  /-- the logged loads are to be issued again before the group issues anything (R212) -/
  replay : Bool
  /-- poisoned data that scalar loads and atomics have written, by the flag that reports it (R134, R262) -/
  sPoison : List PoisonMark
  rdmax : Nat
  ackmax : Nat
  engMax : Nat
  /-- largest acknowledged wts of each operation that has completed since WAITALL, by handle (R340) -/
  engDone : Sparse Nat
  seq : Nat
  status : Status
  fault : Option FaultRec
  drainFault : Bool
  /-- asynchronous faults to raise at the next clause boundary of the named slices (R262) -/
  async : List Async
  /-- faults that could not be taken when they arose (R221, R264, R300) -/
  due : List Due
  waits : List Wait
  launch : Nat
  cluster : Nat
  index : Nat
  ctx : Nat
  priv : Bool
  hdr : KHeader
  placedAt : Nat
  /-- the largest window among the remote writes acknowledged since the last WINFENCE (R422) -/
  fabWin : Option Nat
  /-- a host-homed store has been performed since the last release (R347) -/
  hostSt : Bool
  /-- the debugger has halted it while it stood in the fault service or at a fault of a drain: it stops when it goes on (R176, R278) -/
  halted : Bool
  deriving DecidableEq, Repr, Inhabited

/-! ## Cores -/

/-- A team: the groups of one launch on one core (R183, R184, R232, R274, R289, R294). -/
structure Team where
  launch : Nat
  cluster : Nat
  rank : Nat
  /-- cores of the cluster by rank -/
  peers : List Nat
  scratchBase : Nat
  scratchLen : Nat
  rackBase : Nat
  rackLen : Nat
  /-- team barriers, then (rank 0) cluster barriers: GEN, MODE, COUNT (R294) -/
  bars : Vector Word 16
  cbars : Vector Word 16
  /-- clock that the last completion of each cluster barrier carries (R296) -/
  cclk : Vector Nat 16
  prio : Nat
  promo : Nat
  starved : Nat
  /-- a gang of it has started a clause in this cycle (R194) -/
  started : Bool
  coreRec : DWord
  grpRecs : List DWord
  groups : Nat
  /-- groups placed and not yet retired -/
  live : Nat
  preempting : Bool
  deriving DecidableEq, Repr, Inhabited

/-- A copy of a line in L1 or in a remote-data cache (R187, R311, R333, R344, R414). -/
structure Copy where
  wts : Nat
  rts : Nat
  data : List Byte
  soft : Option Nat
  /-- in L1: number of its latest use, and whether it is protected (R187) -/
  used : Nat
  keep : Bool
  deriving DecidableEq, Repr, Inhabited

/-- A translation held by a TLB or a last-page register (R188, R374). -/
structure TlbEntry where
  ctx : Nat
  /-- virtual page and the level of its leaf: 3 for 64 KiB, 2 for 256 MiB, 1 for 1 TiB -/
  vpage : Nat
  level : Nat
  pte : DWord
  /-- the dirty bitmap that the walk read (R373) -/
  dirtymap : Nat
  deriving DecidableEq, Repr, Inhabited

/-- A gang that holds a slot, with its fetched clause (R39, R191). -/
structure Hold where
  frame : Nat
  mask : BitVec 8
  clause : DWord
  hdr : Header
  /-- index and address of the next instruction, the words from it on, the first word after the clause -/
  idx : Nat
  pc : DWord
  words : List Word
  clauseEnd : DWord
  deriving DecidableEq, Repr, Inhabited

/-- An issue slot: the gang that holds it, and the gang its last rotation picked (R190, R193). -/
structure IssueSlot where
  hold : Option Hold
  rotFrame : Nat
  rotSlice : Nat
  /-- one more than the cycle of its last issue, 0 before the first (R190), and the gang that made it -/
  used : Nat
  usedFrame : Nat
  usedMask : BitVec 8
  deriving DecidableEq, Repr, Inhabited

/-- States of a handle slot (R215). -/
inductive HState where
  | free | running | paused | error
  deriving DecidableEq, Repr, Inhabited

/-- A word of a SCATTER element with its global address and the translation that its element got (R316, R317). -/
structure ElemWord where
  entry : TlbEntry
  va : DWord
  word : Word
  deriving DecidableEq, Repr, Inhabited

/-- An engine operation of a handle slot: instruction, operand block, DONE, error, the words it still has to
write back, and the largest acknowledged wts (R215, R229, R272, R275, R340). -/
structure HandleSlot where
  gen : BitVec 6
  owner : Nat
  state : HState
  op : Nat
  var : BitVec 8
  imm : Word
  block : List Word
  ctx : Nat
  launch : Nat
  done : Nat
  errCause : Option Cause
  errAddr : DWord
  /-- scratch words of a write-back's snapshot, and its range's G and length -/
  words : List Nat
  g : DWord
  len : Nat
  off : Nat
  maxWts : Nat
  /-- an FCOPY with .rel starts after its release (R421) -/
  rel : Bool
  seq : Nat
  priv : Bool
  mask : BitVec 8
  /-- words of the SCATTER element at DONE that are still to be combined (R317) -/
  elem : List ElemWord
  deriving DecidableEq, Repr, Inhabited

/-- A slot that no operation holds. -/
def HandleSlot.free (gen : BitVec 6) : HandleSlot :=
  ⟨gen, 0, .free, 0, 0, 0, [], 0, 0, 0, none, 0, [], 0, 0, 0, 0, false, 0, false, 0, []⟩

/-- A range lock (R222, R276): space 0 global, 1 scratch, 3 rack. -/
structure RangeLock where
  start : Nat
  len : Nat
  space : Nat
  source : Bool
  /-- handle-table index, or 0x80 + frame (R276), on the owner's core -/
  owner : Nat
  core : Nat
  ctx : Nat
  /-- issue number of the instruction that registered it -/
  seq : Nat
  deriving DecidableEq, Repr, Inhabited

/-- A mapped range (R223, R226, R276). -/
structure MapRange where
  launch : Nat
  ctx : Nat
  off : Nat
  len : Nat
  g : DWord
  mode : Nat
  preload : Bool
  applied : Nat
  appliedWts : Nat
  /-- read lease of each block (R224) -/
  leases : Sparse Nat
  /-- blocks whose initial or preload fill is still to land -/
  toFill : List Nat
  priv : Bool
  /-- updates sent to the range and not applied: sequence number, place in the range, bytes, wts (R226, R320) -/
  updates : List (Nat × Nat × List Byte × Nat)
  deriving DecidableEq, Repr, Inhabited

/-- A latched B (R235, R243). -/
structure BLatch where
  fmt : Nat
  kclass : Nat
  slot : Nat
  wscale : Option Nat
  deriving DecidableEq, Repr, Inhabited

/-- An instruction in a section's queue (R241, R253). -/
structure SecWork where
  op : Nat
  f : XFields
  frame : Nat
  qmask : BitVec 4
  tile : Nat
  seq : Nat
  deriving DecidableEq, Repr, Inhabited

/-- A section of the matrix array (R235, R253). -/
structure Section where
  owner : Option Nat
  b : Option BLatch
  cb : Option Nat
  queue : List SecWork
  deriving DecidableEq, Repr, Inhabited

/-- An instruction of the nest unit's queue, or rack work (ACCRD, RKLD, RKST) on its way (R250, R258). -/
structure NestWork where
  instr : Instr
  frame : Nat
  flag : Option Nat
  /-- the scalars it read at issue -/
  vals : List Word
  /-- next tuple, level 0 fastest, and the partial reduction (R258) -/
  tuple : Nat
  partialRed : Option Word
  qmask : BitVec 4
  seq : Nat
  /-- number by which its steps are named: one of the counter of requests -/
  ticket : Nat
  /-- the address of the page it waits for (R225) -/
  bad : DWord
  /-- of a NEST: the scratch bytes as they stood before it, and the elements it has written (R257) -/
  before : List Host.Cell
  wrote : List Nat
  /-- the cause that it is paused for (R225) -/
  why : Option Cause
  deriving DecidableEq, Repr, Inhabited

/-- An LDACT that waits for its bank or reads its image (R259). -/
structure ActWait where
  frame : Nat
  bank : Nat
  deriving DecidableEq, Repr, Inhabited

/-- A core (R182 to R199, R215 to R223, R232 to R235, R258, R278, R333, R344, R361, R374, R375). -/
structure Core where
  clock : Nat
  born : Nat
  sinceCreep : Nat
  /-- lease of each context; 64 where none is listed (R199) -/
  leases : Sparse Nat
  diesel : Nat
  /-- P, STATE, SCR and L1 of CARVE -/
  carve : Vector (BitVec 8) 4
  swgen : Nat
  sdgen : Nat
  sdva : DWord
  sdctl : Word
  sdBusy : Bool
  dbgctl : Word
  waddr : Vector DWord 4
  wctl : Vector Word 4
  /-- frames of the groups whose next resume is a single step (R278) -/
  stepArmed : List Nat
  /-- groups that run a single step, by frame, and whether the focus slice has waited at a junction in it, so that other splits issue
  until it has issued one instruction (R177) -/
  stepping : Sparse Bool
  l1 : Sparse Copy
  /-- uses of L1 so far, by which the least recently used line is known (R187) -/
  l1Uses : Nat
  tlb : List TlbEntry
  lastPage : Sparse TlbEntry
  scratch : List Host.Cell
  wstat : Sparse (BitVec 2)
  rack : List Host.Cell
  rackPoison : List Nat
  scratchPoison : List Nat
  claims : Sparse Nat
  sections : Vector Section 4
  nestQ : List NestWork
  rackQ : List NestWork
  banks : Vector (List Host.Cell) 2
  handles : Sparse HandleSlot
  locks : List RangeLock
  maps : List MapRange
  /-- bounds of the subscribed ranges of the cluster's cores: peer, start, end (R227) -/
  subBounds : List (Nat × Nat × Nat)
  slots : Vector IssueSlot 4
  frames : Sparse Group
  teams : List Team
  actWaits : List ActWait
  retired : Bool
  /-- corrected errors (R363) -/
  corrected : Nat
  deriving DecidableEq, Repr, Inhabited

def Section.empty : Section := ⟨none, none, none, []⟩

/-- A slot before its first pick; its rotation starts at frame 0 and slice 0, which R193 does not say: DESIGN CHOICE (log entry 22). -/
def IssueSlot.empty : IssueSlot := ⟨none, 0, 0, 0, 0, 0⟩

/-- A core after reset, at a cycle (R198, R199, R215, R278, R333, R344, R361, R366). -/
def Core.reset (cycle die swgen : Nat) : Core where
  clock := 0
  born := cycle
  sinceCreep := 0
  leases := []
  diesel := die
  carve := #v[0, 6, 0, 42]
  swgen := swgen
  sdgen := 0
  sdva := 0
  sdctl := 0
  sdBusy := false
  dbgctl := 0
  waddr := Vector.replicate 4 0
  wctl := Vector.replicate 4 0
  stepArmed := []
  stepping := []
  l1 := []
  l1Uses := 0
  tlb := []
  lastPage := []
  scratch := []
  wstat := []
  rack := []
  rackPoison := []
  scratchPoison := []
  claims := []
  sections := Vector.replicate 4 Section.empty
  nestQ := []
  rackQ := []
  banks := Vector.replicate 2 []
  handles := []
  locks := []
  maps := []
  subBounds := []
  slots := Vector.replicate 4 IssueSlot.empty
  frames := []
  teams := []
  actWaits := []
  retired := false
  corrected := 0

/-! ## Dies and the package -/

/-- States of a connection entry (R357): idle, setting up, up, draining, down. -/
inductive ConnState where
  | idle | setup | up | draining | down
  deriving DecidableEq, Repr, Inhabited

/-- A connection entry (R357): ERR, STATE, BW, BUNDLE and DEST; `failing` while it drains after an optical failure, and the cycle in
which it began to set up, plus one (R358). -/
structure Conn where
  err : Nat
  failing : Bool
  state : ConnState
  bw : Nat
  bundle : Nat
  dest : Nat
  asked : Nat
  deriving DecidableEq, Repr, Inhabited

/-- States of an indirection entry (R378). -/
inductive IndState where
  | free | copying | flipped | error | retiring
  deriving DecidableEq, Repr, Inhabited

/-- An indirection entry: OLD and NEW frames, blocks done, STATE (R378, R379). -/
structure IndEntry where
  old : Nat
  new : Nat
  done : Nat
  state : IndState
  deriving DecidableEq, Repr, Inhabited

/-- A die-barrier block (R322, R323). -/
structure DieBlock where
  launch : Nat
  words : Vector Word 8
  clock : Nat
  /-- clock that the last completion of each barrier carries (R296) -/
  cclk : Vector Nat 8
  /-- the launch's save area for it (R323) -/
  area : DWord
  deriving DecidableEq, Repr, Inhabited

/-- A forwarded write of a subscription that has no number yet: its place in the range, its bytes, its wts, and the slice that
forwarded it (R320). -/
structure SubWrite where
  off : Nat
  bytes : List Byte
  wts : Nat
  slice : Nat
  deriving DecidableEq, Repr, Inhabited

/-- A subscription at its home (R319 to R321): whose it is, the core it sends to unless it is detached, the parts of the range by
page (place, physical address, length), blocks not read yet for the fill, the counter and whether it has started, whether updates
are sent, and the writes that have no number yet. -/
structure Sub where
  core : Option Nat
  launch : Nat
  cluster : Nat
  rank : Nat
  off : Nat
  parts : List (Nat × Nat × Nat)
  unread : List Nat
  seqNo : Nat
  counting : Bool
  live : Bool
  writes : List SubWrite
  /-- wts of the write that the counter has last counted (R342) -/
  lastWts : Nat
  deriving DecidableEq, Repr, Inhabited

/-- A compute die (R310, R311, R319, R322, R325, R348, R357, R360, R362, R363, R365, R378). -/
structure Die where
  /-- cores and slices whose fuses are intact (R307, R360, R366) -/
  coreFuse : BitVec 36
  sliceFuse : BitVec 24
  healthy : BitVec 36
  /-- retired cores that the latest reset has found healthy (R364) -/
  returning : BitVec 36
  slices : BitVec 24
  spare : Vector (BitVec 8) 4
  lpct : Vector (BitVec 8) 36
  full : Bool
  hvgen : BitVec 8
  /-- whether the harvest mode has been set since the package reset that brought the die up (R366) -/
  modeSet : Bool
  /-- corrected errors of its L2, remote-data-cache and metadata lines (R262, R325) -/
  corrected : Nat
  conn : Vector Conn 32
  ind : Vector IndEntry 64
  /-- 2 MiB regions under host bias (R348) -/
  hostBias : List Nat
  evw : Vector Nat 24
  evr : Vector Nat 24
  maxTs : Vector Nat 24
  /-- the largest rts issued in each 2 MiB region (R349, R380) -/
  tops : Sparse Nat
  rdc : Sparse Copy
  tlb : List TlbEntry
  blocks : List DieBlock
  subs : Sparse Sub
  badSlices : BitVec 24
  /-- spare ways in use, of the L2 slices and of the remote-data-cache slices; spare rows; spare links in use, by router pair
  (R363) -/
  spareWays : BitVec 24
  spareRdc : BitVec 8
  spareRows : Nat
  spareLinks : BitVec 12
  waves : Vector Nat 8
  share : Nat
  drained : Bool
  deriving DecidableEq, Repr, Inhabited

def Conn.idle : Conn := ⟨0, false, .idle, 0, 0, 0, 0⟩

def IndEntry.free : IndEntry := ⟨0, 0, 0, .free⟩

/-- A die after package reset with every core and slice healthy, in standard harvest mode: logical cores
0 to 31 on physical cores 0 to 31, the other four in reserve (R360, R362, R366). DESIGN CHOICE: the spec gives no value of the
fuses; the model has every core and every slice healthy (log entry 2). -/
def Die.reset : Die where
  coreFuse := BitVec.allOnes 36
  sliceFuse := BitVec.allOnes 24
  healthy := BitVec.allOnes 36
  returning := 0
  slices := BitVec.allOnes 24
  spare := #v[32, 33, 34, 35]
  lpct := Vector.ofFn fun i => if i.val < 32 then BitVec.ofNat 8 i.val else 0xFF
  full := false
  hvgen := 0
  modeSet := false
  corrected := 0
  conn := Vector.replicate 32 Conn.idle
  ind := Vector.replicate 64 IndEntry.free
  hostBias := []
  evw := Vector.replicate 24 0
  evr := Vector.replicate 24 0
  maxTs := Vector.replicate 24 0
  tops := []
  rdc := []
  tlb := []
  blocks := []
  subs := []
  badSlices := 0
  spareWays := 0
  spareRdc := 0
  spareRows := 0
  spareLinks := 0
  waves := Vector.replicate 8 0
  share := 0
  drained := false

/-- A line at its home: its timestamps, whether it is dirty (R309, R333). -/
structure LineTs where
  wts : Nat
  rts : Nat
  dirty : Bool
  /-- the page of its latest write has COMP (R315) -/
  comp : Bool
  /-- the store that wrote it last, as long as the home has granted nothing of the line since (R334, R354, log entry 32) -/
  last : Option Nat
  /-- of a clean line: its bytes in HBM are lost with the metadata of their block (R314) -/
  lost : Bool
  deriving DecidableEq, Repr, Inhabited

/-- A launch record's fields (R394). -/
structure LaunchRec where
  entry : DWord
  args : DWord
  clusters : Nat
  dieMask : BitVec 16
  prio : Nat
  intr : Bool
  shapeOvr : Option Word
  groups : Nat
  waitAddr : DWord
  waitVal : DWord
  doneAddr : DWord
  doneInc : Word
  ctx : Nat
  addr : DWord
  deriving DecidableEq, Repr, Inhabited

/-- An accepted launch (R395 to R397). -/
structure Launch where
  id : Nat
  record : LaunchRec
  hdr : KHeader
  w : Nat
  next : Nat
  live : Nat
  lead : Nat
  maxClock : Nat
  stopped : Bool
  bank : List Byte
  deriving DecidableEq, Repr, Inhabited

/-- A record in a pass that waits for its milestone (R395, R400). -/
structure PassRec where
  id : Nat
  record : LaunchRec
  hdr : KHeader
  die : Nat
  /-- the queue it came from with its index, or none for a record of LAUNCH -/
  queue : Option (Nat × Nat)
  w : Nat
  /-- end of the lease of the last read of the counter, 0 where it has none (R395) -/
  lease : Nat
  /-- the group whose LAUNCH handed it over: launch, cluster and index (R400) -/
  src : Option (Nat × Nat × Nat)
  deriving DecidableEq, Repr, Inhabited

/-- Sundoc's account of a cluster that is saved and not restored (R270, R277, R323): its groups that have not retired, and the die whose
barrier block its groups take part in; and what the records have no field for, group by group (R36, log entry 43). -/
structure Saved where
  launch : Nat
  cluster : Nat
  groups : Nat
  die : Nat
  notes : List GroupNote
  deriving DecidableEq, Repr, Inhabited

/-- A die-barrier block that the pass has written to its launch's save area (R323). -/
structure DieSave where
  die : Nat
  launch : Nat
  area : DWord
  deriving DecidableEq, Repr, Inhabited

/-- A code object whose unloading from a context has been requested: its .text from `lo` up to `hi` (R390). -/
structure Unload where
  ctx : Nat
  lo : Nat
  hi : Nat
  deriving DecidableEq, Repr, Inhabited

/-- A shoot-down in order of arrival (R375, R376), with the frame and the place in program order of the SWRITE that started
it on a core. -/
structure Shoot where
  src : ShootSource
  frame : Nat
  seq : Nat
  va : DWord
  kind : Nat
  ctx : Nat
  /-- the requests it waits for once its sweep is done -/
  pending : List Nat
  started : Bool
  deriving DecidableEq, Repr, Inhabited

/-- A fabric aperture (R410). -/
structure Aperture where
  base : Nat
  len : Nat
  ctx : Nat
  srcDev : Nat
  perm : BitVec 3
  deriving DecidableEq, Repr, Inhabited

/-- A request accepted from another device and not yet performed, with the context whose bitmap its aperture charged it to as it was
accepted (R381, R410, R415). -/
structure RemoteOp where
  id : Nat
  req : RemoteRequest
  mark : Option Nat
  deriving DecidableEq, Repr, Inhabited

/-- A stream that is not on the electrical path: its path, k+1 the circuit of connection k of the sending die (R356). -/
structure Stream where
  key : StreamKey
  path : Nat
  deriving DecidableEq, Repr, Inhabited

/-- What Sundoc and the host are told (R264, R265, R363, R394, R395, R397, R425). -/
inductive Report where
  | groupFault (launch cluster index : Nat) (f : FaultRec)
  | service (launch cluster index : Nat) (f : FaultRec)
  | launchErr (addr : DWord)
  | launchFault (launch : Nat) (cause : Cause) (addr : DWord)
  | queueStop (ctx queue reason : Nat) (addr : DWord)
  | engineFault (core handle : Nat) (cause : Cause) (addr : DWord)
  | circuit (die entry : Nat)
  | hardware (die what : Nat)
  | remoteTimeout (core frame : Nat)
  deriving DecidableEq, Repr, Inhabited

/-- The whole machine. -/
structure State where
  agenda : List Move
  tick : Nat
  iss : Issuer
  mem : List Host.Cell
  poison : List Nat
  comp : Sparse Nat
  lines : Sparse LineTs
  reqs : List Req
  nextReq : Nat
  nextOp : Nat
  cores : Sparse Core
  dies : Sparse Die
  cycle : Nat
  ptime : Nat
  ptimeSub : Nat
  base : Nat
  epoch : BitVec 2
  rebases : Word
  timeSync : Bool
  timeErr : BitVec 16
  errLow : Nat
  clockStop : Bool
  winLen : Word
  devNo : BitVec 12
  fabmark : Nat
  hostmark : Nat
  swgen : Nat
  feat : BitVec 4
  dieMask : BitVec 16
  ctxtab : DWord
  privCtx : List Nat
  bar0Sdva : DWord
  bar0Sdctl : Word
  bar0Busy : Bool
  shoots : List Shoot
  launches : List Launch
  nextLaunch : Nat
  passRecs : List PassRec
  unloads : List Unload
  nextRec : Nat
  apertures : Vector Aperture 64
  ports : Vector (Nat × Nat) 32
  remotes : List RemoteOp
  streams : List Stream
  dieSaves : List DieSave
  saved : List Saved
  reports : List Report
  interrupts : List Nat
  hostReply : Option (List Byte)
  remoteReplies : List (Nat × RemoteReply)
  deriving DecidableEq, Repr, Inhabited

def Issuer.none : Issuer := ⟨0, 0, 0, 0, 0, 0, 0, 0, 0, 15, 15, []⟩

/-- The machine right after package reset (R366): nothing placed, every clock and timestamp zero. DESIGN CHOICE: the spec gives
no value of the fuses (R8); the model fits every optional unit (FEAT0[3:0] = 0xF) and all sixteen dies (DIEMASK = 0xFFFF)
(log entry 2). -/
def State.reset : State where
  agenda := []
  tick := 0
  iss := Issuer.none
  mem := []
  poison := []
  comp := []
  lines := []
  reqs := []
  nextReq := 0
  nextOp := 0
  cores := []
  dies := []
  cycle := 0
  ptime := 0
  ptimeSub := 0
  base := 0
  epoch := 0
  rebases := 0
  timeSync := false
  timeErr := 0xFFFF
  errLow := 0
  clockStop := false
  winLen := 1000
  devNo := 0
  fabmark := 0
  hostmark := 0
  swgen := 0
  feat := 0xF
  dieMask := 0xFFFF
  ctxtab := 0
  privCtx := []
  bar0Sdva := 0
  bar0Sdctl := 0
  bar0Busy := false
  shoots := []
  launches := []
  nextLaunch := 0
  passRecs := []
  unloads := []
  nextRec := 0
  apertures := Vector.replicate 64 ⟨0, 0, 0, 0, 0⟩
  ports := Vector.replicate 32 (0, 0)
  remotes := []
  streams := []
  dieSaves := []
  saved := []
  reports := []
  interrupts := []
  hostReply := Option.none
  remoteReplies := []

end Sys2Proof.Machine
end

