-- ==== Sys2Proof/Machine/Float.lean ====
section
/-! DEFINITION. Floating-point formats, exact values, rounding and conversion (R87 to R104, R126, R138). -/

namespace Sys2Proof.Machine

open Sys2Proof

/-- The floating-point formats (R87, R88). -/
inductive FFmt where
  | f32 | f16 | bf16 | f64 | e4m3 | e5m2 | e3m2 | e2m3 | e2m1
  deriving DecidableEq, Repr, Inhabited

/-- Bits, mantissa bits and bias of a format (R87, R88). -/
def FFmt.bits : FFmt → Nat
  | .f32 => 32 | .f16 => 16 | .bf16 => 16 | .f64 => 64 | .e4m3 => 8 | .e5m2 => 8 | .e3m2 => 6 | .e2m3 => 6 | .e2m1 => 4

def FFmt.mant : FFmt → Nat
  | .f32 => 23 | .f16 => 10 | .bf16 => 7 | .f64 => 52 | .e4m3 => 3 | .e5m2 => 2 | .e3m2 => 2 | .e2m3 => 3 | .e2m1 => 1

def FFmt.bias : FFmt → Nat
  | .f32 => 127 | .f16 => 15 | .bf16 => 127 | .f64 => 1023 | .e4m3 => 7 | .e5m2 => 15 | .e3m2 => 3 | .e2m3 => 1 | .e2m1 => 1

/-- Code of the largest finite magnitude (R87, R88). -/
def FFmt.maxCode : FFmt → Nat
  | .f32 => 0x7F7FFFFF | .f16 => 0x7BFF | .bf16 => 0x7F7F | .f64 => 0x7FEFFFFFFFFFFFFF | .e4m3 => 0x7E
  | .e5m2 => 0x7B | .e3m2 => 0x1F | .e2m3 => 0x1F | .e2m1 => 0x7

/-- The NaN that a format's results take: canonical, or +0 where the format has none (R87, R89, R101). -/
def FFmt.nanCode : FFmt → Nat
  | .f32 => 0x7FC00000 | .f16 => 0x7E00 | .bf16 => 0x7FC0 | .f64 => 0x7FF8000000000000 | .e4m3 => 0x7F
  | .e5m2 => 0x7E | .e3m2 => 0 | .e2m3 => 0 | .e2m1 => 0

/-- Formats with infinities: the wide formats and e5m2 (R87, R88). -/
def FFmt.hasInf : FFmt → Bool
  | .e4m3 | .e3m2 | .e2m3 | .e2m1 => false
  | _ => true

/-- The sign bit of a format. -/
def FFmt.signBit (f : FFmt) : Nat := 2 ^ (f.bits - 1)

/-- A value: NaN, an infinity, or exactly (−1)^neg × m × 2^e. -/
inductive FVal where
  | nan
  | inf (neg : Bool)
  | fin (neg : Bool) (m : Nat) (e : Int)
  deriving DecidableEq, Repr, Inhabited

/-- +0. -/
def FVal.zero : FVal := .fin false 0 0

/-- The value of a code of a format (R87, R88, R89). -/
def FFmt.decode (f : FFmt) (x : Nat) : FVal :=
  let neg := (x / f.signBit) % 2 == 1
  let mag := x % f.signBit
  let frac := mag % 2 ^ f.mant
  let ex := mag / 2 ^ f.mant
  let top := f.signBit / 2 ^ f.mant - 1
  if f.hasInf && ex == top then (if frac = 0 then .inf neg else .nan)
  else if f == .e4m3 && mag == 0x7F then .nan
  else if ex = 0 then .fin neg frac (1 - f.bias - f.mant)
  else .fin neg (frac + 2 ^ f.mant) (ex - f.bias - f.mant)

/-- The value of an e8m0 code (R90). -/
def decodeE8m0 (x : Nat) : FVal := if x % 256 = 255 then .nan else .fin false 1 ((x % 256 : Nat) - 127)

/-- Whether a magnitude between two neighbours goes to the upper one: `rem` of `den` is the part above the
lower, `odd` tells the lower one's last bit, `sticky` that something more was left out (R95). -/
def roundsUp (rm : Rm) (neg odd sticky : Bool) (rem den : Nat) : Bool :=
  match rm with
  | .rne => decide (den < 2 * rem) || (decide (den = 2 * rem) && (sticky || odd))
  | .rz => false
  | .rdn => neg && (rem != 0 || sticky)
  | .rup => !neg && (rem != 0 || sticky)

/-- m × 2^e (and something less than one unit of m more, where sticky) as a whole number of units 2^q,
rounded (R95). -/
def roundQuantum (rm : Rm) (neg : Bool) (m : Nat) (e : Int) (sticky : Bool) (q : Int) : Nat :=
  -- one more bit below m, so that a sticky part stays below half a unit
  let m2 := 4 * m + if sticky then 1 else 0
  let e2 := e - 2
  if q ≤ e2 then m2 * 2 ^ (e2 - q).toNat
  else
    let k := (q - e2).toNat
    if Nat.log2 m2 + 2 < k then (if m2 != 0 && roundsUp rm neg false true 0 1 then 1 else 0)
    else
      let lo := m2 / 2 ^ k
      if roundsUp rm neg (lo % 2 == 1) false (m2 % 2 ^ k) (2 ^ k) then lo + 1 else lo

/-- Where a rounded magnitude overflows (R96, R101). -/
def FFmt.overflow (f : FFmt) (rm : Rm) (sat neg : Bool) : Nat :=
  let sign := if neg then f.signBit else 0
  let away := match rm with | .rne => true | .rz => false | .rdn => neg | .rup => !neg
  if away && !sat then
    (if f.hasInf then sign + (f.signBit / 2 ^ f.mant - 1) * 2 ^ f.mant
      else if f == .e4m3 then 0x7F else sign + f.maxCode)
  else sign + f.maxCode

/-- The code of an infinity in a format (R101). -/
def FFmt.infCode (f : FFmt) (sat neg : Bool) : Nat := f.overflow .rne sat neg

/-- The code of a finite magnitude m × 2^e, with a sticky part, rounded once (R95, R96, R101). -/
def FFmt.round (f : FFmt) (rm : Rm) (sat neg : Bool) (m : Nat) (e : Int) (sticky : Bool) : Nat :=
  let sign := if neg then f.signBit else 0
  if m = 0 then
    (if sticky && roundsUp rm neg false true 0 1 then sign + 1 else sign)
  else
    let top : Int := e + Nat.log2 m
    if top > f.bias + 1 then f.overflow rm sat neg
    else
      let q := max (top - f.mant) (1 - f.bias - f.mant)
      let r := roundQuantum rm neg m e sticky q
      let code := (q + f.mant + f.bias - 1).toNat * 2 ^ f.mant + r
      if f.maxCode < code then f.overflow rm sat neg else sign + code

/-- A value converted to a format (R95, R96, R101). -/
def FFmt.encode (f : FFmt) (rm : Rm) (sat : Bool) : FVal → Nat
  | .nan => f.nanCode
  | .inf neg => f.infCode sat neg
  | .fin neg m e => f.round rm sat neg m e false

/-! ## Exact arithmetic -/

def FVal.isNan : FVal → Bool
  | .nan => true
  | _ => false

def FVal.isInf : FVal → Bool
  | .inf _ => true
  | _ => false

def FVal.isZero : FVal → Bool
  | .fin _ m _ => m == 0
  | _ => false

def FVal.isNeg : FVal → Bool
  | .nan => false
  | .inf n => n
  | .fin n _ _ => n

def FVal.neg : FVal → FVal
  | .nan => .nan
  | .inf n => .inf (!n)
  | .fin n m e => .fin (!n) m e

/-- The signed mantissa of a finite value at an exponent not above its own. -/
def FVal.scaled (q : Int) : FVal → Int
  | .fin n m e => (if n then -1 else 1) * (m * 2 ^ (e - q).toNat : Int)
  | _ => 0

def FVal.exp : FVal → Int
  | .fin _ _ e => e
  | _ => 0

/-- The least exponent of the nonzero finite values of a list. -/
def minExp : List FVal → Int
  | [] => 0
  | [v] => v.exp
  | v :: vs => if v.isZero then minExp vs else if vs.all (·.isZero) then v.exp else min v.exp (minExp vs)

/-- A finite value of a signed integer times 2^q; `zneg` is the sign of a zero. -/
def FVal.ofInt (x q : Int) (zneg : Bool) : FVal :=
  if x = 0 then .fin zneg 0 0 else .fin (decide (x < 0)) x.natAbs q

/-- The exact sum of a list, with the zero of R97 and the special cases of R98 and R105. -/
def sumExact (rm : Rm) (vs : List FVal) : FVal :=
  if vs.any (·.isNan) then .nan
  else if vs.any (fun v => v.isInf && v.isNeg) && vs.any (fun v => v.isInf && !v.isNeg) then .nan
  else if vs.any (·.isInf) then .inf (vs.any fun v => v.isInf && v.isNeg)
  else
    let zneg := if vs.all (fun v => v.isZero && v.isNeg) then true
      else if vs.all (fun v => v.isZero && !v.isNeg) then false
      else rm == .rdn
    let nz := vs.filter fun v => !v.isZero
    let q := minExp nz
    FVal.ofInt ((nz.map (·.scaled q)).foldl (· + ·) 0) q zneg

/-- The exact product (R97, R98). -/
def mulExact : FVal → FVal → FVal
  | .nan, _ => .nan
  | _, .nan => .nan
  | .inf a, .inf b => .inf (a != b)
  | .inf a, .fin b m _ => if m = 0 then .nan else .inf (a != b)
  | .fin a m _, .inf b => if m = 0 then .nan else .inf (a != b)
  | .fin a m e, .fin b n f => .fin (a != b) (m * n) (if m * n = 0 then 0 else e + f)

/-- Whether a value is less than another: numbers only, −0 and +0 equal (R125). -/
def FVal.lt : FVal → FVal → Bool
  | .nan, _ => false
  | _, .nan => false
  | .inf a, .inf b => a && !b
  | .inf a, .fin _ _ _ => a
  | .fin _ _ _, .inf b => !b
  | .fin a m e, .fin b n f =>
    let x : FVal := .fin a m e
    let y : FVal := .fin b n f
    let q := minExp ([x, y].filter fun v => !v.isZero)
    decide (x.scaled q < y.scaled q)

/-- Whether two values are equal as numbers (R125). -/
def FVal.numEq (a b : FVal) : Bool := !a.isNan && !b.isNan && !a.lt b && !b.lt a

/-- minimumNumber, −0 below +0 (R98). -/
def fmin (a b : FVal) : FVal :=
  if a.isNan then b else if b.isNan then a
  else if a.lt b then a else if b.lt a then b else if a.isNeg then a else b

/-- maximumNumber, −0 below +0 (R98). -/
def fmax (a b : FVal) : FVal :=
  if a.isNan then b else if b.isNan then a
  else if a.lt b then b else if b.lt a then a else if a.isNeg then b else a

/-- A value rounded to an integral value, its sign kept (R138). -/
def rndIntegral (rm : Rm) : FVal → FVal
  | .fin neg m e => if 0 ≤ e then .fin neg m e else .fin neg (roundQuantum rm neg m e false 0) 0
  | v => v

/-- x × 2^n (R138). -/
def fscale (v : FVal) (n : Int) : FVal :=
  match v with
  | .fin neg m e => .fin neg m (if m = 0 then 0 else e + n)
  | v => v

/-! ## Integers -/

/-- The range of a w-bit integer type. -/
def intMin (w : Nat) (signed : Bool) : Int := if signed then -(2 ^ (w - 1) : Int) else 0
def intMax (w : Nat) (signed : Bool) : Int := if signed then 2 ^ (w - 1) - 1 else 2 ^ w - 1

/-- An integer clamped to a range. -/
def clampInt (lo hi x : Int) : Int := if x < lo then lo else if hi < x then hi else x

/-- Float to integer (R102). -/
def toInt (rm : Rm) (sat : Bool) (w : Nat) (signed : Bool) (v : FVal) : Nat :=
  let lo := intMin w signed
  let hi := intMax w signed
  match rndIntegral rm v with
  | .nan => 0
  | .inf neg => if sat then wrapInt w (if neg then lo else hi) else 0
  | .fin neg m e =>
    if sat && decide (64 ≤ e + Nat.log2 m) && m != 0 then wrapInt w (if neg then lo else hi)
    else if decide (64 ≤ e) then 0
    else
      let x : Int := (if neg then -1 else 1) * (m * 2 ^ e.toNat : Int)
      wrapInt w (if sat then clampInt lo hi x else x)

/-- Integer to an exact value; 0 gives +0 (R103). -/
def ofInteger (x : Int) : FVal := FVal.ofInt x 0 false

/-! ## Classes -/

/-- The class bit of a value of a format (R126). -/
def fclassBit (f : FFmt) : FVal → Nat
  | .nan => 8
  | .inf true => 0
  | .inf false => 7
  | .fin neg m e =>
    if m = 0 then (if neg then 3 else 4)
    else
      let sub := decide (e + Nat.log2 m < 1 - (f.bias : Int))
      match neg, sub with
      | true, false => 1
      | true, true => 2
      | false, true => 5
      | false, false => 6

/-! ## Narrow formats -/

/-- The float format of an NFMT code of the float family but e8m0 (R53). -/
def nfmtFloat (n : Nat) : FFmt :=
  match n with
  | 1 => .e4m3 | 2 => .e5m2 | 3 => .e3m2 | 4 => .e2m3 | 5 => .e2m1 | 6 => .e2m1 | 13 => .f16 | 14 => .bf16
  | _ => .f32

/-- Width of a narrow format (R53). -/
def nfmtWidth (n : Nat) : Nat :=
  match n with
  | 1 | 2 | 7 | 8 | 15 => 8
  | 3 | 4 => 6
  | 5 | 6 | 9 | 10 | 11 | 12 => 4
  | 13 | 14 => 16
  | _ => 32

/-- The hi codes e2m1hi, i4hi and n4hi (R51, R53). -/
def nfmtHi (n : Nat) : Bool := n == 6 || n == 10 || n == 12

/-- Signed integer formats i8, i4 and i4hi (R91). -/
def nfmtSigned (n : Nat) : Bool := n == 7 || n == 9 || n == 10

/-- The value of a narrow float code, e8m0 included (R51). -/
def nfmtDecode (n x : Nat) : FVal := if n = 15 then decodeE8m0 x else (nfmtFloat n).decode x

/-- A narrowed value placed in its entry: at nibble 4 for the hi codes (R53). -/
def nfmtPlace (n x : Nat) : Word := BitVec.ofNat 32 (if nfmtHi n then x * 2 ^ 16 else x)

/-- An integer result narrowed (R53, R104). -/
def narrowInt (n : Nat) (sat : Bool) (x : Int) : Word :=
  let w := nfmtWidth n
  nfmtPlace n (wrapInt w (if sat then clampInt (intMin w (nfmtSigned n)) (intMax w (nfmtSigned n)) x else x))

/-- A float result narrowed (R53, R101, R135). -/
def narrowFloat (n : Nat) (rm : Rm) (sat : Bool) (v : FVal) : Word :=
  nfmtPlace n ((nfmtFloat n).encode rm sat v)

end Sys2Proof.Machine
end

