-- ==== Sys2Proof/Machine/Vm.lean ====
section
/-! DEFINITION. Cores, dies and groups of a state; translation (R368 to R374); context descriptors, code
tables and start maps (R373, R392); memory at its home (R306 to R312, R333, R334, R379, R381). -/

namespace Sys2Proof.Machine

open Sys2Proof

/-! ## Cores, dies, groups -/

/-- The die of a core key: a core's key is 64 times its die plus its physical number. -/
def dieOf (k : Nat) : Nat := k / 64

/-- A core. One that nothing has touched stands as after reset, its clock crept at the slowest rate (R334)
and never below the base (R337). -/
def State.core (s : State) (k : Nat) : Core :=
  match Sparse.get? s.cores k with
  | some c => c
  | none => { Core.reset 0 (dieOf k) s.swgen with
      clock := Nat.max (s.cycle / Config.creepCycles) s.base, sinceCreep := s.cycle % Config.creepCycles }

/-- A state with one core replaced. -/
def State.setCore (s : State) (k : Nat) (c : Core) : State := { s with cores := Sparse.put s.cores k c }

/-- A state with one core changed. -/
def State.modCore (s : State) (k : Nat) (f : Core → Core) : State := s.setCore k (f (s.core k))

/-- A die. One that nothing has touched stands as after reset. -/
def State.die (s : State) (d : Nat) : Die := (Sparse.get? s.dies d).getD Die.reset

def State.setDie (s : State) (d : Nat) (x : Die) : State := { s with dies := Sparse.put s.dies d x }

def State.modDie (s : State) (d : Nat) (f : Die → Die) : State := s.setDie d (f (s.die d))

/-- The group in a frame of a core. -/
def State.group? (s : State) (k f : Nat) : Option Group := Sparse.get? (s.core k).frames f

def State.setGroup (s : State) (k f : Nat) (g : Group) : State :=
  s.modCore k fun c => { c with frames := Sparse.put c.frames f g }

/-- A state with the group of a frame changed; nothing where there is none. -/
def State.modGroup (s : State) (k f : Nat) (u : Group → Group) : State :=
  match s.group? k f with
  | some g => s.setGroup k f (u g)
  | none => s

/-- The team of a launch on a core. -/
def Core.team? (c : Core) (launch : Nat) : Option Team := c.teams.find? fun t => t.launch == launch

def Core.modTeam (c : Core) (launch : Nat) (u : Team → Team) : Core :=
  { c with teams := c.teams.map fun t => if t.launch == launch then u t else t }

/-- A launch by its number. -/
def State.launch? (s : State) (n : Nat) : Option Launch := s.launches.find? fun l => l.id == n

def State.modLaunch (s : State) (n : Nat) (u : Launch → Launch) : State :=
  { s with launches := s.launches.map fun l => if l.id == n then u l else l }

/-- Whether a die is fitted (R8, DIEMASK). -/
def State.fitted (s : State) (d : Nat) : Bool := decide (d < 16) && s.dieMask.getLsbD d

/-- Optional units (R8): FP64, codebook decoder, fabric ports, subscription engine. -/
def State.hasFp64 (s : State) : Bool := s.feat.getLsbD 0
def State.hasCbdec (s : State) : Bool := s.feat.getLsbD 1
def State.hasFabric (s : State) : Bool := s.feat.getLsbD 2
def State.hasSubeng (s : State) : Bool := s.feat.getLsbD 3

/-- Moves put at the head of the agenda. -/
def State.prepend (s : State) (ms : List Move) : State := { s with agenda := ms ++ s.agenda }

/-- A report to Sundoc. -/
def State.tell (s : State) (r : Report) : State := { s with reports := s.reports ++ [r] }

/-! ## Physical addresses -/

/-- First address of host memory (R369). -/
def hostBase : Nat := 2 ^ 51

/-- Whether a device-physical address is backed by HBM of a fitted die or by host memory (R369). -/
def State.backed (s : State) (pa : Nat) : Bool :=
  (decide (pa < 2 ^ 40) && s.fitted (pa / 2 ^ 36)) || (decide (hostBase ≤ pa) && decide (pa < 2 ^ 52))

/-- Whether an address is in HBM of the package (R306). -/
def isHbm (pa : Nat) : Bool := decide (pa < 2 ^ 40)

/-- Whether an address is host memory (R369). -/
def isHost (pa : Nat) : Bool := decide (hostBase ≤ pa) && decide (pa < 2 ^ 52)

/-- Whether an address names memory of another device: a device number is put above bit 51 (R370). -/
def isRemote (pa : Nat) : Bool := decide (2 ^ 52 ≤ pa)

/-- A line's number (R309). -/
def lineOf (pa : Nat) : Nat := pa / Config.lineBytes

/-! ## Page tables -/

/-- Fields of a page-table entry (R370). -/
def pteV (e : DWord) : Bool := e.getLsbD 0
def pteL (e : DWord) : Bool := e.getLsbD 1
def pteRd (e : DWord) : Bool := e.getLsbD 2
def pteWr (e : DWord) : Bool := e.getLsbD 3
def pteEx (e : DWord) : Bool := e.getLsbD 4
def ptePrv (e : DWord) : Bool := e.getLsbD 5
def pteCoh (e : DWord) : Bool := e.getLsbD 6
def pteComp (e : DWord) : Bool := e.getLsbD 7
def pteBias (e : DWord) : Bool := e.getLsbD 8
def pteDtr (e : DWord) : Bool := e.getLsbD 9
def pteDev (e : DWord) : Bool := e.getLsbD 10
def pteDevNo (e : DWord) : Nat := e.toNat / 2 ^ 52
def pteFrame (e : DWord) : Nat := e.toNat / 2 ^ 16 % 2 ^ 36

/-- Bytes of a page by the level of its leaf (R368). -/
def pageBytes (level : Nat) : Nat := 2 ^ (52 - 12 * level)

/-- A malformed entry at a level (R371, R408). -/
def State.pteBad (s : State) (level : Nat) (e : DWord) : Bool :=
  let x := e.toNat
  if pteL e then
    x / 2 ^ 11 % 32 != 0 || (!pteDev e && pteDevNo e != 0) || (pteDev e && pteDevNo e == s.devNo.toNat) || level == 0 ||
    (level == 2 && pteFrame e % 2 ^ 12 != 0) || (level == 1 && pteFrame e % 2 ^ 24 != 0) ||
    (pteWr e && !pteRd e) ||
    (!pteDev e && !s.backed (pteFrame e * 2 ^ 16)) ||
    (pteBias e && (pteDev e || isHost (pteFrame e * 2 ^ 16)))
  else x / 2 ^ 52 != 0 || x / 4 % 2 ^ 13 != 0 || level == 3

/-- The indirection entry of a byte's frame where it is in one of two states (R378). -/
def State.indOf (s : State) (pa : Nat) (a b : IndState) : Option IndEntry :=
  (s.die (pa / 2 ^ 36)).ind.toList.find? fun e => (e.state == a || e.state == b) && e.old == pa % 2 ^ 36 / 2 ^ 21

/-- Where the byte of an address is stored: in the NEW frame once an indirection entry has flipped (R379). -/
def State.place (s : State) (pa : Nat) : Nat :=
  match s.indOf pa .flipped .retiring with
  | some e => e.new * 2 ^ 21 + pa % 2 ^ 21
  | none => pa

/-- The byte at an address as its home holds it (R309, R379, log entry 12). -/
def State.byte (s : State) (pa : Nat) : Byte := Memory.get s.mem (s.place pa)

/-- The bytes at a physical address as the home holds them (R309, R379, log entry 12). -/
def State.phys (s : State) (pa n : Nat) : List Byte :=
  if pa / 2 ^ 21 = (pa + n - 1) / 2 ^ 21 then Memory.read s.mem (s.place pa) n else (List.range n).map fun i => s.byte (pa + i)

/-- Whether a byte is poisoned at its home, and whether one of some bytes is (R262, R379). -/
def State.badByte (s : State) (pa : Nat) : Bool := s.poison.contains (s.place pa)
def State.poisoned (s : State) (pa n : Nat) : Bool := !s.poison.isEmpty && (List.range n).any fun i => s.badByte (pa + i)

/-- A walk over the levels left, from a table: the level and the leaf, or no translation (R368 to R371). -/
def State.walkFrom (s : State) (va : Nat) : List Nat → Nat → Option (Nat × DWord)
  | [], _ => none
  | l :: ls, table =>
    let e := BitVec.ofNat 64 (leNat (s.phys (table + 8 * (va / pageBytes l % 4096)) 8))
    if !pteV e || s.pteBad l e then none
    else if pteL e then some (l, e)
    else State.walkFrom s va ls (e.toNat / 2 ^ 15 % 2 ^ 37 * 2 ^ 15)

/-- A field of a context descriptor (R373, R392). -/
def State.ctxField (s : State) (ctx off n : Nat) : Nat :=
  leNat (s.phys (s.ctxtab.toNat / 64 * 64 + 64 * ctx + off) n)

/-- A walk of a context's tables (R373, R374). -/
def State.walk (s : State) (ctx : Nat) (va : DWord) : Option TlbEntry :=
  let root := s.ctxField ctx 0 8
  if root = 0 then none
  else (s.walkFrom va.toNat [0, 1, 2, 3] root).map fun p =>
    ⟨ctx, va.toNat / pageBytes p.1, p.1, p.2, s.ctxField ctx 8 8⟩

/-- Whether a held translation covers an address (R188, R374). -/
def TlbEntry.hits (e : TlbEntry) (ctx : Nat) (va : DWord) : Bool :=
  e.ctx == ctx && e.vpage == va.toNat / pageBytes e.level

/-- The physical address of a covered address; one on another device carries its number above bit 51. -/
def TlbEntry.pa (e : TlbEntry) (va : DWord) : Nat :=
  (if pteDev e.pte then (pteDevNo e.pte + 1) * 2 ^ 52 else 0) +
    pteFrame e.pte * 2 ^ 16 / pageBytes e.level * pageBytes e.level + va.toNat % pageBytes e.level

/-- The 64 KiB part of a translation that holds an address, which a last-page register takes (R188). -/
def TlbEntry.part (e : TlbEntry) (va : DWord) : TlbEntry :=
  { e with vpage := va.toNat / 2 ^ 16, level := 3,
           pte := (e.pte &&& ~~~(0xFFFFFFFFF0000 : DWord)) ||| BitVec.ofNat 64 (e.pa va % 2 ^ 52 / 2 ^ 16 * 2 ^ 16) }

/-- The last-page register of a lane of a frame (R188). -/
def lastReg (f lane : Nat) : Nat := 32 * f + lane

/-- The translation of an address: a held one, else a walk (R188). `lane` names a last-page register. -/
def State.lookup (s : State) (k : Nat) (lane : Option Nat) (ctx : Nat) (va : DWord) : Option TlbEntry :=
  let c := s.core k
  let last := (lane.bind fun l => Sparse.get? c.lastPage l).filter fun e => e.hits ctx va
  let held := last.or (((c.tlb.find? fun e => e.hits ctx va)).or
    ((s.die (dieOf k)).tlb.find? fun e => e.hits ctx va))
  held.or (s.walk ctx va)

/-- What an access needs of a page (R372). -/
inductive Acc where
  | load | store | fetch
  deriving DecidableEq, Repr, Inhabited

/-- Checks of a translated access in their order (R372). -/
def checkPte (fabric priv : Bool) (a : Acc) (e : DWord) : Option Cause :=
  if ptePrv e && !priv then some .prot
  else if (a == .load || a == .fetch) && !pteRd e then some .prot
  else if a == .store && !pteWr e then some .prot
  else if a == .fetch && !pteEx e then some .prot
  else if pteDev e && !fabric then some .unitAbsent
  else none

/-- Translate and check one address (R188, R371, R372). -/
def State.translate (s : State) (k : Nat) (lane : Option Nat) (ctx : Nat) (priv : Bool) (a : Acc) (va : DWord) :
    Except Cause TlbEntry :=
  match s.lookup k lane ctx va with
  | none => .error .page
  | some e =>
    match checkPte s.hasFabric priv a e.pte with
    | some c => .error c
    | none => if !pteDev e.pte && !s.backed (e.pa va) then .error .page else .ok e

/-- The TLBs after a translation (R188, R374). -/
def State.noteTlb (s : State) (k : Nat) (e : TlbEntry) : State :=
  let put := fun (n : Nat) (l : List TlbEntry) => if l.contains e then l else (e :: l).take n
  (s.modCore k fun c => { c with tlb := put 256 c.tlb }).modDie (dieOf k) fun d => { d with tlb := put 8192 d.tlb }

/-- The TLBs and a lane's last-page register after the translation of an address (R188, R374). -/
def State.noteXlate (s : State) (k : Nat) (lane : Option Nat) (va : DWord) (e : TlbEntry) : State :=
  match lane with
  | some l => (s.noteTlb k e).modCore k fun c => { c with lastPage := Sparse.put c.lastPage l (e.part va) }
  | none => s.noteTlb k e

/-- The same for an address whose page has a translation, though its check may fail (R374). -/
def State.noteWalk (s : State) (k : Nat) (lane : Option Nat) (ctx : Nat) (va : DWord) : State :=
  match s.lookup k lane ctx va with
  | some e => s.noteXlate k lane va e
  | none => s

/-- A frame takes a new group: its lanes' last-page registers and the TLBs are cleared (R188). -/
def State.clearXlate (s : State) (k f : Nat) : State :=
  (s.modCore k fun c => { c with tlb := [], lastPage := c.lastPage.filter fun p => p.1 / 32 != f }).modDie (dieOf k) fun d => { d with tlb := [] }

/-- The pages of a range by their first addresses. -/
def rangePages (a : DWord) (n : Nat) : List DWord :=
  (List.range ((a.toNat % 2 ^ 16 + n + 2 ^ 16 - 1) / 2 ^ 16)).map fun j => a - BitVec.ofNat 64 (a.toNat % 2 ^ 16) + BitVec.ofNat 64 (2 ^ 16 * j)

/-- The TLBs after walks for the pages of a range that have translations (R374). -/
def State.notePages (s : State) (k ctx : Nat) (a : DWord) (n : Nat) : State :=
  (rangePages a n).foldl (fun (t : State) p => match t.lookup k none ctx p with | some e => t.noteTlb k e | none => t) s

/-- Translate every page that `n` bytes touch, and give each byte's physical address. -/
def State.translateSpan (s : State) (k ctx : Nat) (priv : Bool) (a : Acc) (va : DWord) :
    Nat → Except (Cause × DWord) (List Nat)
  | 0 => .ok []
  | n + 1 =>
    match s.translate k none ctx priv a va with
    | .error c => .error (c, va)
    | .ok e =>
      match State.translateSpan s k ctx priv a (va + 1) n with
      | .error x => .error x
      | .ok ps => .ok (e.pa va :: ps)

/-- Bytes at a virtual address, read at their homes: PAGE, PROT or POISON with the address (R169, R392, R409). -/
def State.readV (s : State) (k ctx : Nat) (priv : Bool) (va : DWord) (n : Nat) :
    Except (Cause × DWord) (List Byte) :=
  match s.translateSpan k ctx priv .load va n with
  | .error x => .error x
  | .ok ps =>
    if ps.any isRemote then .error (.prot, va)
    else if !s.poison.isEmpty && ps.any s.badByte then
      .error (.poison, va + BitVec.ofNat 64 ((ps.takeWhile fun p => !s.badByte p).length))
    else .ok (ps.map s.byte)

/-! ## Homes -/

/-- Present L2 slices of a die and their count S (R307). -/
def Die.sliceCount (d : Die) : Nat := ((List.range 24).filter fun i => d.slices.getLsbD i).length

/-- The logical slice that homes a die offset (R308). -/
def homeSlice (count off : Nat) : Nat :=
  if count = 0 then 0
  else
    let g := off / 256
    let f := 2 ^ 28 / count
    if g < count * f then (g + 5 * (g / count)) % count else g - count * f

/-- The physical number of a logical slice (R307). -/
def Die.physSlice (d : Die) (l : Nat) : Nat :=
  ((List.range 24).filter fun i => d.slices.getLsbD i).getD l 0

/-- The die and slice that home an HBM line (R306, R308). -/
def State.sliceOf (s : State) (line : Nat) : Nat × Nat :=
  let pa := line * Config.lineBytes
  let d := pa / 2 ^ 36
  let die := s.die d
  (d, die.physSlice (homeSlice die.sliceCount (pa % 2 ^ 36)))

/-- Timestamps of a line at its home; one that no slice holds takes EVW and EVR (R309, R310). -/
def State.lineTs (s : State) (line : Nat) : LineTs :=
  match Sparse.get? s.lines line with
  | some t => t
  | none =>
    let p := s.sliceOf line
    let d := s.die p.1
    ⟨d.evw.getD p.2 0, d.evr.getD p.2 0, false, false, none, false⟩

/-- The 2 MiB region of a die that holds a line (R348). -/
def regionOf (line : Nat) : Nat := line * Config.lineBytes % 2 ^ 36 / 2 ^ 21

/-- A line's timestamps set at its home, with the largest the slice has issued, and the region's largest lease (R309, R325, R349). -/
def State.setLineTs (s : State) (line : Nat) (t : LineTs) : State :=
  let p := s.sliceOf line
  let s1 := { s with lines := Sparse.put s.lines line t }
  s1.modDie p.1 fun d =>
    { d with maxTs := d.maxTs.setIfInBounds p.2 (Nat.max (d.maxTs.getD p.2 0) (Nat.max t.wts t.rts)),
             tops := Sparse.put d.tops (regionOf line) (Nat.max ((Sparse.get? d.tops (regionOf line)).getD 0) t.rts) }

/-- The form in which the memory controller stores a block (R314, R315). -/
def blockCode (comp : Bool) (bs : List Byte) : Nat :=
  if !comp then 0
  else if bs.all (· == 0) then 1
  else if 1 ≤ Config.sectors bs ∧ Config.sectors bs ≤ 7 then Config.sectors bs + 1 else 0

/-- A block's metadata code set; 0 is not listed (R314). -/
def State.setCode (s : State) (block code : Nat) : State :=
  { s with comp := if code = 0 then Sparse.erase s.comp block else Sparse.put s.comp block code }

/-- Bytes poisoned (R262, R325). -/
def State.poisonBytes (s : State) (pa n : Nat) : State := { s with poison := (List.range n).foldl (fun p i => insertNat p (pa + i)) s.poison }

/-- NEW address of a byte whose frame an indirection entry is copying (R378, R379). -/
def State.migrated (s : State) (pa : Nat) : Option Nat :=
  (s.indOf pa .copying .copying).map fun e => e.new * 2 ^ 21 + pa % 2 ^ 21

/-- A write to HBM of an address's line stores its block anew, in the NEW frame too while that is copied (R315, R379). -/
def State.storeBlock (s : State) (pa : Nat) (comp : Bool) : State :=
  let b := s.place pa / 2048
  let c := if comp then blockCode true (Memory.read s.mem (2048 * b) 2048) else 0
  match s.migrated pa with
  | some q => (s.setCode b c).setCode (q / 2048) c
  | none => s.setCode b c

/-- Stored bytes of one frame poisoned, in the NEW frame too while that is copied: what is poisoned in OLD stays poisoned in NEW
(R262, R379). -/
def State.poisonStored (s : State) (at' n : Nat) : State :=
  let s1 := s.poisonBytes at' n
  match s.migrated at' with
  | some q => s1.poisonBytes q n
  | none => s1

/-- Bytes of one frame poisoned at their home (R262, R379). -/
def State.poisonHome (s : State) (pa n : Nat) : State := s.poisonStored (s.place pa) n

/-- A line leaves its slice: a dirty one is written to HBM; a clean one whose bytes there are lost with their block's metadata is poisoned
when it is read again (R310, R314, R315). -/
def State.evict (s : State) (line : Nat) : State :=
  match Sparse.get? s.lines line with
  | none => s
  | some t =>
    let p := s.sliceOf line
    let s1 := { s with lines := Sparse.erase s.lines line }
    let s2 := s1.modDie p.1 fun d =>
      { d with evw := d.evw.setIfInBounds p.2 (Nat.max (d.evw.getD p.2 0) t.wts),
               evr := d.evr.setIfInBounds p.2 (Nat.max (d.evr.getD p.2 0) t.rts) }
    if t.dirty then s2.storeBlock (line * Config.lineBytes) t.comp
    else if t.lost then s2.poisonHome (line * Config.lineBytes) Config.lineBytes
    else s2

/-- Lines that leave their slices, in order. -/
def State.evictAll (s : State) (ls : List Nat) : State := ls.foldl State.evict s

/-- The set of a line, by the rule that finds it. -/
def setOf (hash : Nat → Nat) (sets line : Nat) : Nat := (line + hash line) % sets

/-- A line that is not in its slice finds a way there: where its set is full, another line leaves it first (R309). -/
def State.roomFor (s : State) (line : Nat) : State :=
  if (Sparse.get? s.lines line).isSome || decide (s.lines.length < Config.sliceWays) then s
  else
    let p := s.sliceOf line
    let near := (s.lines.filter fun q => setOf Config.l2Hash Config.sliceSets q.1 == setOf Config.l2Hash Config.sliceSets line && s.sliceOf q.1 == p).map (·.1)
    if near.length < Config.sliceWays then s
    else s.evict (near.getD (Config.victim s.nextReq line % near.length) line)

/-- One byte written at its home: where it is stored, in the NEW frame too while that is copied, and no longer poisoned
(R262, R379). -/
def State.putByte (s : State) (pa : Nat) (b : Byte) : State :=
  let m := Memory.set s.mem (s.place pa) b
  { s with mem := match s.migrated pa with | some q => Memory.set m q b | none => m,
           poison := s.poison.filter fun p => p != s.place pa && some p != s.migrated pa }

def State.putBytes (s : State) (pa : Nat) : List Byte → State
  | [] => s
  | b :: bs => State.putBytes (s.putByte pa b) (pa + 1) bs

/-- Whether a bitmap takes a bit for a write at an address: there is one, and the address is not in its own 2 MiB (R381). -/
def takesBit (dirtymap pa : Nat) : Bool := dirtymap != 0 && isHbm pa && !(decide (dirtymap ≤ pa) && decide (pa < dirtymap + 2 ^ 21))

/-- Whether a write through a translation is tracked, and its bitmap (R381). -/
def TlbEntry.tracked (e : TlbEntry) (pa : Nat) : Option Nat :=
  if pteDtr e.pte && takesBit e.dirtymap pa then some e.dirtymap else none

/-- What a subscription's range takes of a write: its bytes in each part of the range whose block has been read for the fill; while
the range is detached every block counts (R320, R321). -/
def Sub.forward (slice pa : Nat) (bs : List Byte) (wts : Nat) (u : Sub) : Sub :=
  let take := fun (p : Nat × Nat × Nat) =>
    let lo := Nat.max pa p.2.1
    let hi := Nat.min (pa + bs.length) (p.2.1 + p.2.2)
    if lo < hi ∧ (u.counting ∨ ¬ u.unread.contains ((p.1 + (lo - p.2.1)) / 128)) then
      some (⟨p.1 + (lo - p.2.1), (bs.drop (lo - pa)).take (hi - lo), wts, slice⟩ : SubWrite)
    else none
  { u with writes := u.writes ++ u.parts.filterMap take }

/-- Every subscription changed. -/
def State.mapSubs (s : State) (f : Sub → Sub) : State :=
  { s with dies := s.dies.map fun (p : Nat × Die) => (p.1, { p.2 with subs := p.2.subs.map fun (q : Nat × Sub) => (q.1, f q.2) }) }

/-- Whether a subscription is that of a range of a launch on a core. -/
def Sub.isOf (u : Sub) (k launch off : Nat) : Bool := u.core == some k && u.launch == launch && u.off == off

/-- Subscriptions of a line's home die take a write (R320). -/
def State.forwardWrite (s : State) (pa : Nat) (bs : List Byte) (wts : Nat) : State :=
  if (s.die (pa / 2 ^ 36)).subs.isEmpty then s
  else
    let slice := (s.sliceOf (lineOf pa)).2
    s.modDie (pa / 2 ^ 36) fun d => { d with subs := d.subs.map fun p => (p.1, Sub.forward slice pa bs wts p.2) }

/-- Bytes stored at their home with a write time: wts and rts of the line, and the subscriptions (R320, R334). `op` names the store. -/
def State.lineWrite (s : State) (pa : Nat) (bs : List Byte) (w : Nat) (comp : Bool) (op : Option Nat) : State :=
  ((s.putBytes pa bs).setLineTs (lineOf pa) ⟨w, w, true, comp, op, false⟩).forwardWrite pa bs w

/-- The bit of a dirty bitmap set by a tracked write: a relaxed OR at the bitmap word's home, a write of its line like any other
(R381, R382). No PTE is named for it: its block is stored as that of a page without COMP (log entry 72). -/
def State.markDirty (s : State) (dirtymap pa : Nat) : State :=
  let i := pa % 2 ^ 40 / 2 ^ 16
  let a := dirtymap + i / 8
  let s0 := s.roomFor (lineOf a)
  s0.lineWrite a [s0.byte a ||| BitVec.ofNat 8 (2 ^ (i % 8))] ((s0.lineTs (lineOf a)).rts + 1) false none

/-- Bytes written at their home with a write time, and the bit of the dirty bitmap, which is set before the acknowledgement
(R381). -/
def State.homeWriteAt (s : State) (pa : Nat) (bs : List Byte) (w : Nat) (dirty : Option Nat) (comp : Bool) (op : Option Nat) : State × Nat :=
  let s1 := s.lineWrite pa bs w comp op
  (match dirty with | some m => s1.markDirty m pa | none => s1, w)

/-- A store performed at its home with the clock it carries, and the wts of its acknowledgement (R334). Lanes of one instruction may
come in one message: what follows one of them on the line, where the home has granted nothing and no acknowledgement has changed a cache
since, shares its write time (R354, log entry 32). -/
def State.homeWrite (s : State) (pa : Nat) (bs : List Byte) (clk : Nat) (dirty : Option Nat) (comp : Bool) (op : Option Nat) : State × Nat :=
  if isHbm pa then
    let s0 := s.roomFor (lineOf pa)
    let t := s0.lineTs (lineOf pa)
    let w := if op.isSome && t.last == op && decide (clk ≤ t.wts) then t.wts else Nat.max (t.rts + 1) clk
    s0.homeWriteAt pa bs w dirty comp op
  else (s.putBytes pa bs, 0)

/-- A renewal or fill at the home: rts raised to the request's clock and lease (R334). -/
def State.homeRenew (s : State) (line clk lease : Nat) : State × LineTs :=
  let s0 := s.roomFor line
  let t := s0.lineTs line
  let t' : LineTs := { t with rts := Nat.max t.rts (clk + lease), last := none }
  (s0.setLineTs line t', t')

/-! ## Writes of a core -/

/-- A core's clock raised (R334). -/
def State.raiseClock (s : State) (k v : Nat) : State := s.modCore k fun c => { c with clock := Nat.max c.clock v }

/-- Whether a line is homed on the host: host memory, or a region under host bias (R347, R348). -/
def State.hostLine (s : State) (pa : Nat) : Bool :=
  isHost pa || (isHbm pa && (s.die (pa / 2 ^ 36)).hostBias.contains (pa % 2 ^ 36 / 2 ^ 21))

/-- The bytes of a line. -/
def State.lineData (s : State) (pa : Nat) : List Byte := s.phys (lineOf pa * 128) 128

/-- The slice of a remote-data cache that holds a line (R311). -/
def rdcSlice (line : Nat) : Nat := (line / 2 % 8) ^^^ (line / 16 % 8) ^^^ (line / 128 % 8)

/-- The lines of a remote-data cache after one of a full set has left, for a line that is not there (R311). -/
def rdcRoom (rdc : Sparse Copy) (n line : Nat) : Sparse Copy :=
  if (Sparse.get? rdc line).isSome || decide (rdc.length < Config.sliceWays) then rdc
  else
    let near := (rdc.filter fun q => rdcSlice q.1 == rdcSlice line &&
      setOf Config.rdcHash Config.sliceSets q.1 == setOf Config.rdcHash Config.sliceSets line).map (·.1)
    if near.length < Config.sliceWays then rdc else Sparse.erase rdc (near.getD (Config.victim n line % near.length) line)

/-- A remote-data-cache copy of a die (R311, R312). -/
def State.putRdc (s : State) (d line : Nat) (c : Copy) : State :=
  s.modDie d fun x => { x with rdc := Sparse.put (rdcRoom x.rdc s.nextReq line) line c }

/-- A remote-data cache loses a line that is older than a value its die has read or written at the home, so that no later read
goes back (R330). -/
def State.dropOlder (s : State) (d line wts : Nat) : State :=
  match Sparse.get? (s.die d).rdc line with
  | none => s
  | some c => if c.wts < wts then s.modDie d fun x => { x with rdc := Sparse.erase x.rdc line } else s

/-- No later lane shares a write time of a line that a cache has taken (R334, log entry 32). -/
def State.closeLine (s : State) (line : Nat) : State :=
  match Sparse.get? s.lines line with
  | some t => { s with lines := Sparse.put s.lines line { t with last := none } }
  | none => s

/-- A write's acknowledgement passes a remote-data cache: a copy of the line that is no later becomes the line as the write left it
(R312); an older copy of a line with poisoned bytes, of which no copy is made, leaves it. -/
def State.refreshRdc (s : State) (d pa wts : Nat) (line : List Byte) (spoilt : Bool) : State :=
  match Sparse.get? (s.die d).rdc (lineOf pa) with
  | none => s
  | some c =>
    if wts < c.wts then s
    else if spoilt then s.dropOlder d (lineOf pa) wts
    else (s.closeLine (lineOf pa)).putRdc d (lineOf pa) { c with wts := wts, rts := wts, data := line }

/-- A line as its home gives it kept in a die's remote-data cache (R311, R312); one with poisoned bytes is not kept, so that every read of
it meets them at the home (R262, R325). -/
def State.keepRdc (s : State) (d line : Nat) (c : Copy) : State := if s.poisoned (line * 128) 128 then s else s.putRdc d line c

/-- Bytes of host-homed memory written: the memory controller stores the block of those of a region under host bias (R315, R348); no bytes
are no write. -/
def State.hostStore (s : State) (pa : Nat) (bs : List Byte) (comp : Bool) : State :=
  let s1 := s.putBytes pa bs
  if isHbm pa && !bs.isEmpty then s1.storeBlock pa comp else s1

/-- A write to a host-homed line, held owned in the accessing die's remote-data cache; no other die keeps a copy (R313, R347). -/
def State.hostWrite (s : State) (d pa : Nat) (bs : List Byte) (comp : Bool) : State :=
  let s1 := s.hostStore pa bs comp
  let s2 := { s1 with dies := s1.dies.map fun (p : Nat × Die) => (p.1, { p.2 with rdc := Sparse.erase p.2.rdc (lineOf pa) }) }
  s2.keepRdc d (lineOf pa) ⟨0, 0, s2.lineData pa, none, 0, false⟩

/-- A write performed at its home for a core: the state, and the wts its acknowledgement carries (R334, R347). DESIGN CHOICE: a tracked
write to a region under host bias, whose home is the host, sets no dirty bit (log entry 99). -/
def State.performWrite (s : State) (k pa : Nat) (bs : List Byte) (clk : Nat) (dirty : Option Nat) (comp : Bool) (op : Option Nat) : State × Nat :=
  if s.hostLine pa then (s.hostWrite (dieOf k) pa bs comp, 0) else s.homeWrite pa bs clk dirty comp op

/-- A write performed at its home and acknowledged at once (R312, R334, R347). -/
def State.writeHome (s : State) (k pa : Nat) (bs : List Byte) (clk : Nat) (dirty : Option Nat) (comp : Bool) : State × Nat :=
  let p := s.performWrite k pa bs clk dirty comp none
  (if s.hostLine pa ∨ dieOf k = pa / 2 ^ 36 then p.1 else p.1.refreshRdc (dieOf k) pa p.2 (p.1.lineData pa) (p.1.poisoned (lineOf pa * 128) 128), p.2)

/-- Bytes stored at their homes, line by line, with the largest wts (R216, R340). -/
def State.storeV (s : State) (k ctx : Nat) (priv : Bool) (a : DWord) (bs : List Byte) : Nat → State × Nat
  | 0 => (s, 0)
  | n + 1 =>
    if bs.isEmpty then (s, 0)
    else
      let m := 128 - a.toNat % 128
      match s.translate k none ctx priv .store a with
      | .error _ => (s, 0)
      | .ok e =>
        let pa := e.pa a
        let p := (s.noteTlb k e).writeHome k pa (bs.take m) (s.core k).clock (e.tracked pa) (pteComp e.pte)
        let q := State.storeV p.1 k ctx priv (a + BitVec.ofNat 64 m) (bs.drop m) n
        (q.1, Nat.max p.2 q.2)

/-! ## Records in memory -/

/-- A part of a record: its offset and its bytes. -/
abbrev Piece := Nat × List Byte

/-- Parts of a record stored at their homes by a core, in a context, as privileged accesses (R274). -/
def State.storeRec (s : State) (k ctx : Nat) (base : DWord) (ps : List Piece) : State :=
  ps.foldl (fun (t : State) p => (t.storeV k ctx true (base + BitVec.ofNat 64 p.1) p.2 (p.2.length + 1)).1) s

/-- Bytes of a record that hold poisoned data are poisoned (R262). -/
def State.poisonRec (s : State) (k ctx : Nat) (as : List DWord) : State :=
  as.foldl (fun (t : State) a =>
    match t.translate k none ctx true .store a with
    | .ok e => t.poisonHome (e.pa a) 1
    | .error _ => t) s

/-- Bytes of a record read at their homes as privileged accesses, each with its poison; none where a page does not serve. -/
def State.readRec (s : State) (k ctx : Nat) (a : DWord) (n : Nat) : Option (List (Byte × Bool)) :=
  match s.translateSpan k ctx true .load a n with
  | .error _ => none
  | .ok ps => some (ps.map fun p => (s.byte p, s.badByte p))

/-- The bytes of a record without their poison. -/
def State.recBytes (s : State) (k ctx : Nat) (a : DWord) (n : Nat) : List Byte := ((s.readRec k ctx a n).getD []).map (·.1)

/-! ## Code -/

/-- A loaded code object's extent and start map (R392). -/
structure CodeEntry where
  text : Nat
  len : Nat
  smap : Nat
  deriving DecidableEq, Repr, Inhabited

/-- The code-table entry whose extent holds an address (R392): PAGE with the table's address where the table
itself has no translation. -/
def State.codeEntry (s : State) (k ctx : Nat) (a : DWord) : Except (Cause × DWord) (Option CodeEntry) :=
  let tab := s.ctxField ctx 0x30 8
  let rec go (i : Nat) : Nat → Except (Cause × DWord) (Option CodeEntry)
    | 0 => .ok none
    | n + 1 =>
      match s.readV k ctx true (BitVec.ofNat 64 (tab + 32 * i)) 24 with
      | .error x => .error x
      | .ok bs =>
        let e : CodeEntry := ⟨leNat (bs.take 8), leNat ((bs.drop 8).take 8), leNat ((bs.drop 16).take 8)⟩
        if e.text ≤ a.toNat ∧ a.toNat < e.text + e.len then .ok (some e) else go (i + 1) n
  go 0 (s.ctxField ctx 0x38 4)

/-- The start bit of a word: clear for an address that is no word of any extent (R43, R44, R392). -/
def State.startBit (s : State) (k ctx : Nat) (priv : Bool) (a : DWord) : Except (Cause × DWord) Bool :=
  if a.toNat % 4 ≠ 0 then .ok false
  else
    match s.codeEntry k ctx a with
    | .error x => .error x
    | .ok none => .ok false
    | .ok (some e) =>
      let w := (a.toNat - e.text) / 4
      match s.readV k ctx priv (BitVec.ofNat 64 (e.smap + w / 8)) 1 with
      | .error x => .error x
      | .ok bs => .ok ((leNat bs).testBit (w % 8))

/-- Why code could not be fetched: cause, kind and address (R45, R377). -/
structure FetchFault where
  cause : Cause
  kind : FaultKind
  addr : DWord
  deriving DecidableEq, Repr, Inhabited

/-- One code word: CODEEND outside the extent, PAGE and PROT on its page (R45, R377, R409). -/
def State.fetchWord (s : State) (k ctx : Nat) (priv : Bool) (e : CodeEntry) (a : Nat) : Except FetchFault Word :=
  if a < e.text ∨ e.text + e.len < a + 4 then .error ⟨.codeEnd, .H, BitVec.ofNat 64 a⟩
  else
    match s.translate k none ctx priv .fetch (BitVec.ofNat 64 a) with
    | .error c => .error ⟨c, .P, BitVec.ofNat 64 a⟩
    | .ok t =>
      if pteDev t.pte then .error ⟨.prot, .P, BitVec.ofNat 64 a⟩
      else .ok (BitVec.ofNat 32 (leNat (s.phys (t.pa (BitVec.ofNat 64 a)) 4)))

/-- `n` code words in order. -/
def State.fetchWords (s : State) (k ctx : Nat) (priv : Bool) (e : CodeEntry) (a : Nat) :
    Nat → Except FetchFault (List Word)
  | 0 => .ok []
  | n + 1 =>
    match s.fetchWord k ctx priv e a with
    | .error x => .error x
    | .ok w =>
      match State.fetchWords s k ctx priv e (a + 4) n with
      | .error x => .error x
      | .ok ws => .ok (w :: ws)

/-- Words of an instruction from its first unit: its units and its literal words; one unit for a class that
holds no instruction, which then faults when it issues (R37, R47). -/
def instrWords (lo hi : Word) : Nat :=
  let u := unitOf lo hi
  match classUnits (u / 2 ^ 60) with
  | some n => 2 * n + litCount (u / 2 ^ 60) u
  | none => 2

/-- The words of `n` instructions of a clause (R40, R377). -/
def State.fetchInstrs (s : State) (k ctx : Nat) (priv : Bool) (e : CodeEntry) (a : Nat) :
    Nat → Except FetchFault (List Word)
  | 0 => .ok []
  | n + 1 =>
    match s.fetchWords k ctx priv e a 2 with
    | .ok [lo, hi] =>
      match s.fetchWords k ctx priv e (a + 8) (instrWords lo hi - 2) with
      | .error x => .error x
      | .ok ws =>
        match classUnits (unitOf lo hi / 2 ^ 60) with
        | none => .ok [lo, hi]
        | some _ =>
          match State.fetchInstrs s k ctx priv e (a + 4 * instrWords lo hi) n with
          | .error x => .error x
          | .ok rest => .ok (lo :: hi :: ws ++ rest)
    | .ok _ => .ok []
    | .error x => .error x

/-- The first word of a clause of some words whose start bit lies on another page than its header's (R377, R392). -/
def CodeEntry.secondPage (e : CodeEntry) (pc n : Nat) : Option Nat :=
  let w := (pc - e.text) / 4
  let first := (e.smap + w / 8) / 2 ^ 16
  if first = (e.smap + (w + n - 1) / 8) / 2 ^ 16 then none else some (e.text + 4 * (8 * ((first + 1) * 2 ^ 16 - e.smap)))

/-- A clause fetched whole after its header, with the start bits that cover it (R377). -/
def State.fetchClause (s : State) (k ctx : Nat) (priv : Bool) (e : CodeEntry) (pc : DWord) (n : Nat) : Except FetchFault (List Word) :=
  match s.fetchInstrs k ctx priv e (pc.toNat + 8) n with
  | .error x => .error x
  | .ok ws =>
    match e.secondPage pc.toNat (2 + ws.length) with
    | none => .ok ws
    | some a =>
      match s.startBit k ctx priv (BitVec.ofNat 64 a) with
      | .error x => .error ⟨x.1, .P, BitVec.ofNat 64 a⟩
      | .ok _ => .ok ws

/-- The TLBs after the fetch of a clause: its code and start-map pages and its extent's table (R374, R377, R392). -/
def State.noteFetch (s : State) (k ctx : Nat) (e : CodeEntry) (pc : DWord) (n : Nat) : State :=
  let w := (pc.toNat - e.text) / 4
  ((s.notePages k ctx (BitVec.ofNat 64 (s.ctxField ctx 0x30 8)) (32 * s.ctxField ctx 0x38 4)).notePages k ctx
    (BitVec.ofNat 64 (e.smap + w / 8)) ((w % 8 + n + 7) / 8)).notePages k ctx pc (4 * n)

/-- The two words of a clause header whose start bit is set (R41, R45). -/
def State.fetchHeader (s : State) (k ctx : Nat) (priv : Bool) (pc : DWord) : Except FetchFault (CodeEntry × Word × Word) :=
  match s.codeEntry k ctx pc with
  | .error x => .error ⟨x.1, .P, x.2⟩
  | .ok none => .error ⟨.codeEnd, .H, pc⟩
  | .ok (some e) =>
    match s.startBit k ctx priv pc with
    | .error x => .error ⟨x.1, .P, pc⟩
    | .ok false => .error ⟨.codeEnd, .H, pc⟩
    | .ok true =>
      match s.fetchWords k ctx priv e pc.toNat 2 with
      | .error x => .error x
      | .ok [lo, hi] => .ok (e, lo, hi)
      | .ok _ => .error ⟨.codeEnd, .H, pc⟩

end Sys2Proof.Machine
end

