-- ==== Sys2Proof/Machine/BarWords.lean ====
section
/-! DEFINITION. Barrier words: participants, arrival, completion, departure and withdrawal (R293 to R298, R322). -/

namespace Sys2Proof.Machine

open Sys2Proof

/-! ## Barrier words (R293, R294, R322) -/

def barGen (w : Word) : Nat := w.toNat / 2 ^ 25
def barMode (w : Word) : Bool := w.getLsbD 24
def barCount (w : Word) : Nat := w.toNat % 2 ^ 12
def barMake (gen : Nat) (mode : Bool) (count : Nat) : Word :=
  BitVec.ofNat 32 (gen % 128 * 2 ^ 25 + mode.toNat * 2 ^ 24 + count % 2 ^ 12)

/-- The core of rank 0 of a launch's cluster on a core (R294). -/
def State.rootCore (s : State) (k launch : Nat) : Nat := (((s.core k).team? launch).bind fun t => t.peers.head?).getD k

/-- A barrier word by its scope, 1 team, 2 cluster or 3 die, and its id, with the clock its last completion carries. -/
def State.barWord (s : State) (k launch sc id : Nat) : Word × Nat :=
  match sc with
  | 1 => (((s.core k).team? launch).map fun t => (t.bars.toList.getD id 0, 0)).getD (0, 0)
  | 2 => (((s.core (s.rootCore k launch)).team? launch).map fun t => (t.cbars.toList.getD id 0, t.cclk.toList.getD id 0)).getD (0, 0)
  | _ => (((s.die (dieOf k)).blocks.find? fun b => b.launch == launch).map fun b =>
      (b.words.toList.getD id 0, b.cclk.toList.getD id 0)).getD (0, 0)

/-- A barrier word set, with the clock its last completion carries. -/
def State.setBar (s : State) (k launch sc id : Nat) (w : Word) (clk : Nat) : State :=
  match sc with
  | 1 => s.modCore k fun c => c.modTeam launch fun t => { t with bars := t.bars.setIfInBounds id w }
  | 2 => s.modCore (s.rootCore k launch) fun c => c.modTeam launch fun t =>
      { t with cbars := t.cbars.setIfInBounds id w, cclk := t.cclk.setIfInBounds id clk }
  | _ => s.modDie (dieOf k) fun d => { d with blocks := d.blocks.map fun (b : DieBlock) =>
      if b.launch = launch then { b with words := b.words.setIfInBounds id w, cclk := b.cclk.setIfInBounds id clk } else b }

/-- Groups of a launch on a core that have not retired. -/
def State.liveOn (s : State) (k launch : Nat) : Nat := (((s.core k).team? launch).map (·.live)).getD 0

/-- Participants of a barrier: the groups that have not retired (R293, R294, R322). -/
def State.participants (s : State) (k launch sc : Nat) : Nat :=
  match sc with
  | 1 => s.liveOn k launch
  | 2 => (((((s.core k).team? launch).map (·.peers)).getD []).map fun p => s.liveOn p launch).foldl (· + ·) 0
  | _ =>
    ((s.cores.filter fun p => dieOf p.1 == dieOf k).map fun p => s.liveOn p.1 launch).foldl (· + ·) 0 +
      ((s.saved.filter fun v => v.launch == launch && v.die == dieOf k).map (·.groups)).foldl (· + ·) 0

/-- The clock of a barrier word's holder (R296, R322). -/
def State.barHolder (s : State) (k launch sc : Nat) : Nat :=
  match sc with
  | 1 => (s.core k).clock
  | 2 => (s.core (s.rootCore k launch)).clock
  | _ => (((s.die (dieOf k)).blocks.find? fun b => b.launch == launch).map (·.clock)).getD 0

/-- The phase of a barrier completes where every participant has arrived (R296, R297). -/
def State.barComplete (s : State) (k launch sc id : Nat) : State :=
  let w := (s.barWord k launch sc id).1
  if ¬ barMode w ∧ s.participants k launch sc ≤ barCount w then
    s.setBar k launch sc id (barMake (barGen w + 1) true (barCount w)) (s.barHolder k launch sc)
  else s

/-- An arrival: COUNT one up, the clock sent to the word's holder, the phase completed by the last (R296, R322). -/
def State.barArrive (s : State) (k launch sc id : Nat) : State :=
  let p := s.barWord k launch sc id
  let s1 := s.setBar k launch sc id (barMake (barGen p.1) (barMode p.1) (barCount p.1 + 1)) p.2
  let c := (s.core k).clock
  let s2 := match sc with
    | 1 => s1
    | 2 => s1.raiseClock (s.rootCore k launch) c
    | _ => s1.modDie (dieOf k) fun d => { d with blocks := d.blocks.map fun (b : DieBlock) =>
        if b.launch = launch then { b with clock := Nat.max b.clock c } else b }
  s2.barComplete k launch sc id

/-- A departure: the clock takes what the completion carried, COUNT one down, the last one closes the phase (R296). -/
def State.barLeave (s : State) (k launch sc id : Nat) : State :=
  let p := s.barWord k launch sc id
  let n := barCount p.1 - 1
  (s.raiseClock k p.2).setBar k launch sc id (barMake (barGen p.1) (decide (n ≠ 0)) n) p.2

/-- A barrier's scope and id (R73). -/
def yBarScope (f : YFields) : Nat := f.sub.toNat / 32
def yBarId (f : YFields) : Nat := f.sub.toNat % 32

/-- A barrier instruction's fields, and whether it waits to depart rather than only to arrive (R295, R296). -/
def barOf : Instr → Option (YFields × Bool)
  | .bar f => some (f, true)
  | .bara f => some (f, false)
  | .barw f => some (f, true)
  | _ => none

/-- Whether a waiting barrier instruction has only to depart from a completed phase (R298). -/
def State.mustDepart (s : State) (k launch : Nat) (w : Wait) : Bool :=
  match barOf w.instr with
  | some (f, departs) => departs && w.vals.headD 0 != 0 && barMode (s.barWord k launch (yBarScope f) (yBarId f)).1
  | none => false

/-- A BAR that waits in arriving mode withdraws its arrival (R298). -/
def State.withdraw (s : State) (k launch : Nat) (w : Wait) : State :=
  match w.instr with
  | .bar f =>
    let p := s.barWord k launch (yBarScope f) (yBarId f)
    if w.vals.headD 0 = 0 ∨ barMode p.1 then s
    else s.setBar k launch (yBarScope f) (yBarId f) (barMake (barGen p.1) false (barCount p.1 - 1)) p.2
  | _ => s

end Sys2Proof.Machine
end

