-- ==== Sys2Proof/Machine/Ops.lean ====
section
/-! DEFINITION. Shared operations: lanes and splits (R13 to R28), the issue in progress, calls (R33), taking a
fault and entering a handler (R261 to R267). -/

namespace Sys2Proof.Machine

open Sys2Proof

/-- What a step of the model answers. -/
abbrev Res := Host.Outcome State Fault Refusal

/-! ## Lanes -/

/-- The ring index of an age (R13). -/
def Lane.at (l : Lane) (k : Nat) : BitVec 5 := l.head - BitVec.ofNat 5 k

/-- The entry of an age (R13). -/
def Lane.age (l : Lane) (k : Nat) : Word := l.trail[(l.at k).toNat]'((l.at k).isLt)

/-- An entry written in place. -/
def Lane.setEntry (l : Lane) (e : BitVec 5) (v : Word) : Lane :=
  { l with trail := l.trail.set e.toNat v e.isLt, poison := l.poison.filter fun p => p.entry != e }

/-- One push onto the ring (R13). -/
def Lane.push (l : Lane) (v : Word) : Lane := { (l.setEntry (l.head + 1) v) with head := l.head + 1 }

/-- A push that counts toward NET (R14, R30). -/
def Lane.emit (l : Lane) (v : Word) : Lane := { (l.push v) with net := l.net + 1 }

/-- Pushes in order, each counted toward NET. -/
def Lane.emits (l : Lane) (vs : List Word) : Lane := vs.foldl Lane.emit l

/-- A pop of `n` entries that counts toward NET (R13, R116). -/
def Lane.drop (l : Lane) (n : Nat) : Lane :=
  { l with head := l.head - BitVec.ofNat 5 n, net := l.net - BitVec.ofNat 8 n }

/-- Whether the entry of an age waits for data (R17). -/
def Lane.pendingAge (l : Lane) (k : Nat) : Bool := l.pend.any fun p => p.entry == l.at k

/-- The request an age waits for (R17). -/
def Lane.pendingReq (l : Lane) (k : Nat) : Option Nat := (l.pend.find? fun p => p.entry == l.at k).map (·.req)

/-- The poison mark of an age (R262). -/
def Lane.poisonAge (l : Lane) (k : Nat) : Option PoisonMark := l.poison.find? fun p => p.entry == l.at k

/-- `n` entries reserved for a request: pushed at once, pending until filled (R17). -/
def Lane.reserve (l : Lane) (req : Nat) : Nat → Lane
  | 0 => l
  | n + 1 =>
    Lane.reserve { l with head := l.head + 1, net := l.net + 1, pend := l.pend ++ [⟨l.head + 1, req⟩],
                          poison := l.poison.filter fun p => p.entry != l.head + 1 } req n

/-- The ring entries that the next `n` pushes take, in order. -/
def Lane.nextEntries (l : Lane) (n : Nat) : List (BitVec 5) :=
  (List.range n).map fun j => l.head + BitVec.ofNat 5 (j + 1)

/-- Data for the entries that wait for a request, the first entry first; they are pending no more (R17). -/
def Lane.fill (l : Lane) (req : Nat) (es : List (BitVec 5)) (vs : List Word) : Lane :=
  let l1 := (es.zip vs).foldl (fun l p => if l.pend.contains ⟨p.1, req⟩ then l.setEntry p.1 p.2 else l) l
  { l1 with pend := l1.pend.filter fun p => p.req != req }

/-- The same in a lane's call record: the entries of a logged load wait there while its handler runs (R17, R266). -/
def LaneRec.fill (r : LaneRec) (req : Nat) (es : List (BitVec 5)) (vs : List Word) : LaneRec :=
  let l := Lane.fill ⟨r.head, r.net, r.trail, r.pend, r.poison, Vector.replicate 64 0⟩ req es vs
  { r with trail := l.trail, pend := l.pend, poison := l.poison }

/-- Data for a request of a lane, in its trail or in the shadow of a call record that has its entries; entries of a record that
memory holds wait no more (R17, R34). -/
def Group.fillReq (g : Group) (lane req : Nat) (es : List (BitVec 5)) (vs : List Word) : Group :=
  { g with lanes := Vector.ofFn fun i => if i.val = lane then g.lanes[i].fill req es vs else g.lanes[i],
           laneRecs := g.laneRecs.map fun p => if p.1 % 32 = lane then (p.1, p.2.fill req es vs) else p,
           recHeld := g.recHeld.map fun p =>
             if p.1 % 32 = lane then (p.1, (p.2.1.filter fun x => x.req != req,
               p.2.2.filter fun m => !(p.2.1.any fun x => x.req == req && x.entry == m.entry))) else p }

/-- A 64-bit value by the age of its high word (R16). -/
def Lane.age64 (l : Lane) (k : Nat) : DWord := DWord.ofWords (l.age (k + 1)) (l.age k)

/-! ## Splits -/

/-- The slice of a lane (R25). -/
def sliceOfLane (l : Fin 32) : Fin 8 := ⟨l.val / 4, by omega⟩

/-- Whether a lane executes (R27). -/
def Group.laneActive (g : Group) (l : Fin 32) : Bool :=
  let s := g.slices[sliceOfLane l]
  s.active.getLsbD (l.val % 4) && !s.exited.getLsbD (l.val % 4)

/-- Whether a lane is an active lane of a split (R26, R27). -/
def Group.on (g : Group) (mask : BitVec 8) (l : Fin 32) : Bool :=
  mask.getLsbD (l.val / 4) && g.laneActive l

/-- The active lanes of a split, ascending. -/
def Group.activeLanes (g : Group) (mask : BitVec 8) : List (Fin 32) :=
  (List.finRange 32).filter fun l => g.on mask l

/-- The active lanes of a split as a mask. -/
def Group.activeMask (g : Group) (mask : BitVec 8) : BitVec 32 :=
  (g.activeLanes mask).foldl (fun m l => m ||| BitVec.ofNat 32 (2 ^ l.val)) 0

/-- The slices of a mask, ascending. -/
def slicesOf (mask : BitVec 8) : List (Fin 8) := (List.finRange 8).filter fun i => mask.getLsbD i.val

/-- The lowest slice of a mask, 0 for none. -/
def lowSlice (mask : BitVec 8) : Nat := match slicesOf mask with | i :: _ => i.val | [] => 0

/-- A group with each active lane of a split changed (R14). -/
def Group.mapLanes (g : Group) (mask : BitVec 8) (u : Fin 32 → Lane → Lane) : Group :=
  { g with lanes := Vector.ofFn fun i => if g.on mask i then u i g.lanes[i] else g.lanes[i] }

/-- A group with each slice of a mask changed. -/
def Group.mapSlices (g : Group) (mask : BitVec 8) (u : Fin 8 → Slice → Slice) : Group :=
  { g with slices := Vector.ofFn fun i => if mask.getLsbD i.val then u i g.slices[i] else g.slices[i] }

/-- Slices with PC, index, DEPTH and DVTOP equal to those of a slice, and a lane left: a split (R26, R165). -/
def Group.splitOf (g : Group) (i : Fin 8) : BitVec 8 :=
  let a := g.slices[i]
  (List.finRange 8).foldl (fun m j =>
    let b := g.slices[j]
    if b.pc == a.pc && b.iidx == a.iidx && b.depth == a.depth && b.dvtop == a.dvtop && b.exited != 0xF && b.active != 0
    then m ||| BitVec.ofNat 8 (2 ^ j.val) else m) 0

/-- A slice that waits at its junction, or has no lane left, issues nothing (R27, R164). -/
def Slice.idle (s : Slice) : Bool := s.active == 0 || s.exited == 0xF

/-- Whether a divergence entry is open. -/
def Group.divOpen (g : Group) (e : Nat) : Option DivEntry := Sparse.get? g.div e

/-! ## Scalars -/

/-- A scalar register; an index beyond 95 reads zero and is never named (R21). -/
def Group.scalar (g : Group) (i : Nat) : Word := g.scalars.getD i 0

/-- A 64-bit scalar by its even register (R21). -/
def Group.scalar64 (g : Group) (i : Nat) : DWord := DWord.ofWords (g.scalar i) (g.scalar (i + 1))

/-- A scalar written by an instruction in issue order (R23). -/
def Group.setScalar (g : Group) (i : Nat) (v : Word) : Group :=
  { g with scalars := g.scalars.setIfInBounds i v, sseq := g.sseq.setIfInBounds i g.seq }

def Group.setScalar64 (g : Group) (i : Nat) (v : DWord) : Group :=
  (g.setScalar i v.lo).setScalar (i + 1) v.hi

/-- A scalar written when its data arrives, unless a later-issued write has taken effect (R23). -/
def Group.arriveScalar (g : Group) (i seq : Nat) (v : Word) : Group :=
  if seq < g.sseq.getD i 0 then g
  else { g with scalars := g.scalars.setIfInBounds i v, sseq := g.sseq.setIfInBounds i seq }

/-! ## Flags -/

/-- A completion flag's count one up (R24). -/
def Group.flagUp (g : Group) (f : Option Nat) : Group :=
  match f with
  | some i => { g with flags := g.flags.setIfInBounds i (g.flags.getD i 0 + 1), clear := g.clear &&& ~~~BitVec.ofNat 12 (2 ^ i) }
  | none => g

/-- A completion flag's count one down (R24). -/
def Group.flagDown (g : Group) (f : Option Nat) : Group :=
  match f with
  | some i => { g with flags := g.flags.setIfInBounds i (g.flags.getD i 0 - 1) }
  | none => g

/-- A flag of a clause header: none for code 15 (R24, R39). -/
def flagOf (c : BitVec 4) : Option Nat := if c.toNat < 12 then some c.toNat else none

/-- An issue that would raise a count to 64 waits (R24). -/
def Group.flagFull (g : Group) (f : Option Nat) : Bool :=
  match f with
  | some i => decide (63 ≤ g.flags.getD i 0)
  | none => false

/-! ## The issue in progress -/

/-- The slices of the issuing split continue after the instruction, which takes its place in program order
(R155, R326). -/
def State.advance (s : State) : State :=
  s.modGroup s.iss.core s.iss.frame fun g =>
    { (g.mapSlices s.iss.mask fun _ sl => { sl with pc := s.iss.nextPc, iidx := s.iss.nextIdx }) with seq := g.seq + 1 }

/-- The issuing group with a new value, the split advanced. -/
def State.finish (s : State) (g : Group) : State := (s.setGroup s.iss.core s.iss.frame g).advance

/-! ## Call records (R32, R33) -/

/-- A record's key for a lane, and for a slice, at a level. -/
def laneKey (level lane : Nat) : Nat := level * 32 + lane
def sliceKey (level slice : Nat) : Nat := level * 8 + slice

/-- A lane as a call record keeps it (R33). -/
def Lane.toRec (l : Lane) : LaneRec := ⟨l.trail, l.head, l.net, l.pend, l.poison⟩

/-- A lane restored from its record (R170, R269). -/
def Lane.ofRec (l : Lane) (r : LaneRec) : Lane :=
  { l with trail := r.trail, head := r.head, net := r.net, pend := r.pend, poison := r.poison }

/-- A lane as a callee finds it: cleared, then the arguments pushed, the oldest first; they count toward no NET (R33, R282). -/
def Lane.enter (l : Lane) (args : List Word) : Lane :=
  args.foldl Lane.push { l with trail := Vector.replicate 32 0, head := 0, net := 0, pend := [], poison := [] }

/-- Highest open divergence index and one, or 0 (R159, R161). -/
def Group.divDepth (g : Group) : Nat := (g.div.map fun p => p.1 + 1).foldl Nat.max 0

/-- The call of R33 by the slices of a mask: records put into the shadow, lanes entered with their arguments, slices at
the target one level down. The return point and resume index are given by slice. -/
def Group.callInto (g : Group) (mask : BitVec 8) (argc : Nat) (args : Fin 32 → Lane → List Word)
    (ret : Fin 8 → DWord × Nat) (flt : Option FaultRec) (target : DWord) : Group :=
  let lanes := g.activeLanes mask
  let lkey := fun (l : Fin 32) => laneKey (g.slices[sliceOfLane l].depth + 1) l.val
  let skey := fun (i : Fin 8) => sliceKey (g.slices[i].depth + 1) i.val
  let laneRecs := lanes.foldl (fun t l => Sparse.put t (lkey l) g.lanes[l].toRec) g.laneRecs
  let sliceRecs := (slicesOf mask).foldl (fun t i =>
    let sl := g.slices[i]
    Sparse.put t (skey i) ⟨(ret i).1, sl.active, BitVec.ofNat 4 argc, g.divDepth, sl.dvtop, (ret i).2, flt.isSome⟩) g.sliceRecs
  let traps := (slicesOf mask).foldl (fun t i => match flt with | some r => Sparse.put t (skey i) r | none => Sparse.erase t (skey i)) g.traps
  let g1 := g.mapLanes mask fun i l => l.enter (args i l)
  let g2 := g1.mapSlices mask fun _ sl =>
    { sl with depth := sl.depth + 1, dvtop := 63, pc := target, iidx := 0,
              handler := flt.isSome || sl.handler, skip := !flt.isSome && sl.skip }
  { g2 with laneRecs := laneRecs, sliceRecs := sliceRecs, traps := traps,
            recHeld := lanes.foldl (fun t l => Sparse.erase t (lkey l)) g.recHeld }

/-! ## Call records in memory (R32, R34) -/

/-- HEAD and NET of a lane (R18). -/
def headNet (head : BitVec 5) (net : BitVec 8) : List Byte := [byteOf head.toNat, byteOf net.toNat]

/-- Offset of a lane's trail, and of a slice's level, in the call stack. -/
def laneRecOff (key : Nat) : Nat := 4352 * (key / 32 - 1) + 128 * (key % 32)

/-- A lane's part of a call record (R32). -/
def LaneRec.pieces (r : LaneRec) (key : Nat) : List Piece :=
  [(laneRecOff key, r.trail.toList.flatMap fun w => leBytes 4 w.toNat),
   (4352 * (key / 32 - 1) + 0x1000 + 2 * (key % 32), headNet r.head r.net)]

/-- A slice's part of a call record (R32). -/
def SliceRec.pieces (r : SliceRec) (key : Nat) : List Piece :=
  let base := 4352 * (key / 8 - 1)
  [(base + 0x1040 + 8 * (key % 8), leBytes 8 r.retPc.toNat),
   (base + 0x1080 + 16 * (key % 8), [byteOf r.active.toNat, byteOf r.argc.toNat] ++ leBytes 2 r.divDepth ++
      [byteOf r.dvtop.toNat, byteOf r.ridx, byteOf r.trapRec.toNat] ++ zeros 9)]

/-- The parts of the shadow (R34). -/
def Group.shadowPieces (g : Group) : List Piece :=
  g.laneRecs.flatMap (fun p => p.2.pieces p.1) ++ g.sliceRecs.flatMap fun p => p.2.pieces p.1

/-- Address of a group's call record of a level (R32). -/
def Group.recAt (g : Group) (level : Nat) : DWord := g.csp + BitVec.ofNat 64 (4352 * (level - 1))

/-- The fault of a page of a call record, which the core reaches as a privileged access (R32, log entry 9). -/
def State.recFault (s : State) (k : Nat) (g : Group) (acc : Acc) (level : Nat) : Option (Cause × DWord) :=
  (rangePages (g.recAt level) 4352).findSome? fun p =>
    let a := if p.toNat < (g.recAt level).toNat then g.recAt level else p
    match s.translate k none g.ctx true acc a with
    | .error c => some (c, a)
    | .ok e => if pteDev e.pte then some (.prot, a) else none

/-- The TLBs after the pages of the shadow's place in the call stack have been walked (R34, R374). -/
def State.noteSpill (s : State) (k : Nat) (g : Group) : State :=
  match g.sliceRecs with
  | [] => s
  | (key, _) :: _ => s.notePages k g.ctx (g.recAt (key / 8)) 4352

/-- The shadow written to memory before another call takes it (R34): the state, and the group with its shadow free. -/
def State.spill (s : State) (k : Nat) (g : Group) : Except (Cause × DWord) (State × Group) :=
  match g.sliceRecs with
  | [] => .ok (s, g)
  | (key, _) :: _ =>
    match s.recFault k g .store (key / 8) with
    | some x => .error x
    | none =>
      let bad := g.laneRecs.flatMap fun p => p.2.poison.flatMap fun m =>
        (List.range 4).map fun j => g.csp + BitVec.ofNat 64 (laneRecOff p.1 + 4 * m.entry.toNat + j)
      .ok (((s.noteSpill k g).storeRec k g.ctx g.csp g.shadowPieces).poisonRec k g.ctx bad,
        { g with laneRecs := [], sliceRecs := [], recHeld := g.laneRecs.foldl (fun t p =>
            if p.2.pend.isEmpty && p.2.poison.isEmpty then Sparse.erase t p.1 else Sparse.put t p.1 (p.2.pend, p.2.poison)) g.recHeld })

/-- A lane's part of a call record read back, with what waits in it: poisoned bytes poison their entry (R32, R262). -/
def State.laneRecAt (s : State) (k : Nat) (g : Group) (key : Nat) (pc : DWord) : LaneRec :=
  let a := g.csp + BitVec.ofNat 64 (laneRecOff key)
  let trail := (s.readRec k g.ctx a 128).getD []
  let hn := s.recBytes k g.ctx (g.recAt (key / 32) + BitVec.ofNat 64 (0x1000 + 2 * (key % 32))) 2
  let held := (Sparse.get? g.recHeld key).getD ([], [])
  let bad := (List.range 32).filter fun e => ((trail.drop (4 * e)).take 4).any (·.2) && !held.2.any fun m => m.entry.toNat == e
  { trail := Vector.ofFn fun i => BitVec.ofNat 32 (fieldOf (trail.map (·.1)) (4 * i.val) 4), head := BitVec.ofNat 5 (byteAt hn 0),
    net := BitVec.ofNat 8 (byteAt hn 1), pend := held.1,
    poison := held.2 ++ bad.map fun e => ⟨BitVec.ofNat 5 e, a + BitVec.ofNat 64 (4 * e), pc, none⟩ }

/-- A slice's part of a call record read back (R32). -/
def State.sliceRecAt (s : State) (k : Nat) (g : Group) (key : Nat) : SliceRec :=
  let at' := fun (o n : Nat) => s.recBytes k g.ctx (g.recAt (key / 8) + BitVec.ofNat 64 o) n
  let b := at' (0x1080 + 16 * (key % 8)) 16
  { retPc := BitVec.ofNat 64 (leNat (at' (0x1040 + 8 * (key % 8)) 8)), active := BitVec.ofNat 4 (byteAt b 0),
    argc := BitVec.ofNat 4 (byteAt b 1), divDepth := fieldOf b 2 2, dvtop := BitVec.ofNat 6 (byteAt b 4), ridx := byteAt b 5,
    trapRec := decide (byteAt b 6 % 2 = 1) }

/-- Whether the tables hold every call record of a split at its level (R34). -/
def Group.recsHeld (g : Group) (mask : BitVec 8) : Bool :=
  ((g.activeLanes mask).all fun l => (Sparse.get? g.laneRecs (laneKey g.slices[sliceOfLane l].depth l.val)).isSome) &&
    (slicesOf mask).all fun i => (Sparse.get? g.sliceRecs (sliceKey g.slices[i].depth i.val)).isSome

/-- The call records of a split at its level, those that memory holds read back into the tables (R32, R34). -/
def State.fetchRecs (s : State) (k : Nat) (g : Group) (mask : BitVec 8) (pc : DWord) : Except (Cause × DWord) Group :=
  let lkey := fun (l : Fin 32) => laneKey g.slices[sliceOfLane l].depth l.val
  let skey := fun (i : Fin 8) => sliceKey g.slices[i].depth i.val
  let ls := (g.activeLanes mask).filter fun l => (Sparse.get? g.laneRecs (lkey l)).isNone
  let ss := (slicesOf mask).filter fun i => (Sparse.get? g.sliceRecs (skey i)).isNone
  if g.recsHeld mask then .ok g
  else
    match s.recFault k g .load (g.slices.toList.getD (lowSlice mask) default).depth with
    | some x => .error x
    | none =>
      .ok { g with laneRecs := ls.foldl (fun t l => Sparse.put t (lkey l) (s.laneRecAt k g (lkey l) pc)) g.laneRecs,
                   sliceRecs := ss.foldl (fun t i => Sparse.put t (skey i) (s.sliceRecAt k g (skey i))) g.sliceRecs }

/-- The call records of the slices of a mask at a level are used up. -/
def Group.dropRecs (g : Group) (mask : BitVec 8) (level : Nat) : Group :=
  let lanes := (List.finRange 32).filter fun l => mask.getLsbD (l.val / 4)
  { g with laneRecs := lanes.foldl (fun t l => Sparse.erase t (laneKey level l.val)) g.laneRecs,
           recHeld := lanes.foldl (fun t l => Sparse.erase t (laneKey level l.val)) g.recHeld,
           sliceRecs := (slicesOf mask).foldl (fun t i => Sparse.erase t (sliceKey level i.val)) g.sliceRecs,
           traps := (slicesOf mask).foldl (fun t i => Sparse.erase t (sliceKey level i.val)) g.traps }

/-- The entries of a request that were still pending in `before` are poisoned (R262). -/
def Group.markReq (g before : Group) (lane req : Nat) (es : List (BitVec 5)) (mark : BitVec 5 → PoisonMark) : Group :=
  let new := fun (ps : List Pending) => (es.filter fun e => ps.contains ⟨e, req⟩).map mark
  { g with
    lanes := Vector.ofFn fun i =>
      if i.val = lane then { g.lanes[i] with poison := g.lanes[i].poison ++ new before.lanes[i].pend } else g.lanes[i],
    laneRecs := g.laneRecs.map fun p => if p.1 % 32 = lane then
      (p.1, { p.2 with poison := p.2.poison ++ new (((Sparse.get? before.laneRecs p.1).map (·.pend)).getD []) }) else p,
    recHeld := g.recHeld.map fun p => if p.1 % 32 = lane then
      (p.1, p.2.1, p.2.2 ++ new (((Sparse.get? before.recHeld p.1).map (·.1)).getD [])) else p }

/-- Data for a request of a lane, wherever its entries stand: trail, shadow, or a call record in memory (R17, R34). -/
def State.fillReq (s : State) (k f lane req : Nat) (es : List (BitVec 5)) (vs : List Word) : State :=
  match s.group? k f with
  | none => s
  | some g =>
    let piece := fun (p : Nat × List Pending × List PoisonMark) => (es.zip vs).filterMap fun x =>
      if p.1 % 32 = lane ∧ p.2.1.contains ⟨x.1, req⟩ then some (laneRecOff p.1 + 4 * x.1.toNat, leBytes 4 x.2.toNat) else none
    (s.setGroup k f (g.fillReq lane req es vs)).storeRec k g.ctx g.csp (g.recHeld.flatMap piece)

/-! ## Function tables (R168, R169, R392) -/

/-- A function-table entry: address, signature, VALID. -/
structure FEntry where
  addr : DWord
  sig : Word
  valid : Bool
  deriving DecidableEq, Repr, Inhabited

/-- Entries of a context's function table (R392). -/
def State.ftLen (s : State) (ctx : Nat) : Nat := s.ctxField ctx 0x18 4

/-- A function-table entry, read as a 16-byte global load (R169). -/
def State.ftEntry (s : State) (k ctx : Nat) (priv : Bool) (i : Nat) : Except (Cause × DWord) FEntry :=
  match s.readV k ctx priv (BitVec.ofNat 64 (s.ctxField ctx 0x10 8 + 16 * i)) 16 with
  | .error x => .error x
  | .ok bs => .ok ⟨BitVec.ofNat 64 (leNat (bs.take 8)), BitVec.ofNat 32 (leNat ((bs.drop 8).take 4)),
      (leNat (bs.drop 12)).testBit 0⟩

/-! ## Faults -/

/-- Whether a request of the state is a logged load (R210). -/
def State.reqLogged (s : State) (id : Nat) : Bool := s.reqs.any fun r => r.id == id && r.stage == .logged

/-- Whether an active lane of a split has an entry that waits for anything but a logged load (R167, R266). -/
def State.pendingData (s : State) (g : Group) (mask : BitVec 8) : Bool :=
  (g.activeLanes mask).any fun l => g.lanes[l].pend.any fun p => !s.reqLogged p.req

/-- Whether the debugger of a core is attached to a context: DBGCTL.ATTACH with a target group of it (R278). -/
def Core.attachedTo (c : Core) (ctx : Nat) : Bool :=
  c.dbgctl.getLsbD 0 &&
    match Sparse.get? c.frames (c.dbgctl.toNat / 2 ^ 16 % 64) with
    | some t => t.ctx == ctx
    | none => false

/-- Whether a debugger of the die of a group is attached to its context (R265, R278, log entry 15). -/
def State.attached (s : State) (k : Nat) (g : Group) : Bool :=
  s.cores.any fun p => dieOf p.1 == dieOf k && p.2.attachedTo g.ctx

/-! ## Stops (R176, R221, R265) -/

/-- Whether two waits are one: the waits of a group have no slice in common. -/
def Wait.same (x w : Wait) : Bool := x.iss.mask &&& w.iss.mask != 0

/-- Waits that a stop leaves and a pre-emption waits for: an SWRITE to SDCTL, a started SETTLE, a LAUNCH past its checks, which has its
record's number beside its address (R221, R345, R375, R400). -/
def Wait.kept (w : Wait) : Bool :=
  match w.instr with
  | .swrite _ => true
  | .settle _ => true
  | .launch _ => decide (1 < w.vals.length)
  | _ => false

/-- A wait ends and its split goes on after the instruction. -/
def Group.endWait (g : Group) (w : Wait) : Group :=
  let g1 := if w.parked then g else g.mapSlices w.iss.mask fun _ sl => { sl with pc := w.iss.nextPc, iidx := w.iss.nextIdx }
  { g1 with waits := g1.waits.filter fun x => !x.same w }

/-- A wait is abandoned: its split stands at the waiting instruction, which issues again (R221). -/
def Group.dropWait (g : Group) (w : Wait) : Group :=
  { (g.mapSlices w.iss.mask fun _ sl => { sl with pc := w.iss.clause, iidx := w.iss.idx }) with
    waits := g.waits.filter fun x => !x.same w }

/-- A waiting instruction issues again: its wait is forgotten, its slices stand at it (R221). -/
def State.reissue (s : State) (k f : Nat) (w : Wait) : State := { s.modGroup k f (·.dropWait w) with iss := { w.iss with kept := w.vals } }

/-- One wait of a group that stops: a barrier instruction of a completed phase departs, another is abandoned, its arrival
withdrawn (R221, R297, R298). -/
def State.abandonWait (s : State) (k f : Nat) (w : Wait) : State :=
  match s.group? k f with
  | none => s
  | some g =>
    if w.kept then s
    else
      match barOf w.instr with
      | some (y, _) =>
        if s.mustDepart k g.launch w then (s.barLeave k g.launch (yBarScope y) (yBarId y)).modGroup k f (·.endWait w)
        else (s.withdraw k g.launch w).modGroup k f (·.dropWait w)
      | none =>
        (s.modCore k fun c => { c with actWaits := c.actWaits.filter fun x => x.frame != f }).modGroup k f (·.dropWait w)

/-- The waits of a group that stops (R221). -/
def State.abandonWaits (s : State) (k f : Nat) : State :=
  (((s.group? k f).map (·.waits)).getD []).foldl (fun (t : State) w => t.abandonWait k f w) s

/-- A group stops, its waits abandoned, with a status and a fault record (R176, R221). -/
def State.halt (s : State) (k f : Nat) (st : Status) (flt : Option FaultRec) : State :=
  (s.abandonWaits k f).modGroup k f fun g => { g with status := st, fault := flt, drainFault := false }

/-- Whether a group issues: it runs, or it finishes a clause while it is being pre-empted (R270). -/
def Group.issues (g : Group) : Bool := g.status == .running || (g.status == .preempt && !g.drainFault)

/-- Frames with their cores whose groups a predicate picks; the predicate sees the core. -/
def State.framesWhere (s : State) (p : Nat → Group → Bool) : List (Nat × Nat) :=
  s.cores.flatMap fun kc => (kc.2.frames.filter fun fg => p kc.1 fg.2).map fun fg => (kc.1, fg.1)

/-- Every group that issues and that a predicate picks stops (R176). -/
def State.stopWhere (s : State) (p : Nat → Group → Bool) (st : Status) : State :=
  (s.framesWhere fun k g => p k g && g.issues).foldl (fun (t : State) x => match t.group? x.1 x.2 with
    | some g => if p x.1 g && g.issues then t.halt x.1 x.2 st none else t
    | none => t) s

/-- The debugger's halt of a group: one that issues stops now; one that waits for the fault service, or stands at a fault of a drain,
stops as soon as it would go on (R176, R264, R271, R278). -/
def State.haltDebug (s : State) (k f : Nat) : State :=
  match s.group? k f with
  | none => s
  | some g =>
    if g.issues then s.halt k f .debug none
    else match g.status with
      | .service => s.setGroup k f { g with halted := true }
      | .preempt => s.setGroup k f { g with halted := true }
      | _ => s

/-- ALLSTOP: a stop of a group of an attached context stops every group of that context on the die (R278). -/
def State.allStop (s : State) (k : Nat) (g : Group) : State :=
  if s.cores.any fun p => dieOf p.1 == dieOf k && p.2.attachedTo g.ctx && p.2.dbgctl.getLsbD 1 then
    (s.framesWhere fun j h => dieOf j == dieOf k && h.ctx == g.ctx).foldl (fun (t : State) x => t.haltDebug x.1 x.2) s
  else s

/-- The group stops with a fault record, and Sundoc is told (R265, mode 0). -/
def State.stopFaulted (s : State) (k f : Nat) (g : Group) (r : FaultRec) (nested hfail : Bool) : State :=
  (((s.setGroup k f g).halt k f (.faulted nested hfail) (some r)).tell (.groupFault g.launch g.cluster g.index r)).allStop k g

/-- Trap mode 2: every group of the launch stops (R265). -/
def State.stopGrid (s : State) (k f : Nat) (g : Group) (r : FaultRec) : State :=
  ((s.stopFaulted k f g r false false).stopWhere (fun _ h => h.launch == g.launch) .gridStop).modLaunch g.launch
    fun l => { l with stopped := true }

/-- The words a handler finds pushed, in order (R266). -/
def handlerArgs (r : FaultRec) : List Word :=
  [BitVec.ofNat 32 r.cause.code, r.addr.lo, r.addr.hi, r.pc.lo, r.pc.hi]

/-- The TLBs after a start-map bit has been read for an address (R44, R374). -/
def State.noteStart (s : State) (k ctx : Nat) (a : DWord) : State :=
  match s.codeEntry k ctx a with
  | .ok (some e) => (s.notePages k ctx (BitVec.ofNat 64 (s.ctxField ctx 0x30 8)) (32 * s.ctxField ctx 0x38 4)).notePages k ctx
      (BitVec.ofNat 64 (e.smap + (a.toNat - e.text) / 32)) 1
  | _ => s

/-- The TLBs after a function-table entry, and the start bit of its address, have been read (R169, R374). -/
def State.noteEntry (s : State) (k ctx : Nat) (priv : Bool) (i : Nat) : State :=
  let s1 := s.notePages k ctx (BitVec.ofNat 64 (s.ctxField ctx 0x10 8 + 16 * i)) 16
  match s.ftEntry k ctx priv i with
  | .error _ => s1
  | .ok e => s1.noteStart k ctx e.addr

/-- Entry to the handler by the slices of a mask (R266): a call with no arguments whose record is a trap
record; where the entry cannot be used the group stops with HFAIL. An entry, a start map or a page of the call stack that cannot be
read counts as one that cannot be used, which R266 does not say (log entry 73). -/
def State.enterHandler (s : State) (k f : Nat) (g : Group) (mask : BitVec 8) (r : FaultRec) : State :=
  if s.ftLen g.ctx ≤ g.hdr.handler then s.stopFaulted k f g r false true
  else
    let t := s.noteEntry k g.ctx g.priv g.hdr.handler
    let fail := t.stopFaulted k f g r false true
    match s.ftEntry k g.ctx g.priv g.hdr.handler with
    | .error _ => fail
    | .ok e =>
      match s.startBit k g.ctx g.priv e.addr with
      | .ok true =>
        if !e.valid || (slicesOf mask).any (fun i => g.slices[i].depth == g.hdr.callDepth) then fail
        else
          match t.spill k g with
          | .error _ => (t.noteSpill k g).stopFaulted k f g r false true
          | .ok (s1, g1) =>
            s1.setGroup k f { (g1.callInto mask 0 (fun _ _ => handlerArgs r) (fun i => (g.slices[i].pc, g.slices[i].iidx))
              (some r) e.addr) with fault := none, drainFault := false, seq := g.seq + 1 }
      | _ => fail

/-- Whether an attached debugger takes a fault (R265). -/
def State.debugTakes (s : State) (k : Nat) (g : Group) (r : FaultRec) : Bool :=
  (r.cause == .brk || r.cause == .watch || r.cause == .step) && s.attached k g

/-- Whether a slice of a mask is in handler mode (R267). -/
def Group.inHandler (g : Group) (mask : BitVec 8) : Bool := (slicesOf mask).any fun i => g.slices[i].handler

/-- Delivery of a fault under the kernel's trap mode (R262, R265, R267). BRK, WATCH and STEP of a split in handler mode go to an attached
debugger, without NESTED: R265 excepts them from delivery, R267 does not say which comes first (log entry 74). -/
def State.deliver (s : State) (k f : Nat) (g : Group) (mask : BitVec 8) (r : FaultRec) : State :=
  if s.debugTakes k g r then ((s.setGroup k f g).halt k f .debug (some r)).allStop k g
  else if g.inHandler mask then s.stopFaulted k f g r true false
  else if r.cause == .ecc then s.stopFaulted k f g r false false
  else if g.hdr.trapMode = 1 then s.enterHandler k f g mask r
  else if g.hdr.trapMode = 2 then s.stopGrid k f g r
  else s.stopFaulted k f g r false false

/-- Whether an address's frame is under migration (R264, R378). -/
def State.migrating (s : State) (k ctx : Nat) (va : DWord) : Bool :=
  match s.lookup k none ctx va with
  | none => false
  | some e => (s.indOf (e.pa va) .copying .flipped).isSome || (s.indOf (e.pa va) .retiring .retiring).isSome

/-- Whether a fault goes first to Sundoc's fault service: PAGE, and PROT on a page under migration (R264). -/
def State.toService (s : State) (k : Nat) (g : Group) (r : FaultRec) : Bool :=
  r.cause == .page || (r.cause == .prot && s.migrating k g.ctx r.addr)

/-- Whether the delivery of a fault to the handler waits for entries of active lanes that wait for data (R167, R266). -/
def State.handlerWaits (s : State) (k : Nat) (g : Group) (mask : BitVec 8) (r : FaultRec) : Bool :=
  g.hdr.trapMode == 1 && r.cause != .ecc && !s.debugTakes k g r && !g.inHandler mask && s.pendingData g mask

/-- The order among the faults of one group: a synchronous one first, then the lowest slice (R263). -/
def FaultRec.rank (r : FaultRec) : Nat := (if r.kind = .A then 8 else 0) + r.slice

/-- A fault raised on the slices of a mask (R261 to R265, R271). A fault that the handler is to take waits, the state
unchanged. A group that has stopped raises it again later; one that is being pre-empted records it. -/
def State.raise (s : State) (k f : Nat) (mask : BitVec 8) (r : FaultRec) : State :=
  match s.group? k f with
  | none => s
  | some g =>
    match g.status with
    | .preempt =>
      if g.fault.any (fun q => decide (q.rank ≤ r.rank)) then s
      else s.setGroup k f { g with fault := some r, drainFault := true }
    | .running =>
      if s.toService k g r then ((s.halt k f .service (some r)).tell (.service g.launch g.cluster g.index r)).allStop k g
      else if s.handlerWaits k g mask r then s
      else s.deliver k f g mask r
    | _ => s

/-- Whether a group can take a fault now. -/
def State.canTake (s : State) (k : Nat) (g : Group) (mask : BitVec 8) (r : FaultRec) (answered : Bool) : Bool :=
  g.status == .preempt || (g.status == .running && ((!answered && s.toService k g r) || !s.handlerWaits k g mask r))

/-- A fault that must not be lost: taken now, or held until its group can take it (R221, R264, R300). -/
def State.raiseDue (s : State) (k f : Nat) (d : Due) : State :=
  match s.group? k f with
  | none => s
  | some g =>
    if s.canTake k g d.mask d.flt d.answered then
      (if d.answered && g.status == .running then s.deliver k f g d.mask d.flt else s.raise k f d.mask d.flt)
    else s.setGroup k f { g with due := g.due ++ [d] }

/-- Elements with the least value of a measure. -/
def leastBy {α : Type} (m : α → Nat) (l : List α) : List α :=
  match l with
  | [] => []
  | x :: xs => let v := xs.foldl (fun a y => Nat.min a (m y)) (m x); l.filter fun y => m y == v

/-- The held faults of a group that it can take now, the first of R263's order first. -/
def State.dueNow (s : State) (k : Nat) (g : Group) : Option Due :=
  (leastBy (fun d => d.flt.rank) (g.due.filter fun d => s.canTake k g d.mask d.flt d.answered)).head?

/-- A held fault is taken; with a STEP the step ends. -/
def State.takeDue (s : State) (k f : Nat) (d : Due) : State :=
  let s1 := s.modGroup k f fun g => { g with due := g.due.filter fun x => x != d }
  (if d.flt.cause = .step then s1.modCore k fun c => { c with stepping := Sparse.erase c.stepping f } else s1).raiseDue k f d

/-- A precise fault of the instruction in issue (R76, R261). -/
def State.faultHere (s : State) (c : Cause) (addr : DWord) : State :=
  s.raise s.iss.core s.iss.frame s.iss.mask ⟨c, .P, addr, s.iss.pc, lowSlice s.iss.mask, s.iss.idx, none⟩

/-- The logged fault reported by the instruction in issue, which must wait for that load (R210). -/
def State.faultLogged (s : State) (e : LogEntry) : State :=
  s.raise s.iss.core s.iss.frame s.iss.mask ⟨e.cause.getD .page, .L, e.faddr, e.pc, lowSlice s.iss.mask, s.iss.idx, some e.op⟩

/-- The fault of a poisoned entry that the instruction in issue reads (R262). -/
def State.faultPoison (s : State) (p : PoisonMark) : State :=
  s.raise s.iss.core s.iss.frame s.iss.mask ⟨.poison, .L, p.addr, p.pc, lowSlice s.iss.mask, s.iss.idx, none⟩

/-- A logged load whose fault may be reported: the translation of each of its lanes is known, so that the record names the
lowest faulting one (R210, R262). -/
def State.reportable (s : State) (e : LogEntry) : Bool := !s.reqs.any fun r => r.op == e.op && r.stage == .walk

/-- The instruction in issue waits for requests: where one of them is a logged load, its fault is reported;
else nothing changes and the instruction is tried again (R17, R210). -/
def State.waitFor (s : State) (g : Group) (ids : List Nat) : State :=
  match g.log.find? fun e => s.reportable e && s.reqs.any fun r => r.op == e.op && r.stage == .logged && ids.contains r.id with
  | some e => s.faultLogged e
  | none => s

/-- The instruction in issue waits under R221: last in its clause, the split stands at the next clause header and
the instruction stays its current one; elsewhere nothing changes and it is tried again. -/
def State.waitHere (s : State) (i : Instr) : State :=
  if s.iss.nextIdx ≠ 0 then s
  else
    s.modGroup s.iss.core s.iss.frame fun g =>
      { (g.mapSlices s.iss.mask fun _ sl => { sl with pc := s.iss.nextPc, iidx := 0 }) with
        waits := g.waits ++ [⟨s.iss, i, g.seq, [], true, true⟩] }

/-- The instruction in issue waits under R221, recorded as waiting wherever it stands in its clause, with what it has read: that stays
as it was at issue however often the instruction is tried again (R214). -/
def State.waitLatched (s : State) (i : Instr) (vals : List Nat) : State :=
  s.modGroup s.iss.core s.iss.frame fun g =>
    let parked := s.iss.nextIdx == 0
    let g1 := if parked then g.mapSlices s.iss.mask fun _ sl => { sl with pc := s.iss.nextPc, iidx := 0 } else g
    { g1 with waits := g1.waits ++ [⟨s.iss, i, g.seq, vals, parked, true⟩] }

/-- An instruction that an event completes: recorded as waiting, the split parked at the next clause header
when it is last in its clause (R221). -/
def State.waitEvent (s : State) (i : Instr) (vals : List Nat) : State :=
  s.modGroup s.iss.core s.iss.frame fun g =>
    let parked := s.iss.nextIdx == 0
    let g1 := if parked then g.mapSlices s.iss.mask fun _ sl => { sl with pc := s.iss.nextPc, iidx := 0 } else g
    { g1 with waits := g1.waits ++ [⟨s.iss, i, g.seq, vals, parked, false⟩], seq := g.seq + 1 }

/-- The logged loads of a group are to be issued again before it issues anything further (R212). -/
def State.askReplay (s : State) (k f : Nat) : State :=
  (s.modGroup k f fun g => { g with replay := true }).prepend [.event (.replay k f)]

/-! ## The debugger's step (R177) -/

/-- The debugger's focus lane of a group: the lowest lane that has not exited where the named one has (R177, R278). -/
def Core.focusLane (c : Core) (g : Group) : Nat :=
  let f := c.dbgctl.toNat / 2 ^ 8 % 32
  let out := fun (l : Fin 32) => g.slices[sliceOfLane l].exited.getLsbD (l.val % 4)
  if ((List.finRange 32).any fun l => l.val == f && !out l) then f
  else match (List.finRange 32).find? fun l => !out l with | some l => l.val | none => f

/-- The split of a slice; a slice that waits at a junction, or has no lane left, stands for itself. -/
def Group.splitAt (g : Group) (slice : Nat) : BitVec 8 :=
  match (List.finRange 8).find? fun i => i.val == slice with
  | some i => if g.slices[i].idle then BitVec.ofNat 8 (2 ^ slice) else g.splitOf i
  | none => 0

/-- The first word after a clause whose instructions are the given words. -/
def clauseEndAt (pc : DWord) (ws : List Word) : DWord := pc + BitVec.ofNat 64 (4 * (2 + ws.length + ws.length % 2))

/-- The clause header that a slice comes to next: where it stands, or the end of the clause it stands in (R261). -/
def State.nextHeader (s : State) (k : Nat) (g : Group) (sl : Slice) : DWord :=
  if sl.iidx = 0 then sl.pc
  else
    match s.fetchHeader k g.ctx g.priv sl.pc with
    | .error _ => sl.pc
    | .ok (e, lo, hi) =>
      match decodeHeader lo hi with
      | none => sl.pc
      | some h => match s.fetchClause k g.ctx g.priv e sl.pc h.count.toNat with | .ok ws => clauseEndAt sl.pc ws | .error _ => sl.pc

/-- STEP of some slices of a group (R177, R261). For the handler it is taken at the next clause header, to which the handler returns at
index 0 (R261, R266): the split stands there at once, so that the step is one instruction, and what is left of its clause is not
executed. DESIGN CHOICE (log entry 75). -/
def State.raiseStep (s : State) (k f : Nat) (g : Group) (slice : Nat) : State :=
  let m := g.splitAt slice
  let sl := g.slices.toList.getD slice default
  let hdr := s.nextHeader k g sl
  if g.hdr.trapMode == 1 && !s.attached k g && !g.inHandler m then
    let g1 := g.mapSlices m fun _ x => { x with pc := hdr, iidx := 0 }
    (s.setGroup k f { g1 with due := g1.due ++ [⟨m, ⟨.step, .A, 0, hdr, slice, 0, none⟩, false⟩] }).modCore k fun c =>
      { c with slots := c.slots.map fun x => match x.hold with
          | some h => if h.frame = f ∧ h.mask &&& ~~~m = 0 then { x with hold := none } else x
          | none => x }
  else (s.modCore k fun c => { c with stepping := Sparse.erase c.stepping f }).raise k f m ⟨.step, .A, 0, hdr, slice, sl.iidx, none⟩

/-- A stepped instruction of some slices is complete: STEP is reported where one of them is the focus lane's and no part of the instruction
still waits (R177). After the EXIT of the focus lane the focus is another lane's. DESIGN CHOICE: where that lane's slice was in the split
that has exited, the step ends, that EXIT being its one instruction; else it goes on until the new focus split has issued one (log
entry 91). A focus slice that waits at its junction lets the other splits issue until it has issued one instruction. -/
def State.reportStep (s : State) (k f : Nat) (mask : BitVec 8) : State :=
  let c := s.core k
  match s.group? k f, Sparse.get? c.stepping f with
  | some g, some others =>
    let slice := c.focusLane g / 4
    if g.issues ∧ mask.getLsbD slice ∧ ¬ (g.waits.any fun w => w.iss.mask.getLsbD slice) ∧ ¬ (g.due.any fun d => d.flt.cause == .step) then
      s.raiseStep k f g slice
    else s.modCore k fun c => { c with stepping := Sparse.put c.stepping f (others || (g.slices.toList.getD slice default).idle) }
  | _, _ => s

/-- A wait of a group ends, its split goes on after the instruction, and the group changes; a step may be complete. -/
def State.endWait (s : State) (k f : Nat) (w : Wait) (u : Group → Group) : State :=
  (s.modGroup k f fun g => u (g.endWait w)).reportStep k f w.iss.mask

/-- The wait of a group in which a slice takes part. -/
def Group.waitOf (g : Group) (slice : Nat) : Option Wait := g.waits.find? fun w => w.iss.mask.getLsbD slice

end Sys2Proof.Machine
end

