-- ==== Sys2Proof/Machine/Operands.lean ====
section
/-! DEFINITION. Operand forms: what a source specifier reads (R46 to R51), which ages, scalars and slots an
instruction names, and the interlocks on them (R17, R21, R113). -/

namespace Sys2Proof

open Machine

/-- The float format of a float type's element. -/
def Ty.fmt : Ty → FFmt
  | .f16x2 => .f16
  | .bf16x2 => .bf16
  | .f64 => .f64
  | _ => .f32

/-- Elements of a value, the lowest first, by their width (R92). -/
def splitElems (w : Nat) : Nat → Nat → List Nat
  | 0, _ => []
  | n + 1, x => x % 2 ^ w :: splitElems w n (x / 2 ^ w)

/-- A value of its elements, the lowest first (R92). -/
def joinElems (w : Nat) : List Nat → Nat
  | [] => 0
  | x :: xs => x % 2 ^ w + 2 ^ w * joinElems w xs

/-- The elements of a value of a type (R92). -/
def Ty.elems (t : Ty) (x : Nat) : List Nat := splitElems t.width t.lanes x

/-- A value of a type from its elements (R92). -/
def Ty.join (t : Ty) (xs : List Nat) : Nat := joinElems t.width xs

/-- Words an operand of a use takes. -/
def Use.words : Use → Nat
  | .val t => if t.is64 then 2 else 1
  | .plain t => if t.is64 then 2 else 1
  | _ => 1

/-- Ages a specifier reads, `n` words from the named one on (R16). -/
def Operand.ages (o : Operand) (n : Nat) : List Nat :=
  match o.src with
  | .age k => (List.range n).map (k.toNat + ·)
  | _ => []

/-- One more than the highest scalar a specifier reads, 0 for none (R21). -/
def Operand.scalarTop (o : Operand) (n : Nat) : Nat :=
  match o.src with
  | .scalar i => i.toNat + n
  | _ => 0

end Sys2Proof

namespace Sys2Proof.Machine

open Sys2Proof

/-- What a source is read from: a lane, its group's scalars, the launch's constant bank, literal words. -/
structure Env where
  group : Group
  lane : Lane
  bank : List Byte
  lits : List Word
  deriving DecidableEq, Repr, Inhabited

/-- A word of the constant bank; beyond the block it reads zero (R35). -/
def bankWord (bank : List Byte) (i : Nat) : Word := BitVec.ofNat 32 (leNat ((bank.drop (4 * i)).take 4))

/-- Inline float constants 48 to 63 of a format (R49). DESIGN CHOICE: under f64 the constants 56 to 59 are rounded, and 63 is the
largest, in binary64, as R49 says of the element format; R145 says of an inline constant that it widens exactly (log entry 25). -/
def inlineFloat (f : FFmt) (i : Nat) : Nat :=
  let pick := fun (a b c d : Nat) => match f with | .f64 => d | .f16 => b | .bf16 => c | _ => a
  let enc := fun (neg : Bool) (m : Nat) (e : Int) => f.round .rne false neg m e false
  match i with
  | 48 => enc false 1 (-1)
  | 49 => enc false 1 (-2)
  | 50 => enc false 1 (-3)
  | 51 => enc false 3 (-1)
  | 52 => enc true 1 (-1)
  | 53 => enc false 5 (-1)
  | 54 => enc false 1 2
  | 55 => enc false 1 3
  | 56 => pick 0x3FB8AA3B 0x3DC5 0x3FB9 0x3FF71547652B82FE
  | 57 => pick 0x3F317218 0x398C 0x3F31 0x3FE62E42FEFA39EF
  | 58 => pick 0x40490FDB 0x4248 0x4049 0x400921FB54442D18
  | 59 => pick 0x3EA2F983 0x3518 0x3EA3 0x3FD45F306DC9C883
  | 60 => f.infCode false false
  | 61 => f.infCode false true
  | 62 => f.nanCode
  | _ => f.maxCode

/-- The integer an inline constant 0 to 47 stands for (R49). -/
def inlineInt (i : Nat) : Int := if i < 32 then i else 31 - (i : Int)

/-- An inline constant as a value of a type, in every element (R49). -/
def inlineBits (t : Ty) (i : Nat) : Nat :=
  let e := if t.isFloat then (if i < 48 then t.fmt.encode .rne false (ofInteger (inlineInt i)) else inlineFloat t.fmt i)
    else wrapInt t.width (inlineInt i)
  t.join (List.replicate t.lanes e)

/-- What a specifier names, read at a type, before its modifier (R46 to R49). -/
def Env.raw (e : Env) (t : Ty) (s : Src) : Nat :=
  let two := fun (lo hi : Word) => (DWord.ofWords lo hi).toNat
  match s with
  | .age k => if t.is64 then (e.lane.age64 k.toNat).toNat else (e.lane.age k.toNat).toNat
  | .scalar i => if t.is64 then (e.group.scalar64 i.toNat).toNat else (e.group.scalar i.toNat).toNat
  | .const i =>
    if t.is64 then two (bankWord e.bank i.toNat) (bankWord e.bank (i.toNat + 1)) else (bankWord e.bank i.toNat).toNat
  | .inline i => inlineBits t i.toNat
  | .lit0 => if t.is64 then two (e.lits.getD 0 0) (e.lits.getD 1 0) else (e.lits.getD 0 0).toNat
  | .lit1 => (e.lits.getD 1 0).toNat

/-- Modifiers 001 to 011 on one element (R50). -/
def modElem (t : Ty) (mod x : Nat) : Nat :=
  let half := 2 ^ (t.width - 1)
  if t.isFloat then
    match mod with
    | 1 => if x < half then x + half else x - half
    | 2 => x % half
    | 3 => x % half + half
    | _ => x
  else
    let v := sextNat t.width x
    match mod with
    | 1 => wrapInt t.width (-v)
    | 2 => wrapInt t.width (if v < 0 then -v else v)
    | 3 => wrapInt t.width (if v < 0 then v else -v)
    | _ => x

/-- The field of an entry that subfield mode selects (R51). -/
def subField (nfmt xx x : Nat) : Nat :=
  let w := nfmtWidth nfmt
  x / 2 ^ (if nfmtHi nfmt then 16 + w * xx else w * xx) % 2 ^ w

/-- A narrow field widened to a type (R51, R100, R102). -/
def widen (t : Ty) (nfmt x : Nat) : Nat :=
  let int : Int := if nfmtSigned nfmt then sextNat (nfmtWidth nfmt) x else x
  if t.isFloat then
    (if nfmtIsInt nfmt then FFmt.f32.encode .rne false (ofInteger int) else FFmt.f32.encode .rne false (nfmtDecode nfmt x))
  else if nfmtIsInt nfmt then wrapInt 32 int
  else toInt .rz true 32 t.isSigned (nfmtDecode nfmt x)

/-- A source read at a type with its modifier (R46 to R51). -/
def Env.read (e : Env) (t : Ty) (nfmt : Nat) (o : Operand) : Nat :=
  let x := e.raw t o.src
  let k := o.mod.toNat
  if k = 0 then x
  else if k < 4 then t.join ((t.elems x).map (modElem t k))
  else widen t nfmt (subField nfmt (k - 4) x)

/-- A source read as four bytes with a sign each, the modifier on each byte (R140). -/
def Env.readBytes (e : Env) (o : Operand) : Nat :=
  let x := e.raw .f32 o.src
  let one := fun b => match o.mod.toNat with
    | 1 => if b < 128 then b + 128 else b - 128
    | 2 => b % 128
    | 3 => b % 128 + 128
    | _ => b
  joinElems 8 ((splitElems 8 4 x).map one)

/-- A source by how it is used. -/
def Env.get (e : Env) (nfmt : Nat) (u : Use) (o : Operand) : Nat :=
  match u with
  | .val t => e.read t nfmt o
  | .plain t => e.raw t o.src
  | .small => (match o.src with | .inline i => i.toNat | _ => 0)
  | .bytes => e.readBytes o

/-! ## What an instruction names -/

def usesAges (us : List Use) (os : List Operand) : List Nat := (us.zip os).flatMap fun p => p.2.ages p.1.words
def usesTop (us : List Use) (os : List Operand) : Nat :=
  ((us.zip os).map fun p => p.2.scalarTop p.1.words).foldl Nat.max 0

/-- How a V instruction reads its sources. -/
def vUses (op : Nat) (f : VFields) : List Use := ((vRule op f).map (·.uses)).getD []
def sUses (op : Nat) (f : SFields) : List Use := ((sRule op f.ty).map (·.uses)).getD []
def gUses (op : Nat) (f : GFields) : List Use := ((gRule op f.ty).map (·.1)).getD []
def iUses (op : Nat) (f : IFields) : List Use := List.replicate (((iRule op).map (·.srcs)).getD 0) (.val f.ty)

/-- Words of an M instruction's DATA: a store's value, an atomic's operand, a compare and swap's pair (R201). -/
def mDataWords (op : Nat) (f : MFields) : Nat :=
  match op with
  | 0x00 | 0x02 | 0x03 => 0
  | 0x0F => if f.size = .b64 then 4 else 2
  | _ => if f.size = .b128 then 4 else if f.size = .b64 then 2 else 1

/-- Words of an M instruction's ADDR (R202). -/
def mAddrWords (f : MFields) : Nat := if f.space = .global then 2 else 1

/-- Words of a Y instruction's SRC (R73, R419). -/
def ySrcWords (op : Nat) (f : YFields) : Nat :=
  match op with
  | 0x04 | 0x08 | 0x22 => 1
  | 0x20 => if f.sub.toNat % 4 = 1 then 2 else 1
  | _ => 0

/-- Scalars of a Y instruction's SIDX block (R73, R299, R419). -/
def ySidxWords (op : Nat) : Nat :=
  match op with
  | 0x04 => 1
  | 0x08 | 0x0A | 0x0C => 2
  | 0x09 => 4
  | 0x20 | 0x22 => 3
  | 0x21 => 6
  | _ => 0

/-- The trail ages an instruction reads on each active lane (R17). RET and JOIN read by their own rules. -/
def formAges : Form → List Nat
  | .v op f => usesAges (vUses op f) [f.src0, f.src1, f.src2]
  | .save age _ => [age.toNat]
  | .i op f => usesAges (iUses op f) [f.src0, f.src1]
  | .m op f => f.addr.ages (mAddrWords f) ++ f.data.ages (mDataWords op f)
  | .bz _ c _ _ => c.ages 1
  | .calli _ idx _ => idx.ages 1
  | .g op f => usesAges (gUses op f) [f.src0, f.src1]
  | .y op f => f.src.ages (ySrcWords op f)
  | .pair f => f.a0.ages 1 ++ f.b0.ages 1 ++ f.a1.ages 1 ++ f.b1.ages 1
  | .join f => [f.sel0, f.sel1, f.sel2, f.sel3, f.sel4, f.sel5].take f.c.toNat |>.map (·.toNat)
  | _ => []

/-- One more than the highest scalar an instruction names, read or written (R21, R62, R67). -/
def formScalars : Form → Nat
  | .v op f => usesTop (vUses op f) [f.src0, f.src1, f.src2]
  | .i op f => usesTop (iUses op f) [f.src0, f.src1]
  | .s op f =>
    let d := match (sRule op f.ty).map (·.dst) with
      | some .single => f.dst.toNat + 1
      | some .byType => f.dst.toNat + (if f.ty.is64 then 2 else 1)
      | some .wide => f.dst.toNat + 2
      | _ => 0
    Nat.max (Nat.max d (usesTop (sUses op f) [f.srcA, f.srcB])) (if op = 0x01 then f.imm.toNat + 1 else 0)
  | .m op f => Nat.max (f.addr.scalarTop (mAddrWords f)) (f.data.scalarTop (mDataWords op f))
  | .e op f =>
    Nat.max (if f.hdst = 127 then 0 else f.hdst.toNat + 1) (if eBlock op = 0 then 0 else f.blk.toNat + eBlock op)
  | .x op f => if op = 0x0A ∨ op = 0x0B ∨ op = 0x0C then f.scale.toNat + 1 else 0
  | .bz _ c _ _ => c.scalarTop 1
  | .bs _ r _ => r.toNat + 1
  | .calli _ idx _ => idx.scalarTop 1
  | .g op f => Nat.max (usesTop (gUses op f) [f.src0, f.src1]) (if op = 0x00 then f.sdst.toNat + 1 else 0)
  | .y op f =>
    Nat.max (Nat.max (f.src.scalarTop (ySrcWords op f))
      (if ySidxWords op = 0 then 0 else f.sidx.toNat + ySidxWords op))
      (if op = 0x21 ∧ f.imm.toNat ≠ 127 then f.imm.toNat + 1 else 0)
  | .pair f => [f.a0, f.b0, f.a1, f.b1].map (·.scalarTop 1) |>.foldl Nat.max 0
  | .nest f =>
    Nat.max (f.sd.toNat + 1) (Nat.max (f.sa.toNat + 1) (if f.op.noB then 0 else f.sb.toNat + 1))
  | _ => 0

/-- The pantry slot an instruction names (R19). -/
def formSlot : Form → Option Nat
  | .get slot => some slot.toNat
  | .save _ slot => some slot.toNat
  | _ => none

/-- Limits of the kernel header that an instruction must keep to, else ILLOP (R19, R21). -/
def KHeader.allows (h : KHeader) (f : Form) : Bool :=
  decide (formScalars f ≤ h.scalars) &&
  match formSlot f with
  | some n => decide (n < h.pantry) && (h.full || decide (n < 32))
  | none => true

/-- Entries a V result takes (R114). -/
def vPushes (op : Nat) (f : VFields) : Nat :=
  match op with
  | 0x1D => 2
  | 0x29 | 0x2A | 0x2B | 0x47 | 0x48 => 1
  | 0x30 | 0x31 | 0x32 | 0x33 | 0x34 | 0x35 | 0x36 | 0x37 => 1
  | _ => if f.ty.is64 then 2 else 1

/-- Entries an instruction pushes on each active lane (R114, R174, R200, R221, R339, R420). -/
def formPushes : Form → Nat
  | .v op f => vPushes op f
  | .get _ => 1
  | .i op f => if op = 0x02 ∨ f.ty.is64 then 2 else 1
  | .m op f =>
    if op = 0x00 then (if f.size = .b128 then 4 else if f.size = .b64 then 2 else 1)
    else if op = 0x01 ∨ op = 0x02 ∨ op = 0x03 then 0
    else if f.size = .b64 then 2 else 1
  | .g op f =>
    if op = 0x00 then 0
    else if op = 0x03 ∨ op = 0x04 ∨ op = 0x05 ∨ op = 0x06 ∨ op = 0x07 then (if f.ty.is64 then 2 else 1) else 1
  | .e op _ => if op = 0x11 then 1 else 0
  | .y op _ => if op = 0x10 ∨ op = 0x11 then 2 else if op = 0x22 ∨ op = 0x04 then 1 else 0
  | .pair _ => 2
  | _ => 0

/-! ## Interlocks -/

/-- The requests that the active lanes of a split must wait for before an instruction: entries it reads, and
entries its pushes would come round to (R17). -/
def Group.blockedBy (g : Group) (mask : BitVec 8) (ages : List Nat) (pushes : Nat) : List Nat :=
  (g.activeLanes mask).flatMap fun l =>
    let lane := g.lanes[l]
    ages.filterMap lane.pendingReq ++
      (lane.pend.filter fun p => (lane.nextEntries pushes).contains p.entry).map (·.req)

/-- The first poisoned entry that an active lane of a split reads (R262). -/
def Group.poisonRead (g : Group) (mask : BitVec 8) (ages : List Nat) : Option PoisonMark :=
  (g.activeLanes mask).findSome? fun l => ages.findSome? (g.lanes[l].poisonAge ·)

/-- The constant bank of a group's launch (R35). -/
def State.bankOf (s : State) (g : Group) : List Byte := ((s.launch? g.launch).map (·.bank)).getD []

end Sys2Proof.Machine
end

