-- ==== Sys2Proof/Machine/Flags.lean ====
section
/-! DEFINITION. Results: integer results and their range (R115, R118 to R124), relations and classes (R125,
R126, R130), and the form a result is pushed in (R16, R113). -/

namespace Sys2Proof.Machine

open Sys2Proof

/-- The entries of a result, the low word first (R113). -/
def wordsOf (wide : Bool) (x : Nat) : List Word :=
  if wide then [BitVec.ofNat 32 x, BitVec.ofNat 32 (x / 2 ^ 32)] else [BitVec.ofNat 32 x]

/-! ## Integer results -/

/-- An element as an exact integer: signed for i-types (R115). -/
def intVal (t : Ty) (x : Nat) : Int := if t.isSigned then sextNat t.width x else x

/-- An exact result brought into a type's element (R115). -/
def keepInt (t : Ty) (sat : Bool) (x : Int) : Nat :=
  wrapInt t.width (if sat then clampInt (intMin t.width t.isSigned) (intMax t.width t.isSigned) x else x)

/-- An integer operation on three sources, element by element (R92, R115). -/
def intMap (t : Ty) (sat : Bool) (k : Int → Int → Int → Int) (x y z : Nat) : Nat :=
  t.join ((List.range t.lanes).map fun e =>
    let at' := fun v => intVal t ((t.elems v).getD e 0)
    keepInt t sat (k (at' x) (at' y) (at' z)))

/-- An integer result as pushed: narrowed, or kept in its type (R53, R104, R115). -/
def intResult (t : Ty) (nfmt : Nat) (narrow sat : Bool) (k : Int → Int → Int → Int) (x y z : Nat) : List Word :=
  if narrow then [narrowInt nfmt sat (k (intVal t x) (intVal t y) (intVal t z))]
  else wordsOf t.is64 (intMap t sat k x y z)

/-- The quotient of R119. -/
def divInt (t : Ty) (x y : Int) : Int :=
  if y = 0 then (if !t.isSigned then -1 else if x < 0 then -1 else 1) else Int.tdiv x y

/-- The remainder of R119. -/
def remInt (x y : Int) : Int := if y = 0 then x else Int.tmod x y

/-- The upper half of a product (R118). -/
def mulHi (t : Ty) (x y : Int) : Int := x * y / 2 ^ t.width

/-- An address: a 64-bit base and a shifted index of a type (R120, R131). -/
def leaSum (t : Ty) (base idx shift : Nat) : Nat :=
  wrapInt 64 (base + (if t.isSigned then sextNat 32 idx else (idx : Int)) * 2 ^ shift)

/-! ## Bits -/

/-- x << n in w bits (R121). -/
def shlBits (w x n : Nat) : Nat := if w ≤ n then 0 else x * 2 ^ n % 2 ^ w

/-- x >> n in w bits, with copies of the sign bit for a signed type (R121). -/
def shrBits (w : Nat) (signed : Bool) (x n : Nat) : Nat :=
  let m := Nat.min n w
  if signed then wrapInt w (sextNat w x / 2 ^ m) else x / 2 ^ m

/-- x rotated left (R121). -/
def rotlBits (w x n : Nat) : Nat :=
  let m := n % w
  (x * 2 ^ m + x / 2 ^ (w - m)) % 2 ^ w

/-- The bits of a value, the lowest first. -/
def bitsOf (w x : Nat) : List Bool := (List.range w).map x.testBit

def ofBits : List Bool → Nat
  | [] => 0
  | b :: bs => b.toNat + 2 * ofBits bs

/-- Set bits, leading zeros, trailing zeros, and the bits reversed (R121). -/
def popBits (w x : Nat) : Nat := (bitsOf w x).count true
def clzBits (w x : Nat) : Nat := ((bitsOf w x).reverse.takeWhile fun b => !b).length
def ctzBits (w x : Nat) : Nat := ((bitsOf w x).takeWhile fun b => !b).length
def revBits (w x : Nat) : Nat := ofBits (bitsOf w x).reverse

/-- The field of BFX (R122). -/
def bfxBits (signed : Bool) (x off wid : Nat) : Nat :=
  let o := off % 32
  let w := Nat.min (wid % 64) (32 - o)
  let v := x / 2 ^ o % 2 ^ w
  if w = 0 then 0 else if signed then wrapInt 32 (sextNat w v) else v

/-- The insertion of BFI (R122). -/
def bfiBits (x ins ctl : Nat) : Nat :=
  let o := ctl % 32
  let w := Nat.min (ctl / 256 % 64) (32 - o)
  x % 2 ^ o + ins % 2 ^ w * 2 ^ o + x / 2 ^ (o + w) * 2 ^ (o + w)

/-- The byte permutation of PERMB (R123). -/
def permBytes (x sel : Nat) : Nat :=
  joinElems 8 ((splitElems 8 4 sel).map fun s =>
    let b := x / 256 ^ (s % 4) % 256
    if s.testBit 7 then 0 else if s.testBit 6 then (if b.testBit 7 then 255 else 0) else b)

/-- The packing of PACK (R124). -/
def packElems (t : Ty) (sat : Bool) (x y : Nat) : Nat :=
  let from' := packSrc t
  t.join ((from'.elems x ++ from'.elems y).map fun e => keepInt t sat (intVal from' e))

/-! ## Relations -/

/-- The relations eq, ne, lt, le, gt and ge by their code (R125, R130). -/
def intRel (cc : Nat) (a b : Int) : Bool :=
  match cc with
  | 0 => decide (a = b)
  | 1 => decide (a ≠ b)
  | 2 => decide (a < b)
  | 3 => decide (a ≤ b)
  | 4 => decide (b < a)
  | _ => decide (b ≤ a)

/-- The same relations on IEEE values: none holds of a NaN (R125). -/
def floatRel (cc : Nat) (a b : FVal) : Bool :=
  !a.isNan && !b.isNan &&
  match cc with
  | 0 => a.numEq b
  | 1 => !a.numEq b
  | 2 => a.lt b
  | 3 => !b.lt a
  | 4 => b.lt a
  | _ => !a.lt b

/-- A compare at a type (R125). -/
def relBits (t : Ty) (cc x y : Nat) : Bool :=
  if t.isFloat then floatRel cc (t.fmt.decode x) (t.fmt.decode y) else intRel cc (intVal t x) (intVal t y)

/-- The entry of a truth value (R125). -/
def truth (b : Bool) : List Word := [if b then 1 else 0]

/-! ## Float results -/

/-- The elements of a source as values (R92). -/
def floatElems (t : Ty) (x : Nat) : List FVal := (t.elems x).map t.fmt.decode

/-- A float operation on three sources, element by element; a NaN result is the canonical one (R89, R92). -/
def floatMap (t : Ty) (rm : Rm) (sat : Bool) (k : FVal → FVal → FVal → FVal) (x y z : Nat) : Nat :=
  t.join ((List.range t.lanes).map fun e =>
    let at' := fun v => (floatElems t v).getD e .nan
    t.fmt.encode rm sat (k (at' x) (at' y) (at' z)))

end Sys2Proof.Machine
end

