-- ==== Sys2Proof/Machine/Gate.lean ====
section
/-! DEFINITION. The checks before an instruction in their order (R10, R76), its interlocks (R17, R262), and the
shapes of an instruction that acts on each active lane (R113) or once per issue (R23, R129). -/

namespace Sys2Proof.Machine

open Sys2Proof

/-- Whether a unit that a form needs is absent (R9). -/
def State.unitAbsent (s : State) : Form → Bool
  | .v op f =>
    !s.hasFp64 &&
    ((decide (0x30 ≤ op) && f.ty == .f64) || (decide (0x4A ≤ op ∧ op ≤ 0x4C) && cvtSrc f == .f64))
  | .x op f => !s.hasCbdec && (op == 0x03 || (op == 0x02 && f.fmtB == 5))
  | .e op f => !s.hasSubeng && (op == 0x08 || (op == 0x04 && f.var == 1))
  | .y op _ => !s.hasFabric && decide (0x20 ≤ op)
  | _ => false

/-- Whether a form needs privilege (R63, R67, R198, R278, R375). -/
def formPrivileged : Form → Bool
  | .s op f =>
    (op == 0x40 && ((sysRule f.imm.toNat).map (·.privRead)).getD false) ||
    (op == 0x41 && ((sysRule f.imm.toNat).map (·.privWrite)).getD false)
  | .e op _ => op == 0x07
  | _ => false

/-- Format checks at decoding (R54, R76). -/
def formFmtLegal : Form → Bool
  | .x op f => xFmtLegal op f
  | _ => true

/-- The first of the checks of R76 that an instruction of a group fails (R10, R19, R21, R76). -/
def State.checks (s : State) (g : Group) (i : Instr) : Option Cause :=
  let f := i.form
  if !i.wf || !g.hdr.allows f then some .illop
  else if !formFmtLegal f then some .fmtFault
  else if s.unitAbsent f then some .unitAbsent
  else if formPrivileged f && !g.priv then some .prot
  else none

/-- An instruction of the issuing group after its checks (R10, R76). -/
def State.checked (s : State) (i : Instr) (k : Group → Res) : Res :=
  match s.group? s.iss.core s.iss.frame with
  | none => .refused .noIssuer
  | some g =>
    match s.checks g i with
    | some c => .next (s.faultHere c 0)
    | none => k g

/-- The interlocks of an instruction: it waits for entries it reads or pushes into, and reports the fault of a logged or a
poisoned one (R17, R210, R262). -/
def State.unblocked (s : State) (i : Instr) (g : Group) (k : Res) : Res :=
  match g.blockedBy s.iss.mask (formAges i.form) (formPushes i.form) with
  | [] =>
    match g.poisonRead s.iss.mask (formAges i.form) with
    | some p => .next (s.faultPoison p)
    | none => k
  | ids => .next (s.waitFor g ids)

/-- An instruction of the issuing group after its checks and its interlocks (R17, R76, R210, R262). -/
def State.gate (s : State) (i : Instr) (k : Group → Res) : Res := s.checked i fun g => s.unblocked i g (k g)

/-- What the sources of a lane are read from. -/
def State.env (s : State) (g : Group) (l : Lane) (lits : List Word) : Env := ⟨g, l, s.bankOf g, lits⟩

/-- An instruction that pushes a result on each active lane at once (R113). -/
def State.laneOp (s : State) (i : Instr) (r : Group → Fin 32 → Lane → List Word) : Res :=
  s.gate i fun g => .next (s.finish (g.mapLanes s.iss.mask fun n l => l.emits (r g n l)))

/-- A request with nothing in it but its place (R17). -/
def Req.blank (s : State) (g : Group) (lane : Nat) : Req where
  id := s.nextReq
  op := s.nextOp
  kind := .load
  core := s.iss.core
  frame := s.iss.frame
  lane := lane
  seq := g.seq
  ctx := g.ctx
  va := 0
  pa := 0
  space := .global
  peer := s.iss.core
  size := 0
  order := .plain
  scope := .group
  hint := .normal
  data := []
  cmp := []
  sx := false
  entries := []
  flag := none
  dst := none
  clk := 0
  stage := .data
  wts := 0
  rts := 0
  soft := false
  dev := false
  poison := false
  pc := s.iss.pc
  inst := 0
  sdgen := 0
  sent := 0
  mask := s.iss.mask
  src := none
  wb := none
  dirty := none
  comp := false
  bits := 16
  line := []
  crossing := .none
  spoilt := false

/-- The next `n` pushes of a lane reserved for a request, which is sent off (R17). -/
def State.reserveFor (s : State) (lane : Fin 32) (n : Nat) (r : Req) : State :=
  match s.group? r.core r.frame with
  | none => s
  | some g =>
    let l := g.lanes[lane]
    let g' := { g with lanes := g.lanes.set lane (l.reserve s.nextReq n) }
    { s.setGroup r.core r.frame g' with
      reqs := s.reqs ++ [{ r with id := s.nextReq, entries := l.nextEntries n }], nextReq := s.nextReq + 1 }

/-- Results of a long-latency instruction without a flag: each active lane's entries are pending until its result
is ready (R17, R137). -/
def State.longOp (s : State) (i : Instr) (r : Group → Fin 32 → Lane → List Word) : Res :=
  s.gate i fun g =>
    let s1 := (g.activeLanes s.iss.mask).foldl (fun s n =>
      let ws := r g n g.lanes[n]
      s.reserveFor n ws.length { Req.blank s g n.val with kind := .long, data := wordsBytes ws }) s
    .next { s1.advance with nextOp := s1.nextOp + 1 }

/-- An instruction that writes scalars once per issue (R23, R129). -/
def State.scalarOp (s : State) (i : Instr) (u : Group → Group) : Res :=
  s.gate i fun g => .next (s.finish (u g))

/-- Sources SRC0 to SRC2 of a V instruction read on a lane (R46 to R51). -/
def State.vSrc (s : State) (op : Nat) (f : VFields) (g : Group) (l : Lane) : Nat × Nat × Nat :=
  let e := s.env g l f.lits
  let get := fun (j : Nat) (o : Operand) =>
    match (vUses op f)[j]? with
    | some u => e.get f.nfmt.toNat u o
    | none => 0
  (get 0 f.src0, get 1 f.src1, get 2 f.src2)

/-- Whether a V instruction is long-latency: f64 as its type or as a conversion's source, or a special function (R137). -/
def vLong (op : Nat) (f : VFields) : Bool :=
  f.ty == .f64 || (decide (0x4A ≤ op ∧ op ≤ 0x4C) && cvtSrc f == .f64) || decide (0x50 ≤ op ∧ op ≤ 0x59)

/-- A V instruction whose result is a function of its sources; every form with an f64 source or result and
every special function is long-latency (R113, R137). -/
def State.vOp (s : State) (i : Instr) (op : Nat) (f : VFields) (r : Nat → Nat → Nat → List Word) : Res :=
  let body := fun (g : Group) (_ : Fin 32) (l : Lane) =>
    let x := s.vSrc op f g l
    r x.1 x.2.1 x.2.2
  if vLong op f then s.longOp i body else s.laneOp i body

end Sys2Proof.Machine
end

