-- ==== Sys2Proof/Machine/Control.lean ====
section
/-! DEFINITION. Control flow: uniform and per-lane branches, JOIN and fusion, calls and returns, EXIT, BRK, TRAP
and ERET (R154 to R172, R269). -/

namespace Sys2Proof.Machine

open Sys2Proof

/-! ## Transfers -/

/-- The code address a signed number of words from the instruction (R157, R158, R167). -/
def State.relative (s : State) (words : Int) : DWord := s.iss.pc + BitVec.ofInt 64 (4 * words)

/-- The fault of a transfer to an address: none where its start bit is set (R44, R155). -/
def State.targetFault (s : State) (g : Group) (a : DWord) : Option (Cause × DWord) :=
  match s.startBit s.iss.core g.ctx g.priv a with
  | .error x => some x
  | .ok true => none
  | .ok false => some (.badTarget, a)

/-- The issuing split moved whole to an address (R155). -/
def State.jump (s : State) (g : Group) (a : DWord) : State :=
  s.setGroup s.iss.core s.iss.frame
    { (g.mapSlices s.iss.mask fun _ sl => { sl with pc := a, iidx := 0 }) with seq := g.seq + 1 }

/-- A uniform branch: the target is checked whether or not the split transfers (R157). -/
def State.uniform (s : State) (i : Instr) (off : Word) (test : Group → Bool) (u : Group → Group) : Res :=
  s.gate i fun g =>
    let t := s.relative off.toInt
    match s.targetFault g t with
    | some x => .next (s.faultHere x.1 x.2)
    | none => if test g then .next (s.jump (u g) t) else .next (s.finish (u g))

/-- BR (R157). -/
def execBr (off : Word) (s : State) : Res := s.uniform (.br off) off (fun _ => true) id

/-- BRSZ (R157). -/
def execBrsz (r : BitVec 7) (off : Word) (s : State) : Res :=
  s.uniform (.brsz r off) off (fun g => g.scalar r.toNat == 0) id

/-- BRSNZ (R157). -/
def execBrsnz (r : BitVec 7) (off : Word) (s : State) : Res :=
  s.uniform (.brsnz r off) off (fun g => g.scalar r.toNat != 0) id

/-- BRDEC: the scalar is lowered whether or not the split transfers (R157). -/
def execBrdec (r : BitVec 7) (off : Word) (s : State) : Res :=
  s.uniform (.brdec r off) off (fun g => g.scalar r.toNat - 1 != 0) fun g => g.setScalar r.toNat (g.scalar r.toNat - 1)

/-! ## Per-lane branches (R158 to R161) -/

/-- The four lanes of a slice in a lane mask. -/
def laneNibble (m : BitVec 32) (i : Fin 8) : BitVec 4 := (m >>> (4 * i.val)).setWidth 4

/-- A slice's four lanes as a lane mask. -/
def nibbleMask (n : BitVec 4) (i : Fin 8) : BitVec 32 := n.setWidth 32 <<< (4 * i.val)

/-- The active lanes of a split on which a predicate holds. -/
def Group.lanesWhere (g : Group) (mask : BitVec 8) (p : Lane → Bool) : BitVec 32 :=
  (g.activeLanes mask).foldl (fun m l => if p g.lanes[l] then m ||| BitVec.ofNat 32 (2 ^ l.val) else m) 0

/-- A per-lane branch after its checks: entry `e` opened, the slices of the split sent their ways (R159). -/
def State.fork (s : State) (g : Group) (e : Nat) (target junction : DWord) (take : BitVec 32) : State :=
  let mask := s.iss.mask
  let all := g.activeMask mask
  let low := lowSlice mask
  let onet := match g.activeLanes mask with | l :: _ => g.lanes[l].net | [] => 0
  let mixed := fun (i : Fin 8) =>
    mask.getLsbD i.val && laneNibble take i != 0 && laneNibble take i != laneNibble all i
  let dmask := (List.finRange 8).foldl (fun m i => if mixed i then m ||| nibbleMask (laneNibble take i) i else m) 0
  let entry : DivEntry := ⟨junction, if dmask = 0 then 0 else target, all, 0, dmask, onet, (g.slices.toList.getD low default).depth⟩
  let g1 := g.mapLanes mask fun _ l => { l with net := 0 }
  let g2 := g1.mapSlices mask fun i sl =>
    let t := laneNibble take i
    let a := laneNibble all i
    if t = a then { sl with pc := target, iidx := 0, dvtop := BitVec.ofNat 6 e }
    else { sl with pc := s.iss.nextPc, iidx := s.iss.nextIdx, active := a &&& ~~~t, dvtop := BitVec.ofNat 6 e }
  s.setGroup s.iss.core s.iss.frame { g2 with div := Sparse.put g2.div e entry, seq := g.seq + 1 }

/-- BRZ and BRNZ: `takes` says which condition words take the branch (R158, R159). Target, junction and depth are checked
before the condition is read (R178). -/
def State.perLane (s : State) (i : Instr) (c : Operand) (junc target : Int) (takes : Nat → Bool) : Res :=
  s.checked i fun g =>
    let t := s.relative target
    let j := s.relative junc
    match (s.targetFault g t).or (s.targetFault g j) with
    | some x => .next (s.faultHere x.1 x.2)
    | none =>
      if g.hdr.divDepth ≤ g.divDepth then .next (s.faultHere .stackOvf 0)
      else
        s.unblocked i g
          (.next (s.fork g g.divDepth t j (g.lanesWhere s.iss.mask fun l => takes ((s.env g l []).raw .b32 c.src))))

/-- BRZ (R158, R159). -/
def execBrz (c : Operand) (junc : BitVec 22) (target : BitVec 20) (s : State) : Res :=
  s.perLane (.brz c junc target) c junc.toInt target.toInt fun w => w == 0

/-- BRNZ (R158, R159). -/
def execBrnz (c : Operand) (junc : BitVec 22) (target : BitVec 20) (s : State) : Res :=
  s.perLane (.brnz c junc target) c junc.toInt target.toInt fun w => w != 0

/-! ## JOIN and fusion (R161 to R166) -/

/-- Lanes that have exited, as a lane mask (R27). -/
def Group.exitedMask (g : Group) : BitVec 32 :=
  (List.finRange 8).foldl (fun m i => m ||| nibbleMask g.slices[i].exited i) 0

/-- The parent of a divergence entry: 63 for none (R161). -/
def Group.parent (g : Group) (e : Nat) (d : DivEntry) : BitVec 6 :=
  let up := (g.div.filter fun p => decide (p.1 < e) && p.2.depth == d.depth && (p.2.pmask &&& d.pmask) == d.pmask).map (·.1)
  match up with
  | [] => 63
  | ks => BitVec.ofNat 6 (ks.foldl Nat.max 0)

/-- A slice back at the DEPTH of an entry: what lies above that level is left with the lanes that have exited there, a trap handler too
(R172, log entry 26). -/
def Group.backTo (g : Group) (i : Fin 8) (depth : Nat) : Group :=
  let bit := BitVec.ofNat 8 (2 ^ i.val)
  let levels := (List.range (g.slices[i].depth + 1)).filter (depth < ·)
  let left := levels.any fun j => (Sparse.get? g.traps (sliceKey j i.val)).isSome
  (levels.foldl (fun g j => g.dropRecs bit j) g).mapSlices bit fun _ sl =>
    { sl with depth := depth, handler := sl.handler && !left, skip := sl.skip && !left }

/-- An entry whose lanes have all arrived or exited fuses at its own DEPTH; unequal NETs fault JOINMIS at the junction before the
fused split issues (R164, R172). -/
def Group.fuse (g : Group) (e : Nat) : Group :=
  match g.divOpen e with
  | none => g
  | some d =>
    if d.pmask &&& ~~~(d.amask ||| g.exitedMask) ≠ 0 then g
    else
      let p := g.parent e d
      let inMask := fun (i : Fin 8) => laneNibble d.amask i != 0
      let g := ((List.finRange 8).filter inMask).foldl (fun g i => g.backTo i d.depth) g
      let sl := Vector.ofFn fun i : Fin 8 =>
        if inMask i then { g.slices[i] with active := laneNibble d.amask i, dvtop := p, pc := d.jpc, iidx := 0 }
        else g.slices[i]
      let nets := ((List.finRange 32).filter fun l => d.amask.getLsbD l.val).map fun l => g.lanes[l].net
      let bad := match nets with | [] => false | n :: ns => ns.any (· != n)
      let m := (List.finRange 8).foldl (fun m i => if inMask i then m ||| BitVec.ofNat 8 (2 ^ i.val) else m) 0
      { g with slices := sl, div := Sparse.erase g.div e, async := if bad then g.async ++ [⟨.joinMis, d.jpc, m⟩] else g.async }

/-- Every entry that can fuse, the innermost first (R164, R171). -/
def Group.fuseAll (g : Group) : Group := (List.range 63).foldr (fun e g => g.fuse e) g

/-- The slices of a split take up their deferred lanes at the entry's DPC where they have no active lane, and those
lanes leave DMASK (R163). -/
def Group.startDeferred (g : Group) (mask : BitVec 8) (e : Nat) : Group :=
  match g.divOpen e with
  | none => g
  | some d =>
    let take := fun (i : Fin 8) => mask.getLsbD i.val && g.slices[i].active == 0 && laneNibble d.dmask i != 0
    let sl := Vector.ofFn fun i : Fin 8 =>
      if take i then { g.slices[i] with active := laneNibble d.dmask i, pc := d.dpc, iidx := 0 } else g.slices[i]
    let rest := (List.finRange 8).foldl (fun m i => if take i then m &&& ~~~(nibbleMask 0xF i) else m) d.dmask
    { g with slices := sl, div := Sparse.put g.div e { d with dmask := rest, dpc := if rest = 0 then 0 else d.dpc } }

/-- The entry whose deferred lanes a slice without an active lane takes up after an EXIT: the innermost that has some, unless lanes of the
slice wait at the junction of an entry within it (R164, R172). -/
def Group.deferredIn (g : Group) (i : Fin 8) : Option (Nat × DivEntry) :=
  let has := fun (m : BitVec 32) => laneNibble m i != 0
  let es := g.div.filter fun p => has p.2.dmask || has (p.2.amask &&& ~~~g.exitedMask)
  (es.foldl (fun b p => match b with | some q => if q.1 < p.1 then some p else b | none => some p) (none : Option (Nat × DivEntry))).filter
    fun p => has p.2.dmask

/-- A slice takes up its deferred lanes of an entry, at the entry's DPC and DEPTH (R172). -/
def Group.takeDeferred (g : Group) (i : Fin 8) (e : Nat) (d : DivEntry) : Group :=
  let rest := d.dmask &&& ~~~nibbleMask 0xF i
  let g1 := (g.backTo i d.depth).mapSlices (BitVec.ofNat 8 (2 ^ i.val)) fun _ sl =>
    { sl with active := laneNibble d.dmask i, pc := d.dpc, iidx := 0, dvtop := BitVec.ofNat 6 e }
  { g1 with div := Sparse.put g1.div e { d with dmask := rest, dpc := if rest = 0 then 0 else d.dpc } }

/-- The slices of a split that an EXIT leaves without an active lane start their deferred lanes, so that none of them stays waiting
(R172). -/
def Group.afterExit (g : Group) (mask : BitVec 8) : Group :=
  (slicesOf mask).foldl (fun g i =>
    if g.slices[i].active != 0 then g
    else match g.deferredIn i with
      | some (e, d) => g.takeDeferred i e d
      | none => g) g

/-- The selected ages of a JOIN, SEL0 first (R162). -/
def joinSels (f : JoinFields) : List Nat :=
  ([f.sel0, f.sel1, f.sel2, f.sel3, f.sel4, f.sel5].take f.c.toNat).map (·.toNat)

/-- A lane's trail after JOIN: its fork-time trail with the selected values on top (R163). -/
def Lane.join (l : Lane) (sels : List Nat) (onet : BitVec 8) : Lane :=
  let vs := sels.map l.age
  let l1 := { l with head := l.head - l.net.setWidth 5 }
  { (vs.foldl Lane.push l1) with net := onet + BitVec.ofNat 8 sels.length }

/-- The requests that a JOIN waits for: entries it selects, and entries that its pushes onto the fork-time trail come round to
(R17, R163). -/
def Group.joinBlocked (g : Group) (mask : BitVec 8) (sels : List Nat) : List Nat :=
  (g.activeLanes mask).flatMap fun n =>
    let l := g.lanes[n]
    let fork := { l with head := l.head - l.net.setWidth 5 }
    sels.filterMap l.pendingReq ++ (l.pend.filter fun p => (fork.nextEntries sels.length).contains p.entry).map (·.req)

/-- The interlocks of a JOIN (R17, R163, R262). -/
def State.joinReady (s : State) (g : Group) (sels : List Nat) (k : Res) : Res :=
  match g.joinBlocked s.iss.mask sels with
  | [] =>
    match g.poisonRead s.iss.mask sels with
    | some p => .next (s.faultPoison p)
    | none => k
  | ids => .next (s.waitFor g ids)

/-- JOIN (R163). -/
def execJoin (f : JoinFields) (s : State) : Res :=
  s.checked (.join f) fun g =>
    let mask := s.iss.mask
    let top := (g.slices.toList.getD (lowSlice mask) default).dvtop
    match g.divOpen top.toNat with
    | none => .next (s.faultHere .joinMis s.iss.pc)
    | some d =>
      if (g.activeLanes mask).any fun l => g.lanes[l].net != f.d then .next (s.faultHere .joinMis d.jpc)
      else
        s.joinReady g (joinSels f) <|
          let g1 := g.mapLanes mask fun _ l => l.join (joinSels f) d.onet
          let g2 := { g1 with div := Sparse.put g1.div top.toNat { d with amask := d.amask ||| g.activeMask mask } }
          let g3 := g2.mapSlices mask fun _ sl => { sl with pc := d.jpc, iidx := 0, active := 0 }
          .next (s.setGroup s.iss.core s.iss.frame { (g3.startDeferred mask top.toNat).fuseAll with seq := g.seq + 1 })

/-! ## Calls and returns (R32, R33, R167 to R170) -/

/-- Requests that entries of the active lanes of a split wait for (R167, R170, R269). -/
def Group.allPending (g : Group) (mask : BitVec 8) : List Nat :=
  (g.activeLanes mask).flatMap fun l => g.lanes[l].pend.map (·.req)

/-- Wait for every pending entry of the active lanes (R167, R170). -/
def State.settled (s : State) (g : Group) (k : Res) : Res :=
  match g.allPending s.iss.mask with
  | [] => k
  | ids => .next (s.waitFor g ids)

/-- The fault of a poisoned entry among the top ages of the active lanes (R262). -/
def State.clean (s : State) (g : Group) (ages : Nat) (k : Res) : Res :=
  match g.poisonRead s.iss.mask (List.range ages) with
  | some p => .next (s.faultPoison p)
  | none => k

/-- The shadow freed for another call; a page of the call stack that does not serve faults the instruction (R34, log entry 9). -/
def State.spilled (s : State) (g : Group) (k : State → Group → Res) : Res :=
  match s.spill s.iss.core g with
  | .error x => .next ((s.noteSpill s.iss.core g).faultHere x.1 x.2)
  | .ok p => k p.1 p.2

/-- The TLBs after the call records of the split at its level have been read: those that memory holds (R34, R374). -/
def State.noteRecs (s : State) (g : Group) : State :=
  if g.recsHeld s.iss.mask then s
  else s.notePages s.iss.core g.ctx (g.recAt (g.slices.toList.getD (lowSlice s.iss.mask) default).depth) 4352

/-- The call records of the split at its level (R32, R34, log entry 9). -/
def State.fetched (s : State) (g : Group) (k : State → Group → Res) : Res :=
  let t := s.noteRecs g
  match s.fetchRecs s.iss.core g s.iss.mask s.iss.pc with
  | .error x => .next (t.faultHere x.1 x.2)
  | .ok h => k t h

/-- The top ages of a lane, the oldest first (R33). -/
def Lane.topAges (l : Lane) (n : Nat) : List Word := (List.range n).reverse.map l.age

/-- Whether a slice of a mask stands at the kernel's call depth (R33). -/
def Group.callFull (g : Group) (mask : BitVec 8) : Bool :=
  (slicesOf mask).any fun i => decide (g.hdr.callDepth ≤ g.slices[i].depth)

/-- The call of the issuing split's slices of a mask to an address (R33, R156). -/
def State.callOut (s : State) (g : Group) (mask : BitVec 8) (n : Nat) (target : DWord) : Group :=
  g.callInto mask n (fun _ l => l.topAges n) (fun _ => (s.iss.clauseEnd, 0)) none target

/-- CALL (R33, R167). -/
def execCall (n : BitVec 4) (off : Word) (s : State) : Res :=
  s.gate (.call n off) fun g =>
    let t := s.relative off.toInt
    match s.targetFault g t with
    | some x => .next (s.faultHere x.1 x.2)
    | none =>
      if g.callFull s.iss.mask then .next (s.faultHere .stackOvf 0)
      else
        s.settled g <| s.clean g n.toNat <| s.spilled g fun s1 g1 =>
          .next (s1.setGroup s.iss.core s.iss.frame { s.callOut g1 s.iss.mask n.toNat t with seq := g.seq + 1 })

/-- The callee of a table index, or the fault of its checks (R169). -/
def State.callee (s : State) (g : Group) (sig : Word) (i : Nat) : Except (Cause × DWord) DWord :=
  let at' := BitVec.ofNat 64 i
  if s.ftLen g.ctx ≤ i then .error (.badTarget, at')
  else
    match s.ftEntry s.iss.core g.ctx g.priv i with
    | .error x => .error x
    | .ok e =>
      if !e.valid then .error (.badTarget, at')
      else if e.sig ≠ sig then .error (.sigMis, at')
      else
        match s.targetFault g e.addr with
        | some (.badTarget, _) => .error (.badTarget, at')
        | some x => .error x
        | none => .ok e.addr

/-- The first fault of a list of indices in order. -/
def State.calleeFault (s : State) (g : Group) (sig : Word) : List Nat → Option (Cause × DWord)
  | [] => none
  | i :: is =>
    match s.callee g sig i with
    | .error x => some x
    | .ok _ => State.calleeFault s g sig is

/-- The index that each slice of a split names, the lowest active lane's, and whether its lanes all name it. -/
def State.sliceIndex (s : State) (g : Group) (idx : Operand) (i : Fin 8) : Option (Nat × Bool) :=
  let vs := ((List.finRange 32).filter fun l => l.val / 4 == i.val && g.laneActive l).map fun l =>
    (s.env g g.lanes[l] []).raw .n32 idx.src
  match vs with
  | [] => none
  | v :: rest => some (v, rest.all (· == v))

/-- CALLI (R168, R169). -/
def execCalli (n : BitVec 4) (idx : Operand) (sig : Word) (s : State) : Res :=
  s.gate (.calli n idx sig) fun g =>
    let named := (slicesOf s.iss.mask).filterMap fun i => (s.sliceIndex g idx i).map fun p => (i, p)
    match named.find? fun p => !p.2.2 with
    | some p => .next (s.faultHere .badTarget (BitVec.ofNat 64 p.2.1))
    | none =>
      let is := (named.map fun p => p.2.1).foldl insertNat []
      match s.calleeFault g sig is with
      | some x => .next (s.faultHere x.1 x.2)
      | none =>
        if g.callFull s.iss.mask then .next (s.faultHere .stackOvf 0)
        else
          let go := fun (h : Group) (i : Nat) =>
            let m := (named.filter fun p => p.2.1 == i).foldl (fun m p => m ||| BitVec.ofNat 8 (2 ^ p.1.val)) (0 : BitVec 8)
            match s.callee g sig i with
            | .ok a => s.callOut h m n.toNat a
            | .error _ => h
          s.settled g <| s.clean g n.toNat <| s.spilled g fun s1 g1 =>
            .next (s1.setGroup s.iss.core s.iss.frame { is.foldl go g1 with seq := g.seq + 1 })

/-- The call record of a slice at its level, once the tables hold it (R32). -/
def Group.sliceRec (g : Group) (i : Fin 8) : SliceRec :=
  (Sparse.get? g.sliceRecs (sliceKey g.slices[i].depth i.val)).getD ⟨0, 0, 0, 0, 63, 0, false⟩

/-- The active lanes of a split restored from their records, with entries pushed after (R170, R269). -/
def Group.restoreLanes (g : Group) (mask : BitVec 8) (ret : Lane → List Word) : Group :=
  g.mapLanes mask fun n l =>
    match Sparse.get? g.laneRecs (laneKey g.slices[sliceOfLane n].depth n.val) with
    | some r => (l.ofRec r).emits (ret l)
    | none => l

/-- The JPC of the innermost open entry of a split, of its lowest slice that has one (R170). -/
def Group.openJpc (g : Group) (mask : BitVec 8) : Option DWord :=
  ((slicesOf mask).find? fun i => g.slices[i].dvtop != 63).map fun i =>
    ((g.divOpen g.slices[i].dvtop.toNat).map (·.jpc)).getD 0

/-- The first start-map fault of the recorded return addresses of a split (R44, R170). -/
def State.returnFault (s : State) (g : Group) : Option (Cause × DWord) :=
  (slicesOf s.iss.mask).findSome? fun i => s.targetFault g (g.sliceRec i).retPc

/-- The split goes back to its callers: lanes restored with results pushed, slices at their return points one level up, their
records used up (R170, R269). -/
def Group.leave (g : Group) (mask : BitVec 8) (ret : Lane → List Word) (u : Fin 8 → Slice → Slice) : Group :=
  let level := (g.slices.toList.getD (lowSlice mask) default).depth
  let g1 := (g.restoreLanes mask ret).mapSlices mask fun i sl =>
    let r := g.sliceRec i
    u i { sl with pc := r.retPc, iidx := 0, depth := sl.depth - 1, dvtop := r.dvtop, active := r.active &&& ~~~sl.exited }
  g1.dropRecs mask level

/-- RET (R170). -/
def execRet (n : BitVec 4) (s : State) : Res :=
  s.checked (.ret n) fun g =>
    if (slicesOf s.iss.mask).any fun i => g.slices[i].depth == 0 then .next (s.faultHere .badTarget 0)
    else
      match g.openJpc s.iss.mask with
      | some j => .next (s.faultHere .joinMis j)
      | none =>
        s.settled g <| s.fetched g fun t h =>
          match s.returnFault h with
          | some x => .next (t.faultHere x.1 x.2)
          | none =>
            s.clean g n.toNat
              (.next (t.setGroup s.iss.core s.iss.frame { h.leave s.iss.mask (fun l => l.topAges n.toNat) (fun _ sl => sl) with seq := g.seq + 1 }))

/-! ## EXIT, YIELD, NOP, BRK and TRAP (R171, R172) -/

/-- EXIT (R27, R171, R172). A slice that is left without an active lane starts its deferred lanes: those of its DVTOP entry, and where
that has none of it, those of an outer entry, since R172 leaves no taken lanes waiting (log entry 26). -/
def execExit (s : State) : Res :=
  s.gate .exit fun g =>
    let g1 := g.mapSlices s.iss.mask fun _ sl =>
      { sl with exited := sl.exited ||| sl.active, active := 0, pc := s.iss.nextPc, iidx := s.iss.nextIdx }
    .next (s.setGroup s.iss.core s.iss.frame { (g1.afterExit s.iss.mask).fuseAll with seq := g.seq + 1 })

/-- YIELD: at its next arbitration the slot places this gang last, once (R171, R193). -/
def execYieldGang (s : State) : Res :=
  s.gate .yieldGang fun g => .next (s.finish (g.mapSlices s.iss.mask fun _ sl => { sl with yielded := true }))

/-- NOP (R171). -/
def execNop (s : State) : Res := s.gate .nop fun g => .next (s.finish g)

/-- BRK: the fault BRK with the immediate as its address (R171). -/
def execBrk (imm : BitVec 16) (s : State) : Res :=
  s.gate (.brk imm) fun _ => .next (s.faultHere .brk (imm.setWidth 64))

/-- TRAP: the fault TRAP with the immediate as its address (R171). -/
def execTrap (imm : BitVec 16) (s : State) : Res :=
  s.gate (.trap imm) fun _ => .next (s.faultHere .trap (imm.setWidth 64))

/-! ## ERET (R269) -/

/-- The logged load that a fault of kind L reports is skipped: its entries read zero and the log entry is free. Of a POISON the entries of
its instruction that are marked read zero on the lanes of the split (R269, log entry 18). -/
def State.skipLogged (s : State) (k f : Nat) (mask : BitVec 8) (flt : FaultRec) : State :=
  match s.group? k f with
  | none => s
  | some g =>
    let of' := fun (e : LogEntry) (r : Req) => r.op == e.op && r.stage == .logged
    match g.log.find? fun e => flt.op == some e.op with
    | some e =>
      let s1 := (s.reqs.filter (of' e)).foldl (fun (t : State) r => t.fillReq k f r.lane r.id r.entries (List.replicate r.entries.length 0)) s
      { s1.modGroup k f (fun g => { g with log := g.log.filter fun x => x.op != e.op }) with reqs := s1.reqs.filter fun r => !of' e r }
    | none =>
      let clear := fun (i : Fin 32) (l : Lane) =>
        if mask.getLsbD (i.val / 4) then (l.poison.filter fun p => p.pc == flt.pc).foldl (fun l p => l.setEntry p.entry 0) l else l
      if flt.cause ≠ .poison then s
      else s.setGroup k f { g with lanes := Vector.ofFn fun i => clear i g.lanes[i], sPoison := g.sPoison.filter fun p => p.pc != flt.pc }

/-- Where a slice resumes after a fault with a choice of skip (R269): a kind P fault skipped goes on at the
instruction after it. -/
def resumeIdx (flt : Option FaultRec) (skip : Bool) (idx : Nat) : Nat :=
  match flt.map FaultRec.kind with
  | some FaultKind.L => idx
  | some FaultKind.H => 0
  | some FaultKind.A => 0
  | _ => if skip then idx + 1 else idx

/-- A resume after a kind L fault, once its slices stand at their resume points: the logged loads are replayed, or
filled with zeros (R212, R269). -/
def State.resumeLogged (s : State) (k f : Nat) (mask : BitVec 8) (flt : Option FaultRec) (skip : Bool) : State :=
  match flt with
  | some r => if r.kind = .L then (if skip then s.skipLogged k f mask r else s.askReplay k f) else s
  | none => s

/-- The fault that the trap record of a slice was written for (R266, R269). -/
def Group.trapOf (g : Group) (i : Fin 8) : Option FaultRec := Sparse.get? g.traps (sliceKey g.slices[i].depth i.val)

/-- The trap records of some slices, each with its slices and the SKIP that they have for it (R266, R269). -/
def Group.trapSets (g : Group) (mask : BitVec 8) : List (FaultRec × Bool × BitVec 8) :=
  let of' := fun (i : Fin 8) => (g.trapOf i).map fun r => (r, g.slices[i].skip)
  let keys := (slicesOf mask).foldl (fun l i => match of' i with | some x => if l.contains x then l else l ++ [x] | none => l) []
  keys.map fun x => (x.1, x.2, (slicesOf mask).foldl (fun m i => if of' i = some x then m ||| BitVec.ofNat 8 (2 ^ i.val) else m) 0)

/-- ERET (R269). -/
def execEret (s : State) : Res :=
  s.checked .eret fun g =>
    let mask := s.iss.mask
    let ss := slicesOf mask
    if ss.any fun i => !g.slices[i].handler then .next (s.faultHere .prot 0)
    else
      match g.openJpc mask with
      | some j => .next (s.faultHere .joinMis j)
      | none =>
        s.fetched g fun t h =>
          if ss.any fun i => !(h.sliceRec i).trapRec then .next (t.faultHere .prot 0)
          else
            s.settled g <|
              match s.returnFault h with
              | some x => .next (t.faultHere x.1 x.2)
              | none =>
                let g2 := { h.leave mask (fun _ => []) (fun i sl =>
                  { sl with iidx := resumeIdx (g.trapOf i) sl.skip (h.sliceRec i).ridx, handler := false, skip := false }) with seq := g.seq + 1 }
                let s1 := t.setGroup s.iss.core s.iss.frame g2
                match ss.findSome? fun i => if g.slices[i].skip then (g.trapOf i).filter fun r => r.kind == .H else none with
                | some r => .next (s1.stopFaulted s.iss.core s.iss.frame g2 r false false)
                | none =>
                  .next ((g.trapSets mask).foldl (fun (t : State) p => t.resumeLogged s.iss.core s.iss.frame p.2.2 (some p.1) p.2.1) s1)

end Sys2Proof.Machine
end

