-- ==== Sys2Proof/Machine/Cross.lean ====
section
/-! DEFINITION. Group operations among the active lanes of a split (R110, R173 to R175). -/

namespace Sys2Proof.Machine

open Sys2Proof

/-- SRC0 of a G instruction on a lane, read at its type (R173). -/
def State.gSrc (s : State) (op : Nat) (f : GFields) (g : Group) (l : Fin 32) : Nat :=
  let e := s.env g g.lanes[l] []
  match (gUses op f)[0]? with
  | some u => e.get 0 u f.src0
  | none => 0

/-- SRC1 of a shuffle on the reading lane, an n32 word (R175). -/
def State.gArg (s : State) (f : GFields) (g : Group) (l : Lane) : Nat := (s.env g l []).raw .n32 f.src1.src

/-- The value of a lane of the split, none for a missing lane (R173). -/
def State.gLane (s : State) (op : Nat) (f : GFields) (g : Group) (n : Nat) : Option Nat :=
  if h : n < 32 then (if g.on s.iss.mask ⟨n, h⟩ then some (s.gSrc op f g ⟨n, h⟩) else none) else none

/-- The values of the 32 lanes in ascending order (R173). -/
def State.gAll (s : State) (op : Nat) (f : GFields) (g : Group) : List (Option Nat) :=
  (List.range 32).map (s.gLane op f g)

/-- Lanes that satisfy a predicate, as a mask. -/
def maskWhere (vs : List (Option Nat)) (p : Nat → Bool) : Nat :=
  ofBits (vs.map fun v => match v with | some x => p x | none => false)

/-- BALLOT (R174, R175). -/
def execBallot (f : GFields) (s : State) : Res :=
  s.scalarOp (.ballot f) fun g =>
    g.setScalar f.sdst.toNat (BitVec.ofNat 32 (maskWhere (s.gAll 0x00 f g) fun x => x != 0))

/-- VANY (R174). -/
def execVany (f : GFields) (s : State) : Res :=
  s.laneOp (.vany f) fun g _ _ => truth ((s.gAll 0x01 f g).any fun v => (v.getD 0) != 0)

/-- VALL (R174). -/
def execVall (f : GFields) (s : State) : Res :=
  s.laneOp (.vall f) fun g _ _ => truth ((s.gAll 0x02 f g).all fun v => (v.getD 1) != 0)

/-- A shuffle: the value of the lane that a lane names, its own where that lane is missing (R174, R175). -/
def State.shuffle (s : State) (i : Instr) (op : Nat) (f : GFields) (src : Nat → Nat → Option Nat) : Res :=
  s.laneOp i fun g n l =>
    let own := s.gSrc op f g n
    let v := ((src n.val (s.gArg f g l)).bind (s.gLane op f g)).getD own
    wordsOf f.ty.is64 v

/-- SHFL (R174). -/
def execShfl (f : GFields) (s : State) : Res := s.shuffle (.shfl f) 0x03 f fun _ j => some (j % 32)

/-- SHFLX (R174). -/
def execShflx (f : GFields) (s : State) : Res := s.shuffle (.shflx f) 0x04 f fun n m => some (n ^^^ (m % 32))

/-- SHFLUP (R174, R175). -/
def execShflup (f : GFields) (s : State) : Res :=
  s.shuffle (.shflup f) 0x05 f fun n k => if k ≤ n then some (n - k) else none

/-- SHFLDN (R174, R175). -/
def execShfldn (f : GFields) (s : State) : Res :=
  s.shuffle (.shfldn f) 0x06 f fun n k => if n + k < 32 then some (n + k) else none

/-- BCAST (R174). -/
def execBcast (f : GFields) (s : State) : Res :=
  s.laneOp (.bcast f) fun g n _ =>
    wordsOf f.ty.is64 ((s.gLane 0x07 f g (f.imm.toNat % 32)).getD (s.gSrc 0x07 f g n))

/-- One addition of a reduction: a single rounded to nearest, or an integer modulo 2^32 (R110, R175). -/
def addStep (t : Ty) (x y : Nat) : Nat :=
  if t = .f32 then FFmt.f32.encode .rne false (sumExact .rne [FFmt.f32.decode x, FFmt.f32.decode y]) else (x + y) % 2 ^ 32

/-- What a missing lane adds (R174). -/
def addIdentity (t : Ty) : Nat := if t = .f32 then 0x80000000 else 0

/-- The sum over the first `n` lanes in ascending order, lane 0 first (R110). -/
def sumLanes (t : Ty) (vs : List (Option Nat)) (n : Nat) : Nat :=
  match (vs.take n).map fun v => v.getD (addIdentity t) with
  | [] => addIdentity t
  | x :: xs => xs.foldl (addStep t) (if t = .f32 then FFmt.f32.encode .rne false (FFmt.f32.decode x) else x)

/-- The least or the greatest value of the lanes (R174, R175). -/
def extremeOf (t : Ty) (greatest : Bool) (vs : List (Option Nat)) : Nat :=
  let xs := vs.filterMap id
  if t = .f32 then
    FFmt.f32.encode .rne false
      ((xs.map FFmt.f32.decode).foldl (fun a b => if greatest then fmax a b else fmin a b) .nan)
  else
    match xs with
    | [] => 0
    | x :: xs => xs.foldl (fun a b =>
        let less := decide (intVal t a < intVal t b)
        if less == greatest then b else a) x

/-- REDADD (R110, R174, R175). -/
def execRedadd (f : GFields) (s : State) : Res :=
  s.laneOp (.redadd f) fun g _ _ => wordsOf false (sumLanes f.ty (s.gAll 0x08 f g) 32)

/-- REDMIN (R174, R175). -/
def execRedmin (f : GFields) (s : State) : Res :=
  s.laneOp (.redmin f) fun g _ _ => wordsOf false (extremeOf f.ty false (s.gAll 0x09 f g))

/-- REDMAX (R174, R175). -/
def execRedmax (f : GFields) (s : State) : Res :=
  s.laneOp (.redmax f) fun g _ _ => wordsOf false (extremeOf f.ty true (s.gAll 0x0A f g))

/-- SCANADD: inclusive, or exclusive with IMM17 1 (R110, R174, R175). -/
def execScanadd (f : GFields) (s : State) : Res :=
  s.laneOp (.scanadd f) fun g n _ =>
    wordsOf false (sumLanes f.ty (s.gAll 0x0B f g) (if f.imm.toNat % 2 = 1 then n.val else n.val + 1))

/-- MATCH: bit patterns compared (R174, R175). -/
def execMatchLanes (f : GFields) (s : State) : Res :=
  s.laneOp (.matchLanes f) fun g n _ =>
    let own := s.gSrc 0x0C f g n
    wordsOf false (maskWhere (s.gAll 0x0C f g) fun x => x == own)

/-- RANK (R174). -/
def execRank (f : GFields) (s : State) : Res :=
  s.laneOp (.rank f) fun g n _ =>
    wordsOf false (((s.gAll 0x0D f g).take n.val).filter fun v => (v.getD 0) != 0).length

end Sys2Proof.Machine
end

