-- ==== Sys2Proof/Machine/Scalar.lean ====
section
/-! DEFINITION. Register-to-register scalar instructions (R129 to R131). -/

namespace Sys2Proof.Machine

open Sys2Proof

/-- Sources SRCA and SRCB of an S instruction as they stand at issue (R23, R129). -/
def State.sSrc (s : State) (op : Nat) (f : SFields) (g : Group) : Nat × Nat :=
  let e := s.env g Lane.start f.lits
  let get := fun (j : Nat) (o : Operand) =>
    match (sUses op f)[j]? with
    | some u => e.get 0 u o
    | none => 0
  (get 0 f.srcA, get 1 f.srcB)

/-- DST written, or DST and DST + 1 for a 64-bit value (R129). -/
def Group.setDst (g : Group) (dst : BitVec 7) (wide : Bool) (x : Nat) : Group :=
  if wide then g.setScalar64 dst.toNat (BitVec.ofNat 64 x) else g.setScalar dst.toNat (BitVec.ofNat 32 x)

/-- An S instruction whose DST takes a function of its sources (R23, R129). -/
def State.sOp (s : State) (i : Instr) (op : Nat) (f : SFields) (wide : Bool) (r : Group → Nat → Nat → Nat) : Res :=
  s.scalarOp i fun g => let x := s.sSrc op f g; g.setDst f.dst wide (r g x.1 x.2)

/-- An S instruction with an integer result that wraps (R115, R130). -/
def State.sInt (s : State) (i : Instr) (op : Nat) (f : SFields) (k : Int → Int → Int) : Res :=
  s.sOp i op f f.ty.is64 fun _ a b => keepInt f.ty false (k (intVal f.ty a) (intVal f.ty b))

/-- An S instruction whose result is of its type's width (R130). -/
def State.sBits (s : State) (i : Instr) (op : Nat) (f : SFields) (k : Nat → Nat → Nat) : Res :=
  s.sOp i op f f.ty.is64 fun _ a b => k a b

/-- SMOV (R130). -/
def execSmov (f : SFields) (s : State) : Res :=
  s.sBits (.smov f) 0x00 f fun a _ => a

/-- SSEL: by a scalar of 32 bits (R130, R131). -/
def execSsel (f : SFields) (s : State) : Res :=
  s.sOp (.ssel f) 0x01 f f.ty.is64 fun g a b =>
    if g.scalar f.imm.toNat ≠ 0 then a else b

/-- SADD (R130). -/
def execSadd (f : SFields) (s : State) : Res :=
  s.sInt (.sadd f) 0x10 f fun a b => a + b

/-- SSUB (R130). -/
def execSsub (f : SFields) (s : State) : Res :=
  s.sInt (.ssub f) 0x11 f fun a b => a - b

/-- SMUL (R130). -/
def execSmul (f : SFields) (s : State) : Res :=
  s.sInt (.smul f) 0x12 f fun a b => a * b

/-- SMULHI (R130). -/
def execSmulhi (f : SFields) (s : State) : Res :=
  s.sInt (.smulhi f) 0x13 f fun a b => mulHi f.ty a b

/-- SDIV (R119, R130). -/
def execSdiv (f : SFields) (s : State) : Res :=
  s.sInt (.sdiv f) 0x14 f fun a b => divInt f.ty a b

/-- SREM (R119, R130). -/
def execSrem (f : SFields) (s : State) : Res :=
  s.sInt (.srem f) 0x15 f fun a b => remInt a b

/-- SMIN (R130). -/
def execSmin (f : SFields) (s : State) : Res :=
  s.sInt (.smin f) 0x16 f fun a b => if b < a then b else a

/-- SMAX (R130). -/
def execSmax (f : SFields) (s : State) : Res :=
  s.sInt (.smax f) 0x17 f fun a b => if a < b then b else a

/-- SLEA: to an even pair (R131). -/
def execSlea (f : SFields) (s : State) : Res :=
  s.sOp (.slea f) 0x18 f true fun _ a b => leaSum f.ty a b f.imm.toNat

/-- SAND (R130). -/
def execSand (f : SFields) (s : State) : Res :=
  s.sBits (.sand f) 0x20 f fun a b => a &&& b

/-- SOR (R130). -/
def execSor (f : SFields) (s : State) : Res :=
  s.sBits (.sor f) 0x21 f fun a b => a ||| b

/-- SXOR (R130). -/
def execSxor (f : SFields) (s : State) : Res :=
  s.sBits (.sxor f) 0x22 f fun a b => a ^^^ b

/-- SNOT (R130). -/
def execSnot (f : SFields) (s : State) : Res :=
  s.sBits (.snot f) 0x23 f fun a _ => 2 ^ f.ty.width - 1 - a

/-- SSHL (R130). -/
def execSshl (f : SFields) (s : State) : Res :=
  s.sBits (.sshl f) 0x24 f fun a b => shlBits f.ty.width a b

/-- SSHR (R130). -/
def execSshr (f : SFields) (s : State) : Res :=
  s.sBits (.sshr f) 0x25 f fun a b => shrBits f.ty.width f.ty.isSigned a b

/-- SBFX: offset and width in IMM12 (R131). -/
def execSbfx (f : SFields) (s : State) : Res :=
  s.sBits (.sbfx f) 0x26 f fun a _ => bfxBits f.ty.isSigned a (f.imm.toNat % 32) (f.imm.toNat / 32)

/-- SPOPC (R130). -/
def execSpopc (f : SFields) (s : State) : Res :=
  s.sBits (.spopc f) 0x27 f fun a _ => popBits f.ty.width a

/-- SCLZ (R130). -/
def execSclz (f : SFields) (s : State) : Res :=
  s.sBits (.sclz f) 0x28 f fun a _ => clzBits f.ty.width a

/-- SCTZ (R130). -/
def execSctz (f : SFields) (s : State) : Res :=
  s.sBits (.sctz f) 0x29 f fun a _ => ctzBits f.ty.width a

/-- SCMP: one register under every type (R130, R131). -/
def execScmp (f : SFields) (s : State) : Res :=
  s.sOp (.scmp f) 0x30 f false fun _ a b =>
    (intRel f.cond.toNat (intVal f.ty a) (intVal f.ty b)).toNat

end Sys2Proof.Machine
end

