-- ==== Sys2Proof/Machine/Special.lean ====
section
/-! DEFINITION. The special functions to the bit (R99, R146 to R148) and the activation tables (R149, R150). The
transcendental functions are computed in fixed point to far more places than any rounding of a single looks at
(log entry 16). -/

namespace Sys2Proof.Machine

open Sys2Proof

/-- Fraction bits of the fixed-point values below. -/
def fixBits : Nat := 640

/-- One. -/
def fixOne : Int := 2 ^ fixBits

/-- What a special function is at a source: a value known exactly, or a magnitude strictly between m × 2^e and
(m + 1) × 2^e. -/
inductive SfOut where
  | exact (v : FVal)
  | approx (neg : Bool) (m : Nat) (e : Int)
  deriving DecidableEq, Repr, Inhabited

/-- A magnitude cut to 22 significant bits (R147). -/
def cut22 (m : Nat) (e : Int) : Nat × Int :=
  let k := Nat.log2 m
  if 22 ≤ k then (m / 2 ^ (k - 21), e + ((k - 21 : Nat) : Int)) else (m, e)

/-- The single that a grade delivers (R99, R147): rounded to nearest at the accurate grade, else cut to 22 bits with
subnormals as zero. -/
def sfDeliver (acc : Bool) (o : SfOut) : Nat :=
  if acc then
    match o with
    | .exact v => FFmt.f32.encode .rne false v
    | .approx neg m e => FFmt.f32.round .rne false neg m e true
  else
    let fin := fun (neg : Bool) (m : Nat) (e : Int) =>
      let p := cut22 m e
      let c := FFmt.f32.round .rz false neg p.1 p.2 false
      if c % 2 ^ 31 < 2 ^ 23 then c / 2 ^ 31 * 2 ^ 31 else c
    match o with
    | .exact (.fin neg m e) => fin neg m e
    | .exact v => FFmt.f32.encode .rne false v
    | .approx neg m e => fin neg m e

/-! ## Algebraic functions -/

/-- n / d × 2^e. -/
def sfQuot (neg : Bool) (n d : Nat) (e : Int) : SfOut :=
  let q := n * 2 ^ 80 / d
  if q * d = n * 2 ^ 80 then .exact (.fin neg q (e - 80)) else .approx neg q (e - 80)

/-- The whole part of a square root, from its highest bit `n` down. -/
def isqrt (x : Nat) : Nat → Nat → Nat
  | 0, r => r
  | n + 1, r =>
    let t := r + 2 ^ n
    isqrt x n (if t * t ≤ x then t else r)

/-- A mantissa and exponent with the exponent even. -/
def evenExp (m : Nat) (e : Int) : Nat × Int := if e % 2 = 0 then (m, e) else (2 * m, e - 1)

/-- 1/x (R146, R148). -/
def sfRcp : FVal → SfOut
  | .nan => .exact .nan
  | .inf neg => .exact (.fin neg 0 0)
  | .fin neg m e => if m = 0 then .exact (.inf neg) else sfQuot neg 1 m (-e)

/-- 1/√x (R146, R148). -/
def sfRsq : FVal → SfOut
  | .nan => .exact .nan
  | .inf neg => .exact (if neg then .nan else FVal.zero)
  | .fin neg m e =>
    if m = 0 then .exact (.inf neg)
    else if neg then .exact .nan
    else
      let p := evenExp m e
      let q := isqrt (2 ^ 160 / p.1) 82 0
      if q * q * p.1 = 2 ^ 160 then .exact (.fin false q (-(p.2 / 2) - 80)) else .approx false q (-(p.2 / 2) - 80)

/-- √x (R146, R148). -/
def sfSqrt : FVal → SfOut
  | .nan => .exact .nan
  | .inf neg => .exact (if neg then .nan else .inf false)
  | .fin neg m e =>
    if m = 0 then .exact (.fin neg 0 0)
    else if neg then .exact .nan
    else
      let p := evenExp m e
      let q := isqrt (p.1 * 2 ^ 80) 60 0
      if q * q = p.1 * 2 ^ 80 then .exact (.fin false q (p.2 / 2 - 40)) else .approx false q (p.2 / 2 - 40)

/-! ## Series -/

/-- Σ t^k/k! from the term of number k on. -/
def expSum (t : Int) : Nat → Nat → Int → Int
  | 0, _, _ => 0
  | n + 1, k, term => term + expSum t n (k + 1) (term * t / fixOne / ((k : Int) + 1))

/-- e^t for |t| at most 1. -/
def fixExp0 (t : Int) : Int := expSum t 170 0 fixOne

/-- Σ z^(2k+1)/(2k+1), with the sign of each term turned where `alt`. -/
def oddSum (alt : Bool) (z2 : Int) : Nat → Nat → Int → Int
  | 0, _, _ => 0
  | n + 1, k, p => p / (2 * (k : Int) + 1) + oddSum alt z2 n (k + 1) ((if alt then -(p * z2 / fixOne) else p * z2 / fixOne))

/-- artanh z for |z| at most 1/3. -/
def fixAtanh (z : Int) : Int := oddSum false (z * z / fixOne) 210 0 z

/-- arctan(1/n) × 2^b, by the series of its odd powers. -/
def atanInv (b n : Nat) : Nat → Nat → Int → Int
  | 0, _, _ => 0
  | k + 1, j, p => p / (2 * (j : Int) + 1) + atanInv b n k (j + 1) (-(p / ((n : Int) * n)))

/-- π × 2^b (Machin's formula). -/
def piFix (b : Nat) : Int :=
  16 * atanInv b 5 (b / 4) 0 (2 ^ b / 5) - 4 * atanInv b 239 (b / 15) 0 (2 ^ b / 239)

/-- ln 2. -/
def fixLn2 : Int := 2 * fixAtanh (fixOne / 3)

/-- A finite value in fixed point. -/
def FVal.fix (v : FVal) : Int :=
  match v with
  | .fin neg m e =>
    let x : Int := if 0 ≤ e + fixBits then (m * 2 ^ (e + fixBits).toNat : Nat) else (m / 2 ^ (-(e + fixBits)).toNat : Nat)
    if neg then -x else x
  | _ => 0

/-- A fixed-point value as a result. -/
def fixOut (x : Int) : SfOut := .approx (decide (x < 0)) x.natAbs (-(fixBits : Int))

/-- e^y in fixed point. -/
def fixExp (y : Int) : Int :=
  let n := (2 * y + fixLn2) / (2 * fixLn2)
  let x := fixExp0 (y - n * fixLn2)
  if 0 ≤ n then x * 2 ^ n.toNat else x / 2 ^ (-n).toNat

/-- 2^x (R146, R148). -/
def sfExp2 (v : FVal) : SfOut :=
  match v with
  | .nan => .exact .nan
  | .inf neg => .exact (if neg then FVal.zero else .inf false)
  | .fin neg _ _ =>
    if v.isZero then .exact (.fin false 1 0)
    else if !neg && !(v.lt (.fin false 128 0)) then .exact (.inf false)
    else if neg && v.lt (.fin true 200 0) then .approx false 1 (-400)
    else
      let x := v.fix
      let n := x / fixOne
      let f := x % fixOne
      if f = 0 then .exact (.fin false 1 n) else .approx false (fixExp0 (f * fixLn2 / fixOne)).toNat (n - fixBits)

/-- log₂ x (R146, R148). -/
def sfLog2 (v : FVal) : SfOut :=
  match v with
  | .nan => .exact .nan
  | .inf neg => .exact (if neg then .nan else .inf false)
  | .fin neg m e =>
    if m = 0 then .exact (.inf true)
    else if neg then .exact .nan
    else
      let k := Nat.log2 m
      if m = 2 ^ k then .exact (ofInteger (k + e))
      else
        let j := if 3 * 2 ^ k ≤ 2 * m then k + 1 else k
        let z := ((m : Int) - 2 ^ j) * fixOne / ((m : Int) + 2 ^ j)
        fixOut ((j + e) * fixOne + 2 * fixAtanh z * fixOne / fixLn2)

/-- Σ (−1)^k t^(2k+o)/(2k+o)! from a term on, o 0 or 1. -/
def trigSum (t2 : Int) : Nat → Nat → Int → Int
  | 0, _, _ => 0
  | n + 1, k, term =>
    term + trigSum t2 n (k + 2) (-(term * t2 / fixOne / (((k : Int) + 1) * ((k : Int) + 2))))

/-- sin(x) or, a quarter turn on, cos(x): m × 2^e reduced by π/2 exactly enough for every single. -/
def fixTrig (neg : Bool) (m : Nat) (e : Int) (quarter : Int) : Int :=
  let b : Nat := fixBits + 200
  let half := piFix b          -- π × 2^b = (π/2) × 2^(b+1)
  let x : Int := if 0 ≤ e + b + 1 then (m * 2 ^ (e + b + 1).toNat : Nat) else (m / 2 ^ (-(e + b + 1)).toNat : Nat)
  let x := if neg then -x else x
  let n := (2 * x + half) / (2 * half)
  let t := (x - n * half) / 2 ^ 201
  let t2 := t * t / fixOne
  match ((n + quarter) % 4).toNat with
  | 0 => trigSum t2 80 1 t
  | 1 => trigSum t2 80 0 fixOne
  | 2 => -trigSum t2 80 1 t
  | _ => -trigSum t2 80 0 fixOne

/-- 2π rounded to 56 significant bits, times 2^53 (R147). -/
def twoPi56 : Int :=
  let p := 2 * piFix 200
  (p / 2 ^ 146 + 1) / 2

/-- The source of SIN and COS that a grade takes: beyond 2^15 the fast grade reduces by P (R147). -/
def sfReduce (acc neg : Bool) (m : Nat) (e : Int) : Bool × Nat × Int :=
  let v : FVal := .fin false m e
  if acc || !(FVal.lt (.fin false 1 15) v) then (neg, m, e)
  else
    let b : Nat := 400
    let x : Int := (m * 2 ^ (e + b).toNat : Nat)
    let tp := 2 * piFix b
    let n := (2 * x + tp) / (2 * tp)
    let y := (m * 2 ^ (e + 53).toNat : Nat) - n * twoPi56
    (neg != decide (y < 0), y.natAbs, -53)

/-- sin x (R146 to R148). -/
def sfSin (acc : Bool) : FVal → SfOut
  | .nan => .exact .nan
  | .inf _ => .exact .nan
  | .fin neg m e =>
    if m = 0 then .exact (.fin neg 0 0)
    else
      let r := sfReduce acc neg m e
      if r.2.1 = 0 then .exact FVal.zero else fixOut (fixTrig r.1 r.2.1 r.2.2 0)

/-- cos x (R146 to R148). -/
def sfCos (acc : Bool) : FVal → SfOut
  | .nan => .exact .nan
  | .inf _ => .exact .nan
  | .fin neg m e =>
    if m = 0 then .exact (.fin false 1 0)
    else
      let r := sfReduce acc neg m e
      if r.2.1 = 0 then .exact (.fin false 1 0) else fixOut (fixTrig r.1 r.2.1 r.2.2 1)

/-- tanh x (R146, R148). -/
def sfTanh (v : FVal) : SfOut :=
  match v with
  | .nan => .exact .nan
  | .inf neg => .exact (.fin neg 1 0)
  | .fin neg m e =>
    if m = 0 then .exact (.fin neg 0 0)
    else if !(FVal.lt (.fin false m e) (.fin false 9 0)) then .exact (.fin neg 1 0)
    else
      let x := fixExp (2 * (FVal.fin false m e).fix)
      .approx neg ((x - fixOne) * fixOne / (x + fixOne)).toNat (-(fixBits : Int))

/-- 1/(1 + e^−x) (R146, R148). -/
def sfSigm (v : FVal) : SfOut :=
  match v with
  | .nan => .exact .nan
  | .inf neg => .exact (if neg then FVal.zero else .fin false 1 0)
  | .fin neg m _ =>
    if m = 0 then .exact (.fin false 1 (-1))
    else if !neg && !(v.lt (.fin false 17 0)) then .exact (.fin false 1 0)
    else if v.lt (.fin true 120 0) then .approx false 1 (-400)
    else fixOut (fixOne * fixOne / (fixOne + fixExp (-v.fix)))

/-- The source that a grade takes: a subnormal is zero at the fast grade (R99). -/
def sfSource (acc : Bool) (x : Nat) : FVal :=
  let v := FFmt.f32.decode x
  if !acc && decide (x % 2 ^ 31 < 2 ^ 23) then .fin v.isNeg 0 0 else v

/-- A special function's single at a grade (R146). -/
def sfValue (acc : Bool) (k : FVal → SfOut) (x : Nat) : Nat := sfDeliver acc (k (sfSource acc x))

/-! ## Activation tables -/

/-- A word of a bank image (R149). -/
def bankImageWord (bank : List Host.Cell) (off : Nat) : Nat := leNat (Memory.read bank off 4)

/-- A single's arithmetic in RNE (R150). -/
def fadd32 (x y : Nat) : Nat :=
  FFmt.f32.encode .rne false (sumExact .rne [FFmt.f32.decode x, FFmt.f32.decode y])
def fmul32 (x y : Nat) : Nat :=
  FFmt.f32.encode .rne false (mulExact (FFmt.f32.decode x) (FFmt.f32.decode y))
def ffma32 (x y z : Nat) : Nat :=
  FFmt.f32.encode .rne false
    (sumExact .rne [mulExact (FFmt.f32.decode x) (FFmt.f32.decode y), FFmt.f32.decode z])

/-- The segment and the place in it of a position u: a position below 0, which only a negative SCALE gives, has no
segment (log entry 17). DESIGN CHOICE: R150 does not give the sign of t = u - i where u is -0; the model takes +0 (log entry
23). -/
def actPlace (u : Nat) : Option (Nat × Nat) :=
  match FFmt.f32.decode u with
  | .nan => some (63, 0x7FC00000)
  | .inf true => none
  | .inf false => some (63, 0x3F800000)
  | .fin neg m e =>
    if neg && m != 0 then none
    else
      let w := if 0 ≤ e then m * 2 ^ e.toNat else m / 2 ^ (-e).toNat
      let i := Nat.min w 63
      let t := sumExact .rne [.fin false m e, ofInteger (-(i : Int))]
      some (i, FFmt.f32.encode .rne false (if t.lt (.fin false 1 0) then t else .fin false 1 0))

/-- An activation function of a bank; a NaN in its MIN or MAX gives the canonical NaN (R150). -/
def actValue (bank : List Host.Cell) (fn x : Nat) : Nat :=
  let at' := fun off => bankImageWord bank (1040 * fn + off)
  let v := FFmt.f32.decode x
  let place :=
    if v.lt (FFmt.f32.decode (at' 0)) then some (0, 0)
    else if !(v.lt (FFmt.f32.decode (at' 4))) then some (63, 0x3F800000)
    else actPlace (fmul32 (fadd32 x (Nat.xor (at' 0) 0x80000000)) (at' 8))
  if v.isNan || (FFmt.f32.decode (at' 0)).isNan || (FFmt.f32.decode (at' 4)).isNan then 0x7FC00000
  else
    match place with
    | none => (Config.actBelow (BitVec.ofNat 32 x)).toNat
    | some (i, t) =>
      let c := fun k => at' (16 + 16 * i + 4 * k)
      ffma32 (ffma32 (ffma32 (c 3) t (c 2)) t (c 1)) t (c 0)

end Sys2Proof.Machine
end

