-- ==== Sys2Proof/Machine/MemOps.lean ====
section
/-! DEFINITION. Class M and the scalar memory instructions up to the moment their accesses are sent off (R133, R134,
R185, R200 to R211, R222, R225, R227, R279, R417). -/

namespace Sys2Proof.Machine

open Sys2Proof

/-! ## Scratch windows and mapped ranges -/

/-- The core and the pool byte address that a scratch access reaches, none where it lies outside (R185). -/
def State.window (s : State) (k : Nat) (g : Group) (sp : Space) (a n : Nat) : Option (Nat × Nat) :=
  let base := fun (c : Nat) => (((s.core c).team? g.launch).map (·.scratchBase)).getD 0
  match sp with
  | .scratch => if a + n ≤ g.hdr.scratch then some (k, base k + a) else none
  | .cluster =>
    let peers := (((s.core k).team? g.launch).map (·.peers)).getD []
    match peers[a / 2 ^ 21]? with
    | some p => if a % 2 ^ 21 + n ≤ g.hdr.scratch then some (p, base p + a % 2 ^ 21) else none
    | none => none
  | _ => none

/-- Pool byte address at which a mapped range begins (R223). -/
def Core.mapBase (c : Core) (m : MapRange) : Nat := ((c.team? m.launch).map (·.scratchBase)).getD 0 + m.off

/-- The mapped range that holds a pool byte address (R224). -/
def Core.mapAt (c : Core) (p : Nat) : Option MapRange :=
  c.maps.find? fun m => decide (c.mapBase m ≤ p ∧ p < c.mapBase m + m.len)

/-- Status of a scratch word by its pool word number: V in bit 0, D in bit 1 (R224). -/
def Core.status (c : Core) (w : Nat) : BitVec 2 := (Sparse.get? c.wstat w).getD 0

def Core.setStatus (c : Core) (w : Nat) (v : BitVec 2) : Core :=
  { c with wstat := if v = 0 then Sparse.erase c.wstat w else Sparse.put c.wstat w v }

/-- Scratch words that `n` bytes from a pool address touch. -/
def wordsOfSpan (p n : Nat) : List Nat := (List.range ((p % 4 + n + 3) / 4)).map (p / 4 + ·)

/-- The block of a mapped range that a pool address lies in (R224). -/
def Core.blockOf (c : Core) (m : MapRange) (p : Nat) : Nat := (p - c.mapBase m) / 128

/-- Whether a load of mapped bytes must wait for a fill (R225, R226, R228). -/
def Core.loadFills (c : Core) (p n : Nat) : Bool :=
  match c.mapAt p with
  | none => false
  | some m =>
    if m.mode = 1 then m.toFill.contains (c.blockOf m p)
    else (wordsOfSpan p n).any fun w =>
      let st := c.status w
      !st.getLsbD 0 ||
        (m.mode == 0 && !st.getLsbD 1 && decide ((Sparse.get? m.leases (c.blockOf m p)).getD 0 < c.clock))

/-- Whether a store of part of a word, or an atomic, must wait for a fill (R225). -/
def Core.writeFills (c : Core) (p n : Nat) : Bool :=
  match c.mapAt p with
  | none => false
  | some _ => (wordsOfSpan p n).any fun w => !(c.status w).getLsbD 0

/-- The global address of a pool address of a mapped range (R223). -/
def Core.globalOf (c : Core) (m : MapRange) (p : Nat) : DWord := m.g + BitVec.ofNat 64 (p - c.mapBase m)

/-- Whether bytes of a core's pool lie in a subscribed range of the cluster, by the bounds a core keeps (R227). -/
def Core.subscribed (c : Core) (peer p n : Nat) : Bool :=
  c.subBounds.any fun b => b.1 == peer && decide (p < b.2.2 ∧ b.2.1 < p + n)

/-! ## Checks of addresses -/

/-- Whether a range lock refuses an access (R222). -/
def Core.locked (c : Core) (ctx sp a n : Nat) (write : Bool) : Bool :=
  c.locks.any fun l => l.space == sp && l.ctx == ctx && decide (a < l.start + l.len ∧ l.start < a + n) &&
    (!l.source || write)

/-- The first fault of the address checks, each for every lane in turn: ALIGN, SCRATCHOOB, RLOCK, and PROT of a
subscribed range (R202, R203, R222, R227). -/
def State.addrFault (s : State) (g : Group) (sp : Space) (n : Nat) (write : Bool) (as : List DWord) :
    Option (Cause × DWord) :=
  let k := s.iss.core
  let bad := fun (c : Cause) (p : DWord → Bool) => (as.find? p).map fun a => (c, a)
  let win := fun (a : DWord) => s.window k g sp a.toNat n
  let scr := sp == .scratch || sp == .cluster
  (bad .align fun a => a.toNat % n != 0).or <|
  (bad .scratchOob fun a => (scr && (win a).isNone) || (sp == .bank && decide (65536 < a.toNat + n))).or <|
  (bad .rlock fun a =>
    if sp == .global then (s.core k).locked g.ctx 0 a.toNat n write
    else match win a with
      | some w => (s.core w.1).locked g.ctx 1 w.2 n write
      | none => false).or <|
  (bad .prot fun a => write && match win a with | some w => (s.core k).subscribed w.1 w.2 n | none => false)

/-- The first fault of translations made at issue, the lowest lane's (R134, R211, R372, R409). -/
def State.xlateFault (s : State) (g : Group) (acc : Acc) (as : List (Option Nat × DWord)) : Option (Cause × DWord) :=
  as.findSome? fun a =>
    match s.translate s.iss.core a.1 g.ctx g.priv acc a.2 with
    | .error c => some (c, a.2)
    | .ok e => if acc == .store && pteDev e.pte then some (.prot, a.2) else none

/-- A precise fault of an access, with the TLBs after the walks that its checks have made: those of its addresses up to the one that faults,
of all of them at a watchpoint (R188, R374). -/
def State.faultAccess (s : State) (g : Group) (as : List (Option Nat × DWord)) (x : Cause × DWord) : State :=
  let upTo := as.takeWhile (fun a => a.2 != x.2) ++ (as.find? fun a => a.2 == x.2).toList
  let seen := match x.1 with
    | .page => upTo
    | .prot => upTo
    | .unitAbsent => upTo
    | .watch => as
    | _ => []
  (seen.foldl (fun (t : State) a => t.noteWalk s.iss.core a.1 g.ctx a.2) s).faultHere x.1 x.2

/-- Lane addresses with their last-page registers. -/
def State.laneRegs (s : State) (as : List (Fin 32 × DWord)) : List (Option Nat × DWord) :=
  as.map fun p => (some (lastReg s.iss.frame p.1.val), p.2)

/-- Bytes a watchpoint watches (R278): from its address, aligned to its size. -/
def Core.watchSpan (c : Core) (i : Nat) : Nat × Nat :=
  let w := (c.wctl.toList.getD i 0).toNat
  let n := 2 ^ Nat.min 16 (w / 2 ^ 8 % 32)
  ((c.waddr.toList.getD i 0).toNat / n * n, n)

/-- The lowest watched access (R279). -/
def State.watched (s : State) (g : Group) (write : Bool) (n : Nat) (as : List DWord) : Option DWord :=
  let c := s.core s.iss.core
  as.find? fun a => (List.range 4).any fun i =>
    let w := c.wctl.toList.getD i 0
    let span := c.watchSpan i
    (if write then w.getLsbD 1 else w.getLsbD 0) && w.toNat / 2 ^ 16 == g.ctx &&
      decide (a.toNat < span.1 + span.2 ∧ span.1 < a.toNat + n)

/-! ## What holds an access back -/

/-- Whether an access is an atomic, and whether it writes. -/
def Req.isAtomic (r : Req) : Bool := match r.kind with | .atomic _ _ => true | _ => false
def Req.isWrite (r : Req) : Bool := r.kind == .store || r.isAtomic

/-- Requests of the acquires of a group that have not completed (R204). -/
def State.acquires (s : State) (k f : Nat) : List Nat :=
  (s.reqs.filter fun r => r.core == k && r.frame == f && (r.order == .acquire || r.order == .acqRel)).map (·.id)

/-- The order code of a waiting FENCE (R338). -/
def Wait.fenceOrder (w : Wait) : Nat := match w.instr with | .fence f => f.sub.toNat / 16 | _ => 0

/-- Whether a wait is an acquire that has not completed: an acquire FENCE, or an MSWAIT, which acquires at package scope (R204, R338,
R400). -/
def Wait.acquires (w : Wait) : Bool := w.fenceOrder % 2 == 1 || match w.instr with | .mswait _ => true | _ => false

/-- A memory, engine, matrix-scratch or nest instruction after its gate: it waits for the group's acquires, its acquire FENCEs and
MSWAITs among them (R204, R210, R338, R398). -/
def State.memGate (s : State) (i : Instr) (k : Group → Res) : Res :=
  s.gate i fun g =>
    if g.waits.any Wait.acquires then .next s
    else
      match s.acquires s.iss.core s.iss.frame with
      | [] => k g
      | ids => .next (s.waitFor g ids)

/-- Whether a load's translation is not known for good: its lane is logged or may still be. One of mapped scratch may meet a fill
until it is performed, and one of another device, an FATOM too, a refusal at its home (R210, R410, R423). -/
def State.mayLog (s : State) (r : Req) : Bool :=
  (r.kind == .load || r.isAtomic) && r.lane != 34 && (r.stage == .logged || (r.dev && (r.stage == .ready || r.stage == .reply)) ||
    (r.kind == .load && (r.stage == .walk || (r.stage == .scratch && ((s.core r.peer).mapAt r.pa).isSome))))

/-- Where an access lands, for the comparison of scratch addresses: the core and the pool address of its window, whatever
its SPACE (R185, R211). -/
def State.landing (s : State) (g : Group) (sp : Space) (n : Nat) (a : DWord) : Nat × Nat :=
  if sp == .global then (0, a.toNat) else (s.window s.iss.core g sp a.toNat n).getD (0, 0)

/-- Loads of a group whose lanes are logged, or may be, that an access overlaps at 4-byte granularity (R205, R211). -/
def State.loggedOverlap (s : State) (g : Group) (sp : Space) (n : Nat) (as : List DWord) : List Nat :=
  (s.reqs.filter fun r => r.core == s.iss.core && r.frame == s.iss.frame && s.mayLog r && (r.space == .global) == (sp == .global) &&
    as.any fun a =>
      let x := s.landing g sp n a
      let y := if r.space == .global then (0, r.va.toNat) else (r.peer, r.pa)
      x.1 == y.1 && decide (x.2 / 4 ≤ (y.2 + r.size - 1) / 4 ∧ y.2 / 4 ≤ (x.2 + n - 1) / 4)).map (·.id)

/-- Log places in use: a load with a translation unknown takes one, a WAITV two (R210, R271). -/
def State.logPlaces (s : State) (k f : Nat) : Nat :=
  let mine := s.reqs.filter fun r => r.core == k && r.frame == f
  let ops := fun (p : Req → Bool) => ((mine.filter p).map (·.op)).foldl insertNat []
  (ops s.mayLog).length + 2 * (ops fun r => r.kind == .waitv).length

/-- An instruction that takes `n` log places: it waits for a free place, and reports a logged load where only logged
loads hold them (R210, R271). -/
def State.withPlaces (s : State) (g : Group) (n : Nat) (k : Res) : Res :=
  if s.logPlaces s.iss.core s.iss.frame + n ≤ 4 then k
  else
    let mine := s.reqs.filter fun r => r.core == s.iss.core && r.frame == s.iss.frame
    if mine.any fun r => r.kind == .waitv || (s.mayLog r && r.stage != .logged) then .next s
    else .next (s.waitFor g ((mine.filter fun r => r.stage == .logged).map (·.id)))

/-! ## Requests -/

/-- The instruction's unit, as an operand-log entry records it (R212). -/
def instrUnit (i : Instr) : Nat := match encode i with | lo :: hi :: _ => unitOf lo hi | _ => 0

/-- A request sent off without entries. -/
def State.send (s : State) (r : Req) : State :=
  { s with reqs := s.reqs ++ [{ r with id := s.nextReq }], nextReq := s.nextReq + 1 }

/-! ## Releases (R204, R229) -/

/-- The dirty words of a core's leased ranges, as pool word numbers with their ranges (R204, R229). -/
def Core.dirtyLeased (c : Core) : List (MapRange × Nat) :=
  (c.maps.filter fun m => m.mode == 0).flatMap fun m =>
    ((List.range (m.len / 4)).map (c.mapBase m / 4 + ·)).filterMap fun w => if (c.status w).getLsbD 1 then some (m, w) else none

/-- Write-backs without a handle start: the dirty words of the core's leased ranges are taken, their D bits cleared, and
each is sent to its home (R229, R338). -/
def State.startBacks (s : State) (k f seq : Nat) (mask : BitVec 8) (pc : DWord) : State :=
  let c := s.core k
  let op := s.nextOp
  let s1 := c.dirtyLeased.foldl (fun (t : State) p =>
    (t.modCore k fun c => c.setStatus p.2 (c.status p.2 &&& 1)).send
      { Req.blank t default 32 with
        op := op, kind := .store, core := k, frame := f, seq := seq, ctx := p.1.ctx, va := c.globalOf p.1 (4 * p.2), size := 4,
        stage := .walk, src := some (4 * p.2), clk := c.clock, mask := mask, pc := pc, peer := k, sdgen := c.sdgen }) s
  { s1 with nextOp := op + 1 }

/-- Stores and atomics of a group that a release waits for (R204): those earlier in program order, or its write-backs. -/
def State.earlierWrites (s : State) (k f seq : Nat) : Bool :=
  s.reqs.any fun q => q.core == k && q.frame == f && q.isWrite && !q.dev && decide (q.seq < seq)

/-- The end of a release: the clock stands at ACKMAX or later; with a host-homed store before it HOSTMARK takes the clock
(R204, R334, R347). -/
def State.releaseDone (s : State) (k f : Nat) : State :=
  match s.group? k f with
  | none => s
  | some g =>
    let s1 := s.raiseClock k g.ackmax
    let s2 := if g.hostSt then { s1 with hostmark := Nat.max s1.hostmark (s1.core k).clock } else s1
    s2.modGroup k f fun g => { g with hostSt := false }

/-- Whether write-backs of a core that a release has started, or earlier ones, are still to be acknowledged (R204, R229). -/
def State.backsOut (s : State) (k op : Nat) : Bool := s.reqs.any fun q => q.core == k && q.src.isSome && decide (q.op ≤ op)

/-- Whether a release at a scope has nothing to wait for: no write-back either that another release of the core has begun (R204, R229,
R338). -/
def State.releaseFree (s : State) (k f seq : Nat) (sc : Scope) : Bool :=
  !s.earlierWrites k f seq && (decide (sc.code < 3) || ((s.core k).dirtyLeased.isEmpty && !s.backsOut k s.nextOp))

/-! ## Fabric waits (R417, R422) -/

/-- What WINFENCE finds: complete, to wait, TIMESYNC, or an FATOM that was refused and is logged. -/
inductive WinState where
  | done | waits | timeSync
  | refused (e : LogEntry)
  deriving DecidableEq, Repr, Inhabited

/-- The wait of WINFENCE for a group, by an instruction at a place of its program order (R422). An earlier FATOM that its home refused is
never acknowledged: a wait for it reports its fault, as one on a logged load does (R410, R422, log entry 82). -/
def State.winState (s : State) (k f seq : Nat) (g : Group) : WinState :=
  let mine := fun (r : Req) => r.core == k && r.frame == f && r.dev && decide (r.seq < seq)
  match g.log.find? fun e => s.reportable e && s.reqs.any fun r => mine r && r.isAtomic && r.stage == .logged && r.op == e.op with
  | some e => .refused e
  | none =>
    if s.reqs.any (fun r => mine r && (r.kind == .store || r.isAtomic)) ||
        (s.core k).handles.any (fun h => h.2.owner == f && h.2.op == 0x21 && decide (h.2.seq < seq) &&
          (h.2.state == .running || h.2.state == .paused)) then .waits
    else
      match g.fabWin with
      | none => .done
      | some n =>
        if !s.timeSync then .timeSync
        else if (n + 2) * s.winLen.toNat + 50 ≤ s.ptime then .done else .waits

/-- A release at fabric scope at the issue of its instruction: the release of R204 at package scope, then the wait of WINFENCE; the
instruction goes on after both (R417). -/
def State.fabricRelease (s : State) (release : Bool) (sc : Scope) (g : Group) (k : State → Group → Res) : Res :=
  if release && sc == .fabric then
    let c := s.iss.core
    let f := s.iss.frame
    if s.earlierWrites c f g.seq then .next s
    else if !(s.core c).dirtyLeased.isEmpty then .next (s.startBacks c f g.seq s.iss.mask s.iss.pc)
    else if s.backsOut c s.nextOp then .next s
    else
      match s.winState c f g.seq g with
      | .done => k (s.releaseDone c f) { g with fabWin := none, hostSt := false }
      | .waits => .next s
      | .refused e => .next (s.faultLogged e)
      | .timeSync => .next (s.faultHere .timeSync 0)
  else k s g

/-! ## Stores and loads sent off -/

/-- A present L1 copy of an HBM line takes a store's bytes (R187, R331). -/
def State.patchL1 (s : State) (k pa : Nat) (bs : List Byte) : State :=
  match Sparse.get? (s.core k).l1 (lineOf pa) with
  | none => s
  | some c =>
    let off := pa % 128
    s.modCore k fun x => { x with l1 := Sparse.put x.l1 (lineOf pa) { c with data := c.data.take off ++ bs ++ c.data.drop (off + bs.length) } }

/-- A held translation of an address that passes its checks (R188). -/
def State.heldXlate (s : State) (g : Group) (lane : Option Nat) (va : DWord) : Option TlbEntry :=
  let c := s.core s.iss.core
  let held := ((lane.bind fun l => Sparse.get? c.lastPage l).filter fun e => e.hits g.ctx va).or
    ((c.tlb.find? fun e => e.hits g.ctx va).or ((s.die (dieOf s.iss.core)).tlb.find? fun e => e.hits g.ctx va))
  held.filter fun e => (checkPte s.hasFabric g.priv .load e.pte).isNone && (pteDev e.pte || s.backed (e.pa va))

/-- A request with a translation (R188, R343, R372, R381). -/
def Req.placed (r : Req) (e : TlbEntry) : Req :=
  let pa := e.pa r.va
  { r with pa := pa, soft := pteCoh e.pte, dev := pteDev e.pte, dirty := e.tracked pa, comp := pteComp e.pte, bits := 52 - 12 * e.level, stage := .ready }

/-- The fields every request of an M instruction has. -/
def State.mReq (s : State) (g : Group) (i : Instr) (f : MFields) (flag : Option Nat) (kind : ReqKind) (lane : Nat) (va : DWord) : Req :=
  { Req.blank s g lane with
    kind := kind, va := va, space := f.space, size := f.size.bytes, order := f.order, scope := f.scope, hint := f.hint,
    sx := f.sx, flag := flag, clk := (s.core s.iss.core).clock, inst := instrUnit i }

/-- The flag an M instruction binds (R24, R64). -/
def State.mFlag (s : State) (f : MFields) : Option Nat := flagOf (if f.fsel then s.iss.flagB else s.iss.flagA)

/-- Effective addresses of the active lanes (R202). -/
def State.laneAddrs (s : State) (g : Group) (f : MFields) : List (Fin 32 × DWord) :=
  (g.activeLanes s.iss.mask).map fun n =>
    let e := s.env g g.lanes[n] []
    (n, if f.space = .global then BitVec.ofNat 64 (e.raw .b64 f.addr.src) + f.offset.signExtend 64
        else (BitVec.ofNat 32 (e.raw .b32 f.addr.src) + f.offset.signExtend 32).setWidth 64)

/-- The issue of an instruction whose requests are sent: its flag counts it, its split goes on (R24, R155). -/
def State.sent (s : State) (flag : Option Nat) : State :=
  { (s.modGroup s.iss.core s.iss.frame fun g => g.flagUp flag).advance with nextOp := s.nextOp + 1 }

/-- The parts of an access that are single-copy atomic: byte offset and size (R205). DESIGN CHOICE: an access of b128 has its two halves at
ORDER 4 too, where R204 calls the access single-copy atomic (log entry 94). -/
def sizeParts (z : Size) : List (Nat × Nat) := match z with | .b128 => [(0, 8), (8, 8)] | _ => [(0, z.bytes)]

/-- Words an access of some bytes fills. -/
def bytesWords (n : Nat) : Nat := (n + 3) / 4

/-! ## LD, PREF, RENEW, WAITV -/

/-- One part of a lane's load, sent (R206, R210). -/
def State.sendLoad (s : State) (g : Group) (r : Req) (n : Fin 32) (part : Nat × Nat) : State :=
  let va := r.va + BitVec.ofNat 64 part.1
  let r1 := { r with va := va, size := part.2 }
  let w := bytesWords part.2
  match r.space with
  | .global =>
    match s.heldXlate g (some (lastReg s.iss.frame n.val)) va with
    | some e => (s.noteXlate s.iss.core (some (lastReg s.iss.frame n.val)) va e).reserveFor n w (r1.placed e)
    | none => s.reserveFor n w { r1 with stage := .walk, sdgen := (s.core s.iss.core).sdgen }
  | .bank => s.reserveFor n w { r1 with stage := .data, data := ((s.bankOf g ++ List.replicate 65536 0).drop va.toNat).take part.2 }
  | sp =>
    match s.window s.iss.core g sp va.toNat part.2 with
    | none => s
    | some (p, a) => s.reserveFor n w { r1 with peer := p, pa := a, stage := if (s.core p).loadFills a part.2 then .walk else .scratch }

/-- Whether some lane's translation is unknown at issue, or its page is another device's, whose home may refuse the load (R210, R410). -/
def State.loadUnknown (s : State) (g : Group) (f : MFields) (as : List (Fin 32 × DWord)) : Bool :=
  as.any fun a =>
    match f.space with
    | .global => ((s.heldXlate g (some (lastReg s.iss.frame a.1.val)) a.2).map fun e => pteDev e.pte).getD true
    | .bank => false
    | sp => match s.window s.iss.core g sp a.2.toNat f.size.bytes with
      | some (p, x) => ((s.core p).mapAt x).isSome
      | none => false

/-- The faults of an M instruction before it is sent: addresses, translations at issue, watchpoints (R203, R211, R279). -/
def State.mFault (s : State) (g : Group) (f : MFields) (write : Bool) (acc : Option Acc) (as : List (Fin 32 × DWord)) :
    Option (Cause × DWord) :=
  let vas := as.map (·.2)
  let glob := f.space == Space.global
  let xlate : Option (Cause × DWord) :=
    match acc with
    | some a => if glob then s.xlateFault g a (s.laneRegs as) else none
    | none => none
  let watch : Option (Cause × DWord) :=
    if glob then (s.watched g write f.size.bytes vas).map fun a => (Cause.watch, a) else none
  ((s.addrFault g f.space f.size.bytes write vas).or xlate).or watch

/-- LD (R200, R202 to R204, R206, R210). -/
def execLd (f : MFields) (s : State) : Res :=
  s.memGate (.ld f) fun g =>
    let flag := s.mFlag f
    let as := s.laneAddrs g f
    match s.mFault g f false none as with
    | some x => .next (s.faultHere x.1 x.2)
    | none =>
      if g.flagFull flag then .next s
      else
        s.withPlaces g (if s.loadUnknown g f as then 1 else 0) <|
          .next (State.sent (as.foldl (fun t a => (sizeParts f.size).foldl (fun t p =>
            t.sendLoad g (s.mReq g (.ld f) f flag .load a.1.val a.2) a.1 p) t) s) flag)

/-- The translation of a checked address by the state at issue, for a request: noted in the state in the making. -/
def State.placeAt (s t : State) (g : Group) (lane : Option Nat) (acc : Acc) (r : Req) : Option (State × Req) :=
  match s.translate s.iss.core lane g.ctx g.priv acc r.va with
  | .ok e => some (t.noteXlate s.iss.core lane r.va e, r.placed e)
  | .error _ => none

/-- PREF: each lane's line is fetched under a new lease; an address that cannot be loaded is dropped (R206). -/
def execPref (f : MFields) (s : State) : Res :=
  s.memGate (.pref f) fun g =>
    let flag := s.mFlag f
    let as := s.laneAddrs g f
    let reg := fun (a : Fin 32 × DWord) => some (lastReg s.iss.frame a.1.val)
    let walked := as.foldl (fun (t : State) a => match s.lookup s.iss.core (reg a) g.ctx a.2 with
      | some e => t.noteXlate s.iss.core (reg a) a.2 e
      | none => t) s
    let good := as.filterMap fun a => (s.placeAt s g (some (lastReg s.iss.frame a.1.val)) .load (s.mReq g (.pref f) f flag .pref a.1.val a.2)).bind fun p =>
      if isHost p.2.pa then none else some (a, p.2)
    if g.flagFull flag then .next s
    else if good.isEmpty then .next (walked.finish g)
    else .next (State.sent (good.foldl (fun t p => t.send p.2) walked) flag)

/-- RENEW (R206, R211). -/
def execRenew (f : MFields) (s : State) : Res :=
  s.memGate (.renew f) fun g =>
    let flag := s.mFlag f
    let as := s.laneAddrs g f
    match (s.addrFault g f.space 1 false (as.map (·.2))).or (s.xlateFault g .load (s.laneRegs as)) with
    | some x => .next (s.faultAccess g (s.laneRegs as) x)
    | none =>
      if g.flagFull flag then .next s
      else .next (State.sent (as.foldl (fun (t : State) a =>
        match s.placeAt t g (some (lastReg s.iss.frame a.1.val)) .load (s.mReq g (.renew f) f flag .renew a.1.val a.2) with
        | some p => p.1.send p.2
        | none => t) s) flag)

/-- Global addresses that fills of a scratch write need, by lane (R225): translated at issue. -/
def State.fillAddrs (s : State) (g : Group) (f : MFields) (as : List (Fin 32 × DWord)) : List (Option Nat × DWord) :=
  as.filterMap fun a =>
    match s.window s.iss.core g f.space a.2.toNat f.size.bytes with
    | some (p, x) =>
      let c := s.core p
      if c.writeFills x f.size.bytes then (c.mapAt x).map fun m => (some (lastReg s.iss.frame a.1.val), c.globalOf m x) else none
    | none => none

/-- Addresses that a lane access has translated at issue: its own, or those of the fills of a scratch write (R211, R225). -/
def State.walkAddrs (s : State) (g : Group) (f : MFields) (as : List (Fin 32 × DWord)) : List (Option Nat × DWord) :=
  if f.space = .global then s.laneRegs as else s.fillAddrs g f as

/-- DATA of a lane as bytes: the low bytes of the operand, or four words (R201, R206). -/
def State.laneData (s : State) (g : Group) (f : MFields) (t : Ty) (n : Fin 32) : List Byte :=
  let l := g.lanes[n]
  if f.size = .b128 then
    match f.data.src with
    | .age k => wordsBytes ((List.range 4).map fun j => l.age (k.toNat + 3 - j))
    | .scalar i => wordsBytes ((List.range 4).map fun j => g.scalar (i.toNat + j))
    | _ => []
  else leBytes f.size.bytes ((s.env g l []).raw t f.data.src)

/-- The type at which DATA is read (R48, R49, R201). -/
def mDataTy (op : Nat) (f : MFields) : Ty := if op = 0x10 then .f32 else if f.size = .b64 then .b64 else .b32

/-- WAITV (R207, R211, R271). -/
def execWaitv (f : MFields) (s : State) : Res :=
  s.memGate (.waitv f) fun g =>
    let flag := s.mFlag f
    let as := s.laneAddrs g f
    match s.mFault g f false (some .load) as with
    | some x => .next (s.faultAccess g (s.walkAddrs g f as) x)
    | none =>
      match s.loggedOverlap g f.space f.size.bytes (as.map (·.2)) with
      | [] =>
        if g.flagFull flag then .next s
        else
          s.withPlaces g 2 <| .next (State.sent (as.foldl (fun (t : State) a =>
            match s.placeAt t g (some (lastReg s.iss.frame a.1.val)) .load { s.mReq g (.waitv f) f flag .waitv a.1.val a.2 with cmp := s.laneData g f (mDataTy 4 f) a.1 } with
            | some p => p.1.reserveFor a.1 (bytesWords f.size.bytes) p.2
            | none => t) s) flag)
      | ids => .next (s.waitFor g ids)

/-! ## ST -/

/-- Bytes of a part of a value. -/
def partBytes (bs : List Byte) (p : Nat × Nat) : List Byte := (bs.drop p.1).take p.2

/-- One part of a lane's store, sent; a present L1 copy takes it at once (R187, R206, R211). -/
def State.sendStore (s t : State) (g : Group) (lane : Option Nat) (r : Req) (bs : List Byte) (part : Nat × Nat) : State :=
  let r1 := { r with va := r.va + BitVec.ofNat 64 part.1, size := part.2, data := partBytes bs part }
  match r.space with
  | .global =>
    match s.placeAt t g lane .store r1 with
    | some p => (p.1.send p.2).patchL1 s.iss.core p.2.pa r1.data
    | none => t
  | sp =>
    match t.window s.iss.core g sp r1.va.toNat part.2 with
    | none => t
    | some (p, a) => t.send { r1 with peer := p, pa := a, stage := .scratch }

/-- Faults of the fills that a scratch write needs; a page that has become another device's is PROT (R225). -/
def State.fillFault (s : State) (g : Group) (f : MFields) (as : List (Fin 32 × DWord)) : Option (Cause × DWord) :=
  if f.space = .global then none
  else (s.fillAddrs g f as).findSome? fun a =>
    match s.translate s.iss.core a.1 g.ctx g.priv .load a.2 with
    | .error c => some (c, a.2)
    | .ok e => if pteDev e.pte then some (.prot, a.2) else none

/-- ST (R201 to R206, R211, R225). -/
def execSt (f : MFields) (s : State) : Res :=
  s.memGate (.st f) fun g =>
    let flag := s.mFlag f
    let as := s.laneAddrs g f
    let fills := if f.size = .b8 ∨ f.size = .b16 then s.fillFault g f as else none
    match (s.mFault g f true (some .store) as).or fills with
    | some x => .next (s.faultAccess g (s.walkAddrs g f as) x)
    | none =>
      match s.loggedOverlap g f.space f.size.bytes (as.map (·.2)) with
      | [] =>
        s.fabricRelease (f.order == .release) f.scope g fun s g =>
          if g.flagFull flag then .next s
          else
            let s1 := s.setGroup s.iss.core s.iss.frame g
            .next (State.sent (as.foldl (fun t a => (sizeParts f.size).foldl (fun t p =>
              s.sendStore t g (some (lastReg s.iss.frame a.1.val)) (s.mReq g (.st f) f flag .store a.1.val a.2) (s.laneData g f (mDataTy 1 f) a.1) p) t) s1) flag)
      | ids => .next (s.waitFor g ids)

/-! ## Atomics -/

/-- What an atomic writes: the new value, none where it writes nothing (R208, R111). -/
def AtomOp.value (op : AtomOp) (signed : Bool) (w old d cmp : Nat) : Option Nat :=
  let lt := fun (a b : Nat) => if signed then decide (sextNat w a < sextNat w b) else decide (a < b)
  match op with
  | .add => some ((old + d) % 2 ^ w)
  | .min => some (if lt d old then d else old)
  | .max => some (if lt old d then d else old)
  | .and => some (old &&& d)
  | .or => some (old ||| d)
  | .xor => some (old ^^^ d)
  | .xchg => some d
  | .cas => if old = cmp then some d else none
  | .fadd => some (fadd32 old d)
  | .inc => some (if d ≤ old then 0 else (old + 1) % 2 ^ w)

/-- The compare value of ACAS: the entries just older than the new value (R201). -/
def State.laneCmp (s : State) (g : Group) (op : AtomOp) (f : MFields) (n : Fin 32) : List Byte :=
  match op, f.data.src with
  | .cas, .age k =>
    let e := s.env g g.lanes[n] []
    if f.size = .b64 then leBytes 8 (e.raw .b64 (.age (k + 2))) else leBytes 4 (e.raw .b32 (.age (k + 1)))
  | _, _ => []

/-- An atomic of class M by its operation (R202 to R204, R208, R211, R225). -/
def State.atomicOp (s : State) (i : Instr) (op : AtomOp) (f : MFields) : Res :=
  s.memGate i fun g =>
    let flag := s.mFlag f
    let as := s.laneAddrs g f
    match (s.mFault g f true (some .store) as).or (s.fillFault g f as) with
    | some x => .next (s.faultAccess g (s.walkAddrs g f as) x)
    | none =>
      match s.loggedOverlap g f.space f.size.bytes (as.map (·.2)) with
      | [] =>
        s.fabricRelease (f.order == .release || f.order == .acqRel) f.scope g fun s g =>
          if g.flagFull flag then .next s
          else
            let s1 := s.setGroup s.iss.core s.iss.frame g
            let w := bytesWords f.size.bytes
            .next (State.sent (as.foldl (fun (t : State) a =>
              let r := { s.mReq g i f flag (.atomic op f.sx) a.1.val a.2 with
                data := s.laneData g f (mDataTy (if op = .fadd then 0x10 else 8) f) a.1, cmp := s.laneCmp g op f a.1 }
              if f.space = .global then
                match s.placeAt t g (some (lastReg s.iss.frame a.1.val)) .store r with
                | some p => p.1.reserveFor a.1 w p.2
                | none => t
              else
                match t.window s.iss.core g f.space a.2.toNat f.size.bytes with
                | some (p, x) => t.reserveFor a.1 w { r with peer := p, pa := x, stage := .scratch }
                | none => t) s1) flag)
      | ids => .next (s.waitFor g ids)

/-- AADD (R208). -/
def execAadd (f : MFields) (s : State) : Res := s.atomicOp (.aadd f) .add f
/-- AMIN (R208). -/
def execAmin (f : MFields) (s : State) : Res := s.atomicOp (.amin f) .min f
/-- AMAX (R208). -/
def execAmax (f : MFields) (s : State) : Res := s.atomicOp (.amax f) .max f
/-- AAND (R208). -/
def execAand (f : MFields) (s : State) : Res := s.atomicOp (.aand f) .and f
/-- AOR (R208). -/
def execAor (f : MFields) (s : State) : Res := s.atomicOp (.aor f) .or f
/-- AXOR (R208). -/
def execAxor (f : MFields) (s : State) : Res := s.atomicOp (.axor f) .xor f
/-- AXCHG (R208). -/
def execAxchg (f : MFields) (s : State) : Res := s.atomicOp (.axchg f) .xchg f
/-- ACAS (R208). -/
def execAcas (f : MFields) (s : State) : Res := s.atomicOp (.acas f) .cas f
/-- AFADD (R111, R208). -/
def execAfadd (f : MFields) (s : State) : Res := s.atomicOp (.afadd f) .fadd f
/-- AINC (R208). -/
def execAinc (f : MFields) (s : State) : Res := s.atomicOp (.ainc f) .inc f

/-! ## Scalar memory instructions (R133, R134) -/

/-- The address of a scalar memory instruction (R133). -/
def State.sAddr (s : State) (op : Nat) (f : SFields) (g : Group) : DWord :=
  BitVec.ofNat 64 (s.sSrc op f g).1 + f.imm.signExtend 64

/-- The faults of a scalar memory instruction (R134, R222, R279). -/
def State.sFault (s : State) (g : Group) (write : Bool) (n : Nat) (a : DWord) : Option (Cause × DWord) :=
  (s.addrFault g .global n write [a]).or <|
  (s.xlateFault g (if write then .store else .load) [(none, a)]).or <|
  (s.watched g write n [a]).map fun x => (.watch, x)

/-- Bytes of a scalar memory access by its type (R133). -/
def sBytes (f : SFields) : Nat := if f.ty.is64 then 8 else 4

/-- The request of a scalar memory instruction. -/
def State.sReq (s : State) (g : Group) (i : Instr) (f : SFields) (kind : ReqKind) (a : DWord) (dst : Bool) : Req :=
  { Req.blank s g 32 with
    kind := kind, va := a, size := sBytes f, flag := flagOf s.iss.flagA, clk := (s.core s.iss.core).clock,
    inst := instrUnit i, dst := if dst then some (f.dst.toNat, if f.ty.is64 then 2 else 1) else none }

/-- The instructions of a scalar access after its checks, sent (R133). -/
def State.sSend (s : State) (g : Group) (acc : Acc) (r : Req) (patch : Bool) : Res :=
  if g.flagFull r.flag then .next s
  else
    match s.placeAt s g none acc r with
    | some p =>
      let s1 := p.1.send p.2
      .next ((if patch then s1.patchL1 s.iss.core p.2.pa r.data else s1).sent r.flag)
    | none => .next s

/-- Whether an address lies on a page of another device, whose home may refuse a load of it (R409, R410). -/
def State.devAt (s : State) (g : Group) (a : DWord) : Bool := (s.lookup s.iss.core none g.ctx a).any fun e => pteDev e.pte

/-- SLD; of another device's page it takes a log place (R133, R134, R210, R423). -/
def execSld (f : SFields) (s : State) : Res :=
  s.memGate (.sld f) fun g =>
    let a := s.sAddr 0x50 f g
    match s.sFault g false (sBytes f) a with
    | some x => .next (s.faultAccess g [(none, a)] x)
    | none => s.withPlaces g (if s.devAt g a then 1 else 0) (s.sSend g .load (s.sReq g (.sld f) f .load a true) false)

/-- SST (R133, R134). -/
def execSst (f : SFields) (s : State) : Res :=
  s.memGate (.sst f) fun g =>
    let a := s.sAddr 0x51 f g
    match s.sFault g true (sBytes f) a with
    | some x => .next (s.faultAccess g [(none, a)] x)
    | none =>
      match s.loggedOverlap g .global (sBytes f) [a] with
      | [] => s.sSend g .store { s.sReq g (.sst f) f .store a false with data := leBytes (sBytes f) (s.sSrc 0x51 f g).2 } true
      | ids => .next (s.waitFor g ids)

/-- The atomic that COND names (R133). -/
def satomOp (c : Nat) : AtomOp :=
  match c with
  | 0 => .add | 1 => .min | 2 => .max | 3 => .and | 4 => .or | _ => .xchg

/-- SATOM: ORDER 4, SCOPE 4 (R133, R134). -/
def execSatom (f : SFields) (s : State) : Res :=
  s.memGate (.satom f) fun g =>
    let a := s.sAddr 0x52 f g
    match s.sFault g true (sBytes f) a with
    | some x => .next (s.faultAccess g [(none, a)] x)
    | none =>
      match s.loggedOverlap g .global (sBytes f) [a] with
      | [] =>
        s.sSend g .store { s.sReq g (.satom f) f (.atomic (satomOp f.cond.toNat) f.ty.isSigned) a true with
          order := .relaxed, scope := .package, data := leBytes (sBytes f) (s.sSrc 0x52 f g).2 } false
      | ids => .next (s.waitFor g ids)

end Sys2Proof.Machine
end

