-- ==== Sys2Proof/Machine/MemEvents.lean ====
section
/-! DEFINITION. Accesses in flight: translation, service at the home or at a window core, replies and arrivals, block
fills and replay (R186, R204 to R212, R224 to R229, R331 to R334, R343, R347, R414, R415, R423). -/

namespace Sys2Proof.Machine

open Sys2Proof

/-! ## Requests -/

def State.req? (s : State) (id : Nat) : Option Req := s.reqs.find? fun r => r.id == id

def State.modReq (s : State) (id : Nat) (u : Req → Req) : State :=
  { s with reqs := s.reqs.map fun r => if r.id == id then u r else r }

/-- Whether a request is a store or atomic with a release, and an access with an acquire (R204). -/
def Req.releases (r : Req) : Bool := r.isWrite && (r.order == .release || r.order == .acqRel)
def Req.acquires (r : Req) : Bool := r.order == .acquire || r.order == .acqRel

/-- A global access (R202). -/
def Req.global (r : Req) : Bool := r.space == .global

/-- An access that has not taken effect. -/
def Req.unperformed (r : Req) : Bool := r.stage == .walk || r.stage == .ready || r.stage == .scratch || r.stage == .asleep

/-- Two accesses to overlapping bytes (R205). -/
def Req.overlaps (q r : Req) : Bool :=
  let meet := fun (a n b m : Nat) => decide (a < b + m ∧ b < a + n)
  if q.global && r.global then
    (q.stage != .walk && r.stage != .walk && meet q.pa q.size r.pa r.size) ||
      (q.ctx == r.ctx && meet q.va.toNat q.size r.va.toNat r.size)
  else !q.global && !r.global && q.peer == r.peer && meet q.pa q.size r.pa r.size

/-- Whether an earlier access must take effect first: an overlapping write of the same core before a write, and before a global
read that the home serves; an overlapping write of the same split before a scratch read; an overlapping read of the same group
(R186, R205, R330). -/
def State.heldBack (s : State) (r : Req) : Bool :=
  s.reqs.any fun q => decide (q.id < r.id) && q.core == r.core && q.op != r.op && q.unperformed && q.overlaps r && (r.src.isNone || q.src.isSome) &&
    (if q.isWrite then r.isWrite || r.global || (q.frame == r.frame && q.mask &&& r.mask != 0)
     else q.frame == r.frame && (r.isWrite || q.stage != .asleep))

/-- Whether a copy in L1 may not serve a read: a store issued after it stands in the copy already, or an earlier read or atomic of
its group is not done (R205, R330). -/
def State.l1Blocked (s : State) (r : Req) : Bool :=
  s.reqs.any fun q => q.core == r.core && q.op != r.op && q.global && q.overlaps r &&
    (if decide (r.id < q.id) then q.kind == .store && q.src.isNone && q.unperformed
     else q.frame == r.frame &&
       ((q.isAtomic && (q.unperformed || q.stage == .data)) || (!q.isWrite && q.unperformed && q.stage != .asleep)))

/-- Whether a write of the core that the home has performed has not been acknowledged: a remote-data cache may not have it
(R205, R312). -/
def State.ackDue (s : State) (r : Req) : Bool :=
  s.reqs.any fun q => decide (q.id < r.id) && q.core == r.core && q.isWrite && (q.stage == .ack || q.stage == .data) && q.overlaps r

/-- A release FENCE of the group that waits holds back later stores and atomics (R338). -/
def State.fenced (s : State) (r : Req) : Bool :=
  match s.group? r.core r.frame with
  | none => false
  | some g => g.waits.any fun w => (w.fenceOrder == 2 || w.fenceOrder == 3) && decide (w.seq < r.seq)

/-- The request is over: its flag falls when the instruction has no other access in flight (R24, R197). -/
def State.doneReq (s : State) (r : Req) : State :=
  let s1 := { s with reqs := s.reqs.filter fun q => q.id != r.id }
  if s1.reqs.any fun q => q.op == r.op && q.stage != .logged then s1
  else s1.modGroup r.core r.frame fun g => g.flagDown r.flag

/-- An asynchronous fault on the split that issued a request (R262, R423). -/
def State.asyncFault (s : State) (r : Req) (c : Cause) (a : DWord) : State :=
  s.modGroup r.core r.frame fun g => { g with async := g.async ++ [⟨c, a, r.mask⟩] }

/-- The lease of a context on a core (R199). -/
def State.leaseOf (s : State) (k ctx : Nat) : Nat := (Sparse.get? (s.core k).leases ctx).getD 64

/-! ## Translation (R210, R374) -/

/-- Parts of one lane's access. -/
def Req.sameLane (q r : Req) : Bool := q.op == r.op && q.lane == r.lane

/-- A load whose translation failed is logged, the whole lane of it; the entry names the cause and the effective address of its lowest
faulting lane (R210, R212, R261, R262). -/
def State.logReq (s : State) (r : Req) (c : Cause) (a : DWord) : State :=
  let s1 := { s with reqs := s.reqs.map fun (q : Req) => if q.sameLane r then { q with stage := .logged } else q }
  s1.modGroup r.core r.frame fun g =>
    let lowest := !s.reqs.any fun q => q.op == r.op && q.stage == .logged && decide (q.lane ≤ r.lane)
    let a := a - (r.va - ((s.reqs.find? fun q => q.sameLane r).getD r).va)
    let g1 := if g.log.any fun e => e.op == r.op then
        { g with log := g.log.map fun e => if e.op == r.op && lowest then { e with cause := some c, faddr := a } else e }
      else { g with log := g.log ++ [⟨r.op, r.pc, r.inst, some c, r.flag, a⟩] }
    if s1.reqs.any fun q => q.op == r.op && q.stage != .logged then g1 else g1.flagDown r.flag

/-- A write-back of a release ends in error: its FENCE reports it, or the split that released takes it; one that a team's
last retirement started (frame 64, `wb` its launch) is told to Sundoc (R229, R338). -/
def State.backError (s : State) (r : Req) (c : Cause) : State :=
  let s1 := { s with reqs := s.reqs.filter fun q => q.id != r.id }
  match s1.group? r.core r.frame with
  | none => if r.frame = 64 then s1.tell (.launchFault (r.wb.getD 0) c r.va) else s1
  | some g =>
    if g.waits.any fun w => w.fenceOrder != 0 && w.vals.head? == some r.op then
      s1.modGroup r.core r.frame fun g => { g with waits := g.waits.map fun w =>
        if w.fenceOrder != 0 && w.vals.head? == some r.op && w.vals.length == 1 then
          { w with vals := w.vals ++ [c.code, r.va.toNat] } else w }
    else s1.asyncFault r c r.va

/-- The lane whose last-page register an access uses. -/
def Req.lane? (r : Req) : Option Nat := if r.lane < 32 then some (lastReg r.frame r.lane) else none

/-- WALK_COMPLETE: a shoot-down since the walk began makes it walk again; else the access is translated, or logged
(R210, R371 to R374). -/
def execWalkComplete (req : Nat) (s : State) : Res :=
  match s.req? req with
  | none => .next s
  | some r =>
      let priv := match r.src, s.group? r.core r.frame with
        | some a, _ => (((s.core r.core).mapAt a).map (·.priv)).getD (s.privCtx.contains r.ctx)
        | none, some g => g.priv
        | none, none => s.privCtx.contains r.ctx
      if r.stage ≠ .walk then .next s
      else if r.sdgen ≠ (s.core r.core).sdgen then
        .next { s with reqs := s.reqs.map fun (q : Req) => if q.sameLane r then { q with sdgen := (s.core r.core).sdgen } else q }
      else if r.global then
        let acc := if r.kind = .store then Acc.store else Acc.load
        match s.translate r.core r.lane? r.ctx priv acc r.va with
        | .ok e =>
          if acc = .store ∧ pteDev e.pte then .next (s.backError r .prot)
          else
            let s1 := s.noteXlate r.core r.lane? r.va e
            .next { s1 with reqs := s1.reqs.map fun (q : Req) => if q.id = req ∨ (q.sameLane r ∧ q.stage = .walk ∧ r.kind = .load) then q.placed e else q }
        | .error c =>
          if r.kind = .store then
            (if c = .page then .next (s.tell (.engineFault r.core r.op c r.va)) else .next ((s.noteWalk r.core r.lane? r.ctx r.va).backError r c))
          else .next ((s.noteWalk r.core r.lane? r.ctx r.va).logReq r c r.va)
      else
        match (s.core r.peer).mapAt r.pa with
        | none => .next (s.modReq req fun q => { q with stage := .scratch })
        | some m =>
          let a := (s.core r.peer).globalOf m r.pa
          match s.translate r.core none r.ctx priv .load a with
          | .ok e =>
            let s1 := s.noteTlb r.core e
            if pteDev e.pte then .next (s1.logReq r .prot a)
            else .next { s1 with reqs := s1.reqs.map fun (q : Req) => if q.sameLane r ∧ q.stage = .walk then { q with stage := .scratch, soft := true } else q }
          | .error c => .next ((s.noteWalk r.core none r.ctx a).logReq r c a)

/-! ## A release while its instruction waits (R204) -/

/-- What a release finds. -/
inductive Released where
  /-- it waits; write-backs may have been started -/
  | hold (s : State)
  /-- it is complete: the clock stands at ACKMAX or later -/
  | go (s : State)
  deriving DecidableEq, Repr, Inhabited

/-- A release at a scope by the instruction at a place of a group's program order (R204, R334, R338, R347). -/
def State.release (s : State) (k f seq : Nat) (sc : Scope) (mask : BitVec 8) (pc : DWord) (wb : Option Nat) (mark : Nat → State → State) :
    Released :=
  if s.earlierWrites k f seq then .hold s
  else
    if sc.code < 3 then .go (s.releaseDone k f)
    else
      match wb with
      | none => .hold (mark s.nextOp (s.startBacks k f seq mask pc))
      | some op => if s.backsOut k op then .hold s else .go (s.releaseDone k f)

/-- A store or atomic with a release, before it is performed: the lanes of one instruction make one release (R204). -/
def State.releaseReq (s : State) (r : Req) : Released :=
  if r.releases then s.release r.core r.frame r.seq r.scope r.mask r.pc r.wb fun op t =>
    { t with reqs := t.reqs.map fun (q : Req) => if q.op = r.op ∧ q.src = none then { q with wb := some op } else q }
  else .go s

/-! ## At the home (R309, R334) -/

/-- Whether an FCOPY may still write to a device: where a page of its destination has no translation, it may (R415, R421). -/
def State.copiesTo (s : State) (k : Nat) (h : HandleSlot) (dev : Nat) : Bool :=
  let wide := fun (i : Nat) => (h.block.getD i 0).toNat + 2 ^ 32 * (h.block.getD (i + 1) 0).toNat
  (rangePages (BitVec.ofNat 64 (wide 2)) (wide 4 % 2 ^ 32)).any fun p =>
    match s.lookup k none h.ctx p with
    | some e => pteDev e.pte && e.pa p / 2 ^ 52 == dev
    | none => true

/-- Whether an earlier remote write of the group to the same device is still to be sent, a word of an FCOPY that runs among them (R415). -/
def State.remoteBehind (s : State) (r : Req) : Bool :=
  s.reqs.any (fun q => (decide (q.seq < r.seq) || q.seq == r.seq && decide (q.id < r.id)) && q.core == r.core && q.frame == r.frame &&
    q.isWrite && q.dev && q.stage == .ready && q.pa / 2 ^ 52 == r.pa / 2 ^ 52) ||
  (s.core r.core).handles.any fun p => p.2.op == 0x21 && p.2.owner == r.frame && decide (p.2.seq < r.seq) &&
    (p.2.state == .running || p.2.state == .paused) && s.copiesTo r.core p.2 (r.pa / 2 ^ 52)

/-- The bytes a store writes: a write-back reads them from scratch as it is performed (R229). -/
def State.storeData (s : State) (r : Req) : List Byte :=
  match r.src with
  | some a => Memory.read (s.core r.core).scratch a r.size
  | none => r.data

/-- The line of another die as a write left it, for the remote-data cache (R312). -/
def State.leftBy (s : State) (r : Req) : List Byte :=
  if isHbm r.pa && !s.hostLine r.pa && dieOf r.core != r.pa / 2 ^ 36 then s.lineData r.pa else []

/-- Whether an acknowledgement on its way is of the same message as a write of the same instruction on its line: it carries the line
as the later of them left it (R312, log entry 32). -/
def Req.sharesAck (q r : Req) (wts : Nat) : Bool :=
  q.op == r.op && q.kind == .store && q.stage == .ack && q.wts == wts && lineOf q.pa == lineOf r.pa

/-- HOME_STORE: a store is performed at its home, or sent to another device, its release first (R204, R205, R320, R331, R334,
R381, R415, R417). -/
def execHomeStore (req : Nat) (evict : List Nat) (s : State) : Res :=
  match s.req? req with
  | none => .next s
  | some r =>
    if r.kind ≠ .store ∨ r.stage ≠ .ready ∨ s.heldBack r ∨ s.fenced r then .next s
    else if r.dev then
      (if s.remoteBehind r then .next s
       else
         match s.releaseReq r with
         | .hold s1 => .next s1
         | .go s1 => .next (s1.modReq req fun q => { q with stage := .reply, sent := s.ptime }))
    else
      match s.releaseReq r with
      | .hold s1 => .next s1
      | .go s1 =>
        let clk := if r.releases then Nat.max r.clk (s1.core r.core).clock else r.clk
        let bad := match r.src with | some a => (s1.core r.core).scratchPoison.contains (a / 4) | none => false
        if bad then .next (s1.backError r .poison)
        else
        let bs := s1.storeData r
        let p := (s1.evictAll evict).performWrite r.core r.pa bs clk r.dirty r.comp (some r.op)
        let left := p.1.leftBy r
        let bad := p.1.poisoned (lineOf r.pa * 128) 128
        .next { p.1 with reqs := p.1.reqs.map fun (q : Req) =>
          if q.id == req then { q with stage := .ack, wts := p.2, data := bs, line := left, spoilt := bad }
          else if q.sharesAck r p.2 then { q with line := left, spoilt := bad } else q }

/-- HOME_ATOMIC: read, compute and write in one step; a failing ACAS writes nothing (R208, R209, R334, R381). What is computed from
poisoned bytes is poisoned (log entry 62). -/
def execHomeAtomic (req : Nat) (evict : List Nat) (s : State) : Res :=
  match s.req? req with
  | none => .next s
  | some r =>
    match r.kind with
    | .atomic op signed =>
      if r.stage ≠ .ready ∨ s.heldBack r ∨ s.fenced r then .next s
      else if r.dev then
        (if s.remoteBehind r then .next s else .next (s.modReq req fun q => { q with stage := .reply, sent := s.ptime }))
      else
        match s.releaseReq r with
        | .hold s1 => .next s1
        | .go s1 =>
          let s2 := s1.evictAll evict
          let old := s2.phys r.pa r.size
          let was := if s2.hostLine r.pa then s2.hostmark else (s2.lineTs (lineOf r.pa)).wts
          let host := s2.hostLine r.pa
          let clk := if r.releases then Nat.max r.clk (s1.core r.core).clock else r.clk
          match op.value signed (8 * r.size) (leNat old) (leNat r.data) (leNat r.cmp) with
          | none =>
            .next ((if host then s2 else s2.dropOlder (dieOf r.core) (lineOf r.pa) was).modReq req fun q =>
              { q with stage := .data, wts := if host then 0 else was, rts := was, cmp := [], data := old, poison := s2.poisoned r.pa r.size })
          | some v =>
            let p := s2.performWrite r.core r.pa (leBytes r.size v) clk r.dirty r.comp none
            let bad := s2.poisoned r.pa r.size
            let s3 := if bad && op != AtomOp.xchg then p.1.poisonHome r.pa r.size else p.1
            .next (s3.modReq req fun q =>
              { q with stage := .data, wts := p.2, rts := was, cmp := leBytes r.size v, data := old, poison := bad, line := p.1.leftBy r,
                       spoilt := s3.poisoned (lineOf r.pa * 128) 128 })
    | _ => .next s

/-- A copy in L1 that a plain load of a request may read: its lease runs, or it is software-managed and of this
generation; a WAITV always needs the lease (R187, R207, R334, R343, R344). -/
def State.copyHit (s : State) (r : Req) : Option Copy :=
  let c := s.core r.core
  (Sparse.get? c.l1 (lineOf r.pa)).filter fun x =>
    match x.soft with
    | some t => r.soft && t == c.swgen % 16 && (r.kind != .waitv || decide (c.clock ≤ x.rts))
    | none => decide (c.clock ≤ x.rts)

/-- Whether a core holds a copy of a request's line. -/
def State.hasCopy (s : State) (r : Req) : Bool := (Sparse.get? (s.core r.core).l1 (lineOf r.pa)).isSome

/-- A read that L1 may serve (R187, R334, R343). -/
def Req.plainRead (r : Req) : Bool := (r.kind == .load || r.kind == .waitv) && r.order == .plain && r.hint != .bypass

/-- Whether the core has another renewal of the line outstanding (R334). -/
def State.renewing (s : State) (r : Req) : Bool :=
  s.reqs.any fun q => q.id != r.id && q.core == r.core && q.global && !q.isWrite && q.stage == .reply && lineOf q.pa == lineOf r.pa

/-- A read served at the home without a lease: ORDER 4 or HINT 3 with no copy present, and every host-homed or remote
line (R334, R347, R414). -/
def State.readsBare (s : State) (r : Req) : Bool :=
  r.dev || s.hostLine r.pa || (r.kind == .load && (r.order == .relaxed || (r.hint == .bypass && r.order != .acquire)) && !s.hasCopy r)

/-- A reply on its way with a line as its home reads it (R325, R334). -/
def State.replyWith (s : State) (r : Req) (wts rts : Nat) (line : List Byte) (x : Crossing) : State :=
  s.modReq r.id fun q => { q with stage := .reply, wts := wts, rts := rts, data := line, poison := s.poisoned r.pa r.size, crossing := x,
                                   spoilt := s.poisoned (lineOf r.pa * 128) 128 }

/-- A reply on its way with the line of a cache, whose copies hold no poisoned bytes (R312). -/
def State.replyCached (s : State) (r : Req) (wts rts : Nat) (line : List Byte) : State :=
  s.modReq r.id fun q => { q with stage := .reply, wts := wts, rts := rts, data := line, poison := false, crossing := .none, spoilt := false }

/-- What a home sends for a renewal: a grant alone where the core's copy or its die's cache has the line's wts, as far as the request is no
acquire or read of the home (R304, R334). -/
def State.crossingOf (s : State) (r : Req) (wts : Nat) : Crossing :=
  let same := fun (c : Copy) => c.wts == wts
  if (r.plainRead || r.kind == .pref || r.kind == .renew) &&
      ((Sparse.get? (s.core r.core).l1 (lineOf r.pa)).any same || (Sparse.get? (s.die (dieOf r.core)).rdc (lineOf r.pa)).any same)
  then .grant else .data

/-- HOME_RENEWAL: a renewal or fill, by the remote-data cache where its lease reaches, else at the home (R311, R312, R334). -/
def execHomeRenewal (req : Nat) (evict : List Nat) (s : State) : Res :=
  match s.req? req with
  | none => .next s
  | some r =>
    let reads := r.kind == .load || r.kind == .waitv || r.kind == .pref || r.kind == .renew
    if !reads || r.stage != .ready || !r.global || s.readsBare r || s.heldBack r ||
        (r.plainRead && (((s.copyHit r).isSome && !s.l1Blocked r) || s.renewing r)) then .next s
    else
      let c := (s.core r.core).clock
      let top := c + s.leaseOf r.core r.ctx
      let d := dieOf r.core
      let cached := if !s.ackDue r && (r.plainRead || r.kind == .pref || r.kind == .renew) then
          (Sparse.get? (s.die d).rdc (lineOf r.pa)).filter fun x => decide ((if r.kind == .renew then top else c) ≤ x.rts)
        else none
      match cached with
      | some x => .next (s.replyCached r x.wts (Nat.min x.rts top) x.data)
      | none =>
        let s1 := s.evictAll evict
        let p := s1.homeRenew (lineOf r.pa) c (s.leaseOf r.core r.ctx)
        let line := p.1.lineData r.pa
        let s2 := p.1.replyWith r p.2.wts (Nat.min p.2.rts top) line (s.crossingOf r p.2.wts)
        .next (if d = r.pa / 2 ^ 36 then s2 else s2.keepRdc d (lineOf r.pa) ⟨p.2.wts, Nat.min p.2.rts top, line, none, 0, false⟩)

/-- HOME_READ: a read at the home that leaves its lease, a host-homed line, or a line of another device, which its copy
serves while its physical lease runs (R334, R347, R414, R424). -/
def execHomeRead (req : Nat) (s : State) : Res :=
  match s.req? req with
  | none => .next s
  | some r =>
    let reads := r.kind == .load || r.kind == .waitv || r.kind == .pref || r.kind == .renew
    if !reads || r.stage != .ready || !r.global || !s.readsBare r || s.heldBack r then .next s
    else if r.dev then
      let cached := if r.kind == .load && r.plainRead && s.timeSync then
        (Sparse.get? (s.die (dieOf r.core)).rdc (lineOf r.pa)).filter fun x => decide (s.ptime < x.rts) else none
      match cached with
      | some x => .next (s.modReq req fun q => { q with stage := .data, wts := 0, rts := 0, data := (x.data.drop (r.pa % 128)).take r.size })
      | none => .next (s.modReq req fun q => { q with stage := .reply, sent := s.ptime })
    else if s.hostLine r.pa then
      .next ((s.replyWith r 0 0 (s.lineData r.pa) .data).modReq req (fun q => { q with clk := s.hostmark })
        |>.keepRdc (dieOf r.core) (lineOf r.pa) ⟨0, 0, s.lineData r.pa, none, 0, false⟩)
    else
      let w := (s.lineTs (lineOf r.pa)).wts
      .next ((s.dropOlder (dieOf r.core) (lineOf r.pa) w).replyWith r w 0 (s.lineData r.pa) .data)

/-! ## Replies (R187, R312, R334, R414) -/

/-- Bytes laid over a line. -/
def overlay (line : List Byte) (off : Nat) (bs : List Byte) : List Byte := line.take off ++ bs ++ line.drop (off + bs.length)

/-- Stores of a core to a line that a reply does not include: not performed yet, or performed later (R331). -/
def State.ownStores (s : State) (k line wts : Nat) (bs : List Byte) : List Byte :=
  (s.reqs.filter fun q => q.core == k && q.kind == .store && q.global && !q.dev && q.src.isNone && lineOf q.pa == line &&
    (q.stage == .ready || (q.stage == .ack && decide (wts < q.wts)))).foldl (fun l q => overlay l (q.pa % 128) q.data) bs

/-- Whether an answer of the same line that its home gave earlier is still on its way to the core. -/
def State.answerBehind (s : State) (r : Req) : Bool :=
  s.reqs.any fun q => q.id != r.id && q.core == r.core && q.global && !q.dev && lineOf q.pa == lineOf r.pa &&
    (q.stage == .reply || q.stage == .ack || (q.stage == .data && q.isAtomic)) && decide (q.wts < r.wts)

/-! L1 as R187 has it: sets of ways, least recently used replacement, and the hints. -/

/-- Sets of a core's L1: its steps of 64 KiB hold 512 lines each (R182, R187). -/
def Core.l1Sets (c : Core) : Nat := Nat.max 1 ((c.carve.toList.getD 3 0).toNat * 512 / Config.l1Ways)

/-- The lines of the set of a line, without it. -/
def Core.l1Near (c : Core) (line : Nat) : Sparse Copy :=
  c.l1.filter fun p => p.1 != line && setOf Config.l1Hash c.l1Sets p.1 == setOf Config.l1Hash c.l1Sets line

/-- The line that leaves a set: the least recently used of those a fill may replace (R187). -/
def l1Victim (near : Sparse Copy) (keeps : Bool) : Option Nat :=
  let free := if keeps || near.all (·.2.keep) then near else near.filter fun p => !p.2.keep
  (free.foldl (fun (b : Option (Nat × Copy)) p => match b with
    | some q => if p.2.used < q.2.used then some p else b
    | none => some p) none).map (·.1)

/-- A line put into L1: a present one is refreshed, another takes a way of its set by its hint; a streamed one is older than every
other, so that it leaves next (R187). -/
def Core.fillL1 (c : Core) (line : Nat) (x : Copy) (h : Hint) : Core :=
  match Sparse.get? c.l1 line with
  | some old => { c with l1 := Sparse.put c.l1 line { x with used := c.l1Uses, keep := old.keep }, l1Uses := c.l1Uses + 1 }
  | none =>
    let near := if c.l1.isEmpty then [] else c.l1Near line
    let keeps := h == .keep && decide (4 * ((near.filter (·.2.keep)).length + 1) ≤ Config.l1Ways)
    let l1 := if near.isEmpty || decide (near.length < Config.l1Ways) then c.l1
      else match l1Victim near keeps with | some v => Sparse.erase c.l1 v | none => c.l1
    let older := if h == .stream then l1.map fun p => (p.1, { p.2 with used := p.2.used + 1 }) else l1
    { c with l1 := Sparse.put older line { x with used := if h == .stream then 0 else c.l1Uses, keep := keeps }, l1Uses := c.l1Uses + 1 }

/-- A use of a line in L1 (R187). -/
def Core.useL1 (c : Core) (line : Nat) : Core :=
  match Sparse.get? c.l1 line with
  | some x => { c with l1 := Sparse.put c.l1 line { x with used := c.l1Uses }, l1Uses := c.l1Uses + 1 }
  | none => c

/-- A value later than the copy in L1 leaves no such copy there (R330). -/
def Core.dropOlder (c : Core) (line wts : Nat) : Core :=
  match Sparse.get? c.l1 line with
  | some x => if x.wts < wts then { c with l1 := Sparse.erase c.l1 line } else c
  | none => c

/-- A reply taken into L1: a copy is made or refreshed under its lease; of one that makes none no older copy stays
(R187, R330, R334, R343). -/
def State.installCopy (s : State) (r : Req) : State :=
  let c := s.core r.core
  let line := lineOf r.pa
  let have' := Sparse.get? c.l1 line
  let bare := r.hint == .bypass || r.order == .relaxed
  if r.rts = 0 ∨ r.spoilt ∨ (have' = none ∧ bare ∧ r.kind = .load) then s.modCore r.core fun c => c.dropOlder line r.wts
  else
    let data := match have' with
      | some x => if x.wts = r.wts then x.data else s.ownStores r.core line r.wts r.data
      | none => s.ownStores r.core line r.wts r.data
    let newer := match have' with | some x => decide (x.wts ≤ r.wts) | none => true
    if newer then
      s.modCore r.core fun c => c.fillL1 line ⟨r.wts, r.rts, data, if r.soft then some (c.swgen % 16) else none, 0, false⟩ r.hint
    else s

/-- The event that delivers a request's data. -/
def Req.arrival (r : Req) : Move := .event (if r.dst.isSome then .scalarDataArrival r.id else .loadDataArrival r.id)

/-- The end of the physical lease of a copy fetched in a window (R414). -/
def State.leaseEnd (s : State) (window : Nat) : Nat := (window + 2) * s.winLen.toNat - 50

/-- An FCOPY whose word or block came back refused or in error: its operation ends in the error state (R423). Its accesses
have lane 34 for its reads and 35 for its writes, and `wb` names its slot. -/
def State.copyRefused (s : State) (r : Req) (c : Cause) : State :=
  let idx := r.wb.getD 0
  let s1 := { s with reqs := s.reqs.filter fun q => q.id != r.id && !(q.lane == 34 && q.op == r.op) }
  s1.modCore r.core fun x =>
    match Sparse.get? x.handles idx with
    | some h =>
      if h.op = 0x21 ∧ h.words.head? = some r.op ∧ (h.state = .running ∨ h.state = .paused) then
        { x with handles := Sparse.put x.handles idx { h with state := .error, errCause := some c, errAddr := r.va },
                 locks := x.locks.filter fun l => !(l.core == r.core && l.owner == idx) }
      else x
    | none => x

/-- Packets that a port's link has sent again after a CRC error, counted by the port (R425). -/
def State.countRetries (s : State) (port n : Nat) : State :=
  let p := s.ports.toList.getD port (0, 0)
  { s with ports := s.ports.setIfInBounds port (p.1, (p.2 + n) % 2 ^ 32) }

/-- A remote answer to an access of another device (R410, R414, R415, R423, R425). -/
def State.remoteAnswer (s : State) (r : Req) : RemoteReply → State
  | .none => s
  | .retried port n x => State.remoteAnswer (s.countRetries port n) r x
  | .refused =>
    if r.lane = 34 ∨ r.lane = 35 then s.copyRefused r .prot
    else if r.kind = .store then (s.asyncFault r .prot r.va).doneReq r
    else if r.kind = .pref ∨ r.kind = .renew then s.doneReq r
    else s.logReq r .prot r.va
  | .error =>
    if r.lane = 34 ∨ r.lane = 35 then s.copyRefused r .poison
    else if r.kind = .store then (s.asyncFault r .poison r.va).doneReq r
    else (s.modReq r.id fun q => { q with stage := .data, poison := true, data := List.replicate r.size 0 }).prepend [r.arrival]
  | .data bs w =>
    let off := r.pa % 128
    if r.isWrite then
      let s1 := s.modReq r.id fun q =>
        { q with stage := if r.kind = .store then .ack else .data, data := bs.take r.size, wts := (w.map (· + 1)).getD 0 }
      if r.kind = .store then s1 else s1.prepend [r.arrival]
    else
      let s1 := s.modReq r.id fun q => { q with stage := .data, wts := 0, rts := 0, data := (bs.drop off).take r.size }
      (match (if r.order == Order.relaxed || r.hint == Hint.bypass then none else w) with
        | some n => s1.putRdc (dieOf r.core) (lineOf r.pa) ⟨0, s.leaseEnd n, bs.take 128, none, 0, false⟩
        | none => s1).prepend [r.arrival]

/-- RENEWAL_REPLY: a reply reaches the core, whose copy takes it; the data goes to its entries next (R187, R334). -/
def execRenewalReply (req : Nat) (ext : RemoteReply) (s : State) : Res :=
  match s.req? req with
  | none => .next s
  | some r =>
    if r.stage ≠ .reply ∨ r.kind = .long then .next s
    else if r.dev then .next (s.remoteAnswer r ext)
    else if r.isWrite || s.answerBehind r then .next s
    else
      let s1 := s.installCopy r
      .next ((s1.modReq req fun q => { q with stage := .data, data := (r.data.drop (r.pa % 128)).take r.size }).prepend [r.arrival])

/-! ## Arrivals (R17, R23, R24, R197, R334) -/

/-- A value as it is written to the entries (R206). -/
def Req.words (r : Req) (bs : List Byte) : List Word :=
  if r.sx && decide (r.size < 4) && r.kind == .load then [BitVec.ofNat 32 (wrapInt 32 (sextNat (8 * r.size) (leNat bs)))]
  else leWords bs

/-- The clocks and the group's registers after a read has its value (R204, R333, R334, R347); of a line of another device the leases are
physical, and an acquire at fabric scope takes RDMAX and FABMARK alone (R414, R417, R418). -/
def State.readDone (s : State) (r : Req) : State :=
  if !r.global then s
  else
    let s1 := if r.dev then s else s.modGroup r.core r.frame fun g =>
      { g with rdmax := Nat.max g.rdmax r.wts, ackmax := if r.isAtomic && !r.cmp.isEmpty then Nat.max g.ackmax r.wts else g.ackmax,
               hostSt := g.hostSt || (r.isAtomic && !r.cmp.isEmpty && s.hostLine r.pa) }
    if r.acquires then
      let seen := if r.isAtomic then r.rts else if s.hostLine r.pa then r.clk else r.wts
      let s2 := if r.dev then s1 else s1.raiseClock r.core seen
      if r.scope = .fabric then
        s2.raiseClock r.core (Nat.max (((s2.group? r.core r.frame).map (·.rdmax)).getD 0) s2.fabmark)
      else s2
    else s1

/-- A remote write's acknowledgement counts toward the group's window: its home's window, or the one in which it
arrives; a write that completes with POISON was never performed, and counts for none (R415, R422). -/
def State.ackRemote (s : State) (r : Req) : State :=
  let n := if r.wts = 0 then s.ptime / s.winLen.toNat else r.wts - 1
  s.modGroup r.core r.frame fun g => { g with fabWin := some (Nat.max n (g.fabWin.getD 0)) }

/-- An atomic's answer reaches the core: the remote-data cache and a present L1 copy take its new value, the copy under the core's
later stores; of a failing ACAS no older copy stays (R208, R312, R330). -/
def State.patchAtomic (s : State) (r : Req) : State :=
  if r.isAtomic && r.global && !r.dev && r.cmp.isEmpty then s.modCore r.core fun c => c.dropOlder (lineOf r.pa) r.wts
  else if r.isAtomic && r.global && !r.dev then
    let s := if r.line.isEmpty then s else s.refreshRdc (dieOf r.core) r.pa r.wts r.line r.spoilt
    match Sparse.get? (s.core r.core).l1 (lineOf r.pa) with
    | none => s
    | some c =>
      let data := s.ownStores r.core (lineOf r.pa) r.wts (overlay c.data (r.pa % 128) r.cmp)
      s.modCore r.core fun x => { x with l1 := Sparse.put x.l1 (lineOf r.pa) { c with data := data } }
  else s

/-- POISON of a lane's load that completes poisoned in the drain of its group, before the request's entries were filled: it is recorded where
the entries are the lane's own and its slice lives (R262, R271). -/
def State.drainPoisoned (s : State) (before : Group) (r : Req) : State :=
  let i := r.lane / 4
  let sl := before.slices.toList.getD i default
  if before.status = .preempt ∧ sl.exited ≠ 0xF ∧ (before.lanes.toList.getD r.lane default).pend.any (·.req == r.id) then
    let m := before.splitAt i
    s.raise r.core r.frame m ⟨.poison, .L, r.va, r.pc, lowSlice m, sl.iidx, none⟩
  else s

/-- Data in a lane's entries; poisoned data marks them (R17, R262). -/
def State.fillLane (s : State) (r : Req) (bs : List Byte) : State :=
  match s.group? r.core r.frame with
  | none => s
  | some g =>
    let s1 := s.fillReq r.core r.frame r.lane r.id r.entries (r.words bs)
    if r.poison then
      (s1.modGroup r.core r.frame fun h => h.markReq g r.lane r.id r.entries fun e => ⟨e, r.va, r.pc, r.flag⟩).drainPoisoned g r
    else s1

/-- A read is complete: data to its entries, clocks, flag (R24, R206, R334). -/
def State.complete (s : State) (r : Req) (bs : List Byte) : State :=
  let s1 := (s.patchAtomic r).fillLane r bs
  let s2 := if r.dev && r.isAtomic && !r.poison then s1.ackRemote r else s1
  (s2.readDone r).doneReq r

/-- A WAITV that has read a value: it completes where the value differs, else it sleeps (R207). One whose translation a shoot-down has removed
since it was sent has been performed, and translates again (R376). -/
def State.waitvRead (s : State) (r : Req) (bs : List Byte) : State :=
  if bs = r.cmp ∧ ¬ r.poison then
    (if s.shoots.any (fun x => x.started && x.pending.contains r.id) then
      { s.modReq r.id (fun q => { q with stage := .walk, sdgen := (s.core r.core).sdgen }) with
        shoots := s.shoots.map fun x => { x with pending := x.pending.filter (· != r.id) } }
     else s.modReq r.id fun q => { q with stage := .asleep })
  else s.complete r bs

/-- Data of one part of a lane's load is at the core: once every part of the lane has its own, its entries take them (R205,
R206). -/
def State.completeLane (s : State) (r : Req) : State :=
  let parts := s.reqs.filter fun q => q.sameLane r && q.kind == r.kind
  if parts.all fun q => q.stage == .data then parts.foldl (fun (t : State) q => t.complete q q.data) s else s

/-- A read that a copy in L1 serves now (R187, R205, R334). -/
def State.l1Serves (s : State) (r : Req) : Option Copy :=
  if r.stage = .ready ∧ r.plainRead ∧ r.global ∧ ¬ s.readsBare r ∧ ¬ s.l1Blocked r ∧ ¬ s.renewing r then s.copyHit r else none

/-- LOAD_DATA_ARRIVAL: a plain load or WAITV reads a copy whose lease runs, or a reply's data goes to the entries, an atomic's after
the answers that its line's home gave before (R187, R206, R207, R330, R334). -/
def execLoadDataArrival (req : Nat) (s : State) : Res :=
  match s.req? req with
  | none => .next s
  | some r =>
    if r.dst.isSome ∨ r.kind = .store ∨ r.kind = .long ∨ r.lane = 34 then .next s
    else if r.stage = .data then
      (if r.isAtomic ∧ r.global ∧ s.answerBehind r then .next s
       else if r.kind = .waitv then .next (s.waitvRead r r.data)
       else if r.kind = .pref ∨ r.kind = .renew then .next (s.doneReq r)
       else .next (s.completeLane r))
    else
      match s.l1Serves r with
      | none => .next s
      | some c =>
        let s1 := s.modCore r.core fun x => x.useL1 (lineOf r.pa)
        let bs := (c.data.drop (r.pa % 128)).take r.size
        let r1 := { r with wts := c.wts, stage := .data, data := bs }
        if r.kind = .waitv then .next (s1.waitvRead r1 bs)
        else .next ((s1.modReq req fun _ => r1).completeLane r1)

/-- A scalar read is complete: DST takes it unless a later-issued write has (R23, R133); poisoned data is reported where a
clause header waits on the flag (R134, R262). -/
def State.completeScalar (s : State) (r : Req) (bs : List Byte) : State :=
  let ws := leWords bs
  let s1 := (s.patchAtomic r).modGroup r.core r.frame fun g =>
    let g1 := match r.dst with
      | some (d, n) => (List.range n).foldl (fun g j => g.arriveScalar (d + j) r.seq (ws.getD j 0)) g
      | none => g
    if r.poison then { g1 with sPoison := g1.sPoison ++ [⟨0, r.va, r.pc, r.flag⟩] } else g1
  (s1.readDone r).doneReq r

/-- SCALAR_DATA_ARRIVAL (R23, R133). -/
def execScalarDataArrival (req : Nat) (s : State) : Res :=
  match s.req? req with
  | none => .next s
  | some r =>
    if r.dst.isNone then .next s
    else if r.stage = .data then (if r.isAtomic ∧ r.global ∧ s.answerBehind r then .next s else .next (s.completeScalar r r.data))
    else
      match s.l1Serves r with
      | none => .next s
      | some c => .next ((s.modCore r.core fun x => x.useL1 (lineOf r.pa)).completeScalar { r with wts := c.wts } ((c.data.drop (r.pa % 128)).take r.size))

/-- LONG_RESULT_READY: the entries of a special function, ACT or f64 instruction take its result (R17, R137). -/
def execLongResultReady (req : Nat) (s : State) : Res :=
  match s.req? req with
  | none => .next s
  | some r =>
    if r.kind ≠ .long then .next s
    else
      let s1 := s.fillReq r.core r.frame r.lane r.id r.entries (leWords r.data)
      .next { s1 with reqs := s1.reqs.filter fun q => q.id != req }

/-- STORE_ACK: ACKMAX takes the write's wts, the flag falls (R197, R229, R334, R415). -/
def execStoreAck (req : Nat) (s : State) : Res :=
  match s.req? req with
  | none => .next s
  | some r =>
    if r.kind ≠ .store ∨ r.stage ≠ .ack then .next s
    else if r.dev then .next ((s.ackRemote r).doneReq r)
    else if s.answerBehind r then .next s
    else
      let s1 := s.modGroup r.core r.frame fun g =>
        { g with ackmax := Nat.max g.ackmax r.wts, hostSt := g.hostSt || s.hostLine r.pa }
      let s2 := if r.frame = 64 then s1.modLaunch (r.wb.getD 0) fun l => { l with maxClock := Nat.max l.maxClock r.wts } else s1
      let s3 := if r.line.isEmpty then s2 else s2.refreshRdc (dieOf r.core) r.pa r.wts r.line r.spoilt
      .next (s3.doneReq r)

/-- WAITV_REREAD: a sleeping WAITV whose copy's lease has lapsed renews the line (R207). -/
def execWaitvReread (req : Nat) (s : State) : Res :=
  match s.req? req with
  | none => .next s
  | some r =>
    if r.stage ≠ .asleep then .next s
    else
      let lapsed :=
        if r.dev then
          match Sparse.get? (s.die (dieOf r.core)).rdc (lineOf r.pa) with
          | some c => !s.timeSync || decide (c.rts ≤ s.ptime)
          | none => true
        else s.hostLine r.pa || (match Sparse.get? (s.core r.core).l1 (lineOf r.pa) with
          | some c => decide (c.rts < (s.core r.core).clock)
          | none => true)
      .next (if lapsed then s.modReq req fun q => { q with stage := .ready } else s)

/-! ## Scratch (R186, R224 to R228, R292) -/

/-- Whether a scratch access waits for a block fill (R225, R226). -/
def State.awaitsFill (s : State) (r : Req) : Bool :=
  let c := s.core r.peer
  if r.kind = .load then c.loadFills r.pa r.size
  else if r.isAtomic || decide (r.size < 4) then c.writeFills r.pa r.size
  else false

/-- Whether a scratch access must let earlier ones be performed first: stores and atomics in issue order for each pair
of cores, a load after what its own group has in flight at the same bytes (R186, R205). -/
def State.scratchBehind (s : State) (r : Req) : Bool :=
  s.heldBack r ||
    (r.isWrite && s.reqs.any fun q => decide (q.id < r.id) && q.core == r.core && q.peer == r.peer && q.stage == .scratch &&
      q.op != r.op && !s.awaitsFill q)

/-- Words written whole lose their poison. -/
def Core.cleanWords (c : Core) (p n : Nat) : Core :=
  { c with scratchPoison := c.scratchPoison.filter fun w => !(decide (p ≤ 4 * w ∧ 4 * w + 4 ≤ p + n)) }

/-- Words of a pool poisoned. -/
def Core.poisonScratch (c : Core) (ws : List Nat) : Core := { c with scratchPoison := ws.foldl insertNat c.scratchPoison }

/-- Bytes written to a core's pool; each mapped word among them becomes valid and dirty (R225). -/
def Core.storeScratch (c : Core) (p : Nat) (bs : List Byte) : Core :=
  let c1 := { c.cleanWords p bs.length with scratch := Memory.write c.scratch p bs }
  if c.maps.isEmpty then c1
  else (wordsOfSpan p bs.length).foldl (fun c w => if (c.mapAt (4 * w)).isSome then c.setStatus w 3 else c) c1

/-- Mapped words become dirty though their bytes stay: a failing ACAS is an atomic performed on them (R225). -/
def Core.touchScratch (c : Core) (p n : Nat) : Core :=
  if (c.mapAt p).isSome then (wordsOfSpan p n).foldl (fun c w => c.setStatus w 3) c else c

/-- A scratch access performed at its window core (R186, R208, R225, R292). -/
def State.performScratch (s : State) (req : Nat) (r : Req) : State :=
    if r.stage ≠ .scratch ∨ s.scratchBehind r then s
    else if s.awaitsFill r then
      (if r.kind = .load ∧ ¬ r.soft then
         { s with reqs := s.reqs.map fun (q : Req) =>
             if q.sameLane r ∧ q.stage = .scratch then { q with stage := .walk, sdgen := (s.core r.core).sdgen } else q }
       else s)
    else
      let c := s.core r.peer
      let bs := Memory.read c.scratch r.pa r.size
      let poison := (wordsOfSpan r.pa r.size).any fun w => c.scratchPoison.contains w
      match r.kind with
      | .load => ((s.modReq req fun q => { q with stage := .data, data := bs, poison := poison }).prepend [.event (.loadDataArrival req)])
      | .store =>
        if s.fenced r then s
        else
          match s.releaseReq r with
          | .hold s1 => s1
          | .go s1 => ((s1.modCore r.peer fun c => c.storeScratch r.pa r.data).doneReq r)
      | .atomic op signed =>
        if s.fenced r then s
        else
          match s.releaseReq r with
          | .hold s1 => s1
          | .go s1 =>
            let s2 := match op.value signed (8 * r.size) (leNat bs) (leNat r.data) (leNat r.cmp) with
              | some v => s1.modCore r.peer fun c =>
                  (c.storeScratch r.pa (leBytes r.size v)).poisonScratch (if poison && op != AtomOp.xchg then wordsOfSpan r.pa r.size else [])
              | none => s1.modCore r.peer fun c => c.touchScratch r.pa r.size
            ((s2.modReq req fun q => { q with stage := .data, data := bs, poison := poison }).prepend [.event (.loadDataArrival req)])
      | _ => s

/-- A block of a mapped range read at its home in one step: bytes, rts, and whether they are poisoned; or why its page
cannot be read (R225, R341). The lease runs to the clock and LEASE, where R225 has the larger of that and the block's rts (log entry 89). -/
def State.readBlock (s : State) (k : Nat) (m : MapRange) (block : Nat) : Except Cause (State × List Byte × Nat × Bool) :=
  let a := m.g + BitVec.ofNat 64 (128 * block)
  match s.translate k none m.ctx m.priv .load a with
  | .error c => .error c
  | .ok e =>
    let pa := e.pa a
    if pteDev e.pte then .error .prot
    else
      let c := (s.core k).clock
      let lease := s.leaseOf k m.ctx
      let s1 := if s.hostLine pa then s.noteTlb k e else ((s.noteTlb k e).homeRenew (lineOf pa) c lease).1
      .ok (s1, s.phys pa 128, c + lease, s.poisoned pa 128)

/-- A block's words that are not dirty take the bytes read, and are valid; the lease runs from now (R225). -/
def Core.fillBlock (c : Core) (m : MapRange) (block : Nat) (bs : List Byte) (rts : Nat) (poison : Bool) : Core :=
  let base := c.mapBase m + 128 * block
  let c1 := (List.range 32).foldl (fun (c : Core) j =>
    let w := base / 4 + j
    if (c.status w).getLsbD 1 then c
    else
      let c2 := { c with scratch := Memory.write c.scratch (4 * w) ((bs.drop (4 * j)).take 4),
                         scratchPoison := (c.scratchPoison.filter fun x => x != w) ++ (if poison then [w] else []) }
      c2.setStatus w 1) c
  { c1 with maps := c1.maps.map fun x =>
      if x.launch = m.launch ∧ x.off = m.off then
        { x with leases := Sparse.put x.leases block rts, toFill := x.toFill.filter fun b => b != block } else x }

/-- Requests that wait for a block of a range on a core (R225). -/
def State.fillWaiters (s : State) (k : Nat) (m : MapRange) (block : Nat) : List Req :=
  let c := s.core k
  s.reqs.filter fun r => r.stage == .scratch && !r.global && r.peer == k && c.blockOf m r.pa == block &&
    (match c.mapAt r.pa with | some x => x.off == m.off && x.launch == m.launch | none => false) && s.awaitsFill r

/-- A block of a subscribed range is read for the fill: writes forwarded before are in the data read; once the counter runs they take
their numbers all the same (R320, R321). -/
def Sub.blockRead (u : Sub) (block : Nat) : Sub :=
  if u.unread.contains block then
    let old := u.writes.filter fun w => w.off / 128 == block
    { u with unread := u.unread.filter (· != block), writes := u.writes.filter (fun w => w.off / 128 != block),
             seqNo := if u.counting then u.seqNo + old.length else u.seqNo,
             lastWts := if u.counting then (old.map (·.wts)).foldl Nat.max u.lastWts else u.lastWts }
  else u

/-- BLOCK_FILL: a block that an access waits for, or that a MAP fills, is read at its home (R223, R225, R226, R341). A fill
that meets a fault sends its loads back to translation; a preload is dropped. DESIGN CHOICE: a store of part of a word or an atomic whose
fill meets a fault only after its check at issue goes on waiting for the fill, and nobody is told; R225 names no report for it (log
entry 93). -/
def execBlockFill (k range block : Nat) (s : State) : Res :=
  match (s.core k).maps[range]? with
  | none => .next s
  | some m =>
    let waiters := s.fillWaiters k m block
    if waiters.isEmpty ∧ ¬ m.toFill.contains block then .next s
    else
      match s.readBlock k m block with
      | .error _ =>
        let s1 := waiters.foldl (fun (t : State) r =>
          if r.kind = .load then t.modReq r.id fun q => { q with stage := .walk, sdgen := (s.core r.core).sdgen } else t) s
        .next (if m.mode = 1 then s1
          else s1.modCore k fun c => { c with maps := c.maps.map fun x =>
            if x.off = m.off ∧ x.launch = m.launch then { x with toFill := x.toFill.filter fun b => b != block } else x })
      | .ok (s1, bs, rts, poison) =>
        if poison ∧ waiters.isEmpty ∧ m.mode ≠ 1 then
          .next (s.modCore k fun c => { c with maps := c.maps.map fun x =>
            if x.off = m.off ∧ x.launch = m.launch then { x with toFill := x.toFill.filter fun b => b != block } else x })
        else
          let s2 := s1.modCore k fun c => c.fillBlock m block bs rts poison
          let s3 := if m.mode = 1 then s2.mapSubs fun u => if u.isOf k m.launch m.off then u.blockRead block else u else s2
          .next (s3.prepend ((waiters.filter fun r => r.kind == .load).map fun r => .event (.scratchPerform r.id)))

/-! ## Replay (R212) -/

/-- The logged loads of a group from the first on, each issued again; one whose flag is full waits, and the later ones behind it
(R24, R212). -/
def State.replayFrom (s : State) (k f : Nat) : List LogEntry → State
  | [] => s.modGroup k f fun g => { g with replay := false }
  | e :: es =>
    let mine := fun (r : Req) => r.op == e.op && r.stage == .logged
    let busy := s.reqs.any fun r => r.op == e.op && r.stage != .logged
    if ((s.group? k f).any fun g => g.flagFull e.flag) && !busy then s
    else
      let s1 := { s with reqs := s.reqs.map fun r => if mine r then { r with stage := .walk, sdgen := (s.core k).sdgen } else r }
      State.replayFrom (s1.modGroup k f fun g =>
        { (if busy then g else g.flagUp e.flag) with log := g.log.filter fun x => x.op != e.op }) k f es

/-- REPLAY: each logged load is issued again in log order, its flag counted again, before the group issues anything further
(R24, R210, R212). -/
def execReplay (k f : Nat) (s : State) : Res :=
  match s.group? k f with
  | none => .next s
  | some g => .next (s.replayFrom k f g.log)

end Sys2Proof.Machine
end

