-- ==== Sys2Proof/Machine/Rack.lean ====
section
/-! DEFINITION. The slots of the rack: what latches pin, and what the queued work of a section will change (R232 to R238). -/

namespace Sys2Proof.Machine

open Sys2Proof

/-! ## Slots and sections -/

/-- The physical slot where a group's window begins (R232). -/
def Core.rackBaseOf (c : Core) (frame : Nat) : Nat :=
  (((Sparse.get? c.frames frame).bind fun g => c.team? g.launch).map (·.rackBase)).getD 0

/-- Window slots that a byte range of the rack touches. -/
def slotsOfBytes (a n : Nat) : List Nat := if n = 0 then [] else (List.range ((a + n - 1) / 4096 - a / 4096 + 1)).map (a / 4096 + ·)

/-- The scale address of an X instruction in window bytes, none without scales (R238). -/
def xScaleByte (f : XFields) : Option Nat := if f.scale = 127 then none else some (f.scale.toNat * 4096 + f.soff.toNat * 32)

/-- The latch that a BLOAD makes, its slots physical (R236, R243). -/
def latchOf (base : Nat) (f : XFields) : BLatch :=
  ⟨f.fmtB.toNat, if f.fmtB = 5 then (if f.flags.getLsbD 2 then 256 else 128) else kOfFmt f.fmtB.toNat, base + f.slotA.toNat,
   (xScaleByte f).map (base * 4096 + ·)⟩

/-- Physical slots of a latch (R237). -/
def BLatch.slots (b : BLatch) : List Nat :=
  (if b.fmt = 5 then [b.slot] else [b.slot, b.slot + 1]) ++
    (match b.wscale with | some w => slotsOfBytes w (2 * b.kclass) | none => [])

/-- A section as it will stand once its queued BLOAD, CBLOAD and BDROP have acted (R235). -/
def Section.after (c : Core) (x : Section) : Section :=
  x.queue.foldl (fun y w =>
    let base := c.rackBaseOf w.frame
    match w.op with
    | 0x02 => { y with owner := some w.frame, b := some (latchOf base w.f) }
    | 0x03 => { y with owner := some w.frame, cb := some (base + w.f.slotA.toNat) }
    | 0x04 => { y with owner := none, b := none, cb := none }
    | _ => y) x

/-- Physical slots that a section pins: its latch, its codebook, and what queued loads will latch (R237, R243). -/
def Section.pins (c : Core) (x : Section) : List Nat :=
  (match x.b with | some b => b.slots | none => []) ++ x.cb.toList ++
    x.queue.flatMap fun w =>
      let base := c.rackBaseOf w.frame
      match w.op with
      | 0x02 => (latchOf base w.f).slots
      | 0x03 => [base + w.f.slotA.toNat]
      | _ => []

/-- A pin that the group's own queued BDROP or BLOAD will end (R237). -/
def Core.pinEnds (c : Core) (frame slot : Nat) : Bool :=
  c.sections.toList.any fun x => (x.pins c).contains slot &&
    x.queue.any fun w => w.frame == frame && (w.op == 0x02 || w.op == 0x04)

/-- Whether some section pins a physical slot (R237). -/
def Core.pinnedNow (c : Core) (slot : Nat) : Bool := c.sections.toList.any fun x => (x.pins c).contains slot

/-- A slot to be written whose pin the group's own earlier instruction will end: the instruction waits (R237). -/
def State.slotAwaits (s : State) (g : Group) (writes : List Nat) : Bool :=
  let c := s.core s.iss.core
  let base := ((c.team? g.launch).map (·.rackBase)).getD 0
  writes.any fun n => c.pinEnds s.iss.frame (base + n)

end Sys2Proof.Machine
end

