-- ==== Sys2Proof/Machine/Engine.lean ====
section
/-! DEFINITION. The engines: COPY, COPYND, GATHER, SCATTER, the write-backs, handles and range locks (R214 to R222,
R229, R272, R316 to R318, R340). -/

namespace Sys2Proof.Machine

open Sys2Proof

/-! ## Handle slots (R215) -/

/-- First table index and slots of an engine: copy, gather, scatter, write-back (R215, R275). -/
def engineBase (e : Nat) : Nat := match e with | 0 => 0 | 1 => 32 | 2 => 48 | _ => 64
def engineCount (e : Nat) : Nat := match e with | 0 => 32 | 1 => 16 | 2 => 16 | 3 => 8 | _ => 0

/-- The engine of an operation (R215, R421). -/
def engineOf (op : Nat) : Nat := match op with | 0x02 => 1 | 0x03 => 2 | 0x05 => 3 | 0x06 => 3 | _ => 0

/-- A handle-table entry; one that nothing has used is free with generation 0. -/
def Core.handle (c : Core) (h : Nat) : HandleSlot := (Sparse.get? c.handles h).getD (HandleSlot.free 0)

def Core.setHandle (c : Core) (h : Nat) (x : HandleSlot) : Core := { c with handles := Sparse.put c.handles h x }

/-- The lowest free slot of an engine (R215). -/
def Core.freeHandle (c : Core) (e : Nat) : Option Nat :=
  ((List.range (engineCount e)).map (engineBase e + ·)).find? fun h => (c.handle h).state == .free

/-- The handle value of a table index (R215). -/
def Core.handleWord (c : Core) (h : Nat) : Nat :=
  let e := if h < 32 then 0 else if h < 48 then 1 else if h < 64 then 2 else 3
  e * 2 ^ 12 + (h - engineBase e) * 2 ^ 6 + (c.handle h).gen.toNat

/-- The table index of a handle value; none where it is malformed (R215). -/
def handleIndex (w : Nat) : Option Nat :=
  let e := w / 2 ^ 12 % 16
  let n := w / 2 ^ 6 % 64
  if w < 2 ^ 16 ∧ n < engineCount e then some (engineBase e + n) else none

/-! ## Range locks (R222) -/

/-- Locks that stand in the tables of 64 entries; rack sources are only counted for R241. -/
def Core.locksUsed (c : Core) : Nat := (c.locks.filter fun l => !(l.space == 3 && l.source)).length

def State.addLock (s : State) (k : Nat) (l : RangeLock) : State := s.modCore k fun c => { c with locks := c.locks ++ [l] }

/-- Every lock of an owner released, on whatever core it stands (R222). -/
def State.dropLocks (s : State) (k owner : Nat) : State :=
  { s with cores := s.cores.map fun p => (p.1, { p.2 with locks := p.2.locks.filter fun l => !(l.core == k && l.owner == owner) }) }

/-! ## Operands in their spaces -/

/-- Where an engine operand lies: a virtual address, a byte of a core's pool, a byte of the rack. -/
inductive Place where
  | glob (a : DWord)
  | scr (core pool : Nat)
  | rack (byte : Nat)
  deriving DecidableEq, Repr, Inhabited

/-- A place some bytes on. -/
def Place.plus (p : Place) (off : Int) : Place :=
  match p with
  | .glob a => .glob (a + BitVec.ofInt 64 off)
  | .scr c x => .scr c ((x : Int) + off).toNat
  | .rack x => .rack ((x : Int) + off).toNat

/-- The place that a space code and an operand name (R217), none where the cluster rank is out of range. -/
def State.placeOf (s : State) (k launch space a : Nat) : Option Place :=
  let team := (s.core k).team? launch
  let base := fun (c : Nat) => (((s.core c).team? launch).map (·.scratchBase)).getD 0
  match space with
  | 0 => some (.glob (BitVec.ofNat 64 a))
  | 1 => some (.scr k (base k + a))
  | 2 => ((team.map (·.peers)).getD [])[a / 2 ^ 21]? |>.map fun p => .scr p (base p + a % 2 ^ 21)
  | _ => some (.rack ((team.map (·.rackBase)).getD 0 * 4096 + a))

/-- Why an engine operation does not go on (R216, R220). -/
inductive EngStop where
  | pause (c : Cause) (a : DWord)
  | error (c : Cause) (a : DWord)
  | wait
  deriving DecidableEq, Repr, Inhabited

/-- How a translation fault acts on an engine (R216). -/
def EngStop.ofFault (c : Cause) (a : DWord) : EngStop := if c = .page ∨ c = .unitAbsent then .pause c a else .error c a

/-- Blocks of a mapped range that a read must have are filled (R224, R225). -/
def State.ensure (s : State) (k : Nat) (need : Core → Nat → Nat → Bool) : List (Nat × Nat) → Except EngStop State
  | [] => .ok s
  | (p, n) :: rest =>
    let c := s.core k
    if !need c p n then State.ensure s k need rest
    else
      match c.mapAt p with
      | none => State.ensure s k need rest
      | some m =>
        if m.mode = 1 then .error .wait
        else
          match s.readBlock k m (c.blockOf m p) with
          | .error e => .error (EngStop.ofFault e (c.globalOf m p))
          | .ok (s1, bs, rts, poison) =>
            State.ensure (s1.modCore k fun c => c.fillBlock m (c.blockOf m p) bs rts poison) k need rest

/-- The parts of a span that lie in one 128-byte block each. -/
def spanBlocks (p n : Nat) : List (Nat × Nat) :=
  (List.range ((p % 128 + n + 127) / 128)).map fun j =>
    let lo := Nat.max p (p / 128 * 128 + 128 * j)
    let hi := Nat.min (p + n) (p / 128 * 128 + 128 * j + 128)
    (lo, hi - lo)

/-- A byte of a core's pool in the windows as an operation of core `k` names it: its offset, and on another core its rank before it
(R185, R217). -/
def State.windowAddr (s : State) (k c p : Nat) : DWord :=
  match (s.core c).teams.find? fun t => decide (t.scratchBase ≤ p ∧ p < t.scratchBase + t.scratchLen) with
  | some t => BitVec.ofNat 64 ((if c = k then 0 else t.rank * 2 ^ 21) + (p - t.scratchBase))
  | none => BitVec.ofNat 64 p

/-- A byte of a core's rack in the window of its team (R217, R232). -/
def Core.rackAddr (c : Core) (b : Nat) : DWord :=
  match c.teams.find? fun t => decide (4096 * t.rackBase ≤ b ∧ b < 4096 * (t.rackBase + t.rackLen)) with
  | some t => BitVec.ofNat 64 (b - 4096 * t.rackBase)
  | none => BitVec.ofNat 64 b

/-- Bytes read by an engine, or by work of the core, on behalf of a context (R216, R224); poisoned data is told by the address of its
first byte (R221, R262). -/
def State.readPlace (s : State) (k ctx : Nat) (priv : Bool) (p : Place) (n : Nat) : Except EngStop (State × List Byte) :=
  match p with
  | .glob a =>
    match s.translateSpan k ctx priv .load a n with
    | .error x => .error (EngStop.ofFault x.1 x.2)
    | .ok pas =>
      if pas.any isRemote then .error (.error .prot a)
      else
        match if s.poison.isEmpty then none else pas.findIdx? s.badByte with
        | some i => .error (.error .poison (a + BitVec.ofNat 64 i))
        | none => .ok (s.notePages k ctx a n, pas.map s.byte)
  | .scr c x =>
    match s.ensure c Core.loadFills (spanBlocks x n) with
    | .error e => .error e
    | .ok s1 =>
      match (wordsOfSpan x n).find? fun w => (s1.core c).scratchPoison.contains w with
      | some w => .error (.error .poison (s.windowAddr k c (Nat.max x (4 * w))))
      | none => .ok (s1, Memory.read (s1.core c).scratch x n)
  | .rack x =>
    match ((s.core k).rackPoison.filter fun b => decide (x ≤ b ∧ b < x + n)).min? with
    | some b => .error (.error .poison ((s.core k).rackAddr b))
    | none => .ok (s, Memory.read (s.core k).rack x n)

/-- Bytes written by an engine: all of them or none, with the largest wts of their acknowledgements (R216, R225, R272). -/
def State.writePlace (s : State) (k ctx : Nat) (priv : Bool) (p : Place) (bs : List Byte) : Except EngStop (State × Nat) :=
  match p with
  | .glob a =>
    match s.translateSpan k ctx priv .store a bs.length with
    | .error x => .error (EngStop.ofFault x.1 x.2)
    | .ok pas =>
      if pas.any isRemote then .error (.error .prot a)
      else .ok (s.storeV k ctx priv a bs (bs.length + 1))
  | .scr c x =>
    let ends := (if x % 4 = 0 then [] else [(x, 1)]) ++ (if (x + bs.length) % 4 = 0 then [] else [(x + bs.length - 1, 1)])
    match s.ensure c Core.writeFills ends with
    | .error e => .error e
    | .ok s1 => .ok (s1.modCore c fun y => y.storeScratch x bs, 0)
  | .rack x =>
    .ok (s.modCore k fun c => { c with rack := Memory.write c.rack x bs,
                                       rackPoison := c.rackPoison.filter fun b => !(decide (x ≤ b ∧ b < x + bs.length)) }, 0)

/-! ## Checks at issue (R214) -/

/-- A region of an operand: its space code, its address, and its lowest and one past its highest byte offsets. -/
structure Region where
  space : Nat
  addr : Nat
  lo : Int
  hi : Int
  write : Bool
  deriving DecidableEq, Repr, Inhabited

/-- Rack slots of the window that a byte range touches, as far as the rack's 128 slots reach (R217, R232). -/
def slotsOfSpan (lo hi : Int) : List Nat :=
  (List.range (Nat.min 129 ((hi - 1) / 4096 - lo / 4096 + 1).toNat)).map fun j => (lo / 4096).toNat + j

/-- The lowest slot of the window, among those named, that the group may not use (R232, R233, R237): beyond the window, not
claimed by it, or pinned where it is to be written. -/
def State.badSlot (s : State) (g : Group) (f : Nat) (write : Bool) (slots : List Nat) : Option Nat :=
  let c := s.core s.iss.core
  match c.team? g.launch with
  | none => slots.head?
  | some t => slots.find? fun n =>
      decide (t.rackLen ≤ n) || Sparse.get? c.claims (t.rackBase + n) != some f || (write && c.pinnedNow (t.rackBase + n))

/-- Whether a region of scratch leaves its window (R185, R214). -/
def State.regionOut (s : State) (g : Group) (r : Region) : Bool :=
  match r.space with
  | 1 => decide ((r.addr : Int) + r.lo < 0 ∨ (g.hdr.scratch : Int) < r.addr + r.hi)
  | 2 =>
    let n := (((s.core s.iss.core).team? g.launch).map (·.peers.length)).getD 0
    let off : Int := (r.addr % 2 ^ 21 : Nat)
    decide (n ≤ r.addr / 2 ^ 21) || decide (off + r.lo < 0 ∨ (g.hdr.scratch : Int) < off + r.hi)
  | _ => false

/-- Whether an operation writes a rack slot whose pin the group's own queued work will end: it waits for that (R237). -/
def State.regionAwaits (s : State) (g : Group) (rs : List Region) : Bool :=
  rs.any fun r => r.write && r.space == 3 && s.slotAwaits g (slotsOfSpan (r.addr + r.lo) (r.addr + r.hi))

/-- SCRATCHOOB, SLOTFAULT and the PROT of a subscribed destination, in that order (R214, R227, R233, R237). -/
def State.regionFault (s : State) (g : Group) (rs : List Region) : Option (Cause × DWord) :=
  let k := s.iss.core
  let oob := (rs.find? fun r => s.regionOut g r).map fun r => (Cause.scratchOob, BitVec.ofNat 64 r.addr)
  let slot := rs.findSome? fun r =>
    if r.space = 3 then
      if (r.addr : Int) + r.lo < 0 then some (Cause.slotFault, BitVec.ofInt 64 (((r.addr : Int) + r.lo) / 4096))
      else (s.badSlot g s.iss.frame r.write (slotsOfSpan (r.addr + r.lo) (r.addr + r.hi))).map fun n => (Cause.slotFault, BitVec.ofNat 64 n)
    else none
  let sub := rs.findSome? fun r =>
    if r.write && (r.space == 1 || r.space == 2) then
      match s.placeOf k g.launch r.space r.addr with
      | some (.scr c x) =>
        if (s.core k).subscribed c ((x : Int) + r.lo).toNat (r.hi - r.lo).toNat then some (Cause.prot, BitVec.ofNat 64 r.addr) else none
      | _ => none
    else none
  (oob.or slot).or sub

/-- The lock that a region registers: every destination but SCATTER's global one, and scratch and rack sources (R222, R241). -/
def State.regionLock (s : State) (g : Group) (owner : Nat) (r : Region) : Option (Nat × RangeLock) :=
  let k := s.iss.core
  let len := (r.hi - r.lo).toNat
  let mk := fun (at' space start : Nat) => some (at', ⟨start, len, space, !r.write, owner, k, g.ctx, g.seq⟩)
  match s.placeOf k g.launch r.space r.addr with
  | some (.glob a) => if r.write then mk k 0 ((a.toNat : Int) + r.lo).toNat else none
  | some (.scr c x) => mk c 1 ((x : Int) + r.lo).toNat
  | some (.rack x) => mk k 3 ((x : Int) + r.lo).toNat
  | none => none

/-- Why an engine is refused a page of another device: PROT, or on a part without fabric ports what its checks give (R10, R372,
R409). -/
def State.devCause (s : State) (g : Group) (acc : Acc) (e : TlbEntry) : Cause :=
  if s.hasFabric then .prot else (checkPte false g.priv acc e.pte).getD .unitAbsent

/-- The refusal of a span that touches a page of another device (R409). -/
def State.devPage (s : State) (g : Group) (acc : Acc) (a : DWord) (n : Nat) : Option Cause :=
  (rangePages a n).findSome? fun p =>
    match s.lookup s.iss.core none g.ctx p with
    | some e => if pteDev e.pte then some (s.devCause g acc e) else none
    | none => none

/-! ## Blocks -/

/-- The operand block of an engine instruction as the scalars stand (R214). -/
def Group.block (g : Group) (b n : Nat) : List Word := (List.range n).map fun j => g.scalar (b + j)

def blockWord (ws : List Word) (i : Nat) : Nat := (ws.getD i 0).toNat
def blockWide (ws : List Word) (i : Nat) : Nat := blockWord ws i + 2 ^ 32 * blockWord ws (i + 1)
def blockInt (ws : List Word) (i : Nat) : Int := (ws.getD i 0).toInt

/-- Bits of an element of a conversion code: 0 is f32 (R218). -/
def cvtBits (c : Nat) : Nat := if c = 0 then 32 else nfmtWidth c

/-- The operation's unit in bytes (R218). -/
def copyUnit (var imm : Nat) : Nat :=
  match var / 16 with
  | 1 => 2 ^ (imm % 4)
  | 2 => 128
  | 3 => 2
  | 5 => if cvtBits (imm % 16) = 6 then 3 else cvtBits (imm % 16) / 8
  | _ => 1

/-- Destination bytes of a row of `r` source bytes (R218). DESIGN CHOICE: a row whose last destination byte a conversion fills only in
part has it padded with zero bits (log entry 79). -/
def copyOutBytes (var imm r : Nat) : Nat :=
  match var / 16 with
  | 3 => r / 2
  | 4 => 2 * r
  | 5 => (r * 8 / cvtBits (imm % 16) * cvtBits (imm / 16 % 16) + 7) / 8
  | _ => r

/-- Rows of source and destination of a COPY: counts, bytes and pitches (R217, R218). -/
structure CopyShape where
  rows : Nat
  bytes : Nat
  spitch : Nat
  outRows : Nat
  outBytes : Nat
  dpitch : Nat
  deriving DecidableEq, Repr, Inhabited

/-- DESIGN CHOICE: the pitches are read where there are two source rows or more; a transpose of a single row gives its destination rows
a pitch of 0 (log entry 80). -/
def copyShape (var imm : Nat) (ws : List Word) : CopyShape :=
  let r := blockWord ws 4
  let n := blockWord ws 5
  let sp := if n ≤ 1 then 0 else blockWord ws 6
  let dp := if n ≤ 1 then 0 else blockWord ws 7
  let e := copyUnit var imm
  if var / 16 = 1 then ⟨n, r, sp, r / e, n * e, dp⟩ else ⟨n, r, sp, n, copyOutBytes var imm r, dp⟩

/-- The regions of a COPY (R217, R222). -/
def copyRegions (var imm : Nat) (ws : List Word) : List Region :=
  let c := copyShape var imm ws
  [⟨var % 4, blockWide ws 0, 0, ((c.rows - 1) * c.spitch + c.bytes : Nat), false⟩,
   ⟨var / 4 % 4, blockWide ws 2, 0, ((c.outRows - 1) * c.dpitch + c.outBytes : Nat), true⟩]

/-- The first word that is not a multiple of a unit (R214). -/
def misaligned (xs : List (Nat × Nat)) : Option (Cause × DWord) :=
  (xs.find? fun p => p.1 % p.2 != 0).map fun p => (.align, BitVec.ofNat 64 p.1)

/-- The first word outside its range (R214). -/
def outside (xs : List (Nat × Bool)) : Option (Cause × DWord) :=
  (xs.find? fun p => !p.2).map fun p => (.handle, BitVec.ofNat 64 p.1)

/-- ALIGN and HANDLE of a COPY block (R214, R217, R218). -/
def copyFault (var imm : Nat) (ws : List Word) : Option (Cause × DWord) :=
  let u := copyUnit var imm
  let b := blockWord ws
  let src := blockWide ws 0
  let dst := blockWide ws 2
  (misaligned ([(src, u), (dst, if var / 16 = 2 then 128 else u), (b 4, u)] ++ (if b 5 ≤ 1 then [] else [(b 6, u), (b 7, u)]))).or
    (outside [(b 1, var % 4 == 0 || b 1 == 0), (b 3, var / 4 % 4 == 0 || b 3 == 0),
      (b 4, decide (1 ≤ b 4 ∧ b 4 ≤ 16777216)), (b 5, decide (1 ≤ b 5 ∧ b 5 ≤ 65536))])

/-! ## Transforms (R218) -/

/-- Elements of `w` bits in a row of bytes, the lowest first (R92). -/
def rowElems (w : Nat) (bs : List Byte) : List Nat := splitElems w (8 * bs.length / w) (leNat bs)

/-- Bytes of elements of `w` bits (R92). -/
def rowBytes (w : Nat) (xs : List Nat) : List Byte := leBytes ((w * xs.length + 7) / 8) (joinElems w xs)

def cvtDecode (c x : Nat) : FVal := if c = 0 then FFmt.f32.decode x else nfmtDecode c x
def cvtEncode (c : Nat) (rm : Rm) (sat : Bool) (v : FVal) : Nat := if c = 0 then FFmt.f32.encode rm sat v else (nfmtFloat c).encode rm sat v

/-- A rounding mode by its code (R95). -/
def rmOfCode (c : Nat) : Rm := match c % 4 with | 0 => .rne | 1 => .rz | 2 => .rdn | _ => .rup

/-- Whether a conversion is to a wider format: it is exact and keeps an infinity, whatever SAT is (R100, R218). -/
def cvtWidens (imm : Nat) : Bool := decide (cvtBits (imm % 16) < cvtBits (imm / 16 % 16))

/-- A row under a transform other than transpose (R218). -/
def transformRow (var imm row : Nat) (bs : List Byte) : List Byte :=
  match var / 16 with
  | 2 => (List.range (bs.length / 16)).flatMap fun i =>
      (bs.drop (16 * (i / 8 * 8 + ((i % 8) ^^^ (row % 8))))).take 16
  | 3 =>
    rowBytes 4 ((rowElems 8 bs).map fun x =>
      match imm % 4 with
      | 0 => wrapInt 4 (clampInt (-8) 7 (sextNat 8 x))
      | 1 => wrapInt 4 (clampInt 0 15 x)
      | _ => FFmt.e2m1.encode .rne true (FFmt.e4m3.decode x))
  | 4 =>
    rowBytes 8 ((rowElems 4 bs).map fun x =>
      match imm % 4 with
      | 0 => wrapInt 8 (sextNat 4 x)
      | 1 => x
      | _ => FFmt.e4m3.encode .rne true (FFmt.e2m1.decode x))
  | 5 =>
    rowBytes (cvtBits (imm / 16 % 16)) ((rowElems (cvtBits (imm % 16)) bs).map fun x =>
      cvtEncode (imm / 16 % 16) (rmOfCode (imm / 256)) (imm.testBit 10 && !cvtWidens imm) (cvtDecode (imm % 16) x))
  | _ => bs

/-! ## Units (R272) -/

/-- Extents of a COPYND, 1 for a level it lacks (R219). -/
def ndExtent (ws : List Word) (l : Nat) : Nat := if l < blockWord ws 5 then blockWord ws (6 + l) else 1

/-- Destination element bytes of a COPYND (R219). -/
def ndOut (var imm : Nat) (ws : List Word) : Nat := if var / 16 = 5 then cvtBits (imm / 16 % 16) / 8 else blockWord ws 4

/-- Units of an operation (R272, R421). -/
def HandleSlot.total (h : HandleSlot) : Nat :=
  match h.op with
  | 0x00 => (copyShape h.var.toNat h.imm.toNat h.block).outRows
  | 0x01 => ndExtent h.block 1 * ndExtent h.block 2 * ndExtent h.block 3
  | 0x02 | 0x03 => blockWord h.block 1
  | 0x05 | 0x06 => h.len / 128
  | _ => (blockWord h.block 4 + 127) / 128

/-- A unit moved from one place to another through a function of its bytes. -/
def State.moveUnit (s : State) (k : Nat) (h : HandleSlot) (src dst : Place) (n : Nat) (t : List Byte → List Byte) :
    Except EngStop (State × Nat) :=
  match s.readPlace k h.ctx h.priv src n with
  | .error e => .error e
  | .ok (s1, bs) => s1.writePlace k h.ctx h.priv dst (t bs)

/-- One column of a transposed COPY: an element of every source row (R218). -/
def State.readColumn (s : State) (k : Nat) (h : HandleSlot) (src : Place) (pitch e : Nat) : Nat → Except EngStop (State × List Byte)
  | 0 => .ok (s, [])
  | n + 1 =>
    match State.readColumn s k h src pitch e n with
    | .error x => .error x
    | .ok (s1, bs) =>
      match s1.readPlace k h.ctx h.priv (src.plus (n * pitch : Nat)) e with
      | .error x => .error x
      | .ok (s2, cs) => .ok (s2, bs ++ cs)

/-- A destination row of a COPY (R217, R218). -/
def State.copyUnitStep (s : State) (k : Nat) (h : HandleSlot) (u : Nat) : Except EngStop (State × Nat) :=
  let var := h.var.toNat
  let imm := h.imm.toNat
  let c := copyShape var imm h.block
  match s.placeOf k h.launch (var % 4) (blockWide h.block 0), s.placeOf k h.launch (var / 4 % 4) (blockWide h.block 2) with
  | some src, some dst =>
    let out := dst.plus (u * c.dpitch : Nat)
    if var / 16 = 1 then
      let e := copyUnit var imm
      match s.readColumn k h (src.plus (u * e : Nat)) c.spitch e c.rows with
      | .error x => .error x
      | .ok (s1, bs) => s1.writePlace k h.ctx h.priv out bs
    else s.moveUnit k h (src.plus (u * c.spitch : Nat)) out c.bytes (transformRow var imm u)
  | _, _ => .error (.error .prot 0)

/-- The byte offset of a run of a COPYND by the strides from a block word on (R219). -/
def ndOffset (ws : List Word) (j u : Nat) : Int :=
  ((u % ndExtent ws 1 : Nat) : Int) * blockInt ws j + ((u / ndExtent ws 1 % ndExtent ws 2 : Nat) : Int) * blockInt ws (j + 1) +
    ((u / ndExtent ws 1 / ndExtent ws 2 : Nat) : Int) * blockInt ws (j + 2)

/-- A level-0 run of a COPYND (R219). -/
def State.copyndStep (s : State) (k : Nat) (h : HandleSlot) (u : Nat) : Except EngStop (State × Nat) :=
  let ws := h.block
  let var := h.var.toNat
  match s.placeOf k h.launch (var % 4) (blockWide ws 0), s.placeOf k h.launch (var / 4 % 4) (blockWide ws 2) with
  | some src, some dst => s.moveUnit k h (src.plus (ndOffset ws 10 u)) (dst.plus (ndOffset ws 13 u)) (ndExtent ws 0 * blockWord ws 4) (transformRow var h.imm.toNat 0)
  | _, _ => .error (.error .prot 0)

/-- The element address of an index of a GATHER or SCATTER (R316). -/
def gatherAddr (ws : List Word) (idx : Nat) : DWord := BitVec.ofNat 64 (blockWide ws 2) + BitVec.ofNat 64 (idx * blockWord ws 6)

/-- The index of a unit, read from local scratch (R220, R316). -/
def State.readIndex (s : State) (k : Nat) (h : HandleSlot) (u : Nat) : Except EngStop (State × Nat) :=
  match s.placeOf k h.launch 1 (blockWord h.block 0 + 4 * u) with
  | none => .error (.error .prot 0)
  | some p =>
    match s.readPlace k h.ctx h.priv p 4 with
    | .error e => .error e
    | .ok (s1, bs) => .ok (s1, leNat bs)

/-- An element on host memory or another device ends the operation with PROT (R316). -/
def State.elemRefused (s : State) (k : Nat) (h : HandleSlot) (acc : Acc) (a : DWord) (n : Nat) : Option EngStop :=
  match s.translateSpan k h.ctx h.priv acc a n with
  | .error x => some (EngStop.ofFault x.1 x.2)
  | .ok pas => if pas.any fun p => isRemote p || s.hostLine p then some (.error .prot a) else none

/-- An index of a GATHER (R316, R318). -/
def State.gatherStep (s : State) (k : Nat) (h : HandleSlot) (u : Nat) : Except EngStop (State × Nat) :=
  match s.readIndex k h u with
  | .error e => .error e
  | .ok (s1, i) =>
    let a := gatherAddr h.block i
    let n := blockWord h.block 4
    match s1.elemRefused k h .load a n with
    | some e => .error e
    | none =>
      match s1.placeOf k h.launch (1 + h.var.toNat % 2) (blockWord h.block 5) with
      | none => .error (.error .prot 0)
      | some d => s1.moveUnit k h (.glob a) (d.plus (u * n : Nat)) n id

/-- The new word of a combine (R317). -/
def combineWord (var old src : Nat) : Nat :=
  let f := fun (b : Bool) => if b then src else old
  let greater := var % 4 == 3
  match var % 4, var / 4 with
  | 0, _ => src
  | 1, 3 => fadd32 old src
  | 1, 5 => floatMap .bf16x2 .rne false (fun x y _ => sumExact .rne [x, y]) old src 0
  | 1, _ => (old + src) % 2 ^ 32
  | _, 3 => (let v := (if greater then fmax else fmin) (FFmt.f32.decode old) (FFmt.f32.decode src); FFmt.f32.encode .rne false v)
  | _, 1 => f (if greater then decide (sextNat 32 old < sextNat 32 src) else decide (sextNat 32 src < sextNat 32 old))
  | _, _ => f (if greater then decide (old < src) else decide (src < old))

/-- A word of an element combined in one step at its home, by the translation that its element got; a combine that reads poisoned data
ends in error (R262, R316, R317, R325). -/
def State.combineAt (s : State) (k : Nat) (h : HandleSlot) (w : ElemWord) : Except EngStop (State × Nat) :=
  let pa := w.entry.pa w.va
  match if h.var.toNat % 4 = 0 ∨ s.poison.isEmpty then none else (List.range 4).find? fun j => s.badByte (pa + j) with
  | some j => .error (.error .poison (w.va + BitVec.ofNat 64 j))
  | none =>
    let v := combineWord h.var.toNat (leNat (s.phys pa 4)) w.word.toNat
    .ok ((s.noteTlb k w.entry).writeHome k pa (leBytes 4 v) (s.core k).clock (w.entry.tracked pa) (pteComp w.entry.pte))

/-- The words of the index in hand of a SCATTER that are still to be combined (R316 to R318): at its first one the whole element is
translated and its source read, so that once a word has been combined nothing can pause the operation before the last one: its progress
points stand between indices (R272). -/
def State.elemWords (s : State) (k : Nat) (h : HandleSlot) (u : Nat) : Except EngStop (State × List ElemWord) :=
  if !h.elem.isEmpty then .ok (s, h.elem)
  else
    match s.readIndex k h u with
    | .error e => .error e
    | .ok (s1, i) =>
      let a := gatherAddr h.block i
      let n := blockWord h.block 4
      match (s1.elemRefused k h .store a n).or (if h.var.toNat % 4 = 0 then none else s1.elemRefused k h .load a n) with
      | some e => .error e
      | none =>
        match s1.placeOf k h.launch 1 (blockWord h.block 5 + u * n) with
        | none => .error (.error .prot 0)
        | some src =>
          match s1.readPlace k h.ctx h.priv src n with
          | .error e => .error e
          | .ok (s2, bs) =>
            .ok (s2, ((leWords bs).zip (List.range (n / 4))).filterMap fun x =>
              let va := a + BitVec.ofNat 64 (4 * x.2)
              match s2.translate k none h.ctx h.priv .store va with
              | .ok e => some ⟨e, va, x.1⟩
              | .error _ => none)

/-- The next word of an index of a SCATTER (R316 to R318). DESIGN CHOICE: R111 and R317 leave the order of colliding elements open; the
indices of one SCATTER are combined in ascending order (log entry 21). -/
def State.scatterStep (s : State) (k : Nat) (h : HandleSlot) (u : Nat) : Except EngStop (State × Nat) :=
  match s.elemWords k h u with
  | .error e => .error e
  | .ok (s1, []) => .ok (s1, 0)
  | .ok (s1, w :: _) => s1.combineAt k h w

/-- The words of a SCATTER's index in hand that its next step leaves. -/
def State.elemRest (s : State) (k : Nat) (h : HandleSlot) : List ElemWord :=
  if h.op ≠ 0x03 then []
  else match s.elemWords k h h.done with
    | .ok (_, _ :: ws) => ws
    | _ => []

/-- Words of a snapshot written to their global addresses under the word mask (R229). -/
def State.writeWords (s : State) (k : Nat) (h : HandleSlot) : List Nat → Except EngStop (State × Nat)
  | [] => .ok (s, 0)
  | w :: ws =>
    let base := (((s.core k).team? h.launch).map (·.scratchBase)).getD 0 + h.off
    match s.writePlace k h.ctx h.priv (.glob (h.g + BitVec.ofNat 64 (4 * w - base))) (Memory.read (s.core k).scratch (4 * w) 4) with
    | .error e => .error e
    | .ok (s1, v) =>
      match State.writeWords s1 k h ws with
      | .error e => .error e
      | .ok (s2, v') => .ok (s2, Nat.max v v')

/-- The words of a write-back's snapshot in a block (R229, R272). -/
def State.backWords (s : State) (k : Nat) (h : HandleSlot) (u : Nat) : List Nat :=
  let base := (((s.core k).team? h.launch).map (·.scratchBase)).getD 0 + h.off
  h.words.filter fun w => decide (base + 128 * u ≤ 4 * w ∧ 4 * w < base + 128 * u + 128)

/-- A block of a write-back; a poisoned word ends it, told by its global address (R221, R229, R262). -/
def State.backStep (s : State) (k : Nat) (h : HandleSlot) (u : Nat) : Except EngStop (State × Nat) :=
  let ws := s.backWords k h u
  let base := (((s.core k).team? h.launch).map (·.scratchBase)).getD 0 + h.off
  match ws.find? fun w => (s.core k).scratchPoison.contains w with
  | some w => .error (.error .poison (h.g + BitVec.ofNat 64 (4 * w - base)))
  | none => s.writeWords k h ws

/-- One unit of an operation that the core alone performs: the state and the largest wts of its acknowledgements. -/
def State.unitStep (s : State) (k : Nat) (h : HandleSlot) (u : Nat) : Except EngStop (State × Nat) :=
  match h.op with
  | 0x00 => s.copyUnitStep k h u
  | 0x01 => s.copyndStep k h u
  | 0x02 => s.gatherStep k h u
  | 0x03 => s.scatterStep k h u
  | _ => s.backStep k h u

/-! ## Running -/

/-- Whether an operation must still wait for its split's earlier stores (R214). -/
def State.engineBehind (s : State) (k : Nat) (h : HandleSlot) : Bool :=
  s.reqs.any fun q => q.core == k && q.frame == h.owner && q.isWrite && q.unperformed && decide (q.seq < h.seq) && q.mask &&& h.mask != 0

/-- The group that owns an operation, where it is still resident. -/
def State.owner? (s : State) (k : Nat) (h : HandleSlot) : Option Group :=
  (s.group? k h.owner).filter fun g => g.launch == h.launch

/-- An operation completes: its slot is free with the next generation, its locks are released, its group remembers its
acknowledgements (R215, R222, R340). -/
def State.endOp (s : State) (k idx : Nat) (h : HandleSlot) : State :=
  let word := (s.core k).handleWord idx
  let s1 := (s.modCore k fun c => c.setHandle idx (HandleSlot.free (h.gen + 1))).dropLocks k idx
  match s.owner? k h with
  | none => s1
  | some _ => s1.modGroup k h.owner fun g =>
      { g with engMax := Nat.max g.engMax h.maxWts, engDone := Sparse.put g.engDone word h.maxWts }

/-- An operation ends in the error state: its locks are released; a write-back that no group waits for is only told of
(R216, R222, R229). -/
def State.failOp (s : State) (k idx : Nat) (h : HandleSlot) (c : Cause) (a : DWord) : State :=
  let s1 := (s.modCore k fun x => x.setHandle idx { h with state := .error, errCause := some c, errAddr := a }).dropLocks k idx
  match s.owner? k h with
  | some _ => s1
  | none => (s.endOp k idx h).tell (.launchFault h.launch c a)

/-- Write-backs in a pause (R272): WBACK gives its words back to the range, and takes a new snapshot on resume. -/
def State.pauseBack (s : State) (k idx : Nat) : State :=
  let h := (s.core k).handle idx
  if h.op = 0x06 then
    s.modCore k fun c => ((h.words.foldl (fun (c : Core) w => c.setStatus w (c.status w ||| 2)) c).setHandle idx { h with words := [] })
  else s

/-- An operation pauses at a translation fault, which Sundoc is told of (R216, R264, R272). -/
def State.pauseOp (s : State) (k idx : Nat) (h : HandleSlot) (c : Cause) (a : DWord) : State :=
  ((s.modCore k fun x => x.setHandle idx { h with state := .paused, errCause := some c, errAddr := a }).tell (.engineFault k idx c a)).pauseBack k idx

/-- The global ranges that a unit reads, then those that it writes (R217 to R220, R229, R316, R421). -/
def State.unitSpans (s : State) (k : Nat) (h : HandleSlot) (u : Nat) : List (DWord × Nat) :=
  let ws := h.block
  let var := h.var.toNat
  let imm := h.imm.toNat
  let glob := fun (space addr : Nat) (off : Int) (n : Nat) => if space = 0 then [(BitVec.ofInt 64 ((addr : Int) + off), n)] else []
  match h.op with
  | 0x00 =>
    let c := copyShape var imm ws
    let e := copyUnit var imm
    (if var / 16 = 1 then (List.range c.rows).flatMap fun r => glob (var % 4) (blockWide ws 0) (u * e + r * c.spitch : Nat) e
      else glob (var % 4) (blockWide ws 0) (u * c.spitch : Nat) c.bytes) ++ glob (var / 4 % 4) (blockWide ws 2) (u * c.dpitch : Nat) c.outBytes
  | 0x01 => glob (var % 4) (blockWide ws 0) (ndOffset ws 10 u) (ndExtent ws 0 * blockWord ws 4) ++
      glob (var / 4 % 4) (blockWide ws 2) (ndOffset ws 13 u) (ndExtent ws 0 * ndOut var imm ws)
  | 0x02 | 0x03 => match s.readIndex k h u with | .ok (_, i) => [(gatherAddr ws i, blockWord ws 4)] | .error _ => []
  | 0x21 =>
    let n := Nat.min 128 (blockWord ws 4 - 128 * u)
    glob 0 (blockWide ws 0) (128 * u : Nat) n ++ glob 0 (blockWide ws 2) (128 * u : Nat) n
  | _ =>
    let base := (((s.core k).team? h.launch).map (·.scratchBase)).getD 0 + h.off
    (s.backWords k h u).map fun w => (h.g + BitVec.ofNat 64 (4 * w - base), 4)

/-- The TLBs after the walks of a unit that has stopped at an address: those of its pages up to that one (R374). -/
def State.noteStop (s : State) (k : Nat) (h : HandleSlot) (a : DWord) : State :=
  let pages := (s.unitSpans k h h.done).flatMap fun p => rangePages p.1 p.2
  let same := fun (p : DWord) => p.toNat / 2 ^ 16 == a.toNat / 2 ^ 16
  if pages.any same then (pages.takeWhile (fun p => !same p) ++ [a]).foldl (fun (t : State) p => t.noteWalk k none h.ctx p) s else s

/-- Steps that an operation takes at most: a SCATTER combines a word in each, another moves a unit (R272, R317). -/
def HandleSlot.steps (h : HandleSlot) : Nat := h.total * (if h.op = 0x03 then Nat.max 1 (blockWord h.block 4 / 4) else 1)

/-- An operation's record after one step of it that wrote something with a largest wts; `rest` are the words of its element that are
left. -/
def HandleSlot.stepped (h : HandleSlot) (wts : Nat) (back : List Nat) (rest : List ElemWord) : HandleSlot :=
  { h with done := if rest.isEmpty then h.done + 1 else h.done, elem := rest, maxWts := Nat.max h.maxWts wts,
           words := if h.op = 0x05 ∨ h.op = 0x06 then h.words.filter fun x => !back.contains x else h.words }

/-- Up to `n` steps of an operation; it pauses at a translation fault, ends at an error, completes after its last
unit (R216, R272). DESIGN CHOICE: units are moved in ascending order, so that colliding indices of one SCATTER are combined in
that order, which R111 and R317 leave open (log entry 21). -/
def State.runUnits (s : State) (k idx : Nat) : Nat → State
  | 0 => s
  | n + 1 =>
    let h := (s.core k).handle idx
    if h.state ≠ .running then s
    else if h.total ≤ h.done then s.endOp k idx h
    else
      match s.unitStep k h h.done with
      | .error .wait => s
      | .error (.pause c a) => (s.noteStop k h a).pauseOp k idx h c a
      | .error (.error c a) => (s.noteStop k h a).failOp k idx h c a
      | .ok (s1, w) =>
        let h1 := h.stepped w (s1.backWords k h h.done) (s.elemRest k h)
        let s2 := s1.modCore k fun x => x.setHandle idx h1
        let s3 := match s.owner? k h with
          | some _ => s2.modGroup k h.owner fun g => { g with ackmax := Nat.max g.ackmax w, engMax := Nat.max g.engMax w }
          | none => s2
        if h1.total ≤ h1.done then s3.endOp k idx h1 else State.runUnits s3 k idx n

/-- A SCATTER brought to its next progress point: the index in hand is finished (R272, R318). -/
def State.finishElem (s : State) (k idx : Nat) : State :=
  if ((s.core k).handle idx).state = .running then s.runUnits k idx ((s.core k).handle idx).elem.length else s

/-- The dirty words of a mapped range from a block on, taken as a snapshot (R229, R272). -/
def Core.snapshot (c : Core) (m : MapRange) (block : Nat) : List Nat :=
  ((List.range (m.len / 4)).map (c.mapBase m / 4 + ·)).filter fun w =>
    (c.status w).getLsbD 1 && decide (c.mapBase m + 128 * block ≤ 4 * w)

/-- D bits of words cleared. -/
def Core.clearDirty (c : Core) (ws : List Nat) : Core := ws.foldl (fun (c : Core) w => c.setStatus w (c.status w &&& 1)) c

def State.resumeBack (s : State) (k idx : Nat) : State :=
  let h := (s.core k).handle idx
  if h.op = 0x06 then
    match (s.core k).maps.find? fun m => m.launch == h.launch && m.off == h.off with
    | some m =>
      let ws := (s.core k).snapshot m h.done
      s.modCore k fun c => (c.clearDirty ws).setHandle idx { h with words := ws }
    | none => s
  else s

/-! ## Issue -/

/-- Whether the issuing split has a store or atomic that is not performed yet (R214). -/
def State.splitWrites (s : State) : Bool :=
  s.reqs.any fun q => q.core == s.iss.core && q.frame == s.iss.frame && q.isWrite && q.unperformed && q.mask &&& s.iss.mask != 0

/-- HDST written where it is named (R215). -/
def Group.setHandle (g : Group) (dst w : Nat) : Group := if dst = 127 then g else g.setScalar dst (BitVec.ofNat 32 w)

/-- An operation started in a free slot: its locks are registered, its handle written (R215, R222). -/
def State.startOp (s : State) (g : Group) (idx : Nat) (hdst : Nat) (h : HandleSlot) (rs : List Region) : State :=
  let k := s.iss.core
  let c := s.core k
  let h1 := { h with gen := (c.handle idx).gen, owner := s.iss.frame, state := .running, ctx := g.ctx, launch := g.launch,
                     seq := g.seq, priv := g.priv, mask := s.iss.mask }
  let s1 := (rs.filterMap fun r => s.regionLock g idx r).foldl (fun (t : State) p => t.addLock p.1 p.2) s
  (s1.modCore k fun c => c.setHandle idx h1).finish (g.setHandle hdst (c.handleWord idx))

/-- Room for the locks of an operation on every core whose table takes one (R214, R222). -/
def State.locksFree (s : State) (g : Group) (rs : List Region) : Bool :=
  let ls := (rs.filterMap fun r => s.regionLock g 0 r).filter fun p => !(p.2.space == 3 && p.2.source)
  ls.all fun p => decide ((s.core p.1).locksUsed + (ls.filter fun q => q.1 == p.1).length ≤ 64)

/-- An engine operation at issue: its block's faults, then a free slot and free lock entries, else it waits (R214). -/
def State.engineOp (s : State) (i : Instr) (op : Nat) (f : EFields) (fault : List Word → Option (Cause × DWord))
    (dev : Group → List Word → Option (Cause × DWord)) (regions : List Word → List Region) : Res :=
  s.memGate i fun g =>
    let ws := g.block f.blk.toNat (eBlock op)
    if (fault ws).isNone && s.regionAwaits g (regions ws) then .next s else
    match ((fault ws).or (s.regionFault g (regions ws))).or (dev g ws) with
    | some x => .next (s.faultHere x.1 x.2)
    | none =>
      let locked := (regions ws).filter fun r => !(op == 0x03 && r.write)
      match (s.core s.iss.core).freeHandle (engineOf op) with
      | none => .next s
      | some idx =>
        if !s.locksFree g locked then .next s
        else .next (s.startOp g idx f.hdst.toNat { HandleSlot.free 0 with op := op, var := f.var, imm := f.imm, block := ws } locked)

/-- The refusal of a COPY that touches a page of another device (R10, R409). -/
def State.copyDev (s : State) (g : Group) (var imm : Nat) (ws : List Word) : Option (Cause × DWord) :=
  let c := copyShape var imm ws
  let side := fun (acc : Acc) (space addr rows pitch n : Nat) =>
    if space = 0 then ((List.range rows).map fun r => BitVec.ofNat 64 (addr + r * pitch)).findSome? fun a => (s.devPage g acc a n).map fun x => (x, a)
    else none
  (side .load (var % 4) (blockWide ws 0) c.rows c.spitch c.bytes).or (side .store (var / 4 % 4) (blockWide ws 2) c.outRows c.dpitch c.outBytes)

/-- COPY (R217, R218). -/
def execCopy (f : EFields) (s : State) : Res :=
  s.engineOp (.copy f) 0x00 f (copyFault f.var.toNat f.imm.toNat) (fun g => s.copyDev g f.var.toNat f.imm.toNat) (copyRegions f.var.toNat f.imm.toNat)

/-- The lowest and one past the highest byte offset of a COPYND side, from its strides and its run (R219, R222). -/
def ndSpan (ws : List Word) (j run : Nat) : Int × Int :=
  let part := fun (l : Nat) => ((ndExtent ws l : Int) - 1) * blockInt ws (j + l - 1)
  let lows := [1, 2, 3].map fun l => min 0 (part l)
  let highs := [1, 2, 3].map fun l => max 0 (part l)
  (lows.foldl (· + ·) 0, highs.foldl (· + ·) 0 + run)

/-- The regions of a COPYND (R219, R222). -/
def ndRegions (var imm : Nat) (ws : List Word) : List Region :=
  let s := ndSpan ws 10 (ndExtent ws 0 * blockWord ws 4)
  let d := ndSpan ws 13 (ndExtent ws 0 * ndOut var imm ws)
  [⟨var % 4, blockWide ws 0, s.1, s.2, false⟩, ⟨var / 4 % 4, blockWide ws 2, d.1, d.2, true⟩]

/-- ALIGN and HANDLE of a COPYND block (R214, R219). -/
def ndFault (var imm : Nat) (ws : List Word) : Option (Cause × DWord) :=
  let u := copyUnit var imm
  let b := blockWord ws
  let d := b 5
  let e := b 4
  (misaligned ([(blockWide ws 0, u), (blockWide ws 2, u)] ++
      (([1, 2, 3].filter fun l => decide (l < d)).flatMap fun l => [(b (9 + l), u), (b (12 + l), u)]))).or
    (outside ([(b 1, var % 4 == 0 || b 1 == 0), (b 3, var / 4 % 4 == 0 || b 3 == 0),
      (e, (e == 1 || e == 2 || e == 4 || e == 8 || e == 16) && (var / 16 != 5 || e == cvtBits (imm % 16) / 8)),
      (d, decide (1 ≤ d ∧ d ≤ 4))] ++
      (List.range 4).map fun l => (b (6 + l), if l < d then decide (1 ≤ b (6 + l) ∧ b (6 + l) ≤ 65536) else b (6 + l) == 0)))

/-- The refusal of a COPYND that touches a page of another device (R10, R409). -/
def State.ndDev (s : State) (g : Group) (var imm : Nat) (ws : List Word) : Option (Cause × DWord) :=
  let one := fun (acc : Acc) (space addr j run : Nat) =>
    if space = 0 then
      let n := ndExtent ws 1 * ndExtent ws 2 * ndExtent ws 3
      ((List.range n).map fun u =>
        BitVec.ofInt 64 (addr + (u % ndExtent ws 1 : Nat) * blockInt ws j + (u / ndExtent ws 1 % ndExtent ws 2 : Nat) * blockInt ws (j + 1) +
          (u / ndExtent ws 1 / ndExtent ws 2 : Nat) * blockInt ws (j + 2))).findSome? fun a => (s.devPage g acc a run).map fun x => (x, a)
    else none
  (one .load (var % 4) (blockWide ws 0) 10 (ndExtent ws 0 * blockWord ws 4)).or
    (one .store (var / 4 % 4) (blockWide ws 2) 13 (ndExtent ws 0 * ndOut var imm ws))

/-- COPYND (R219). -/
def execCopynd (f : EFields) (s : State) : Res :=
  s.engineOp (.copynd f) 0x01 f (ndFault f.var.toNat f.imm.toNat) (fun g => s.ndDev g f.var.toNat f.imm.toNat) (ndRegions f.var.toNat f.imm.toNat)

/-- ALIGN and HANDLE of a GATHER or SCATTER block (R214, R220, R316). -/
def gatherFault (ws : List Word) : Option (Cause × DWord) :=
  let b := blockWord ws
  (misaligned [(b 0, 4), (blockWide ws 2, 4), (b 4, 4), (b 6, 4)]).or
    (outside [(b 1, decide (1 ≤ b 1 ∧ b 1 ≤ 65536)), (b 4, decide (4 ≤ b 4 ∧ b 4 ≤ 256)), (b 7, b 7 == 0)])

/-- The index vector and the scratch data of a GATHER or SCATTER (R220, R222). -/
def gatherRegions (dst : Bool) (space : Nat) (ws : List Word) : List Region :=
  let b := blockWord ws
  [⟨1, b 0, 0, (4 * b 1 : Nat), false⟩, ⟨space, b 5, 0, (b 1 * b 4 : Nat), dst⟩]

/-- GATHER (R220, R316). -/
def execGather (f : EFields) (s : State) : Res :=
  s.engineOp (.gather f) 0x02 f gatherFault (fun _ _ => none) (gatherRegions true (1 + f.var.toNat % 2))

/-- SCATTER (R220, R316, R317). -/
def execScatter (f : EFields) (s : State) : Res :=
  s.engineOp (.scatter f) 0x03 f gatherFault (fun _ _ => none) (gatherRegions false 1)

/-! ## Write-backs with a handle (R229) -/

/-- The mapped range of the issuing team that starts at an offset (R229, R230). -/
def State.teamMap (s : State) (g : Group) (off : Nat) : Option MapRange :=
  (s.core s.iss.core).maps.find? fun m => m.launch == g.launch && m.off == off

/-- A write-back of a range: a snapshot of its dirty words is taken, their D bits cleared; without any it completes at
once (R229). -/
def State.writeBack (s : State) (g : Group) (op : Nat) (f : EFields) (m : MapRange) (idx : Nat) : State :=
  let k := s.iss.core
  let ws := (s.core k).snapshot m 0
  let h : HandleSlot := { HandleSlot.free 0 with op := op, block := g.block f.blk.toNat 1, words := ws, g := m.g, len := m.len, off := m.off }
  let s1 := (s.modCore k fun c => c.clearDirty ws).startOp g idx f.hdst.toNat h []
  if ws.isEmpty then s1.endOp k idx ((s1.core k).handle idx) else s1

/-- WBACK (R229). -/
def execWback (f : EFields) (s : State) : Res :=
  s.memGate (.wback f) fun g =>
    let o := g.scalar f.blk.toNat
    match s.teamMap g o.toNat with
    | none => .next (s.faultHere .handle (o.setWidth 64))
    | some m =>
      match (s.core s.iss.core).freeHandle 3 with
      | none => .next s
      | some idx => if s.splitWrites then .next s else .next (s.writeBack g 0x06 f m idx)

/-- A mapped range withdrawn: a subscription's entries and bounds with it (R227, R229, R321). -/
def State.dropMap (s : State) (k : Nat) (m : MapRange) : State :=
  let base := (s.core k).mapBase m
  let s1 := s.modCore k fun c => { c with maps := c.maps.filter fun x => !(x.launch == m.launch && x.off == m.off) }
  if m.mode = 1 then
    { s1 with dies := s1.dies.map fun p => (p.1, { p.2 with subs := p.2.subs.filter fun u => !u.2.isOf k m.launch m.off }),
              cores := s1.cores.map fun p => (p.1, { p.2 with subBounds := p.2.subBounds.filter fun b => !(b.1 == k && b.2.1 == base) }) }
  else s1

/-- UNMAP (R229). -/
def execUnmap (f : EFields) (s : State) : Res :=
  s.memGate (.unmap f) fun g =>
    let o := g.scalar f.blk.toNat
    match s.teamMap g o.toNat with
    | none => .next (s.faultHere .handle (o.setWidth 64))
    | some m =>
      match (s.core s.iss.core).freeHandle 3 with
      | none => .next s
      | some idx => if s.splitWrites then .next s else .next ((s.writeBack g 0x05 f m idx).dropMap s.iss.core m)

/-! ## Handles (R221) -/

/-- What a handle denotes for a group: a running, paused or failed operation of its own, or a completed one (R215). -/
def Core.opOf (c : Core) (f w idx : Nat) : Option HandleSlot :=
  let h := c.handle idx
  if h.state == .free || h.owner != f || h.gen.toNat != w % 64 then none else some h

/-- A failed operation's fault, its slot freed (R221). -/
def State.reportOp (s : State) (idx : Nat) (h : HandleSlot) : State :=
  (s.endOp s.iss.core idx h).faultHere (h.errCause.getD .prot) h.errAddr

/-- Whether the handler that an operation's fault would enter must wait for pending entries: the failed operation stays as it is (R266). -/
def State.opWaits (s : State) (g : Group) (h : HandleSlot) : Bool :=
  s.handlerWaits s.iss.core g s.iss.mask ⟨h.errCause.getD .prot, .P, h.errAddr, s.iss.pc, lowSlice s.iss.mask, s.iss.idx, none⟩

/-- An instruction that reads scalars once, at issue, and may then wait: it passes its interlocks then too, and what it read is latched
(R214, R221). -/
def State.latchGate (s : State) (i : Instr) (k : Group → Res) : Res :=
  if s.iss.kept.isEmpty then s.memGate i k else s.checked i k

/-- A scalar as such an instruction read it at issue. -/
def State.latched (s : State) (j : Nat) (now : Word) : Word := (s.iss.kept[j]?.map (BitVec.ofNat 32)).getD now

/-- A pair of scalars as such an instruction read it at issue. -/
def State.latchedPair (s : State) (j : Nat) (now : DWord) : DWord := (s.iss.kept[j]?.map (BitVec.ofNat 64)).getD now

/-- WAITH: its handle is read at issue; at completion the clock rises over the operation's acknowledgements (R214, R221, R340). -/
def execWaith (f : EFields) (s : State) : Res :=
  s.latchGate (.waith f) fun g =>
    let w := (s.latched 0 (g.scalar f.blk.toNat)).toNat
    match handleIndex w with
    | none => .next (s.faultHere .handle (BitVec.ofNat 64 w))
    | some idx =>
      match (s.core s.iss.core).opOf s.iss.frame w idx with
      | none => .next ((s.raiseClock s.iss.core ((Sparse.get? g.engDone w).getD 0)).advance)
      | some h =>
        if h.state = .error ∧ ¬ s.opWaits g h then .next (s.reportOp idx h)
        else .next (s.waitLatched (.waith f) [w])

/-- TESTH: 0 complete, 1 running, 2 paused, 3 error (R221). -/
def execTesth (f : EFields) (s : State) : Res :=
  s.memGate (.testh f) fun g =>
    let w := (g.scalar f.blk.toNat).toNat
    match handleIndex w with
    | none => .next (s.faultHere .handle (BitVec.ofNat 64 w))
    | some idx =>
      let v : Word := match (s.core s.iss.core).opOf s.iss.frame w idx with
        | none => 0
        | some h => if h.state = .error then 3 else if h.state = .paused then 2 else 1
      .next (s.finish (g.mapLanes s.iss.mask fun _ l => l.emit v))

/-- Blocks that an FCOPY has asked for and not written are forgotten: it asks for them again where it goes on (R272, R421). -/
def State.dropReads (s : State) (h : HandleSlot) : State :=
  if h.op = 0x21 then { s with reqs := s.reqs.filter fun q => !(q.lane == 34 && some q.op == h.words.head?) } else s

/-- CANCELH: the operation stops at its progress point, its slot is free; unwritten words of a range stay dirty (R221, R272). -/
def execCancelh (f : EFields) (s : State) : Res :=
  s.memGate (.cancelh f) fun g =>
    let w := (g.scalar f.blk.toNat).toNat
    match handleIndex w with
    | none => .next (s.faultHere .handle (BitVec.ofNat 64 w))
    | some idx =>
      let k := s.iss.core
      match (s.core k).opOf s.iss.frame w idx with
      | none => .next (s.finish g)
      | some _ =>
        let s0 := s.finishElem k idx
        match (s0.core k).opOf s.iss.frame w idx with
        | none => .next s0.advance
        | some h =>
          let s1 := s0.modCore k fun c =>
            if h.op = 0x06 then h.words.foldl (fun (c : Core) w => c.setStatus w (c.status w ||| 2)) c else c
          .next (((s1.dropReads h).endOp k idx h).advance)

/-- WAITALL: every operation of the group must have completed; one that has failed is reported, the lowest engine and slot first (R221,
R340). DESIGN CHOICE: it is reported at once, though another operation still runs (log entry 81). -/
def execWaitall (f : EFields) (s : State) : Res :=
  s.memGate (.waitall f) fun g =>
    let k := s.iss.core
    let mine := (s.core k).handles.filter fun p => p.2.owner == s.iss.frame && p.2.state != .free
    match mine.find? fun p => p.2.state == .error with
    | some p => if s.opWaits g p.2 then .next s else .next (s.reportOp p.1 p.2)
    | none =>
      if mine.isEmpty then
        let m := ((s.group? k s.iss.frame).map (·.engMax)).getD 0
        .next (((s.raiseClock k m).modGroup k s.iss.frame fun g => { g with engMax := 0, engDone := [] }).advance)
      else .next (s.waitHere (.waitall f))

/-! ## The engine's own steps (R215, R216) -/

/-- ENGINE_RESUME: a paused operation goes on (R216, R272). -/
def execEngineResume (k idx : Nat) (s : State) : Res :=
  let h := (s.core k).handle idx
  if h.state ≠ .paused then .next s
  else .next ((s.modCore k fun c => c.setHandle idx { h with state := .running, errCause := none, errAddr := 0 }).resumeBack k idx)

end Sys2Proof.Machine
end

