-- ==== Sys2Proof/Machine/LaneInt.lean ====
section
/-! DEFINITION. Trail, integer, bit, compare and immediate instructions (R116 to R128). -/

namespace Sys2Proof.Machine

open Sys2Proof

/-! ## Moving entries -/

/-- A value pushed as it stands, or narrowed from its type (R117). -/
def moveResult (f : VFields) (x : Nat) : List Word :=
  if f.narrow then
    (if f.ty.isFloat then [narrowFloat f.nfmt.toNat f.rm f.sat (f.ty.fmt.decode x)]
      else [narrowInt f.nfmt.toNat f.sat (intVal f.ty x)])
  else wordsOf f.ty.is64 x

/-- DUP: the source, narrowed when NARROW is set (R116, R117). -/
def execDup (f : VFields) (s : State) : Res :=
  s.vOp (.dup f) 0x00 f fun x _ _ => moveResult f x

/-- GET: a pantry slot (R116). -/
def execGet (slot : BitVec 6) (s : State) : Res :=
  s.laneOp (.get slot) fun _ _ l => [l.pantry[slot.toNat]'slot.isLt]

/-- SAVE: an age into a pantry slot; nothing is pushed (R116, R117). -/
def execSave (age : BitVec 5) (slot : BitVec 6) (s : State) : Res :=
  s.gate (.save age slot) fun g => .next (s.finish (g.mapLanes s.iss.mask fun _ l =>
    { l with pantry := l.pantry.set slot.toNat (l.age age.toNat) slot.isLt }))

/-- SEL: one of two sources by a 32-bit predicate (R116, R117). -/
def execSel (f : VFields) (s : State) : Res :=
  s.vOp (.sel f) 0x01 f fun c x y => wordsOf f.ty.is64 (if c ≠ 0 then x else y)

/-- DROP: HEAD and NET lowered, pending entries not waited for (R116, R117). -/
def execDrop (n : BitVec 5) (s : State) : Res :=
  s.gate (.drop n) fun g => .next (s.finish (g.mapLanes s.iss.mask fun _ l => l.drop n.toNat))

/-- LANE: the lane's index (R116). -/
def execLane (f : VFields) (s : State) : Res :=
  s.laneOp (.lane f) fun _ n _ => [BitVec.ofNat 32 n.val]

/-! ## Integer arithmetic (R118 to R120) -/

/-- A V instruction with an integer result (R113, R115). -/
def State.vInt (s : State) (i : Instr) (op : Nat) (f : VFields) (k : Int → Int → Int → Int) : Res :=
  s.vOp i op f fun x y z => intResult f.ty f.nfmt.toNat f.narrow f.sat k x y z

/-- ADD (R118). -/
def execAdd (f : VFields) (s : State) : Res :=
  s.vInt (.add f) 0x10 f fun x y _ => x + y

/-- SUB (R118). -/
def execSub (f : VFields) (s : State) : Res :=
  s.vInt (.sub f) 0x11 f fun x y _ => x - y

/-- MUL (R118). -/
def execMul (f : VFields) (s : State) : Res :=
  s.vInt (.mul f) 0x12 f fun x y _ => x * y

/-- MULHI: the upper half of the product (R118). -/
def execMulhi (f : VFields) (s : State) : Res :=
  s.vInt (.mulhi f) 0x13 f fun x y _ => mulHi f.ty x y

/-- MAD: one exact result (R118). -/
def execMad (f : VFields) (s : State) : Res :=
  s.vInt (.mad f) 0x14 f fun x y z => x * y + z

/-- DIV (R119). -/
def execDiv (f : VFields) (s : State) : Res :=
  s.vInt (.div f) 0x15 f fun x y _ => divInt f.ty x y

/-- REM (R119). -/
def execRem (f : VFields) (s : State) : Res :=
  s.vInt (.rem f) 0x16 f fun x y _ => remInt x y

/-- ABS (R118). -/
def execAbs (f : VFields) (s : State) : Res :=
  s.vInt (.abs f) 0x17 f fun x _ _ => (x.natAbs : Int)

/-- NEG (R118). -/
def execNeg (f : VFields) (s : State) : Res :=
  s.vInt (.neg f) 0x18 f fun x _ _ => -x

/-- MIN (R118). -/
def execMin (f : VFields) (s : State) : Res :=
  s.vInt (.min f) 0x19 f fun x y _ => if y < x then y else x

/-- MAX (R118). -/
def execMax (f : VFields) (s : State) : Res :=
  s.vInt (.max f) 0x1A f fun x y _ => if x < y then y else x

/-- CLAMP: min(max(x, lo), hi) (R118). -/
def execClamp (f : VFields) (s : State) : Res :=
  s.vInt (.clamp f) 0x1B f fun x lo hi => let m := if x < lo then lo else x; if hi < m then hi else m

/-- ABSDIFF (R118). -/
def execAbsdiff (f : VFields) (s : State) : Res :=
  s.vInt (.absdiff f) 0x1C f fun x y _ => ((x - y).natAbs : Int)

/-- LEA: a 64-bit base and a shifted index (R120). -/
def execLea (f : VFields) (s : State) : Res :=
  s.vOp (.lea f) 0x1D f fun b i sh => wordsOf true (leaSum f.ty b i sh)

/-! ## Bits and fields (R121 to R124) -/

/-- AND (R121). -/
def execAnd (f : VFields) (s : State) : Res :=
  s.vOp (.and f) 0x20 f fun x y _ => wordsOf f.ty.is64 (x &&& y)

/-- OR (R121). -/
def execOr (f : VFields) (s : State) : Res :=
  s.vOp (.or f) 0x21 f fun x y _ => wordsOf f.ty.is64 (x ||| y)

/-- XOR (R121). -/
def execXor (f : VFields) (s : State) : Res :=
  s.vOp (.xor f) 0x22 f fun x y _ => wordsOf f.ty.is64 (x ^^^ y)

/-- NOT (R121). -/
def execNot (f : VFields) (s : State) : Res :=
  s.vOp (.not f) 0x23 f fun x _ _ => wordsOf f.ty.is64 (2 ^ f.ty.width - 1 - x)

/-- SHL (R121). -/
def execShl (f : VFields) (s : State) : Res :=
  s.vOp (.shl f) 0x24 f fun x n _ => wordsOf f.ty.is64 (shlBits f.ty.width x n)

/-- SHR: arithmetic for i32 and i64 (R121). -/
def execShr (f : VFields) (s : State) : Res :=
  s.vOp (.shr f) 0x25 f fun x n _ => wordsOf f.ty.is64 (shrBits f.ty.width f.ty.isSigned x n)

/-- ROTL (R121). -/
def execRotl (f : VFields) (s : State) : Res :=
  s.vOp (.rotl f) 0x26 f fun x n _ => wordsOf f.ty.is64 (rotlBits f.ty.width x n)

/-- BFX (R122). -/
def execBfx (f : VFields) (s : State) : Res :=
  s.vOp (.bfx f) 0x27 f fun x off wid => wordsOf false (bfxBits f.ty.isSigned x off wid)

/-- BFI (R122). -/
def execBfi (f : VFields) (s : State) : Res :=
  s.vOp (.bfi f) 0x28 f fun x ins ctl => wordsOf false (bfiBits x ins ctl)

/-- POPC: one entry (R121). -/
def execPopc (f : VFields) (s : State) : Res :=
  s.vOp (.popc f) 0x29 f fun x _ _ => wordsOf false (popBits f.ty.width x)

/-- CLZ: one entry (R121). -/
def execClz (f : VFields) (s : State) : Res :=
  s.vOp (.clz f) 0x2A f fun x _ _ => wordsOf false (clzBits f.ty.width x)

/-- CTZ: one entry (R121). -/
def execCtz (f : VFields) (s : State) : Res :=
  s.vOp (.ctz f) 0x2B f fun x _ _ => wordsOf false (ctzBits f.ty.width x)

/-- BREV (R121). -/
def execBrev (f : VFields) (s : State) : Res :=
  s.vOp (.brev f) 0x2C f fun x _ _ => wordsOf f.ty.is64 (revBits f.ty.width x)

/-- PERMB (R123). -/
def execPermb (f : VFields) (s : State) : Res :=
  s.vOp (.permb f) 0x2D f fun x sel _ => wordsOf false (permBytes x sel)

/-- PACK (R124). -/
def execPack (f : VFields) (s : State) : Res :=
  s.vOp (.pack f) 0x2E f fun x y _ => wordsOf false (packElems f.ty f.sat x y)

/-! ## Comparisons (R125, R126) -/

/-- CEQ (R125). -/
def execCeq (f : VFields) (s : State) : Res :=
  s.vOp (.ceq f) 0x30 f fun x y _ => truth (relBits f.ty 0 x y)

/-- CNE (R125). -/
def execCne (f : VFields) (s : State) : Res :=
  s.vOp (.cne f) 0x31 f fun x y _ => truth (relBits f.ty 1 x y)

/-- CLT (R125). -/
def execClt (f : VFields) (s : State) : Res :=
  s.vOp (.clt f) 0x32 f fun x y _ => truth (relBits f.ty 2 x y)

/-- CLE (R125). -/
def execCle (f : VFields) (s : State) : Res :=
  s.vOp (.cle f) 0x33 f fun x y _ => truth (relBits f.ty 3 x y)

/-- CGT (R125). -/
def execCgt (f : VFields) (s : State) : Res :=
  s.vOp (.cgt f) 0x34 f fun x y _ => truth (relBits f.ty 4 x y)

/-- CGE (R125). -/
def execCge (f : VFields) (s : State) : Res :=
  s.vOp (.cge f) 0x35 f fun x y _ => truth (relBits f.ty 5 x y)

/-- CUNO: one operand is NaN (R125). -/
def execCuno (f : VFields) (s : State) : Res :=
  s.vOp (.cuno f) 0x36 f fun x y _ => truth ((f.ty.fmt.decode x).isNan || (f.ty.fmt.decode y).isNan)

/-- FCLASS: the class bit of x in a mask (R126). -/
def execFclass (f : VFields) (s : State) : Res :=
  s.vOp (.fclass f) 0x37 f fun x m _ => truth (m.testBit (fclassBit f.ty.fmt (f.ty.fmt.decode x)))

/-! ## Integer immediates (R60, R127, R128) -/

/-- IMM20 extended under R60: by sign for i-types, a single's upper bits for f32, else by zero. -/
def immInt (f : IFields) : Int :=
  if f.ty.isSigned then f.imm.toInt else if f.ty = .f32 then ((f.imm.toNat * 2 ^ 12 : Nat) : Int) else (f.imm.toNat : Int)

/-- The immediate as a value of the instruction's type. -/
def immBits (f : IFields) : Nat := wrapInt f.ty.width (immInt f)

/-- Sources SRC0 and SRC1 of an I instruction read on a lane (R46 to R50). -/
def State.iSrc (s : State) (f : IFields) (g : Group) (l : Lane) : Nat × Nat :=
  let e := s.env g l []
  (e.read f.ty 0 f.src0, e.read f.ty 0 f.src1)

/-- An I instruction with a result of its first source (R113). -/
def State.iOp (s : State) (i : Instr) (f : IFields) (r : Nat → List Word) : Res :=
  s.laneOp i fun g _ l => r (s.iSrc f g l).1

/-- An I instruction with an integer result of its source and its immediate (R115, R127). -/
def State.iInt (s : State) (i : Instr) (f : IFields) (k : Int → Int → Int) : Res :=
  s.iOp i f fun x => wordsOf f.ty.is64 (keepInt f.ty f.sat (k (intVal f.ty x) (immInt f)))

/-- LDI (R127). -/
def execLdi (f : IFields) (s : State) : Res :=
  s.laneOp (.ldi f) fun _ _ _ => [BitVec.ofNat 32 (immBits f)]

/-- LDHI (R127). -/
def execLdhi (f : IFields) (s : State) : Res :=
  s.laneOp (.ldhi f) fun _ _ _ => [BitVec.ofNat 32 (f.imm.toNat * 2 ^ 12)]

/-- PCHI: the instruction's address and a sign-extended upper immediate (R128). -/
def execPchi (f : IFields) (s : State) : Res :=
  s.laneOp (.pchi f) fun _ _ _ => wordsOf true (wrapInt 64 (s.iss.pc.toNat + f.imm.toInt * 2 ^ 12))

/-- ADDI (R127, R128). -/
def execAddi (f : IFields) (s : State) : Res :=
  s.iInt (.addi f) f fun x m => x + m

/-- MULI (R127). -/
def execMuli (f : IFields) (s : State) : Res :=
  s.iInt (.muli f) f fun x m => x * m

/-- ANDI (R127). -/
def execAndi (f : IFields) (s : State) : Res :=
  s.iOp (.andi f) f fun x => wordsOf false (x &&& (immBits f))

/-- ORI (R127). -/
def execOri (f : IFields) (s : State) : Res :=
  s.iOp (.ori f) f fun x => wordsOf false (x ||| (immBits f))

/-- XORI (R127). -/
def execXori (f : IFields) (s : State) : Res :=
  s.iOp (.xori f) f fun x => wordsOf false (x ^^^ (immBits f))

/-- SHLI (R127). -/
def execShli (f : IFields) (s : State) : Res :=
  s.iOp (.shli f) f fun x => wordsOf false (shlBits 32 x f.imm.toNat)

/-- SHRI: arithmetic for i32 (R127). -/
def execShri (f : IFields) (s : State) : Res :=
  s.iOp (.shri f) f fun x => wordsOf false (shrBits 32 f.ty.isSigned x f.imm.toNat)

/-- MINI (R127). -/
def execMini (f : IFields) (s : State) : Res :=
  s.iInt (.mini f) f fun x m => if m < x then m else x

/-- MAXI (R127). -/
def execMaxi (f : IFields) (s : State) : Res :=
  s.iInt (.maxi f) f fun x m => if x < m then m else x

/-- CLTI (R127). -/
def execClti (f : IFields) (s : State) : Res :=
  s.iOp (.clti f) f fun x => truth (decide (intVal f.ty x < (immInt f)))

end Sys2Proof.Machine
end

