-- ==== Sys2Proof/Machine/LaneFloat.lean ====
section
/-! DEFINITION. Float, conversion, special-function and activation instructions, float immediates and the pair
(R135 to R153). -/

namespace Sys2Proof.Machine

open Sys2Proof

/-- A float result as pushed: one rounding, to NFMT when NARROW is set (R135). -/
def floatResult (f : VFields) (k : FVal → FVal → FVal → FVal) (x y z : Nat) : List Word :=
  let d := f.ty.fmt.decode
  if f.narrow then [narrowFloat f.nfmt.toNat f.rm f.sat (k (d x) (d y) (d z))]
  else wordsOf f.ty.is64 (floatMap f.ty f.rm false k x y z)

/-- A V instruction with a float result (R113, R135). -/
def State.vFloat (s : State) (i : Instr) (op : Nat) (f : VFields) (k : FVal → FVal → FVal → FVal) : Res :=
  s.vOp i op f (floatResult f k)

/-! ## Float arithmetic (R138 to R140) -/

/-- FADD (R138). -/
def execFadd (f : VFields) (s : State) : Res :=
  s.vFloat (.fadd f) 0x40 f fun x y _ => sumExact f.rm [x, y]

/-- FSUB (R138). -/
def execFsub (f : VFields) (s : State) : Res :=
  s.vFloat (.fsub f) 0x41 f fun x y _ => sumExact f.rm [x, y.neg]

/-- FMUL (R138). -/
def execFmul (f : VFields) (s : State) : Res :=
  s.vFloat (.fmul f) 0x42 f fun x y _ => mulExact x y

/-- FFMA: rounded once (R138). -/
def execFfma (f : VFields) (s : State) : Res :=
  s.vFloat (.ffma f) 0x43 f fun x y z => sumExact f.rm [mulExact x y, z]

/-- FMIN (R98, R138). -/
def execFmin (f : VFields) (s : State) : Res :=
  s.vFloat (.fmin f) 0x44 f fun x y _ => fmin x y

/-- FMAX (R98, R138). -/
def execFmax (f : VFields) (s : State) : Res :=
  s.vFloat (.fmax f) 0x45 f fun x y _ => fmax x y

/-- FRND (R138). -/
def execFrnd (f : VFields) (s : State) : Res :=
  s.vFloat (.frnd f) 0x46 f fun x _ _ => rndIntegral f.rm x

/-- A packed dot product and its accumulator, rounded once to a single (R105). -/
def dotResult (rm : Rm) (a b : List FVal) (z : Nat) : List Word :=
  [BitVec.ofNat 32 (FFmt.f32.encode rm false (sumExact rm ((List.zipWith mulExact a b) ++ [FFmt.f32.decode z])))]

/-- The four elements of an FDOT4 source (R140). -/
def quadElems (n x : Nat) : List FVal := (splitElems 8 4 x).map (nfmtFloat n).decode

/-- FDOT2 (R139). -/
def execFdot2 (f : VFields) (s : State) : Res :=
  s.vOp (.fdot2 f) 0x47 f fun x y z => dotResult f.rm (floatElems f.ty x) (floatElems f.ty y) z

/-- FDOT4 (R140). -/
def execFdot4 (f : VFields) (s : State) : Res :=
  s.vOp (.fdot4 f) 0x48 f fun x y z => dotResult f.rm (quadElems f.nfmt.toNat x) (quadElems f.nfmt.toNat y) z

/-- FSCALE: SRC1 is an i32 word (R138). -/
def execFscale (f : VFields) (s : State) : Res :=
  s.vOp (.fscale f) 0x49 f fun x n _ =>
    floatResult f (fun v _ _ => fscale v (sextNat 32 n)) x 0 0

/-! ## Conversions (R142 to R144) -/

/-- CVTF's value: widening is exact, and a single source of a packed result takes element 0 (R143). -/
def cvtfValue (src dst : Ty) (rm : Rm) (sat : Bool) (x : Nat) : Nat :=
  let widens := dst == .f64 || (dst == .f32 && src != .f64)
  let es := (floatElems src x).take (Nat.min src.lanes dst.lanes)
  joinElems dst.width (es.map (dst.fmt.encode rm (sat && !widens)))

/-- CVTF (R143). -/
def execCvtf (f : VFields) (s : State) : Res :=
  s.vOp (.cvtf f) 0x4A f fun x _ _ => wordsOf f.ty.is64 (cvtfValue (cvtSrc f) f.ty f.rm f.sat x)

/-- CVTFI (R102, R144). -/
def execCvtfi (f : VFields) (s : State) : Res :=
  s.vOp (.cvtfi f) 0x4B f fun x _ _ =>
    wordsOf f.ty.is64 (toInt f.rm f.sat f.ty.width f.ty.isSigned ((cvtSrc f).fmt.decode x))

/-- CVTIF (R103, R144). -/
def execCvtif (f : VFields) (s : State) : Res :=
  s.vOp (.cvtif f) 0x4C f fun x _ _ =>
    wordsOf f.ty.is64 (f.ty.fmt.encode f.rm false (ofInteger (intVal (cvtSrc f) x)))

/-! ## Special functions and ACT (R146 to R150) -/

/-- A single that a function delivers, as pushed (R135). -/
def singleResult (f : VFields) (v : Nat) : List Word :=
  if f.narrow then [narrowFloat f.nfmt.toNat f.rm f.sat (FFmt.f32.decode v)] else [BitVec.ofNat 32 v]

/-- A special function (R146). -/
def State.vSpecial (s : State) (i : Instr) (op : Nat) (f : VFields) (k : FVal → SfOut) : Res :=
  s.vOp i op f fun x _ _ => singleResult f (sfValue f.grade k x)

/-- RCP (R146 to R148). -/
def execRcp (f : VFields) (s : State) : Res :=
  s.vSpecial (.rcp f) 0x50 f sfRcp

/-- RSQ (R146 to R148). -/
def execRsq (f : VFields) (s : State) : Res :=
  s.vSpecial (.rsq f) 0x51 f sfRsq

/-- SQRT (R146 to R148). -/
def execSqrt (f : VFields) (s : State) : Res :=
  s.vSpecial (.sqrt f) 0x52 f sfSqrt

/-- EXP2 (R146 to R148). -/
def execExp2 (f : VFields) (s : State) : Res :=
  s.vSpecial (.exp2 f) 0x53 f sfExp2

/-- LOG2 (R146 to R148). -/
def execLog2 (f : VFields) (s : State) : Res :=
  s.vSpecial (.log2 f) 0x54 f sfLog2

/-- SIN (R146 to R148). -/
def execSin (f : VFields) (s : State) : Res :=
  s.vSpecial (.sin f) 0x55 f (sfSin f.grade)

/-- COS (R146 to R148). -/
def execCos (f : VFields) (s : State) : Res :=
  s.vSpecial (.cos f) 0x56 f (sfCos f.grade)

/-- TANH (R146 to R148). -/
def execTanh (f : VFields) (s : State) : Res :=
  s.vSpecial (.tanh f) 0x57 f sfTanh

/-- SIGM (R146 to R148). -/
def execSigm (f : VFields) (s : State) : Res :=
  s.vSpecial (.sigm f) 0x58 f sfSigm

/-- ACT: a function of the bank the group has selected (R150, R151). -/
def execAct (f : VFields) (s : State) : Res :=
  s.longOp (.act f) fun g _ l =>
    let x := s.vSrc 0x59 f g l
    singleResult f (actValue ((s.core s.iss.core).banks.toList.getD g.actBank []) x.2.1 x.1)

/-! ## Float immediates (R141) -/

/-- An I instruction with a float result of its sources and its immediate (R141). -/
def State.iFloat (s : State) (i : Instr) (f : IFields) (k : FVal → FVal → FVal → FVal) : Res :=
  s.laneOp i fun g _ l =>
    let x := s.iSrc f g l
    let d := FFmt.f32.decode
    [BitVec.ofNat 32 (FFmt.f32.encode f.rm false (k (d x.1) (d (immBits f)) (d x.2)))]

/-- FADDI (R141). -/
def execFaddi (f : IFields) (s : State) : Res :=
  s.iFloat (.faddi f) f fun x m _ => sumExact f.rm [x, m]

/-- FMULI (R141). -/
def execFmuli (f : IFields) (s : State) : Res :=
  s.iFloat (.fmuli f) f fun x m _ => mulExact x m

/-- FFMAI (R141). -/
def execFfmai (f : IFields) (s : State) : Res :=
  s.iFloat (.ffmai f) f fun x m z => sumExact f.rm [mulExact x m, z]

/-- FMINI (R141). -/
def execFmini (f : IFields) (s : State) : Res :=
  s.iFloat (.fmini f) f fun x m _ => fmin x m

/-- FMAXI (R141). -/
def execFmaxi (f : IFields) (s : State) : Res :=
  s.iFloat (.fmaxi f) f fun x m _ => fmax x m

/-! ## The pair (R152) -/

/-- What a pair's integer half computes: what the V instruction of the same opcode computes (R152). -/
def pairInt (op : PairInt) (f : VFields) (x y : Nat) : List Word :=
  let int := fun k => intResult f.ty 0 false f.sat k x y 0
  let w := f.ty.width
  match op with
  | .add => int fun x y _ => x + y
  | .sub => int fun x y _ => x - y
  | .mul => int fun x y _ => x * y
  | .min => int fun x y _ => if y < x then y else x
  | .max => int fun x y _ => if x < y then y else x
  | .absdiff => int fun x y _ => ((x - y).natAbs : Int)
  | .and => wordsOf false (x &&& y)
  | .or => wordsOf false (x ||| y)
  | .xor => wordsOf false (x ^^^ y)
  | .shl => wordsOf false (shlBits w x y)
  | .shr => wordsOf false (shrBits w f.ty.isSigned x y)
  | .ceq => truth (relBits f.ty 0 x y)
  | .cne => truth (relBits f.ty 1 x y)
  | .clt => truth (relBits f.ty 2 x y)
  | .cle => truth (relBits f.ty 3 x y)
  | .cgt => truth (relBits f.ty 4 x y)
  | .cge => truth (relBits f.ty 5 x y)

/-- What a pair's float half computes (R152). -/
def pairFloat (op : PairFloat) (f : VFields) (x y : Nat) : List Word :=
  match op with
  | .fadd => floatResult f (fun x y _ => sumExact f.rm [x, y]) x y 0
  | .fsub => floatResult f (fun x y _ => sumExact f.rm [x, y.neg]) x y 0
  | .fmul => floatResult f (fun x y _ => mulExact x y) x y 0
  | .fmin => floatResult f (fun x y _ => Machine.fmin x y) x y 0
  | .fmax => floatResult f (fun x y _ => Machine.fmax x y) x y 0

/-- A pair: both halves read the trail as it stood, and the integer half's result is pushed first (R152). -/
def execPair (f : PairFields) (s : State) : Res :=
  s.laneOp (.pair f) fun g _ l =>
    let x := s.vSrc f.op0.op f.half0 g l
    let y := s.vSrc f.op1.op f.half1 g l
    pairInt f.op0 f.half0 x.1 x.2.1 ++ pairFloat f.op1 f.half1 y.1 y.2.1

end Sys2Proof.Machine
end

