-- ==== Sys2Proof/Machine/Maps.lean ====
section
/-! DEFINITION. Mapped and subscribed ranges: MAP, SUBWAIT, SETTLE, and the steps of a subscription (R223 to R231, R319,
R320, R342, R344, R345). -/

namespace Sys2Proof.Machine

open Sys2Proof

/-! ## MAP (R223, R319) -/

/-- The parts of a global range by page: place in the range, physical address, length (R223, R319). -/
def State.rangeParts (s : State) (k ctx : Nat) (a : DWord) (n : Nat) : List (Nat × Nat × Nat) :=
  (rangePages a n).filterMap fun p =>
    let lo := Nat.max p.toNat a.toNat
    let hi := Nat.min (p.toNat + 2 ^ 16) (a.toNat + n)
    (s.lookup k none ctx p).map fun e => (lo - a.toNat, e.pa (BitVec.ofNat 64 lo), hi - lo)

/-- The slices that hold a granule of a range of one die (R308, R319). -/
def State.rangeSlices (s : State) (parts : List (Nat × Nat × Nat)) : List Nat :=
  parts.foldl (fun (l : List Nat) p =>
    ((List.range ((p.2.1 % 256 + p.2.2 + 255) / 256)).map fun j => (s.sliceOf (lineOf (p.2.1 / 256 * 256 + 256 * j))).2).foldl insertNat l) []

/-- Whether some home slice of a range has its 256 subscription entries in use (R319). -/
def State.subsFull (s : State) (die : Nat) (parts : List (Nat × Nat × Nat)) : Bool :=
  let used := (s.die die).subs.map fun u => s.rangeSlices u.2.parts
  (s.rangeSlices parts).any fun sl => decide (256 ≤ (used.filter fun l => l.contains sl).length)

/-- A page of a subscribed range that is not homed on the die (R223). -/
def State.awayPage (s : State) (g : Group) (a : DWord) (n : Nat) : Option DWord :=
  (rangePages a n).find? fun p =>
    match s.lookup s.iss.core none g.ctx p with
    | some e => !isHbm (e.pa p) || e.pa p / 2 ^ 36 != dieOf s.iss.core
    | none => false

/-- The faults of MAP in their order: ALIGN, HANDLE, SCRATCHOOB, then its pages (R214, R223, R409). DESIGN CHOICE: a mode-1 MAP over a page
without a translation or read permission faults PAGE or PROT precisely; R223 lists no such fault (log entry 95). -/
def State.mapFault (s : State) (g : Group) (mode : Nat) (ws : List Word) : Option (Cause × DWord) :=
  let b := blockWord ws
  let ga := blockWide ws 2
  let c := s.core s.iss.core
  let mine := c.maps.filter fun m => m.launch == g.launch
  let handle := fun (p : Bool) (x : Nat) => if p then some (Cause.handle, BitVec.ofNat 64 x) else none
  let adr := BitVec.ofNat 64 ga
  (misaligned [(b 0, 128), (ga, 128)]).or <|
  (outside [(b 1, decide (128 ≤ b 1 ∧ b 1 ≤ 1048576 ∧ b 1 % 128 = 0)), (b 4, decide (b 4 < 2)), (b 5, b 5 == 0)]).or <|
  (handle (decide (16 ≤ c.maps.length)) (b 0)).or <|
  (handle (mine.any fun m => decide (b 0 < m.off + m.len ∧ m.off < b 0 + b 1)) (b 0)).or <|
  (if mode = 1 then
    ((s.awayPage g adr (b 1)).map fun p => (Cause.handle, p)).or
      (handle (s.subsFull (dieOf s.iss.core) (s.rangeParts s.iss.core g.ctx adr (b 1))) ga)
   else none).or <|
  (if g.hdr.scratch < b 0 + b 1 then some (Cause.scratchOob, BitVec.ofNat 64 (b 0)) else none).or <|
  ((s.devPage g .load adr (b 1)).map fun c => (c, adr)).or <|
  (if mode = 1 then s.xlateFault g .load ((rangePages adr (b 1)).map fun p => (none, p)) else none)

/-- MAP: an entry of the table, every word invalid and clean; PRELOAD and mode 1 ask for every block; mode 1 registers the
range at its home slices and posts its bounds (R223, R226, R227, R319). -/
def execMapRange (f : EFields) (s : State) : Res :=
  s.memGate (.mapRange f) fun g =>
    let ws := g.block f.blk.toNat 6
    let mode := f.var.toNat % 4
    match s.mapFault g mode ws with
    | some x =>
      let ga := BitVec.ofNat 64 (blockWide ws 2)
      .next (s.faultAccess g ((rangePages ga (blockWord ws 1)).map fun p => (none, if p.toNat < ga.toNat then ga else p)) x)
    | none =>
      if s.splitWrites then .next s
      else
        let k := s.iss.core
        let off := blockWord ws 0
        let len := blockWord ws 1
        let ga : DWord := BitVec.ofNat 64 (blockWide ws 2)
        let pre := decide (blockWord ws 4 % 2 = 1)
        let m : MapRange :=
          { launch := g.launch, ctx := g.ctx, off := off, len := len, g := ga, mode := mode, preload := pre, applied := 0, appliedWts := 0,
            leases := [], toFill := if pre || mode == 1 then List.range (len / 128) else [], priv := g.priv, updates := [] }
        let base := (s.core k).mapBase m
        let s1 := s.modCore k fun c =>
          { (List.range (len / 4)).foldl (fun (c : Core) j => c.setStatus (base / 4 + j) 0) c with maps := c.maps ++ [m] }
        let s2 :=
          if mode = 1 then
              let team := (s.core k).team? g.launch
              let peers := (team.map (·.peers)).getD [k]
              let sub : Sub :=
                { core := some k, launch := g.launch, cluster := g.cluster, rank := (team.map (·.rank)).getD 0, off := off,
                  parts := s.rangeParts k g.ctx ga len, unread := List.range (len / 128), seqNo := 0, counting := false, live := false,
                  writes := [], lastWts := 0 }
              let s3 := (s1.notePages k g.ctx ga len).modDie (dieOf k) fun d =>
                { d with subs := Sparse.put d.subs ((d.subs.map fun p => p.1 + 1).foldl Nat.max 0) sub }
              peers.foldl (fun (t : State) p => t.modCore p fun c => { c with subBounds := c.subBounds ++ [(k, base, base + len)] }) s3
          else s1
        .next s2.advance

/-! ## Subscriptions (R226, R320) -/

/-- The scratch bytes of a subscribed range take a write's bytes at their place (R226). -/
def Core.applyWrite (c : Core) (m : MapRange) (off : Nat) (bs : List Byte) : Core :=
  { c with scratch := Memory.write c.scratch (c.mapBase m + off) bs }

/-- A subscription of a range on a core: its die, its number and itself. -/
def State.subOf (s : State) (k : Nat) (m : MapRange) : Option (Nat × Nat × Sub) :=
  s.dies.findSome? fun d => (d.2.subs.find? fun u => u.2.isOf k m.launch m.off).map fun u => (d.1, u.1, u.2)

/-- A mapped range of a core changed. -/
def Core.modMap (c : Core) (launch off : Nat) (u : MapRange → MapRange) : Core :=
  { c with maps := c.maps.map fun x => if x.launch = launch ∧ x.off = off then u x else x }

def State.setSub (s : State) (d n : Nat) (u : Sub) : State := s.modDie d fun x => { x with subs := Sparse.put x.subs n u }

/-- SUBSCRIPTION_FILL_DONE: every block has landed, and updates are sent from now on. Writes forwarded before that are applied as
part of the fill: those of the first fill carry no number and the counter starts at 0, those of a refill are numbered too, and
APPLIED takes the counter's value, with the largest wts of the writes counted (R226, R277, R320, R321, R342, log entry 102). -/
def execSubscriptionFillDone (k range : Nat) (s : State) : Res :=
  match (s.core k).maps[range]? with
  | none => .next s
  | some m =>
    match s.subOf k m with
    | none => .next s
    | some (d, n, u) =>
      if m.mode ≠ 1 ∨ m.toFill ≠ [] ∨ u.live then .next s
      else
        let count := if u.counting then u.seqNo + u.writes.length else 0
        let s1 := s.modCore k fun c => u.writes.foldl (fun (c : Core) w => c.applyWrite m w.off w.bytes) c
        let last := if u.counting then (u.writes.map (·.wts)).foldl Nat.max u.lastWts else 0
        .next ((s1.setSub d n { u with writes := [], unread := [], seqNo := count, counting := true, live := true, lastWts := last }).modCore k
          fun c => c.modMap m.launch m.off fun x => { x with applied := count, appliedWts := last })

/-- SEQUENCER_NUMBER: a forwarded write takes the next number and is sent to its range. One unit's writes arrive in the order
sent; a detached range is sent nothing, and one that is being refilled waits for it with blocks already read (R305, R320, R321). -/
def execSequencerNumber (die sub write : Nat) (s : State) : Res :=
  match Sparse.get? (s.die die).subs sub with
  | none => .next s
  | some u =>
    match u.writes[write]? with
    | none => .next s
    | some w =>
      let behind := (u.writes.take write).any fun v => v.slice == w.slice
      if !u.counting || behind || (!u.live && !u.unread.contains (w.off / 128)) then .next s
      else
        let n := u.seqNo + 1
        let s1 := s.setSub die sub { u with seqNo := n, writes := u.writes.eraseIdx write, lastWts := Nat.max u.lastWts w.wts }
        .next (match u.core with
          | some k => if u.live then s1.modCore k fun c => c.modMap u.launch u.off fun x => { x with updates := x.updates ++ [(n, w.off, w.bytes, w.wts)] }
            else s1
          | none => s1)

/-- UPDATE_APPLY: the update with the next number is applied; APPLIED counts it, and the largest wts so far stands for SUBWAIT (R226, R320,
R342, log entry 102). -/
def execUpdateApply (k range : Nat) (s : State) : Res :=
  match (s.core k).maps[range]? with
  | none => .next s
  | some m =>
    match m.updates.find? fun u => u.1 == m.applied + 1 with
    | some (n, off, bs, wts) =>
      .next (s.modCore k fun c => (c.applyWrite m off bs).modMap m.launch m.off fun x =>
        { x with applied := n, appliedWts := Nat.max x.appliedWts wts, updates := x.updates.filter fun v => v.1 != n })
    | none => .next s

/-- SUBWAIT: the range and the count are read at issue (R214, R230, R342). -/
def execSubwait (f : EFields) (s : State) : Res :=
  s.latchGate (.subwait f) fun g =>
    let o := s.latched 0 (g.scalar f.blk.toNat)
    let n := (s.latched 1 (g.scalar (f.blk.toNat + 1))).toNat
    match (s.teamMap g o.toNat).filter fun m => m.mode == 1 with
    | none => .next (s.faultHere .handle (o.setWidth 64))
    | some m =>
      if (s.subOf s.iss.core m).any (fun u => u.2.2.live) ∧ (m.applied % 2 ^ 32 + 2 ^ 32 - n) % 2 ^ 32 < 2 ^ 31 then
        .next ((s.raiseClock s.iss.core m.appliedWts).advance)
      else .next (s.waitLatched (.subwait f) [o.toNat, n])

/-! ## SETTLE (R231, R344, R345) -/

/-- The checks of SETTLE in their order (R214, R345). -/
def State.settleFault (s : State) (g : Group) (ws : List Word) : Option (Cause × DWord) :=
  let rep := blockWide ws 4
  (misaligned [(blockWide ws 0, 65536), (blockWide ws 2, 65536), (rep, 8)]).or <|
  (outside [(blockWide ws 2, blockWide ws 2 != 0), (blockWord ws 6, blockWord ws 6 == 0), (blockWord ws 7, blockWord ws 7 == 0)]).or <|
  s.xlateFault g .store ([0, 8].map fun o => (none, BitVec.ofNat 64 (rep + o)))

/-- SETTLE: checked at issue, then it runs while its split waits (R221, R345). -/
def execSettle (f : EFields) (s : State) : Res :=
  s.memGate (.settle f) fun g =>
    let ws := g.block f.blk.toNat 8
    match s.settleFault g ws with
    | some x => .next (s.faultAccess g ([0, 8].map fun o => (none, BitVec.ofNat 64 (blockWide ws 4 + o))) x)
    | none => if s.splitWrites then .next s else .next (s.waitEvent (.settle f) (ws.map (·.toNat)))

/-- A core's generation advanced: copies whose tag it will take are removed first (R344). -/
def Core.advanceGen (v : Nat) (c : Core) : Core :=
  { c with l1 := c.l1.filter fun p => p.2.soft != some (v % 16), swgen := v }

/-- The advance on every core of the package (R344). -/
def State.advanceGen (s : State) : State :=
  { s with swgen := s.swgen + 1, cores := s.cores.map fun p => (p.1, p.2.advanceGen (s.swgen + 1)) }

/-- The dirty words of a core's ranges, of any mode and team, whose global addresses lie in a range (R345). DESIGN CHOICE: the virtual
addresses are compared whatever the contexts of the teams (log entry 98). -/
def Core.dirtyIn (c : Core) (base len : Nat) : List (MapRange × Nat) :=
  c.maps.flatMap fun m => (c.snapshot m 0).filterMap fun w =>
    let a := (c.globalOf m (4 * w)).toNat
    if base ≤ a ∧ a < base + len then some (m, w) else none

/-- Whether a dirty word of a range can be written at its home now: its page has a translation that may be written and is no page of another
device, and the word is not poisoned (R225, R262). -/
def State.canSettle (s : State) (k : Nat) (m : MapRange) (w : Nat) : Bool :=
  !(s.core k).scratchPoison.contains w &&
    match s.translate k none m.ctx m.priv .store ((s.core k).globalOf m (4 * w)) with
    | .ok e => !pteDev e.pte
    | .error _ => false

/-- One core's part of SETTLE: the words of each range's snapshot are written at their homes; their addresses are given, one for each
snapshot that holds the word, and the largest wts of their acknowledgements (R341, R345). DESIGN CHOICE: a word that cannot be written stays
dirty and is not counted, and nobody is told (log entry 103). -/
def State.settleCore (s : State) (base len k : Nat) : State × List Nat × Nat :=
  let c := s.core k
  let ws := (c.dirtyIn base len).filter fun p => s.canSettle k p.1 p.2
  let s1 := s.modCore k fun c => c.clearDirty (ws.map (·.2))
  let q := ws.foldl (fun (t : State × Nat) p =>
    let r := t.1.storeV k p.1.ctx p.1.priv (c.globalOf p.1 (4 * p.2)) (Memory.read c.scratch (4 * p.2) 4) 5
    (r.1, Nat.max t.2 r.2)) (s1, 0)
  (q.1, ws.map fun p => (c.globalOf p.1 (4 * p.2)).toNat, q.2)

/-- Every core's part, dies and physical cores ascending. -/
def State.settleAll (s : State) (base len : Nat) : List Nat → State × List Nat × Nat
  | [] => (s, [], 0)
  | k :: ks =>
    let p := s.settleCore base len k
    let q := State.settleAll p.1 base len ks
    (q.1, p.2.1 ++ q.2.1, Nat.max p.2.2 q.2.2)

/-- SETTLE_COMPLETE: the write-backs, the advance of SWGEN, and the report (R344, R345). -/
def execSettleComplete (k f slice : Nat) (s : State) : Res :=
  match s.group? k f with
  | none => .next s
  | some g =>
    match g.waitOf slice with
    | none => .next s
    | some w =>
      match w.instr with
      | .settle _ =>
        let ws := w.vals.map (BitVec.ofNat 32)
        let p := s.settleAll (blockWide ws 0) (blockWide ws 2) (s.cores.map (·.1))
        let twice := (p.2.1.filter fun a => decide (2 ≤ p.2.1.count a)).foldl insertNat []
        let s1 := p.1.advanceGen
        let rep := leBytes 8 twice.length ++ leBytes 8 (twice.headD 0)
        let q := s1.storeV k g.ctx g.priv (BitVec.ofNat 64 (blockWide ws 4)) rep 17
        .next (q.1.endWait k f w fun g => { g with ackmax := Nat.max g.ackmax (Nat.max p.2.2 q.2) })
      | _ => .next s

end Sys2Proof.Machine
end

