-- ==== Sys2Proof/Machine/Matrix.lean ====
section
/-! DEFINITION. The rack and the matrix array: claims, sections, latches, MMA and its kin, the accumulators, and rack
copies (R92 to R94, R106 to R109, R232 to R253). -/

namespace Sys2Proof.Machine

open Sys2Proof

/-! ## Quarters (R25, R240) -/

/-- The quarters of which a slice of a mask belongs to. -/
def quarterOf (i : Fin 8) : Nat := i.val / 2

/-- Slices with a lane that has not exited. -/
def Group.liveSlices (g : Group) : List (Fin 8) := (List.finRange 8).filter fun i => g.slices[i].exited != 0xF

/-- A quarter with a live slice inside the split and another outside it (R240). -/
def Group.quarterSplit (g : Group) (mask : BitVec 8) : Bool :=
  (List.range 4).any fun q =>
    let live := g.liveSlices.filter fun i => quarterOf i == q
    live.any (fun i => mask.getLsbD i.val) && live.any fun i => !mask.getLsbD i.val

/-- Quarters that take part (R240). -/
def Group.quarters (g : Group) (mask : BitVec 8) : BitVec 4 :=
  (List.range 4).foldl (fun m q =>
    let here := (List.finRange 8).any fun i => quarterOf i == q && mask.getLsbD i.val
    let whole := (g.liveSlices.filter fun i => quarterOf i == q).all fun i => mask.getLsbD i.val
    if here && whole then m ||| BitVec.ofNat 4 (2 ^ q) else m) 0

/-- The quarters of a mask, ascending. -/
def quartersIn (m : BitVec 4) : List Nat := (List.range 4).filter fun q => m.getLsbD q

/-- The lowest slot of the window that may not be used (R232, R233, R237). -/
def State.slotBad (s : State) (g : Group) (reads writes : List Nat) : Option Nat :=
  let c := s.core s.iss.core
  let t := (c.team? g.launch)
  let len := (t.map (·.rackLen)).getD 0
  let base := (t.map (·.rackBase)).getD 0
  let free := fun (n : Nat) => decide (len ≤ n) || Sparse.get? c.claims (base + n) != some s.iss.frame
  let bad := (reads.filter free) ++ writes.filter fun n => free n || c.pinnedNow (base + n)
  match bad with | [] => none | n :: ns => some (ns.foldl Nat.min n)

/-! ## Work in flight and its order (R241) -/

/-- Tiles of a work by their number j: 4t + q for MMA, q for the others (R246, R247). -/
def SecWork.tiles (w : SecWork) : List Nat :=
  if w.op = 0x05 then (List.range w.f.count.toNat).flatMap fun t => (quartersIn w.qmask).map fun q => 4 * t + q
  else quartersIn w.qmask

/-- Window slots of the scales of an MMA tile (R238). -/
def mmaScaleSlots (f : XFields) (k j : Nat) : List Nat :=
  match xScaleByte f with | some a => slotsOfBytes (a + j * k) k | none => []

/-- Window slots a work reads and writes in its tile (R246, R247). -/
def SecWork.tileReads (w : SecWork) (j : Nat) : List Nat :=
  (w.f.slotA.toNat + j) :: (if w.op = 0x05 then mmaScaleSlots w.f (kOfFmt w.f.fmtA.toNat) j else [])

def SecWork.tileWrites (w : SecWork) (j : Nat) : List Nat := [w.f.slotD.toNat + 2 * j, w.f.slotD.toNat + 2 * j + 1]

/-- A pending work's place in its group's order, and the physical slots it still reads and writes. -/
structure Use' where
  frame : Nat
  seq : Nat
  reads : List Nat
  writes : List Nat
  deriving DecidableEq, Repr, Inhabited

/-- What a queued X instruction still touches (R241). -/
def SecWork.use (c : Core) (w : SecWork) : Use' :=
  let base := c.rackBaseOf w.frame
  match w.op with
  | 0x02 => ⟨w.frame, w.seq, (latchOf base w.f).slots, []⟩
  | 0x03 => ⟨w.frame, w.seq, [base + w.f.slotA.toNat], []⟩
  | 0x04 => ⟨w.frame, w.seq, [], []⟩
  | _ =>
    let left := w.tiles.drop w.tile
    ⟨w.frame, w.seq, (left.flatMap w.tileReads).map (base + ·), (left.flatMap w.tileWrites).map (base + ·)⟩

/-- What a waiting ACCRD, RKLD or RKST touches (R249, R250). -/
def NestWork.use (c : Core) (w : NestWork) : Use' :=
  let base := c.rackBaseOf w.frame
  match w.instr with
  | .accrd f => ⟨w.frame, w.seq, (quartersIn w.qmask).flatMap fun q => [base + f.slotD.toNat + 2 * q, base + f.slotD.toNat + 2 * q + 1], []⟩
  | .rkld f => ⟨w.frame, w.seq, [], (List.range f.count.toNat).map (base + f.slotA.toNat + ·)⟩
  | .rkst f => ⟨w.frame, w.seq, (List.range f.count.toNat).map (base + f.slotA.toNat + ·), []⟩
  | _ => ⟨w.frame, w.seq, [], []⟩

/-- All matrix work of a core in flight (R241). -/
def Core.uses (c : Core) : List Use' := c.sections.toList.flatMap (fun x => x.queue.map (SecWork.use c)) ++ c.rackQ.map (NestWork.use c)

/-- Whether work of a group must wait for its earlier work on the same slots (R241). -/
def Core.conflict (c : Core) (frame seq : Nat) (reads writes : List Nat) : Bool :=
  c.uses.any fun u => u.frame == frame && decide (u.seq < seq) &&
    (u.writes.any (fun n => reads.contains n || writes.contains n) || u.reads.any writes.contains)

/-- Whether a running engine operation has a range registered over rack slots or a scratch span (R241). -/
def Core.engineOver (c : Core) (slots : List Nat) (p n : Nat) : Bool :=
  c.locks.any fun l => decide (l.owner < 0x80) &&
    ((l.space == 3 && slots.any fun x => decide (l.start < 4096 * x + 4096 ∧ 4096 * x < l.start + l.len)) ||
      (l.space == 1 && decide (l.start < p + n ∧ p < l.start + l.len)))

/-- Whether an ACCRD, RKLD or RKST waits at issue: for an engine operation over its ranges, or for earlier work of its group on its slots,
so that a pre-emption finds that work in its section (R241, R253). -/
def Core.rackBehind (c : Core) (frame seq : Nat) (reads writes : List Nat) (p n : Nat) : Bool :=
  c.engineOver (reads ++ writes) p n || c.conflict frame seq reads writes

/-! ## Gate of class X -/

/-- An X instruction after its gate: MXQUART where it acts by quarter, then its own checks (R240, R252). -/
def State.xGate (s : State) (i : Instr) (byQuarter : Bool) (k : Group → Res) : Res :=
  s.memGate i fun g =>
    if byQuarter && g.quarterSplit s.iss.mask then .next (s.faultHere .mxQuart 0) else k g

def sectionFault (f : XFields) : DWord := BitVec.ofNat 64 (0x100 + f.sect.toNat)

def State.slotFault (s : State) (n : Nat) : Res := .next (s.faultHere .slotFault (BitVec.ofNat 64 n))

/-- The section an instruction names. -/
def Core.sect (c : Core) (n : Nat) : Section := c.sections.toList.getD n Section.empty

def Core.setSect (c : Core) (n : Nat) (x : Section) : Core := { c with sections := c.sections.setIfInBounds n x }

/-- An X instruction put into its section's queue, which holds two (R241). -/
def State.enqueue (s : State) (g : Group) (op : Nat) (f : XFields) (owner : Option Nat) : Res :=
  let k := s.iss.core
  let x := (s.core k).sect f.sect.toNat
  if 2 ≤ x.queue.length then .next s
  else
    let w : SecWork := ⟨op, f, s.iss.frame, g.quarters s.iss.mask, 0, g.seq⟩
    .next ((s.modCore k fun c => c.setSect f.sect.toNat { x with queue := x.queue ++ [w], owner := x.owner.or owner }).advance)

/-- Physical slots of window slots of a group. -/
def State.physSlots (s : State) (g : Group) (l : List Nat) : List Nat :=
  l.map ((((s.core s.iss.core).team? g.launch).map (·.rackBase)).getD 0 + ·)

/-! ## TAKE and FREE (R242) -/

def xSlots (f : XFields) : List Nat := (List.range f.count.toNat).map (f.slotA.toNat + ·)

/-- Slots claimed by a frame. -/
def Core.claim (c : Core) (frame : Nat) (slots : List Nat) : Core :=
  { c with claims := slots.foldl (fun t n => Sparse.put t n frame) c.claims }

/-- TAKE (R242). -/
def execTake (f : XFields) (s : State) : Res :=
  s.xGate (.take f) false fun g =>
    let c := s.core s.iss.core
    let len := ((c.team? g.launch).map (·.rackLen)).getD 0
    let phys := s.physSlots g (xSlots f)
    match (xSlots f).find? fun n => decide (len ≤ n) with
    | some n => s.slotFault n
    | none =>
      match ((xSlots f).zip phys).find? fun p => Sparse.get? c.claims p.2 == some s.iss.frame with
      | some p => s.slotFault p.1
      | none =>
        if c.engineOver phys 0 0 then .next s
        else if phys.all fun n => (Sparse.get? c.claims n).isNone then
          .next ((s.modCore s.iss.core fun c => c.claim s.iss.frame phys).advance)
        else .next (s.waitEvent (.take f) phys)

/-- TAKE_CLAIM: every slot a waiting TAKE names is unclaimed; it claims them at once (R242). -/
def execTakeClaim (k fr slice : Nat) (s : State) : Res :=
  match s.group? k fr with
  | none => .next s
  | some g =>
    match g.waitOf slice with
    | none => .next s
    | some w =>
      match w.instr with
      | .take _ =>
        if g.status ≠ .running ∨ (s.core k).engineOver w.vals 0 0 ∨ w.vals.any fun n => (Sparse.get? (s.core k).claims n).isSome then .next s
        else .next ((s.modCore k fun c => c.claim fr w.vals).endWait k fr w id)
      | _ => .next s

/-- FREE: every slot claimed and not pinned, the group's earlier work on them finished (R237, R242). -/
def execFree (f : XFields) (s : State) : Res :=
  s.xGate (.free f) false fun g =>
    let c := s.core s.iss.core
    let phys := s.physSlots g (xSlots f)
    if s.slotAwaits g (xSlots f) then .next s
    else
      match s.slotBad g [] (xSlots f) with
      | some n => s.slotFault n
      | none =>
        if c.engineOver phys 0 0 || c.conflict s.iss.frame g.seq phys phys then .next s
        else .next ((s.modCore s.iss.core fun c => { c with claims := c.claims.filter fun p => !phys.contains p.1 }).advance)

/-! ## BLOAD, CBLOAD, BDROP (R243 to R245) -/

/-- Whether the owner of a section, as a group sees it, is another group (R235). -/
def Section.ownedByOther (x : Section) (frame : Nat) : Bool := match x.owner with | some o => o != frame | none => false

/-- BLOAD past its wait (R236, R243). -/
def State.bloadChecked (s : State) (g : Group) (f : XFields) : Res :=
  let c := s.core s.iss.core
  let x := (c.sect f.sect.toNat).after c
  let b := f.fmtB.toNat
  let k256 := f.flags.getLsbD 2
  let l := latchOf 0 f
  if (b != 5 && k256 != (b == 4)) || (b == 5 && x.cb.isNone) || (f.scale != 127 && b == 8) then .next (s.faultHere .fmtFault 0)
  else
    match s.slotBad g l.slots [] with
    | some n => s.slotFault n
    | none =>
      if c.engineOver (s.physSlots g l.slots) 0 0 then .next s else s.enqueue g 0x02 f (some s.iss.frame)

/-- CBLOAD past its wait (R244). -/
def State.cbloadChecked (s : State) (g : Group) (f : XFields) : Res :=
  let c := s.core s.iss.core
  if ((c.sect f.sect.toNat).after c).b.isSome then .next (s.faultHere .slotFault (sectionFault f))
  else
    match s.slotBad g [f.slotA.toNat] [] with
    | some n => s.slotFault n
    | none =>
      if c.engineOver (s.physSlots g [f.slotA.toNat]) 0 0 then .next s else s.enqueue g 0x03 f (some s.iss.frame)

/-- BLOAD (R235, R243). -/
def execBload (f : XFields) (s : State) : Res :=
  s.xGate (.bload f) false fun g =>
    if ((s.core s.iss.core).sect f.sect.toNat).ownedByOther s.iss.frame then .next (s.waitEvent (.bload f) [f.sect.toNat])
    else s.bloadChecked g f

/-- CBLOAD (R235, R244). -/
def execCbload (f : XFields) (s : State) : Res :=
  s.xGate (.cbload f) false fun g =>
    if ((s.core s.iss.core).sect f.sect.toNat).ownedByOther s.iss.frame then .next (s.waitEvent (.cbload f) [f.sect.toNat])
    else s.cbloadChecked g f

/-- SECTION_WAIT_END: the section a BLOAD or CBLOAD waits for has no owner; its checks are made now (R235, R252). -/
def execSectionWaitEnd (k fr slice : Nat) (s : State) : Res :=
  match s.group? k fr with
  | none => .next s
  | some g =>
    match g.waitOf slice with
    | none => .next s
    | some w =>
      let n := w.vals.headD 0
      let x := (s.core k).sect n
      if g.status ≠ .running ∨ x.owner.isSome ∨ 2 ≤ x.queue.length then .next s
      else
        let s1 := s.reissue k fr w
        match s1.group? k fr, w.instr with
        | some g1, .bload f => s1.bloadChecked g1 f
        | some g1, .cbload f => s1.cbloadChecked g1 f
        | _, _ => .next s

/-- BDROP: checked at issue, it acts after the section's earlier work (R235, R245). -/
def execBdrop (f : XFields) (s : State) : Res :=
  s.xGate (.bdrop f) false fun g =>
    let c := s.core s.iss.core
    if ((c.sect f.sect.toNat).after c).owner ≠ some s.iss.frame then .next (s.faultHere .slotFault (sectionFault f))
    else s.enqueue g 0x04 f none

/-- BDROP_ACT: pins, codebook and ownership end; a load already queued behind it takes the section (R235, R245). -/
def execBdropAct (k n : Nat) (s : State) : Res :=
  let x := (s.core k).sect n
  match x.queue with
  | w :: rest =>
    if w.op ≠ 0x04 then .next s
    else
      let next := (rest.find? fun v => v.op == 0x02 || v.op == 0x03).map (·.frame)
      .next (s.modCore k fun c => c.setSect n { x with owner := next, b := none, cb := none, queue := rest })
  | [] => .next s

/-! ## MMA, MXT, MXP, MXR (R246, R247) -/

/-- A formats that pair with a latched B (R236). -/
def pairsWith (fmtA fmtB k : Nat) : Bool :=
  let eight := fmtA == 0 || fmtA == 1 || fmtA == 2 || fmtA == 3
  match fmtB with
  | 4 => fmtA == 4
  | 5 => if k = 256 then fmtA == 4 else eight
  | 8 => fmtA == 8
  | 6 | 7 => fmtA == 6 || fmtA == 7
  | _ => eight

/-- The slots of an instruction over its tiles. -/
def workSlots (op : Nat) (f : XFields) (qmask : BitVec 4) : List Nat × List Nat :=
  let w : SecWork := ⟨op, f, 0, qmask, 0, 0⟩
  (w.tiles.flatMap w.tileReads, w.tiles.flatMap w.tileWrites)

/-- MMA, MXT, MXP and MXR once their section is right: slots, then the queue (R237, R241, R246, R247). -/
def State.queueWork (s : State) (g : Group) (op : Nat) (f : XFields) : Res :=
  let p := workSlots op f (g.quarters s.iss.mask)
  if s.slotAwaits g p.2 then .next s
  else
    match s.slotBad g p.1 p.2 with
    | some n => s.slotFault n
    | none =>
      if (s.core s.iss.core).engineOver (s.physSlots g (p.1 ++ p.2)) 0 0 then .next s else s.enqueue g op f none

/-- MMA (R246, R252). -/
def execMma (f : XFields) (s : State) : Res :=
  s.xGate (.mma f) true fun g =>
    let c := s.core s.iss.core
    let x := (c.sect f.sect.toNat).after c
    if x.owner ≠ some s.iss.frame then .next (s.faultHere .slotFault (sectionFault f))
    else
      match x.b with
      | none => .next (s.faultHere .slotFault (sectionFault f))
      | some b =>
        if !pairsWith f.fmtA.toNat b.fmt b.kclass || (f.fmtA = 8 && (f.scale != 127 || f.flags.getLsbD 1)) then
          .next (s.faultHere .fmtFault 0)
        else s.queueWork g 0x05 f

/-- The section of MXT, MXP and MXR: no B latched, no owner but the group (R235, R247). -/
def State.mxOp (s : State) (i : Instr) (op : Nat) (f : XFields) : Res :=
  s.xGate i true fun g =>
    let c := s.core s.iss.core
    let x := c.sect f.sect.toNat
    let y := x.after c
    let other := if x.ownedByOther s.iss.frame then true else y.ownedByOther s.iss.frame
    if other ∨ y.b.isSome then .next (s.faultHere .slotFault (sectionFault f)) else s.queueWork g op f

/-- MXT (R247). -/
def execMxt (f : XFields) (s : State) : Res := s.mxOp (.mxt f) 0x06 f
/-- MXP (R247). -/
def execMxp (f : XFields) (s : State) : Res := s.mxOp (.mxp f) 0x07 f
/-- MXR (R247). -/
def execMxr (f : XFields) (s : State) : Res := s.mxOp (.mxr f) 0x08 f

/-! ## Arithmetic of a tile (R92 to R94, R106 to R109, R238) -/

/-- Bits of an element of a matrix format (R54). -/
def mxBits (fmt : Nat) : Nat := match fmt with | 0 | 1 | 8 => 8 | 2 | 3 => 6 | 4 => 4 | _ => 16

/-- The float format of a matrix format (R54). -/
def mxFmt (fmt : Nat) : FFmt :=
  match fmt with | 0 => .e4m3 | 1 => .e5m2 | 2 => .e3m2 | 3 => .e2m3 | 4 => .e2m1 | 6 => .bf16 | _ => .f16

/-- Element `k` of a packed row or column (R92). -/
def mxElem (fmt : Nat) (row : Nat) (k : Nat) : Nat := row / 2 ^ (mxBits fmt * k) % 2 ^ mxBits fmt

/-- A row of a tile as one number, from the rack byte where it begins. -/
def Core.rackNat (c : Core) (a n : Nat) : Nat := leNat (Memory.read c.rack a n)

/-- A weight of a cb2 column (R93, R94). -/
def cb2Weight (c : Core) (cbSlot col k : Nat) : Int :=
  let ix := col / 2 ^ (16 * (k / 8)) % 2 ^ 16
  let entry := c.rackNat (4096 * cbSlot + 4 * (ix / 256)) 4
  let v := sextNat 4 (entry / 2 ^ (4 * (k % 8)))
  if (ix % 256).testBit (k % 8) then -v else v

/-- B[k][n] of a latch (R238). -/
def BLatch.elem (c : Core) (b : BLatch) (cb : Option Nat) (n k : Nat) : FVal :=
  if b.fmt = 5 then
    ofInteger (cb2Weight c (cb.getD 0) (c.rackNat (4096 * b.slot + b.kclass / 4 * n) (b.kclass / 4)) k)
  else (mxFmt b.fmt).decode (mxElem b.fmt (c.rackNat (4096 * b.slot + 128 * n) 128) k)

/-- The exponent of an e8m0 scale; none for 0xFF (R106, R109). -/
def scaleExp (x : Nat) : Option Int := if x = 255 then none else some ((x : Int) - 127)

/-- The floor of the base-2 logarithm of a nonzero number. -/
def log2Nat (m : Nat) : Nat := Nat.log2 m

/-- The bits of a product of weight 2^q and above (R107). -/
def cutBelow (q : Int) (v : FVal) : FVal :=
  match v with
  | .fin neg m e => if q ≤ e then v else .fin neg (m / 2 ^ (q - e).toNat) q
  | _ => v

/-- The largest exponent of the nonzero products (R107). -/
def topExp (vs : List FVal) : Option Int :=
  vs.foldl (fun o v => match v with
    | .fin _ m e => if m = 0 then o else (let x := (log2Nat m : Int) + e; match o with | none => some x | some y => some (if y < x then x else y))
    | _ => o) none

/-- Rounding to f32: overflow of a finite value takes the saturate flag, an infinity stays one (R109). -/
def mxRound (sat : Bool) (v : FVal) : Nat := FFmt.f32.encode .rne (sat && !v.isInf) v

/-- One K block accumulated (R106, R107, R109): the products, their scale, and D. -/
def mxBlock (sixteen sat : Bool) (scale : Option Int) (ps : List FVal) (d : Nat) : Nat :=
  match scale with
  | none => FFmt.f32.nanCode
  | some e =>
    let ps1 := if sixteen then (match topExp ps with | some x => ps.map (cutBelow (x - 40)) | none => ps) else ps
    let t := mxRound sat (fscale (sumExact .rne ps1) e)
    mxRound sat (sumExact .rne [FFmt.f32.decode d, FFmt.f32.decode t])

/-- D[m][n] after an MMA tile (R106 to R108, R246). -/
def mmaElem (c : Core) (b : BLatch) (cb : Option Nat) (f : XFields) (base j m n : Nat) (d0 : Nat) : Nat :=
  let fa := f.fmtA.toNat
  let k := b.kclass
  let row := c.rackNat (4096 * (base + f.slotA.toNat + j) + 128 * m) 128
  let d := if f.flags.getLsbD 0 then 0 else d0
  if fa = 8 then
    let col := c.rackNat (4096 * b.slot + 128 * n) 128
    wrapInt 32 ((List.range k).foldl (fun acc i => acc + sextNat 8 (mxElem 8 row i) * sextNat 8 (mxElem 8 col i)) (sextNat 32 d))
  else
    (List.range (k / 32)).foldl (fun d blk =>
      let sa := match xScaleByte f with
        | some a => scaleExp (c.rackNat (4096 * base + a + j * k + k / 32 * m + blk) 1)
        | none => some 0
      let sb := match b.wscale with
        | some a => scaleExp (c.rackNat (a + 64 * blk + n) 1)
        | none => some 0
      let scale := match sa, sb with | some x, some y => some (x + y) | _, _ => none
      let ps := (List.range 32).map fun i =>
        mulExact ((mxFmt fa).decode (mxElem fa row (32 * blk + i))) (b.elem c cb n (32 * blk + i))
      mxBlock (fa == 6 || fa == 7) (f.flags.getLsbD 1) scale ps d) d

/-- An element of A widened exactly to f32, or to i32 (R100, R247). -/
def mxWiden (fmt x : Nat) : Nat :=
  if fmt = 8 then wrapInt 32 (sextNat 8 x) else FFmt.f32.encode .rne false ((mxFmt fmt).decode x)

/-- D[m][n] of MXT, MXP and MXR (R247). -/
def mxElemOut (c : Core) (op : Nat) (f : XFields) (slot m n : Nat) : Nat :=
  let fa := f.fmtA.toNat
  let k := kOfFmt fa
  let cnt := f.count.toNat
  let at' := fun (r i : Nat) => mxElem fa (c.rackNat (4096 * slot + 128 * r) 128) i
  match op with
  | 0x06 => if n < 32 then mxWiden fa (at' n (32 * cnt + m)) else 0
  | 0x07 =>
    if n < Nat.min 64 k then
      mxWiden fa (at' (if (cnt / 32) % 2 = 0 then (m + cnt % 32) % 32 else m ^^^ (cnt % 32)) (64 * (cnt / 64) + n))
    else 0
  | _ =>
    if m = 0 ∧ n < Nat.min 64 k then
      (if fa = 8 then wrapInt 32 ((List.range 32).foldl (fun acc r => acc + sextNat 8 (at' r (64 * (cnt / 64) + n))) 0)
       else FFmt.f32.encode .rne false (sumExact .rne ((List.range 32).map fun r => (mxFmt fa).decode (at' r (64 * (cnt / 64) + n)))))
    else 0

/-- The 2,048 elements of a D tile, row by row, from a function of row and column. -/
def tileWords (u : Nat → Nat → Nat) : List Word :=
  (List.range 32).flatMap fun m => (List.range 64).map fun n => BitVec.ofNat 32 (u m n)

/-- A tile's D written (R238). -/
def Core.writeTile (c : Core) (a : Nat) (ws : List Word) : Core :=
  { c with rack := Memory.write c.rack a (wordsBytes ws),
           rackPoison := c.rackPoison.filter fun b => !(decide (a ≤ b ∧ b < a + 8192)) }

/-- One tile of a section's work (R246, R247). -/
def Core.tileStep (c : Core) (x : Section) (w : SecWork) (j : Nat) : Core :=
  let base := c.rackBaseOf w.frame
  let d := 4096 * (base + w.f.slotD.toNat + 2 * j)
  if w.op = 0x05 then
    match x.b with
    | none => c
    | some b =>
      let row := fun (m : Nat) => c.rackNat (d + 256 * m) 256
      c.writeTile d (tileWords fun m n => mmaElem c b x.cb w.f base j m n (row m / 2 ^ (32 * n) % 2 ^ 32))
  else c.writeTile d (tileWords fun m n => mxElemOut c w.op w.f (base + w.f.slotA.toNat + j) m n)

/-- SECTION_PERFORM: the head of a section's queue latches, or performs its next A tile, once the group's earlier work
on those slots is done (R241, R243, R244, R246). -/
def execSectionPerform (k n : Nat) (s : State) : Res :=
  let c := s.core k
  let x := c.sect n
  match x.queue with
  | [] => .next s
  | w :: rest =>
    let base := c.rackBaseOf w.frame
    match w.op with
    | 0x04 => .next s
    | 0x02 =>
      let l := latchOf base w.f
      if c.conflict w.frame w.seq l.slots [] then .next s
      else .next (s.modCore k fun c => c.setSect n { x with owner := some w.frame, b := some l, queue := rest })
    | 0x03 =>
      if c.conflict w.frame w.seq [base + w.f.slotA.toNat] [] then .next s
      else .next (s.modCore k fun c => c.setSect n { x with owner := some w.frame, cb := some (base + w.f.slotA.toNat), queue := rest })
    | _ =>
      match w.tiles[w.tile]? with
      | none => .next (s.modCore k fun c => c.setSect n { x with queue := rest })
      | some j =>
        if c.conflict w.frame w.seq ((w.tileReads j).map (base + ·)) ((w.tileWrites j).map (base + ·)) then .next s
        else
          let w1 := { w with tile := w.tile + 1 }
          .next (s.modCore k fun c => (c.tileStep x w j).setSect n
            { x with queue := if w1.tile < w.tiles.length then w1 :: rest else rest })

/-! ## Accumulators and rack copies (R248 to R251) -/

/-- D slots of the quarters that take part. -/
def accSlots (f : XFields) (qmask : BitVec 4) : List Nat :=
  (quartersIn qmask).flatMap fun q => [f.slotD.toNat + 2 * q, f.slotD.toNat + 2 * q + 1]

/-- ACCZ (R248). -/
def execAccz (f : XFields) (s : State) : Res :=
  s.xGate (.accz f) true fun g =>
    let c := s.core s.iss.core
    let slots := accSlots f (g.quarters s.iss.mask)
    let phys := s.physSlots g slots
    if s.slotAwaits g slots then .next s
    else
      match s.slotBad g [] slots with
      | some n => s.slotFault n
      | none =>
        if c.engineOver phys 0 0 || c.conflict s.iss.frame g.seq [] phys then .next s
        else .next ((s.modCore s.iss.core fun c =>
          phys.foldl (fun (c : Core) n => { c with rack := Memory.write c.rack (4096 * n) (List.replicate 4096 0),
                                                   rackPoison := c.rackPoison.filter fun b => b / 4096 != n }) c).advance)

/-- Pool byte address of a local window offset of a group. -/
def State.poolOf (s : State) (g : Group) (off : Nat) : Nat :=
  (((s.core s.iss.core).team? g.launch).map (·.scratchBase)).getD 0 + off

/-- Rack work sent off: its scratch range, from a first byte on, locked, its flag counted (R251). -/
def State.rackWork (s : State) (g : Group) (i : Instr) (off low len : Nat) (source : Bool) (qmask : BitVec 4) : Res :=
  let k := s.iss.core
  let flag := flagOf s.iss.flagA
  if g.flagFull flag || decide (64 ≤ (s.core k).locksUsed) then .next s
  else
    let lock : RangeLock := ⟨s.poolOf g (off + low), len - low, 1, source, 0x80 + s.iss.frame, k, g.ctx, g.seq⟩
    let w : NestWork := ⟨i, s.iss.frame, flag, [BitVec.ofNat 32 off], 0, none, qmask, g.seq, s.nextReq, 0, [], [], none⟩
    let s1 := (s.addLock k lock).modCore k fun c => { c with rackQ := c.rackQ ++ [w] }
    .next ({ s1 with nextReq := s.nextReq + 1 }.sent flag)

/-- ALIGN, SCRATCHOOB and PROT of the scratch range of an ACCRD, RKLD or RKST, which touches its bytes from `low` up to `len` (R227, R249,
R250). -/
def State.rackScratchFault (s : State) (g : Group) (off low len : Nat) (write : Bool) : Option (Cause × DWord) :=
  let a : DWord := BitVec.ofNat 64 off
  if off % 16 ≠ 0 then some (.align, a)
  else if g.hdr.scratch < off + len then some (.scratchOob, a)
  else if write && (s.core s.iss.core).subscribed s.iss.core (s.poolOf g (off + low)) (len - low) then some (.prot, a)
  else none

/-- Bytes of a quarter's narrowed tile (R249). -/
def accTileBytes (fmt : Nat) : Nat := 256 * mxBits fmt

/-- ACCRD (R249, R251, R252). -/
def execAccrd (f : XFields) (s : State) : Res :=
  s.xGate (.accrd f) true fun g =>
    let q := g.quarters s.iss.mask
    let slots := accSlots f q
    let off := (g.scalar f.scale.toNat).toNat
    let len := ((quartersIn q).foldl (fun _ x => x + 1) 0) * accTileBytes f.fmtA.toNat
    let low := (quartersIn q).headD 0 * accTileBytes f.fmtA.toNat
    match s.slotBad g slots [] with
    | some n => s.slotFault n
    | none =>
      match s.rackScratchFault g off low len true with
      | some x => .next (s.faultHere x.1 x.2)
      | none =>
        if (s.core s.iss.core).rackBehind s.iss.frame g.seq (s.physSlots g slots) [] (s.poolOf g (off + low)) (len - low) then .next s
        else s.rackWork g (.accrd f) off low len false q

/-- Global pages that the fills of a local range may need: those of blocks with a word that is not valid, or clean in a leased range
(R225). -/
def State.rangeFillAddrs (s : State) (g : Group) (off len : Nat) : List (Option Nat × DWord) :=
  let c := s.core s.iss.core
  let p := s.poolOf g off
  let may := fun (m : MapRange) (b : Nat × Nat) => (wordsOfSpan b.1 b.2).any fun w =>
    !(c.status w).getLsbD 0 || (m.mode == 0 && !(c.status w).getLsbD 1)
  (spanBlocks p len).filterMap fun b =>
    (c.mapAt b.1).bind fun m => if m.mode != 1 && may m b then some (none, c.globalOf m b.1) else none

/-- The first of those pages that cannot be read at issue (R225). -/
def State.rangeFillFault (s : State) (g : Group) (off len : Nat) : Option (Cause × DWord) :=
  s.xlateFault g .load (s.rangeFillAddrs g off len)

/-- RKLD (R250 to R252). -/
def execRkld (f : XFields) (s : State) : Res :=
  s.xGate (.rkld f) false fun g =>
    let slots := xSlots f
    let off := (g.scalar f.scale.toNat).toNat
    let len := 4096 * f.count.toNat
    if s.slotAwaits g slots then .next s
    else
      match s.slotBad g [] slots with
      | some n => s.slotFault n
      | none =>
        match (s.rackScratchFault g off 0 len false).or (s.rangeFillFault g off len) with
        | some x => .next (s.faultAccess g (s.rangeFillAddrs g off len) x)
        | none =>
          if (s.core s.iss.core).rackBehind s.iss.frame g.seq [] (s.physSlots g slots) (s.poolOf g off) len then .next s
          else s.rackWork g (.rkld f) off 0 len true 0

/-- RKST (R250 to R252). -/
def execRkst (f : XFields) (s : State) : Res :=
  s.xGate (.rkst f) false fun g =>
    let slots := xSlots f
    let off := (g.scalar f.scale.toNat).toNat
    let len := 4096 * f.count.toNat
    match s.slotBad g slots [] with
    | some n => s.slotFault n
    | none =>
      match s.rackScratchFault g off 0 len true with
      | some x => .next (s.faultHere x.1 x.2)
      | none =>
        if (s.core s.iss.core).rackBehind s.iss.frame g.seq (s.physSlots g slots) [] (s.poolOf g off) len then .next s
        else s.rackWork g (.rkst f) off 0 len false 0

/-- A quarter's D tile narrowed and packed, row by row (R92, R101, R249). -/
def accBytes (c : Core) (fmt slot : Nat) : List Byte :=
  (List.range 32).flatMap fun m =>
    let row := c.rackNat (4096 * slot + 256 * m) 256
    rowBytes (mxBits fmt) ((List.range 64).map fun n =>
      (mxFmt fmt).encode .rne (decide (fmt < 5)) (FFmt.f32.decode (row / 2 ^ (32 * n) % 2 ^ 32)))

/-- Rack work of a core is finished: its lock is released, its flag falls (R251). -/
def State.endRack (s : State) (k : Nat) (w : NestWork) : State :=
  let s1 := s.modCore k fun c =>
    { c with rackQ := c.rackQ.filter (fun x => x.ticket != w.ticket),
             locks := c.locks.filter fun l => !(l.core == k && l.owner == 0x80 + w.frame && l.seq == w.seq) }
  s1.modGroup k w.frame fun g => g.flagDown w.flag

/-- A fault of work that runs after its instruction: a translation fault of a fill pauses the work, and Sundoc is told (R225, R255); a NEST
that reads a poisoned word takes POISON with kind A and ends (log entry 96). -/
def State.workFault (s : State) (k frame ticket : Nat) (c : Cause) (a : DWord) (fin : State → State) : State :=
  let pause := fun (w : NestWork) => if w.ticket = ticket then { w with bad := a, why := some c } else w
  if c = .page ∨ c = .prot ∨ c = .unitAbsent then
    (s.modCore k fun x => { x with rackQ := x.rackQ.map pause, nestQ := x.nestQ.map pause }).tell (.engineFault k ticket c a)
  else fin (s.modGroup k frame fun g => { g with async := g.async ++ [⟨c, a, 0xFF⟩] })

/-- Scratch bytes carried into the rack, poisoned words as poisoned bytes: once started, the copy does not fault (R250, R252, R262). -/
def Core.loadRack (c : Core) (p d n : Nat) : Core :=
  let bad := (List.range n).filter fun j => c.scratchPoison.contains ((p + j) / 4)
  { c with rack := Memory.write c.rack d (Memory.read c.scratch p n),
           rackPoison := (bad.map (d + ·)).foldl insertNat (c.rackPoison.filter fun b => !(decide (d ≤ b ∧ b < d + n))) }

/-- ACCRD, RKLD or RKST performed; paused, it waits for the fault service's answer (R225, R249 to R252). -/
def State.performRack (s : State) (k : Nat) (w : NestWork) : State :=
  let c := s.core k
  let u := w.use c
  let behind := s.reqs.any fun q => q.core == k && q.frame == w.frame && q.isWrite && q.unperformed && decide (q.seq < w.seq)
  if w.why.isSome || behind || c.conflict w.frame w.seq u.reads u.writes then s
  else
    match s.group? k w.frame with
    | none => s
    | some g =>
      let base := c.rackBaseOf w.frame
      let pool := ((c.team? g.launch).map (·.scratchBase)).getD 0 + (w.vals.getD 0 0).toNat
      match w.instr with
      | .accrd f =>
        let n := accTileBytes f.fmtA.toNat
        (s.modCore k fun c => (quartersIn w.qmask).foldl (fun (c : Core) q =>
          c.storeScratch (pool + q * n) (accBytes c f.fmtA.toNat (base + f.slotD.toNat + 2 * q))) c).endRack k w
      | .rkld f =>
        let n := 4096 * f.count.toNat
        (match s.ensure k Core.loadFills (spanBlocks pool n) with
          | .ok s1 => (s1.modCore k fun c => c.loadRack pool (4096 * (base + f.slotA.toNat)) n).endRack k w
          | .error .wait => s
          | .error (.pause x a) | .error (.error x a) => s.workFault k w.frame w.ticket x a fun t => t.endRack k w)
      | .rkst f =>
        let n := 4096 * f.count.toNat
        let d := 4096 * (base + f.slotA.toNat)
        (s.modCore k fun c =>
          let c1 := c.storeScratch pool (Memory.read c.rack d n)
          { c1 with scratchPoison := ((c.rackPoison.filter fun b => decide (d ≤ b ∧ b < d + n)).map
              fun b => (pool + (b - d)) / 4).foldl insertNat c1.scratchPoison }).endRack k w
      | _ => s

/-- SCRATCH_PERFORM: one access at its window core, or an ACCRD, RKLD or RKST by its number (R186, R251, R292). -/
def execScratchPerform (req : Nat) (s : State) : Res :=
  match s.req? req with
  | some r => .next (s.performScratch req r)
  | none =>
    match s.cores.findSome? fun p => (p.2.rackQ.find? fun w => w.ticket == req).map fun w => (p.1, w) with
    | some (k, w) => .next (s.performRack k w)
    | none => .next s

end Sys2Proof.Machine
end

