-- ==== Sys2Proof/Machine/Nest.lean ====
section
/-! DEFINITION. The loop-nest instruction and its unit (R75, R224, R225, R227, R241, R255 to R258). -/

namespace Sys2Proof.Machine

open Sys2Proof

/-- Bytes of a destination element (R255). -/
def nestDstBytes (f : NestFields) : Nat := if f.narrow then (if f.nfmt2.toNat < 2 then 2 else 1) else 4

/-- Element sizes by operand: 0 destination, 1 A, 2 B. -/
def nestSize (f : NestFields) (o : Nat) : Nat := if o = 0 then nestDstBytes f else 4

/-- The levels of a nest. -/
def nestLevels (f : NestFields) : List Nat := List.range f.levels.toNat

/-- Tuples of a nest. -/
def nestTuples (f : NestFields) : Nat := (nestLevels f).foldl (fun n l => n * f.extent l) 1

/-- Index of a level in a tuple's number, level 0 fastest. -/
def nestIndex (f : NestFields) (t l : Nat) : Nat := t / ((List.range l).foldl (fun n j => n * f.extent j) 1) % f.extent l

/-- Byte offset of an operand's element from its base (R255). -/
def nestOffset (f : NestFields) (o t : Nat) : Int :=
  (nestSize f o : Int) * (nestLevels f).foldl (fun a l => a + (nestIndex f t l : Int) * (f.stride o l).toInt) 0

/-- The lowest and one past the highest byte of an operand's bounding range, from its base (R255). -/
def nestBounds (f : NestFields) (o : Nat) : Int × Int :=
  let far := fun (l : Nat) => ((f.extent l : Int) - 1) * (f.stride o l).toInt
  let z : Int := nestSize f o
  ((nestLevels f).foldl (fun a l => a + z * min 0 (far l)) 0, (nestLevels f).foldl (fun a l => a + z * max 0 (far l)) z)

/-- Operands of a nest that stand in scratch: destination, A, and B unless it is absent or a value. -/
def nestOperands (f : NestFields) : List Nat := if f.op.noB || f.bscalar then [0, 1] else [0, 1, 2]

/-- The scalar that holds an operand's base. -/
def nestReg (f : NestFields) (o : Nat) : Nat := match o with | 0 => f.sd.toNat | 1 => f.sa.toNat | _ => f.sb.toNat

/-- An operand's bounding range in window bytes: start and length. -/
def nestRange (f : NestFields) (g : Group) (o : Nat) : Int × Nat :=
  let b := nestBounds f o
  (((g.scalar (nestReg f o)).toNat : Int) + b.1, (b.2 - b.1).toNat)

/-- The faults of a nest at issue: SCRATCHOOB, ALIGN, PROT of a subscribed destination, and the pages of its fills (R225,
R227, R255). -/
def State.nestFault (s : State) (g : Group) (f : NestFields) : Option (Cause × DWord) :=
  let os := nestOperands f
  let base := fun (o : Nat) => (g.scalar (nestReg f o)).setWidth 64
  let out := fun (o : Nat) => let r := nestRange f g o; decide (r.1 < 0 ∨ (g.hdr.scratch : Int) < r.1 + r.2)
  let fills := fun (o : Nat) => let r := nestRange f g o; s.rangeFillFault g r.1.toNat r.2
  ((os.find? out).map fun o => (Cause.scratchOob, base o)).or <|
  ((os.find? fun o => (base o).toNat % nestSize f o != 0).map fun o => (Cause.align, base o)).or <|
  (let r := nestRange f g 0
   if (s.core s.iss.core).subscribed s.iss.core (s.poolOf g r.1.toNat) r.2 then some (Cause.prot, base 0) else none).or <|
  (os.findSome? fun o => if o = 0 ∧ ¬ f.narrow ∧ f.op ≠ .fma then none else fills o)

/-- Global pages that the fills of a nest may need, in the order of their checks (R225). -/
def State.nestPages (s : State) (g : Group) (f : NestFields) : List (Option Nat × DWord) :=
  ((nestOperands f).filter fun o => !(o == 0 && !f.narrow && f.op != .fma)).flatMap fun o =>
    let r := nestRange f g o
    s.rangeFillAddrs g r.1.toNat r.2

/-- The locks of a nest: its destination, and A and B as sources (R222, R258). -/
def State.nestLocks (s : State) (g : Group) (f : NestFields) : List RangeLock :=
  (nestOperands f).map fun o =>
    let r := nestRange f g o
    ⟨s.poolOf g r.1.toNat, r.2, 1, o != 0, 0x80 + s.iss.frame, s.iss.core, g.ctx, g.seq⟩

/-- NEST: checked at issue, then it waits for engine ranges it overlaps, for its place among the unit's four waiting
NESTs and for lock entries (R241, R255, R258). -/
def execNest (f : NestFields) (s : State) : Res :=
  s.memGate (.nest f) fun g =>
    match s.nestFault g f with
    | some x => .next (s.faultAccess g (s.nestPages g f) x)
    | none =>
      let k := s.iss.core
      let c := s.core k
      let flag := flagOf s.iss.flagA
      let locks := s.nestLocks g f
      let over' := locks.any fun l => c.engineOver [] l.start l.len
      if over' || decide (5 ≤ c.nestQ.length) || g.flagFull flag || decide (64 < c.locksUsed + locks.length) then .next s
      else
        let w : NestWork :=
          { instr := .nest f, frame := s.iss.frame, flag := flag, vals := [g.scalar f.sd.toNat, g.scalar f.sa.toNat, g.scalar f.sb.toNat],
            tuple := 0, partialRed := none, qmask := 0, seq := g.seq, ticket := s.nextReq, bad := 0, before := [], wrote := [],
            why := none }
        let s1 := (locks.foldl (fun (t : State) l => t.addLock k l) s).modCore k fun c => { c with nestQ := c.nestQ ++ [w] }
        .next ({ s1 with nextReq := s.nextReq + 1 }.sent flag)

/-! ## Elements (R256) -/

/-- The format of a narrowed destination (R75). -/
def nestFmt (f : NestFields) : FFmt := match f.nfmt2.toNat with | 0 => .bf16 | 1 => .f16 | 2 => .e4m3 | _ => .e5m2

/-- The exact float result of an operation on elements as words: `d` the destination's, for FMA (R95, R256). -/
def nestFloat (f : NestFields) (a b d : Nat) : FVal :=
  let fv := FFmt.f32.decode
  match f.op with
  | .add => sumExact f.rm [fv a, fv b]
  | .sub => sumExact f.rm [fv a, (fv b).neg]
  | .mul => mulExact (fv a) (fv b)
  | .max => fmax (fv a) (fv b)
  | .min => fmin (fv a) (fv b)
  | .fma => sumExact f.rm [mulExact (fv a) (fv b), fv d]
  | .expsub => fv (sfValue true sfExp2 (FFmt.f32.encode .rne false (sumExact .rne [fv a, (fv b).neg])))
  | _ => fv a

/-- The i32 result of an operation on elements (R256). -/
def nestInt (f : NestFields) (a b : Nat) : Nat :=
  let int := fun (x : Nat) => sextNat 32 x
  match f.op with
  | .sub => wrapInt 32 (int a - int b)
  | .mul => wrapInt 32 (int a * int b)
  | .max => if int a < int b then b else a
  | .min => if int b < int a then b else a
  | _ => wrapInt 32 (int a + int b)

/-- A partial reduction with one more element (R110, R256). -/
def nestReduce (f : NestFields) (part : Option Word) (a : Nat) : Nat :=
  let fv := FFmt.f32.decode
  match part with
  | none => if f.float then FFmt.f32.encode f.rm false (fv a) else a
  | some p =>
    let x := p.toNat
    match f.op, f.float with
    | .sumr, true => FFmt.f32.encode f.rm false (sumExact f.rm [fv x, fv a])
    | .sumr, false => (x + a) % 2 ^ 32
    | .maxr, true => FFmt.f32.encode f.rm false (fmax (fv x) (fv a))
    | .maxr, false => if sextNat 32 x < sextNat 32 a then a else x
    | _, true => FFmt.f32.encode f.rm false (fmin (fv x) (fv a))
    | _, false => if sextNat 32 a < sextNat 32 x then a else x

/-- A float result as its destination holds it, rounded once: narrowed with saturation, or an f32 (R95, R101, R256). -/
def nestRound (f : NestFields) (v : FVal) : List Byte :=
  if f.narrow then leBytes (nestDstBytes f) ((nestFmt f).encode f.rm true v) else leBytes 4 (FFmt.f32.encode f.rm false v)

/-- A result as its destination holds it (R256). -/
def nestResult (f : NestFields) (a b d : Nat) : List Byte :=
  if f.float then nestRound f (nestFloat f a b d) else leBytes 4 (nestInt f a b)

/-- A finished reduction as its destination holds it (R256). -/
def nestTotal (f : NestFields) (x : Nat) : List Byte := if f.narrow then nestRound f (FFmt.f32.decode x) else leBytes 4 x

/-! ## The unit (R257, R258) -/

/-- Pool byte address of an operand's element. -/
def NestWork.place (w : NestWork) (f : NestFields) (base o : Nat) : Nat :=
  ((base : Int) + ((w.vals.getD o 0).toNat : Int) + nestOffset f o w.tuple).toNat

/-- The first tuple of what a tuple writes: of its reduction, or itself (R255, R256). -/
def nestOut (f : NestFields) (t : Nat) : Nat := if f.op.reduces then t - nestIndex f t 0 else t

/-- Where the element that begins at a tuple is written, by the last of its tuples. -/
def NestWork.outPlace (w : NestWork) (f : NestFields) (base u : Nat) : Nat :=
  ({ w with tuple := if f.op.reduces then u + (f.extent 0 - 1) else u } : NestWork).place f base 0

/-- Whether all the reads of an element come before every write of its NEST: a free choice (R257). -/
def NestWork.early (w : NestWork) (f : NestFields) (u : Nat) : Bool := f.op != .fma && Config.nestChoice w.ticket u 8

/-- A word of scratch as it stood before a NEST, where a read can give it (R257). -/
def State.nestOld (s : State) (k : Nat) (g : Group) (w : NestWork) (p : Nat) : Option Nat :=
  if w.wrote.any (fun a => a / 4 == p / 4) then some (leNat (Memory.read w.before p 4))
  else match s.readPlace k g.ctx g.priv (.scr k p) 4 with
    | .ok (_, bs) => some (leNat bs)
    | .error _ => none

/-- What an element that is early is written with: its sources are as they stood before the NEST (R256, R257). -/
def State.nestEarly (s : State) (k : Nat) (g : Group) (base : Nat) (f : NestFields) (w : NestWork) (u : Nat) : Option (List Byte) :=
  let val := fun (t o : Nat) => s.nestOld k g w (({ w with tuple := t } : NestWork).place f base o)
  if f.op.reduces then
    ((List.range (f.extent 0)).foldl (fun (acc : Option (Option Word)) j => acc.bind fun p =>
      (val (u + j) 1).map fun a => some (BitVec.ofNat 32 (nestReduce f p a))) (some none)).bind fun p => p.map fun x => nestTotal f x.toNat
  else
    (val u 1).bind fun a =>
      (if f.op.noB then some 0 else if f.bscalar then some (w.vals.getD 2 0).toNat else val u 2).map fun b => nestResult f a b 0

/-- A source element as an overlap lets it be read (R257): as it stands, as it stood before the NEST where that has written it, or with what
an element writes later that reads before. An early element reads only old values. -/
def State.nestSource (s : State) (k : Nat) (g : Group) (base : Nat) (f : NestFields) (w : NestWork) (o now : Nat) : Nat :=
  let p := w.place f base o
  let out := nestOut f w.tuple
  let early := w.early f out
  let later := (List.range (nestTuples f)).filter fun u => decide (out < u) && nestOut f u == u &&
    (let d := w.outPlace f base u
     decide (d < p + 4 ∧ p < d + nestDstBytes f))
  if w.wrote.any (fun a => a / 4 == p / 4) then
    (if early || Config.nestChoice w.ticket w.tuple o then leNat (Memory.read w.before p 4) else now)
  else
    match later with
    | [] => now
    | us =>
      match us.find? fun u => !early && w.early f u && Config.nestChoice w.ticket w.tuple (16 + o) with
      | none => now
      | some u =>
        match s.nestEarly k g base f w u with
        | none => now
        | some bs =>
          let d := w.outPlace f base u
          leNat ((List.range 4).map fun j => if d ≤ p + j ∧ p + j < d + bs.length then bs.getD (p + j - d) 0 else (leBytes 4 now).getD j 0)

/-- The work once it has written an element: the word's value before the NEST, what a read would have given, is kept at the first write to
it (R224, R257). An element whose old value no read can give is not kept; its later reads and writes take their order. -/
def State.nestWrote (s : State) (k : Nat) (g : Group) (w : NestWork) (dst : Nat) : NestWork :=
  let p := dst / 4 * 4
  if w.wrote.any (fun a => a / 4 == dst / 4) then { w with wrote := if w.wrote.contains dst then w.wrote else dst :: w.wrote }
  else match s.readPlace k g.ctx g.priv (.scr k p) 4 with
    | .ok (_, bs) => { w with before := Memory.write w.before p bs, wrote := dst :: w.wrote }
    | .error _ => w

/-- One tuple of a nest: the state, and what the nest keeps for the next. -/
def State.nestTuple (s : State) (k : Nat) (g : Group) (base : Nat) (f : NestFields) (w : NestWork) : Except EngStop (State × NestWork) :=
  let rd := fun (t : State) (o : Nat) => t.readPlace k g.ctx g.priv (.scr k (w.place f base o)) 4
  let dst := w.place f base 0
  match rd s 1 with
  | .error e => .error e
  | .ok (s1, ab) =>
    let a := s.nestSource k g base f w 1 (leNat ab)
    let bRead : Except EngStop (State × Nat) :=
      if f.op.noB then .ok (s1, 0)
      else if f.bscalar then .ok (s1, (w.vals.getD 2 0).toNat)
      else match rd s1 2 with
        | .error e => .error e
        | .ok (s2, bb) => .ok (s2, s.nestSource k g base f w 2 (leNat bb))
    match bRead with
    | .error e => .error e
    | .ok (s2, b) =>
      let dRead : Except EngStop (State × Nat) :=
        if f.op = .fma then (match rd s2 0 with | .error e => .error e | .ok (s3, x) => .ok (s3, leNat x)) else .ok (s2, 0)
      match dRead with
      | .error e => .error e
      | .ok (s3, d) =>
        let write := fun (v : List Byte) => s3.writePlace k g.ctx g.priv (.scr k dst) v
        let done := fun (t : State) =>
          let keep := w.wrote.contains dst && Config.nestChoice w.ticket w.tuple 0
          .ok (if keep then s3 else t, { s3.nestWrote k g w dst with tuple := w.tuple + 1, partialRed := none })
        if f.op.reduces then
          let p := nestReduce f w.partialRed a
          if nestIndex f w.tuple 0 + 1 = f.extent 0 then
            match write (nestTotal f p) with
            | .error e => .error e
            | .ok (s4, _) => done s4
          else .ok (s3, { w with tuple := w.tuple + 1, partialRed := some (BitVec.ofNat 32 p) })
        else
          match write (nestResult f a b d) with
          | .error e => .error e
          | .ok (s4, _) => done s4

/-- The head of the nest unit's queue is over: its locks are released, its flag falls (R222, R258). -/
def State.endNest (s : State) (k : Nat) (w : NestWork) : State :=
  let s1 := s.modCore k fun c =>
    { c with nestQ := c.nestQ.filter fun x => x.ticket != w.ticket,
             locks := c.locks.filter fun l => !(l.core == k && l.owner == 0x80 + w.frame && l.seq == w.seq) }
  s1.modGroup k w.frame fun g => g.flagDown w.flag

/-- The head with its progress kept. -/
def State.keepNest (s : State) (k : Nat) (w : NestWork) : State :=
  s.modCore k fun c => { c with nestQ := c.nestQ.map fun x => if x.ticket = w.ticket then w else x }

/-- Up to `n` tuples of the head (R256 to R258). DESIGN CHOICE: one that reads a poisoned scratch word takes POISON with kind A, and the NEST
ends (log entry 96). -/
def State.nestRun (s : State) (k : Nat) (g : Group) (base : Nat) (f : NestFields) (w : NestWork) : Nat → State
  | 0 => s.keepNest k w
  | n + 1 =>
    match s.nestTuple k g base f w with
    | .error .wait => s.keepNest k w
    | .error (.pause c a) | .error (.error c a) => (s.keepNest k w).workFault k w.frame w.ticket c a fun t => t.endNest k w
    | .ok (s1, w1) => if w1.tuple < nestTuples f then State.nestRun s1 k g base f w1 n else s1.endNest k w

/-- NEST_PERFORM: the unit performs up to 128 elements of the NEST it serves, after its group's earlier stores and
atomics; paused, it waits for the fault service's answer (R214, R225, R241, R258). -/
def execNestPerform (k : Nat) (s : State) : Res :=
  match (s.core k).nestQ with
  | [] => .next s
  | w :: _ =>
    match w.instr, s.group? k w.frame with
    | .nest f, some g =>
      let behind := s.reqs.any fun q => q.core == k && q.frame == w.frame && q.isWrite && q.unperformed && decide (q.seq < w.seq)
      if w.why.isSome || behind then .next s
      else .next (s.nestRun k g ((((s.core k).team? g.launch).map (·.scratchBase)).getD 0) f w 128)
    | _, _ => .next s

end Sys2Proof.Machine
end

