-- ==== Sys2Proof/Machine/Sync.lean ====
section
/-! DEFINITION. Barriers, FENCE, XSWAP, milestone counters, activation banks, the clocks and SLEEP (R196, R259, R260, R293 to
R301, R322, R338, R339, R400, R417). -/

namespace Sys2Proof.Machine

open Sys2Proof

/-! ## Source and scalars of a Y instruction (R73) -/

/-- SRC read on a lane as a word. -/
def State.ySrc (s : State) (g : Group) (l : Lane) (f : YFields) : Nat := (s.env g l []).raw .b32 f.src.src

/-- The 64-bit value of the pair that SIDX names. -/
def Group.yPair (g : Group) (f : YFields) (n : Nat) : DWord := g.scalar64 (f.sidx.toNat + n)

/-- The scope of a release by a scope code (R3). -/
def scopeOf (c : Nat) : Scope :=
  match c with | 0 => .group | 1 => .team | 2 => .cluster | 3 => .die | 4 => .package | _ => .fabric

/-- A barrier instruction after its gate: BARFAULT where the id is not the kernel's, or a slice with a lane left is outside
the split (R293, R296). -/
def State.barGate (s : State) (i : Instr) (f : YFields) (k : Group → Res) : Res :=
  s.gate i fun g =>
    if g.hdr.barriers ≤ yBarId f ∨ g.liveSlices.any (fun x => !s.iss.mask.getLsbD x.val) then
      .next (s.faultHere .barFault (BitVec.ofNat 64 (yBarId f)))
    else k g

/-- Whether an arrival can be made at once: the word is arriving, and the release has nothing to wait for. -/
def State.canArrive (s : State) (g : Group) (f : YFields) : Bool :=
  !barMode (s.barWord s.iss.core g.launch (yBarScope f) (yBarId f)).1 &&
    s.releaseFree s.iss.core s.iss.frame g.seq (scopeOf (yBarScope f))

/-- The release and the arrival of the issuing group. -/
def State.arriveHere (s : State) (g : Group) (f : YFields) : State :=
  (s.releaseDone s.iss.core s.iss.frame).barArrive s.iss.core g.launch (yBarScope f) (yBarId f)

/-- BARA (R296). -/
def execBara (f : YFields) (s : State) : Res :=
  s.barGate (.bara f) f fun g =>
    if s.canArrive g f then .next (s.arriveHere g f).advance else .next (s.waitEvent (.bara f) [0, 0])

/-- BARW (R296). -/
def execBarw (f : YFields) (s : State) : Res :=
  s.barGate (.barw f) f fun g =>
    let w := (s.barWord s.iss.core g.launch (yBarScope f) (yBarId f)).1
    if barMode w then .next (s.barLeave s.iss.core g.launch (yBarScope f) (yBarId f)).advance
    else if barCount w = 0 then .next (s.faultHere .barFault (BitVec.ofNat 64 (yBarId f)))
    else .next (s.waitEvent (.barw f) [1, 0])

/-- BAR: BARA, then BARW (R296). -/
def execBar (f : YFields) (s : State) : Res :=
  s.barGate (.bar f) f fun g =>
    if s.canArrive g f then
      let s1 := s.arriveHere g f
      if barMode (s1.barWord s.iss.core g.launch (yBarScope f) (yBarId f)).1 then
        .next (s1.barLeave s.iss.core g.launch (yBarScope f) (yBarId f)).advance
      else .next (s1.waitEvent (.bar f) [1, 0])
    else .next (s.waitEvent (.bar f) [0, 0])

/-- A wait's notes set. -/
def State.setWait (s : State) (k fr : Nat) (w : Wait) (vals : List Nat) : State :=
  s.modGroup k fr fun g => { g with waits := g.waits.map fun x => if x.same w then { x with vals := vals } else x }

/-- A group that runs, or finishes its waits while it is being pre-empted (R298). -/
def Group.waitsRun (g : Group) : Bool := g.status == .running || g.status == .preempt

/-- The rest of a waiting barrier instruction: its arrival, then its departure (R296). `w.vals` holds 1 once it has arrived,
and the number of its release's write-backs and one. -/
def State.barStep (s : State) (k fr : Nat) (g : Group) (w : Wait) (f : YFields) : State :=
  let sc := yBarScope f
  let id := yBarId f
  let word := (s.barWord k g.launch sc id).1
  if w.vals.headD 0 = 0 then
    if barMode word ∨ g.status ≠ .running then s
    else
      let wb := w.vals.getD 1 0
      match s.release k fr w.seq (scopeOf sc) w.iss.mask w.iss.pc (if wb = 0 then none else some (wb - 1))
          (fun op t => t.setWait k fr w [0, op + 1]) with
      | .hold s1 => s1
      | .go s1 =>
        let s2 := s1.barArrive k g.launch sc id
        match w.instr with
        | .bara _ => s2.endWait k fr w (fun x => x)
        | _ =>
          if barMode (s2.barWord k g.launch sc id).1 then (s2.barLeave k g.launch sc id).endWait k fr w (fun x => x)
          else s2.setWait k fr w [1, 0]
  else if barMode word then (s.barLeave k g.launch sc id).endWait k fr w (fun x => x)
  else s

/-- BARRIER_DEPART: a waiting barrier instruction arrives, or departs from a completed phase (R296, R298). -/
def execBarrierDepart (k fr slice : Nat) (s : State) : Res :=
  match s.group? k fr with
  | none => .next s
  | some g =>
    match g.waitOf slice with
    | none => .next s
    | some w =>
      if !g.waitsRun then .next s
      else
        match w.instr with
        | .bar f => .next (s.barStep k fr g w f)
        | .bara f => .next (s.barStep k fr g w f)
        | .barw f => .next (s.barStep k fr g w f)
        | _ => .next s

/-! ## FENCE (R338, R417) -/

def yFenceScope (f : YFields) : Scope := scopeOf (f.sub.toNat % 8)
def yFenceRel (f : YFields) : Bool := f.sub.getLsbD 5
def yFenceAcq (f : YFields) : Bool := f.sub.getLsbD 4

/-- Earlier loads, atomics and WAITVs of a group that have not their data, by whether they are logged (R338). -/
def State.earlierReads (s : State) (k fr seq : Nat) (logged : Bool) : Bool :=
  s.reqs.any fun q => q.core == k && q.frame == fr && decide (q.seq < seq) && (q.stage == .logged) == logged &&
    (q.kind == .load || q.kind == .waitv || q.isAtomic)

/-- The clock after an acquire of a scope (R338, R417). -/
def State.acquireClock (s : State) (k fr : Nat) (sc : Scope) : State :=
  let m := ((s.group? k fr).map (·.rdmax)).getD 0
  s.raiseClock k (if sc = .fabric then Nat.max m s.fabmark else m)

/-- Whether a FENCE has nothing to wait for. -/
def State.fenceFree (s : State) (k fr : Nat) (g : Group) (f : YFields) : Bool :=
  (!yFenceRel f || (s.releaseFree k fr g.seq (yFenceScope f) && yFenceScope f != .fabric)) &&
    (!yFenceAcq f || !(s.earlierReads k fr g.seq true || s.earlierReads k fr g.seq false))

/-- What a FENCE with nothing to wait for does. -/
def State.fenceClock (s : State) (k fr : Nat) (f : YFields) : State :=
  let s1 := if yFenceRel f then s.releaseDone k fr else s
  if yFenceAcq f then s1.acquireClock k fr (yFenceScope f) else s1

/-- FENCE (R338). -/
def execFence (f : YFields) (s : State) : Res :=
  s.gate (.fence f) fun g =>
    if s.fenceFree s.iss.core s.iss.frame g f then .next (s.fenceClock s.iss.core s.iss.frame f).advance
    else .next (s.waitEvent (.fence f) [])

/-- The cause of a code that a write-back reports. -/
def backCause (c : Nat) : Cause := match c with | 0x09 => .prot | 0x04 => .unitAbsent | _ => .poison

/-- A fault of an instruction that waits: kind P at that instruction, which is its resume point; a group that cannot take it now
holds it (R221, R300). -/
def State.faultWait (s : State) (k fr : Nat) (w : Wait) (c : Cause) (a : DWord) : State :=
  (s.reissue k fr w).raiseDue k fr ⟨w.iss.mask, ⟨c, .P, a, w.iss.pc, lowSlice w.iss.mask, w.iss.idx, none⟩, false⟩

/-- The acquire part of a waiting FENCE, and its end; a logged load is reported (R338). -/
def State.fenceAcquire (s : State) (k fr : Nat) (w : Wait) (f : YFields) : State :=
  if yFenceAcq f then
    if s.earlierReads k fr w.seq true then
      match (s.group? k fr).bind fun g => g.log.find? fun e => s.reportable e && s.reqs.any fun q =>
          q.core == k && q.frame == fr && decide (q.seq < w.seq) && q.op == e.op && q.stage == .logged with
      | some e => (s.reissue k fr w).faultLogged e
      | none => s
    else if s.earlierReads k fr w.seq false then s
    else (s.acquireClock k fr (yFenceScope f)).endWait k fr w id
  else s.endWait k fr w id

/-- FENCE_COMPLETE: the release part, the wait of WINFENCE at fabric scope, then the acquire part (R338, R417). -/
def execFenceComplete (k fr slice : Nat) (s : State) : Res :=
  match s.group? k fr with
  | none => .next s
  | some g =>
    match g.waitOf slice with
    | none => .next s
    | some w =>
      match w.instr with
      | .fence f =>
        if g.status ≠ .running then .next s
        else if w.vals.length = 3 then .next (s.faultWait k fr w (backCause (w.vals.getD 1 0)) (BitVec.ofNat 64 (w.vals.getD 2 0)))
        else if yFenceRel f then
          match s.release k fr w.seq (yFenceScope f) w.iss.mask w.iss.pc w.vals.head? (fun op t => t.setWait k fr w [op]) with
          | .hold s1 => .next s1
          | .go s1 =>
            if yFenceScope f = .fabric then
              match s1.winState k fr w.seq g with
              | .waits => .next s1
              | .refused e => .next ((s1.reissue k fr w).faultLogged e)
              | .timeSync => .next (s1.faultWait k fr w .timeSync 0)
              | .done => .next ((s1.modGroup k fr fun g => { g with fabWin := none }).fenceAcquire k fr w f)
            else .next (s1.fenceAcquire k fr w f)
        else .next (s.fenceAcquire k fr w f)
      | _ => .next s

/-! ## XSWAP (R299 to R301) -/

/-- The values of the lanes of an issuing split, by lane; 0 where a lane takes no part. -/
def State.swapVals (s : State) (g : Group) (f : YFields) : List Nat :=
  (List.finRange 32).map fun l => if g.on s.iss.mask l then s.ySrc g g.lanes[l] f else 0

/-- XSWAP: the partner is checked, the values are read, and the split waits for the partner (R300). -/
def execXswap (f : YFields) (s : State) : Res :=
  s.gate (.xswap f) fun g =>
    let p := (g.scalar f.sidx.toNat).toNat
    let r := ((s.launch? g.launch).map fun l => (l.record.clusters, l.record.groups)).getD (0, 0)
    if p / 1024 = g.cluster ∨ r.1 ≤ p / 1024 ∨ r.2 ≤ p % 1024 then .next (s.faultHere .xpair (f.imm.setWidth 64))
    else if g.waits.any fun w => match w.instr with | .xswap _ => true | _ => false then .next s
    else .next (s.waitEvent (.xswap f) (p / 1024 :: p % 1024 :: (g.activeMask s.iss.mask).toNat :: s.swapVals g f))

/-- A group of a launch by its cluster and its index, where it is resident. -/
def State.findGroup (s : State) (launch cluster index : Nat) : Option (Nat × Nat × Group) :=
  s.cores.findSome? fun c => (c.2.frames.find? fun p => p.2.launch == launch && p.2.cluster == cluster && p.2.index == index).map
    fun p => (c.1, p.1, p.2)

/-- Whether a group of a launch has retired: its cluster has been placed, is not saved, and does not hold it (R300). -/
def State.hasRetired (s : State) (launch cluster index : Nat) : Bool :=
  decide (cluster < ((s.launch? launch).map (·.next)).getD 0) && (s.findGroup launch cluster index).isNone &&
    !(s.saved.any fun v => v.launch == launch && v.cluster == cluster)

/-- The waiting XSWAP of a group. -/
def Group.swapWait (g : Group) : Option (Wait × YFields) :=
  g.waits.findSome? fun w => match w.instr with | .xswap f => some (w, f) | _ => none

/-- The values that a side of a matched pair pushes: the partner's where its lane took part, else its own (R300). -/
def Group.swapIn (g : Group) (mine other : Wait) : Group :=
  let on := fun (w : Wait) (l : Fin 32) => (w.vals.getD 2 0).testBit l.val
  let val := fun (w : Wait) (l : Fin 32) => BitVec.ofNat 32 (w.vals.getD (3 + l.val) 0)
  { g with lanes := Vector.ofFn fun l => if on mine l then g.lanes[l].emit (if on other l then val other l else val mine l) else g.lanes[l] }

/-- XSWAP_MATCH: the partner's XSWAP names this group; both exchange, or both fault where their tags differ; a partner that
has retired faults this one (R300). -/
def execXswapMatch (k fr slice : Nat) (s : State) : Res :=
  match s.group? k fr with
  | none => .next s
  | some g =>
    match g.swapWait with
    | none => .next s
    | some (w, f) =>
      let c := w.vals.getD 0 0
      let i := w.vals.getD 1 0
      if !w.iss.mask.getLsbD slice || !g.waitsRun then .next s
      else if s.hasRetired g.launch c i then .next (s.faultWait k fr w .xpair (f.imm.setWidth 64))
      else
        match s.findGroup g.launch c i with
        | none => .next s
        | some (k2, fr2, h) =>
          match h.swapWait with
          | none => .next s
          | some (w2, f2) =>
            if w2.vals.getD 0 0 ≠ g.cluster ∨ w2.vals.getD 1 0 ≠ g.index ∨ !h.waitsRun then .next s
            else if f.imm ≠ f2.imm then
              .next ((s.faultWait k fr w .xpair (f.imm.setWidth 64)).faultWait k2 fr2 w2 .xpair (f2.imm.setWidth 64))
            else
              .next ((s.endWait k fr w fun g => g.swapIn w w2).endWait k2 fr2 w2 fun h => h.swapIn w2 w)

/-! ## Milestone counters (R400) -/

/-- ALIGN, then the faults of the pages of a Y instruction's address; a page of another device is refused (R400, R409). -/
def State.yFault (s : State) (g : Group) (acc : Acc) (a : DWord) (align n : Nat) : Option (Cause × DWord) :=
  if a.toNat % align ≠ 0 then some (.align, a)
  else
    let pages := rangePages a n
    (pages.findSome? fun p => let x := if p.toNat < a.toNat then a else p
      match s.translate s.iss.core none g.ctx g.priv acc x with
      | .error c => some (c, x)
      | .ok e => if pteDev e.pte then some (.prot, x) else none)

/-- The pages of an access with the address in each at which it is checked. -/
def spanPages (a : DWord) (n : Nat) : List (Option Nat × DWord) :=
  (rangePages a n).map fun p => (none, if p.toNat < a.toNat then a else p)

/-- MSINC: a release at package scope and an addition at the counter's home, after the logged loads of the counter (R211, R400). -/
def execMsinc (f : YFields) (s : State) : Res :=
  s.memGate (.msinc f) fun g =>
    let a := g.yPair f 0
    match s.yFault g .store a 8 8 with
    | some x => .next (s.faultAccess g (spanPages a 8) x)
    | none =>
      match s.loggedOverlap g .global 8 [a] with
      | [] =>
        let r := { Req.blank s g 33 with
          kind := .atomic .add false, va := a, size := 8, order := .release, scope := .package, clk := (s.core s.iss.core).clock,
          data := leBytes 8 (s.ySrc g Lane.start f) }
        match s.placeAt s g none .store r with
        | some p => .next ((p.1.send p.2).sent none)
        | none => .next s
      | ids => .next (s.waitFor g ids)

/-- A milestone counter read at its home, its lease with it: the state, the value, its wts and the end of the lease; or why
it cannot be read (R334, R347, R400). -/
def State.readCounter (s : State) (k ctx : Nat) (priv : Bool) (a : DWord) (lease clk : Nat) : Except (Cause × DWord) (State × Nat × Nat × Nat) :=
  match s.translate k none ctx priv .load a with
  | .error c => .error (c, a)
  | .ok e =>
    let pa := e.pa a
    if pteDev e.pte then .error (.prot, a)
    else if s.poisoned pa 8 then .error (.poison, a)
    else if s.hostLine pa then .ok (s.noteTlb k e, leNat (s.phys pa 8), s.hostmark, 0)
    else
      let p := (s.noteTlb k e).homeRenew (lineOf pa) clk lease
      .ok (p.1, leNat (s.phys pa 8), p.2.wts, Nat.min p.2.rts (clk + lease))

/-- Whether a write of the core to a milestone counter that was issued before has not been performed (R205). -/
def State.counterBehind (s : State) (g : Group) (a : DWord) : Bool :=
  s.heldBack { Req.blank s g 33 with id := s.nextReq, op := s.nextOp, kind := .load, va := a, size := 8, stage := .walk, space := .global }

/-- The end of an MSWAIT: an acquire at package scope (R400). -/
def State.milestoneSeen (s : State) (k fr wts : Nat) : State :=
  (s.raiseClock k wts).modGroup k fr fun g => { g with rdmax := Nat.max g.rdmax wts }

/-- MSWAIT: its scalars are read at issue; it reads the counter once the group's logged loads of it and the core's earlier writes of it are
done, and where the value is not reached it sleeps until the lease lapses (R205, R211, R214, R400). -/
def execMswait (f : YFields) (s : State) : Res :=
  s.latchGate (.mswait f) fun g =>
    let k := s.iss.core
    let a := s.latchedPair 0 (g.yPair f 0)
    let v := (s.latchedPair 1 (g.yPair f 2)).toNat
    match s.yFault g .load a 8 8 with
    | some x => .next (s.faultAccess g (spanPages a 8) x)
    | none =>
      match if s.iss.kept.isEmpty then s.loggedOverlap g .global 8 [a] else [] with
      | i :: is => .next (s.waitFor g (i :: is))
      | [] =>
        if s.counterBehind g a then .next (s.waitLatched (.mswait f) [a.toNat, v])
        else
          match s.readCounter k g.ctx g.priv a (s.leaseOf k g.ctx) (s.core k).clock with
          | .error x => .next (s.faultHere x.1 x.2)
          | .ok (s1, x, wts, lease) =>
            if v ≤ x then .next (s1.milestoneSeen k s.iss.frame wts).advance
            else .next (s1.waitEvent (.mswait f) [a.toNat, v, lease])

/-- MSWAIT_REREAD: the lease of the last read has lapsed, and the counter is read again (R207, R400). -/
def execMswaitReread (k fr slice : Nat) (s : State) : Res :=
  match s.group? k fr with
  | none => .next s
  | some g =>
    match g.waitOf slice with
    | none => .next s
    | some w =>
      match w.instr with
      | .mswait _ =>
        if g.status ≠ .running ∨ (s.core k).clock ≤ w.vals.getD 2 0 ∧ w.vals.getD 2 0 ≠ 0 then .next s
        else
          let a : DWord := BitVec.ofNat 64 (w.vals.getD 0 0)
          match s.readCounter k g.ctx g.priv a (s.leaseOf k g.ctx) (s.core k).clock with
          | .error x => .next (s.faultWait k fr w x.1 x.2)
          | .ok (s1, x, wts, lease) =>
            if w.vals.getD 1 0 ≤ x then .next ((s1.milestoneSeen k fr wts).endWait k fr w id)
            else .next (s1.setWait k fr w [w.vals.getD 0 0, w.vals.getD 1 0, lease])
      | _ => .next s

/-! ## Activation banks (R149, R259, R260) -/

/-- Bytes of a bank's image (R149). -/
def bankBytes : Nat := 8320

/-- Whether another resident group of a core has a bank selected (R259). -/
def Core.bankHeld (c : Core) (fr bank : Nat) : Bool := c.frames.any fun p => p.1 != fr && p.2.actBank == bank

/-- A bank written from its image; PAGE, PROT or POISON leaves it as it was (R259). -/
def State.writeBank (s : State) (k : Nat) (g : Group) (bank : Nat) (a : DWord) : Except (Cause × DWord) State :=
  match s.readV k g.ctx g.priv a bankBytes with
  | .error x => .error x
  | .ok bs => .ok ((s.notePages k g.ctx a bankBytes).modCore k fun c => { c with banks := c.banks.setIfInBounds bank (Memory.write [] 0 bs) })

/-- LDACT (R259). -/
def execLdact (f : YFields) (s : State) : Res :=
  s.memGate (.ldact f) fun g =>
    let k := s.iss.core
    let c := s.core k
    let a := g.yPair f 0
    let b := f.sub.toNat % 2
    if c.frames.any fun p => p.2.ctx != g.ctx then .next (s.faultHere .prot a)
    else if g.actBank = b then .next (s.faultHere .actBusy (BitVec.ofNat 64 b))
    else
      match s.yFault g .load a 16 bankBytes with
      | some x => .next (s.faultAccess g (spanPages a bankBytes) x)
      | none =>
        if c.bankHeld s.iss.frame b then
          .next ((s.modCore k fun c => { c with actWaits := c.actWaits ++ [⟨s.iss.frame, b⟩] }).waitEvent (.ldact f) [b, a.toNat])
        else
          match s.writeBank k g b a with
          | .error x => .next (s.faultHere x.1 x.2)
          | .ok s1 => .next s1.advance

/-- LDACT_BANK_WRITE: no other group has the bank selected; the image is read and the bank written (R259). -/
def execLdactBankWrite (k fr slice : Nat) (s : State) : Res :=
  match s.group? k fr with
  | none => .next s
  | some g =>
    match g.waitOf slice with
    | none => .next s
    | some w =>
      match w.instr with
      | .ldact _ =>
        let b := w.vals.getD 0 0
        if g.status ≠ .running ∨ (s.core k).bankHeld fr b then .next s
        else if g.actBank = b then .next (s.faultWait k fr w .actBusy (BitVec.ofNat 64 b))
        else
          let s1 := s.modCore k fun c => { c with actWaits := c.actWaits.filter fun x => !(x.frame == fr && x.bank == b) }
          match s1.writeBank k g b (BitVec.ofNat 64 (w.vals.getD 1 0)) with
          | .error x => .next (s1.faultWait k fr w x.1 x.2)
          | .ok s2 => .next (s2.endWait k fr w id)
      | _ => .next s

/-- ACTSEL: it waits while another group's LDACT of the bank waits or writes (R259, R260). -/
def execActsel (f : YFields) (s : State) : Res :=
  s.gate (.actsel f) fun g =>
    let b := f.sub.toNat % 2
    if (s.core s.iss.core).actWaits.any fun x => x.bank == b && x.frame != s.iss.frame then .next s
    else .next (s.finish { g with actBank := b })

/-! ## Clocks and SLEEP (R196, R339) -/

/-- CLOCK (R339). -/
def execClock (f : YFields) (s : State) : Res :=
  s.laneOp (.clock f) fun _ _ _ => wordsOf true (s.core s.iss.core).clock

/-- PTIME (R339). -/
def execPtime (f : YFields) (s : State) : Res := s.laneOp (.ptime f) fun _ _ _ => wordsOf true s.ptime

/-- SLEEP: the split starts no clause for `n` cycles (R196). -/
def execSleep (f : YFields) (s : State) : Res :=
  s.gate (.sleep f) fun g => .next (s.finish (g.mapSlices s.iss.mask fun _ sl => { sl with wake := s.cycle + f.imm.toNat }))

end Sys2Proof.Machine
end

