-- ==== Sys2Proof/Machine/Fabric.lean ====
section
/-! DEFINITION. The fabric instructions, the engines' own steps with FCOPY among them, requests of other devices, package
time and its windows (R215, R216, R272, R409 to R425). -/

namespace Sys2Proof.Machine

open Sys2Proof

/-! ## FWRITE and FATOM (R420) -/

/-- Lane addresses of FWRITE and FATOM (R420). -/
def State.fabricAddrs (s : State) (g : Group) (f : YFields) : List (Fin 32 × DWord) :=
  (g.activeLanes s.iss.mask).map fun l =>
    (l, g.yPair f 0 + BitVec.ofInt 64 ((g.scalar (f.sidx.toNat + 2)).toInt * (l.val : Int)))

/-- ALIGN, PAGE and PROT of FWRITE and FATOM, each for every lane in turn (R420). -/
def State.fabricFault (s : State) (g : Group) (n : Nat) (as : List (Fin 32 × DWord)) : Option (Cause × DWord) :=
  ((as.find? fun p => p.2.toNat % n != 0).map fun p => (Cause.align, p.2)).or <|
  as.findSome? fun p =>
    match s.translate s.iss.core (some (lastReg s.iss.frame p.1.val)) g.ctx g.priv .store p.2 with
    | .error c => some (c, p.2)
    | .ok e => if pteDev e.pte then none else some (.prot, p.2)

/-- Bytes of an FWRITE lane. -/
def fwriteBytes (f : YFields) : Nat := if f.sub.toNat % 4 = 1 then 8 else 4

/-- The data of an FWRITE lane (R419). -/
def State.fwriteData (s : State) (g : Group) (f : YFields) (l : Fin 32) : List Byte :=
  let e := s.env g g.lanes[l] []
  if fwriteBytes f = 8 then leBytes 8 (e.raw .b64 f.src.src) else leBytes 4 (e.raw .b32 f.src.src)

/-- The requests of FWRITE, lanes ascending. -/
def State.sendFwrite (s : State) (g : Group) (f : YFields) (as : List (Fin 32 × DWord)) : State :=
  as.foldl (fun (t : State) p =>
    let r := { Req.blank s g p.1.val with
      kind := .store, va := p.2, size := fwriteBytes f, order := if f.sub.getLsbD 2 then .release else .plain, scope := .fabric,
      clk := (s.core s.iss.core).clock, data := s.fwriteData g f p.1 }
    match s.placeAt t g (some (lastReg s.iss.frame p.1.val)) .store r with
    | some q => q.1.send q.2
    | none => t) s

/-- FWRITE (R211, R420). -/
def execFwrite (f : YFields) (s : State) : Res :=
  s.memGate (.fwrite f) fun g =>
    let as := s.fabricAddrs g f
    match s.fabricFault g (fwriteBytes f) as with
    | some x => .next (s.faultAccess g (s.laneRegs as) x)
    | none =>
      match s.loggedOverlap g .global (fwriteBytes f) (as.map (·.2)) with
      | [] =>
        s.fabricRelease (f.sub.getLsbD 2) .fabric g fun s g =>
          .next (State.sent ((s.setGroup s.iss.core s.iss.frame g).sendFwrite g f as) none)
      | ids => .next (s.waitFor g ids)

/-- The operation of a code of FATOM (R419). -/
def fatomOp (c : Nat) : AtomOp :=
  match c with
  | 0 => .add | 1 => .min | 2 => .max | 3 => .and | 4 => .or | 5 => .xchg | _ => .fadd

/-- FATOM: its home may refuse it, so that it takes a log place (R210, R211, R420, R423). -/
def execFatom (f : YFields) (s : State) : Res :=
  s.memGate (.fatom f) fun g =>
    let as := s.fabricAddrs g f
    match s.fabricFault g 4 as with
    | some x => .next (s.faultAccess g (s.laneRegs as) x)
    | none =>
      match s.loggedOverlap g .global 4 (as.map (·.2)) with
      | [] =>
        s.withPlaces g 1 <| .next (State.sent (as.foldl (fun (t : State) p =>
          let r := { Req.blank s g p.1.val with
            kind := .atomic (fatomOp f.sub.toNat) false, va := p.2, size := 4, scope := .fabric, clk := (s.core s.iss.core).clock,
            data := leBytes 4 (s.ySrc g g.lanes[p.1] f), inst := instrUnit (.fatom f) }
          match s.placeAt t g (some (lastReg s.iss.frame p.1.val)) .store r with
          | some q => q.1.reserveFor p.1 1 q.2
          | none => t) s) none)
      | ids => .next (s.waitFor g ids)

/-! ## FCOPY (R421) -/

/-- The regions of an FCOPY. -/
def fcopyRegions (ws : List Word) : List Region :=
  [⟨0, blockWide ws 0, 0, (blockWord ws 4 : Nat), false⟩, ⟨0, blockWide ws 2, 0, (blockWord ws 4 : Nat), true⟩]

/-- The faults of an FCOPY in the order of R214: ALIGN, HANDLE, then its pages. That neither range lies on DEV pages is HANDLE as soon as
every page has a translation that tells so (log entry 83). -/
def State.fcopyFault (s : State) (g : Group) (ws : List Word) : Option (Cause × DWord) :=
  let src : DWord := BitVec.ofNat 64 (blockWide ws 0)
  let dst : DWord := BitVec.ofNat 64 (blockWide ws 2)
  let n := blockWord ws 4
  let pte := fun (p : DWord) => (s.lookup s.iss.core none g.ctx p).map (·.pte)
  let near := (rangePages src n ++ rangePages dst n).all fun p => (pte p).any fun e => !pteDev e
  let page := fun (acc : Acc) (a : DWord) => (rangePages a n).findSome? fun p =>
    let x := if p.toNat < a.toNat then a else p
    match s.translate s.iss.core none g.ctx g.priv acc x with
    | .error c => some (c, x)
    | .ok _ => none
  (misaligned [(blockWide ws 0, 4), (blockWide ws 2, 4), (n, 4)]).or <|
  (outside [(n, decide (4 ≤ n ∧ n ≤ 16777216)), (blockWord ws 5, blockWord ws 5 == 0)]).or <|
  (if near then some (.handle, src) else none).or <|
  (page .load src).or (page .store dst)

/-- FCOPY: a copy-slot operation; with .rel the release is made before it is started (R417, R421). -/
def execFcopy (f : YFields) (s : State) : Res :=
  s.memGate (.fcopy f) fun g =>
    let ws := g.block f.sidx.toNat 6
    match s.fcopyFault g ws with
    | some x => .next (s.faultHere x.1 x.2)
    | none =>
      s.fabricRelease (f.sub.getLsbD 0) .fabric g fun s g =>
        match (s.core s.iss.core).freeHandle 0 with
        | none => .next s
        | some idx =>
          if !s.locksFree g (fcopyRegions ws) then .next s
          else
            let h := { HandleSlot.free 0 with op := 0x21, block := ws, rel := f.sub.getLsbD 0, words := [s.nextOp] }
            let t := (s.setGroup s.iss.core s.iss.frame g).startOp g idx (f.imm.toNat % 128) h (fcopyRegions ws)
            .next { t with nextOp := s.nextOp + 1 }

/-- Parts of a block that lie in one line each: virtual address and length. -/
def lineParts (a : DWord) (n : Nat) : List (DWord × Nat) := (spanBlocks a.toNat n).map fun p => (BitVec.ofNat 64 p.1, p.2)

/-- An access of a running FCOPY to another device. -/
def State.copyReq (s : State) (k idx : Nat) (h : HandleSlot) (kind : ReqKind) (lane : Nat) (e : TlbEntry) (a : DWord) (n : Nat) (bs : List Byte) : State :=
  s.send (Req.placed { Req.blank s default lane with
    op := h.words.headD 0, kind := kind, core := k, frame := h.owner, seq := h.seq, ctx := h.ctx, va := a, size := n, order := .relaxed,
    data := bs, mask := h.mask, wb := some idx, clk := (s.core k).clock, peer := k } e)

/-- What a part of a block's source gives now. -/
inductive PartRead where
  | bytes (s : State) (bs : List Byte)
  | wait (s : State)
  | stop (e : EngStop)
  deriving DecidableEq, Repr, Inhabited

/-- A part of a block's source: read at its home, or asked of its device and taken when it has come (R421). -/
def State.copyPart (s : State) (k idx : Nat) (h : HandleSlot) (p : DWord × Nat) : PartRead :=
  match s.translate k none h.ctx h.priv .load p.1 with
  | .error c => .stop (EngStop.ofFault c p.1)
  | .ok e =>
    if pteDev e.pte then
      match s.reqs.find? fun q => q.lane == 34 && q.op == h.words.headD 0 && q.va == p.1 with
      | none => .wait ((s.noteTlb k e).copyReq k idx h .load 34 e p.1 p.2 [])
      | some q => if q.stage = .data then (if q.poison then .stop (.error .poison p.1) else .bytes s q.data) else .wait s
    else
      match s.readPlace k h.ctx h.priv (.glob p.1) p.2 with
      | .error x => .stop x
      | .ok (s1, bs) => .bytes s1 bs

/-- Every part of a block's source: those on another device are all asked for. -/
def State.copyParts (s : State) (k idx : Nat) (h : HandleSlot) : List (DWord × Nat) → PartRead
  | [] => .bytes s []
  | p :: ps =>
    match s.copyPart k idx h p with
    | .stop e => .stop e
    | .wait s1 => (match State.copyParts s1 k idx h ps with | .bytes s2 _ => .wait s2 | r => r)
    | .bytes s1 bs =>
      match State.copyParts s1 k idx h ps with
      | .bytes s2 cs => .bytes s2 (bs ++ cs)
      | r => r

/-- The words of a block written: each to its device in address order, or at its home (R415, R421). -/
def State.copyWrite (s : State) (k idx : Nat) (h : HandleSlot) (a : DWord) : List Word → Except EngStop (State × Nat)
  | [] => .ok (s, 0)
  | w :: ws =>
    match s.translate k none h.ctx h.priv .store a with
    | .error c => .error (EngStop.ofFault c a)
    | .ok e =>
      let one : Except EngStop (State × Nat) :=
        if pteDev e.pte then .ok ((s.noteTlb k e).copyReq k idx h .store 35 e a 4 (leBytes 4 w.toNat), 0)
        else s.writePlace k h.ctx h.priv (.glob a) (leBytes 4 w.toNat)
      match one with
      | .error x => .error x
      | .ok (s1, v) =>
        match State.copyWrite s1 k idx h (a + 4) ws with
        | .error x => .error x
        | .ok (s2, v2) => .ok (s2, Nat.max v v2)

/-- How an engine stops at a fault of a unit (R216). -/
def State.stopOp (s : State) (k idx : Nat) (h : HandleSlot) (e : EngStop) : State :=
  match e with
  | .wait => s
  | .pause c a => ((s.noteStop k h a).dropReads h).pauseOp k idx h c a
  | .error c a => ((s.noteStop k h a).dropReads h).failOp k idx h c a

/-- Up to `n` blocks of an FCOPY; it is complete when every word it wrote is acknowledged (R421). -/
def State.runCopy (s : State) (k idx : Nat) : Nat → State
  | 0 => s
  | n + 1 =>
    let h := (s.core k).handle idx
    let op := h.words.headD 0
    if h.state ≠ .running then s
    else if h.total ≤ h.done then
      (if s.reqs.any fun q => q.lane == 35 && q.op == op then s else s.endOp k idx h)
    else
      let off := 128 * h.done
      let m := Nat.min 128 (blockWord h.block 4 - off)
      match s.copyParts k idx h (lineParts (BitVec.ofNat 64 (blockWide h.block 0 + off)) m) with
      | .stop e => s.stopOp k idx h e
      | .wait s1 => s1
      | .bytes s1 bs =>
        match s1.copyWrite k idx h (BitVec.ofNat 64 (blockWide h.block 2 + off)) (leWords bs) with
        | .error e => s1.stopOp k idx h e
        | .ok (s2, w) =>
          let s3 := { s2 with reqs := s2.reqs.filter fun q => !(q.lane == 34 && q.op == op) }
          let s4 := s3.modCore k fun x => x.setHandle idx { h with done := h.done + 1, maxWts := Nat.max h.maxWts w }
          let s5 := match s4.owner? k h with
            | some _ => s4.modGroup k h.owner fun g => { g with ackmax := Nat.max g.ackmax w, engMax := Nat.max g.engMax w }
            | none => s4
          State.runCopy s5 k idx n

/-! ## The engines' own steps (R215, R216, R272) -/

/-- Units of an operation moved, once its split's earlier stores are performed (R214, R216). -/
def State.moveUnits (s : State) (k idx n : Nat) : State :=
  let h := (s.core k).handle idx
  if s.engineBehind k h then s else if h.op = 0x21 then s.runCopy k idx n else s.runUnits k idx n

/-- ENGINE_COMPLETE: the operation moves the rest of its units and completes, or stops where it meets a fault (R215, R216,
R222). -/
def execEngineComplete (k idx : Nat) (s : State) : Res :=
  .next (s.moveUnits k idx (((s.core k).handle idx).steps + 1))

/-- ENGINE_PAUSE: the operation moves some units, and the next one meets a translation fault: it pauses there (R216, R272). -/
def execEnginePause (k idx units : Nat) (s : State) : Res :=
  let s1 := s.moveUnits k idx units
  let s2 := s1.moveUnits k idx 1
  if ((s2.core k).handle idx).state = .paused then .next s2 else .next s1

/-! ## WINFENCE (R422) -/

/-- WINFENCE (R422). -/
def execWinfence (f : YFields) (s : State) : Res :=
  s.gate (.winfence f) fun g =>
    match s.winState s.iss.core s.iss.frame g.seq g with
    | .done => .next (s.finish { g with fabWin := none })
    | .timeSync => .next (s.faultHere .timeSync 0)
    | .refused e => .next (s.faultLogged e)
    | .waits => .next (s.waitEvent (.winfence f) [])

/-- WINFENCE_WINDOW_END: the windows of the acknowledged writes have passed, or SYNC has fallen (R422). -/
def execWinfenceWindowEnd (k fr slice : Nat) (s : State) : Res :=
  match s.group? k fr with
  | none => .next s
  | some g =>
    match g.waitOf slice with
    | none => .next s
    | some w =>
      match w.instr with
      | .winfence _ =>
        if g.status ≠ .running then .next s
        else
          match s.winState k fr w.seq g with
          | .waits => .next s
          | .refused e => .next ((s.reissue k fr w).faultLogged e)
          | .timeSync => .next (s.faultWait k fr w .timeSync 0)
          | .done => .next (s.endWait k fr w fun g => { g with fabWin := none })
      | _ => .next s

/-! ## Requests of other devices (R410, R415) -/

/-- Bytes that a remote request touches. -/
def remoteLen (r : RemoteRequest) : Nat := match r.kind with | .read n => n | .write bs => bs.length | .atomic _ _ => 4

/-- The aperture that admits a request (R410). -/
def State.aperture (s : State) (r : RemoteRequest) : Option Aperture :=
  s.apertures.toList.find? fun a =>
    decide (0 < a.len ∧ a.base ≤ r.addr ∧ r.addr + remoteLen r ≤ a.base + a.len) && (a.srcDev == 0xFFFF || a.srcDev == r.dev) &&
      (match r.kind with | .read _ => a.perm.getLsbD 0 | .write _ => a.perm.getLsbD 1 | .atomic _ _ => a.perm.getLsbD 0 && a.perm.getLsbD 1)

/-- The window of package time, unknown while SYNC is 0 (R413, R415). -/
def State.window? (s : State) : Option Nat := if s.timeSync then some (s.ptime / s.winLen.toNat) else none

/-- An answer sent to another device. -/
def State.answerRemote (s : State) (id : Nat) (a : RemoteReply) : State := { s with remoteReplies := s.remoteReplies ++ [(id, a)] }

/-- REMOTE_REQUEST: refused outside the apertures; a read is answered, a write or an atomic waits to be performed, with the context for
which its aperture marks it (R410, R414, R415, R423, R425). -/
def execRemoteRequest (r : RemoteRequest) (s : State) : Res :=
  let id := s.nextReq
  let s1 := { s.countRetries r.port r.retries with nextReq := s.nextReq + 1 }
  if !s.hasFabric then .next s
  else
    match s.aperture r with
    | none => .next (s1.answerRemote id .refused)
    | some a =>
      match r.kind with
      | .read n =>
        if s.poisoned r.addr n then .next (s1.answerRemote id .error)
        else .next (s1.answerRemote id (.data (s.phys r.addr n) s.window?))
      | _ => .next { s1 with remotes := s1.remotes ++ [⟨id, r, if a.perm.getLsbD 2 then some a.ctx else none⟩] }

/-- REMOTE_WRITE_PERFORM: one store or atomic at its home with wts := rts + 1; FABMARK takes its wts before the answer
(R381, R415, R418, R420). Requests of one device are performed in the order of their arrival. DESIGN CHOICE: it comes by a physical address,
and no PTE is named for its block, which is stored as without COMP (log entry 72). -/
def execRemoteWritePerform (id : Nat) (s : State) : Res :=
  match s.remotes.find? fun o => o.id == id with
  | none => .next s
  | some o =>
    let behind := s.remotes.any fun q => decide (q.id < id) && q.req.dev == o.req.dev
    if behind then .next s
    else
      let s0 := { s with remotes := s.remotes.filter fun q => q.id != id }
      let dirty := (o.mark.map fun ctx => s.ctxField ctx 8 8).filter fun m => takesBit m o.req.addr
      let put := fun (bs : List Byte) (back : List Byte) =>
        let p := s0.writeHome (64 * (o.req.addr / 2 ^ 36)) o.req.addr bs 0 dirty false
        let s1 := { p.1 with fabmark := Nat.max p.1.fabmark p.2 }
        s1.answerRemote id (.data back s.window?)
      match o.req.kind with
      | .write bs => .next (put bs [])
      | .atomic op d =>
        let old := s.phys o.req.addr 4
        let v := ((fatomOp op.toNat).value false 32 (leNat old) d.toNat 0).getD 0
        if s.poisoned o.req.addr 4 then .next (s0.answerRemote id .error) else .next (put (leBytes 4 v) old)
      | .read _ => .next s0

/-- REMOTE_WRITE_TIMEOUT: a write that no port has delivered within eight windows completes with POISON (R415, R423). -/
def execRemoteWriteTimeout (req : Nat) (s : State) : Res :=
  match s.req? req with
  | none => .next s
  | some r =>
    if r.dev ∧ r.isWrite ∧ r.stage = .reply ∧ r.sent + 8 * s.winLen.toNat ≤ s.ptime then
      .next ((s.remoteAnswer r .error).tell (.remoteTimeout r.core r.frame))
    else .next s

/-- An engine operation one of whose packets is lost: it ends in the error state with POISON, and the split that issued it takes LINKERR
(R262, R325, R425). -/
def State.engineLinkError (s : State) (k idx : Nat) : State :=
  let h := (s.core k).handle idx
  if h.state ≠ .running then s
  else
    let s1 := match s.owner? k h with
      | some _ => s.modGroup k h.owner fun g => { g with async := g.async ++ [(⟨.linkErr, 0, h.mask⟩ : Async)] }
      | none => s
    (s1.dropReads h).failOp k idx h .poison 0

/-- Whether a request has a packet under way: of a global access, or of one that the mesh carries to another core's scratch (R325, R425). -/
def Req.onWay (r : Req) : Bool :=
  if r.global then r.kind != .long && (r.stage == .ready || r.stage == .reply || r.stage == .ack)
  else r.peer != r.core && r.stage == .scratch

/-- HEAD_FLIT_ERROR: the port's counter counts it, and the request completes with POISON; its split takes LINKERR (R325, R423,
R425). A number of no request, from 2^64 on, is an engine operation's: 128 times its core and its handle slot more (log entry 67). -/
def execHeadFlitError (req port : Nat) (s : State) : Res :=
  let s1 := { s with ports := s.ports.setIfInBounds port (((s.ports.toList.getD port (0, 0)).1 + 1) % 2 ^ 32, (s.ports.toList.getD port (0, 0)).2) }
  match s.req? req with
  | none => .next (if 2 ^ 64 ≤ req then s1.engineLinkError ((req - 2 ^ 64) / 128) (req % 128) else s1)
  | some r =>
    if !r.onWay then .next s1
    else
      let s2 := s1.asyncFault r .linkErr 0
      if r.lane = 34 ∨ r.lane = 35 then .next (s2.copyRefused r .poison)
      else if r.kind = .store ∨ r.kind = .pref ∨ r.kind = .renew then .next (s2.doneReq r)
      else
        .next ((s2.modReq req fun q => { q with stage := .data, poison := true, data := List.replicate q.size 0 }).prepend [r.arrival])

/-! ## Package time (R411 to R413) -/

/-- SYNC_LOSS: the estimated offset exceeds the guard band, or the package clock stops (R411). -/
def execSyncLoss (err : Option (BitVec 16)) (s : State) : Res :=
  match err with
  | none => .next { s with clockStop := true, timeSync := false, errLow := 0 }
  | some e =>
    .next { s with timeErr := e, timeSync := s.timeSync && decide (e.toNat ≤ 50), errLow := if e.toNat ≤ 20 then s.errLow else 0 }

/-- SYNC_REGAIN: the package clock runs and gives an offset; SYNC rises once the offset has been at most 20 ns for 1 ms,
which `errLow` counts from (R411). -/
def execSyncRegain (err : BitVec 16) (s : State) : Res :=
  let s1 := { s with clockStop := false, timeErr := err }
  if 20 < err.toNat then .next { s1 with errLow := 0, timeSync := s.timeSync && decide (err.toNat ≤ 50) }
  else if s.errLow = 0 then .next { s1 with errLow := s.cycle + 1 }
  else .next { s1 with timeSync := s.timeSync || decide (1000000 * Config.cyclesPerNs ≤ s.cycle + 1 - s.errLow) }

/-- Whether some die holds a copy of a remote line whose lease has not ended (R414). -/
def State.hasRemoteCopy (s : State) : Bool := s.dies.any fun d => d.2.rdc.any fun c => isRemote (c.1 * 128) && decide (s.ptime < c.2.rts)

/-- FWINCFG_WRITE: ignored outside 250 to 8,000, and while the device holds a remote copy or a remote write is not
acknowledged (R412, R413). -/
def execFwincfgWrite (v : Word) (s : State) : Res :=
  if v.toNat < 250 ∨ 8000 < v.toNat ∨ s.hasRemoteCopy ∨ s.remotes ≠ [] ∨ s.reqs.any (fun q => q.dev && q.isWrite) then .next s
  else .next { s with winLen := v }

/-- FDEVCFG_WRITE: ignored while a fabric port carries a request or the device holds a remote copy (R412). -/
def execFdevcfgWrite (v : Word) (s : State) : Res :=
  if s.hasRemoteCopy ∨ s.remotes ≠ [] ∨ s.reqs.any (fun q => q.dev && q.stage == .reply) then .next s
  else .next { s with devNo := v.setWidth 12 }

end Sys2Proof.Machine
end

