-- ==== Sys2Proof/Machine/FaultEvents.lean ====
section
/-! DEFINITION. Stops and resumes that other agents bring: the debugger, Sundoc's fault service, Sundoc's resume of a stopped
group, and soft errors (R176, R177, R216, R262, R264, R265, R269, R278). -/

namespace Sys2Proof.Machine

open Sys2Proof

/-! ## The debugger (R176 to R178, R278) -/

/-- The frame of the debugger's target group (R278). -/
def Core.target (c : Core) : Nat := c.dbgctl.toNat / 2 ^ 16 % 64

/-- DBG_HALT: the target group stops, one that stands in the fault service as soon as it would go on; with ALLSTOP every group of its
context on the die stops (R176, R278). -/
def execDbgHalt (k : Nat) (s : State) : Res :=
  let fr := (s.core k).target
  match s.group? k fr with
  | none => .next s
  | some g => .next ((s.haltDebug k fr).allStop k g)

/-- DBG_STEP: the next resume of the target group, whose frame DBGCTL names now, is a single step (R177, R278). -/
def execDbgStep (k : Nat) (s : State) : Res := .next (s.modCore k fun c => { c with stepArmed := insertNat c.stepArmed c.target })

/-! ## Resuming (R265, R269, R278) -/

/-- What a group that is resumed or answered becomes: stopped for the debugger that has halted it, stopped with its launch under trap
mode 2, or to be saved where its team is being pre-empted, else running (R265, R270, R278, R302). -/
def State.runStatus (s : State) (k : Nat) (g : Group) : Status :=
  if g.halted then .debug
  else if (s.launch? g.launch).any (·.stopped) then .gridStop
  else if ((s.core k).team? g.launch).any (·.preempting) then .preempt
  else .running

/-- The group runs again, or stops with its launch or its team. -/
def State.setRunning (s : State) (k fr : Nat) : State :=
  s.modGroup k fr fun g => { g with status := s.runStatus k g, fault := none, drainFault := false, halted := false }

/-- The slices of the split of a fault's slice. -/
def Group.faultMask (g : Group) (r : FaultRec) : BitVec 8 :=
  match (List.finRange 8).find? fun i => i.val == r.slice with | some i => g.splitOf i | none => 0

/-- A group resumed at its fault with a choice of skip, as ERET resumes (R265, R269): a kind H fault that is skipped stops the
group again. -/
def State.resumeFault (s : State) (k fr : Nat) (g : Group) (r : FaultRec) (skip nested hfail : Bool) : State :=
  if skip && r.kind == .H then s.stopFaulted k fr g r nested hfail
  else
    let mask := g.faultMask r
    let s1 := s.modGroup k fr fun g =>
      g.mapSlices mask fun _ sl => { sl with iidx := if r.kind = .P then resumeIdx (some r) skip sl.iidx else sl.iidx }
    (s1.setRunning k fr).resumeLogged k fr mask (some r) skip

/-- A resume of a group whose step is armed starts that step (R177, R278). -/
def State.startStep (s : State) (k fr : Nat) : State :=
  match s.group? k fr with
  | none => s
  | some g => s.modCore k fun c =>
      if c.stepArmed.contains fr then
        { c with stepping := Sparse.put c.stepping fr (g.slices.toList.getD (c.focusLane g / 4) default).idle,
                 stepArmed := c.stepArmed.filter fun x => x != fr }
      else c

/-- Loads that are still logged where a group goes on are replayed (R212). -/
def State.replayLog (s : State) (k fr : Nat) : State :=
  match s.group? k fr with
  | some g => if g.log.isEmpty ∨ g.status ≠ .running then s else s.askReplay k fr
  | none => s

/-- GROUP_RESUME: Sundoc or the debugger resumes a stopped group; `skip` is the SKIP bit that Sundoc chose in the record
(R265, R274, R278). A launch stopped by trap mode 2 goes on. -/
def execGroupResume (k fr : Nat) (skip : Bool) (s : State) : Res :=
  match s.group? k fr with
  | none => .next s
  | some g =>
    let go := fun (t : State) => (t.startStep k fr).replayLog k fr
    let s1 := s.modLaunch g.launch fun l => { l with stopped := false }
    match g.status, g.fault with
    | .faulted nested hfail, some r => .next (go (s1.resumeFault k fr g r skip nested hfail))
    | .faulted _ _, none => .next (go (s1.setRunning k fr))
    | .gridStop, _ => .next (go (s1.setRunning k fr))
    | .debug, some r => .next (go (s.resumeFault k fr g r skip false false))
    | .debug, none => .next (go (s.setRunning k fr))
    | _, _ => .next s

/-! ## The fault service (R216, R264) -/

/-- The answer for a group that waits for the service: it replays or issues again, or its fault is delivered under the trap
mode, as soon as that can be (R264, R212). -/
def State.answerGroup (s : State) (k fr : Nat) (g : Group) (repaired : Bool) : State :=
  match g.status, g.fault with
  | .service, some r =>
    let s1 := s.setRunning k fr
    if repaired then (if r.kind = .L then s1.replayLog k fr else s1)
    else s1.raiseDue k fr ⟨g.faultMask r, r, true⟩
  | _, _ => s

/-- The answer for an engine operation that a translation fault has paused: it goes on, or ends in the error state (R216). -/
def State.answerEngine (s : State) (k idx : Nat) (repaired : Bool) : State :=
  let h := (s.core k).handle idx
  if h.state ≠ .paused then s
  else if repaired then (s.modCore k fun c => c.setHandle idx { h with state := .running, errCause := none, errAddr := 0 }).resumeBack k idx
  else s.failOp k idx h (h.errCause.getD .page) h.errAddr

/-- The answer for paused rack or nest work: repaired, it goes on; else its group takes the fault with kind A and it ends (R225, R258,
R264). -/
def State.answerWork (s : State) (k ticket : Nat) (repaired : Bool) : State :=
  let c := s.core k
  if repaired then
    let go := fun (w : NestWork) => if w.ticket = ticket then { w with why := none } else w
    s.modCore k fun x => { x with rackQ := x.rackQ.map go, nestQ := x.nestQ.map go }
  else
    let async := fun (w : NestWork) => s.modGroup k w.frame fun g => { g with async := g.async ++ [⟨w.why.getD .page, w.bad, 0xFF⟩] }
    match c.rackQ.find? fun w => w.ticket == ticket && w.why.isSome with
    | some w => (async w).endRack k w
    | none =>
      match c.nestQ.find? fun w => w.ticket == ticket && w.why.isSome with
      | some w => (async w).endNest k w
      | none => s

/-- FAULT_SERVICE_ANSWER: a number below 64 is a frame, 64 and more an engine operation's handle slot, 256 and more the number
of rack or nest work (R216, R264). -/
def execFaultServiceAnswer (k fr : Nat) (repaired : Bool) (s : State) : Res :=
  if 256 ≤ fr then .next (s.answerWork k (fr - 256) repaired)
  else if 64 ≤ fr then .next (s.answerEngine k (fr - 64) repaired)
  else
    match s.group? k fr with
    | none => .next s
    | some g => .next (s.answerGroup k fr g repaired)

/-! ## Soft errors (R262, R302) -/

/-- SOFT_ERROR: an uncorrectable error in the state of the splits of a mask raises ECC on them; an empty mask is an error that
is corrected in place and counted by the core (R262, R363). -/
def execSoftError (k fr : Nat) (mask : BitVec 8) (s : State) : Res :=
  if mask = 0 then .next (s.modCore k fun c => { c with corrected := c.corrected + 1 })
  else
    .next (s.modGroup k fr fun g =>
      let m := (slicesOf mask).foldl (fun m i => m ||| g.splitOf i ||| BitVec.ofNat 8 (2 ^ i.val)) 0
      { g with async := g.async ++ [⟨.ecc, 0, m⟩] })

end Sys2Proof.Machine
end

