-- ==== Sys2Proof/Machine/Launch.lean ====
section
/-! DEFINITION. The pass: launch records, queues, placement, retirement and completion (R183, R184, R229, R232, R287 to R291,
R297, R322, R323, R385, R391 to R400). -/

namespace Sys2Proof.Machine

open Sys2Proof

/-! ## Kernel headers (R183, R287, R385, R391) -/

/-- Pool steps of the state region for a pantry count (R182). -/
def stateSteps (p : Nat) : Nat := (64 * (5504 + 128 * p) + 65535) / 65536

/-- Pool steps of scratch bytes (R183). -/
def scratchSteps (n : Nat) : Nat := (n + 65535) / 65536

/-- The cluster shapes of R287, with MAXTEAM. -/
def shapeLegal (w : Word) : Bool :=
  let b := fun (i : Nat) => w.toNat / 2 ^ (8 * i) % 256
  let s := (b 0, b 1, b 2)
  (s == (1, 1, 1) || s == (1, 1, 0) || s == (1, 2, 0) || s == (2, 2, 0)) && decide (1 ≤ b 3 ∧ b 3 ≤ 64)

/-- The limits of the resource floor (R391). -/
def floorLegal (full : Bool) (pantry scalars scratch barriers rack : Nat) (shape : Word) : Bool :=
  full || (decide (pantry ≤ 32 ∧ scalars ≤ 64 ∧ scratch ≤ 262144 ∧ barriers ≤ 8 ∧ rack ≤ 64) && shape.toNat % 2 ^ 16 != 0x0202)

/-- A kernel header that R183, R265, R287, R385 and R391 admit, with its shape overridden where a record does so: then both
shapes are legal (R394). -/
def parseHeader (bs : List Byte) (ovr : Option Word) : Option KHeader :=
  let f := fieldOf bs
  let shape : Word := ovr.getD (BitVec.ofNat 32 (f 0x18 4))
  let scr := scratchSteps (f 0x10 4)
  let l1 := 48 - stateSteps (f 0x0C 1) - scr
  if f 0 4 = 0x314B4857 ∧ f 4 2 = 1 ∧ f 6 2 < 2 ∧ f 8 4 % 8 = 0 ∧ f 0x0C 1 ≤ 64 ∧ 4 ≤ f 0x0D 1 ∧ f 0x0D 1 ≤ 96 ∧ f 0x0E 1 ≤ 16 ∧
      f 0x0F 1 < 2 ∧ f 0x10 4 ≤ 2097152 ∧ 128 ≤ f 0x14 2 ∧ f 0x14 2 ≤ 2944 ∧ f 0x14 2 % 64 = 0 ∧ f 0x16 2 ≤ 128 ∧
      shapeLegal shape ∧ shapeLegal (BitVec.ofNat 32 (f 0x18 4)) ∧ f 0x1C 1 < 3 ∧ f 0x20 4 % 4 = 0 ∧ f 0x24 4 ≤ 65536 ∧ f 0x24 4 % 4 = 0 ∧ f 0x2C 4 ≤ 65536 ∧
      1 ≤ f 0x30 2 ∧ f 0x30 2 ≤ 63 ∧ f 0x32 2 ≤ 1024 ∧ f 0x34 12 = 0 ∧ 2 ≤ l1 ∧ f 0x14 2 ≤ 64 * l1 ∧
      floorLegal (f 0x0F 1 == 1) (f 0x0C 1) (f 0x0D 1) (f 0x10 4) (f 0x0E 1) (f 0x16 2) shape
  then
    some { ragged := f 6 2 == 1, span := f 8 4, pantry := f 0x0C 1, scalars := f 0x0D 1, barriers := f 0x0E 1, full := f 0x0F 1 == 1,
           scratch := f 0x10 4, minL1 := f 0x14 2, rack := f 0x16 2, shape := shape, trapMode := f 0x1C 1, handler := f 0x1D 3,
           constOff := BitVec.ofNat 32 (f 0x20 4), constSize := f 0x24 4, argSig := BitVec.ofNat 32 (f 0x28 4), argSize := f 0x2C 4,
           divDepth := f 0x30 2, callDepth := f 0x32 2 }
  else none

/-! ## Shapes on a die (R288 to R291) -/

def KHeader.maxTeam (h : KHeader) : Nat := h.shape.toNat / 2 ^ 24
def KHeader.oneCore (h : KHeader) : Bool := h.shape.getLsbD 16

/-- Physical cores of a quad: routers stand three by three, cores six by six (R288, R291). -/
def quadCores (q : Nat) : List Nat := let a := 12 * (q / 3) + 2 * (q % 3); [a, a + 1, a + 6, a + 7]

/-- Present cores of a die (R289). -/
def Die.present (d : Die) : List Nat :=
  (List.range Config.coresPerDie).filter fun p => d.healthy.getLsbD p && d.lpct.toList.any fun x => x.toNat == p

/-- The sets of cores that a cluster of a header's shape may take on a die, ranks ascending (R287 to R290). -/
def State.rects (s : State) (die : Nat) (h : KHeader) : List (List Nat) :=
  let d := s.die die
  let key := fun (l : List Nat) => l.map (64 * die + ·)
  if !s.fitted die || d.drained then []
  else if h.oneCore then d.present.map fun p => key [p]
  else
    let w := h.shape.toNat % 256
    let t := h.shape.toNat / 256 % 256
    let starts := (List.range 9).filter fun q => decide (q % 3 + w ≤ 3 ∧ q / 3 + t ≤ 3)
    starts.filterMap fun q =>
      let quads := (List.range t).flatMap fun r => (List.range w).map fun c => q + 3 * r + c
      let cores := quads.map fun x => (quadCores x).filter d.present.contains
      let all := cores.flatten.foldl insertNat []
      if all.isEmpty || (!h.ragged && cores.any fun x => decide (x.length < 4)) then none else some (key all)

/-- Groups of the core of a rank (R291). -/
def dealt (groups n rank : Nat) : List Nat := (List.range groups).filter fun g => g % n == rank

/-- Dies of a mask. -/
def diesOf (m : BitVec 16) : List Nat := (List.range 16).filter m.getLsbD

/-- Whether a placement can exist at all (R290, R291, R394). -/
def State.canExist (s : State) (r : LaunchRec) (h : KHeader) : Bool :=
  (diesOf r.dieMask).any fun d => (s.rects d h).any fun l => decide ((r.groups + l.length - 1) / l.length ≤ h.maxTeam)

/-! ## Launch records (R394) -/

/-- The lowest die of a context's partition, whose pass leads (R392, R395). -/
def State.leadDie (s : State) (ctx : Nat) : Nat := ((List.range 16).find? fun d => (s.ctxField ctx 0x2A 2).testBit d).getD 0

/-- The key under which the pass of a die has its clock: it is no core. -/
def passKey (die : Nat) : Nat := 64 * die + 63

/-- What the check of a record finds. -/
inductive RecCheck where
  | ok (r : LaunchRec) (h : KHeader) (bank : List Byte)
  | refused
  | poison (a : DWord)
  deriving DecidableEq, Repr, Inhabited

/-- Whether a milestone's address serves an access in a context (R394). -/
def State.milestoneOk (s : State) (k ctx : Nat) (priv : Bool) (acc : Acc) (a : Nat) : Bool :=
  a == 0 || (decide (a % 8 = 0) &&
    match s.translate k none ctx priv acc (BitVec.ofNat 64 a) with
    | .ok e => !pteDev e.pte && !ptePrv e.pte
    | .error _ => false)

/-- Whether a clause begins at an address and ends, padded, at another (R40, R43). -/
def State.clauseEndsAt (s : State) (k ctx : Nat) (priv : Bool) (a stop : Nat) : Bool :=
  match s.fetchHeader k ctx priv (BitVec.ofNat 64 a) with
  | .error _ => false
  | .ok (e, lo, hi) =>
    match (decodeHeader lo hi).map fun h => s.fetchClause k ctx priv e (BitVec.ofNat 64 a) h.count.toNat with
    | some (.ok ws) => a + 4 * (2 + ws.length + ws.length % 2) == stop
    | _ => false

/-- Whether a kernel's SPAN ends where the walk of its code steps to a clause header, to a kernel header, or to the end of .text: the start
map tells the first, and the last clause before the end tells the second (R43, R385). -/
def State.spanEnds (s : State) (k ctx : Nat) (priv : Bool) (entry span : Nat) : Bool :=
  let stop := entry + span
  let starts := fun (a : Nat) => match s.startBit k ctx priv (BitVec.ofNat 64 a) with | .ok b => b | .error _ => false
  match s.codeEntry k ctx (BitVec.ofNat 64 entry) with
  | .ok (some e) =>
    decide (stop ≤ e.text + e.len) &&
      (stop == e.text + e.len || starts stop ||
        (((List.range (span / 8)).map fun j => stop - 8 * (j + 1)).find? starts).any fun a => s.clauseEndsAt k ctx priv a stop)
  | _ => false

/-- The header before an entry, and the constant block it names (R35, R385). -/
def State.kernelAt (s : State) (k ctx : Nat) (priv : Bool) (entry : DWord) (ovr : Option Word) : Except (Cause × DWord) (Option (KHeader × List Byte)) :=
  match s.startBit k ctx priv entry with
  | .error x => .error x
  | .ok b =>
    if !b || entry.toNat % 8 != 0 then .ok none
    else
      match s.readV k ctx priv (entry - 64) 64 with
      | .error x => .error x
      | .ok bs =>
        match parseHeader bs ovr with
        | none => .ok none
        | some h =>
          if !s.spanEnds k ctx priv entry.toNat h.span then .ok none else
          match s.readV k ctx priv (entry - 64 + h.constOff.signExtend 64) h.constSize with
          | .error x => .error x
          | .ok bank => .ok (some (h, bank))

/-- Whether a record's entry lies in a code object of its context that is being unloaded (R390). -/
def State.unloading (s : State) (ctx entry : Nat) : Bool := s.unloads.any fun u => u.ctx == ctx && decide (u.lo ≤ entry ∧ entry < u.hi)

/-- A record checked in a context; an object that is being unloaded is entered no more (R390, R394). -/
def State.checkRecord (s : State) (k ctx : Nat) (addr : DWord) (bs : List Byte) : RecCheck :=
  let f := fieldOf bs
  let priv := s.privCtx.contains ctx
  let flags := f 0x17 1
  let ovr : Option Word := if flags / 2 % 2 = 1 then some (BitVec.ofNat 32 (f 0x1C 4)) else none
  let mask := f 0x14 2
  let part := s.ctxField ctx 0x2A 2
  if f 0x10 4 = 0 ∨ mask = 0 ∨ mask &&& part ≠ mask ∨ s.ctxField ctx 0x1E 1 < f 0x16 1 ∨ 4 ≤ flags ∨ f 0x18 4 = 0 ∨ 1024 < f 0x18 4 ∨
      (ovr = none ∧ f 0x1C 4 ≠ 0) ∨ f 0x3C 2 ≠ ctx ∨ f 0x3E 2 ≠ 0 ∨
      s.unloading ctx (f 0 8) ∨ ¬ s.milestoneOk k ctx priv .load (f 0x20 8) ∨ ¬ s.milestoneOk k ctx priv .store (f 0x30 8) then .refused
  else
    match s.kernelAt k ctx priv (BitVec.ofNat 64 (f 0 8)) ovr with
    | .error (.poison, a) => .poison a
    | .error _ => .refused
    | .ok none => .refused
    | .ok (some (h, bank)) =>
      let r : LaunchRec :=
        { entry := BitVec.ofNat 64 (f 0 8), args := BitVec.ofNat 64 (f 8 8), clusters := f 0x10 4, dieMask := BitVec.ofNat 16 mask,
          prio := f 0x16 1, intr := decide (flags % 2 = 1), shapeOvr := ovr, groups := f 0x18 4, waitAddr := BitVec.ofNat 64 (f 0x20 8),
          waitVal := BitVec.ofNat 64 (f 0x28 8), doneAddr := BitVec.ofNat 64 (f 0x30 8), doneInc := BitVec.ofNat 32 (f 0x38 4),
          ctx := ctx, addr := addr }
      if s.canExist r h then .ok r h bank else .refused

/-- A record accepted: a launch with nothing placed (R395, R396). -/
def State.acceptLaunch (s : State) (r : LaunchRec) (h : KHeader) (bank : List Byte) (w : Nat) : State :=
  { s with
    launches := s.launches ++ [{ id := s.nextLaunch, record := r, hdr := h, w := w, next := 0, live := 0, lead := s.leadDie r.ctx,
                                 maxClock := 0, stopped := false, bank := bank }],
    nextLaunch := s.nextLaunch + 1 }

/-- The wait milestone of a record read by its pass: the state, whether it is met, its wts, and the end of the lease; a record
without one has it met (R395). -/
def State.passCounter (s : State) (die : Nat) (r : LaunchRec) : Except (Cause × DWord) (State × Bool × Nat × Nat) :=
  let k := passKey die
  if r.waitAddr = 0 then .ok (s, true, 0, 0) else
  match s.readCounter k r.ctx (s.privCtx.contains r.ctx) r.waitAddr (s.ctxField r.ctx 0x1C 2) (s.core k).clock with
  | .error x => .error x
  | .ok (s1, v, wts, lease) => .ok (s1.raiseClock k wts, decide (r.waitVal.toNat ≤ v), wts, lease)

/-! ## Queues (R393 to R395) -/

/-- Bytes written by the pass in a context (R395). -/
def State.passWrite (s : State) (die ctx a : Nat) (bs : List Byte) : State :=
  (s.storeV (passKey die) ctx (s.privCtx.contains ctx) (BitVec.ofNat 64 a) bs (bs.length + 1)).1

/-- A queue's descriptor address. -/
def State.queueAddr (s : State) (ctx q : Nat) : Nat := s.ctxField ctx 0x20 8 + 32 * q

/-- A queue stopped with a reason, and Sundoc told; a refused record is LAUNCHERR (R394, R395). -/
def State.stopQueue (s : State) (ctx q reason : Nat) (rec' : DWord) : State :=
  let s1 := (s.passWrite (s.leadDie ctx) ctx (s.queueAddr ctx q + 0x0C) (leBytes 4 (1 + 256 * reason))).tell (.queueStop ctx q reason rec')
  if reason = 1 then s1.tell (.launchErr rec') else s1

/-- A queue's record accepted: HEAD passes it (R395). The next record is taken by a QUEUE_TAIL_UPDATE of its own. -/
def State.acceptQueue (s : State) (ctx q h : Nat) (r : LaunchRec) (hdr : KHeader) (bank : List Byte) (w : Nat) : State :=
  (s.acceptLaunch r hdr bank w).passWrite (s.leadDie ctx) ctx (s.queueAddr ctx q + 0x18) (leBytes 8 (h + 1))

/-- The wts of a word as the pass reads it. -/
def State.wtsAt (s : State) (k ctx : Nat) (a : DWord) : Nat :=
  match s.translate k none ctx (s.privCtx.contains ctx) .load a with
  | .ok e => if s.hostLine (e.pa a) then s.hostmark else (s.lineTs (lineOf (e.pa a))).wts
  | .error _ => 0

/-- The TLBs after a record and the header before its entry have been read (R374, R394). -/
def State.noteRecord (s : State) (k ctx : Nat) (a : DWord) (bs : List Byte) : State :=
  (s.notePages k ctx a 64).notePages k ctx (BitVec.ofNat 64 (fieldOf bs 0 8) - 64) 64

/-- QUEUE_TAIL_UPDATE: the pass takes the record at HEAD of a served queue (R393 to R395). -/
def execQueueTailUpdate (ctx q : Nat) (s : State) : Res :=
  let die := s.leadDie ctx
  let k := passKey die
  let priv := s.privCtx.contains ctx
  if 16 ≤ q ∨ ¬ (s.ctxField ctx 0x28 2).testBit q ∨ s.passRecs.any fun p => p.record.ctx == ctx && (p.queue.map (·.1)) == some q then .next s
  else
    match s.readV k ctx priv (BitVec.ofNat 64 (s.queueAddr ctx q)) 32 with
    | .error _ => .next s
    | .ok d =>
      let base := fieldOf d 0 8
      let size := fieldOf d 8 4
      let tail := fieldOf d 0x10 8
      let head := fieldOf d 0x18 8
      let wTail := s.wtsAt k ctx (BitVec.ofNat 64 (s.queueAddr ctx q + 0x10))
      if fieldOf d 0x0C 1 ≠ 0 ∨ tail ≤ head then .next s
      else
        let addr : DWord := BitVec.ofNat 64 (base + 64 * (head % size))
        if size < tail - head then .next (s.stopQueue ctx q 2 addr)
        else
          match s.readV k ctx priv addr 64 with
          | .error _ => .next (s.stopQueue ctx q 1 addr)
          | .ok bs =>
            let s := (s.notePages k ctx (BitVec.ofNat 64 (s.queueAddr ctx q)) 32).noteRecord k ctx addr bs
            match s.checkRecord k ctx addr bs with
            | .ok r h bank =>
              if r.waitAddr = 0 then .next (s.acceptQueue ctx q head r h bank wTail)
              else
                match s.passCounter die r with
                | .error _ => .next (s.stopQueue ctx q 3 addr)
                | .ok (s1, true, wts, _) => .next (s1.acceptQueue ctx q head r h bank (Nat.max wTail wts))
                | .ok (s1, false, _, lease) =>
                  .next { s1 with passRecs := s1.passRecs ++ [⟨s1.nextRec, r, h, die, some (q, head), wTail, lease, none⟩], nextRec := s1.nextRec + 1 }
            | _ => .next (s.stopQueue ctx q 1 addr)

/-- Whether a record handed over by the same group before waits still: launches from one group are accepted in issue order
(R400). -/
def State.passHeld (s : State) (id : Nat) (src : Option (Nat × Nat × Nat)) : Bool :=
  src.isSome && s.passRecs.any fun q => q.src == src && decide (q.id < id)

/-- Program launches that the pass of a die takes before a record: it holds 256 of them, and a later one is still to be handed over (R400). -/
def State.passBefore (s : State) (die id : Nat) : Nat :=
  (s.passRecs.filter fun q => q.queue.isNone && q.die == die && decide (q.id < id)).length

/-- PASS_MILESTONE_REREAD: a record that waits for its milestone is accepted, or dropped where the counter can no longer be
read; one whose entry lies in an object that is to be unloaded is refused; one that waits behind its group's earlier records is taken after
them. The counter is read again once the lease of the last read has lapsed (R390, R395, R400). DESIGN CHOICE: R35 does not say when
the constant bank is filled; the model reads the constant block when it checks the record and again when the milestone is met,
and a block that cannot be read then gives a bank of zeros (log entry 20). -/
def execPassMilestoneReread (id : Nat) (s : State) : Res :=
  match s.passRecs.find? fun p => p.id == id with
  | none => .next s
  | some p =>
    let drop := fun (t : State) => { t with passRecs := t.passRecs.filter fun x => x.id != id }
    if s.unloading p.record.ctx p.record.entry.toNat then
      match p.queue with
      | some (q, _) => .next ((drop s).stopQueue p.record.ctx q 1 p.record.addr)
      | none => .next ((drop s).tell (.launchErr p.record.addr))
    else if s.passHeld id p.src ∨ (p.queue.isNone ∧ 256 ≤ s.passBefore p.die id) ∨
        ((s.core (passKey p.die)).clock ≤ p.lease ∧ p.lease ≠ 0) then .next s else
    match s.passCounter p.die p.record with
    | .error _ =>
      match p.queue with
      | some (q, _) => .next ((drop s).stopQueue p.record.ctx q 3 p.record.addr)
      | none => .next ((drop s).tell (.launchErr p.record.addr))
    | .ok (s1, false, _, lease) =>
      .next { s1 with passRecs := s1.passRecs.map fun x => if x.id = id then { x with lease := lease } else x }
    | .ok (s1, true, wts, _) =>
      let bank := match s1.kernelAt (passKey p.die) p.record.ctx (s1.privCtx.contains p.record.ctx) p.record.entry p.record.shapeOvr with
        | .ok (some (_, b)) => b
        | _ => []
      match p.queue with
      | some (q, h) => .next ((drop s1).acceptQueue p.record.ctx q h p.record p.hdr bank (Nat.max p.w wts))
      | none => .next ((drop s1).acceptLaunch p.record p.hdr bank (Nat.max p.w wts))

/-- QUEUE_STATUS_CLEAR: Sundoc clears a stopped queue's STATUS; a QUEUE_TAIL_UPDATE then goes on at HEAD (R394). DESIGN CHOICE: the request
to unload a code object, for which the spec has no event of its own, and its end come to the pass by this row too (R390, log entry 90). -/
def execQueueStatusClear (ctx : Nat) (act : PassAct) (s : State) : Res :=
  match act with
  | .clear q =>
    if 16 ≤ q ∨ ¬ (s.ctxField ctx 0x28 2).testBit q then .next s
    else .next (s.passWrite (s.leadDie ctx) ctx (s.queueAddr ctx q + 0x0C) (leBytes 4 0))
  | .unload lo hi => .next { s with unloads := s.unloads ++ [⟨ctx, lo, hi⟩] }
  | .unloaded lo hi => .next { s with unloads := s.unloads.filter fun u => u != ⟨ctx, lo, hi⟩ }

/-! ## LAUNCH (R400) -/

/-- The hand-over of a checked record to the lead pass; it waits behind its group's earlier ones (R395, R400). -/
def State.handOver (s : State) (g : Group) (r : LaunchRec) (h : KHeader) (bank : List Byte) (wl : Nat) : State :=
  let die := s.leadDie g.ctx
  let src := some (g.launch, g.cluster, g.index)
  let wait := fun (t : State) (lease : Nat) =>
    { t with passRecs := t.passRecs ++ [(⟨t.nextRec, r, h, die, none, wl, lease, src⟩ : PassRec)], nextRec := t.nextRec + 1 }
  if s.passHeld s.nextRec src then wait s 0
  else
    match s.passCounter die r with
    | .error _ => s.tell (.launchErr r.addr)
    | .ok (s1, true, wts, _) => s1.acceptLaunch r h bank (Nat.max wl wts)
    | .ok (s1, false, _, lease) => wait s1 lease

/-- LAUNCH: its address is read at issue; a release at package scope, then the record is checked and handed over. One that has passed its
checks and finds 256 program launches at the pass waits, its record's number with it, until one of them is gone (R214, R394, R400). -/
def execLaunch (f : YFields) (s : State) : Res :=
  s.latchGate (.launch f) fun g =>
    let k := s.iss.core
    let a := s.latchedPair 0 (g.yPair f 0)
    let wait := fun (t : State) => Host.Outcome.next (t.waitLatched (.launch f) [a.toNat])
    match s.iss.kept with
    | [_, id] =>
      if 256 ≤ s.passBefore (s.leadDie g.ctx) id ∧ s.passRecs.any (fun p => p.id == id) then .next (s.waitLatched (.launch f) [a.toNat, id])
      else .next s.advance
    | _ =>
    match s.yFault g .load a 64 64 with
    | some x => .next (s.faultAccess g (spanPages a 64) x)
    | none =>
      if s.earlierWrites k s.iss.frame (g.seq + 1) ∨ (s.backsOut k s.nextOp ∧ (s.core k).dirtyLeased.isEmpty) then wait s
      else if ¬ (s.core k).dirtyLeased.isEmpty then wait (s.startBacks k s.iss.frame g.seq s.iss.mask s.iss.pc)
      else
        let s0 := s.releaseDone k s.iss.frame
        match s0.readV k g.ctx g.priv a 64 with
        | .error x => .next (s0.faultHere x.1 x.2)
        | .ok bs =>
          let s1 := s0.noteRecord k g.ctx a bs
          match s1.checkRecord k g.ctx a bs with
          | .poison x => .next (s1.faultHere .poison x)
          | .refused => .next (s1.faultHere .launchErr a)
          | .ok r h bank =>
            let id := s1.nextRec
            let t := s1.handOver g r h bank (s1.core k).clock
            if t.nextRec ≠ id ∧ 256 ≤ t.passBefore (s1.leadDie g.ctx) id then .next (t.waitLatched (.launch f) [a.toNat, id])
            else .next t.advance

/-! ## Placement (R183, R184, R232, R396) -/

/-- The lowest free run of `n` places below a bound, among taken runs by start and length. DESIGN CHOICE: R184 and R232 do not say
which free run is taken; the model takes the lowest (log entry 29). -/
def freeRun (bound n : Nat) (taken : List (Nat × Nat)) : Option Nat :=
  (List.range (bound + 1 - n)).find? fun b => decide (b + n ≤ bound) && !taken.any fun t => decide (b < t.1 + t.2 ∧ t.1 < b + n)

/-- Where a core admits a team of a header with `n` groups: its carve, its scratch window's first byte, its rack window's
first slot (R183, R184, R232). DESIGN CHOICE: a core whose groups have all retired but whose team has not left yet does not
count as empty, so its carve stands (log entry 30). -/
def Core.admits (c : Core) (launch : Nat) (h : KHeader) (n : Nat) : Option (Vector (BitVec 8) 4 × Nat × Nat) :=
  let steps := scratchSteps h.scratch
  let empty := c.frames.isEmpty && c.teams.isEmpty
  let carve : Vector (BitVec 8) 4 :=
    if empty then #v[BitVec.ofNat 8 h.pantry, BitVec.ofNat 8 (stateSteps h.pantry), BitVec.ofNat 8 steps,
      BitVec.ofNat 8 (48 - stateSteps h.pantry - steps)] else c.carve
  let get := fun (i : Nat) => (carve.toList.getD i 0).toNat
  let scr := freeRun (get 2) steps (c.teams.map fun t => (t.scratchBase / 65536, scratchSteps t.scratchLen))
  let rack := freeRun 128 h.rack (c.teams.map fun t => (t.rackBase, t.rackLen))
  if (c.team? launch).isSome || c.retired || decide (get 0 < h.pantry) || decide (64 * get 3 < h.minL1) || decide (64 < c.frames.length + n) then none
  else
    match scr, rack with
    | some a, some b => some (carve, 65536 * a, b)
    | _, _ => none

/-- Whether a launch needs no new die-barrier block on a die, or one is free there (R322). -/
def State.blockRoom (s : State) (l : Launch) (die : Nat) : Bool :=
  l.hdr.barriers == 0 || ((s.die die).blocks.any fun b => b.launch == l.id) || decide ((s.die die).blocks.length < 64)

/-- Whether the bring-up of the package is complete: the harvest mode of every fitted die has been set (R366). -/
def State.broughtUp (s : State) : Bool := (List.range 16).all fun d => !s.fitted d || (s.die d).modeSet

/-- Whether a cluster of a launch can be placed on cores now (R184, R291, R322, R366). -/
def State.fits (s : State) (l : Launch) (cores : List Nat) : Bool :=
  let n := cores.length
  let die := dieOf (cores.headD 0)
  s.broughtUp &&
  decide ((l.record.groups + n - 1) / n ≤ l.hdr.maxTeam) &&
    s.blockRoom l die &&
    ((List.range n).all fun r => ((s.core (cores.getD r 0)).admits l.id l.hdr (dealt l.record.groups n r).length).isSome)

/-- Whether a launch has a cluster that could be placed now. -/
def State.placeable (s : State) (l : Launch) : Bool :=
  !l.stopped && decide (l.next < l.record.clusters) && (diesOf l.record.dieMask).any fun d => (s.rects d l.hdr).any (s.fits l)

/-- Whether a launch of the same pass comes first: of higher priority, or accepted earlier (R396). -/
def Launch.before (a b : Launch) : Bool :=
  a.lead == b.lead && (decide (b.record.prio < a.record.prio) || (a.record.prio == b.record.prio && decide (a.id < b.id)))

/-- The lowest free frame of a core (R190). -/
def Core.freeFrame (c : Core) : Nat := ((List.range 64).find? fun f => (Sparse.get? c.frames f).isNone).getD 0

/-- A group at its start (R15, R18, R19, R22, R28, R151). -/
def Launch.group (l : Launch) (priv : Bool) (cluster index placedAt : Nat) (csp : DWord) : Group :=
  let r := l.record
  let sc := (((((Vector.replicate 96 (0 : Word)).setIfInBounds 0 r.args.lo).setIfInBounds 1 r.args.hi).setIfInBounds 2
    (BitVec.ofNat 32 index)).setIfInBounds 3 (BitVec.ofNat 32 cluster))
  { lanes := Vector.replicate 32 Lane.start, slices := Vector.replicate 8 (Slice.start r.entry), scalars := sc,
    sseq := Vector.replicate 96 0, flags := Vector.replicate 12 0, clear := BitVec.allOnes 12, div := [], laneRecs := [], sliceRecs := [], recHeld := [], traps := [], replay := false, sPoison := [], csp := csp, actBank := 0,
    log := [], rdmax := 0, ackmax := 0, engMax := 0, engDone := [], seq := 0, status := .running, fault := none, drainFault := false,
    async := [], due := [], waits := [], launch := l.id, cluster := cluster, index := index, ctx := r.ctx, priv := priv, hdr := l.hdr,
    placedAt := placedAt, fabWin := none, hostSt := false, halted := false }

/-- One group into the lowest free frame of its core, whose held translations go (R188, R190, R291). DESIGN CHOICE: R193 orders
groups by their placement; of groups placed in one cycle the one in the lower frame counts as the older (log entry 28). -/
def State.placeGroup (s : State) (k : Nat) (l : Launch) (cluster index : Nat) (csp : DWord) : State :=
  let f := (s.core k).freeFrame
  (s.clearXlate k f).setGroup k f (l.group (s.privCtx.contains l.record.ctx) cluster index (s.cycle * 64 + f) csp)

/-- One team onto its core: clock, lease, carve and windows, the rack window cleared, then its groups (R183, R184, R232,
R294, R392, R396). -/
def State.placeTeam (s : State) (l : Launch) (a : PlaceArgs) (rank : Nat) : State :=
  let k := a.cores.getD rank 0
  let mine := dealt l.record.groups a.cores.length rank
  match (s.core k).admits l.id l.hdr mine.length with
  | none => s
  | some (carve, scr, rack) =>
    let t : Team :=
      { launch := l.id, cluster := l.next, rank := rank, peers := a.cores, scratchBase := scr, scratchLen := l.hdr.scratch,
        rackBase := rack, rackLen := l.hdr.rack, bars := Vector.replicate 16 0, cbars := Vector.replicate 16 0, cclk := Vector.replicate 16 0,
        prio := l.record.prio, promo := 0, starved := 0, started := false, coreRec := a.recs.cores.getD rank 0, grpRecs := a.recs.groups.getD rank [],
        groups := mine.length, live := mine.length, preempting := false }
    let s1 := s.modCore k fun c =>
      { c with clock := Nat.max c.clock l.w, carve := carve, l1 := if carve = c.carve then c.l1 else [], diesel := if c.frames.isEmpty && c.teams.isEmpty then dieOf k else c.diesel, teams := c.teams ++ [t],
               leases := Sparse.put c.leases l.record.ctx (s.ctxField l.record.ctx 0x1C 2),
               rack := c.rack.filter fun p => !(decide (4096 * rack ≤ p.1 ∧ p.1 < 4096 * (rack + l.hdr.rack))),
               rackPoison := c.rackPoison.filter fun p => !(decide (4096 * rack ≤ p ∧ p < 4096 * (rack + l.hdr.rack))),
               claims := c.claims.filter fun p => !(decide (rack ≤ p.1 ∧ p.1 < rack + l.hdr.rack)) }
    mine.foldl (fun (t : State) g => t.placeGroup k l l.next g (a.callStacks.getD g 0)) s1

/-- A die-barrier block for a launch on a die: the one that its save area holds, or a new one (R322, R323). -/
def State.takeBlock (s : State) (l : Launch) (die : Nat) (area : DWord) : State :=
  if l.hdr.barriers = 0 ∨ (s.die die).blocks.any fun b => b.launch == l.id then s
  else
    let b : DieBlock := match s.dieSaves.find? fun p => p.die == die && p.launch == l.id with
      | some p =>
        let r := s.recBytes (passKey die) l.record.ctx p.area 64
        ⟨l.id, Vector.ofFn fun i => BitVec.ofNat 32 (fieldOf r (4 * i.val) 4), fieldOf r 0x20 8, Vector.replicate 8 (fieldOf r 0x20 8), p.area⟩
      | none => ⟨l.id, Vector.replicate 8 0, 0, Vector.replicate 8 0, area⟩
    { (s.modDie die fun d => { d with blocks := d.blocks ++ [b] }) with dieSaves := s.dieSaves.filter fun p => !(p.die == die && p.launch == l.id) }

/-- CLUSTER_PLACE: the next cluster of a launch on cores that its shape and its needs admit, where no launch that comes first
could be placed (R288 to R291, R396). -/
def execClusterPlace (a : PlaceArgs) (s : State) : Res :=
  match s.launch? a.launch with
  | none => .next s
  | some l =>
    let die := dieOf (a.cores.headD 0)
    if l.stopped || decide (l.record.clusters ≤ l.next) || !l.record.dieMask.getLsbD die || !(s.rects die l.hdr).contains a.cores ||
        !s.fits l a.cores || s.launches.any (fun m => m.before l && s.placeable m) then .next s
    else
      let s1 := s.takeBlock l die a.area
      let s2 := (List.range a.cores.length).foldl (fun (t : State) r => t.placeTeam l a r) s1
      .next (s2.modLaunch l.id fun m =>
        { m with next := m.next + 1, live := m.live + m.record.groups })

/-! ## Retirement (R27, R229, R233, R297, R397) -/

/-- Matrix, rack and nest work of a group in flight. -/
def Core.workOf (c : Core) (fr : Nat) : Bool :=
  c.sections.toList.any (fun x => x.queue.any fun w => w.frame == fr) || c.rackQ.any (fun w => w.frame == fr) || c.nestQ.any fun w => w.frame == fr

/-- Claims, sections, failed handles and the frame of a group given up (R233, R235, R237). -/
def Core.dropGroup (c : Core) (fr : Nat) : Core :=
  { c with frames := Sparse.erase c.frames fr, claims := c.claims.filter (fun p => p.2 != fr),
           sections := c.sections.map (fun x =>
             let y := if x.owner = some fr then { x with owner := none, b := none, cb := none } else x
             { y with queue := y.queue.filter fun w => w.frame != fr }),
           handles := c.handles.map fun p => if p.2.owner = fr ∧ p.2.state ≠ .free then (p.1, HandleSlot.free (p.2.gen + 1)) else p,
           actWaits := c.actWaits.filter (fun x => x.frame != fr), stepArmed := c.stepArmed.filter (fun x => x != fr),
           stepping := Sparse.erase c.stepping fr }

/-- Barriers of a launch that a retirement completes (R297). -/
def State.barRetire (s : State) (k launch n : Nat) : State :=
  (List.range n).foldl (fun (t : State) id => ((t.barComplete k launch 1 id).barComplete k launch 2 id).barComplete k launch 3 id) s

/-- Write-backs of the ranges of a team that are still mapped, in any mode; the ranges are withdrawn (R229). -/
def State.unmapTeam (s : State) (k launch : Nat) : State :=
  let c := s.core k
  let ms := c.maps.filter fun m => m.launch == launch
  let op := s.nextOp
  let s1 := (ms.flatMap fun m => (c.snapshot m 0).map fun w => (m, w)).foldl (fun (t : State) p =>
    (t.modCore k fun c => c.setStatus p.2 (c.status p.2 &&& 1)).send
      { Req.blank t default 32 with
        op := op, kind := .store, core := k, frame := 64, seq := 0, ctx := p.1.ctx, va := c.globalOf p.1 (4 * p.2), size := 4,
        stage := .walk, src := some (4 * p.2), wb := some launch, clk := c.clock, mask := 0, peer := k, sdgen := c.sdgen }) s
  ms.foldl (fun (t : State) m => t.dropMap k m) { s1 with nextOp := op + 1 }

/-- GROUP_RETIRE: every lane has exited, and every store, atomic and engine operation of the group is acknowledged, its
matrix, rack and nest work done (R27, R397). -/
def execGroupRetire (k fr : Nat) (s : State) : Res :=
  match s.group? k fr with
  | none => .next s
  | some g =>
    let c := s.core k
    let busy := s.reqs.any (fun q => q.core == k && q.frame == fr && q.isWrite) ||
      c.handles.any (fun h => h.2.owner == fr && (h.2.state == .running || h.2.state == .paused)) || c.workOf fr
    if g.liveSlices ≠ [] ∨ g.status ≠ .running ∨ busy then .next s
    else
      let s1 := { s with reqs := s.reqs.filter fun q => !(q.core == k && q.frame == fr) }
      let s2 := s1.modCore k fun c => (c.dropGroup fr).modTeam g.launch fun t => { t with live := t.live - 1 }
      let s3 := s2.modLaunch g.launch fun l => { l with live := l.live - 1, maxClock := Nat.max (Nat.max l.maxClock c.clock) (Nat.max g.ackmax g.rdmax) }
      let s4 := s3.barRetire k g.launch g.hdr.barriers
      .next (if s4.liveOn k g.launch = 0 then s4.unmapTeam k g.launch else s4)

/-- The image of a die-barrier block of a die (R323). -/
def DieBlock.bytes (b : DieBlock) (die : Nat) : List Byte :=
  b.words.toList.flatMap (fun w => leBytes 4 w.toNat) ++ leBytes 8 b.clock ++ [byteOf die] ++ zeros 23

/-- A launch's die-barrier block written to its save area and freed when no team of it is left on a die (R323). -/
def State.saveBlock (s : State) (die launch : Nat) : State :=
  if s.cores.any fun p => dieOf p.1 == die && (p.2.team? launch).isSome then s
  else
    match (s.die die).blocks.find? fun b => b.launch == launch with
    | none => s
    | some b =>
      let ctx := ((s.launch? launch).map fun l => l.record.ctx).getD 0
      let s1 := s.storeRec (passKey die) ctx b.area [(0, b.bytes die)]
      { (s1.modDie die fun d => { d with blocks := d.blocks.filter fun b => b.launch != launch }) with
        dieSaves := s1.dieSaves ++ [⟨die, launch, b.area⟩] }

/-- A team removed from its core. -/
def Core.dropTeam (c : Core) (launch : Nat) : Core := { c with teams := c.teams.filter fun t => t.launch != launch }

/-- TEAM_LEAVE: the last group of its cluster has retired, so that nobody reaches its window or its barrier words any more, and
the write-backs of its ranges are acknowledged (R185, R229, R294, R323, R397). -/
def execTeamLeave (k launch : Nat) (s : State) : Res :=
  match (s.core k).team? launch with
  | none => .next s
  | some t =>
    let cluster := t.peers.any fun p => decide (0 < s.liveOn p launch)
    let backs := s.reqs.any fun q => q.core == k && q.frame == 64 && q.wb == some launch
    if 0 < t.live ∨ cluster ∨ backs ∨ t.preempting then .next s
    else
      let s1 := (s.modCore k fun c => c.dropTeam launch).modLaunch launch fun l =>
        { l with maxClock := Nat.max l.maxClock (s.core k).clock }
      .next (s1.saveBlock (dieOf k) launch)

/-! ## Completion (R397) -/

/-- The done increment at its home, with the lead pass's clock; where it meets PAGE, PROT or POISON nothing is added and
Sundoc is told (R397). -/
def State.doneIncrement (s : State) (l : Launch) : State :=
  let k := passKey l.lead
  let a := l.record.doneAddr
  if a = 0 then s
  else
    match s.translate k none l.record.ctx (s.privCtx.contains l.record.ctx) .store a with
    | .error c => (s.noteWalk k none l.record.ctx a).tell (.launchFault l.id c l.record.addr)
    | .ok e =>
      let s := s.noteTlb k e
      let pa := e.pa a
      if pteDev e.pte then s.tell (.launchFault l.id .prot l.record.addr)
      else if s.poisoned pa 8 then s.tell (.launchFault l.id .poison l.record.addr)
      else
        let v := (leNat (s.phys pa 8) + l.record.doneInc.toNat) % 2 ^ 64
        (s.writeHome k pa (leBytes 8 v) (s.core k).clock (e.tracked pa) (pteComp e.pte)).1

/-- LAUNCH_COMPLETE: the last group has retired and every team has left its core: the lead pass raises its clock, adds to the
done milestone, and interrupts the host (R397). -/
def execLaunchComplete (id : Nat) (s : State) : Res :=
  match s.launch? id with
  | none => .next s
  | some l =>
    if l.next ≠ l.record.clusters ∨ l.live ≠ 0 ∨ l.stopped ∨ s.cores.any (fun p => (p.2.team? id).isSome) ∨
        s.saved.any (fun v => v.launch == id) then .next s
    else
      let s1 := s.raiseClock (passKey l.lead) l.maxClock
      let s2 := s1.doneIncrement l
      .next { s2 with launches := s2.launches.filter fun m => m.id != id, dieSaves := s2.dieSaves.filter (fun p => p.launch != id),
                      interrupts := if l.record.intr then s2.interrupts ++ [id] else s2.interrupts }

/-- Everything that a launch holds on a core given up. -/
def Core.dropLaunch (c : Core) (launch : Nat) : Core :=
  let fs := (c.frames.filter fun p => p.2.launch == launch).map (·.1)
  let c1 := fs.foldl (fun (c : Core) f => c.dropGroup f) c
  { c1.dropTeam launch with maps := c1.maps.filter (fun m => m.launch != launch),
                            locks := c1.locks.filter (fun l => !(fs.contains (l.owner - 0x80) && decide (0x80 ≤ l.owner))),
                            nestQ := c1.nestQ.filter (fun w => !fs.contains w.frame),
                            rackQ := c1.rackQ.filter (fun w => !fs.contains w.frame),
                            slots := c1.slots.map fun x => match x.hold with
                              | some h => if fs.contains h.frame then { x with hold := none } else x
                              | none => x }

/-- Whether a lock belongs to an engine operation of a launch. -/
def State.lockOf (s : State) (launch : Nat) (l : RangeLock) : Bool :=
  decide (l.owner < 0x80) && ((s.core l.core).handle l.owner).launch == launch && ((s.core l.core).handle l.owner).state != .free

/-- The locks of a launch's engine operations released on every core. -/
def State.dropEngineLocks (s : State) (launch : Nat) : State :=
  { s with cores := s.cores.map fun (p : Nat × Core) => (p.1, { p.2 with locks := p.2.locks.filter fun l => !s.lockOf launch l }) }

/-- Records of the groups of a launch that are still to be handed over: a LAUNCH that ends with its group hands none over (R265, R400). -/
def State.dropUnhanded (s : State) (id : Nat) : State :=
  { s with passRecs := s.passRecs.filter fun p => !(p.src.any (fun x => x.1 == id) && decide (256 ≤ s.passBefore p.die p.id)) }

/-- END_LAUNCH: Sundoc ends a launch that a fault has stopped; its frames are free, nothing is added to its done milestone
(R265). Its outstanding stores, atomics and engine operations end first. -/
def execEndLaunch (id : Nat) (s : State) : Res :=
  match s.launch? id with
  | none => .next s
  | some l =>
    let mine := fun (k fr : Nat) => match s.group? k fr with | some g => g.launch == id | none => false
    let faulted := l.stopped || s.cores.any fun p => p.2.frames.any fun f => f.2.launch == id &&
      (match f.2.status with | .faulted _ _ => true | .gridStop => true | _ => false)
    let busy := s.reqs.any (fun q => mine q.core q.frame && q.isWrite) ||
      s.cores.any fun p => p.2.handles.any fun h => h.2.launch == id && h.2.state == .running
    if !faulted || busy then .next s
    else
      let dropDie := fun (d : Die) => { d with blocks := d.blocks.filter (fun b => b.launch != id), subs := d.subs.filter fun u => u.2.launch != id }
      let s0 := (s.dropUnhanded id).dropEngineLocks id
      let s1 := { s0 with reqs := s.reqs.filter (fun q => !mine q.core q.frame),
                          cores := s0.cores.map fun (p : Nat × Core) => (p.1, p.2.dropLaunch id),
                          dies := s.dies.map fun (p : Nat × Die) => (p.1, dropDie p.2) }
      .next { s1 with launches := s1.launches.filter (fun m => m.id != id), saved := s1.saved.filter (fun v => v.launch != id),
                      dieSaves := s1.dieSaves.filter fun p => p.launch != id }

end Sys2Proof.Machine
end

