-- ==== Sys2Proof/Machine/Package.lean ====
section
/-! DEFINITION. Steps of the package and of its host: rebasing, shoot-downs, connections and streams, spares and errors, harvest,
power, resets, bias flips, host accesses, migration, and writes to BAR0 (R302, R310 to R315, R325, R337, R347 to R349, R355 to
R367, R373 to R381, R410, R412). -/

namespace Sys2Proof.Machine

open Sys2Proof

/-! ## Every core of the package -/

/-- Fitted dies. -/
def State.fittedDies (s : State) : List Nat := (List.range 16).filter s.fitted

/-- Keys of every core of a fitted die, and of the clock of its pass. -/
def State.everyCore (s : State) : List Nat :=
  s.fittedDies.flatMap fun d => (List.range Config.coresPerDie).map (64 * d + ·) ++ [64 * d + 63]

/-- Every core's clock raised (R349, R380). -/
def State.raiseAll (s : State) (v : Nat) : State := s.everyCore.foldl (fun (t : State) k => t.raiseClock k v) s

/-- The highest clock of the package (R337, R367). -/
def State.topClock (s : State) : Nat := (s.everyCore.map fun k => (s.core k).clock).foldl Nat.max 0

/-! ## REBASE (R337) -/

/-- Stored timestamps of a die read as no less than a base; L1 and remote copies keep theirs and lapse (R337). -/
def Die.rebase (b : Nat) (d : Die) : Die := { d with evw := d.evw.map (Nat.max b), evr := d.evr.map (Nat.max b) }

/-- REBASE: once a clock has reached B + 2^31, every clock rises to B + 2^30 at least, and B, the epoch and REBASES move on
(R337). -/
def execRebase (s : State) : Res :=
  if s.topClock < s.base + 2 ^ 31 then .next s
  else
    let b := s.base + 2 ^ 30
    let s1 := s.raiseAll b
    let s2 := s1.fittedDies.foldl (fun (t : State) d => t.modDie d (Die.rebase b)) s1
    .next { s2 with base := b, epoch := s2.epoch + 1, rebases := s2.rebases + 1,
                    lines := s2.lines.map fun p => (p.1, { p.2 with wts := Nat.max b p.2.wts, rts := Nat.max b p.2.rts }) }

/-! ## Shoot-downs (R374 to R376) -/

/-- Address bits within the page of a KIND; 52 stands for every page of the context (R375). -/
def sweepBits (kind : Nat) : Nat := match kind with | 0 => 16 | 1 => 28 | 2 => 40 | _ => 64

/-- Whether a translation or an access of a context at an address is swept, by the size of the page that covers it. -/
def Shoot.hits (x : Shoot) (ctx va bits : Nat) : Bool :=
  let n := 2 ^ Nat.max bits (sweepBits x.kind)
  ctx == x.ctx && va / n == x.va.toNat / n

/-- Whether a held translation is swept. -/
def Shoot.entry (x : Shoot) (e : TlbEntry) : Bool := x.hits e.ctx (e.vpage * pageBytes e.level) (52 - 12 * e.level)

/-- Accesses in flight that were translated through a translation that is swept (R376). -/
def Shoot.waitsFor (x : Shoot) (r : Req) : Bool :=
  r.global && r.stage != .walk && r.stage != .logged && r.stage != .asleep && r.kind != .long && x.hits r.ctx r.va.toNat r.bits

/-- The sweep: every SDGEN one up, matching entries removed; a sleeping WAITV of the page translates again (R376). -/
def State.sweep (s : State) (x : Shoot) : State :=
  { s with
    cores := s.cores.map fun (p : Nat × Core) => (p.1, { p.2 with sdgen := p.2.sdgen + 1, tlb := p.2.tlb.filter (fun e => !x.entry e),
                                                                  lastPage := p.2.lastPage.filter fun e => !x.entry e.2 }),
    dies := s.dies.map fun (p : Nat × Die) => (p.1, { p.2 with tlb := p.2.tlb.filter fun e => !x.entry e }),
    reqs := s.reqs.map fun r =>
      if r.global && r.stage == .asleep && x.hits r.ctx r.va.toNat r.bits then { r with stage := .walk, sdgen := (s.core r.core).sdgen + 1 } else r }

/-- SHOOTDOWN: the first of the waiting shoot-downs sweeps, where it comes from this source (R375, R376). -/
def execShootdown (src : ShootSource) (s : State) : Res :=
  match s.shoots with
  | [] => .next s
  | x :: xs =>
    if x.started ∨ x.src ≠ src then .next s
    else
      let ids := (s.reqs.filter x.waitsFor).map (·.id)
      .next { s.sweep x with shoots := { x with started := true, pending := ids } :: xs }

/-- SHOOTDOWN_COMPLETE: the walks begun before the sweep are discarded and the accesses it waits for are performed, the words of a SCATTER's index in hand among them; BUSY falls,
and the split that waits on SDCTL goes on (R375, R376). -/
def execShootdownComplete (s : State) : Res :=
  match s.shoots with
  | [] => .next s
  | x :: xs =>
    let walks := s.reqs.any fun r => r.stage == .walk && r.sdgen != (s.core r.core).sdgen
    let elems := s.cores.any fun p => p.2.handles.any fun h => h.2.state == .running && h.2.elem.any fun w => x.entry w.entry
    if ¬ x.started ∨ walks ∨ elems ∨ s.reqs.any (fun r => x.pending.contains r.id) then .next s
    else
      let s1 := { s with shoots := xs }
      let more := xs.any fun y => y.src == x.src
      match x.src with
      | .driver => .next { s1 with bar0Busy := more }
      | .core k =>
        let s2 := s1.modCore k fun c => { c with sdBusy := more }
        match (s2.group? k x.frame).bind fun g => g.waits.find? fun w => w.kept && w.seq == x.seq with
        | some w => .next (s2.endWait k x.frame w id)
        | none => .next s2

/-! ## Connections and streams (R355 to R358) -/

/-- An entry of a die's connection table. -/
def State.connAt (s : State) (d i : Nat) : Conn := (s.die d).conn.toList.getD i Conn.idle

def State.setConn (s : State) (d i : Nat) (c : Conn) : State := s.modDie d fun x => { x with conn := x.conn.setIfInBounds i c }

/-- Whether an entry keeps its bundle busy (R358). -/
def Conn.busy (c : Conn) : Bool := c.state == .setup || c.state == .up || c.state == .draining

/-- The entry of another number that keeps a bundle busy (R358). -/
def State.bundleUser (s : State) (d i : Nat) : Option Nat :=
  (List.range 32).find? fun j => j != i && (s.connAt d j).busy && (s.connAt d j).bundle == (s.connAt d i).bundle

/-- CMD 1 from idle: its checks in order, then setting up. A higher-numbered entry that asked for the bundle in the same cycle gives
it up. A die has eight bundles, so none of a higher number is free (R355, R358). -/
def State.connSetup (s : State) (d i : Nat) : State :=
  let c := s.connAt d i
  let user := s.bundleUser d i
  let late := user.filter fun j => i < j && (s.connAt d j).state == .setup && (s.connAt d j).asked == s.cycle + 1
  let err := if c.dest = d ∨ ¬ s.fitted c.dest then 2
    else if 8 ≤ c.bundle ∨ user ≠ late then 1
    else if c.bw < 1 ∨ 8 < c.bw then 4 else 0
  if c.state ≠ .idle ∨ ¬ s.fitted d ∨ 32 ≤ i then s
  else if err ≠ 0 then s.setConn d i { c with state := .down, err := err }
  else
    let s1 := match late with | some j => s.setConn d j { s.connAt d j with state := .down, err := 1 } | none => s
    s1.setConn d i { c with state := .setup, failing := false, asked := s.cycle + 1 }

/-- CMD 2 from setting up or up (R358). -/
def State.connTeardown (s : State) (d i : Nat) : State :=
  let c := s.connAt d i
  if c.state = .setup ∨ c.state = .up then s.setConn d i { c with state := .draining, failing := false } else s

/-- CMD 3 from down (R358). -/
def State.connClear (s : State) (d i : Nat) : State :=
  let c := s.connAt d i
  if c.state = .down then s.setConn d i { c with state := .idle, err := 0 } else s

/-- CONN_SETUP (R358). -/
def execConnSetup (d i : Nat) (s : State) : Res := .next (s.connSetup d i)
/-- CONN_TEARDOWN (R358). -/
def execConnTeardown (d i : Nat) (s : State) : Res := .next (s.connTeardown d i)
/-- CONN_CLEAR (R358). -/
def execConnClear (d i : Nat) (s : State) : Res := .next (s.connClear d i)

/-- CIRCUIT_UP: the wavelengths lock (R358). -/
def execCircuitUp (d i : Nat) (s : State) : Res :=
  let c := s.connAt d i
  if c.state = .setup then .next (s.setConn d i { c with state := .up }) else .next s

/-- The unit that sends a request of a core, and that takes its reply: the remote-data-cache slice of the line where the cache
can serve it, else the core (R311, R312). -/
def Req.unit (r : Req) : Nat :=
  let cached := r.plainRead || r.kind == .pref || r.kind == .renew
  128 * dieOf r.core + if cached then 60 + rdcSlice (lineOf r.pa) else r.core % 64

/-- The unit number of a line's home slice (R303, R356). -/
def State.homeUnit (s : State) (pa : Nat) : Nat := 128 * (pa / 2 ^ 36) + 36 + (s.sliceOf (lineOf pa)).2

/-- Whether an update is on its way from a sequencer to its core as a message of a stream (R304, R319, R320). -/
def State.updateOut (s : State) (key : StreamKey) : Bool :=
  (s.die (key.sender / 128)).subs.any fun p =>
    match p.2.core, p.2.parts.head? with
    | some k, some part =>
      128 * dieOf k + k % 64 == key.receiver && s.homeUnit part.2.1 == key.sender &&
        (s.core k).maps.any fun m => m.launch == p.2.launch && m.off == p.2.off && !m.updates.isEmpty
    | _, _ => false

/-- Whether a stream has a message in flight: a request on its way to its home; data, an atomic's result or an acknowledgement on its way
back; a grant without data, or an update (R304, R319, R320, R356). -/
def State.streamBusy (s : State) (key : StreamKey) : Bool :=
  let out := fun (r : Req) => r.stage == .ready && r.unit == key.sender && s.homeUnit r.pa == key.receiver
  let back := fun (r : Req) => s.homeUnit r.pa == key.sender && r.unit == key.receiver
  let mine := fun (r : Req) => match key.network with
    | 0 => out r
    | 1 => back r && ((r.stage == .reply && r.crossing == .data) || r.stage == .ack || (r.isAtomic && r.stage == .data))
    | 2 => back r && r.stage == .reply && r.crossing == .grant
    | _ => false
  s.reqs.any (fun r => r.global && !r.dev && isHbm r.pa && mine r) || (key.network == 2 && s.updateOut key)

/-- The path of a stream: the electrical path where none is listed (R356). -/
def State.pathOf (s : State) (key : StreamKey) : Nat := ((s.streams.find? fun t => t.key == key).map (·.path)).getD 0

/-- A stream put on a path. -/
def State.setPath (s : State) (key : StreamKey) (path : Nat) : State :=
  let rest := s.streams.filter fun t => t.key != key
  { s with streams := if path = 0 then rest else rest ++ [⟨key, path⟩] }

/-- Whether a stream can leave the electrical path: the traffic of cores and cache slices can; clock, rebase and
barrier-completion messages cannot (R355). -/
def opticalStream (key : StreamKey) : Bool :=
  decide (key.network ≤ 2 ∧ key.sender % 128 < 68 ∧ key.receiver % 128 < 68 ∧ key.sender / 128 ≠ key.receiver / 128)

/-- STREAM_MOVE: a stream with no message in flight takes the electrical path, or a circuit that is up from its die to its
receiver's (R356). -/
def execStreamMove (key : StreamKey) (path : Nat) (s : State) : Res :=
  let c := s.connAt (key.sender / 128) (path - 1)
  let ok := path == 0 || (opticalStream key && c.state == .up && c.dest == key.receiver / 128 && decide (path ≤ 32))
  if s.streamBusy key ∨ ¬ ok then .next s else .next (s.setPath key path)

/-- A draining entry whose circuit carries no message any more: its streams go to the electrical path, and it is idle, or down after
a failure (R356, R358). -/
def State.drained (s : State) (d i : Nat) : State :=
  let c := s.connAt d i
  let mine := s.streams.filter fun t => t.key.sender / 128 == d && t.path == i + 1
  if c.state ≠ .draining ∨ mine.any fun t => s.streamBusy t.key then s
  else
    let s1 := mine.foldl (fun (t : State) x => t.setPath x.key 0) s
    s1.setConn d i (if c.failing then { c with state := .down, err := 3, failing := false } else { c with state := .idle })

/-- CIRCUIT_DRAINED (R358). -/
def execCircuitDrained (d i : Nat) (s : State) : Res := .next (s.drained d i)

/-- An optical failure of a circuit that is up (R358). -/
def State.opticalFailure (s : State) (d i : Nat) : State :=
  let c := s.connAt d i
  if c.state = .up then (s.setConn d i { c with state := .draining, failing := true }).tell (.circuit d i) else s

/-- OPTICAL_FAILURE (R358). -/
def execOpticalFailure (d i : Nat) (s : State) : Res := .next (s.opticalFailure d i)

/-- WAVELENGTH_FAILURE: two spares cover the first two failures of a bundle; the third is an optical failure of the circuit on
it (R363). -/
def execWavelengthFailure (d bundle : Nat) (s : State) : Res :=
  let n := (s.die d).waves.toList.getD bundle 0 + 1
  let s1 := s.modDie d fun x => { x with waves := x.waves.setIfInBounds bundle n }
  if n < 3 then .next s1
  else .next ((List.range 32).foldl (fun (t : State) i => if (t.connAt d i).bundle = bundle then t.opticalFailure d i else t) s1)

/-! ## Spares and errors (R302, R314, R325, R363) -/

/-- SPARE_WAY_REPLACE: the lines of a worn way are written back, or discarded from a remote-data cache, then the slice's one spare
way takes its place (R325, R363). -/
def execSpareWayReplace (d slice : Nat) (remote : Bool) (lines : List Nat) (s : State) : Res :=
  if remote then
    if 8 ≤ slice ∨ (s.die d).spareRdc.getLsbD slice then .next s
    else .next (s.modDie d fun x =>
      { x with rdc := x.rdc.filter (fun p => !(rdcSlice p.1 == slice && lines.contains p.1)),
               spareRdc := x.spareRdc ||| BitVec.ofNat 8 (2 ^ slice) })
  else if 24 ≤ slice ∨ (s.die d).spareWays.getLsbD slice then .next s
  else .next ((s.evictAll (lines.filter fun l => s.sliceOf l == (d, slice))).modDie d fun x =>
    { x with spareWays := x.spareWays ||| BitVec.ofNat 24 (2 ^ slice) })

/-- HBM_ROW_REMAP: a worn row is copied and remapped; nothing but time is seen (R363). -/
def execHbmRowRemap (d : Nat) (_row : Nat) (s : State) : Res := .next (s.modDie d fun x => { x with spareRows := x.spareRows + 1 })

/-- MESH_LINK_SPARE: the spare link of one of the twelve router pairs takes over; nothing but time is seen (R303, R363). -/
def execMeshLinkSpare (d link : Nat) (s : State) : Res :=
  .next (s.modDie d fun x => { x with spareLinks := x.spareLinks ||| BitVec.ofNat 12 (2 ^ link) })

/-- Whether the stored line of a number is that of a line in a slice: the slice has its bytes, and a dirty one is written to both frames of
a copy (R314, R379). -/
def State.heldAs (s : State) (l : Nat) (p : Nat × LineTs) : Bool :=
  s.place (128 * p.1) / 128 == l || (p.2.dirty && (s.migrated (128 * p.1)).any fun a => a / 128 == l)

/-- The metadata of a block of stored HBM are lost: its lines that no slice holds are poisoned, and a clean one that a slice holds has
nothing behind it there (R314, R379). -/
def State.loseBlock (s : State) (block : Nat) : State :=
  let s1 := { s.setCode block 0xF with lines := s.lines.map fun p =>
    (p.1, if s.place (128 * p.1) / 2048 = block ∧ ¬ p.2.dirty then { p.2 with lost := true } else p.2) }
  let bare := ((List.range 16).map (16 * block + ·)).filter fun l => !s.lines.any (s.heldAs l)
  bare.foldl (fun (t : State) l => t.poisonStored (128 * l) 128) s1

/-- UNCORRECTABLE_MEMORY_ERROR (R302, R314, R325): clean lines are fetched again, dirty or HBM data is poisoned, lost timestamps
become the largest the slice has issued, and a block whose metadata is lost is poisoned; an error that is corrected is counted by the die. -/
def execUncorrectableMemoryError (e : MemError) (s : State) : Res :=
  match e with
  | .l2Clean line => .next (s.evict line)
  | .l2Dirty line => .next (s.poisonHome (128 * line) 128)
  | .hbm addr n => .next (s.poisonStored addr n)
  | .rdcClean d line => .next (s.modDie d fun x => { x with rdc := Sparse.erase x.rdc line })
  | .stamps line =>
    let p := s.sliceOf line
    let m := (s.die p.1).maxTs.toList.getD p.2 0
    .next (if (Sparse.get? s.lines line).isSome then { s with lines := Sparse.put s.lines line { s.lineTs line with wts := m, rts := m } } else s)
  | .metadata block => .next (s.loseBlock block)
  | .scratch k word => .next (s.modCore k fun c => { c with scratchPoison := insertNat c.scratchPoison word })
  | .corrected d => .next (s.modDie d fun x => { x with corrected := x.corrected + 1 })

/-- L2_SLICE_FAILURE: the die is drained and retired until its next reset (R325). -/
def execL2SliceFailure (d slice : Nat) (s : State) : Res :=
  .next ((s.modDie d fun x => { x with badSlices := x.badSlices ||| BitVec.ofNat 24 (2 ^ slice), drained := true }).tell (.hardware d slice))

/-! ## Harvest and power (R362, R364, R365) -/

/-- Healthy physical cores of a die, ascending. -/
def Die.healthyCores (d : Die) : List Nat := (List.range 36).filter d.healthy.getLsbD

/-- The logical tables of a die set for a mode (R362). -/
def Die.setMode (full : Bool) (d : Die) : Die :=
  let h := d.healthyCores
  let n := if full then h.length else Nat.min 32 h.length
  { d with full := full, lpct := Vector.ofFn (fun i => if i.val < n then BitVec.ofNat 8 (h.getD i.val 0xFF) else 0xFF),
           spare := Vector.ofFn fun i => if full then 0xFF else BitVec.ofNat 8 (h.getD (32 + i.val) 0xFF) }

/-- Whether a die holds a group or a team. -/
def State.dieBusy (s : State) (d : Nat) : Bool := s.cores.any fun p => dieOf p.1 == d && !(p.2.frames.isEmpty && p.2.teams.isEmpty)

/-- Retired cores that a reset has found healthy return as the harvest mode is set (R364). -/
def State.returnCores (s : State) (d : Nat) : State :=
  let back := (List.range 36).filter (s.die d).returning.getLsbD
  (back.foldl (fun (t : State) p => t.modCore (64 * d + p) fun c => { c with retired := false }) s).modDie d fun x =>
    { x with healthy := x.healthy ||| x.returning, returning := 0 }

/-- HARVEST_MODE_SET: only while no die of the partition holds a group; HVGEN counts every setting but the one that brings a die up (R362,
R364, R366, R406, log entry 87). -/
def execHarvestModeSet (dies : List Nat) (full : Bool) (s : State) : Res :=
  if dies.any fun d => s.dieBusy d || !s.fitted d then .next s
  else .next (dies.foldl (fun (t : State) d => (t.returnCores d).modDie d fun x =>
    { x.setMode full with hvgen := if x.modeSet then x.hvgen + 1 else x.hvgen, modeSet := true }) s)

/-- CORE_RETIRE: a core that holds no group; its logical number goes to the lowest reserve core, or becomes vacant (R364). -/
def execCoreRetire (k : Nat) (s : State) : Res :=
  let d := s.die (dieOf k)
  let p := k % 64
  let c := s.core k
  if !(c.frames.isEmpty && c.teams.isEmpty) || !d.healthy.getLsbD p || c.retired then .next s
  else
    let spares := d.spare.toList
    let heir : BitVec 8 := if d.full then 0xFF else spares.headD 0xFF
    let named := d.lpct.toList.any fun x => x.toNat == p
    let left := if named then spares.drop 1 else spares.filter fun x => x.toNat != p
    let d1 : Die :=
      { d with healthy := d.healthy &&& ~~~(BitVec.ofNat 36 (2 ^ p)), lpct := d.lpct.map (fun x => if x.toNat = p then heir else x),
               spare := if d.full then d.spare else Vector.ofFn fun i => left.getD i.val 0xFF, hvgen := d.hvgen + 1 }
    .next ((s.setDie (dieOf k) d1).modCore k fun c => { c with retired := true })

/-- POWER_SHARE_UPDATE: the per-die shares of the budget; they throttle free slots and change no result (R195, R365). -/
def execPowerShareUpdate (shares : List Nat) (s : State) : Res :=
  .next ((List.range (Nat.min 16 shares.length)).foldl (fun (t : State) d => t.modDie d fun x => { x with share := shares.getD d 0 }) s)

/-! ## Resets (R361, R366, R367) -/

/-- What the test of a reset leaves of a die: of the cores and slices that its fuses leave, those it finds healthy; a retired core
waits for the next setting of the harvest mode. The tables are set in standard mode, and the spares on record apply (R364, R366). -/
def State.testedDie (s : State) (d : Nat) : Die :=
  let x := s.die d
  let good := BitVec.ofFnLE fun (p : Fin 36) => x.coreFuse.getLsbD p.val && Config.selfTest (64 * d + p.val) s.cycle
  let gone := BitVec.ofFnLE fun (p : Fin 36) => (s.core (64 * d + p.val)).retired
  let here := BitVec.ofFnLE fun (i : Fin 24) => x.sliceFuse.getLsbD i.val && Config.sliceTest d i.val s.cycle
  { Die.reset with
    coreFuse := x.coreFuse, sliceFuse := x.sliceFuse, healthy := good &&& ~~~gone, returning := good &&& gone,
    slices := here &&& ~~~x.badSlices, spareWays := x.spareWays, spareRdc := x.spareRdc, spareRows := x.spareRows,
    spareLinks := x.spareLinks, waves := x.waves }.setMode false

/-- A core after a reset at a cycle; a retired one stays so (R149, R199, R344, R361, R364, R366). -/
def State.resetCore (s : State) (k cycle swgen : Nat) : Core :=
  { Core.reset cycle (dieOf k) swgen with retired := (s.core k).retired }

/-- PACKAGE_RESET, all of its steps: clocks, timestamps, tables and registers as after reset, and package time as Sundoc sets it;
the fuses, the spares on record, the retired cores and what the memories hold stay; every fitted die is tested (R364, R366, log entry
88). -/
def execPackageReset (s : State) : Res :=
  .next { State.reset with
    agenda := s.agenda, tick := s.tick, mem := s.mem, poison := s.poison, comp := s.comp, feat := s.feat, dieMask := s.dieMask,
    cores := (s.cores.filter fun p => p.2.retired).map (fun p => (p.1, s.resetCore p.1 0 0)), ptime := Config.bootTime s.cycle,
    dies := s.fittedDies.map (fun d => (d, s.testedDie d)), interrupts := s.interrupts, reports := s.reports,
    hostReply := s.hostReply, remoteReplies := s.remoteReplies }

/-- An entry of a die that is reset, or that leads to it: it drains (R358, R367). -/
def Conn.closing (c : Conn) : Conn :=
  if c.busy then { c with state := .draining, failing := false } else { c with state := .idle, err := 0 }

/-- The connections of a die that is reset, and those of other dies to it, drain; the ones that carry nothing are idle (R367). -/
def State.closeConns (s : State) (d : Nat) : State :=
  let ends := s.fittedDies.flatMap fun e => ((List.range 32).map fun i => (e, i)).filter fun p => e == d || (s.connAt e p.2).dest == d
  ends.foldl (fun (t : State) p => (t.setConn p.1 p.2 (t.connAt p.1 p.2).closing).drained p.1 p.2) s

/-- DIE_RESET: a die without groups whose dirty lines have been written back; its clocks, EVW and EVR start above every clock of the
package (R367). -/
def execDieReset (d : Nat) (s : State) : Res :=
  if s.dieBusy d ∨ ¬ s.fitted d then .next s
  else
    let top := s.topClock + 4096
    let s0 := (s.evictAll ((s.lines.filter fun p => p.1 * 128 / 2 ^ 36 == d).map (·.1))).closeConns d
    let x := s0.die d
    let fresh : Die :=
      { s.testedDie d with evw := Vector.replicate 24 top, evr := Vector.replicate 24 top, maxTs := Vector.replicate 24 top,
                           modeSet := true, tops := x.tops, conn := x.conn, ind := x.ind, hostBias := x.hostBias, subs := x.subs }
    let keys := (List.range Config.coresPerDie).map (64 * d + ·)
    let s1 := keys.foldl (fun (t : State) k => t.setCore k { s.resetCore k s.cycle s.swgen with clock := top }) s0
    .next ((s1.setDie d fresh).raiseClock (64 * d + 63) top)

/-! ## Bias and the host (R313, R347 to R349) -/

/-- Lines of a 2 MiB region of die offset that slices hold, and the largest rts issued there (R349, R380). -/
def State.regionLines (s : State) (d region : Nat) : List Nat :=
  (s.lines.filter fun p => p.1 * 128 / 2 ^ 21 == d * 2 ^ 15 + region).map (·.1)

def State.regionRts (s : State) (d region : Nat) : Nat := (Sparse.get? (s.die d).tops region).getD 0

/-- The lines of a region leave their slices, and every clock passes the leases granted there (R349, R380). -/
def State.retireRegion (s : State) (d region : Nat) : State :=
  (s.raiseAll (s.regionRts d region + 1)).evictAll (s.regionLines d region)

/-- Remote-data copies of a region dropped. -/
def State.dropCopies (s : State) (d region : Nat) : State :=
  { s with dies := s.dies.map fun (p : Nat × Die) => (p.1, { p.2 with rdc := p.2.rdc.filter fun c => c.1 * 128 / 2 ^ 21 != d * 2 ^ 15 + region }) }

/-- Accesses to a region that its home, or the host, has accepted and not finished. -/
def State.regionBusy (s : State) (d region : Nat) : Bool :=
  s.reqs.any fun r => r.global && !r.dev && r.pa / 2 ^ 21 == d * 2 ^ 15 + region && (r.stage == .reply || r.stage == .ack || r.stage == .data)

/-- BIAS_FLIP_TO_HOST: once the requests accepted under device bias have completed (R349). -/
def execBiasFlipToHost (d region : Nat) (s : State) : Res :=
  if s.regionBusy d region ∨ 2 ^ 15 ≤ region ∨ (s.die d).hostBias.contains region then .next s
  else .next (((s.retireRegion d region).dropCopies d region).modDie d fun x => { x with hostBias := insertNat x.hostBias region })

/-- BIAS_FLIP_TO_DEVICE: the host has given up its lines (R349). -/
def execBiasFlipToDevice (d region : Nat) (s : State) : Res :=
  if s.regionBusy d region then .next s
  else .next ((s.dropCopies d region).modDie d fun x => { x with hostBias := x.hostBias.filter fun r => r != region })

/-- HOST_SNOOP: a host-homed line leaves a die's remote-data cache; the host's new bytes of it, if any, are in memory (R313, log entry 72). -/
def execHostSnoop (d line : Nat) (data : List Byte) (s : State) : Res :=
  if !s.hostLine (128 * line) then .next s
  else
    let s1 := s.modDie d fun x => { x with rdc := Sparse.erase x.rdc line }
    .next (s1.hostStore (128 * line) (data.take 128) false)

/-- Whether bytes lie in HBM of one fitted die. -/
def State.inHbm (s : State) (a n : Nat) : Bool := decide (a + n ≤ 2 ^ 40) && s.fitted (a / 2 ^ 36) && decide (n = 0 ∨ (a + n - 1) / 2 ^ 36 = a / 2 ^ 36)

/-- HOST_MEM_READ: the current value, without a lease (R348). -/
def execHostMemRead (a n : Nat) (s : State) : Res :=
  if !s.inHbm a n then .fault (.noMemory a)
  else .next { s with hostReply := if s.poisoned a n then none else some (s.phys a n) }

/-- The parts of a byte run that lie in one line each. -/
def linePieces (a : Nat) (bs : List Byte) : List (Nat × List Byte) :=
  (spanBlocks a bs.length).map fun p => (p.1, (bs.drop (p.1 - a)).take p.2)

/-- One line of a host write: under device bias wts := rts + 1, and HOSTMARK takes it; under host bias the memory controller stores
it (R315, R347, R348). DESIGN CHOICE: the blocks that the host writes, under either bias or with a snoop, are stored as without COMP, as no
PTE is named for them (log entry 72). -/
def State.hostPut (s : State) (a : Nat) (bs : List Byte) : State :=
  if s.hostLine a then s.hostStore a bs false
  else
    let s0 := s.roomFor (lineOf a)
    let p := s0.homeWriteAt a bs ((s0.lineTs (lineOf a)).rts + 1) none false none
    { p.1 with hostmark := Nat.max p.1.hostmark p.2 }

/-- HOST_MEM_WRITE (R347, R348). -/
def execHostMemWrite (a : Nat) (data : List Byte) (s : State) : Res :=
  if !s.inHbm a data.length then .fault (.noMemory a)
  else .next ((linePieces a data).foldl (fun (t : State) p => t.hostPut p.1 p.2) s)

/-! ## Migration (R378 to R380) -/

/-- An entry of a die's indirection table. -/
def State.indAt (s : State) (d i : Nat) : IndEntry := (s.die d).ind.toList.getD i IndEntry.free

def State.setInd (s : State) (d i : Nat) (e : IndEntry) : State := s.modDie d fun x => { x with ind := x.ind.setIfInBounds i e }

/-- Whether a physical frame is the OLD or the NEW of an entry other than one (R378). -/
def State.frameUsed (s : State) (d i frame : Nat) : Bool :=
  (List.range 16).any fun e => (List.range 64).any fun j =>
    let x := s.indAt e j
    !(e == d && j == i) && (x.new == frame || e * 2 ^ 15 + x.old == frame)

/-- Start from free (R378). -/
def State.migStart (s : State) (d i : Nat) : State :=
  let e := s.indAt d i
  let bad := decide (2 ^ 19 ≤ e.new) || !s.fitted (e.new / 2 ^ 15) || s.frameUsed d i e.new || e.new == d * 2 ^ 15 + e.old
  if e.state ≠ .free ∨ 64 ≤ i then s
  else s.setInd d i (if bad then { e with state := .error } else { e with state := .copying, done := 0 })

/-- CMD 2 in state flipped: the entry is retiring (R380). -/
def State.migRetire (s : State) (d i : Nat) : State :=
  let e := s.indAt d i
  if e.state ≠ .flipped then s else s.setInd d i { e with state := .retiring }

/-- A retiring entry ends: the old slices evict the frame's lines, every clock passes its leases, and the entry is free (R380). -/
def State.migEnd (s : State) (d i : Nat) : State :=
  let e := s.indAt d i
  if e.state ≠ .retiring then s else (s.retireRegion d e.old).setInd d i { e with state := .free, done := 0 }

/-- Clear from error (R378). -/
def State.migClear (s : State) (d i : Nat) : State :=
  let e := s.indAt d i
  if e.state ≠ .error then s else s.setInd d i { e with state := .free }

/-- MIG_START (R378). -/
def execMigStart (d i : Nat) (s : State) : Res := .next (s.migStart d i)
/-- MIG_RETIRE: CMD 2 where the entry has flipped, and the end of a retirement that BAR0 has begun (R380). -/
def execMigRetire (d i : Nat) (s : State) : Res := .next ((s.migRetire d i).migEnd d i)
/-- MIG_CLEAR (R378). -/
def execMigClear (d i : Nat) (s : State) : Res := .next (s.migClear d i)

/-- MIGRATION_BLOCK_COPY: the next 2 KiB block with its poison and its metadata; after the last the entry flips (R379). -/
def execMigrationBlockCopy (d i : Nat) (s : State) : Res :=
  let e := s.indAt d i
  if e.state ≠ .copying then .next s
  else
    let src := (d * 2 ^ 15 + e.old) * 2 ^ 21 + 2048 * e.done
    let dst := e.new * 2 ^ 21 + 2048 * e.done
    let marks := (s.poison.filter fun p => decide (src ≤ p ∧ p < src + 2048)).map fun p => dst + (p - src)
    let clean := s.poison.filter fun p => !(decide (dst ≤ p ∧ p < dst + 2048))
    let s1 := { s with mem := Memory.write s.mem dst (Memory.read s.mem src 2048), poison := marks.foldl insertNat clean,
                       comp := match Sparse.get? s.comp (src / 2048) with
                         | some c => Sparse.put s.comp (dst / 2048) c
                         | none => Sparse.erase s.comp (dst / 2048) }
    .next (s1.setInd d i { e with done := e.done + 1, state := if e.done + 1 < 1024 then .copying else .flipped })

/-! ## BAR0 (R132, R357, R359, R373, R375, R378, R410, R412) -/

/-- A write to a connection entry: its fields while it is idle or down, then its command (R357). -/
def State.writeConn (s : State) (d i : Nat) (v : DWord) : State :=
  let c := s.connAt d i
  let x := v.toNat
  let s1 := if c.state = .idle ∨ c.state = .down then
      s.setConn d i { c with bw := x / 2 ^ 16 % 16, bundle := x / 2 ^ 8 % 16, dest := x % 16 }
    else s
  match x / 2 ^ 28 % 4 with
  | 1 => s1.connSetup d i
  | 2 => s1.connTeardown d i
  | 3 => s1.connClear d i
  | _ => s1

/-- A write to an indirection entry: OLD and NEW while it is free, or its command (R378). -/
def State.writeInd (s : State) (d i : Nat) (high : Bool) (v : DWord) : State :=
  let e := s.indAt d i
  let x := v.toNat
  if high then
    match x / 2 ^ 24 % 2 ^ 8 with
    | 1 => s.migStart d i
    | 2 => s.migRetire d i
    | 3 => s.migClear d i
    | _ => s
  else if e.state = .free then s.setInd d i { e with old := x % 2 ^ 15, new := x / 2 ^ 32 }
  else s

/-- A write to an aperture by its 64-bit field (R410). -/
def State.writeAperture (s : State) (a field : Nat) (v : DWord) : State :=
  let x := v.toNat
  let p := s.apertures.toList.getD a ⟨0, 0, 0, 0, 0⟩
  let q : Aperture :=
    match field with
    | 0 => { p with base := x / 2 ^ 16 * 2 ^ 16 }
    | 1 => { p with len := x / 2 ^ 16 * 2 ^ 16 }
    | 2 => { p with ctx := x % 2 ^ 16, srcDev := x / 2 ^ 16 % 2 ^ 16, perm := BitVec.ofNat 3 (x / 2 ^ 32) }
    | _ => p
  { s with apertures := s.apertures.setIfInBounds a q }

/-- The fixed registers: SDVA, SDCTL, CTXTAB (R373, R375). DESIGN CHOICE: SDVA and SDCTL at BAR0 are a block of their own beside the one of
each core, each with its BUSY (log entry 100). -/
def State.writeFixed (s : State) (off : Nat) (v : DWord) : State :=
  if off = 0x200000 then { s with bar0Sdva := v &&& ~~~0xFFFF }
  else if off = 0x200008 then
    let w := v.lo &&& 0x0007FFFF
    { s with bar0Sdctl := w, bar0Busy := true,
             shoots := s.shoots ++ [⟨.driver, 0, 0, s.bar0Sdva, w.toNat / 2 ^ 16, w.toNat % 2 ^ 16, [], false⟩] }
  else if off = 0x200010 then { s with ctxtab := v &&& ~~~0x3F }
  else s

/-- A connection entry as the driver reads it (R357). -/
def Conn.word (c : Conn) : Nat :=
  let code := match c.state with | .idle => 0 | .setup => 1 | .up => 2 | .draining => 3 | .down => 4
  c.err * 2 ^ 40 + code * 2 ^ 32 + c.bw * 2 ^ 16 + c.bundle * 2 ^ 8 + c.dest

/-- An indirection entry as the driver reads it: OLD and NEW, then DONE and STATE (R378). -/
def IndEntry.word (high : Bool) (e : IndEntry) : Nat :=
  let code := match e.state with | .free => 0 | .copying => 1 | .flipped => 2 | .error => 3 | .retiring => 4
  if high then e.done + code * 2 ^ 16 else e.old + e.new * 2 ^ 32

/-- An aperture's 64-bit field (R410). -/
def Aperture.word (p : Aperture) (field : Nat) : Nat :=
  match field with
  | 0 => p.base
  | 1 => p.len
  | 2 => p.ctx + p.srcDev * 2 ^ 16 + p.perm.toNat * 2 ^ 32
  | _ => 0

/-- What the driver reads of 64 bits of BAR0: a register whose place a rule gives, else 0. A read changes nothing (R132, R357, R359,
R373, R375, R378, R410, R412, R423). -/
def State.bar0Read (s : State) (off : Nat) : DWord :=
  let d := off / 2 ^ 20
  let r := off % 2 ^ 20
  if off = 0x200000 then s.bar0Sdva
  else if off = 0x200008 then s.bar0Sdctl.setWidth 64 ||| (if s.bar0Busy then 0x80000000 else 0)
  else if off = 0x200010 then s.ctxtab
  else if off = 0x300800 then s.winLen.setWidth 64
  else if off = 0x300808 then s.devNo.setWidth 64
  else BitVec.ofNat 64 <|
    if 0x300000 ≤ off ∧ off < 0x300100 then
      let p := s.ports.toList.getD ((off - 0x300000) / 8) (0, 0)
      p.1 + p.2 * 2 ^ 32
    else if 0x301000 ≤ off ∧ off < 0x301800 then (s.apertures.toList.getD ((off - 0x301000) / 32) ⟨0, 0, 0, 0, 0⟩).word ((off - 0x301000) / 8 % 4)
    else if d < 16 ∧ s.fitted d ∧ 0x10000 ≤ r ∧ r < 0x10100 then (s.connAt d ((r - 0x10000) / 8)).word
    else if d < 16 ∧ s.fitted d ∧ 0x20000 ≤ r ∧ r < 0x20400 then (s.indAt d ((r - 0x20000) / 16)).word (decide (r / 8 % 2 = 1))
    else 0

/-- BAR0_WRITE: 64 bits of a register of the driver's window; a write to anything else, or to a read-only register, changes
nothing (R132). -/
def execBar0Write (off : Nat) (v : DWord) (s : State) : Res :=
  let d := off / 2 ^ 20
  let r := off % 2 ^ 20
  if off % 8 ≠ 0 then .next s
  else if off = 0x300800 then execFwincfgWrite v.lo s
  else if off = 0x300808 then execFdevcfgWrite v.lo s
  else if 0x301000 ≤ off ∧ off < 0x301800 then .next (s.writeAperture ((off - 0x301000) / 32) ((off - 0x301000) / 8 % 4) v)
  else if d < 16 ∧ 0x10000 ≤ r ∧ r < 0x10100 then .next (s.writeConn d ((r - 0x10000) / 8) v)
  else if d < 16 ∧ 0x20000 ≤ r ∧ r < 0x20400 then .next (s.writeInd d ((r - 0x20000) / 16) (decide (r / 8 % 2 = 1)) v)
  else .next (s.writeFixed off v)

end Sys2Proof.Machine
end

