-- ==== Sys2Proof/Machine/Sched.lean ====
section
/-! DEFINITION. Clause-readiness, the pick of a slot, the issue of a held clause, and the passing of time (R39 to R45,
R165, R166, R177, R190 to R196, R334, R355). -/

namespace Sys2Proof.Machine

open Sys2Proof

/-! ## Gangs -/

/-- A gang of a core: its group's frame and its slices (R26, R190). -/
structure Gang where
  frame : Nat
  mask : BitVec 8
  deriving DecidableEq, Repr, Inhabited

/-- A slice of a split that starts no clause: it sleeps, it waits under R221, or a fault of it is held (R192, R196, R221). -/
def Group.resting (g : Group) (i : Fin 8) : Bool :=
  g.slices[i].wake != 0 || (g.waitOf i.val).isSome || g.due.any fun d => d.mask.getLsbD i.val

/-- The splits of a group that could start a clause: whole splits with lanes, none of whose slices rests, outside the gang
that holds the slot (R26, R27, R164, R192). -/
def Group.gangs (g : Group) (f : Nat) (busy : BitVec 8) : List Gang :=
  let splits := ((List.finRange 8).filter fun i => !g.slices[i].idle && !busy.getLsbD i.val).map fun i => g.splitOf i &&& ~~~busy
  (splits.foldl (fun l m => if l.contains m then l else l ++ [m]) []).filterMap fun m =>
    if (slicesOf m).any g.resting then none else some ⟨f, m⟩

/-- The slices of a frame's group that hold its slot (R191). -/
def Core.busy (c : Core) (f : Nat) : BitVec 8 :=
  match (c.slots.toList.getD (f % 4) default).hold with
  | some h => if h.frame = f then h.mask else 0
  | none => 0

/-- Whether the debugger's step lets a gang issue: only the split with the focus lane's slice, unless that slice waits, or has waited in
this step, at a junction (R177). -/
def Core.stepAllows (c : Core) (g : Group) (gang : Gang) : Bool :=
  match Sparse.get? c.stepping gang.frame with
  | none => true
  | some others =>
    let slice := c.focusLane g / 4
    others || gang.mask.getLsbD slice || (g.slices.toList.getD slice default).idle

/-- The slice whose state a gang shares: its lowest, whose clause-ready cycle, YIELD mark and age by a YIELD header count for a gang
that has come together from slices with different ones. R193 speaks of one of each (log entry 76). -/
def Group.lead (g : Group) (mask : BitVec 8) : Slice := g.slices.toList.getD (lowSlice mask) default

/-- Whether a wait mask names a flag that is set, or that has cleared in this cycle (R24, R192). -/
def Group.waitsOn (g : Group) (wait : BitVec 12) : Bool :=
  (List.range 12).any fun i => wait.getLsbD i && (g.flags.getD i 0 != 0 || !g.clear.getLsbD i)

/-- A logged load whose flag a wait mask names: its fault is reported here (R210). -/
def State.loggedOn (s : State) (g : Group) (wait : BitVec 12) : Option LogEntry :=
  g.log.find? fun e => s.reportable e && match e.flag with | some i => wait.getLsbD i | none => false

/-- A poisoned entry of a load whose flag a wait mask names (R262). -/
def Group.poisonOn (g : Group) (wait : BitVec 12) : Option PoisonMark :=
  let on := fun (p : PoisonMark) => match p.flag with | some i => wait.getLsbD i | none => false
  (g.lanes.toList.findSome? fun l => l.poison.find? on).or (g.sPoison.find? on)

/-- Why a gang at a clause header faults there, or the header it may start once its flags are clear (R41, R45, R164,
R166, R210, R262). DESIGN CHOICE: a split that fuses at its junction where its parent entry has the same JPC faults JOINMIS, for
it has reached the parent's JPC by the fusion and not by a JOIN of that entry (log entry 27). -/
def State.headerOf (s : State) (k : Nat) (g : Group) (gang : Gang) : Except FaultRec (CodeEntry × Header) :=
  let sl := g.lead gang.mask
  let low := lowSlice gang.mask
  let rec' := fun (c : Cause) (kind : FaultKind) (a pc : DWord) => (⟨c, kind, a, pc, low, sl.iidx, none⟩ : FaultRec)
  match g.async.find? fun p => p.mask &&& gang.mask != 0 && p.cause == .joinMis with
  | some _ => .error (rec' .joinMis .H sl.pc sl.pc)
  | none =>
    match s.fetchHeader k g.ctx g.priv sl.pc with
    | .error x =>
      .error (if x.kind = .P then { rec' x.cause .P x.addr (sl.pc + 8) with idx := 0 } else rec' x.cause x.kind x.addr x.addr)
    | .ok (e, lo, hi) =>
      match decodeHeader lo hi with
      | none => .error (rec' .illop .H 0 sl.pc)
      | some h =>
        if sl.iidx == 0 && ((g.divOpen sl.dvtop.toNat).map (·.jpc)) == some sl.pc then
          .error (rec' .joinMis .H sl.pc sl.pc)
        else
          match s.loggedOn g h.wait with
          | some l => .error { rec' (l.cause.getD .page) .L l.faddr l.pc with op := some l.op }
          | none =>
            match g.poisonOn h.wait with
            | some p => .error (rec' .poison .L p.addr p.pc)
            | none =>
              match if sl.iidx = 0 then g.async.find? fun p => p.mask &&& gang.mask != 0 else none with
              | some p => .error (rec' p.cause .A p.addr sl.pc)
              | none => .ok (e, h)

/-- The running groups that a slot serves, with their frames (R190). -/
def Core.served (c : Core) (slot : Nat) : List (Nat × Group) := 
  c.frames.filter fun p => p.1 % 4 == slot && p.2.status == .running && !p.2.replay

/-- The gangs of a slot with their groups (R190). -/
def State.slotGangs (s : State) (k slot : Nat) : List (Group × Gang) :=
  let c := s.core k
  (c.served slot).flatMap fun p => ((p.2.gangs p.1 (c.busy p.1)).filter fun x => c.stepAllows p.2 x).map fun x => (p.2, x)

/-- A clause-ready gang (R192). -/
def State.clauseReady (s : State) (k : Nat) (p : Group × Gang) : Bool :=
  match s.headerOf k p.1 p.2 with
  | .error _ => false
  | .ok (_, h) => !p.1.waitsOn h.wait

/-! ## The pick (R193, R194) -/

/-- Effective priority of a group's team (R194). -/
def Core.effective (c : Core) (g : Group) : Nat :=
  ((c.team? g.launch).map fun t => Nat.min 3 (t.prio + t.promo)).getD 0

/-- Elements that satisfy a predicate, or all where none does. -/
def preferring {α : Type} (p : α → Bool) (l : List α) : List α := if l.any p then l.filter p else l

/-- The candidates left after rules 1 to 4 of R193. -/
def State.pickRules (s : State) (k : Nat) (l : List (Group × Gang)) : List (Group × Gang) :=
  let c := s.core k
  let since := fun (p : Group × Gang) => ((p.1.lead p.2.mask).ready).getD s.cycle
  let due := l.filter fun p => decide (64 ≤ s.cycle - since p)
  let l1 := if due.isEmpty then l else leastBy since due
  let l2 := preferring (fun p => !(p.1.lead p.2.mask).yielded) l1
  let l3 := leastBy (fun p => 3 - c.effective p.1) l2
  leastBy (fun p => ((p.1.lead p.2.mask).late.map fun t => t * 64 + 63).getD p.1.placedAt) l3

/-- The gang that a slot picks, and whether the rotation decided it (R193). -/
def State.pick (s : State) (k slot : Nat) (l : List (Group × Gang)) : Option ((Group × Gang) × Bool) :=
  let sl := (s.core k).slots.toList.getD slot default
  let place := fun (p : Group × Gang) => p.2.frame * 8 + lowSlice p.2.mask
  let last := sl.rotFrame * 8 + sl.rotSlice
  let tied := s.pickRules k l
  (leastBy (fun p => (place p + 512 - last - 1) % 512) tied).head?.map fun p => (p, decide (1 < tied.length))

/-- The marks of YIELD instructions last for one pick: those of its candidates are cleared (R171, R193). -/
def State.clearYields (s : State) (k : Nat) (l : List (Group × Gang)) : State :=
  l.foldl (fun (t : State) p => t.modGroup k p.2.frame fun g => g.mapSlices p.2.mask fun _ sl => { sl with yielded := false }) s

/-- A slot's hold set. -/
def State.setHold (s : State) (k slot : Nat) (h : Option Hold) : State :=
  s.modCore k fun c => { c with slots := c.slots.setIfInBounds slot { c.slots.toList.getD slot default with hold := h } }

/-- Code words after a number of instructions, with how many words those take. -/
def skipInstrs : Nat → List Word → Nat → List Word × Nat
  | 0, ws, n => (ws, n)
  | k + 1, lo :: hi :: ws, n =>
    let m := instrWords lo hi
    skipInstrs k ((lo :: hi :: ws).drop m) (n + m)
  | _ + 1, ws, n => (ws, n)

/-- The gang that a slot picked starts its clause: the clause is fetched whole, the gang holds the slot, and its first
instruction issues next (R191, R193, R194, R377). `rotated` tells whether the rotation picked it. -/
def State.startClause (s : State) (k slot : Nat) (g : Group) (gang : Gang) (rotated : Bool) (e : CodeEntry) (h : Header) : State :=
  let sl := g.lead gang.mask
  match s.fetchClause k g.ctx g.priv e sl.pc h.count.toNat with
  | .error x =>
    let s1 := s.noteFetch k g.ctx e sl.pc ((x.addr.toNat - sl.pc.toNat) / 4 + 1)
    (if x.kind = .P then s1.modGroup k gang.frame fun g => g.mapSlices gang.mask fun _ sl => { sl with iidx := 0 } else s1).raise
      k gang.frame gang.mask
      ⟨x.cause, x.kind, x.addr, if x.kind = .P then sl.pc + 8 else x.addr, lowSlice gang.mask, if x.kind = .P then 0 else sl.iidx, none⟩
  | .ok ws =>
    let clauseEnd := clauseEndAt sl.pc ws
    let s1 := (s.noteFetch k g.ctx e sl.pc (2 + ws.length)).modCore k fun c => { (c.modTeam g.launch fun t => { t with promo := 0, starved := 0, started := true }) with
      slots := if rotated then c.slots.setIfInBounds slot { c.slots.toList.getD slot default with rotFrame := gang.frame, rotSlice := lowSlice gang.mask }
        else c.slots }
    let fresh := fun (x : Slice) => { x with ready := none, yielded := false, late := none }
    if h.count.toNat ≤ sl.iidx then
      s1.modGroup k gang.frame fun g => g.mapSlices gang.mask fun _ x => { fresh x with pc := clauseEnd, iidx := 0 }
    else
      let rest := skipInstrs sl.iidx ws 0
      let s2 := s1.modGroup k gang.frame fun g => g.mapSlices gang.mask fun _ x => fresh x
      (s2.setHold k slot (some ⟨gang.frame, gang.mask, sl.pc, h, sl.iidx,
        sl.pc + BitVec.ofNat 64 (8 + 4 * rest.2), rest.1, clauseEnd⟩)).prepend [.issue k slot]

/-- The first asynchronous fault of a cause on some slices is raised: it is theirs no more (R263). -/
def stripAsync (c : Cause) (mask : BitVec 8) : List Async → List Async
  | [] => []
  | q :: qs =>
    if q.cause = c ∧ q.mask &&& mask ≠ 0 then (let m := q.mask &&& ~~~mask; if m = 0 then qs else { q with mask := m } :: qs)
    else q :: stripAsync c mask qs

/-- The TLBs after a fetch of a clause header that has failed at an address (R374, R377). -/
def State.noteHeader (s : State) (k : Nat) (g : Group) (pc bad : DWord) : State :=
  ((s.noteStart k g.ctx pc).noteWalk k none g.ctx pc).noteWalk k none g.ctx bad

/-- A fault at a clause header is raised; it waits where the handler must wait for data (R263, R266). An asynchronous PAGE is
one that the fault service has declared invalid (R225, R264). One of the fetch has the clause at index 0 for its resume point (R377). -/
def State.raiseHeader (s : State) (k : Nat) (p : Group × Gang) (r : FaultRec) : State :=
  let answered := r.kind == .A && r.cause == .page
  if s.canTake k p.1 p.2.mask r answered then
    let s1 := if r.kind = .A ∨ p.1.async.any (fun q => q.cause == .joinMis && q.mask &&& p.2.mask != 0) ∧ r.cause = .joinMis then
        s.modGroup k p.2.frame fun g => { g with async := stripAsync r.cause p.2.mask g.async } else s
    (if r.kind = .P then (s1.noteHeader k p.1 (p.1.lead p.2.mask).pc r.addr).modGroup k p.2.frame fun g =>
        g.mapSlices p.2.mask fun _ sl => { sl with iidx := 0 } else s1).raiseDue k p.2.frame ⟨p.2.mask, r, answered⟩
  else s

/-- The faults at the clause headers of some gangs that can be taken now, a synchronous one and a low slice first (R263). A gang whose
fault must wait for data holds no other back. -/
def State.headerFaults (s : State) (k : Nat) (l : List (Group × Gang)) : List ((Group × Gang) × FaultRec) :=
  leastBy (fun x => x.2.rank) (l.filterMap fun p => match s.headerOf k p.1 p.2 with
    | .error r => if s.canTake k p.1 p.2.mask r (r.kind == .A && r.cause == .page) then some (p, r) else none
    | .ok _ => none)

/-- Whether a slot may pick: it is free, and has not issued in this cycle (R190, R193). -/
def State.slotFree (s : State) (k slot : Nat) : Bool :=
  let x := (s.core k).slots.toList.getD slot default
  x.hold.isNone && x.used != s.cycle + 1 && decide (slot < 4)

/-- A fault of a group that can be taken now: one it holds, or one of a gang at its clause header. -/
inductive Ripe where
  | held (d : Due)
  | header (p : Group × Gang) (r : FaultRec)
  deriving DecidableEq, Repr, Inhabited

def Ripe.rank : Ripe → Nat
  | .held d => d.flt.rank
  | .header _ r => r.rank

/-- The faults of a served group that can be taken now, the one that R263 reports first (R263). -/
def State.ripe (s : State) (k slot f : Nat) : Option Ripe :=
  match ((s.core k).served slot).find? fun p => p.1 == f with
  | none => none
  | some (_, g) =>
    (leastBy Ripe.rank (((s.dueNow k g).map Ripe.held).toList ++
      (s.headerFaults k ((s.slotGangs k slot).filter fun p => p.2.frame == f)).map fun x => Ripe.header x.1 x.2)).head?

/-- A group takes the fault that it reports in this cycle; the others wait (R263). -/
def State.takeFault (s : State) (k slot f : Nat) : State :=
  match s.ripe k slot f with
  | none => s
  | some (.held d) => s.takeDue k f d
  | some (.header p r) => s.raiseHeader k p r

/-- Every group of a slot takes the fault that it reports in this cycle (R263). -/
def State.takeFaults (s : State) (k slot : Nat) : State :=
  ((s.core k).served slot).foldl (fun (t : State) p => t.takeFault k slot p.1) s

/-- A free slot picks a clause-ready gang, which starts its clause (R192, R193). -/
def State.pickClause (s : State) (k slot : Nat) : State :=
  let ready := (s.slotGangs k slot).filter fun p => s.clauseReady k p
  match s.pick k slot ready with
  | none => s
  | some (p, rotated) =>
    match s.headerOf k p.1 p.2 with
    | .error _ => s
    | .ok (e, h) => (s.clearYields k ready).startClause k slot p.1 p.2 rotated e h

/-- CLAUSE_START: the groups of a free slot take the faults that they report in this cycle, and the slot picks a clause-ready gang (R41,
R192, R193, R263). -/
def execClauseStart (k slot : Nat) (s : State) : Res :=
  if !s.slotFree k slot then .next s else .next ((s.takeFaults k slot).pickClause k slot)

/-! ## Issue -/

/-- What a slot's next move finds: nothing to do, or an instruction to execute. -/
inductive Issue where
  | idle (s : State)
  | run (i : Instr) (s : State)
  deriving DecidableEq, Repr, Inhabited

/-- The slices of a mask at a place of a clause that can issue. -/
def Group.slicesAt (g : Group) (mask : BitVec 8) (pc : DWord) (idx : Nat) : BitVec 8 :=
  (List.finRange 8).foldl (fun m i =>
    let sl := g.slices[i]
    if mask.getLsbD i.val && sl.pc == pc && sl.iidx == idx && !sl.idle && (g.waitOf i.val).isNone
    then m ||| BitVec.ofNat 8 (2 ^ i.val) else m) 0

/-- Whether a slot that the group holds idles: its logged loads are to be issued again first (R212). -/
def Group.holdsBack (g : Group) : Bool := g.replay && g.status == .running

/-- The held clause after one more instruction has been passed. -/
def Hold.next (h : Hold) (mask : BitVec 8) : Hold :=
  let n := match h.words with | lo :: hi :: _ => instrWords lo hi | _ => h.words.length
  { h with mask := mask, idx := h.idx + 1, pc := h.pc + BitVec.ofNat 64 (4 * n), words := h.words.drop n }

/-- The issuer of the next instruction of a held clause (R155, R156, R191). -/
def Hold.issuer (h : Hold) (k : Nat) (mask : BitVec 8) : Issuer :=
  let last := h.idx + 1 == h.hdr.count.toNat
  { core := k, frame := h.frame, mask := mask, clause := h.clause, idx := h.idx, pc := h.pc,
    nextPc := if last then h.clauseEnd else h.clause, nextIdx := if last then 0 else h.idx + 1,
    clauseEnd := h.clauseEnd, flagA := h.hdr.flagA, flagB := h.hdr.flagB, kept := [] }

/-- Whether a slice of a held gang waits within its clause, which keeps the slot (R191, R221). -/
def Group.holdsOn (g : Group) (mask : BitVec 8) : Bool := (slicesOf mask).any fun i => (g.waitOf i.val).any fun w => !w.parked

/-- A slot's next issue, at most one in a cycle (R190, R191). Words that hold no instruction fault ILLOP, or CODEEND where they
run out (R45, R76). -/
def State.issueHead (s : State) (k slot : Nat) : Issue :=
  let x := (s.core k).slots.toList.getD slot default
  match x.hold with
  | none => .idle s
  | some h =>
    let free := s.setHold k slot none
    match s.group? k h.frame with
    | none => .idle free
    | some g =>
      if !g.issues then .idle free
      else if x.used = s.cycle + 1 ∨ g.holdsBack then .idle s
      else
        let gang := g.slicesAt h.mask h.clause h.idx
        match (leastBy (fun d => d.flt.rank) (g.due.filter fun d => d.mask &&& gang != 0)).head? with
        | some d => if s.canTake k g d.mask d.flt d.answered then .idle (free.takeDue k h.frame d) else .idle s
        | none =>
          if gang = 0 then
            let after := g.slicesAt h.mask h.clause (h.idx + 1)
            if after ≠ 0 then .idle (s.setHold k slot (some (h.next after)))
            else if g.holdsOn h.mask && g.status != .preempt then .idle s
            else .idle free
          else if !(s.core k).stepAllows g ⟨h.frame, gang⟩ then .idle s
          else
            let s1 := { s with iss := h.issuer k gang }
            match decode h.words with
            | .ok (i, _) => .run i s1
            | .error .codeEnd =>
              .idle ((s1.raise k h.frame gang ⟨.codeEnd, .H, h.pc + BitVec.ofNat 64 (4 * h.words.length), h.pc, lowSlice gang, h.idx, none⟩).setHold k slot none)
            | .error _ => .idle ((s1.faultHere .illop 0).setHold k slot none)

/-- The group's place in program order, by which an issue is told from a wait: every issue that goes on raises it. -/
def State.seqAt (s : State) (k slot : Nat) : Nat :=
  (((s.core k).slots.toList.getD slot default).hold.bind fun h => (s.group? k h.frame).map (·.seq)).getD 0

/-- The TLBs after the walks of a control transfer: of the start bits of its targets, and of the function table (R44, R168, R374). -/
def State.noteTargets (s : State) (k : Nat) (g : Group) (h : Hold) : State :=
  let from' := fun (words : List Int) => words.foldl (fun (t : State) n => t.noteStart k g.ctx (h.pc + BitVec.ofInt 64 (4 * n))) s
  let reached := fun (t : State) => (slicesOf h.mask).foldl (fun (t : State) i => t.noteStart k g.ctx g.slices[i].pc) t
  match decode h.words with
  | .ok (.br off, _) | .ok (.brsz _ off, _) | .ok (.brsnz _ off, _) | .ok (.brdec _ off, _) | .ok (.call _ off, _) => from' [off.toInt]
  | .ok (.brz _ j t, _) | .ok (.brnz _ j t, _) => from' [t.toInt, j.toInt]
  | .ok (.calli _ _ _, _) => reached (s.notePages k g.ctx (BitVec.ofNat 64 (s.ctxField g.ctx 0x10 8)) (16 * s.ftLen g.ctx))
  | .ok (.ret _, _) | .ok (.eret, _) => reached s
  | _ => s

/-- A slot after its gang's instruction (R42, R191, R270): where nothing has issued, `was` being the group's place before, the
gang keeps the slot; the slices that go on to the next instruction keep it; else the clause is over and the slot is free.
`left` tells that the instruction was an ERET, after which every slice stands at a resume point (R269). -/
def State.settleIssue (s : State) (k slot was : Nat) (left : Bool) : State :=
  match ((s.core k).slots.toList.getD slot default).hold with
  | none => s
  | some h =>
    match s.group? k h.frame with
    | none => s.setHold k slot none
    | some g =>
      if g.issues && ((g.seq == was && g.slicesAt h.mask h.clause h.idx != 0) || g.holdsOn h.mask) then
        (if g.status = .preempt then s.setHold k slot none else s)
      else
        let s0 := (s.noteTargets k g h).modCore k fun c => { c with slots := c.slots.setIfInBounds slot { c.slots.toList.getD slot default with
          used := s.cycle + 1, usedFrame := h.frame, usedMask := h.mask } }
        let after := if left then 0 else g.slicesAt h.mask h.clause (h.idx + 1)
        let s1 :=
          if g.issues && after != 0 && decide (h.idx + 1 < h.hdr.count.toNat) then s0.setHold k slot (some (h.next after))
          else
            let s2 := s0.setHold k slot none
            if h.hdr.yield && g.issues then
              s2.modGroup k h.frame fun g => g.mapSlices h.mask fun _ sl => { sl with late := some s.cycle }
            else s2
        s1.reportStep k h.frame h.mask

/-- An instruction that waits at the next clause header is tried again (R221): it executes from where it issued. -/
def State.resumeHead (s : State) (k f slice : Nat) : Issue :=
  match s.group? k f with
  | none => .idle s
  | some g =>
    match g.waitOf slice with
    | none => .idle s
    | some w =>
      if ((g.status ≠ .running ∨ g.replay) ∧ ¬ w.kept) ∨ ¬ w.retry then .idle s
      else .run w.instr (s.reissue k f w)

/-! ## Time -/

/-- Whether a gang has issued in this cycle: it is not between clauses before the next (R193, R194). -/
def State.issuedNow (s : State) (k : Nat) (x : Gang) : Bool :=
  (s.core k).slots.toList.any fun sl => sl.used == s.cycle + 1 && sl.usedFrame == x.frame && sl.usedMask &&& x.mask != 0

/-- A group's slices stamped with the cycle from which their gang is clause-ready, and its flags that are clear (R192,
R193). -/
def State.stampGroup (s : State) (k f : Nat) (g : Group) : Group :=
  let ready := (g.gangs f ((s.core k).busy f)).filter fun x => g.status == .running && s.clauseReady k (g, x)
  { g with
    slices := Vector.ofFn fun i =>
      let sl := g.slices[i]
      match ready.find? fun x => x.mask.getLsbD i.val with
      | some x => { sl with ready := sl.ready.or (some (if s.issuedNow k x then s.cycle + 1 else s.cycle)) }
      | none => { sl with ready := none },
    clear := (List.range 12).foldl (fun m i => if g.flags.getD i 0 = 0 then m ||| BitVec.ofNat 12 (2 ^ i) else m) 0 }

/-- A core over one cycle: clause-ready gangs are stamped, a starved cycle is counted where no gang of the team has started a
clause in it, and the clock creeps (R193, R194, R334). -/
def State.ageCore (s : State) (k : Nat) (c : Core) : Core :=
  let frames := c.frames.map fun p => (p.1, s.stampGroup k p.1 p.2)
  let starving := fun (t : Team) => !t.started && frames.any fun p =>
    p.2.launch == t.launch && p.2.slices.toList.any fun sl => sl.ready.any fun r => decide (r ≤ s.cycle)
  { c with frames := frames,
           teams := c.teams.map fun t => { t with starved := if starving t then t.starved + 1 else t.starved, started := false },
           clock := c.clock + (c.sinceCreep + 1) / Config.creepCycles,
           sinceCreep := (c.sinceCreep + 1) % Config.creepCycles }

/-- The promotions that are due: of the teams that have starved 20,000,000 cycles (R194). -/
def promotions (cores : Sparse Core) : List Move :=
  cores.flatMap fun p => (p.2.teams.filter fun t => decide (Config.promoteCycles ≤ t.starved)).map fun t => .event (.priorityPromotion p.1 t.launch)

/-- One core cycle passes (R194, R334, R355): every core ages, the teams whose count is full are promoted next, and package time moves
while its clock runs. -/
def State.passTime (s : State) : State :=
  let sub := s.ptimeSub + 1
  let cores := s.cores.map fun p => (p.1, s.ageCore p.1 p.2)
  { s with cores := cores,
           agenda := promotions cores ++ s.agenda,
           cycle := s.cycle + 1,
           ptime := if s.clockStop then s.ptime else s.ptime + sub / Config.cyclesPerNs,
           ptimeSub := if s.clockStop then s.ptimeSub else sub % Config.cyclesPerNs }

/-- The moves of one slot in a cycle: the gang that holds it issues; a free slot picks, unless the governor throttles it
(R190, R193, R195, R365). -/
def State.slotMoves (s : State) (k : Nat) (c : Core) (slot : Nat) : List Move :=
  if (c.slots.toList.getD slot default).hold.isSome then [.issue k slot]
  else if c.frames.isEmpty || Config.throttled (s.die (dieOf k)).share s.cycle k slot then []
  else [.event (.clauseStart k slot)]

/-- The moves of every slot in a cycle, cores and slots ascending (log entry 7). -/
def State.cycleMoves (s : State) : List Move :=
  s.cores.flatMap fun p =>
    ((p.2.frames.filter fun f => f.2.replay).map fun f => Move.event (.replay p.1 f.1)) ++
      (List.range 4).flatMap fun slot => s.slotMoves p.1 p.2 slot

/-- CLOCK_CREEP: the core's clock rises by one (R334). -/
def execClockCreep (k : Nat) (s : State) : Res :=
  .next (s.modCore k fun c => { c with clock := c.clock + 1, sinceCreep := 0 })

/-- PRIORITY_PROMOTION: 20,000,000 starved cycles raise a team by one level, to 3 at most, and the count restarts (R194). -/
def execPriorityPromotion (k launch : Nat) (s : State) : Res :=
  .next (s.modCore k fun c => c.modTeam launch fun t =>
    if Config.promoteCycles ≤ t.starved then { t with promo := if t.prio + t.promo < 3 then t.promo + 1 else t.promo, starved := 0 }
    else t)

/-- SLEEP_END: a slice whose cycles have passed sleeps no more (R196). -/
def execSleepEnd (k f slice : Nat) (s : State) : Res :=
  .next (s.modGroup k f fun g => g.mapSlices (BitVec.ofNat 8 (2 ^ slice)) fun _ sl =>
    if sl.wake ≤ s.cycle then { sl with wake := 0 } else sl)

end Sys2Proof.Machine
end

