-- ==== Sys2Proof/Machine/Preempt.lean ====
section
/-! DEFINITION. Pre-emption: the request, the drain, and the save records in memory (R34, R212, R253, R270 to R276, R298, R301,
R321, R335). -/

namespace Sys2Proof.Machine

open Sys2Proof

/-! ## The request (R270) -/

/-- Cores that hold a team of a cluster. -/
def State.clusterCores (s : State) (launch cluster : Nat) : List Nat :=
  (s.cores.filter fun p => p.2.teams.any fun t => t.launch == launch && t.cluster == cluster).map (·.1)

/-- A group asked to stop: it starts no clause from now on, and its sleep ends (R196, R270). -/
def Group.stopForSave (g : Group) : Group :=
  if g.status = .running then { (g.mapSlices 0xFF fun _ sl => { sl with wake := 0 }) with status := .preempt } else g

/-- The record addresses of a cluster's teams as Sundoc has set them last (R274). -/
def State.setRecs (s : State) (launch cluster : Nat) (recs : Option RecAddrs) : State :=
  match recs with
  | none => s
  | some a => (s.clusterCores launch cluster).foldl (fun (t : State) k => t.modCore k fun c => c.modTeam launch fun x =>
      { x with coreRec := a.cores.getD x.rank 0, grpRecs := a.groups.getD x.rank [] }) s

/-- PREEMPT_REQUEST: the pass asks the cores of a cluster to pre-empt its teams, their records where Sundoc has them by then (R270,
R274). -/
def execPreemptRequest (launch : Nat) (a : SaveArgs) (s : State) : Res :=
  .next ((s.clusterCores launch a.cluster).foldl (fun (t : State) k =>
    t.modCore k fun c =>
      { (c.modTeam launch fun x => { x with preempting := true }) with
        frames := c.frames.map fun p => (p.1, if p.2.launch = launch then p.2.stopForSave else p.2) }) (s.setRecs launch a.cluster a.recs))

/-! ## The drain (R271, R298) -/

/-- A load or WAITV whose translation is unknown; a pre-emption leaves it in the operand log (R271). -/
def Req.unknown (q : Req) : Bool := q.stage == .walk && (q.kind == .load || q.kind == .waitv) && q.dst.isNone

/-- Whether the accesses of a group that are translated have completed: only logged loads, those of unknown translation,
waiting WAITVs, and blocks that an FCOPY has asked for and not written are left (R271, R272). -/
def State.accessesDone (s : State) (k fr : Nat) : Bool :=
  !s.reqs.any fun q => q.core == k && q.frame == fr && q.stage != .logged && q.stage != .asleep && !q.unknown && q.lane != 34

/-- Whether no release at fabric scope would wait any more for the remote writes of a group (R273, R417, R422). -/
def State.fabricDone (s : State) (g : Group) : Bool :=
  match g.fabWin with
  | none => true
  | some n => !s.timeSync || decide ((n + 2) * s.winLen.toNat + 50 ≤ s.ptime)

/-- Whether a group of a team that is being pre-empted has drained; a barrier phase that is complete is left first, and a wait
that a pre-emption does not abandon ends (R221, R271, R298). -/
def State.groupDrained (s : State) (k fr : Nat) (g : Group) : Bool :=
  s.accessesDone k fr && !(s.core k).slots.toList.any (fun x => x.hold.any fun h => h.frame == fr) &&
    !(s.core k).rackQ.any (fun w => w.frame == fr) && s.fabricDone g && !g.waits.any (fun w => s.mustDepart k g.launch w || w.kept)

/-- The groups of a launch on a core with their frames. -/
def Core.groupsOf (c : Core) (launch : Nat) : List (Nat × Group) := c.frames.filter fun p => p.2.launch == launch

/-- Whether two works of one group that stand in different sections must keep an order: a core record keeps none between sections, so
that the earlier work is done before a save (R241, R253, log entry 37). -/
def Core.crossed (c : Core) (mine : Nat → Bool) : Bool :=
  let xs := c.sections.toList.zip (List.range 4)
  xs.any fun x => x.1.queue.any fun w => mine w.frame && xs.any fun y => y.2 != x.2 && y.1.queue.any fun v =>
    v.frame == w.frame && decide (v.seq < w.seq) &&
      ((v.use c).writes.any (fun n => (w.use c).reads.contains n || (w.use c).writes.contains n) || (v.use c).reads.any (w.use c).writes.contains)

/-- Whether every team of a cluster has drained. -/
def State.clusterDrained (s : State) (launch : Nat) (ks : List Nat) : Bool :=
  ks.all fun k => !(s.core k).crossed (fun f => ((s.core k).groupsOf launch).any fun p => p.1 == f) && ((s.core k).groupsOf launch).all (fun p => s.groupDrained k p.1 p.2) &&
    !s.reqs.any fun q => q.core == k && q.frame == 64 && q.wb == some launch

/-- A waiting WAITV goes to the operand log; it has no faulting lane, so that its entry has no cause (R207, R271, log entry 92). -/
def State.logWaitv (s : State) (r : Req) : State :=
  let s1 := s.modReq r.id fun q => { q with stage := .logged }
  s1.modGroup r.core r.frame fun g =>
    if g.log.any fun e => e.op == r.op then g
    else { (g.flagDown r.flag) with log := g.log ++ [⟨r.op, r.pc, r.inst, none, r.flag, r.va⟩] }

/-- The asynchronous fault that a drained group reports: its lowest such slice with the next clause header that the slice comes to, or with
the junction where it stands (R261, R263, R271). -/
def State.drainAsync (s : State) (k : Nat) (g : Group) : Option (Async × FaultRec) :=
  let at' := fun (a : Async) =>
    let sl := g.lead a.mask
    (a, (⟨a.cause, if a.cause = .joinMis then .H else .A, a.addr, if a.cause = .joinMis then sl.pc else s.nextHeader k g sl, lowSlice a.mask,
      sl.iidx, none⟩ : FaultRec))
  (leastBy (fun p => p.2.rank) (g.async.map at')).head?

/-- The POISON of a scalar load or atomic whose data has come poisoned, at the group's lowest live slice (R262, R271). -/
def Group.drainPoison (g : Group) : Option (PoisonMark × BitVec 8 × FaultRec) :=
  match g.sPoison, (List.finRange 8).find? fun i => g.slices[i].exited != 0xF with
  | p :: _, some i => some (p, g.splitOf i, ⟨.poison, .L, p.addr, p.pc, lowSlice (g.splitOf i), g.slices[i].iidx, none⟩)
  | _, _ => none

/-- A fault of the drain is reported; where it is the one that is recorded, what held it is changed. -/
def State.drainOne (s : State) (k fr : Nat) (mask : BitVec 8) (r : FaultRec) (done : Group → Group) : State :=
  let t := s.raise k fr mask r
  if (t.group? k fr).any fun g => g.fault == some r then t.modGroup k fr done else t

/-- What becomes reportable while a group drains is recorded: held faults, then an asynchronous one, then poisoned scalar data; the
asynchronous ones that are not recorded stay (R263, R271). -/
def State.drainFaults (s : State) (k fr : Nat) : State :=
  match s.group? k fr with
  | none => s
  | some g =>
    if g.status ≠ .preempt then s
    else
      let late := fun (g : Group) => (g.due.filter fun d => d.flt.kind == .A && g.fault != some d.flt).map fun d => ⟨d.flt.cause, d.flt.addr, d.mask⟩
      let s1 := (g.due.foldl (fun (t : State) d => t.raise k fr d.mask d.flt) s).modGroup k fr fun g =>
        { g with due := [], async := g.async ++ late g }
      let s2 := match s.drainAsync k g with
        | none => s1
        | some (a, r) => s1.drainOne k fr a.mask r fun g => { g with async := g.async.erase a }
      match g.drainPoison with
      | none => s2
      | some (p, m, r) => s2.drainOne k fr m r fun g => { g with sPoison := g.sPoison.erase p }

/-- A drained group at its resume points, its clock, HOSTMARK and log as the save needs them (R271, R335, R347). DESIGN CHOICE: a load that
is logged with its translation still unknown has the cause PAGE and its lane's address in the log (log entry 84). -/
def State.settleGroup (s : State) (k fr : Nat) : State :=
  match s.group? k fr with
  | none => s
  | some g =>
    let s1 := (s.drainFaults k fr).abandonWaits k fr
    let s2 := s1.raiseClock k (Nat.max g.rdmax g.ackmax)
    let s3 := if g.hostSt then { s2 with hostmark := Nat.max s2.hostmark (s2.core k).clock } else s2
    let mine := fun (q : Req) => q.core == k && q.frame == fr
    let s4 := (s3.reqs.filter fun q => mine q && q.unknown).foldl (fun (t : State) r => t.logReq r .page r.va) s3
    (s4.reqs.filter fun q => mine q && q.stage == .asleep).foldl (fun (t : State) r => t.logWaitv r) s4

/-- The nest unit goes on to its next 128-element boundary (R258, R271). -/
def State.settleNest (s : State) (k launch : Nat) : State :=
  match (s.core k).nestQ with
  | [] => s
  | w :: _ =>
    match w.instr, s.group? k w.frame with
    | .nest f, some g =>
      if g.launch ≠ launch ∨ w.tuple % 128 = 0 ∨ w.why.isSome then s
      else s.nestRun k g ((((s.core k).team? launch).map (·.scratchBase)).getD 0) f w (128 - w.tuple % 128)
    | _, _ => s

/-- Handle slots of a launch that hold an operation. -/
def Core.opsOf (c : Core) (launch : Nat) : List (Nat × HandleSlot) := c.handles.filter fun p => p.2.launch == launch && p.2.state != .free

/-- Engine operations stop at their progress points: the index in hand of a SCATTER is finished, words that a write-back has not written are
dirty again (R271, R272). -/
def State.settleEngines (s : State) (k launch : Nat) : State :=
  ((s.core k).opsOf launch).foldl (fun (t : State) p =>
    if p.2.op = 0x05 ∨ p.2.op = 0x06 then t.modCore k fun c => p.2.words.foldl (fun (c : Core) w => c.setStatus w (c.status w ||| 2)) c
    else t.finishElem k p.1) s

/-! ## The group record (R212, R274) -/

/-- The lowest slice of a slice's split, itself when every lane of it has exited (R274). -/
def Group.splitLow (g : Group) (i : Fin 8) : Nat :=
  let a := g.slices[i]
  if a.exited = 0xF then i.val
  else
    match (List.finRange 8).find? fun j =>
      let b := g.slices[j]
      b.pc == a.pc && b.depth == a.depth && b.dvtop == a.dvtop && b.exited != 0xF with
    | some j => j.val
    | none => i.val

/-- The kind of a fault as a record has it (R274). -/
def FaultKind.code : FaultKind → Nat
  | .P => 0 | .H => 1 | .L => 2 | .A => 3

/-- FLAGS of a group record: FAULT, NESTED, HFAIL, DEBUGSTOP, DRAINFAULT (R264, R271, R274). Of a group that stands in the fault service
no rule names them: its fault stands there as one of the drain (log entry 77). -/
def Group.recFlags (g : Group) : Nat :=
  match g.status with
  | .faulted nested hfail => 1 + 2 * nested.toNat + 4 * hfail.toNat
  | .debug => 8
  | .service => 16 + 8 * g.halted.toNat
  | .preempt => (if g.drainFault then 16 else 0) + 8 * g.halted.toNat
  | _ => 0

/-- The SKIP bits of the splits in handler mode, each at its lowest slice (R274). -/
def Group.skipBits (g : Group) : Nat :=
  ((List.finRange 8).filter fun i => g.slices[i].handler && g.slices[i].skip && g.splitLow i == i.val).foldl (fun n i => n + 2 ^ i.val) 0

/-- Whether an operand-log entry is a WAITV's, which takes two places (R271). -/
def LogEntry.isWaitv (e : LogEntry) : Bool := e.inst / 2 ^ 60 == 4 && e.inst / 2 ^ 54 % 64 == 4

/-- The 256-byte header of a group record (R274). -/
def Group.recHeader (g : Group) : List Byte :=
  let sl := fun (u : Fin 8 → Slice → List Byte) => (List.finRange 8).flatMap fun i => u i g.slices[i]
  let f := fun (u : FaultRec → Nat) => (g.fault.map u).getD 0
  leBytes 4 0x52534757 ++ leBytes 2 1 ++ leBytes 2 g.recFlags ++ sl (fun _ x => leBytes 8 x.pc.toNat) ++
    sl (fun _ x => [byteOf (x.active.toNat + 16 * x.exited.toNat), byteOf x.dvtop.toNat] ++ leBytes 2 x.depth) ++
    sl (fun _ x => [byteOf x.iidx]) ++ sl (fun i x => [byteOf (g.splitLow i + 8 * x.handler.toNat)]) ++
    leBytes 2 g.hdr.callDepth ++ leBytes 2 g.divDepth ++
    [byteOf g.hdr.pantry, byteOf ((g.log.map fun e => if e.isWaitv then 2 else 1).sum), byteOf g.actBank, byteOf g.hdr.scalars] ++
    leBytes 8 g.csp.toNat ++ [byteOf (f fun r => r.cause.code), byteOf (f (·.slice)), byteOf (f (·.idx)), byteOf (f fun r => r.kind.code)] ++
    zeros 4 ++ leBytes 8 (f (·.addr.toNat)) ++ leBytes 8 (f (·.pc.toNat)) ++ leBytes 8 g.skipBits ++ zeros 88

/-- An operand-log entry; a WAITV's second entry holds its compare values (R212, R271). DESIGN CHOICE: CAUSE of a WAITV that waits and has
no faulting lane is 0 (log entry 92). -/
def logBytes (e : LogEntry) (rs : List Req) : List Byte :=
  let first := fun (l : Nat) => rs.find? fun r => r.lane == l
  let part := fun (addr : Req → Nat) =>
    leBytes 8 e.pc.toNat ++ leBytes 8 e.inst ++
      leBytes 4 ((List.range 32).foldl (fun m l => if (first l).isSome then m + 2 ^ l else m) 0) ++
      [byteOf ((e.cause.map (·.code)).getD 0), byteOf (e.flag.getD 15)] ++ zeros 2 ++ leBytes 8 e.faddr.toNat ++
      (List.range 32).map (fun l => byteOf (((first l).bind fun r => r.entries.head?).map (·.toNat) |>.getD 0)) ++
      (List.range 32).flatMap (fun l => leBytes 8 (((first l).map addr).getD 0)) ++ zeros 192
  if e.isWaitv then part (fun r => r.va.toNat) ++ part (fun r => leNat r.cmp) else part fun r => r.va.toNat

/-- A divergence entry (R29). -/
def DivEntry.bytes (d : DivEntry) : List Byte :=
  leBytes 8 d.jpc.toNat ++ leBytes 8 d.dpc.toNat ++ leBytes 4 d.pmask.toNat ++ leBytes 4 d.amask.toNat ++ leBytes 4 d.dmask.toNat ++
    [byteOf d.onet.toNat] ++ leBytes 2 d.depth ++ [0]

/-- The divergence entries of indices from `lo` up to `hi` in the order of their indices; a closed one is zero. DESIGN CHOICE: R281 gives
only where the spill area begins; the model lays it out like the record's own entries (log entry 85). -/
def Group.divBytes (g : Group) (lo hi : Nat) : List Byte :=
  (List.range (hi - lo)).flatMap fun j => match g.divOpen (lo + j) with | some d => d.bytes | none => zeros 32

/-- The parts of a group's record (R274). -/
def State.groupPieces (s : State) (k fr : Nat) (g : Group) : List Piece :=
  let lanes := g.lanes.toList
  let running := ((s.core k).handles.filter fun p => p.2.owner == fr && p.2.launch == g.launch && (p.2.state == .running || p.2.state == .paused)).length
  let logs := g.log.flatMap fun e => logBytes e (s.reqs.filter fun r => r.core == k && r.frame == fr && r.op == e.op && r.stage == .logged)
  [(0, g.recHeader), (0x100, lanes.flatMap fun l => headNet l.head l.net), (0x140, g.scalars.toList.flatMap fun w => leBytes 4 w.toNat),
   (0x2C0, g.flags.toList.map byteOf ++ leBytes 4 running ++ zeros 48), (0x300, logs ++ zeros (2048 - logs.length)),
   (0xB00, g.divBytes 0 32), (0x1000, lanes.flatMap fun l => l.trail.toList.flatMap fun w => leBytes 4 w.toNat),
   (0x2000, (List.range g.hdr.pantry).flatMap fun j => lanes.flatMap fun l => leBytes 4 (l.pantry.toList.getD j 0).toNat)]

/-- The parts of a group's call stack: its shadow, and the divergence entries that spill (R31, R32, R34, R281). -/
def Group.stackPieces (g : Group) : List Piece := g.shadowPieces ++ [(4352 * g.hdr.callDepth, g.divBytes 32 g.divDepth)]

/-! ## The core record (R253, R275, R276) -/

/-- The unit of a matrix instruction in a section's queue. -/
def SecWork.unit (w : SecWork) : Nat :=
  packBits layoutX [6, w.op, w.f.slotA.toNat, w.f.slotD.toNat, w.f.scale.toNat, w.f.sect.toNat, w.f.fmtA.toNat, w.f.fmtB.toNat,
    w.f.flags.toNat, w.f.soff.toNat, w.f.count.toNat]

/-- A section's descriptor, its slots counted from the bottom of the window (R253): the owner with its latch, and the queued work, as far as
they are the team's; of another team's frames it has none. -/
def Section.bytes (x : Section) (rackBase : Nat) (mine : Nat → Bool) : List Byte :=
  let own := x.owner.filter mine
  let queue := x.queue.filter fun w => mine w.frame
  let latch := if own.isSome then x.b else none
  let book := if own.isSome then x.cb else none
  if own.isNone && queue.isEmpty then byteOf 0xFF :: zeros 4 ++ [0xFF, 0xFF, 0xFF] ++ zeros 56
  else
    let b := fun (u : BLatch → Nat) (d : Nat) => (latch.map u).getD d
    let w := fun (i : Nat) (u : SecWork → Nat) => ((queue[i]?).map u).getD 0
    [byteOf (own.getD 0xFF), byteOf (latch.isSome.toNat + 2 * book.isSome.toNat), byteOf (b (·.fmt) 0),
     byteOf (b (fun l => if l.kclass = 256 then 2 else if l.kclass = 128 then 1 else 0) 0), byteOf (b (fun l => l.slot - rackBase) 0),
     byteOf ((book.map fun n => n - rackBase).getD 0xFF)] ++
      leBytes 2 (b (fun l => (l.wscale.map fun a => (a - 4096 * rackBase) / 32).getD 0xFFFF) 0xFFFF) ++
      leBytes 8 (w 0 SecWork.unit) ++ [byteOf (w 0 (·.frame)), byteOf (w 0 fun v => v.tiles.getD v.tile 0), byteOf (w 0 fun v => v.qmask.toNat)] ++
      zeros 13 ++ leBytes 8 (w 1 SecWork.unit) ++ [byteOf (w 1 (·.frame)), byteOf (w 1 fun v => v.qmask.toNat)] ++ zeros 22

/-- A range lock's entry, its first byte in the addresses of its space (R276). -/
def RangeLock.bytes (l : RangeLock) (t : Team) : List Byte :=
  let start := if l.space = 1 then l.start - t.scratchBase else if l.space = 3 then l.start - 4096 * t.rackBase else l.start
  leBytes 8 start ++ leBytes 4 (Nat.min l.len (2 ^ 32 - 1)) ++ [byteOf l.space, byteOf l.source.toNat, byteOf l.owner, 0]

/-- A mapped range's entry (R276). -/
def MapRange.bytes (m : MapRange) : List Byte :=
  leBytes 4 m.off ++ leBytes 4 m.len ++ leBytes 8 m.g.toNat ++ [byteOf m.mode, byteOf m.preload.toNat] ++ zeros 2 ++
    leBytes 4 (if m.mode = 1 then m.applied else 0) ++ zeros 8

/-- A handle slot's state as a record has it; an operation stopped at its progress point is paused (R272, R275). -/
def HState.code : HState → Nat
  | .free => 0 | .running => 2 | .paused => 2 | .error => 3

/-- VAR of an operation; an FCOPY has its release there. -/
def HandleSlot.recVar (h : HandleSlot) : Nat := if h.op = 0x21 then h.rel.toNat else h.var.toNat

/-- An engine's progress record (R272, R275). -/
def HandleSlot.bytes (h : HandleSlot) (word : Nat) : List Byte :=
  leBytes 2 word ++ [byteOf h.owner, byteOf h.state.code, byteOf h.op, byteOf h.recVar] ++ zeros 2 ++ leBytes 4 h.imm.toNat ++ zeros 4 ++
    leBytes 8 h.done ++ leBytes 4 ((h.errCause.map (·.code)).getD 0) ++ zeros 4 ++ leBytes 8 h.errAddr.toNat ++
    leBytes 8 (if h.op = 0x05 then h.g.toNat else 0) ++ leBytes 4 (if h.op = 0x05 then h.len else 0) ++ zeros 12

/-- A NEST with the frame that issued it, and the progress of the one the unit serves (R258, R275). -/
def NestWork.bytes (w : NestWork) (progress : Bool) : List Byte :=
  wordsBytes (encode w.instr) ++ leBytes 4 w.frame ++
    (if progress then leBytes 4 w.tuple ++ leBytes 4 ((w.partialRed.map (·.toNat)).getD 0) ++ zeros 20 else zeros 28)

/-- Offsets of the scratch and the rack window in a core record (R275). -/
def recScratchOff (scratch : Nat) : Nat := (0x8000 + (scratch + 15) / 16 + 4095) / 4096 * 4096
def recRackOff (scratch : Nat) : Nat := (recScratchOff scratch + scratch + 4095) / 4096 * 4096

/-- A byte of the word-status array: four words of a window (R275). -/
def Core.statusByte (c : Core) (base j : Nat) : Byte :=
  byteOf ((List.range 4).foldl (fun n i => n + (c.status (base / 4 + 4 * j + i)).toNat * 4 ^ i) 0)

/-- The header of a core record (R275). -/
def Core.recHeader (c : Core) (t : Team) (ctx : Nat) : List Byte :=
  let frames := (c.groupsOf t.launch).foldl (fun n p => n + 2 ^ p.1) 0
  leBytes 4 0x52534357 ++ leBytes 2 1 ++ leBytes 2 (if t.rank = 0 then 1 else 0) ++ c.carve.toList ++ leBytes 4 t.scratchLen ++
    leBytes 2 t.rackLen ++ zeros 2 ++ leBytes 4 (t.peers.length * 256 + t.rank) ++ leBytes 8 frames ++ leBytes 8 c.clock ++ leBytes 2 ctx ++
    zeros 6 ++ leBytes 4 (recScratchOff t.scratchLen) ++ leBytes 4 (recRackOff t.scratchLen) ++
    leBytes 4 (recRackOff t.scratchLen + 4096 * t.rackLen) ++ zeros 452

/-- Entries of a table padded to its size. -/
def padTo (n : Nat) (bs : List Byte) : List Byte := bs ++ zeros (n - bs.length)

/-- The parts of a team's core record, its reserved gaps zero; `engine` tells the locks of the launch's engine operations (R253, R275,
R276). -/
def Core.pieces (c : Core) (t : Team) (ctx : Nat) (engine : RangeLock → Bool) : List Piece :=
  let mine := fun (f : Nat) => (c.groupsOf t.launch).any fun p => p.1 == f
  let slot := fun (h : Nat) => let x := c.handle h; if x.launch = t.launch ∧ x.state ≠ .free then some x else none
  let locks := c.locks.filter fun l => !(l.space == 3 && l.source) && (if 0x80 ≤ l.owner then mine (l.owner - 0x80) else engine l)
  let nests := c.nestQ.filter fun w => mine w.frame
  let hs := List.range 72
  [(0, c.recHeader t ctx), (0x200, c.sections.toList.flatMap fun x => x.bytes t.rackBase mine),
   (0x300, padTo 1024 (locks.flatMap fun l => l.bytes t)), (0x700, padTo 512 ((c.maps.filter fun m => m.launch == t.launch).flatMap MapRange.bytes)),
   (0x900, (t.bars.toList ++ t.cbars.toList).flatMap fun w => leBytes 4 w.toNat),
   (0x980, (List.range 128).map fun i => byteOf (((Sparse.get? c.claims (t.rackBase + i)).filter fun f => mine f && decide (i < t.rackLen)).getD 0xFF)),
   (0xA00, hs.flatMap fun h => match slot h with
     | some x => [byteOf x.gen.toNat, byteOf x.owner, byteOf x.state.code, 0]
     | none => [byteOf (c.handle h).gen.toNat, 0, 0, 0]),
   (0xB20, zeros 32), (0x3080, zeros 128), (0x7200, zeros 3584),
   (0x8000 + (t.scratchLen + 15) / 16, zeros (recScratchOff t.scratchLen - (0x8000 + (t.scratchLen + 15) / 16))),
   (recScratchOff t.scratchLen + t.scratchLen, zeros (recRackOff t.scratchLen - (recScratchOff t.scratchLen + t.scratchLen))),
   (0xB40, match nests with | w :: _ => w.bytes true | [] => zeros 64), (0xB80, padTo 256 ((nests.drop 1).flatMap fun w => w.bytes false)),
   (0xC80, hs.flatMap fun h => match slot h with | some x => x.bytes (c.handleWord h) | none => zeros 64),
   (0x1E80, hs.flatMap fun h => padTo 64 (((slot h).map fun x => x.block.flatMap fun w => leBytes 4 w.toNat).getD [])),
   (0x3100, c.banks.toList.flatMap fun b => Memory.read b 0 bankBytes),
   (0x8000, (List.range ((t.scratchLen + 15) / 16)).map (c.statusByte t.scratchBase)),
   (recScratchOff t.scratchLen, Memory.read c.scratch t.scratchBase t.scratchLen),
   (recRackOff t.scratchLen, Memory.read c.rack (4096 * t.rackBase) (4096 * t.rackLen))]

/-! ## Records in memory -/

/-- Addresses of the bytes of poisoned entries: of a trail in a group record, of call records in the call stack (R262). -/
def Group.badBytes (g : Group) (rec' : DWord) : List DWord :=
  let word := fun (a : DWord) (m : PoisonMark) => (List.range 4).map fun j => a + BitVec.ofNat 64 (4 * m.entry.toNat + j)
  let lanes := (List.range 32).zip g.lanes.toList
  let recs := g.laneRecs.map (fun p => (p.1, p.2.poison)) ++ g.recHeld.map fun p => (p.1, p.2.2)
  (lanes.flatMap fun p => p.2.poison.flatMap (word (rec' + BitVec.ofNat 64 (0x1000 + 128 * p.1)))) ++
    recs.flatMap fun p => p.2.flatMap (word (g.csp + BitVec.ofNat 64 (laneRecOff p.1)))

/-- A group's record and its call stack written, poisoned entries as poisoned bytes (R34, R262, R274). -/
def State.writeGroup (s : State) (k fr : Nat) (t : Team) : State :=
  match s.group? k fr with
  | none => s
  | some g =>
    let a := t.grpRecs.getD fr 0
    ((s.storeRec k g.ctx a (s.groupPieces k fr g)).storeRec k g.ctx g.csp g.stackPieces).poisonRec k g.ctx (g.badBytes a)

/-- A team's core record written, poisoned words of its windows with it (R262, R275). -/
def State.writeCore (s : State) (k : Nat) (t : Team) (ctx : Nat) : State :=
  let c := s.core k
  let at' := fun (off : Nat) => t.coreRec + BitVec.ofNat 64 off
  let scr := (c.scratchPoison.filter fun w => decide (t.scratchBase ≤ 4 * w ∧ 4 * w < t.scratchBase + t.scratchLen)).flatMap fun w =>
    (List.range 4).map fun j => at' (recScratchOff t.scratchLen + (4 * w - t.scratchBase) + j)
  let rack := (c.rackPoison.filter fun b => decide (4096 * t.rackBase ≤ b ∧ b < 4096 * (t.rackBase + t.rackLen))).map fun b =>
    at' (recRackOff t.scratchLen + (b - 4096 * t.rackBase))
  (s.storeRec k ctx t.coreRec (c.pieces t ctx fun l => t.peers.contains l.core && s.lockOf t.launch l)).poisonRec k ctx (scr ++ rack)

/-- A subscription whose team is pre-empted stays registered, and is sent nothing (R321). -/
def Sub.detach (u : Sub) : Sub :=
  { u with core := none, live := false, unread := List.range ((u.parts.map fun p => p.1 + p.2.2).foldl Nat.max 0 / 128) }

/-- A saved team leaves its core: its frames, slots, sections, locks and ranges are free; its subscriptions stay registered
(R321). -/
def State.dropSaved (s : State) (k launch : Nat) (peers : List Nat) : State :=
  let frs := ((s.core k).groupsOf launch).map (·.1)
  let s1 := { s with reqs := s.reqs.filter fun q => !(q.core == k && frs.contains q.frame) }
  let gone := ((s.core k).maps.filter fun m => m.launch == launch).map fun m => (s.core k).mapBase m
  let s2 := peers.foldl (fun (t : State) p => t.modCore p fun c =>
    { c with subBounds := c.subBounds.filter (fun b => !(b.1 == k && gone.contains b.2.1)),
             locks := c.locks.filter fun l => !(l.core == k && s.lockOf launch l) }) s1
  let s3 := s2.mapSubs fun u => if u.core == some k && u.launch == launch then u.detach else u
  s3.modCore k fun c => c.dropLaunch launch

/-- What Sundoc's account keeps of a drained group beside its records. DESIGN CHOICE (R36, log entry 43). -/
def State.groupNote (s : State) (k rank fr : Nat) (g : Group) : GroupNote :=
  let entryOf := fun (op : Nat) => g.log.findIdx? fun e => e.op == op
  let held := g.laneRecs.map (fun p => (p.1, p.2.pend, p.2.poison)) ++ g.recHeld
  let logged := (s.reqs.filter fun r => r.core == k && r.frame == fr && r.stage == .logged).filterMap fun r => (entryOf r.op).map fun j => (j, r)
  { rank := rank, frame := fr, win := g.fabWin, traps := g.traps.map fun p => (p.1, { p.2 with op := p.2.op.bind entryOf }),
    entry := (g.fault.bind (·.op)).bind entryOf,
    homes := logged.filterMap fun p =>
      (held.find? fun h => h.1 % 32 == p.2.lane && h.2.1.any (·.req == p.2.id)).map fun h => (32 * p.1 + p.2.lane, h.1 / 32),
    marks := (List.range 32).zip (g.lanes.toList.map (·.poison)) ++ held.map fun h => (h.1, h.2.2),
    scalar := g.sPoison, async := g.async, nests := ((s.core k).nestQ.filter fun w => w.frame == fr).map (·.flag),
    atoms := (logged.filter fun p => p.2.isAtomic).map fun p => (32 * p.1 + p.2.lane, p.2.data),
    late := logged.flatMap fun p => ((List.range ((p.2.dst.map (·.2)).getD 0)).map fun i => ((p.2.dst.map (·.1)).getD 0 + i, p.1 + 2)).filter fun x =>
      decide (p.2.seq < g.sseq.toList.getD x.1 0) }

/-- A cluster that has drained is saved: its units stop before its groups' clocks take what their accesses have acknowledged (R271 to R276,
R298, R321, R323, R335). -/
def State.saveCluster (s : State) (launch cluster : Nat) (ks : List Nat) : State :=
  let each := fun (u : State → Nat → State) (t : State) => ks.foldl u t
  let frs := fun (t : State) (k : Nat) => (t.core k).groupsOf launch
  let s1 := each (fun t k => (t.settleNest k launch).settleEngines k launch) s
  let s2 := each (fun t k => (frs t k).foldl (fun (t : State) p => t.settleGroup k p.1) t) s1
  let ctx := ((s.launch? launch).map fun l => l.record.ctx).getD 0
  let write := fun (t : State) (k : Nat) =>
    match (t.core k).team? launch with
    | none => t
    | some x => ((frs t k).foldl (fun (t : State) p => t.writeGroup k p.1 x) t).writeCore k x ctx
  let s3 := each write s2
  let ranked := (((s.core (ks.headD 0)).team? launch).map (·.peers)).getD []
  let notes := (ks.zip (List.range ks.length)).flatMap fun p => (frs s2 p.1).map fun q => s2.groupNote p.1 p.2 q.1 q.2
  let saved : Saved := ⟨launch, cluster, ((ks.map fun k => ((s2.core k).groupsOf launch).length).foldl (· + ·) 0), dieOf (ks.headD 0), notes⟩
  let s4 := each (fun t k => t.dropSaved k launch ranked) s3
  (({ s4 with saved := s4.saved ++ [saved] }).saveBlock (dieOf (ks.headD 0)) launch)

/-- SAVE_RECORDS: a cluster that is being pre-empted and has drained is saved; else the records of its groups that trap mode 0
or 2 has stopped are written where Sundoc wants them, their frames stay (R265, R271, R274). -/
def execSaveRecords (launch : Nat) (a : SaveArgs) (s : State) : Res :=
  let ks := s.clusterCores launch a.cluster
  let asked := ks.all fun k => ((s.core k).team? launch).any (·.preempting)
  if ks.isEmpty then .next s
  else if asked then
    if s.clusterDrained launch ks then .next (s.saveCluster launch a.cluster ks) else .next s
  else
    let stopped := fun (g : Group) => match g.status with | .faulted _ _ => true | .gridStop => true | _ => false
    .next (ks.foldl (fun (t : State) k =>
      match (t.core k).team? launch with
      | none => t
      | some x => ((t.core k).groupsOf launch).foldl (fun (t : State) p =>
          if stopped p.2 && t.groupDrained k p.1 p.2 then (t.settleGroup k p.1).writeGroup k p.1 x else t) t) (s.setRecs launch a.cluster a.recs))

end Sys2Proof.Machine
end

