-- ==== Sys2Proof/Machine/Restore.lean ====
section
/-! DEFINITION. Restore: a saved cluster read back from its records and its call stacks alone (R29, R32, R36, R194, R212, R253, R272,
R274 to R277, R321, R323). -/

namespace Sys2Proof.Machine

open Sys2Proof

/-! ## Reading records -/

/-- The cause of a code. -/
def causeOf? (n : Nat) : Option Cause :=
  let all : List Cause := [.illop, .badTarget, .codeEnd, .unitAbsent, .page, .prot, .align, .rlock, .scratchOob, .joinMis, .sigMis, .stackOvf,
    .slotFault, .fmtFault, .mxQuart, .handle, .barFault, .xpair, .launchErr, .actBusy, .ecc, .poison, .linkErr, .timeSync, .brk, .trap,
    .watch, .step]
  all.find? fun c => c.code == n

/-- The cause of a code in a record. -/
def causeOfCode (n : Nat) : Cause := (causeOf? n).getD .poison

def kindOfCode (n : Nat) : FaultKind := match n with | 0 => .P | 1 => .H | 2 => .L | _ => .A

/-! ## Groups (R274) -/

/-- Entries of a trail in memory that hold poisoned bytes, as marks of an instruction address (R262). -/
def trailMarks (at' : DWord) (pc : DWord) (trail : List (Byte × Bool)) : List PoisonMark :=
  ((List.range 32).filter fun e => ((trail.drop (4 * e)).take 4).any (·.2)).map fun e =>
    ⟨BitVec.ofNat 5 e, at' + BitVec.ofNat 64 (4 * e), pc, none⟩

/-- A lane from its HEAD and NET, its trail and its pantry. -/
def laneFrom (hn trail pantry : List Byte) (p l : Nat) (marks : List PoisonMark) : Lane :=
  { head := BitVec.ofNat 5 (byteAt hn 0), net := BitVec.ofNat 8 (byteAt hn 1),
    trail := Vector.ofFn fun i => BitVec.ofNat 32 (fieldOf trail (4 * i.val) 4), pend := [], poison := marks,
    pantry := Vector.ofFn fun j => if j.val < p then BitVec.ofNat 32 (fieldOf pantry (128 * j.val + 4 * l) 4) else 0 }

/-- A divergence entry from its bytes, none where it is closed (R29). -/
def divFrom (bs : List Byte) : Option DivEntry :=
  if fieldOf bs 0x10 4 = 0 then none
  else some ⟨BitVec.ofNat 64 (fieldOf bs 0 8), BitVec.ofNat 64 (fieldOf bs 8 8), BitVec.ofNat 32 (fieldOf bs 0x10 4),
    BitVec.ofNat 32 (fieldOf bs 0x14 4), BitVec.ofNat 32 (fieldOf bs 0x18 4), BitVec.ofNat 8 (byteAt bs 0x1C), fieldOf bs 0x1D 2⟩

/-- Divergence entries of indices from `lo` on, from their bytes. -/
def divsFrom (lo n : Nat) (bs : List Byte) : Sparse DivEntry :=
  (List.range n).filterMap fun j => (divFrom (bs.drop (32 * j))).map fun d => (lo + j, d)

/-- A slice from a record's header (R274). -/
def sliceFrom (h : List Byte) (skips : Nat) (s : Nat) : Slice :=
  let sp := byteAt h (0x70 + s)
  { Slice.start (BitVec.ofNat 64 (fieldOf h (8 + 8 * s) 8)) with
    iidx := byteAt h (0x68 + s), active := BitVec.ofNat 4 (byteAt h (0x48 + 4 * s)), exited := BitVec.ofNat 4 (byteAt h (0x48 + 4 * s) / 16),
    depth := fieldOf h (0x4A + 4 * s) 2, dvtop := BitVec.ofNat 6 (byteAt h (0x49 + 4 * s)), handler := decide (sp / 8 % 2 = 1),
    skip := decide (sp / 8 % 2 = 1) && skips.testBit (sp % 8) }

/-- A group from its record, which stands at an address, the divergence entries `st` that its call stack has, and Sundoc's account of it,
whose log entries are numbered from `op` on; its call records stay in memory (R34, R36, R274, R281). -/
def Launch.groupFrom (l : Launch) (priv : Bool) (cluster index placedAt : Nat) (at' : DWord) (rs : List (Byte × Bool)) (st : List Byte)
    (note : GroupNote) (op : Nat) : Group :=
  let r := rs.map (·.1)
  let skips := fieldOf r 0xA0 1
  let slices : Vector Slice 8 := Vector.ofFn fun s => sliceFrom r skips s.val
  let flags := fieldOf r 6 2
  let cause := byteAt r 0x88
  let fault : Option FaultRec := if flags % 32 = 0 ∨ cause = 0 then none
    else some ⟨causeOfCode cause, kindOfCode (byteAt r 0x8B), BitVec.ofNat 64 (fieldOf r 0x90 8), BitVec.ofNat 64 (fieldOf r 0x98 8),
      byteAt r 0x89, byteAt r 0x8A, note.entry.map (op + ·)⟩
  let status : Status := if flags % 2 = 1 then .faulted (decide (flags / 2 % 2 = 1)) (decide (flags / 4 % 2 = 1))
    else if flags / 8 % 2 = 1 then .debug else if l.stopped then .gridStop else .running
  let base := l.group priv cluster index placedAt (BitVec.ofNat 64 (fieldOf r 0x80 8))
  let known := fun (key : Nat) => (Sparse.get? note.marks key).getD []
  let lane := fun (i : Nat) =>
    let off := 0x1000 + 128 * i
    laneFrom (r.drop (0x100 + 2 * i)) (r.drop off) (r.drop 0x2000) l.hdr.pantry i
      ((trailMarks (at' + BitVec.ofNat 64 off) (BitVec.ofNat 64 (fieldOf r (8 + 8 * (i / 4)) 8)) (rs.drop off)).map fun m =>
        ((known i).find? fun n => n.entry == m.entry).getD m)
  { base with
    lanes := Vector.ofFn fun i => lane i.val, slices := slices,
    scalars := Vector.ofFn fun i => BitVec.ofNat 32 (fieldOf r (0x140 + 4 * i.val) 4),
    flags := Vector.ofFn fun i => byteAt r (0x2C0 + i.val),
    clear := (List.range 12).foldl (fun x i => if byteAt r (0x2C0 + i) = 0 then x ||| BitVec.ofNat 12 (2 ^ i) else x) 0,
    div := divsFrom 0 32 (r.drop 0xB00) ++ divsFrom 32 (fieldOf r 0x7A 2 - 32) st,
    recHeld := (note.marks.filter fun p => 32 ≤ p.1 && !p.2.isEmpty).map fun p => (p.1, [], p.2),
    traps := note.traps.map fun p => (p.1, { p.2 with op := p.2.op.map (op + ·) }), async := note.async, sPoison := note.scalar,
    fabWin := note.win, actBank := byteAt r 0x7E, status := status, fault := fault, drainFault := decide (flags / 16 % 2 = 1) }

/-! ## The operand log (R212, R271) -/

/-- An entry of a lane waits for a request: in its trail, or in the call record of the level that Sundoc's account has for it. -/
def Group.waitEntries (g : Group) (lane : Fin 32) (level : Nat) (ps : List Pending) : Group :=
  if level = 0 then { g with lanes := g.lanes.set lane { g.lanes[lane] with pend := g.lanes[lane].pend ++ ps } }
  else
    let held := (Sparse.get? g.recHeld (laneKey level lane.val)).getD ([], [])
    { g with recHeld := Sparse.put g.recHeld (laneKey level lane.val) (held.1 ++ ps, held.2) }

/-- One logged access put back; of a lane, with the entries that it fills and the level of their record (R212). -/
def State.relogPart (s : State) (k fr : Nat) (r : Req) (home : Option (Fin 32 × Nat × List (BitVec 5))) : State :=
  let r1 := { r with id := s.nextReq, stage := .logged, entries := (home.map (·.2.2)).getD [] }
  let r2 := match s.group? k fr with
    | some g => if r1.space = .global then r1 else
        match s.window k g r1.space r1.va.toNat r1.size with
        | some (p, a) => { r1 with peer := p, pa := a }
        | none => r1
    | none => r1
  { s with reqs := s.reqs ++ [r2], nextReq := s.nextReq + 1 }.modGroup k fr fun g =>
    match home with
    | some (lane, level, es) => g.waitEntries lane level (es.map fun e => ⟨e, r2.id⟩)
    | none => g

/-- An entry of a saved log put back: the load, WAITV or FATOM of each lane whose data was outstanding, or an SLD; a WAITV's second place
holds its compare values. What the layout has no field for is Sundoc's account's (R212, R271, log entry 43). -/
def State.relog (s : State) (k fr op j : Nat) (note : GroupNote) (bs cmps : List Byte) : State :=
  let pc : DWord := BitVec.ofNat 64 (fieldOf bs 0 8)
  let inst := fieldOf bs 8 8
  let lmask := fieldOf bs 0x10 4
  let flag := flagOf (BitVec.ofNat 4 (byteAt bs 0x15))
  let faddr : DWord := BitVec.ofNat 64 (fieldOf bs 0x18 8)
  let lanes := (List.finRange 32).filter fun l => lmask.testBit l.val
  let mask : BitVec 8 := lanes.foldl (fun x l => x ||| BitVec.ofNat 8 (2 ^ (l.val / 4))) 0
  let s0 := { s with iss := { Issuer.none with core := k, frame := fr, mask := mask, pc := pc } }
  let va := fun (l : Fin 32) => (BitVec.ofNat 64 (fieldOf bs (0x40 + 8 * l.val) 8) : DWord)
  let home := fun (l : Fin 32) (off n : Nat) =>
    let e0 : BitVec 5 := BitVec.ofNat 5 (byteAt bs (0x20 + l.val))
    some (l, (Sparse.get? note.homes (32 * j + l.val)).getD 0, (List.range (bytesWords n)).map fun i => e0 + BitVec.ofNat 5 (off / 4 + i))
  let put := fun (u : Group → State) => match s.group? k fr with
    | none => s
    | some g => (u g).modGroup k fr fun g => { g with log := g.log ++ [⟨op + j, pc, inst, causeOf? (byteAt bs 0x14), flag, faddr⟩] }
  let each := fun (i : Instr) (f : MFields) (kind : ReqKind) (parts : List (Nat × Nat)) => put fun g =>
    lanes.foldl (fun (t : State) l => parts.foldl (fun (t : State) p =>
      t.relogPart k fr { s0.mReq g i f flag kind l.val (va l + BitVec.ofNat 64 p.1) with
        op := op + j, size := p.2, cmp := if kind = .waitv then leBytes f.size.bytes (fieldOf cmps (0x40 + 8 * l.val) 8) else [] }
        (home l p.1 p.2)) t) s
  match decode (unitWords inst) with
  | .ok (.ld f, _) => each (.ld f) f .load (sizeParts f.size)
  | .ok (.waitv f, _) => each (.waitv f) f .waitv [(0, f.size.bytes)]
  | .ok (.fatom f, _) => put fun g => lanes.foldl (fun (t : State) l => t.relogPart k fr { Req.blank s0 g l.val with
      op := op + j, kind := .atomic (fatomOp f.sub.toNat) false, va := va l, size := 4, scope := .fabric, clk := (s.core k).clock, inst := inst,
      data := (Sparse.get? note.atoms (32 * j + l.val)).getD (zeros 4) } (home l 0 4)) s
  | .ok (.sld f, _) => put fun g => s.relogPart k fr { s0.sReq g (.sld f) f .load faddr true with op := op + j, flag := flag, seq := j + 1 } none
  | _ => s

/-- Whether a saved log place is a WAITV's. -/
def placeWaitv (b : List Byte) : Bool := fieldOf b 8 8 / 2 ^ 60 == 4 && fieldOf b 8 8 / 2 ^ 54 % 64 == 4

/-- The entries of the places of a saved log, each with its second place where it is a WAITV's (R271). -/
def logEntries : List (List Byte) → List (List Byte × List Byte)
  | [] => []
  | [b] => [(b, [])]
  | b :: c :: rest => if placeWaitv b then (b, c) :: logEntries rest else (b, []) :: logEntries (c :: rest)

/-- The entries of a saved log put back in order. -/
def State.relogAll (s : State) (k fr : Nat) (note : GroupNote) (places : List (List Byte)) : State :=
  let es := logEntries places
  let t := (es.zip (List.range es.length)).foldl (fun (t : State) p => t.relog k fr s.nextOp p.2 note p.1.1 p.1.2) s
  { t with nextOp := s.nextOp + es.length }

/-- Instruction numbers of a restored group start here; what it had in flight stands before. -/
def restoredSeq : Nat := 16

/-- A group of a saved team read into the frame of its number, whose held translations go (R188, R277, 5). -/
def State.loadGroup (s : State) (k : Nat) (l : Launch) (t : Team) (fr index : Nat) (note : GroupNote) : State :=
  let ctx := l.record.ctx
  let at' := t.grpRecs.getD fr 0
  let rs := (s.readRec k ctx at' (0x2000 + 128 * l.hdr.pantry)).getD []
  let r := rs.map (·.1)
  let csp : DWord := BitVec.ofNat 64 (fieldOf r 0x80 8)
  let spill := s.recBytes k ctx (csp + BitVec.ofNat 64 (4352 * l.hdr.callDepth)) (32 * (fieldOf r 0x7A 2 - 32))
  let g := l.groupFrom (s.privCtx.contains ctx) t.cluster index (s.cycle * 64 + fr) at' rs spill note s.nextOp
  let s1 := (s.clearXlate k fr).setGroup k fr g
  let s2 := s1.relogAll k fr note ((List.range (byteAt r 0x7D)).map fun i => (r.drop (0x300 + 512 * i)).take 512)
  s2.modGroup k fr fun g =>
    { g with seq := restoredSeq, sseq := note.late.foldl (fun v p => v.setIfInBounds p.1 p.2) g.sseq }

/-! ## Core records (R253, R275, R276) -/

/-- Bytes of memory from an address on. -/
def cellsFrom (base : Nat) (bs : List Byte) : List Host.Cell := Memory.write [] base bs

/-- A matrix instruction of a section's queue from its unit. -/
def workFrom (unit frame qmask tile : Nat) : Option SecWork :=
  match decode (unitWords unit) with
  | .ok (i, _) =>
    match i.form with
    | .x op f =>
      let w : SecWork := ⟨op, f, frame, BitVec.ofNat 4 qmask, 0, 0⟩
      some { w with tile := (w.tiles.takeWhile fun j => j != tile).length }
    | _ => none
  | .error _ => none

/-- The section of a number from its descriptor; the window stands at the bottom of the rack (R253). The descriptors have no order
among the works of different sections: a work that has streamed a tile comes first (log entry 37). -/
def sectionFrom (n : Nat) (b : List Byte) : Section :=
  let w0 := if fieldOf b 8 8 = 0 then none else workFrom (fieldOf b 8 8) (byteAt b 0x10) (byteAt b 0x12) (byteAt b 0x11)
  let w1 := if fieldOf b 0x20 8 = 0 then none else workFrom (fieldOf b 0x20 8) (byteAt b 0x28) (byteAt b 0x29) 0
  let ws := fieldOf b 6 2
  { owner := if byteAt b 0 = 0xFF then none else some (byteAt b 0),
    b := if byteAt b 1 % 2 = 1 then
      some ⟨byteAt b 2, match byteAt b 3 with | 0 => 64 | 1 => 128 | _ => 256, byteAt b 4, if ws = 0xFFFF then none else some (32 * ws)⟩ else none,
    cb := if byteAt b 1 / 2 % 2 = 1 then some (byteAt b 5) else none,
    queue := (w0.map fun w => { w with seq := if w.tile = 0 then 5 + 2 * n else 4 }).toList ++
      (w1.map fun w => { w with tile := 0, seq := 6 + 2 * n }).toList }

/-- A mapped range from its entry; its leases count as lapsed, and a mode-1 range refills every block (R276, R277, 3). -/
def mapFrom (launch ctx : Nat) (priv : Bool) (b : List Byte) : Option MapRange :=
  let len := fieldOf b 4 4
  let mode := byteAt b 0x10
  if len = 0 then none
  else some
    { launch := launch, ctx := ctx, off := fieldOf b 0 4, len := len, g := BitVec.ofNat 64 (fieldOf b 8 8), mode := mode,
      preload := decide (byteAt b 0x11 % 2 = 1), applied := fieldOf b 0x14 4, appliedWts := 0, leases := [],
      toFill := if mode = 1 then List.range (len / 128) else [], priv := priv, updates := [] }

/-- A handle slot from its table entry, its progress record and its operand block (R272, R275). -/
def handleFrom (launch ctx op : Nat) (priv : Bool) (t p blk : List Byte) : HandleSlot :=
  let free := HandleSlot.free (BitVec.ofNat 6 (byteAt t 0))
  let code := byteAt p 4
  if byteAt t 2 = 0 then free
  else
    { free with
      owner := byteAt t 1, state := if byteAt t 2 = 3 then .error else .running, op := code, var := BitVec.ofNat 8 (if code = 0x21 then 0 else byteAt p 5),
      imm := BitVec.ofNat 32 (fieldOf p 8 4), block := leWords (blk.take (4 * if code = 0x21 then 6 else eBlock code)), ctx := ctx, launch := launch,
      done := fieldOf p 0x10 8, errCause := if byteAt t 2 = 3 then some (causeOfCode (fieldOf p 0x18 4)) else none,
      errAddr := BitVec.ofNat 64 (fieldOf p 0x20 8), g := BitVec.ofNat 64 (fieldOf p 0x28 8), len := fieldOf p 0x30 4,
      off := if code = 0x05 ∨ code = 0x06 then fieldOf blk 0 4 else 0, words := if code = 0x21 then [op] else [],
      rel := code == 0x21 && byteAt p 5 % 2 == 1, seq := 4, priv := priv, mask := 0xFF }

/-- Rack ranges that a running COPY or COPYND of a restored core reads: they count as registered, and the record leaves them out (R222,
R241). -/
def Core.rackSources (c : Core) (k ctx : Nat) : List RangeLock :=
  (List.range 72).flatMap fun i =>
    let h := c.handle i
    let rs := if h.op = 0x00 then copyRegions h.var.toNat h.imm.toNat h.block else if h.op = 0x01 then ndRegions h.var.toNat h.imm.toNat h.block else []
    if h.state ≠ .running then []
    else (rs.filter fun r => r.space == 3 && !r.write).map fun r =>
      ⟨((r.addr : Int) + r.lo).toNat, (r.hi - r.lo).toNat, 3, true, i, k, ctx, 4⟩

/-- A range lock of an engine operation from its entry, with the core that owns it; `peers` give the cores in rank order
(R276). A length that R276 cuts short is taken from the operand block's own range. DESIGN CHOICE: the entry names no core; where its index is
in use on several cores of the cluster, the lock is that of the core whose record has it (log entry 97). -/
def State.lockFrom (s : State) (k : Nat) (l : Launch) (peers : List Nat) (b : List Byte) : Option RangeLock :=
  let len := fieldOf b 8 4
  let owner := byteAt b 0xE
  let runs := fun (j : Nat) => let h := (s.core j).handle owner; h.state != .free && h.launch == l.id
  let core := if runs k then k else (peers.find? runs).getD k
  let h := (s.core core).handle owner
  let exact := if len < 2 ^ 32 - 1 then none
    else ((if h.op = 0x00 then copyRegions h.var.toNat h.imm.toNat h.block else if h.op = 0x01 then ndRegions h.var.toNat h.imm.toNat h.block else []).find?
      fun r => r.space == 0 && r.write)
  if len = 0 ∨ 0x80 ≤ owner then none
  else some
    { start := fieldOf b 0 8, len := match exact with | some r => (r.hi - r.lo).toNat | none => len, space := byteAt b 0xC,
      source := decide (byteAt b 0xD % 2 = 1), owner := owner, core := core, ctx := l.record.ctx, seq := 4 }

/-- Steps 1, 2 and 4 of a restore, and the tables of step 3 that stand alone: carve, windows, status, claims, banks, sections,
ranges, handles and clock of one core (R253, R275 to R277). -/
def State.loadCore (s : State) (k : Nat) (l : Launch) (t : Team) (rs : List (Byte × Bool)) : State :=
  let r := rs.map (·.1)
  let ctx := l.record.ctx
  let priv := s.privCtx.contains ctx
  let scrOff := recScratchOff t.scratchLen
  let rackOff := recRackOff t.scratchLen
  let bad := fun (off n : Nat) => (List.range n).filter fun i => ((rs.drop off).getD i (0, false)).2
  let status := (List.range (t.scratchLen / 4)).filterMap fun w =>
    let v := byteAt r (0x8000 + w / 4) / 4 ^ (w % 4) % 4
    if v = 0 then none else some (w, BitVec.ofNat 2 v)
  let claims := (List.range (Nat.min 128 t.rackLen)).filterMap fun i => if byteAt r (0x980 + i) = 0xFF then none else some (i, byteAt r (0x980 + i))
  let handles := (List.range 72).map fun h =>
    (h, handleFrom l.id ctx s.nextOp priv ((r.drop (0xA00 + 4 * h)).take 4) ((r.drop (0xC80 + 64 * h)).take 64) ((r.drop (0x1E80 + 64 * h)).take 64))
  let s1 := s.modCore k fun c =>
    { c with
      clock := Nat.max c.clock (fieldOf r 0x20 8), carve := Vector.ofFn (fun i => BitVec.ofNat 8 (byteAt r (8 + i.val))), l1 := [], diesel := dieOf k,
      scratch := cellsFrom 0 ((r.drop scrOff).take t.scratchLen), scratchPoison := ((bad scrOff t.scratchLen).map (· / 4)).foldl insertNat [],
      wstat := status, rack := cellsFrom 0 ((r.drop rackOff).take (4096 * t.rackLen)), rackPoison := bad rackOff (4096 * t.rackLen),
      claims := claims, banks := Vector.ofFn fun i => cellsFrom 0 ((r.drop (0x3100 + 8320 * i.val)).take 8320),
      sections := Vector.ofFn fun i => sectionFrom i.val ((r.drop (0x200 + 64 * i.val)).take 64),
      maps := (List.range 16).filterMap fun i => mapFrom l.id ctx priv ((r.drop (0x700 + 32 * i)).take 32),
      handles := handles,
      leases := Sparse.put c.leases ctx (s.ctxField ctx 0x1C 2),
      teams := [{ t with bars := Vector.ofFn fun i => BitVec.ofNat 32 (fieldOf r (0x900 + 4 * i.val) 4),
                         cbars := Vector.ofFn fun i => BitVec.ofNat 32 (fieldOf r (0x940 + 4 * i.val) 4),
                         cclk := Vector.replicate 16 (fieldOf r 0x20 8) }] }
  { s1 with nextOp := s1.nextOp + 1 }

/-- A NEST as a record has it: the instruction's 32 bytes, then its frame, and where it is in progress its next tuple and its partial
reduction (R258, R275). -/
structure NestRec where
  f : NestFields
  frame : Nat
  tuple : Nat
  part : Word
  deriving DecidableEq, Repr, Inhabited

def nestFrom (b : List Byte) : Option NestRec :=
  match decode ((List.range 8).map fun i => BitVec.ofNat 32 (fieldOf b (4 * i) 4)) with
  | .ok (.nest f, _) => some ⟨f, fieldOf b 0x20 4, fieldOf b 0x24 4, BitVec.ofNat 32 (fieldOf b 0x28 4)⟩
  | _ => none

/-- The NESTs of a core record in issue order (R275). -/
def nestsFrom (r : List Byte) : List NestRec :=
  (nestFrom ((r.drop 0xB40).take 64)).toList ++
    (List.range 4).filterMap fun i => (nestFrom ((r.drop (0xB80 + 64 * i)).take 64)).map fun n => { n with tuple := 0, part := 0 }

/-- Starts of the scratch ranges that a frame's NESTs have registered, in the order of their registration (R258, R276). -/
def nestStarts (r : List Byte) (frame : Nat) : List Nat :=
  (List.range 64).filterMap fun i =>
    let b := (r.drop (0x300 + 16 * i)).take 16
    if fieldOf b 8 4 ≠ 0 ∧ byteAt b 0xE = 0x80 + frame ∧ byteAt b 0xC = 1 then some (fieldOf b 0 8) else none

/-- A saved NEST put back: its scalars are what its registered ranges show, its locks are registered again (R258, R275, R276).
The flag that it has bound is in Sundoc's account (log entry 43). -/
def State.loadNest (s : State) (k : Nat) (t : Team) (r : List Byte) (flags : Nat → List (Option Nat)) (all : List NestRec) (i : Nat) (n : NestRec) :
    State :=
  match s.group? k n.frame with
  | none => s
  | some g =>
    let earlier := (all.take i).filter fun b => b.frame == n.frame
    let starts := (nestStarts r n.frame).drop (earlier.map fun b => (nestOperands b.f).length).sum
    let range := fun (o : Nat) => ((nestOperands n.f).zip starts).find? fun p => p.1 == o
    let val := fun (o : Nat) => match range o with
      | some p => BitVec.ofInt 32 ((p.2 : Int) - (nestBounds n.f o).1)
      | none => g.scalar (nestReg n.f o)
    let w : NestWork :=
      { instr := .nest n.f, frame := n.frame, flag := (flags n.frame).getD earlier.length none, vals := [val 0, val 1, val 2], tuple := n.tuple,
        partialRed := if n.f.op.reduces ∧ nestIndex n.f n.tuple 0 ≠ 0 then some n.part else none, qmask := 0, seq := 4 + i, ticket := s.nextReq,
        bad := 0, before := [], wrote := [], why := none }
    let locks := ((nestOperands n.f).zip starts).map fun p =>
      let b := nestBounds n.f p.1
      (⟨t.scratchBase + p.2, (b.2 - b.1).toNat, 1, p.1 != 0, 0x80 + n.frame, k, g.ctx, 4 + i⟩ : RangeLock)
    { s.modCore k (fun c => { c with nestQ := c.nestQ ++ [w], locks := c.locks ++ locks }) with nextReq := s.nextReq + 1 }

/-- The NESTs of a restored core (R277, 6). -/
def State.loadNests (s : State) (k : Nat) (t : Team) (r : List Byte) (flags : Nat → List (Option Nat)) : State :=
  let ns := nestsFrom r
  (ns.zip (List.range ns.length)).foldl (fun (u : State) p => u.loadNest k t r flags ns p.2 p.1) s

/-- A subscription registered anew for a restored range of a cluster that another Ubari has saved: its counter goes on from APPLIED, and the
refill reads what its home holds. DESIGN CHOICE (log entry 86). -/
def State.newSub (s : State) (k cluster rank : Nat) (m : MapRange) : State :=
  let parts := s.rangeParts k m.ctx m.g m.len
  let lines := parts.flatMap fun p => (List.range ((p.2.1 % 128 + p.2.2 + 127) / 128)).map fun j => lineOf p.2.1 + j
  let sub : Sub :=
    { core := some k, launch := m.launch, cluster := cluster, rank := rank, off := m.off, parts := parts,
      unread := List.range (m.len / 128), seqNo := m.applied, counting := true, live := false, writes := [],
      lastWts := (lines.map fun l => ((Sparse.get? s.lines l).map (·.wts)).getD 0).foldl Nat.max 0 }
  let home := match parts with | p :: _ => if isHbm p.2.1 then p.2.1 / 2 ^ 36 else dieOf k | [] => dieOf k
  (s.notePages k m.ctx m.g m.len).modDie home fun d => { d with subs := Sparse.put d.subs ((d.subs.map fun p => p.1 + 1).foldl Nat.max 0) sub }

/-- A subscribed range on its new core: its home entries and the bounds that the cluster's cores keep (R227, R277, R321). -/
def State.rehomeSub (s : State) (k cluster rank : Nat) (peers : List Nat) (m : MapRange) : State :=
  if m.mode ≠ 1 then s
  else
    let base := (s.core k).mapBase m
    let its := fun (u : Sub) => u.core.isNone && u.launch == m.launch && u.cluster == cluster && u.rank == rank && u.off == m.off
    let s1 := if s.dies.any fun d => d.2.subs.any fun p => its p.2 then s.mapSubs fun u => if its u then { u with core := some k } else u
      else s.newSub k cluster rank m
    peers.foldl (fun (t : State) p => t.modCore p fun c => { c with subBounds := c.subBounds ++ [(k, base, base + m.len)] }) s1

/-- A restored UNMAP takes the words its D bits mark, and a WBACK a new snapshot (R272). -/
def State.resumeOp (s : State) (k idx : Nat) : State :=
  let c := s.core k
  let h := c.handle idx
  if h.state ≠ .running then s
  else if h.op = 0x05 then
    let base := (((c.team? h.launch).map (·.scratchBase)).getD 0) + h.off
    let ws := ((List.range (h.len / 4)).map (base / 4 + ·)).filter fun w => (c.status w).getLsbD 1 && decide (base + 128 * h.done ≤ 4 * w)
    s.modCore k fun c => (c.clearDirty ws).setHandle idx { h with words := ws }
  else
    match (c.maps.find? fun m => m.launch == h.launch && m.off == h.off) with
    | some m => (s.modCore k fun c => c.setHandle idx { h with g := m.g, len := m.len }).resumeBack k idx
    | none => s

/-! ## The restore (R277) -/

/-- The team of a rank as it is placed again: alone on its core, its promotions ended, its records where Sundoc has them (R194, R274,
R277). -/
def Launch.teamAgain (l : Launch) (a : RestoreArgs) (rank live : Nat) : Team :=
  { launch := l.id, cluster := a.cluster, rank := rank, peers := a.cores, scratchBase := 0, scratchLen := l.hdr.scratch, rackBase := 0,
    rackLen := l.hdr.rack, bars := Vector.replicate 16 0, cbars := Vector.replicate 16 0, cclk := Vector.replicate 16 0, prio := l.record.prio,
    promo := 0, starved := 0, started := false, coreRec := a.recs.cores.getD rank 0, grpRecs := a.recs.groups.getD rank [],
    groups := (dealt l.record.groups a.cores.length rank).length, live := live, preempting := false }

/-- Whether a cluster may come back on a die: the die of its launch's barrier block, or one to which all of the launch's teams of that
die move; and there is a block for it there (R322, R323). -/
def State.blockAllows (s : State) (l : Launch) (old die : Nat) : Bool :=
  let has := fun (d : Nat) => (s.die d).blocks.any fun b => b.launch == l.id
  let kept := fun (d : Nat) => s.dieSaves.any fun p => p.die == d && p.launch == l.id
  l.hdr.barriers == 0 || ((old == die || (!has old && kept old && !has die && !kept die)) && s.blockRoom l die)

/-- The block of a launch carried with all its saved clusters to another die (R323). -/
def State.carryBlock (s : State) (l : Launch) (old die : Nat) : State :=
  if old = die then s
  else { s with dieSaves := s.dieSaves.map fun p => if p.die = old ∧ p.launch = l.id then { p with die := die } else p,
                saved := s.saved.map fun v => if v.die = old ∧ v.launch = l.id then { v with die := die } else v }

/-- A launch that another Ubari has begun: its record is checked again, and its clusters count as saved from a die of this one (R36,
R277, R394). -/
def State.adopt (s : State) (f : ForeignLaunch) (die : Nat) : State :=
  let id := s.nextLaunch
  match s.readV (passKey die) f.ctx (s.privCtx.contains f.ctx) f.addr 64 with
  | .error _ => s
  | .ok bs =>
    match s.checkRecord (passKey die) f.ctx f.addr bs with
    | .ok r h bank =>
      let s1 := (s.acceptLaunch r h bank 0).modLaunch id fun l => { l with next := r.clusters, live := (f.clusters.map (·.2)).sum }
      { s1 with saved := s1.saved ++ f.clusters.map (fun c => ⟨id, c.1, c.2, die, (Sparse.get? f.notes c.1).getD []⟩),
                dieSaves := if h.barriers = 0 then s1.dieSaves else s1.dieSaves ++ [⟨die, id, f.area⟩] }
    | _ => s

/-- The last steps for one group: a fault recorded in the drain is delivered, one of kind A within a clause at the next clause boundary;
else the log is replayed (R261, R277, 7). -/
def State.wakeGroup (s : State) (k fr : Nat) : State :=
  match s.group? k fr with
  | none => s
  | some g =>
    match g.drainFault, g.fault with
    | true, some r =>
      let g1 := { g with drainFault := false, fault := none }
      if r.kind = .A ∧ r.idx ≠ 0 then (s.setGroup k fr { g1 with async := g1.async ++ [⟨r.cause, r.addr, g.faultMask r⟩] }).replayLog k fr
      else (s.setGroup k fr g1).raiseDue k fr ⟨g.faultMask r, r, false⟩
    | _, _ => s.replayLog k fr

/-- Frames that a core record has saved (R275). -/
def recFrames (r : List Byte) : List Nat := (List.range 64).filter (fieldOf r 0x18 8).testBit

/-- A saved cluster read back onto cores, in the order of R277; the TLBs after the reads of its records are those of R374. -/
def State.loadCluster (s : State) (l : Launch) (a : RestoreArgs) (notes : List GroupNote) (recs : List (List (Byte × Bool))) : State :=
  let ranks := List.range a.cores.length
  let core := fun (r : Nat) => a.cores.getD r 0
  let note := fun (r f : Nat) => (notes.find? fun n => n.rank == r && n.frame == f).getD default
  let bytes := fun (r : Nat) => (recs.getD r []).map (·.1)
  let team := fun (r : Nat) => l.teamAgain a r (recFrames (bytes r)).length
  let each := fun (u : State → Nat → State) (t : State) => ranks.foldl u t
  let frames := fun (u : State → Nat → Nat → State) (t : State) => each (fun t r => (recFrames (bytes r)).foldl (fun (t : State) f => u t r f) t) t
  let s1 := each (fun t r => t.loadCore (core r) l (team r) (recs.getD r [])) s
  let s2 := each (fun t r => (t.core (core r)).maps.foldl (fun (t : State) m => t.rehomeSub (core r) a.cluster r a.cores m) t) s1
  let locks := fun (t : State) (r : Nat) =>
    (List.range 64).filterMap fun i => t.lockFrom (core r) l a.cores (((bytes r).drop (0x300 + 16 * i)).take 16)
  let s3 := each (fun t r => t.modCore (core r) fun c => { c with locks := locks t r ++ c.rackSources (core r) l.record.ctx }) s2
  let s4 := frames (fun t r f => t.loadGroup (core r) l (team r) f ((a.indexes.getD r []).getD f 0) (note r f)) s3
  let s5 := each (fun t r => t.loadNests (core r) (team r) (bytes r) fun f => (note r f).nests) s4
  let s6 := each (fun t r => (List.range 72).foldl (fun (t : State) h => t.resumeOp (core r) h) t) s5
  let s7 := frames (fun t r f => t.wakeGroup (core r) f) s6
  let s8 := each (fun t r => t.notePages (core r) l.record.ctx (a.recs.cores.getD r 0) (bytes r).length) s7
  let s9 := frames (fun t r f => t.notePages (core r) l.record.ctx ((team r).grpRecs.getD f 0) (0x2000 + 128 * l.hdr.pantry)) s8
  { s9 with saved := s9.saved.filter fun x => !(x.launch == l.id && x.cluster == a.cluster) }

/-- Whether the bytes are the core record of a rank of a cluster of `n` cores (R199, R275). -/
def recFits (n rank : Nat) (r : List Byte) : Bool :=
  fieldOf r 0 4 == 0x52534357 && fieldOf r 4 2 == 1 && fieldOf r 0x14 4 == n * 256 + rank

/-- Whether a core record holds work of a unit that the part does not have: a cb2 latch, a codebook, a CBLOAD or a BLOAD of cb2; a
subscribed range; an FCOPY (R9). -/
def State.recUnit (s : State) (r : List Byte) : Bool :=
  let secs := (List.range 4).map fun i => sectionFrom i ((r.drop (0x200 + 64 * i)).take 64)
  let live := fun (h : Nat) => byteAt r (0xA00 + 4 * h + 2) != 0
  secs.any (fun x => !s.hasCbdec && (x.cb.isSome || x.b.any (·.fmt == 5) || x.queue.any fun w => w.op == 0x03 || (w.op == 0x02 && w.f.fmtB == 5))) ||
    (!s.hasSubeng && (List.range 16).any fun i => (mapFrom 0 0 false ((r.drop (0x700 + 32 * i)).take 32)).any (·.mode == 1)) ||
    (!s.hasFabric && (List.range 72).any fun h => live h && byteAt r (0xC80 + 64 * h + 4) == 0x21)

/-- RESTORE: Sundoc restores a saved cluster onto cores that hold no group and form the cluster's shape, in rank order, once every die has
its harvest mode (R277, R321 to R323, R366). DESIGN CHOICE: a part that has not the unit of work in a record does not take the cluster:
R9 lets no section hold such a latch there, and the launch is told UNITABSENT (log entry 101). -/
def execRestore (a : RestoreArgs) (s : State) : Res :=
  let die := dieOf (a.cores.headD 0)
  let s0 := match a.foreign with | some f => if a.launch = s.nextLaunch then s.adopt f die else s | none => s
  match s0.launch? a.launch, s0.saved.find? fun v => v.launch == a.launch && v.cluster == a.cluster with
  | some l, some v =>
    let empty := a.cores.all fun k => (s.core k).frames.isEmpty && (s.core k).teams.isEmpty && !(s.core k).retired
    if ¬ s0.broughtUp ∨ ¬ empty ∨ ¬ (s0.rects die l.hdr).contains a.cores ∨ ¬ s0.blockAllows l v.die die then .next s
    else
      let n := recRackOff l.hdr.scratch + 4096 * l.hdr.rack
      let recs := (List.range a.cores.length).map fun r => s0.readRec (a.cores.getD r 0) l.record.ctx (a.recs.cores.getD r 0) n
      if recs.any (·.isNone) then .next (s.tell (.launchFault a.launch .page l.record.addr))
      else
        let bytes := recs.map fun r => r.getD []
        if ¬ (List.range a.cores.length).all (fun r => recFits a.cores.length r ((bytes.getD r []).map (·.1))) then .next s
        else if bytes.any fun r => s0.recUnit (r.map (·.1)) then .next (s.tell (.launchFault a.launch .unitAbsent l.record.addr))
        else
          .next (((s0.carryBlock l v.die die).takeBlock l die 0).loadCluster l a v.notes bytes)
  | _, _ => .next s

end Sys2Proof.Machine
end

