-- ==== Sys2Proof/Machine/SysReg.lean ====
section
/-! DEFINITION. System registers: SREAD and SWRITE (R8, R132, R198, R199, R268, R278, R324, R360, R361, R375, R411). -/

namespace Sys2Proof.Machine

open Sys2Proof

/-- The number of bits set in a mask. -/
def popMask {w : Nat} (x : BitVec w) : Nat := popBits w x.toNat

/-- The logical number of a physical core (R199, R362). -/
def Die.logicalOf (d : Die) (phys : Nat) : Nat :=
  ((List.range 36).find? fun n => (d.lpct.getD n 0xFF).toNat == phys).getD 0x3F

/-- A harvest register of a die (R360), as an unfitted die gives it where it is not fitted (R361). -/
def State.harvestRead (s : State) (die idx : Nat) : Nat :=
  let d := s.die die
  let fit := s.fitted die
  let spare := fun (i : Nat) => (d.spare.toList.getD i 0xFF).toNat
  if idx = 0x100 then (if fit then d.healthy.toNat % 2 ^ 32 else 0)
  else if idx = 0x101 then (if fit then d.healthy.toNat / 2 ^ 32 else 0)
  else if idx = 0x102 then
    (if fit then spare 3 * 2 ^ 24 + spare 2 * 2 ^ 16 + spare 1 * 2 ^ 8 + spare 0 else 0xFFFFFFFF)
  else if idx = 0x103 then (if fit then d.slices.toNat else 0)
  else if idx = 0x104 then
    die * 2 ^ 28 +
      (if fit then d.full.toNat * 2 ^ 24 + d.sliceCount * 2 ^ 16 + d.hvgen.toNat * 2 ^ 8 +
        ((d.lpct.toList.filter fun p => p != 0xFF).length)
      else 0)
  else if fit then (d.lpct.toList.getD (idx - 0x110) 0xFF).toNat
  else 0xFF

/-- What a system register reads as to the issuing split of a group (R8, R198, R199, R268, R278, R360, R375, R411). -/
def State.sysRead (s : State) (g : Group) (idx : Nat) : Nat :=
  let k := s.iss.core
  let c := s.core k
  let team := (c.team? g.launch)
  let carve := fun (i : Nat) => (c.carve.toList.getD i 0).toNat
  if idx = 0x000 then s.cycle - c.born
  else if idx = 0x002 then dieOf k * 2 ^ 24 + k % 64 * 2 ^ 8 + (s.die (dieOf k)).logicalOf (k % 64)
  else if idx = 0x003 then dieOf k
  else if idx = 0x004 then (team.map fun t => t.peers.length * 2 ^ 8 + t.rank).getD 0
  else if idx = 0x005 then s.iss.frame % 4 * 2 ^ 8 + s.iss.frame
  else if idx = 0x006 then (team.map fun t => Nat.min 3 (t.prio + t.promo) * 2 ^ 8 + t.prio).getD 0
  else if idx = 0x008 then carve 3 * 2 ^ 24 + carve 2 * 2 ^ 16 + carve 1 * 2 ^ 8 + carve 0
  else if idx = 0x00A then (Sparse.get? c.leases g.ctx).getD 64
  else if idx = 0x00C then s.rebases.toNat
  else if idx = 0x0F0 then 2 ^ 24 + s.feat.toNat
  else if idx = 0x0F1 then (if s.hasFabric then 32 * 2 ^ 16 else 0) + s.dieMask.toNat
  else if idx = 0x105 then c.diesel
  else if (0x100 ≤ idx ∧ idx ≤ 0x104) ∨ (0x110 ≤ idx ∧ idx ≤ 0x133) then s.harvestRead c.diesel idx
  else if idx = 0x200 then c.dbgctl.toNat
  else if idx = 0x210 ∨ idx = 0x212 ∨ idx = 0x214 ∨ idx = 0x216 then (c.waddr.toList.getD ((idx - 0x210) / 2) 0).toNat
  else if 0x218 ≤ idx ∧ idx ≤ 0x21B then (c.wctl.toList.getD (idx - 0x218) 0).toNat
  else if idx = 0x220 then
    (let sl := g.slices.toList.getD (lowSlice s.iss.mask) default
     (sl.handler && sl.skip).toNat)
  else if idx = 0x240 then c.sdva.toNat
  else if idx = 0x242 then c.sdBusy.toNat * 2 ^ 31 + c.sdctl.toNat
  else if idx = 0x260 then s.timeSync.toNat * 2 ^ 31 + s.timeErr.toNat
  else if idx = 0x261 then s.winLen.toNat
  else s.devNo.toNat

/-- SREAD (R132, R198). -/
def execSread (f : SFields) (s : State) : Res :=
  s.scalarOp (.sread f) fun g => g.setDst f.dst f.ty.is64 (s.sysRead g f.imm.toNat)

/-- A value SWRITE writes (R132). -/
def State.writtenValue (s : State) (f : SFields) (g : Group) : DWord := BitVec.ofNat 64 (s.sSrc 0x41 f g).1

/-- LEASE_WRITE: TICKS clamped into 8 to 4,096, for the running group's context (R199). -/
def execLeaseWrite (f : SFields) (s : State) : Res :=
  s.gate (.leaseWrite f) fun g =>
    let t := (s.writtenValue f g).toNat % 2 ^ 13
    let v := Nat.max 8 (Nat.min 4096 t)
    .next ((s.modCore s.iss.core fun c => { c with leases := Sparse.put c.leases g.ctx v }).advance)

/-- DIESEL_WRITE (R132, R361). -/
def execDieselWrite (f : SFields) (s : State) : Res :=
  s.gate (.dieselWrite f) fun g =>
    .next ((s.modCore s.iss.core fun c => { c with diesel := (s.writtenValue f g).toNat % 16 }).advance)

/-- Fields of DBGCTL and WCTL that hold what is written; other bits are reserved (R132, R278). -/
def dbgctlMask : Word := 0x003F1F0F
def wctlMask : Word := 0xFFFF1F03

/-- SWRITE: writes to the registers that have no row of their own (R132, R268, R278, R375). HALT and STEP of DBGCTL
act at once; a write to SDCTL waits for its shoot-down. -/
def execSwrite (f : SFields) (s : State) : Res :=
  s.gate (.swrite f) fun g =>
    let k := s.iss.core
    let v := s.writtenValue f g
    let idx := f.imm.toNat
    if idx = 0x200 then
      let w := v.lo &&& dbgctlMask
      let evs := (if w.getLsbD 3 then [Move.event (.dbgHalt k)] else []) ++
        (if w.getLsbD 2 then [Move.event (.dbgStep k)] else [])
      .next (((s.modCore k fun c => { c with dbgctl := w }).advance).prepend evs)
    else if idx = 0x210 ∨ idx = 0x212 ∨ idx = 0x214 ∨ idx = 0x216 then
      .next ((s.modCore k fun c => { c with waddr := c.waddr.setIfInBounds ((idx - 0x210) / 2) v }).advance)
    else if 0x218 ≤ idx ∧ idx ≤ 0x21B then
      .next ((s.modCore k fun c => { c with wctl := c.wctl.setIfInBounds (idx - 0x218) (v.lo &&& wctlMask) }).advance)
    else if idx = 0x220 then
      if (slicesOf s.iss.mask).any fun i => !g.slices[i].handler then .next (s.faultHere .prot 0)
      else .next (s.finish (g.mapSlices s.iss.mask fun _ sl => { sl with skip := v.getLsbD 0 }))
    else if idx = 0x240 then
      .next ((s.modCore k fun c => { c with sdva := v &&& ~~~0xFFFF }).advance)
    else
      let w := v.lo &&& 0x0007FFFF
      let s1 := s.modCore k fun c => { c with sdctl := w, sdBusy := true }
      let shoot : Shoot := ⟨.core k, s.iss.frame, g.seq, (s.core k).sdva, w.toNat / 2 ^ 16, w.toNat % 2 ^ 16, [], false⟩
      .next (State.waitEvent { s1 with shoots := s1.shoots ++ [shoot] } (.swrite f) [])

end Sys2Proof.Machine
end

