-- ==== Sys2Proof/Machine/Dispatch.lean ====
section
/-! DEFINITION. Which meaning each instruction and event has. -/

namespace Sys2Proof.Machine

open Sys2Proof

/-- The effect of an instruction of the issuing split, or of an event, on the machine. -/
def exec (i : Instr) (s : State) : Host.Outcome State Fault Refusal :=
  match i with
  | .dup x0 => Sys2Proof.Machine.execDup x0 s
  | .get x0 => Sys2Proof.Machine.execGet x0 s
  | .save x0 x1 => Sys2Proof.Machine.execSave x0 x1 s
  | .sel x0 => Sys2Proof.Machine.execSel x0 s
  | .drop x0 => Sys2Proof.Machine.execDrop x0 s
  | .lane x0 => Sys2Proof.Machine.execLane x0 s
  | .add x0 => Sys2Proof.Machine.execAdd x0 s
  | .sub x0 => Sys2Proof.Machine.execSub x0 s
  | .mul x0 => Sys2Proof.Machine.execMul x0 s
  | .mulhi x0 => Sys2Proof.Machine.execMulhi x0 s
  | .mad x0 => Sys2Proof.Machine.execMad x0 s
  | .div x0 => Sys2Proof.Machine.execDiv x0 s
  | .rem x0 => Sys2Proof.Machine.execRem x0 s
  | .abs x0 => Sys2Proof.Machine.execAbs x0 s
  | .neg x0 => Sys2Proof.Machine.execNeg x0 s
  | .min x0 => Sys2Proof.Machine.execMin x0 s
  | .max x0 => Sys2Proof.Machine.execMax x0 s
  | .clamp x0 => Sys2Proof.Machine.execClamp x0 s
  | .absdiff x0 => Sys2Proof.Machine.execAbsdiff x0 s
  | .lea x0 => Sys2Proof.Machine.execLea x0 s
  | .and x0 => Sys2Proof.Machine.execAnd x0 s
  | .or x0 => Sys2Proof.Machine.execOr x0 s
  | .xor x0 => Sys2Proof.Machine.execXor x0 s
  | .not x0 => Sys2Proof.Machine.execNot x0 s
  | .shl x0 => Sys2Proof.Machine.execShl x0 s
  | .shr x0 => Sys2Proof.Machine.execShr x0 s
  | .rotl x0 => Sys2Proof.Machine.execRotl x0 s
  | .bfx x0 => Sys2Proof.Machine.execBfx x0 s
  | .bfi x0 => Sys2Proof.Machine.execBfi x0 s
  | .popc x0 => Sys2Proof.Machine.execPopc x0 s
  | .clz x0 => Sys2Proof.Machine.execClz x0 s
  | .ctz x0 => Sys2Proof.Machine.execCtz x0 s
  | .brev x0 => Sys2Proof.Machine.execBrev x0 s
  | .permb x0 => Sys2Proof.Machine.execPermb x0 s
  | .pack x0 => Sys2Proof.Machine.execPack x0 s
  | .ceq x0 => Sys2Proof.Machine.execCeq x0 s
  | .cne x0 => Sys2Proof.Machine.execCne x0 s
  | .clt x0 => Sys2Proof.Machine.execClt x0 s
  | .cle x0 => Sys2Proof.Machine.execCle x0 s
  | .cgt x0 => Sys2Proof.Machine.execCgt x0 s
  | .cge x0 => Sys2Proof.Machine.execCge x0 s
  | .cuno x0 => Sys2Proof.Machine.execCuno x0 s
  | .fclass x0 => Sys2Proof.Machine.execFclass x0 s
  | .fadd x0 => Sys2Proof.Machine.execFadd x0 s
  | .fsub x0 => Sys2Proof.Machine.execFsub x0 s
  | .fmul x0 => Sys2Proof.Machine.execFmul x0 s
  | .ffma x0 => Sys2Proof.Machine.execFfma x0 s
  | .fmin x0 => Sys2Proof.Machine.execFmin x0 s
  | .fmax x0 => Sys2Proof.Machine.execFmax x0 s
  | .frnd x0 => Sys2Proof.Machine.execFrnd x0 s
  | .fdot2 x0 => Sys2Proof.Machine.execFdot2 x0 s
  | .fdot4 x0 => Sys2Proof.Machine.execFdot4 x0 s
  | .fscale x0 => Sys2Proof.Machine.execFscale x0 s
  | .cvtf x0 => Sys2Proof.Machine.execCvtf x0 s
  | .cvtfi x0 => Sys2Proof.Machine.execCvtfi x0 s
  | .cvtif x0 => Sys2Proof.Machine.execCvtif x0 s
  | .rcp x0 => Sys2Proof.Machine.execRcp x0 s
  | .rsq x0 => Sys2Proof.Machine.execRsq x0 s
  | .sqrt x0 => Sys2Proof.Machine.execSqrt x0 s
  | .exp2 x0 => Sys2Proof.Machine.execExp2 x0 s
  | .log2 x0 => Sys2Proof.Machine.execLog2 x0 s
  | .sin x0 => Sys2Proof.Machine.execSin x0 s
  | .cos x0 => Sys2Proof.Machine.execCos x0 s
  | .tanh x0 => Sys2Proof.Machine.execTanh x0 s
  | .sigm x0 => Sys2Proof.Machine.execSigm x0 s
  | .act x0 => Sys2Proof.Machine.execAct x0 s
  | .ldi x0 => Sys2Proof.Machine.execLdi x0 s
  | .ldhi x0 => Sys2Proof.Machine.execLdhi x0 s
  | .pchi x0 => Sys2Proof.Machine.execPchi x0 s
  | .addi x0 => Sys2Proof.Machine.execAddi x0 s
  | .muli x0 => Sys2Proof.Machine.execMuli x0 s
  | .andi x0 => Sys2Proof.Machine.execAndi x0 s
  | .ori x0 => Sys2Proof.Machine.execOri x0 s
  | .xori x0 => Sys2Proof.Machine.execXori x0 s
  | .shli x0 => Sys2Proof.Machine.execShli x0 s
  | .shri x0 => Sys2Proof.Machine.execShri x0 s
  | .mini x0 => Sys2Proof.Machine.execMini x0 s
  | .maxi x0 => Sys2Proof.Machine.execMaxi x0 s
  | .clti x0 => Sys2Proof.Machine.execClti x0 s
  | .faddi x0 => Sys2Proof.Machine.execFaddi x0 s
  | .fmuli x0 => Sys2Proof.Machine.execFmuli x0 s
  | .ffmai x0 => Sys2Proof.Machine.execFfmai x0 s
  | .fmini x0 => Sys2Proof.Machine.execFmini x0 s
  | .fmaxi x0 => Sys2Proof.Machine.execFmaxi x0 s
  | .smov x0 => Sys2Proof.Machine.execSmov x0 s
  | .ssel x0 => Sys2Proof.Machine.execSsel x0 s
  | .sadd x0 => Sys2Proof.Machine.execSadd x0 s
  | .ssub x0 => Sys2Proof.Machine.execSsub x0 s
  | .smul x0 => Sys2Proof.Machine.execSmul x0 s
  | .smulhi x0 => Sys2Proof.Machine.execSmulhi x0 s
  | .sdiv x0 => Sys2Proof.Machine.execSdiv x0 s
  | .srem x0 => Sys2Proof.Machine.execSrem x0 s
  | .smin x0 => Sys2Proof.Machine.execSmin x0 s
  | .smax x0 => Sys2Proof.Machine.execSmax x0 s
  | .slea x0 => Sys2Proof.Machine.execSlea x0 s
  | .sand x0 => Sys2Proof.Machine.execSand x0 s
  | .sor x0 => Sys2Proof.Machine.execSor x0 s
  | .sxor x0 => Sys2Proof.Machine.execSxor x0 s
  | .snot x0 => Sys2Proof.Machine.execSnot x0 s
  | .sshl x0 => Sys2Proof.Machine.execSshl x0 s
  | .sshr x0 => Sys2Proof.Machine.execSshr x0 s
  | .sbfx x0 => Sys2Proof.Machine.execSbfx x0 s
  | .spopc x0 => Sys2Proof.Machine.execSpopc x0 s
  | .sclz x0 => Sys2Proof.Machine.execSclz x0 s
  | .sctz x0 => Sys2Proof.Machine.execSctz x0 s
  | .scmp x0 => Sys2Proof.Machine.execScmp x0 s
  | .sread x0 => Sys2Proof.Machine.execSread x0 s
  | .swrite x0 => Sys2Proof.Machine.execSwrite x0 s
  | .leaseWrite x0 => Sys2Proof.Machine.execLeaseWrite x0 s
  | .dieselWrite x0 => Sys2Proof.Machine.execDieselWrite x0 s
  | .dbgHalt x0 => Sys2Proof.Machine.execDbgHalt x0 s
  | .dbgStep x0 => Sys2Proof.Machine.execDbgStep x0 s
  | .sld x0 => Sys2Proof.Machine.execSld x0 s
  | .sst x0 => Sys2Proof.Machine.execSst x0 s
  | .satom x0 => Sys2Proof.Machine.execSatom x0 s
  | .ld x0 => Sys2Proof.Machine.execLd x0 s
  | .st x0 => Sys2Proof.Machine.execSt x0 s
  | .pref x0 => Sys2Proof.Machine.execPref x0 s
  | .renew x0 => Sys2Proof.Machine.execRenew x0 s
  | .waitv x0 => Sys2Proof.Machine.execWaitv x0 s
  | .aadd x0 => Sys2Proof.Machine.execAadd x0 s
  | .amin x0 => Sys2Proof.Machine.execAmin x0 s
  | .amax x0 => Sys2Proof.Machine.execAmax x0 s
  | .aand x0 => Sys2Proof.Machine.execAand x0 s
  | .aor x0 => Sys2Proof.Machine.execAor x0 s
  | .axor x0 => Sys2Proof.Machine.execAxor x0 s
  | .axchg x0 => Sys2Proof.Machine.execAxchg x0 s
  | .acas x0 => Sys2Proof.Machine.execAcas x0 s
  | .afadd x0 => Sys2Proof.Machine.execAfadd x0 s
  | .ainc x0 => Sys2Proof.Machine.execAinc x0 s
  | .copy x0 => Sys2Proof.Machine.execCopy x0 s
  | .copynd x0 => Sys2Proof.Machine.execCopynd x0 s
  | .gather x0 => Sys2Proof.Machine.execGather x0 s
  | .scatter x0 => Sys2Proof.Machine.execScatter x0 s
  | .mapRange x0 => Sys2Proof.Machine.execMapRange x0 s
  | .unmap x0 => Sys2Proof.Machine.execUnmap x0 s
  | .wback x0 => Sys2Proof.Machine.execWback x0 s
  | .settle x0 => Sys2Proof.Machine.execSettle x0 s
  | .subwait x0 => Sys2Proof.Machine.execSubwait x0 s
  | .waith x0 => Sys2Proof.Machine.execWaith x0 s
  | .testh x0 => Sys2Proof.Machine.execTesth x0 s
  | .cancelh x0 => Sys2Proof.Machine.execCancelh x0 s
  | .waitall x0 => Sys2Proof.Machine.execWaitall x0 s
  | .take x0 => Sys2Proof.Machine.execTake x0 s
  | .free x0 => Sys2Proof.Machine.execFree x0 s
  | .bload x0 => Sys2Proof.Machine.execBload x0 s
  | .cbload x0 => Sys2Proof.Machine.execCbload x0 s
  | .bdrop x0 => Sys2Proof.Machine.execBdrop x0 s
  | .mma x0 => Sys2Proof.Machine.execMma x0 s
  | .mxt x0 => Sys2Proof.Machine.execMxt x0 s
  | .mxp x0 => Sys2Proof.Machine.execMxp x0 s
  | .mxr x0 => Sys2Proof.Machine.execMxr x0 s
  | .accz x0 => Sys2Proof.Machine.execAccz x0 s
  | .accrd x0 => Sys2Proof.Machine.execAccrd x0 s
  | .rkld x0 => Sys2Proof.Machine.execRkld x0 s
  | .rkst x0 => Sys2Proof.Machine.execRkst x0 s
  | .br x0 => Sys2Proof.Machine.execBr x0 s
  | .brz x0 x1 x2 => Sys2Proof.Machine.execBrz x0 x1 x2 s
  | .brnz x0 x1 x2 => Sys2Proof.Machine.execBrnz x0 x1 x2 s
  | .brsz x0 x1 => Sys2Proof.Machine.execBrsz x0 x1 s
  | .brsnz x0 x1 => Sys2Proof.Machine.execBrsnz x0 x1 s
  | .brdec x0 x1 => Sys2Proof.Machine.execBrdec x0 x1 s
  | .join x0 => Sys2Proof.Machine.execJoin x0 s
  | .call x0 x1 => Sys2Proof.Machine.execCall x0 x1 s
  | .calli x0 x1 x2 => Sys2Proof.Machine.execCalli x0 x1 x2 s
  | .ret x0 => Sys2Proof.Machine.execRet x0 s
  | .exit => Sys2Proof.Machine.execExit s
  | .yieldGang => Sys2Proof.Machine.execYieldGang s
  | .nop => Sys2Proof.Machine.execNop s
  | .brk x0 => Sys2Proof.Machine.execBrk x0 s
  | .trap x0 => Sys2Proof.Machine.execTrap x0 s
  | .eret => Sys2Proof.Machine.execEret s
  | .ballot x0 => Sys2Proof.Machine.execBallot x0 s
  | .vany x0 => Sys2Proof.Machine.execVany x0 s
  | .vall x0 => Sys2Proof.Machine.execVall x0 s
  | .shfl x0 => Sys2Proof.Machine.execShfl x0 s
  | .shflx x0 => Sys2Proof.Machine.execShflx x0 s
  | .shflup x0 => Sys2Proof.Machine.execShflup x0 s
  | .shfldn x0 => Sys2Proof.Machine.execShfldn x0 s
  | .bcast x0 => Sys2Proof.Machine.execBcast x0 s
  | .redadd x0 => Sys2Proof.Machine.execRedadd x0 s
  | .redmin x0 => Sys2Proof.Machine.execRedmin x0 s
  | .redmax x0 => Sys2Proof.Machine.execRedmax x0 s
  | .scanadd x0 => Sys2Proof.Machine.execScanadd x0 s
  | .matchLanes x0 => Sys2Proof.Machine.execMatchLanes x0 s
  | .rank x0 => Sys2Proof.Machine.execRank x0 s
  | .bar x0 => Sys2Proof.Machine.execBar x0 s
  | .bara x0 => Sys2Proof.Machine.execBara x0 s
  | .barw x0 => Sys2Proof.Machine.execBarw x0 s
  | .fence x0 => Sys2Proof.Machine.execFence x0 s
  | .xswap x0 => Sys2Proof.Machine.execXswap x0 s
  | .msinc x0 => Sys2Proof.Machine.execMsinc x0 s
  | .mswait x0 => Sys2Proof.Machine.execMswait x0 s
  | .launch x0 => Sys2Proof.Machine.execLaunch x0 s
  | .ldact x0 => Sys2Proof.Machine.execLdact x0 s
  | .actsel x0 => Sys2Proof.Machine.execActsel x0 s
  | .clock x0 => Sys2Proof.Machine.execClock x0 s
  | .ptime x0 => Sys2Proof.Machine.execPtime x0 s
  | .sleep x0 => Sys2Proof.Machine.execSleep x0 s
  | .fwrite x0 => Sys2Proof.Machine.execFwrite x0 s
  | .fcopy x0 => Sys2Proof.Machine.execFcopy x0 s
  | .fatom x0 => Sys2Proof.Machine.execFatom x0 s
  | .winfence x0 => Sys2Proof.Machine.execWinfence x0 s
  | .pair x0 => Sys2Proof.Machine.execPair x0 s
  | .nest x0 => Sys2Proof.Machine.execNest x0 s
  | .clauseStart x0 x1 => Sys2Proof.Machine.execClauseStart x0 x1 s
  | .loadDataArrival x0 => Sys2Proof.Machine.execLoadDataArrival x0 s
  | .scalarDataArrival x0 => Sys2Proof.Machine.execScalarDataArrival x0 s
  | .longResultReady x0 => Sys2Proof.Machine.execLongResultReady x0 s
  | .storeAck x0 => Sys2Proof.Machine.execStoreAck x0 s
  | .scratchPerform x0 => Sys2Proof.Machine.execScratchPerform x0 s
  | .homeStore x0 x1 => Sys2Proof.Machine.execHomeStore x0 x1 s
  | .homeAtomic x0 x1 => Sys2Proof.Machine.execHomeAtomic x0 x1 s
  | .homeRenewal x0 x1 => Sys2Proof.Machine.execHomeRenewal x0 x1 s
  | .homeRead x0 => Sys2Proof.Machine.execHomeRead x0 s
  | .renewalReply x0 x1 => Sys2Proof.Machine.execRenewalReply x0 x1 s
  | .waitvReread x0 => Sys2Proof.Machine.execWaitvReread x0 s
  | .clockCreep x0 => Sys2Proof.Machine.execClockCreep x0 s
  | .rebase => Sys2Proof.Machine.execRebase s
  | .priorityPromotion x0 x1 => Sys2Proof.Machine.execPriorityPromotion x0 x1 s
  | .sleepEnd x0 x1 x2 => Sys2Proof.Machine.execSleepEnd x0 x1 x2 s
  | .replay x0 x1 => Sys2Proof.Machine.execReplay x0 x1 s
  | .faultServiceAnswer x0 x1 x2 => Sys2Proof.Machine.execFaultServiceAnswer x0 x1 x2 s
  | .groupResume x0 x1 x2 => Sys2Proof.Machine.execGroupResume x0 x1 x2 s
  | .softError x0 x1 x2 => Sys2Proof.Machine.execSoftError x0 x1 x2 s
  | .preemptRequest x0 x1 => Sys2Proof.Machine.execPreemptRequest x0 x1 s
  | .saveRecords x0 x1 => Sys2Proof.Machine.execSaveRecords x0 x1 s
  | .restore x0 => Sys2Proof.Machine.execRestore x0 s
  | .engineComplete x0 x1 => Sys2Proof.Machine.execEngineComplete x0 x1 s
  | .enginePause x0 x1 x2 => Sys2Proof.Machine.execEnginePause x0 x1 x2 s
  | .engineResume x0 x1 => Sys2Proof.Machine.execEngineResume x0 x1 s
  | .blockFill x0 x1 x2 => Sys2Proof.Machine.execBlockFill x0 x1 x2 s
  | .subscriptionFillDone x0 x1 => Sys2Proof.Machine.execSubscriptionFillDone x0 x1 s
  | .sequencerNumber x0 x1 x2 => Sys2Proof.Machine.execSequencerNumber x0 x1 x2 s
  | .updateApply x0 x1 => Sys2Proof.Machine.execUpdateApply x0 x1 s
  | .sectionPerform x0 x1 => Sys2Proof.Machine.execSectionPerform x0 x1 s
  | .bdropAct x0 x1 => Sys2Proof.Machine.execBdropAct x0 x1 s
  | .nestPerform x0 => Sys2Proof.Machine.execNestPerform x0 s
  | .sectionWaitEnd x0 x1 x2 => Sys2Proof.Machine.execSectionWaitEnd x0 x1 x2 s
  | .takeClaim x0 x1 x2 => Sys2Proof.Machine.execTakeClaim x0 x1 x2 s
  | .ldactBankWrite x0 x1 x2 => Sys2Proof.Machine.execLdactBankWrite x0 x1 x2 s
  | .barrierDepart x0 x1 x2 => Sys2Proof.Machine.execBarrierDepart x0 x1 x2 s
  | .xswapMatch x0 x1 x2 => Sys2Proof.Machine.execXswapMatch x0 x1 x2 s
  | .fenceComplete x0 x1 x2 => Sys2Proof.Machine.execFenceComplete x0 x1 x2 s
  | .settleComplete x0 x1 x2 => Sys2Proof.Machine.execSettleComplete x0 x1 x2 s
  | .mswaitReread x0 x1 x2 => Sys2Proof.Machine.execMswaitReread x0 x1 x2 s
  | .winfenceWindowEnd x0 x1 x2 => Sys2Proof.Machine.execWinfenceWindowEnd x0 x1 x2 s
  | .groupRetire x0 x1 => Sys2Proof.Machine.execGroupRetire x0 x1 s
  | .teamLeave x0 x1 => Sys2Proof.Machine.execTeamLeave x0 x1 s
  | .launchComplete x0 => Sys2Proof.Machine.execLaunchComplete x0 s
  | .queueTailUpdate x0 x1 => Sys2Proof.Machine.execQueueTailUpdate x0 x1 s
  | .passMilestoneReread x0 => Sys2Proof.Machine.execPassMilestoneReread x0 s
  | .clusterPlace x0 => Sys2Proof.Machine.execClusterPlace x0 s
  | .shootdown x0 => Sys2Proof.Machine.execShootdown x0 s
  | .shootdownComplete => Sys2Proof.Machine.execShootdownComplete s
  | .walkComplete x0 => Sys2Proof.Machine.execWalkComplete x0 s
  | .connSetup x0 x1 => Sys2Proof.Machine.execConnSetup x0 x1 s
  | .connTeardown x0 x1 => Sys2Proof.Machine.execConnTeardown x0 x1 s
  | .connClear x0 x1 => Sys2Proof.Machine.execConnClear x0 x1 s
  | .circuitUp x0 x1 => Sys2Proof.Machine.execCircuitUp x0 x1 s
  | .circuitDrained x0 x1 => Sys2Proof.Machine.execCircuitDrained x0 x1 s
  | .opticalFailure x0 x1 => Sys2Proof.Machine.execOpticalFailure x0 x1 s
  | .wavelengthFailure x0 x1 => Sys2Proof.Machine.execWavelengthFailure x0 x1 s
  | .streamMove x0 x1 => Sys2Proof.Machine.execStreamMove x0 x1 s
  | .spareWayReplace x0 x1 x2 x3 => Sys2Proof.Machine.execSpareWayReplace x0 x1 x2 x3 s
  | .hbmRowRemap x0 x1 => Sys2Proof.Machine.execHbmRowRemap x0 x1 s
  | .meshLinkSpare x0 x1 => Sys2Proof.Machine.execMeshLinkSpare x0 x1 s
  | .coreRetire x0 => Sys2Proof.Machine.execCoreRetire x0 s
  | .harvestModeSet x0 x1 => Sys2Proof.Machine.execHarvestModeSet x0 x1 s
  | .powerShareUpdate x0 => Sys2Proof.Machine.execPowerShareUpdate x0 s
  | .packageReset => Sys2Proof.Machine.execPackageReset s
  | .dieReset x0 => Sys2Proof.Machine.execDieReset x0 s
  | .biasFlipToHost x0 x1 => Sys2Proof.Machine.execBiasFlipToHost x0 x1 s
  | .biasFlipToDevice x0 x1 => Sys2Proof.Machine.execBiasFlipToDevice x0 x1 s
  | .hostSnoop x0 x1 x2 => Sys2Proof.Machine.execHostSnoop x0 x1 x2 s
  | .hostMemRead x0 x1 => Sys2Proof.Machine.execHostMemRead x0 x1 s
  | .hostMemWrite x0 x1 => Sys2Proof.Machine.execHostMemWrite x0 x1 s
  | .migStart x0 x1 => Sys2Proof.Machine.execMigStart x0 x1 s
  | .migRetire x0 x1 => Sys2Proof.Machine.execMigRetire x0 x1 s
  | .migClear x0 x1 => Sys2Proof.Machine.execMigClear x0 x1 s
  | .migrationBlockCopy x0 x1 => Sys2Proof.Machine.execMigrationBlockCopy x0 x1 s
  | .bar0Write x0 x1 => Sys2Proof.Machine.execBar0Write x0 x1 s
  | .fwincfgWrite x0 => Sys2Proof.Machine.execFwincfgWrite x0 s
  | .fdevcfgWrite x0 => Sys2Proof.Machine.execFdevcfgWrite x0 s
  | .remoteRequest x0 => Sys2Proof.Machine.execRemoteRequest x0 s
  | .remoteWritePerform x0 => Sys2Proof.Machine.execRemoteWritePerform x0 s
  | .remoteWriteTimeout x0 => Sys2Proof.Machine.execRemoteWriteTimeout x0 s
  | .syncLoss x0 => Sys2Proof.Machine.execSyncLoss x0 s
  | .syncRegain x0 => Sys2Proof.Machine.execSyncRegain x0 s
  | .headFlitError x0 x1 => Sys2Proof.Machine.execHeadFlitError x0 x1 s
  | .uncorrectableMemoryError x0 => Sys2Proof.Machine.execUncorrectableMemoryError x0 s
  | .l2SliceFailure x0 x1 => Sys2Proof.Machine.execL2SliceFailure x0 x1 s
  | .endLaunch x0 => Sys2Proof.Machine.execEndLaunch x0 s
  | .queueStatusClear x0 x1 => Sys2Proof.Machine.execQueueStatusClear x0 x1 s

end Sys2Proof.Machine
end

