-- ==== Sys2Proof/Machine/Step.lean ====
section
/-! DEFINITION. One step of the machine: the next move of the agenda, or the free one, is made. -/

namespace Sys2Proof.Machine

open Sys2Proof

/-- A free move: a cycle ends only with the moves of its slots (R193, R195). -/
def wholeMove : Move → Move
  | .tick => .advance 1
  | m => m

/-- The next move, and the state with it taken (log entry 3). -/
def State.takeMove (s : State) : Move × State :=
  match s.agenda with
  | m :: ms => (m, { s with agenda := ms, tick := s.tick + 1 })
  | [] => (wholeMove (Config.freeMove s.tick), { s with tick := s.tick + 1 })

/-- A slot issues the next instruction of the clause it holds (R191). -/
def State.stepIssue (s : State) (core slot : Nat) : Res :=
  match s.issueHead core slot with
  | .idle s1 => .next s1
  | .run i s1 =>
    match exec i s1 with
    | .next s2 => .next (s2.settleIssue core slot (s1.seqAt core slot) (i == .eret))
    | .fault f => .fault f
    | .refused r => .refused r

/-- An instruction that waits at the next clause header is tried again (R221). -/
def State.stepResume (s : State) (core frame slice : Nat) : Res :=
  match s.resumeHead core frame slice with
  | .idle s1 => .next s1
  | .run i s1 =>
    match exec i s1 with
    | .next s2 => .next (s2.reportStep core frame s2.iss.mask)
    | .fault f => .fault f
    | .refused r => .refused r

/-- One step: the next move is made. A move that nothing enables, or an event that is none, leaves all else as it
stands. -/
def step (s : State) : Host.Outcome State Fault Refusal :=
  match s.takeMove with
  | (.issue core slot, s1) => s1.stepIssue core slot
  | (.event i, s1) => if i.form = .event then exec i s1 else .next s1
  | (.advance n, s1) => .next (match n with | 0 => s1 | m + 1 => s1.prepend (s1.cycleMoves ++ [.tick, .advance m]))
  | (.tick, s1) => .next s1.passTime
  | (.engineUnits core handle units, s1) => .next (s1.moveUnits core handle units)
  | (.resume core frame slice, s1) => s1.stepResume core frame slice

/-! ## An instruction placed for the next step -/

/-- A header with every limit at its largest (R385). -/
def KHeader.widest : KHeader :=
  { ragged := false, span := 1, pantry := 64, scalars := 96, barriers := 16, full := true, scratch := 2097152, minL1 := 2,
    rack := 128, shape := 1, trapMode := 0, handler := 0, constOff := 0, constSize := 0, argSig := 0, argSize := 0,
    divDepth := 63, callDepth := 16 }

/-- A group at its start, alone on core 0, that holds issue slot 0 (R13 to R28). -/
def Group.placed (pc : DWord) : Group :=
  { lanes := Vector.replicate 32 Lane.start, slices := Vector.replicate 8 (Slice.start pc),
    scalars := Vector.replicate 96 0, sseq := Vector.replicate 96 0, flags := Vector.replicate 12 0,
    clear := BitVec.allOnes 12, div := [], laneRecs := [], sliceRecs := [], recHeld := [], traps := [], csp := 0, actBank := 0, log := [],
    replay := false, sPoison := [], rdmax := 0, ackmax := 0, engMax := 0, engDone := [], seq := 0,
    status := .running, fault := none, drainFault := false, async := [], due := [], waits := [], launch := 0, cluster := 0,
    index := 0, ctx := 0, priv := true, hdr := KHeader.widest, placedAt := 0, fabWin := none,
    hostSt := false, halted := false }

/-- Its team (R183, R184, R232, R289). -/
def Team.placed : Team :=
  { launch := 0, cluster := 0, rank := 0, peers := [0], scratchBase := 0, scratchLen := 2097152, rackBase := 0,
    rackLen := 128, bars := Vector.replicate 16 0, cbars := Vector.replicate 16 0, cclk := Vector.replicate 16 0, prio := 0, promo := 0, starved := 0, started := false,
    coreRec := 0, grpRecs := [], groups := 1, live := 1, preempting := false }

/-- The words of an opcode-table instruction: 32-bit words from the lowest address, the bits above `nbits` zero. -/
def tableWords (nbits w : Nat) : List Word :=
  (List.range 10).map fun k => BitVec.ofNat 32 (w % 2 ^ nbits / 2 ^ (32 * k))

/-- The state in which slot 0 of core 0 holds a clause whose next instruction is a given one, and issues it at the next
step (log entry 10). -/
def State.withFetchWord (s : State) (nbits w : Nat) : State :=
  let hold : Hold := ⟨0, 0xFF, 0, ⟨0, 15, 15, 24, false⟩, 0, 8, tableWords nbits w, 0x400⟩
  let c := s.core 0
  let s1 := s.setCore 0 { c with frames := Sparse.put c.frames 0 (Group.placed 0), teams := [Team.placed],
                                 slots := c.slots.set 0 ⟨some hold, 0, 0, 0, 0, 0⟩ }
  { s1 with agenda := [.issue 0 0] }

end Sys2Proof.Machine
end

