-- ==== Sys2Proof/Safety.lean ====
section
/-! DEFINITION. What statements are made of: the canonical form of every memory, an instruction that is ready to execute,
and the shapes of a next state. -/

namespace Sys2Proof.Machine

open Sys2Proof

/-! ## Sound states -/

/-- Every memory of a core in its canonical form. -/
def Core.memOk (c : Core) : Bool :=
  Memory.wf c.scratch && Memory.wf c.rack && c.banks.toList.all Memory.wf

/-- Memory in its canonical form, in every place the machine holds some (log entry 1). -/
def State.memOk (s : State) : Bool := Memory.wf s.mem && s.cores.all fun p => p.2.memOk

/-! ## Readiness -/

/-- A group that issues an instruction: it is resident at the issuer's place, the instruction passes the checks of R76,
and no entry it reads or would come round to is pending or poisoned (R10, R17, R262). -/
def State.Ready (s : State) (i : Instr) (g : Group) : Prop :=
  s.group? s.iss.core s.iss.frame = some g ∧ s.checks g i = none ∧
    g.blockedBy s.iss.mask (formAges i.form) (formPushes i.form) = [] ∧
    g.poisonRead s.iss.mask (formAges i.form) = none

/-- The same of an instruction that accesses memory: no acquire of the group is under way (R204, R338). -/
def State.MemReady (s : State) (i : Instr) (g : Group) : Prop :=
  s.Ready i g ∧ g.waits.any Wait.acquires = false ∧ s.acquires s.iss.core s.iss.frame = []

/-- The group in issue has no call record in its shadow, so that taking a fault writes none to memory (R34, R266). -/
def State.ShadowFree (s : State) : Prop := ∀ g, s.group? s.iss.core s.iss.frame = some g → g.sliceRecs = []

/-- The order at fabric scope that an access with a release needs holds: no earlier store or atomic of the group and no write-back of the
core waits for its acknowledgement, no word of a leased range is dirty, and nothing of the group's remote writes is outstanding (R204,
R417, R422). -/
def State.windowClear (s : State) (g : Group) (release : Bool) (sc : Scope) : Prop :=
  release = true → sc = .fabric → s.earlierWrites s.iss.core s.iss.frame g.seq = false ∧ (s.core s.iss.core).dirtyLeased = [] ∧
    s.backsOut s.iss.core s.nextOp = false ∧ s.winState s.iss.core s.iss.frame g.seq g = .done

/-- What a request asks: its lane, kind, address, size and data. -/
def Req.asks (r : Req) : Nat × ReqKind × DWord × Nat × List Byte := (r.lane, r.kind, r.va, r.size, r.data)

/-- Requests that an instruction issue sends: `s` and `t` before and after, what they ask in order; memory, scratch and all older
requests stay as they were. -/
def State.Sends (s t : State) (asks : List (Nat × ReqKind × DWord × Nat × List Byte)) : Prop :=
  (∃ new, t.reqs = s.reqs ++ new ∧ new.map Req.asks = asks) ∧ t.mem = s.mem ∧
    ∀ k, (t.core k).scratch = (s.core k).scratch

/-- Lanes of a group after `n` entries of each active lane of a split have been reserved (R17). -/
def Group.reserved (g h : Group) (mask : BitVec 8) (n : Nat) : Prop :=
  ∀ l : Fin 32, if g.on mask l then
      h.lanes[l].head = g.lanes[l].head + BitVec.ofNat 5 n ∧ h.lanes[l].net = g.lanes[l].net + BitVec.ofNat 8 n ∧
        h.lanes[l].trail = g.lanes[l].trail ∧ h.lanes[l].pantry = g.lanes[l].pantry ∧
        (∀ j < n, h.lanes[l].pendingAge j = true)
    else h.lanes[l] = g.lanes[l]

/-! ## Next states -/

/-- Each active lane of the issuing split pushes some entries, the first of a list first; the split goes on (R113). -/
def State.pushed (s : State) (g : Group) (r : Fin 32 → Lane → List Word) : State :=
  s.finish (g.mapLanes s.iss.mask fun n l => l.emits (r n l))

/-- Each active lane of the issuing split reserves entries that a result on its way fills; the split goes on (R17, R137). -/
def State.sentOff (s : State) (g : Group) (r : Fin 32 → Lane → List Word) : State :=
  let s1 := (g.activeLanes s.iss.mask).foldl (fun t n =>
    t.reserveFor n (r n g.lanes[n]).length
      { Req.blank t g n.val with kind := .long, data := wordsBytes (r n g.lanes[n]) }) s
  { s1.advance with nextOp := s1.nextOp + 1 }

/-- A V instruction's result at a function of its three sources. -/
def State.vPushed (s : State) (g : Group) (op : Nat) (f : VFields) (r : Nat → Nat → Nat → List Word) : State :=
  s.pushed g fun _ l => r (s.vSrc op f g l).1 (s.vSrc op f g l).2.1 (s.vSrc op f g l).2.2

/-- The same for a long-latency result. -/
def State.vSentOff (s : State) (g : Group) (op : Nat) (f : VFields) (r : Nat → Nat → Nat → List Word) : State :=
  s.sentOff g fun _ l => r (s.vSrc op f g l).1 (s.vSrc op f g l).2.1 (s.vSrc op f g l).2.2

/-- A scalar result at a function of an S instruction's two sources, written to DST (R129). -/
def State.sWritten (s : State) (g : Group) (op : Nat) (f : SFields) (wide : Bool) (r : Nat → Nat → Nat) : State :=
  s.finish (g.setDst f.dst wide (r (s.sSrc op f g).1 (s.sSrc op f g).2))

/-! ## Exact values -/

/-- The rational number of a finite value, 0 of any other (R87). -/
def FVal.rat : FVal → ℚ
  | .fin neg m e => (if neg then -1 else 1) * (m : ℚ) * (2 : ℚ) ^ e
  | _ => 0

/-- A finite value. -/
def FVal.finite : FVal → Bool
  | .fin _ _ _ => true
  | _ => false

end Sys2Proof.Machine

namespace Sys2Proof

/-! ## What kinds of instructions leave alone -/

/-- Forms whose instructions access no memory, scratch or rack: all but those of classes M, E, X, Y and N and the scalar memory
instructions. -/
def Form.keepsMemory : Form → Bool
  | .m _ _ | .e _ _ | .x _ _ | .y _ _ | .nest _ | .event => false
  | .s op _ => decide (op < 0x50)
  | _ => true

/-- Forms that act on each active lane, or on all of them together: classes V, I, G and P. -/
def Form.onLanes : Form → Bool
  | .v _ _ | .get _ | .save _ _ | .drop _ | .i _ _ | .g _ _ | .pair _ => true
  | _ => false

/-- Scalars that a lane or a scalar instruction writes: BALLOT's, and DST of class S, with its neighbour for a 64-bit result
(R129, R173). -/
def Form.writesScalars : Form → List Nat
  | .g 0x00 f => [f.sdst.toNat]
  | .s 0x41 _ => []
  | .s op f => if op = 0x18 ∨ (op ≠ 0x30 ∧ f.ty.is64) then [f.dst.toNat, f.dst.toNat + 1] else [f.dst.toNat]
  | _ => []

/-- Forms that write pantry slots. -/
def Form.saves : Form → Bool
  | .save _ _ => true
  | _ => false

end Sys2Proof
end

