-- ==== Sys2Proof/Certificates/Slice0/Obligations.lean ====
section
/-! DEFINITION. The statements for the provers. -/

open Sys2Proof Sys2Proof.Machine

/-! ## Lane instructions -/

/-- R116, R117: the trail instructions complete. DUP pushes its source, narrowed with NARROW; SEL one of two sources by its
32-bit predicate, and both are long-latency under f64 (R137); GET a pantry slot; LANE the lane's index. SAVE writes a slot and pushes nothing; DROP lowers HEAD and NET.
Everything else stays, for the next state is the state before with those lanes and the split's place changed. -/
def Obligations.TrailInstructionsComplete : Prop :=
  ∀ (s : State) (g : Group) (f : VFields) (slot : BitVec 6) (age n : BitVec 5),
    (s.Ready (.dup f) g → exec (.dup f) s = .next (if f.ty = .f64 then s.vSentOff g 0x00 f fun x _ _ => moveResult f x
      else s.vPushed g 0x00 f fun x _ _ => moveResult f x)) ∧
    (s.Ready (.sel f) g → exec (.sel f) s = .next
      (let r := fun c x y => if c = 0 then wordsOf f.ty.is64 y else wordsOf f.ty.is64 x
       if f.ty = .f64 then s.vSentOff g 0x01 f r else s.vPushed g 0x01 f r)) ∧
    (s.Ready (.get slot) g → exec (.get slot) s = .next (s.pushed g fun _ l => [l.pantry[slot.toNat]'slot.isLt])) ∧
    (s.Ready (.lane f) g → exec (.lane f) s = .next (s.pushed g fun k _ => [BitVec.ofNat 32 k.val])) ∧
    (s.Ready (.save age slot) g → exec (.save age slot) s =
      .next (s.finish (g.mapLanes s.iss.mask fun _ l =>
        { l with pantry := l.pantry.set slot.toNat (l.trail[(l.head - age).toNat]'(l.head - age).isLt) slot.isLt }))) ∧
    (s.Ready (.drop n) g → exec (.drop n) s =
      .next (s.finish (g.mapLanes s.iss.mask fun _ l =>
        { l with head := l.head - n, net := l.net - n.setWidth 8 })))

/-- R115, R118, R119: every integer arithmetic instruction completes, and each active lane pushes its exact result brought
into the type or narrowed, element by element of a packed type. -/
def Obligations.IntegerArithmeticCompletes : Prop :=
  ∀ (s : State) (g : Group) (f : VFields) (p : Instr × Nat × (Int → Int → Int → Int)),
    p ∈ ([(.add f, 0x10, fun x y _ => x + y), (.sub f, 0x11, fun x y _ => x - y), (.mul f, 0x12, fun x y _ => x * y),
      (.mulhi f, 0x13, fun x y _ => x * y / 2 ^ f.ty.width), (.mad f, 0x14, fun x y z => x * y + z),
      (.div f, 0x15, fun x y _ => if y = 0 then (if f.ty.isSigned ∧ 0 ≤ x then 1 else -1) else Int.tdiv x y),
      (.rem f, 0x16, fun x y _ => x - y * Int.tdiv x y), (.abs f, 0x17, fun x _ _ => |x|), (.neg f, 0x18, fun x _ _ => -x),
      (.min f, 0x19, fun x y _ => Min.min x y), (.max f, 0x1A, fun x y _ => Max.max x y),
      (.clamp f, 0x1B, fun x lo hi => Min.min (Max.max x lo) hi), (.absdiff f, 0x1C, fun x y _ => |x - y|)] :
        List (Instr × Nat × (Int → Int → Int → Int))) →
    s.Ready p.1 g →
    exec p.1 s = .next (s.vPushed g p.2.1 f fun x y z => intResult f.ty f.nfmt.toNat f.narrow f.sat p.2.2 x y z)

/-- R115: an element of an integer result is the exact result of the sources' elements, clamped to the type's range with SAT,
else its low bits; elements do not touch one another. -/
def Obligations.IntegerElementsAreIndependent : Prop :=
  ∀ (t : Ty) (sat : Bool) (k : Int → Int → Int → Int) (x y z e : Nat), t.isFloat = false → e < t.lanes →
    let v := k (intVal t (x / 2 ^ (t.width * e) % 2 ^ t.width)) (intVal t (y / 2 ^ (t.width * e) % 2 ^ t.width))
      (intVal t (z / 2 ^ (t.width * e) % 2 ^ t.width))
    let lo : Int := if t.isSigned then -2 ^ (t.width - 1) else 0
    let hi : Int := if t.isSigned then 2 ^ (t.width - 1) - 1 else 2 ^ t.width - 1
    ((intMap t sat k x y z / 2 ^ (t.width * e) % 2 ^ t.width : Nat) : Int) =
      (if sat then Max.max lo (Min.min hi v) else v) % 2 ^ t.width

/-- R120 to R124: the address, bit, field, byte and packing instructions complete, the shifts and counts said in terms of Lean's bit vectors; and
what BFX, BFI and PERMB compute, bit by bit and byte by byte. -/
def Obligations.BitInstructionsComplete : Prop :=
  (∀ (s : State) (g : Group) (f : VFields) (p : Instr × Nat × (Nat → Nat → Nat → List Word)),
      let w := f.ty.width
      let two := fun (v : BitVec w) => wordsOf f.ty.is64 v.toNat
      p ∈ ([(.lea f, 0x1D, fun b i n => wordsOf true
          (BitVec.ofNat 64 b + (if f.ty.isSigned then (BitVec.ofNat 32 i).signExtend 64 else (BitVec.ofNat 32 i).setWidth 64) <<< n).toNat),
        (.and f, 0x20, fun x y _ => two (BitVec.ofNat w x &&& BitVec.ofNat w y)),
        (.or f, 0x21, fun x y _ => two (BitVec.ofNat w x ||| BitVec.ofNat w y)),
        (.xor f, 0x22, fun x y _ => two (BitVec.ofNat w x ^^^ BitVec.ofNat w y)),
        (.not f, 0x23, fun x _ _ => two (~~~ BitVec.ofNat w x)),
        (.shl f, 0x24, fun x n _ => two (BitVec.ofNat w x <<< n)),
        (.shr f, 0x25, fun x n _ => two (if f.ty.isSigned then (BitVec.ofNat w x).sshiftRight n else BitVec.ofNat w x >>> n)),
        (.rotl f, 0x26, fun x n _ => two ((BitVec.ofNat w x).rotateLeft n)),
        (.bfx f, 0x27, fun x o n => wordsOf false (bfxBits f.ty.isSigned x o n)),
        (.bfi f, 0x28, fun x i c => wordsOf false (bfiBits x i c)),
        (.popc f, 0x29, fun x _ _ => wordsOf false ((List.range w).countP fun i => (BitVec.ofNat w x).getLsbD i)),
        (.clz f, 0x2A, fun x _ _ => wordsOf false (BitVec.ofNat w x).clz.toNat),
        (.ctz f, 0x2B, fun x _ _ => wordsOf false (BitVec.ofNat w x).ctz.toNat),
        (.brev f, 0x2C, fun x _ _ => two (BitVec.ofNat w x).reverse),
        (.permb f, 0x2D, fun x y _ => wordsOf false (permBytes x y)),
        (.pack f, 0x2E, fun x y _ => wordsOf false (packElems f.ty f.sat x y))] : List (Instr × Nat × (Nat → Nat → Nat → List Word))) →
      s.Ready p.1 g → exec p.1 s = .next (s.vPushed g p.2.1 f p.2.2)) ∧
  ((∀ (x off wid i : Nat), x < 2 ^ 32 → i < 32 →
      let o := off % 32
      let w := Min.min (wid % 64) (32 - o)
      ((bfxBits false x off wid).testBit i = (decide (i < w) && x.testBit (o + i))) ∧
      ((bfxBits true x off wid).testBit i = (decide (0 < w) && x.testBit (o + Min.min i (w - 1))))) ∧
    (∀ (x ins ctl i : Nat), i < 32 →
      let o := ctl % 32
      let w := Min.min (ctl / 2 ^ 8 % 64) (32 - o)
      (bfiBits x ins ctl).testBit i = if o ≤ i ∧ i < o + w then ins.testBit (i - o) else x.testBit i) ∧
    (∀ (x sel i : Nat), i < 4 →
      let c := sel / 256 ^ i % 256
      let b := x / 256 ^ (c % 4) % 256
      permBytes x sel / 256 ^ i % 256 =
        if c.testBit 7 then 0 else if c.testBit 6 then (if b.testBit 7 then 255 else 0) else b))

/-- R125, R126: the compares complete: one entry, 1 where the relation holds and else 0; of singles and doubles as IEEE values,
none of the six of a NaN. Compares of f64 are long-latency (R137). -/
def Obligations.ComparesComplete : Prop :=
  ∀ (s : State) (g : Group) (f : VFields) (p : Instr × Nat × (Nat → Nat → Bool)),
    let d := f.ty.fmt.decode
    let rel := fun (ri : Int → Int → Bool) (rf : FVal → FVal → Bool) (x y : Nat) =>
      if f.ty.isFloat then !(d x).isNan && !(d y).isNan && rf (d x) (d y) else ri (intVal f.ty x) (intVal f.ty y)
    p ∈ ([(.ceq f, 0x30, rel (fun a b => a == b) FVal.numEq), (.cne f, 0x31, rel (fun a b => a != b) fun a b => !a.numEq b),
      (.clt f, 0x32, rel (fun a b => decide (a < b)) FVal.lt), (.cle f, 0x33, rel (fun a b => decide (a ≤ b)) fun a b => !b.lt a),
      (.cgt f, 0x34, rel (fun a b => decide (a > b)) fun a b => b.lt a), (.cge f, 0x35, rel (fun a b => decide (a ≥ b)) fun a b => !a.lt b),
      (.cuno f, 0x36, fun x y => (d x).isNan || (d y).isNan),
      (.fclass f, 0x37, fun x m => m.testBit (fclassBit f.ty.fmt (d x)))] : List (Instr × Nat × (Nat → Nat → Bool))) →
    s.Ready p.1 g →
    exec p.1 s = .next (if f.ty = .f64 then s.vSentOff g p.2.1 f fun x y _ => truth (p.2.2 x y)
      else s.vPushed g p.2.1 f fun x y _ => truth (p.2.2 x y))

/-- R127, R128, R141, R152: the immediates, of integers and of floats, and the pair complete. A pair reads the trail as it stood; its integer
half's result is pushed first. -/
def Obligations.ImmediatesAndPairComplete : Prop :=
  (∀ (s : State) (g : Group) (f : IFields) (p : Instr × (Nat → List Word)),
      let m := immInt f
      let v := fun (x : Nat) => intVal f.ty x
      let kept := fun (r : Int) => wordsOf f.ty.is64 (keepInt f.ty f.sat r)
      p ∈ ([(.ldi f, fun _ => [BitVec.ofInt 32 m]), (.ldhi f, fun _ => [f.imm.setWidth 32 <<< 12]),
        (.pchi f, fun _ => wordsOf true (s.iss.pc + (f.imm.signExtend 64 <<< 12)).toNat),
        (.addi f, fun x => kept (v x + m)), (.muli f, fun x => kept (v x * m)),
        (.andi f, fun x => [BitVec.ofNat 32 x &&& BitVec.ofInt 32 m]), (.ori f, fun x => [BitVec.ofNat 32 x ||| BitVec.ofInt 32 m]),
        (.xori f, fun x => [BitVec.ofNat 32 x ^^^ BitVec.ofInt 32 m]),
        (.shli f, fun x => [BitVec.ofNat 32 x <<< f.imm.toNat]),
        (.shri f, fun x => [if f.ty.isSigned then (BitVec.ofNat 32 x).sshiftRight f.imm.toNat else BitVec.ofNat 32 x >>> f.imm.toNat]),
        (.mini f, fun x => kept (Min.min (v x) m)), (.maxi f, fun x => kept (Max.max (v x) m)),
        (.clti f, fun x => truth (decide (v x < m)))] : List (Instr × (Nat → List Word))) →
      s.Ready p.1 g → exec p.1 s = .next (s.pushed g fun _ l => p.2 (s.iSrc f g l).1)) ∧
  (∀ (s : State) (g : Group),
      (∀ (f : IFields) (p : Instr × (FVal → FVal → FVal → FVal)),
        p ∈ ([(.faddi f, fun x m _ => sumExact f.rm [x, m]), (.fmuli f, fun x m _ => mulExact x m),
          (.ffmai f, fun x m z => sumExact f.rm [mulExact x m, z]), (.fmini f, fun x m _ => fmin x m),
          (.fmaxi f, fun x m _ => fmax x m)] : List (Instr × (FVal → FVal → FVal → FVal))) →
        s.Ready p.1 g →
        exec p.1 s = .next (s.pushed g fun _ l =>
          [BitVec.ofNat 32 (FFmt.f32.encode f.rm false (p.2 (FFmt.f32.decode (s.iSrc f g l).1)
            (FFmt.f32.decode (f.imm.toNat * 2 ^ 12)) (FFmt.f32.decode (s.iSrc f g l).2)))])) ∧
      (∀ f : PairFields, s.Ready (.pair f) g →
        exec (.pair f) s = .next (s.pushed g fun _ l =>
          pairInt f.op0 f.half0 (s.vSrc f.op0.op f.half0 g l).1 (s.vSrc f.op0.op f.half0 g l).2.1 ++
            pairFloat f.op1 f.half1 (s.vSrc f.op1.op f.half1 g l).1 (s.vSrc f.op1.op f.half1 g l).2.1)))

/-! ## Floating point -/

/-- R135, R138 to R140, R142 to R144: the float arithmetic, dot products and conversions complete. Each result is one rounding
of an exact value; f64 forms are long-latency (R137). -/
def Obligations.FloatArithmeticCompletes : Prop :=
  ∀ (s : State) (g : Group) (f : VFields) (p : Instr × Nat × (Nat → Nat → Nat → List Word)),
    let one := floatResult f
    let late := f.ty = .f64 ∨ (p.2.1 ∈ [0x4A, 0x4B, 0x4C] ∧ cvtSrc f = .f64)
    p ∈ ([(.fadd f, 0x40, one fun x y _ => sumExact f.rm [x, y]), (.fsub f, 0x41, one fun x y _ => sumExact f.rm [x, y.neg]),
      (.fmul f, 0x42, one fun x y _ => mulExact x y), (.ffma f, 0x43, one fun x y z => sumExact f.rm [mulExact x y, z]),
      (.fmin f, 0x44, one fun x y _ => fmin x y), (.fmax f, 0x45, one fun x y _ => fmax x y),
      (.frnd f, 0x46, one fun x _ _ => rndIntegral f.rm x),
      (.fdot2 f, 0x47, fun x y z => dotResult f.rm (floatElems f.ty x) (floatElems f.ty y) z),
      (.fdot4 f, 0x48, fun x y z => dotResult f.rm (quadElems f.nfmt.toNat x) (quadElems f.nfmt.toNat y) z),
      (.fscale f, 0x49, fun x n _ => floatResult f (fun v _ _ => fscale v (BitVec.ofNat 32 n).toInt) x 0 0),
      (.cvtf f, 0x4A, fun x _ _ => wordsOf f.ty.is64 (cvtfValue (cvtSrc f) f.ty f.rm f.sat x)),
      (.cvtfi f, 0x4B, fun x _ _ => wordsOf f.ty.is64 (toInt f.rm f.sat f.ty.width f.ty.isSigned ((cvtSrc f).fmt.decode x))),
      (.cvtif f, 0x4C, fun x _ _ => wordsOf f.ty.is64 (f.ty.fmt.encode f.rm false (ofInteger (intVal (cvtSrc f) x))))] :
        List (Instr × Nat × (Nat → Nat → Nat → List Word))) →
    s.Ready p.1 g →
    (late → exec p.1 s = .next (s.vSentOff g p.2.1 f p.2.2)) ∧ (¬ late → exec p.1 s = .next (s.vPushed g p.2.1 f p.2.2))

/-- R97, R98, R125: sums and products of finite values are the exact rational ones, a NaN makes a NaN, opposite infinities and
zero times infinity make a NaN; the order of finite values is that of the rationals. -/
def Obligations.ExactArithmetic : Prop :=
  (∀ (rm : Rm) (v w : FVal), v.finite → w.finite →
    (sumExact rm [v, w]).finite ∧ (sumExact rm [v, w]).rat = v.rat + w.rat ∧
    (mulExact v w).finite ∧ (mulExact v w).rat = v.rat * w.rat ∧
    v.lt w = decide (v.rat < w.rat) ∧ v.numEq w = decide (v.rat = w.rat)) ∧
  (∀ (rm : Rm) (v : FVal), sumExact rm [.nan, v] = .nan ∧ sumExact rm [v, .nan] = .nan ∧ mulExact .nan v = .nan ∧
    mulExact v .nan = .nan ∧ fmin .nan v = v ∧ fmin v .nan = v ∧ fmax .nan v = v ∧ fmax v .nan = v) ∧
  (∀ (rm : Rm) (n : Bool), sumExact rm [.inf n, .inf (!n)] = .nan ∧ sumExact rm [.inf n, .inf n] = .inf n ∧
    mulExact (.inf n) .zero = .nan ∧ mulExact .zero (.inf n) = .nan)

/-- R87, R88, R95: a code that is no NaN, rounded from its own value, is that code again, in every format and rounding mode;
so a value that a format holds is kept whole. -/
def Obligations.ExactValuesAreKept : Prop :=
  ∀ (f : FFmt) (rm : Rm) (c : Nat), c < 2 ^ f.bits → (f.decode c).isNan = false → f.encode rm false (f.decode c) = c

/-- R137, R146, R150: the special functions and ACT complete, each a long-latency result on every active lane. -/
def Obligations.SpecialFunctionsComplete : Prop :=
  ∀ (s : State) (g : Group) (f : VFields),
    (∀ p : Instr × Nat × (FVal → SfOut),
      p ∈ ([(.rcp f, 0x50, sfRcp), (.rsq f, 0x51, sfRsq), (.sqrt f, 0x52, sfSqrt), (.exp2 f, 0x53, sfExp2), (.log2 f, 0x54, sfLog2),
        (.sin f, 0x55, sfSin f.grade), (.cos f, 0x56, sfCos f.grade), (.tanh f, 0x57, sfTanh), (.sigm f, 0x58, sfSigm)] :
          List (Instr × Nat × (FVal → SfOut))) →
      s.Ready p.1 g → exec p.1 s = .next (s.vSentOff g p.2.1 f fun x _ _ => singleResult f (sfValue f.grade p.2.2 x))) ∧
    (s.Ready (.act f) g → exec (.act f) s = .next (s.vSentOff g 0x59 f fun x n _ =>
      singleResult f (actValue ((s.core s.iss.core).banks.toList.getD g.actBank []) n x)))

/-- R146, R148: the sources whose results are given exactly, at both grades: zeros, infinities, negative sources of RSQ, SQRT and LOG2, and
the ranges of RCP, EXP2, TANH and SIGM. -/
def Obligations.SpecialValues : Prop :=
  ∀ acc : Bool,
    let inf := 0x7F800000
    let nan := 0x7FC00000
    let one := 0x3F800000
    let neg := 0x80000000
    (sfValue acc sfRcp 0 = inf ∧ sfValue acc sfRcp neg = neg + inf ∧ sfValue acc sfRcp inf = 0 ∧ sfValue acc sfRcp (neg + inf) = neg) ∧
    (sfValue acc sfRsq 0 = inf ∧ sfValue acc sfRsq neg = neg + inf ∧ sfValue acc sfRsq inf = 0) ∧
    (sfValue acc sfSqrt 0 = 0 ∧ sfValue acc sfSqrt neg = neg ∧ sfValue acc sfSqrt inf = inf) ∧
    (sfValue acc sfExp2 0 = one ∧ sfValue acc sfExp2 neg = one ∧ sfValue acc sfExp2 inf = inf ∧ sfValue acc sfExp2 (neg + inf) = 0) ∧
    (sfValue acc sfLog2 0 = neg + inf ∧ sfValue acc sfLog2 neg = neg + inf ∧ sfValue acc sfLog2 one = 0 ∧ sfValue acc sfLog2 inf = inf) ∧
    (sfValue acc (sfSin acc) 0 = 0 ∧ sfValue acc (sfSin acc) neg = neg ∧ sfValue acc (sfSin acc) inf = nan ∧
      sfValue acc (sfCos acc) 0 = one ∧ sfValue acc (sfCos acc) neg = one ∧ sfValue acc (sfCos acc) inf = nan) ∧
    (sfValue acc sfTanh 0 = 0 ∧ sfValue acc sfTanh neg = neg ∧ sfValue acc sfTanh inf = one ∧ sfValue acc sfTanh (neg + inf) = neg + one) ∧
    (sfValue acc sfSigm 0 = 0x3F000000 ∧ sfValue acc sfSigm inf = one ∧ sfValue acc sfSigm (neg + inf) = 0) ∧
    (∀ k ∈ [sfRcp, sfRsq, sfSqrt, sfExp2, sfLog2, sfSin acc, sfCos acc, sfTanh, sfSigm],
      ∀ x < 2 ^ 32, (FFmt.f32.decode x).isNan → sfValue acc k x = nan) ∧
    (∀ k ∈ [sfRsq, sfSqrt, sfLog2], ∀ m ≤ 0x7F000000, sfValue acc k (neg + 0x00800000 + m) = nan) ∧
    sfValue acc (sfSin acc) (neg + inf) = nan ∧ sfValue acc (sfCos acc) (neg + inf) = nan ∧
    (∀ x, 0x43000000 ≤ x → x ≤ inf → sfValue acc sfExp2 x = inf) ∧
    (∀ x, 0x41100000 ≤ x → x ≤ inf → sfValue acc sfTanh x = one ∧ sfValue acc sfTanh (neg + x) = neg + one) ∧
    (∀ x, 0x41880000 ≤ x → x ≤ inf → sfValue acc sfSigm x = one) ∧
    (∀ x ≤ 0x00200000, sfValue acc sfRcp x = inf ∧ sfValue acc sfRcp (neg + x) = neg + inf)

/-! ## Scalar instructions -/

/-- R129, R130: the register-to-register scalar instructions complete: DST, or DST and DST + 1 for a 64-bit result, takes the
result; no lane changes. -/
def Obligations.ScalarInstructionsComplete : Prop :=
  ∀ (s : State) (g : Group) (f : SFields) (p : Instr × Nat × Bool × (Nat → Nat → Nat)),
    let w := f.ty.width
    let int := fun (k : Int → Int → Int) (a b : Nat) => (BitVec.ofInt w (k (intVal f.ty a) (intVal f.ty b))).toNat
    p ∈ ([(.smov f, 0x00, f.ty.is64, fun a _ => a),
      (.ssel f, 0x01, f.ty.is64, fun a b => if g.scalar f.imm.toNat = 0 then b else a),
      (.sadd f, 0x10, f.ty.is64, int fun a b => a + b), (.ssub f, 0x11, f.ty.is64, int fun a b => a - b),
      (.smul f, 0x12, f.ty.is64, int fun a b => a * b), (.smulhi f, 0x13, f.ty.is64, int fun a b => a * b / 2 ^ w),
      (.sdiv f, 0x14, f.ty.is64, int fun a b => if b = 0 then (if f.ty.isSigned ∧ 0 ≤ a then 1 else -1) else Int.tdiv a b),
      (.srem f, 0x15, f.ty.is64, int fun a b => a - b * Int.tdiv a b),
      (.smin f, 0x16, f.ty.is64, int fun a b => Min.min a b), (.smax f, 0x17, f.ty.is64, int fun a b => Max.max a b),
      (.slea f, 0x18, true, fun a b => leaSum f.ty a b f.imm.toNat),
      (.sand f, 0x20, f.ty.is64, fun a b => a &&& b), (.sor f, 0x21, f.ty.is64, fun a b => a ||| b),
      (.sxor f, 0x22, f.ty.is64, fun a b => a ^^^ b), (.snot f, 0x23, f.ty.is64, fun a _ => 2 ^ w - 1 - a),
      (.sshl f, 0x24, f.ty.is64, fun a b => shlBits w a b), (.sshr f, 0x25, f.ty.is64, fun a b => shrBits w f.ty.isSigned a b),
      (.sbfx f, 0x26, f.ty.is64, fun a _ => bfxBits f.ty.isSigned a (f.imm.toNat % 32) (f.imm.toNat / 32)),
      (.spopc f, 0x27, f.ty.is64, fun a _ => popBits w a), (.sclz f, 0x28, f.ty.is64, fun a _ => clzBits w a),
      (.sctz f, 0x29, f.ty.is64, fun a _ => ctzBits w a),
      (.scmp f, 0x30, false, fun a b => if intRel f.cond.toNat (intVal f.ty a) (intVal f.ty b) then 1 else 0)] :
        List (Instr × Nat × Bool × (Nat → Nat → Nat))) →
    s.Ready p.1 g → exec p.1 s = .next (s.sWritten g p.2.1 f p.2.2.1 p.2.2.2)

/-! ## Group operations -/

/-- R173 to R175: the group operations complete; each active lane pushes a function of the active lanes' values, a missing lane
standing for the operation's identity; BALLOT writes a scalar and pushes nothing. -/
def Obligations.GroupOperationsComplete : Prop :=
  ∀ (s : State) (g : Group) (f : GFields),
    (s.Ready (.ballot f) g → exec (.ballot f) s =
      .next (s.finish (g.setScalar f.sdst.toNat (BitVec.ofNat 32 (maskWhere (s.gAll 0x00 f g) fun x => x != 0))))) ∧
    (∀ p : Instr × (Fin 32 → Lane → List Word),
      let v := fun (op n : Nat) (own : Fin 32) => ((s.gLane op f g n).getD (s.gSrc op f g own))
      p ∈ ([(.vany f, fun _ _ => truth ((s.gAll 0x01 f g).any fun v => v.getD 0 != 0)),
        (.vall f, fun _ _ => truth ((s.gAll 0x02 f g).all fun v => v.getD 1 != 0)),
        (.shfl f, fun n l => wordsOf f.ty.is64 (v 0x03 (s.gArg f g l % 32) n)),
        (.shflx f, fun n l => wordsOf f.ty.is64 (v 0x04 (n.val ^^^ (s.gArg f g l % 32)) n)),
        (.shflup f, fun n l => wordsOf f.ty.is64 (if s.gArg f g l ≤ n.val then v 0x05 (n.val - s.gArg f g l) n else s.gSrc 0x05 f g n)),
        (.shfldn f, fun n l => wordsOf f.ty.is64 (if n.val + s.gArg f g l < 32 then v 0x06 (n.val + s.gArg f g l) n else s.gSrc 0x06 f g n)),
        (.bcast f, fun n _ => wordsOf f.ty.is64 (v 0x07 (f.imm.toNat % 32) n)),
        (.redadd f, fun _ _ => wordsOf false (sumLanes f.ty (s.gAll 0x08 f g) 32)),
        (.redmin f, fun _ _ => wordsOf false (extremeOf f.ty false (s.gAll 0x09 f g))),
        (.redmax f, fun _ _ => wordsOf false (extremeOf f.ty true (s.gAll 0x0A f g))),
        (.scanadd f, fun n _ => wordsOf false (sumLanes f.ty (s.gAll 0x0B f g) (if f.imm.toNat % 2 = 1 then n.val else n.val + 1))),
        (.matchLanes f, fun n _ => wordsOf false (maskWhere (s.gAll 0x0C f g) fun x => x == s.gSrc 0x0C f g n)),
        (.rank f, fun n _ => wordsOf false (((s.gAll 0x0D f g).take n.val).countP fun v => v.getD 0 != 0))] :
          List (Instr × (Fin 32 → Lane → List Word))) →
      s.Ready p.1 g → exec p.1 s = .next (s.pushed g p.2))

/-- R98, R110, R174: a mask has the bit of each lane whose value satisfies the predicate; an integer sum over lanes is the sum
modulo 2^32, a missing lane adding 0; the least and greatest are of the lanes' values. An f32 sum starts at -0 and adds the lanes in ascending
order, each addition rounded, a missing lane leaving it as it is; the least and greatest f32 are numbers of the lanes, -0 below +0, with none
below or above them, and the canonical NaN where no lane has a number.
R97, R111, R208: what an atomic writes over the old value; AFADD the f32 sum rounded once to nearest even. -/
def Obligations.ReductionAndAtomicValues : Prop :=
  (∀ (vs : List (Option Nat)), vs.length = 32 → (∀ v ∈ vs, ∀ x, v = some x → x < 2 ^ 32) →
      (∀ (p : Nat → Bool) (j : Nat), j < 32 → (maskWhere vs p).testBit j = (vs.getD j none).any p) ∧
      (∀ (t : Ty) (n : Nat), t ≠ .f32 → sumLanes t vs n = ((vs.take n).map fun v => v.getD 0).sum % 2 ^ 32) ∧
      (∀ (t : Ty) (x : Nat), t = .i32 ∨ t = .n32 → some x ∈ vs → intVal t (extremeOf t false vs) ≤ intVal t x ∧
        intVal t x ≤ intVal t (extremeOf t true vs) ∧ some (extremeOf t false vs) ∈ vs ∧ some (extremeOf t true vs) ∈ vs) ∧
      (let num := fun (x : Nat) => FFmt.f32.decode x
       let least := extremeOf .f32 false vs
       let most := extremeOf .f32 true vs
       sumLanes .f32 vs 0 = 0x80000000 ∧
       (∀ n < 32, sumLanes .f32 vs (n + 1) = match vs.getD n none with
         | none => sumLanes .f32 vs n
         | some x => FFmt.f32.encode .rne false (sumExact .rne [num (sumLanes .f32 vs n), num x])) ∧
       (∀ x, some x ∈ vs → (num x).isNan = false → some least ∈ vs ∧ (num least).isNan = false ∧ (num x).lt (num least) = false ∧
         some most ∈ vs ∧ (num most).isNan = false ∧ (num most).lt (num x) = false) ∧
       (some 0x80000000 ∈ vs → least ≠ 0) ∧ (some 0 ∈ vs → most ≠ 0x80000000) ∧
       ((∀ x, some x ∈ vs → (num x).isNan = true) → least = 0x7FC00000 ∧ most = 0x7FC00000))) ∧
  (∀ (old d cmp w : Nat), old < 2 ^ w → d < 2 ^ w →
      let s := fun (x : Nat) => (BitVec.ofNat w x).toInt
      AtomOp.value .add false w old d cmp = some (BitVec.ofNat w old + BitVec.ofNat w d).toNat ∧
      AtomOp.value .min false w old d cmp = some (Min.min old d) ∧ AtomOp.value .max false w old d cmp = some (Max.max old d) ∧
      (∃ v, AtomOp.value .min true w old d cmp = some v ∧ v < 2 ^ w ∧ s v = Min.min (s old) (s d)) ∧
      (∃ v, AtomOp.value .max true w old d cmp = some v ∧ v < 2 ^ w ∧ s v = Max.max (s old) (s d)) ∧
      (∀ signed, AtomOp.value .fadd signed w old d cmp =
        some (FFmt.f32.encode .rne false (sumExact .rne [FFmt.f32.decode old, FFmt.f32.decode d]))) ∧
      AtomOp.value .and false w old d cmp = some (old &&& d) ∧ AtomOp.value .or false w old d cmp = some (old ||| d) ∧
      AtomOp.value .xor false w old d cmp = some (old ^^^ d) ∧ AtomOp.value .xchg false w old d cmp = some d ∧
      AtomOp.value .cas false w old d cmp = (if old = cmp then some d else none) ∧
      (d ≤ old → AtomOp.value .inc false w old d cmp = some 0) ∧ (old < d → AtomOp.value .inc false w old d cmp = some (old + 1)))

/-! ## Control flow -/

/-- R155, R157 to R159: a branch whose targets have their start bits set completes. A uniform one takes the whole split to its target, PC plus four
times the signed offset, or on to the next instruction; BRDEC lowers its scalar either way. A per-lane one, with a free divergence entry,
forks the split by the condition words of its lanes. -/
def Obligations.BranchesComplete : Prop :=
  (∀ (s : State) (g : Group) (r : BitVec 7) (off : Word),
      let t := s.iss.pc + off.signExtend 64 * 4
      s.targetFault g t = none →
      (s.Ready (.br off) g → exec (.br off) s = .next (s.jump g t)) ∧
      (s.Ready (.brsz r off) g → exec (.brsz r off) s = .next (if g.scalar r.toNat = 0 then s.jump g t else s.finish g)) ∧
      (s.Ready (.brsnz r off) g → exec (.brsnz r off) s = .next (if g.scalar r.toNat = 0 then s.finish g else s.jump g t)) ∧
      (s.Ready (.brdec r off) g → exec (.brdec r off) s = .next
        (let h := g.setScalar r.toNat (g.scalar r.toNat - 1)
         if g.scalar r.toNat = 1 then s.finish h else s.jump h t))) ∧
  (∀ (s : State) (g : Group) (c : Operand) (junc : BitVec 22) (target : BitVec 20),
      let t := s.iss.pc + target.signExtend 64 * 4
      let j := s.iss.pc + junc.signExtend 64 * 4
      let lanes := fun (p : Nat → Bool) => g.lanesWhere s.iss.mask fun l => p ((s.env g l []).raw .b32 c.src)
      s.targetFault g t = none → s.targetFault g j = none → g.divDepth < g.hdr.divDepth →
      (s.Ready (.brz c junc target) g → exec (.brz c junc target) s = .next (s.fork g g.divDepth t j (lanes (· == 0)))) ∧
      (s.Ready (.brnz c junc target) g → exec (.brnz c junc target) s = .next (s.fork g g.divDepth t j (lanes (· != 0)))))

/-- R159: what a fork makes of the group: an entry with the junction, the split's lanes, the NET of its lowest active lane, the level of its
lowest slice and, where lanes are deferred, the target, else 0; a slice all of whose active lanes take stands at the target, any other
after the branch with the lanes that do not take; where some of a slice's lanes take, those are deferred in the entry. Every active
lane's NET restarts at 0, every slice of the split names the entry, and nothing else of the group but its instruction count changes: no
other entry, trap, held fault, wait or log entry. -/
def Obligations.ForkSplitsTheLanes : Prop :=
  ∀ (s : State) (g : Group) (e : Nat) (t j : DWord) (take : BitVec 32), take &&& g.activeMask s.iss.mask = take →
    ∃ (h : Group) (d : DivEntry), (s.fork g e t j take).group? s.iss.core s.iss.frame = some h ∧ Sparse.get? h.div e = some d ∧
      d.jpc = j ∧ d.pmask = g.activeMask s.iss.mask ∧ d.amask = 0 ∧ d.dpc = (if d.dmask = 0 then 0 else t) ∧
      (∀ l : Fin 32, g.on s.iss.mask l = true → (∀ m : Fin 32, m < l → g.on s.iss.mask m = false) → d.onet = g.lanes[l].net) ∧
      (∀ i : Fin 8, s.iss.mask.getLsbD i.val = true → (∀ m : Fin 8, m < i → s.iss.mask.getLsbD m.val = false) →
        d.depth = g.slices[i].depth) ∧
      (∀ l : Fin 32, h.lanes[l] = if g.on s.iss.mask l then { g.lanes[l] with net := 0 } else g.lanes[l]) ∧
      (∀ i : Fin 8, s.iss.mask.getLsbD i.val = false → h.slices[i] = g.slices[i] ∧ laneNibble d.dmask i = 0) ∧
      (∀ i : Fin 8, s.iss.mask.getLsbD i.val = true → h.slices[i].dvtop = BitVec.ofNat 6 e ∧
        (if laneNibble take i = laneNibble (g.activeMask s.iss.mask) i then
          h.slices[i].pc = t ∧ h.slices[i].iidx = 0 ∧ h.slices[i].active = g.slices[i].active ∧ laneNibble d.dmask i = 0
        else
          h.slices[i].pc = s.iss.nextPc ∧ h.slices[i].iidx = s.iss.nextIdx ∧
          h.slices[i].active = laneNibble (g.activeMask s.iss.mask) i &&& ~~~laneNibble take i ∧
          laneNibble d.dmask i = laneNibble take i)) ∧
      (∀ x, x ≠ e → Sparse.get? h.div x = Sparse.get? g.div x) ∧
      h = { g with lanes := h.lanes, slices := h.slices, div := h.div, seq := g.seq + 1 }

/-- R163, R164: a JOIN at an open entry whose D is the NET of every active lane completes: each active lane goes back to its fork-time trail with
the selected values pushed, NET counting them over the saved NET; the lanes arrive at the junction, deferred lanes start, and entries whose
lanes have all arrived fuse. An entry fuses when every lane that forked has arrived or exited: the arrived lanes stand active at its
JPC and DEPTH under its parent (that a slice whose other lanes have exited in a callee comes back to that DEPTH is the model's reading,
log entry 26), and it is closed; before that nothing changes. Lanes that arrive with unequal NETs leave a JOINMIS
to raise at JPC on the slices of AMASK; that it is taken at the header there is the model's reading (log entry 41). -/
def Obligations.JoinAndFusionReuniteTheLanes : Prop :=
  (∀ (s : State) (g : Group) (f : JoinFields) (d : DivEntry),
      let mask := s.iss.mask
      let top := (g.slices.toList.getD (lowSlice mask) default).dvtop.toNat
      let joined := (g.mapLanes mask fun _ l => l.join (joinSels f) d.onet).mapSlices mask fun _ sl => { sl with pc := d.jpc, iidx := 0, active := 0 }
      let arrived : Group := { joined with div := Sparse.put g.div top { d with amask := d.amask ||| g.activeMask mask } }
      s.group? s.iss.core s.iss.frame = some g → s.checks g (.join f) = none → Sparse.get? g.div top = some d →
      (∀ l ∈ g.activeLanes mask, g.lanes[l].net = f.d) →
      (g.joinBlocked mask (joinSels f) = [] → g.poisonRead mask (joinSels f) = none →
        exec (.join f) s = .next (s.setGroup s.iss.core s.iss.frame { (arrived.startDeferred mask top).fuseAll with seq := g.seq + 1 }) ∧
        (∀ l : Fin 32, arrived.lanes[l] = if g.on mask l then
          { (((joinSels f).map g.lanes[l].age).foldl Lane.push { g.lanes[l] with head := g.lanes[l].head - g.lanes[l].net.setWidth 5 })
            with net := d.onet + BitVec.ofNat 8 (joinSels f).length } else g.lanes[l])) ∧
      (g.joinBlocked mask (joinSels f) ≠ [] → g.log = [] → exec (.join f) s = .next s)) ∧
  (∀ (g : Group) (e : Nat) (d : DivEntry), Sparse.get? g.div e = some d →
      (d.pmask &&& ~~~(d.amask ||| g.exitedMask) ≠ 0 → g.fuse e = g) ∧
      (d.pmask &&& ~~~(d.amask ||| g.exitedMask) = 0 →
        Sparse.get? (g.fuse e).div e = none ∧ (g.fuse e).lanes = g.lanes ∧ (g.fuse e).scalars = g.scalars ∧
        (∀ i : Fin 8, laneNibble d.amask i = 0 → (g.fuse e).slices[i] = g.slices[i]) ∧
        (∀ i : Fin 8, laneNibble d.amask i ≠ 0 →
          let x := (g.fuse e).slices[i]
          x = { g.slices[i] with active := laneNibble d.amask i, dvtop := g.parent e d, pc := d.jpc, iidx := 0, depth := d.depth,
                                 handler := x.handler, skip := x.skip } ∧
          (g.slices[i].depth = d.depth → x.handler = g.slices[i].handler ∧ x.skip = g.slices[i].skip)) ∧
        ((∀ l m : Fin 32, d.amask.getLsbD l.val = true → d.amask.getLsbD m.val = true → g.lanes[l].net = g.lanes[m].net) →
          (g.fuse e).async = g.async) ∧
        ((∃ l m : Fin 32, d.amask.getLsbD l.val = true ∧ d.amask.getLsbD m.val = true ∧ g.lanes[l].net ≠ g.lanes[m].net) →
          ∃ x : BitVec 8, (g.fuse e).async = g.async ++ [⟨.joinMis, d.jpc, x⟩] ∧
            ∀ i : Fin 8, x.getLsbD i.val = decide (laneNibble d.amask i ≠ 0))))

/-- R33, R34, R167 to R169: a call whose targets have their start bits set, in a group below its call depth, with no entry of its
active lanes pending or poisoned, completes: records of the callers are kept, those of an earlier call in the shadow going to memory first,
and the split enters the callee, for CALLI the slices by the function that the table gives each. -/
def Obligations.CallsComplete : Prop :=
  ∀ (s s1 : State) (g g1 : Group) (n : BitVec 4),
    g.callFull s.iss.mask = false → g.allPending s.iss.mask = [] → g.poisonRead s.iss.mask (List.range n.toNat) = none →
    s.spill s.iss.core g = .ok (s1, g1) →
    (g.sliceRecs = [] → s1 = s ∧ g1 = g) ∧
    (∀ off : Word, s.Ready (.call n off) g → s.targetFault g (s.iss.pc + off.signExtend 64 * 4) = none →
      exec (.call n off) s = .next (s1.setGroup s.iss.core s.iss.frame
        { s.callOut g1 s.iss.mask n.toNat (s.iss.pc + off.signExtend 64 * 4) with seq := g.seq + 1 })) ∧
    (∀ (idx : Operand) (sig : Word) (i : Nat) (a : DWord), s.Ready (.calli n idx sig) g → slicesOf s.iss.mask ≠ [] →
      (∀ j ∈ slicesOf s.iss.mask, s.sliceIndex g idx j = some (i, true)) → s.callee g sig i = .ok a →
      exec (.calli n idx sig) s = .next (s1.setGroup s.iss.core s.iss.frame
        { s.callOut g1 s.iss.mask n.toNat a with seq := g.seq + 1 })) ∧
    (∀ (idx : Operand) (sig : Word), s.Ready (.calli n idx sig) g →
      (∀ j ∈ slicesOf s.iss.mask, ∀ p, s.sliceIndex g idx j = some p → p.2 = true ∧ ∃ a, s.callee g sig p.1 = .ok a) →
      ∃ h : Group, exec (.calli n idx sig) s = .next (s1.setGroup s.iss.core s.iss.frame { h with seq := g.seq + 1 }) ∧
        ∀ j ∈ slicesOf s.iss.mask, ∀ p a, s.sliceIndex g idx j = some p → s.callee g sig p.1 = .ok a →
          h.slices[j].pc = a ∧ h.slices[j].iidx = 0 ∧ h.slices[j].depth = g.slices[j].depth + 1 ∧ h.slices[j].dvtop = 63)

/-- R32, R33, R170: what a call does to a group, and its undoing. Each active lane's trail, HEAD, NET and pending entries go into its record and it
starts cleared with its arguments pushed; each slice's return address, active lanes, DVTOP and divergence depth go into its record and it
stands at the target one level down with DVTOP none; pantry slots, scalars and flags stay. Lanes that return at once find what they
called with, and the values they return on top. -/
def Obligations.CallRecordsRestoreTheCaller : Prop :=
  (∀ (g : Group) (mask : BitVec 8) (n : Nat) (args : Fin 32 → Lane → List Word) (ret : Fin 8 → DWord × Nat) (t : DWord),
      let h := g.callInto mask n args ret none t
      (∀ l : Fin 32, g.on mask l = true →
        Sparse.get? h.laneRecs (laneKey (g.slices[sliceOfLane l].depth + 1) l.val) =
          some ⟨g.lanes[l].trail, g.lanes[l].head, g.lanes[l].net, g.lanes[l].pend, g.lanes[l].poison⟩ ∧
        h.lanes[l] = (args l g.lanes[l]).foldl Lane.push
          { g.lanes[l] with trail := Vector.replicate 32 0, head := 0, net := 0, pend := [], poison := [] }) ∧
      (∀ l : Fin 32, g.on mask l = false → h.lanes[l] = g.lanes[l]) ∧
      (∀ i : Fin 8, mask.getLsbD i.val = true →
        Sparse.get? h.sliceRecs (sliceKey (g.slices[i].depth + 1) i.val) =
          some ⟨(ret i).1, g.slices[i].active, BitVec.ofNat 4 n, g.divDepth, g.slices[i].dvtop, (ret i).2, false⟩ ∧
        h.slices[i].pc = t ∧ h.slices[i].iidx = 0 ∧ h.slices[i].depth = g.slices[i].depth + 1 ∧ h.slices[i].dvtop = 63 ∧
        h.slices[i].active = g.slices[i].active ∧ h.slices[i].exited = g.slices[i].exited) ∧
      (∀ i : Fin 8, mask.getLsbD i.val = false → h.slices[i] = g.slices[i]) ∧
      h.scalars = g.scalars ∧ h.flags = g.flags ∧ h.div = g.div) ∧
  (∀ (g : Group) (mask : BitVec 8) (n : Nat) (args : Fin 32 → Lane → List Word) (ret : Fin 8 → DWord × Nat) (t : DWord)
      (vals : Lane → List Word) (l : Fin 32),
      let h := g.callInto mask n args ret none t
      (h.restoreLanes mask vals).lanes[l] = if g.on mask l then g.lanes[l].emits (vals h.lanes[l]) else g.lanes[l])

/-- R170: a RET of slices that stand in a call with no divergence entry open, whose lanes have no entry pending and no returned value
poisoned, whose call records can be read (those of the last call stand in the shadow) and whose return addresses have their start bits
set, completes: the lanes are restored with the returned values pushed, and each slice goes on at its recorded address, one level up. Records
that memory holds leave their pages' translations in the TLBs (R374), and nothing else. -/
def Obligations.ReturnCompletes : Prop :=
  ∀ (s : State) (g h : Group) (n : BitVec 4),
    let mask := s.iss.mask
    ((∀ l ∈ g.activeLanes mask, (Sparse.get? g.laneRecs (laneKey g.slices[sliceOfLane l].depth l.val)).isSome) →
      (∀ i ∈ slicesOf mask, (Sparse.get? g.sliceRecs (sliceKey g.slices[i].depth i.val)).isSome) →
      s.fetchRecs s.iss.core g mask s.iss.pc = .ok g ∧ s.noteRecs g = s) ∧
    ((s.noteRecs g).mem = s.mem ∧ (s.noteRecs g).reqs = s.reqs ∧ (s.noteRecs g).lines = s.lines ∧
      ∀ k fr, (s.noteRecs g).group? k fr = s.group? k fr) ∧
    (s.group? s.iss.core s.iss.frame = some g → s.checks g (.ret n) = none → (∀ i ∈ slicesOf mask, g.slices[i].depth ≠ 0 ∧ g.slices[i].dvtop = 63) →
      g.allPending mask = [] → s.fetchRecs s.iss.core g mask s.iss.pc = .ok h →
      (∀ i ∈ slicesOf mask, s.targetFault h (h.sliceRec i).retPc = none) → g.poisonRead mask (List.range n.toNat) = none →
      ∃ x : Group, exec (.ret n) s = .next ((s.noteRecs g).setGroup s.iss.core s.iss.frame { x with seq := g.seq + 1 }) ∧
        x.lanes = (h.restoreLanes mask fun l => (List.range n.toNat).reverse.map l.age).lanes ∧
        (∀ i : Fin 8, x.slices[i] = if mask.getLsbD i.val then
          { g.slices[i] with pc := (h.sliceRec i).retPc, iidx := 0, depth := g.slices[i].depth - 1, dvtop := (h.sliceRec i).dvtop,
                             active := (h.sliceRec i).active &&& ~~~g.slices[i].exited } else g.slices[i]) ∧
        x.scalars = g.scalars ∧ x.flags = g.flags ∧ x.div = g.div)

/-- R171, R172, R193: NOP changes nothing but the split's place, YIELD also marks the split's slices, EXIT ends the split's active
lanes, after which a slice left without one starts its deferred lanes of the innermost entry that has some (from which entry is the
model's choice, log entry 26) and entries that wait for no other lane fuse; BRK and TRAP raise their fault
with the immediate as address. -/
def Obligations.ExitYieldNopBrkTrapComplete : Prop :=
  ∀ (s : State) (g : Group) (imm : BitVec 16),
    (s.Ready .nop g → exec .nop s = .next (s.finish g)) ∧
    (s.Ready .yieldGang g → exec .yieldGang s =
      .next (s.finish (g.mapSlices s.iss.mask fun _ sl => { sl with yielded := true }))) ∧
    (s.Ready .exit g → exec .exit s = .next (s.setGroup s.iss.core s.iss.frame
      (let h := g.mapSlices s.iss.mask fun _ sl =>
          { sl with exited := sl.exited ||| sl.active, active := 0, pc := s.iss.nextPc, iidx := s.iss.nextIdx }
       { (h.afterExit s.iss.mask).fuseAll with seq := g.seq + 1 })) ∧
      ∀ (j : Fin 8) (e : Nat) (d : DivEntry) (h : Group), h = g.mapSlices s.iss.mask (fun _ sl =>
          { sl with exited := sl.exited ||| sl.active, active := 0, pc := s.iss.nextPc, iidx := s.iss.nextIdx }) →
        s.iss.mask = BitVec.ofNat 8 (2 ^ j.val) → h.deferredIn j = some (e, d) →
        let x := h.afterExit s.iss.mask
        x.slices[j].active = laneNibble d.dmask j ∧ x.slices[j].pc = d.dpc ∧ x.slices[j].iidx = 0 ∧ x.slices[j].depth = d.depth ∧
          x.slices[j].dvtop = BitVec.ofNat 6 e ∧ ∀ i : Fin 8, i ≠ j → x.slices[i] = h.slices[i]) ∧
    (s.Ready (.brk imm) g → exec (.brk imm) s = .next (s.raise s.iss.core s.iss.frame s.iss.mask
      ⟨.brk, .P, imm.setWidth 64, s.iss.pc, lowSlice s.iss.mask, s.iss.idx, none⟩)) ∧
    (s.Ready (.trap imm) g → exec (.trap imm) s = .next (s.raise s.iss.core s.iss.frame s.iss.mask
      ⟨.trap, .P, imm.setWidth 64, s.iss.pc, lowSlice s.iss.mask, s.iss.idx, none⟩))

/-- R269: an ERET of slices in handler mode over trap records, with nothing open or pending, completes: lanes and slices go back to
where the fault left them, out of handler mode; a fault of kind P whose handler set SKIP goes on at the next instruction, else at
the same. A skip of a kind H fault stops the group; a kind L fault retried replays its logged loads, and skipped it fills the entries that
wait for the reported one with zeros and frees its log entry. The fault of a trap record is the model's to keep, for R32's record has no
field for its kind: Sundoc's account brings it back after a restore (log entry 43). -/
def Obligations.HandlerReturnCompletes : Prop :=
  ∀ (s : State) (g h : Group),
    let mask := s.iss.mask
    let t := s.noteRecs g
    s.group? s.iss.core s.iss.frame = some g → s.checks g .eret = none →
    (∀ i ∈ slicesOf mask, g.slices[i].handler = true ∧ g.slices[i].dvtop = 63) →
    s.fetchRecs s.iss.core g mask s.iss.pc = .ok h →
    (∀ i ∈ slicesOf mask, (h.sliceRec i).trapRec = true ∧ s.targetFault h (h.sliceRec i).retPc = none) →
    g.allPending mask = [] →
    ∃ x : Group,
      (∀ i : Fin 8, x.slices[i] = if mask.getLsbD i.val then
        { g.slices[i] with pc := (h.sliceRec i).retPc, iidx := resumeIdx (g.trapOf i) g.slices[i].skip (h.sliceRec i).ridx,
                           depth := g.slices[i].depth - 1, dvtop := (h.sliceRec i).dvtop,
                           active := (h.sliceRec i).active &&& ~~~g.slices[i].exited, handler := false, skip := false }
        else g.slices[i]) ∧
      x.lanes = (h.restoreLanes mask fun _ => []).lanes ∧ x.seq = g.seq + 1 ∧ x.scalars = g.scalars ∧ x.flags = g.flags ∧
      ((∀ i ∈ slicesOf mask, ∀ r, g.trapOf i = some r → r.kind = .P ∨ r.kind = .A ∨ r.kind = .H ∧ g.slices[i].skip = false) →
        exec .eret s = .next (t.setGroup s.iss.core s.iss.frame x)) ∧
      (∀ i r, slicesOf mask = [i] → g.trapOf i = some r → r.kind = .H → g.slices[i].skip = true →
        exec .eret s = .next ((t.setGroup s.iss.core s.iss.frame x).stopFaulted s.iss.core s.iss.frame x r false false)) ∧
      (∀ i r, slicesOf mask = [i] → g.trapOf i = some r → r.kind = .L → g.slices[i].skip = false →
        exec .eret s = .next ((t.setGroup s.iss.core s.iss.frame x).askReplay s.iss.core s.iss.frame)) ∧
      (∀ i r o, slicesOf mask = [i] → g.trapOf i = some r → r.kind = .L → r.cause ≠ .poison → r.op = some o → g.slices[i].skip = true →
        (∃ e ∈ g.log, e.op = o) →
        let mine := fun (q : Req) => q.op == o && q.stage == .logged
        ∃ t' y, exec .eret s = .next t' ∧ t'.group? s.iss.core s.iss.frame = some y ∧ y.slices = x.slices ∧ y.scalars = g.scalars ∧
          y.log = (g.log.filter fun e => e.op != o) ∧ t'.reqs = (s.reqs.filter fun q => !mine q) ∧
          ∀ l : Fin 32, y.lanes[l] = (s.reqs.filter fun q => mine q && q.lane == l.val).foldl
            (fun n q => n.fill q.id q.entries (List.replicate q.entries.length 0)) x.lanes[l])

/-! ## System registers -/

/-- R132, R198, R199, R268, R278, R361, R375: SREAD completes with the register's value in DST, and each writable register reads
back, on its core, what a SWRITE, a LEASE_WRITE or a DIESEL_WRITE wrote, within the bits it has: LEASE.TICKS clamped into 8 to 4,096
for the group's context, DIESEL modulo 16, DBGCTL, WADDR, WCTL, TRESUME, SDVA, and SDCTL, which starts a shoot-down and waits. -/
def Obligations.SystemRegistersComplete : Prop :=
  ∀ (s : State) (g : Group) (f : SFields),
    let k := s.iss.core
    let v := s.writtenValue f g
    let idx := f.imm.toNat
    (s.Ready (.sread f) g → exec (.sread f) s = .next (s.finish (g.setDst f.dst f.ty.is64 (s.sysRead g idx)))) ∧
    (s.Ready (.leaseWrite f) g → ∃ t h, exec (.leaseWrite f) s = .next t ∧ t.group? k s.iss.frame = some h ∧
      t.sysRead h 0x00A = Nat.max 8 (Nat.min 4096 (v.toNat % 2 ^ 13)) ∧ h.lanes = g.lanes ∧ h.scalars = g.scalars ∧ t.mem = s.mem) ∧
    (s.Ready (.dieselWrite f) g → ∃ t h, exec (.dieselWrite f) s = .next t ∧ t.group? k s.iss.frame = some h ∧
      t.sysRead h 0x105 = v.toNat % 16 ∧ h.lanes = g.lanes ∧ h.scalars = g.scalars ∧ t.mem = s.mem) ∧
    (s.Ready (.swrite f) g → (idx = 0x220 → ∀ i ∈ slicesOf s.iss.mask, g.slices[i].handler = true) →
      ∃ t h, exec (.swrite f) s = .next t ∧ t.group? k s.iss.frame = some h ∧ h.lanes = g.lanes ∧ h.scalars = g.scalars ∧ t.mem = s.mem ∧
        (idx = 0x200 → t.sysRead h idx = (v.lo &&& 0x003F1F0F).toNat) ∧
        (idx ∈ [0x210, 0x212, 0x214, 0x216] → t.sysRead h idx = v.toNat) ∧
        (idx ∈ [0x218, 0x219, 0x21A, 0x21B] → t.sysRead h idx = (v.lo &&& 0xFFFF1F03).toNat) ∧
        (idx = 0x220 → ∀ i ∈ slicesOf s.iss.mask, h.slices[i].skip = v.getLsbD 0) ∧
        (idx = 0x240 → t.sysRead h idx = v.toNat / 2 ^ 16 * 2 ^ 16) ∧
        (idx = 0x242 → t.sysRead h idx = 2 ^ 31 + (v.lo &&& 0x0007FFFF).toNat ∧
          ∃ x, t.shoots = s.shoots ++ [x] ∧ x.src = .core k ∧ x.va = (s.core k).sdva))

/-! ## Checks, waits and faults -/

/-- R10, R17, R76, R210, R262: before its effect. An instruction of code that fails a check takes the fault of the first one it fails, in the
order format, unit, privilege, at its own address, with nothing of its effect: UNITABSENT where the form is well formed and allowed and its
unit is absent, PROT only where the unit is present. One that reads an entry whose load is on its way, with no load
logged, changes nothing and is tried again; of a poisoned entry it takes POISON at the load. -/
def Obligations.GateOfAnInstruction : Prop :=
  (∀ (s : State) (g : Group) (i : Instr) (c : Cause), i.form ≠ .event →
      s.group? s.iss.core s.iss.frame = some g → s.checks g i = some c →
      exec i s = .next (s.raise s.iss.core s.iss.frame s.iss.mask ⟨c, .P, 0, s.iss.pc, lowSlice s.iss.mask, s.iss.idx, none⟩) ∧
      (c = .illop ↔ i.wf = false ∨ g.hdr.allows i.form = false) ∧
      (c = .fmtFault ↔ i.wf = true ∧ g.hdr.allows i.form = true ∧ formFmtLegal i.form = false) ∧
      (c = .unitAbsent ↔ i.wf = true ∧ g.hdr.allows i.form = true ∧ formFmtLegal i.form = true ∧ s.unitAbsent i.form = true) ∧
      (c = .prot ↔ i.wf = true ∧ g.hdr.allows i.form = true ∧ formFmtLegal i.form = true ∧ s.unitAbsent i.form = false ∧
        g.priv = false ∧ formPrivileged i.form = true)) ∧
  (∀ (s : State) (g : Group) (i : Instr), i.form ≠ .event →
      s.group? s.iss.core s.iss.frame = some g → s.checks g i = none →
      let held := fun (i : Instr) =>
        (g.blockedBy s.iss.mask (formAges i.form) (formPushes i.form) ≠ [] → g.log = [] → exec i s = .next s) ∧
        (g.blockedBy s.iss.mask (formAges i.form) (formPushes i.form) = [] →
          ∀ p, g.poisonRead s.iss.mask (formAges i.form) = some p → exec i s = .next (s.faultPoison p))
      ((∀ f, i ≠ .join f) → (∀ c j t, i ≠ .brz c j t ∧ i ≠ .brnz c j t) → held i) ∧
      (∀ c j t, i = .brz c j t ∨ i = .brnz c j t → g.divDepth < g.hdr.divDepth → s.targetFault g (s.iss.pc + t.signExtend 64 * 4) = none →
        s.targetFault g (s.iss.pc + j.signExtend 64 * 4) = none → held i))

/-- R261, R264 to R267: a fault raised on a running group that waits at no instruction and that no debugger is attached to. PAGE, and PROT on a
page under migration, wait for the fault service. Of any other, a group with a faulting slice in handler mode, as under trap mode 1, stops
with NESTED. Else it stops with the fault's record under trap modes 0 and 2, and Sundoc is told; under trap mode 2 its launch is stopped,
and every other group of the launch that runs stops without a record. -/
def Obligations.FaultsStopTheGroup : Prop :=
  ∀ (s : State) (k n : Nat) (mask : BitVec 8) (g : Group) (r : FaultRec),
    s.group? k n = some g → g.status = .running → g.waits = [] → s.attached k g = false →
    (r.cause = .page ∨ (r.cause = .prot ∧ s.migrating k g.ctx r.addr = true) → ∃ t, s.raise k n mask r = t ∧ t.group? k n = some { g with status := .service, fault := some r, drainFault := false } ∧
      t.reports = s.reports ++ [.service g.launch g.cluster g.index r] ∧ t.mem = s.mem) ∧
    (r.cause ≠ .page → (r.cause = .prot → s.migrating k g.ctx r.addr = false) → r.cause ≠ .ecc →
      (g.hdr.trapMode = 0 → (∀ i ∈ slicesOf mask, g.slices[i].handler = false) →
        s.raise k n mask r = (s.setGroup k n { g with status := .faulted false false, fault := some r, drainFault := false }).tell
          (.groupFault g.launch g.cluster g.index r)) ∧
      ((∃ i ∈ slicesOf mask, g.slices[i].handler = true) →
        s.raise k n mask r = (s.setGroup k n { g with status := .faulted true false, fault := some r, drainFault := false }).tell
          (.groupFault g.launch g.cluster g.index r)) ∧
      (g.hdr.trapMode = 2 → (∀ i ∈ slicesOf mask, g.slices[i].handler = false) →
        let t := s.raise k n mask r
        t.group? k n = some { g with status := .faulted false false, fault := some r, drainFault := false } ∧
        t.reports = s.reports ++ [.groupFault g.launch g.cluster g.index r] ∧
        t.launches = (s.launches.map fun l => if l.id = g.launch then { l with stopped := true } else l) ∧ t.mem = s.mem ∧
        ∀ (j m : Nat) (h : Group), s.group? j m = some h → (j, m) ≠ (k, n) → h.launch = g.launch → h.status = .running → h.waits = [] →
          (Sparse.get? s.cores j).isSome →
          t.group? j m = some { h with status := .gridStop, fault := none, drainFault := false }))

/-- R34, R265, R266: under trap mode 1 a fault with no entry of its lanes pending, whose handler has a valid table entry with its start bit
set, enters the handler: call records in the shadow go to memory, the lanes start anew with cause, fault address and faulting PC pushed, the
slices stand at the handler one level down in handler mode, and the record keeps where they resume. The entry's reads leave their
translations in the TLBs (R374). -/
def Obligations.HandlerEntered : Prop :=
  ∀ (s : State) (k n : Nat) (mask : BitVec 8) (g : Group) (r : FaultRec) (e : FEntry) (s1 : State) (g1 : Group),
    s.group? k n = some g → g.status = .running → s.attached k g = false → r.cause ≠ .page →
    (r.cause = .prot → s.migrating k g.ctx r.addr = false) → r.cause ≠ .ecc →
    g.hdr.trapMode = 1 → (∀ i ∈ slicesOf mask, g.slices[i].handler = false ∧ g.slices[i].depth < g.hdr.callDepth) →
    s.pendingData g mask = false → g.hdr.handler < s.ftLen g.ctx → s.ftEntry k g.ctx g.priv g.hdr.handler = .ok e → e.valid = true →
    s.startBit k g.ctx g.priv e.addr = .ok true →
    let t := s.noteEntry k g.ctx g.priv g.hdr.handler
    t.spill k g = .ok (s1, g1) →
    (g.sliceRecs = [] → s1 = t) ∧ t.mem = s.mem ∧ t.reqs = s.reqs ∧ (∀ j m, t.group? j m = s.group? j m) ∧
    ∃ h : Group, s.raise k n mask r = s1.setGroup k n h ∧ h.status = .running ∧ h.scalars = g.scalars ∧ h.flags = g.flags ∧
      (∀ l : Fin 32, h.lanes[l] = if g.on mask l then
        (handlerArgs r).foldl Lane.push { g.lanes[l] with trail := Vector.replicate 32 0, head := 0, net := 0, pend := [], poison := [] }
        else g.lanes[l]) ∧
      (∀ i ∈ slicesOf mask, h.slices[i].pc = e.addr ∧ h.slices[i].handler = true ∧ h.slices[i].depth = g.slices[i].depth + 1 ∧
        h.sliceRec i = ⟨g.slices[i].pc, g.slices[i].active, 0, g.divDepth, g.slices[i].dvtop, g.slices[i].iidx, true⟩ ∧ h.trapOf i = some r)

/-! ## Memory instructions -/

/-- R200, R202, R206, R207, R210: LD, PREF, RENEW and WAITV whose addresses pass their checks complete: one request for each active
lane, in two parts of 8 bytes for 128 bits, with its entries reserved and its flag counted; a WAITV's carries DATA as the value it compares with; PREF drops the lanes whose address
cannot be loaded. No memory changes. -/
def Obligations.LoadsComplete : Prop :=
  ∀ (s : State) (g : Group) (f : MFields),
    let k := s.iss.core
    let as := s.laneAddrs g f
    let flag := s.mFlag f
    let n := f.size.bytes
    g.flagFull flag = false →
    (s.MemReady (.ld f) g → s.mFault g f false none as = none →
      s.logPlaces k s.iss.frame + (if s.loadUnknown g f as then 1 else 0) ≤ 4 →
      ∃ t h, exec (.ld f) s = .next t ∧ t.group? k s.iss.frame = some h ∧
        s.Sends t (as.flatMap fun a => (sizeParts f.size).map fun p =>
          (a.1.val, .load, a.2 + BitVec.ofNat 64 p.1, p.2, if f.space = .bank then
            ((s.bankOf g ++ List.replicate 65536 0).drop (a.2 + BitVec.ofNat 64 p.1).toNat).take p.2 else [])) ∧
        g.reserved h s.iss.mask (formPushes (.m 0x00 f)) ∧ h.flags = (g.flagUp flag).flags ∧ h.scalars = g.scalars) ∧
    (s.MemReady (.pref f) g →
      ∃ t h, exec (.pref f) s = .next t ∧ t.group? k s.iss.frame = some h ∧
        s.Sends t ((as.filter fun a => match s.translate k (some (lastReg s.iss.frame a.1.val)) g.ctx g.priv .load a.2 with
            | .ok e => !isHost (e.pa a.2) | .error _ => false).map fun a => (a.1.val, .pref, a.2, n, [])) ∧
        h.lanes = g.lanes ∧ h.scalars = g.scalars) ∧
    (s.MemReady (.renew f) g → s.addrFault g f.space 1 false (as.map (·.2)) = none →
      s.xlateFault g .load (as.map fun p => (some (lastReg s.iss.frame p.1.val), p.2)) = none →
      ∃ t h, exec (.renew f) s = .next t ∧ t.group? k s.iss.frame = some h ∧
        s.Sends t (as.map fun a => (a.1.val, .renew, a.2, n, [])) ∧
        h.lanes = g.lanes ∧ h.scalars = g.scalars ∧ h.flags = (g.flagUp flag).flags) ∧
    (s.MemReady (.waitv f) g → s.mFault g f false (some .load) as = none → s.loggedOverlap g f.space n (as.map (·.2)) = [] →
      s.logPlaces k s.iss.frame + 2 ≤ 4 →
      ∃ t h, exec (.waitv f) s = .next t ∧ t.group? k s.iss.frame = some h ∧
        s.Sends t (as.map fun a => (a.1.val, .waitv, a.2, n, [])) ∧
        (t.reqs.drop s.reqs.length).map (·.cmp) = (as.map fun a => s.laneData g f (if f.size = .b64 then .b64 else .b32) a.1) ∧
        g.reserved h s.iss.mask (bytesWords n) ∧ h.flags = (g.flagUp flag).flags ∧ h.scalars = g.scalars)

/-- R201, R206, R208, R211, R225: ST and the atomics whose addresses pass their checks complete: one request for each active lane
with the lane's data, ACAS with the compare value of the entries just older too, the flag counted; an atomic reserves the entries of the
value it gives back. A release at fabric scope goes on once nothing that it waits for is outstanding. No byte changes before the request
is performed at its home or in its window. -/
def Obligations.StoresAndAtomicsComplete : Prop :=
  ∀ (s : State) (g : Group) (f : MFields),
    let k := s.iss.core
    let as := s.laneAddrs g f
    let flag := s.mFlag f
    let n := f.size.bytes
    g.flagFull flag = false → s.mFault g f true (some .store) as = none →
    s.loggedOverlap g f.space n (as.map (·.2)) = [] →
    (s.MemReady (.st f) g → (f.size = .b8 ∨ f.size = .b16 → s.fillFault g f as = none) →
      s.windowClear g (f.order == .release) f.scope →
      ∃ t h, exec (.st f) s = .next t ∧ t.group? k s.iss.frame = some h ∧
        s.Sends t (as.flatMap fun a => (sizeParts f.size).map fun p =>
          (a.1.val, .store, a.2 + BitVec.ofNat 64 p.1, p.2, ((s.laneData g f (mDataTy 0x01 f) a.1).drop p.1).take p.2)) ∧
        h.lanes = g.lanes ∧ h.scalars = g.scalars ∧ h.flags = (g.flagUp flag).flags) ∧
    (∀ p : Instr × AtomOp,
      p ∈ ([(.aadd f, .add), (.amin f, .min), (.amax f, .max), (.aand f, .and), (.aor f, .or), (.axor f, .xor), (.axchg f, .xchg),
        (.acas f, .cas), (.afadd f, .fadd), (.ainc f, .inc)] : List (Instr × AtomOp)) →
      s.MemReady p.1 g → s.fillFault g f as = none → s.windowClear g (f.order == .release || f.order == .acqRel) f.scope →
      ∃ t h, exec p.1 s = .next t ∧ t.group? k s.iss.frame = some h ∧
        s.Sends t (as.map fun a => (a.1.val, .atomic p.2 f.sx, a.2, n,
          s.laneData g f (mDataTy (if p.2 = .fadd then 0x10 else 8) f) a.1)) ∧
        (∀ y, p.2 = .cas → f.data.src = .age y → (t.reqs.drop s.reqs.length).map (·.cmp) = as.map fun a =>
          let l := g.lanes[a.1]
          if f.size = .b64 then wordsBytes [l.age (y.toNat + 3), l.age (y.toNat + 2)] else wordsBytes [l.age (y.toNat + 1)]) ∧
        g.reserved h s.iss.mask (bytesWords n) ∧ h.flags = (g.flagUp flag).flags ∧ h.scalars = g.scalars)

/-- R133, R134, R210: SLD, SST and SATOM whose address passes its checks complete with one request of the split, an SLD of another device
with a free log place; no scalar changes before the data arrives.
R203, R211, R225, R374: a memory instruction or a scalar one, one of whose addresses fails a check, takes that fault, the walks of its
checks in the TLBs, and none of its lanes accesses memory: no request is sent and no memory changes. An LD's translations are none of these
checks, and PREF has none. -/
def Obligations.ScalarMemoryCompletes : Prop :=
  (∀ (s : State) (g : Group) (f : SFields) (p : Instr × Nat × ReqKind × Bool × List Byte),
      let n := if f.ty.is64 then 8 else 4
      let data := fun (op : Nat) => leBytes n (s.sSrc op f g).2
      p ∈ ([(.sld f, 0x50, .load, false, []), (.sst f, 0x51, .store, true, data 0x51),
        (.satom f, 0x52, .atomic (satomOp f.cond.toNat) f.ty.isSigned, true, data 0x52)] :
          List (Instr × Nat × ReqKind × Bool × List Byte)) →
      let a := BitVec.ofNat 64 (s.sSrc p.2.1 f g).1 + f.imm.signExtend 64
      s.MemReady p.1 g → s.sFault g p.2.2.2.1 n a = none → (p.2.2.2.1 = true → s.loggedOverlap g .global n [a] = []) →
      (p.2.1 = 0x50 → s.logPlaces s.iss.core s.iss.frame + (if s.devAt g a then 1 else 0) ≤ 4) →
      g.flagFull (flagOf s.iss.flagA) = false →
      ∃ t h, exec p.1 s = .next t ∧ t.group? s.iss.core s.iss.frame = some h ∧
        s.Sends t [(32, p.2.2.1, a, n, p.2.2.2.2)] ∧ h.lanes = g.lanes ∧ h.scalars = g.scalars ∧
        h.flags = (g.flagUp (flagOf s.iss.flagA)).flags) ∧
  (∀ (s : State) (g : Group) (f : MFields) (x : Cause × DWord),
      let as := s.laneAddrs g f
      let faults := fun (i : Instr) (ws : List (Option Nat × DWord)) (o : Option (Cause × DWord)) =>
        s.MemReady i g → o = some x → exec i s = .next (s.faultAccess g ws x)
      let walks := s.walkAddrs g f as
      (s.MemReady (.ld f) g → s.mFault g f false none as = some x → exec (.ld f) s = .next (s.faultHere x.1 x.2)) ∧
      faults (.st f) walks ((s.mFault g f true (some .store) as).or (if f.size = .b8 ∨ f.size = .b16 then s.fillFault g f as else none)) ∧
      faults (.waitv f) walks (s.mFault g f false (some .load) as) ∧
      faults (.renew f) (s.laneRegs as) ((s.addrFault g f.space 1 false (as.map (·.2))).or
        (s.xlateFault g .load (as.map fun p => (some (lastReg s.iss.frame p.1.val), p.2)))) ∧
      (∀ i ∈ [Instr.aadd f, .amin f, .amax f, .aand f, .aor f, .axor f, .axchg f, .acas f, .afadd f, .ainc f],
        faults i walks ((s.mFault g f true (some .store) as).or (s.fillFault g f as))) ∧
      (∀ (e : SFields) (p : Instr × Nat × Bool), p ∈ ([(.sld e, 0x50, false), (.sst e, 0x51, true), (.satom e, 0x52, true)] :
          List (Instr × Nat × Bool)) →
        let a := BitVec.ofNat 64 (s.sSrc p.2.1 e g).1 + e.imm.signExtend 64
        faults p.1 [(none, a)] (s.sFault g p.2.2 (if e.ty.is64 then 8 else 4) a)) ∧
      ∀ t, t = s.faultHere x.1 x.2 ∨ (∃ ws, t = s.faultAccess g ws x) →
        t.reqs = s.reqs ∧ (s.ShadowFree → t.mem = s.mem ∧ ∀ k, (t.core k).scratch = (s.core k).scratch))

/-! ## Accesses in flight -/

/-- R205, R206, R210, R309, R331, R334, R381: the steps of a global access at its translation and at its home. A walk ends in a translation. A
store's bytes, an atomic's new value and no other byte change; the line's wts and rts become the larger of rts + 1 and the clock carried,
which the acknowledgement carries back, but for a part or lane of one instruction that follows another on the line, which shares its
time (the model's reading, log entry 32), and where its page is tracked the bit of the page is set in the dirty bitmap with it; an atomic that writes nothing changes no byte; a renewal raises rts to the clock and lease, and answers with the line; a read
without a lease answers with the line and raises nothing. The timestamps of a line that is not in its slice are those it has once it has
found room there. -/
def Obligations.HomeEventsComplete : Prop :=
  ∀ (s : State) (id : Nat) (r : Req), Memory.wf s.mem = true → s.req? id = some r →
    let line := lineOf r.pa
    let old := s.lineTs line
    let now := (s.roomFor line).lineTs line
    let plain := fun (n : Nat) => isHbm r.pa = true ∧ s.hostLine r.pa = false ∧ ∀ j < n, s.migrated (r.pa + j) = none ∧ s.place (r.pa + j) = r.pa + j
    (∀ e, r.stage = .walk → r.sdgen = (s.core r.core).sdgen → r.global = true → r.kind = .load →
      s.translate r.core r.lane? r.ctx (match s.group? r.core r.frame with | some g => g.priv | none => s.privCtx.contains r.ctx) .load r.va = .ok e →
      ∃ t, exec (.walkComplete id) s = .next t ∧ t.req? id = some (r.placed e) ∧ t.mem = s.mem) ∧
    (∀ evict, r.kind = .store → r.stage = .ready → s.heldBack r = false → s.fenced r = false → r.dev = false → r.releases = false →
      r.src = none → r.dirty = none → plain r.data.length →
      let joins := now.last = some r.op ∧ r.clk ≤ now.wts
      ∃ t q, exec (.homeStore id evict) s = .next t ∧ t.req? id = some q ∧ q.stage = .ack ∧ q.data = r.data ∧
        (∀ a, Memory.get t.mem a = if r.pa ≤ a ∧ a < r.pa + r.data.length then r.data.getD (a - r.pa) 0 else Memory.get s.mem a) ∧
        (evict = [] → ∀ w, (joins ∧ w = now.wts ∨ ¬ joins ∧ w = Max.max (now.rts + 1) r.clk) →
          q.wts = w ∧ (t.lineTs line).wts = w ∧ (t.lineTs line).rts = w)) ∧
    (∀ evict m, r.kind = .store → r.stage = .ready → s.heldBack r = false → s.fenced r = false → r.dev = false → r.releases = false →
      r.src = none → r.dirty = some m → plain r.data.length →
      let bit := r.pa % 2 ^ 40 / 2 ^ 16
      let b := m + bit / 8
      s.migrated b = none → s.place b = b → ¬ (r.pa ≤ b ∧ b < r.pa + r.data.length) →
      ∃ t q, exec (.homeStore id evict) s = .next t ∧ t.req? id = some q ∧ q.stage = .ack ∧ q.data = r.data ∧
        ∀ a, Memory.get t.mem a = if r.pa ≤ a ∧ a < r.pa + r.data.length then r.data.getD (a - r.pa) 0
          else if a = b then Memory.get s.mem b ||| BitVec.ofNat 8 (2 ^ (bit % 8)) else Memory.get s.mem a) ∧
    (∀ op sx evict, r.kind = .atomic op sx → r.stage = .ready → s.heldBack r = false → s.fenced r = false → r.dev = false →
      r.releases = false → r.dirty = none → plain r.size →
      let new := op.value sx (8 * r.size) (leNat (s.phys r.pa r.size)) (leNat r.data) (leNat r.cmp)
      ∃ t q, exec (.homeAtomic id evict) s = .next t ∧ t.req? id = some q ∧ q.stage = .data ∧ q.data = s.phys r.pa r.size ∧
        (new = none → t.mem = s.mem) ∧
        ∀ v, new = some v → (evict = [] → q.wts = Max.max (now.rts + 1) r.clk) ∧
          ∀ a, Memory.get t.mem a = if r.pa ≤ a ∧ a < r.pa + r.size then (leBytes r.size v).getD (a - r.pa) 0 else Memory.get s.mem a) ∧
    (r.kind ∈ [.load, .waitv, .pref, .renew] → r.stage = .ready → r.global = true → s.readsBare r = false → s.heldBack r = false →
      (r.plainRead = true → s.copyHit r = none ∧ s.renewing r = false) →
      (r.kind = .load ∧ r.order = .acquire ∨ Sparse.get? (s.die (dieOf r.core)).rdc line = none) →
      let top := (s.core r.core).clock + s.leaseOf r.core r.ctx
      ∃ t q, exec (.homeRenewal id []) s = .next t ∧ t.mem = s.mem ∧ t.req? id = some q ∧ q.stage = .reply ∧ q.wts = now.wts ∧ q.rts = top ∧
        q.data = s.lineData r.pa ∧ (t.lineTs line).rts = Max.max now.rts top ∧ (t.lineTs line).wts = now.wts) ∧
    (r.kind ∈ [.load, .waitv, .pref, .renew] → r.stage = .ready → r.global = true → s.readsBare r = true → r.dev = false → s.heldBack r = false →
      ∃ t q, exec (.homeRead id) s = .next t ∧ t.mem = s.mem ∧ t.lines = s.lines ∧ t.req? id = some q ∧ q.stage = .reply ∧ q.rts = 0 ∧
        q.data = s.lineData r.pa ∧ q.poison = s.poisoned r.pa r.size ∧ q.wts = if s.hostLine r.pa then 0 else old.wts)

/-- R17, R23, R24, R137, R197, R207, R212, R334: the steps that end an access of a group none of whose call records in memory waits for
data. A reply's data goes to the entries that wait for it and to no other, a scalar's to DST unless a later write has taken it; the request
is over and its flag falls with the last one of its instruction. An acknowledgement raises ACKMAX. A sleeping WAITV whose lease has lapsed
reads again. A replay sends a logged load whose flag has room back to translation, and its log entry is free. No memory changes. -/
def Obligations.ArrivalEventsComplete : Prop :=
  ∀ (s : State) (id : Nat) (r : Req) (g : Group), s.req? id = some r → s.group? r.core r.frame = some g → g.recHeld = [] →
    let ended := fun (t : State) (h : Group) => t.mem = s.mem ∧ t.reqs = s.reqs.filter (fun q => q.id != r.id) ∧
      h.flags = (if t.reqs.any fun q => q.op == r.op && q.stage != .logged then g else g.flagDown r.flag).flags
    (r.stage = .reply → r.kind = .load → r.dev = false → s.answerBehind r = false →
      ∃ t, exec (.renewalReply id .none) s = .next t ∧ t.mem = s.mem ∧ t.agenda = r.arrival :: s.agenda ∧
        t.req? id = some { r with stage := .data, data := (r.data.drop (r.pa % 128)).take r.size }) ∧
    (r.stage = .data → r.kind = .load → r.dst = none → r.lane < 32 → r.poison = false →
      (s.reqs.filter fun q => q.sameLane r && q.kind == r.kind) = [r] →
      ∃ t h, exec (.loadDataArrival id) s = .next t ∧ t.group? r.core r.frame = some h ∧ ended t h ∧ h.scalars = g.scalars ∧
        ∀ l : Fin 32, h.lanes[l] = if l.val = r.lane then g.lanes[l].fill r.id r.entries (r.words r.data) else g.lanes[l]) ∧
    (∀ d n, r.stage = .data → r.kind = .load → r.dst = some (d, n) → d + n ≤ 96 → r.poison = false →
      ∃ t h, exec (.scalarDataArrival id) s = .next t ∧ t.group? r.core r.frame = some h ∧ ended t h ∧ h.lanes = g.lanes ∧
        ∀ j < 96, h.scalar j = if d ≤ j ∧ j < d + n ∧ ¬ r.seq < g.sseq.getD j 0 then (leWords r.data).getD (j - d) 0 else g.scalar j) ∧
    (r.kind = .long → r.lane < 32 →
      ∃ t h, exec (.longResultReady id) s = .next t ∧ t.group? r.core r.frame = some h ∧ t.mem = s.mem ∧ h.flags = g.flags ∧
        t.reqs = s.reqs.filter (fun q => q.id != id) ∧
        ∀ l : Fin 32, h.lanes[l] = if l.val = r.lane then g.lanes[l].fill r.id r.entries (leWords r.data) else g.lanes[l]) ∧
    (r.kind = .store → r.stage = .ack → r.dev = false → s.answerBehind r = false → r.frame < 64 →
      ∃ t h, exec (.storeAck id) s = .next t ∧ t.group? r.core r.frame = some h ∧ ended t h ∧ h.lanes = g.lanes ∧ h.scalars = g.scalars ∧
        h.ackmax = Max.max g.ackmax r.wts) ∧
    (∀ c, r.stage = .asleep → r.dev = false → Sparse.get? (s.core r.core).l1 (lineOf r.pa) = some c → c.rts < (s.core r.core).clock →
      ∃ t, exec (.waitvReread id) s = .next t ∧ t.mem = s.mem ∧ t.req? id = some { r with stage := .ready }) ∧
    (∃ t, exec (.replay r.core r.frame) s = .next t ∧ t.mem = s.mem ∧
      (∀ e, g.log = [e] → g.flagFull e.flag = false →
        t.reqs = (s.reqs.map fun q => if q.op = e.op ∧ q.stage = .logged then { q with stage := .walk, sdgen := (s.core r.core).sdgen } else q) ∧
        ∃ h, t.group? r.core r.frame = some h ∧ h.log = [] ∧ h.replay = false))

/-- R186, R225: a scratch access is performed at its window core: a store changes the bytes it names in that core's scratch and no
others, a load takes them, an atomic changes them in one step with the value read; a fill gives the words of a block that are not
dirty the bytes read at the home, and leaves dirty words. Global memory stays. -/
def Obligations.ScratchEventsComplete : Prop :=
  ∀ (s : State),
    (∀ (id : Nat) (r : Req), s.req? id = some r → r.stage = .scratch → r.global = false → s.scratchBehind r = false →
      s.awaitsFill r = false →
      s.fenced r = false → r.releases = false → Memory.wf (s.core r.peer).scratch = true →
      (r.kind = .store →
        ∃ t, exec (.scratchPerform id) s = .next t ∧ t.mem = s.mem ∧ t.reqs = s.reqs.filter (fun q => q.id != r.id) ∧
          (∀ a, Memory.get (t.core r.peer).scratch a =
            if r.pa ≤ a ∧ a < r.pa + r.data.length then r.data.getD (a - r.pa) 0 else Memory.get (s.core r.peer).scratch a) ∧
          ∀ k, k ≠ r.peer → (t.core k).scratch = (s.core k).scratch) ∧
      (r.kind = .load →
        ∃ t, exec (.scratchPerform id) s = .next t ∧ t.mem = s.mem ∧ (∀ k, (t.core k).scratch = (s.core k).scratch) ∧
          ∃ q, t.req? id = some q ∧ q.stage = .data ∧ q.data = Memory.read (s.core r.peer).scratch r.pa r.size) ∧
      (∀ op sx v, r.kind = .atomic op sx →
        op.value sx (8 * r.size) (leNat (Memory.read (s.core r.peer).scratch r.pa r.size)) (leNat r.data) (leNat r.cmp) = some v →
        ∃ t q, exec (.scratchPerform id) s = .next t ∧ t.mem = s.mem ∧ t.req? id = some q ∧ q.stage = .data ∧
          q.data = Memory.read (s.core r.peer).scratch r.pa r.size ∧
          ∀ a, Memory.get (t.core r.peer).scratch a =
            if r.pa ≤ a ∧ a < r.pa + r.size then (leBytes r.size v).getD (a - r.pa) 0 else Memory.get (s.core r.peer).scratch a)) ∧
    (∀ (k range block : Nat) (m : MapRange) (s1 : State) (bs : List Byte) (rts : Nat),
      (s.core k).maps[range]? = some m → s.readBlock k m block = .ok (s1, bs, rts, false) →
      (s.fillWaiters k m block ≠ [] ∨ m.toFill.contains block = true) → Memory.wf (s.core k).scratch = true →
      ∃ t, exec (.blockFill k range block) s = .next t ∧ t.mem = s.mem ∧
        ∀ j < 32, let w := ((s.core k).mapBase m + 128 * block) / 4 + j
          Memory.read (t.core k).scratch (4 * w) 4 =
            if ((s.core k).status w).getLsbD 1 then Memory.read (s.core k).scratch (4 * w) 4 else (bs.drop (4 * j)).take 4)

/-! ## Engines -/

/-- R214 to R222, R229: an engine instruction whose operand block passes its checks, with a free slot of its engine and free lock
entries, completes by starting its operation: the lowest free slot holds its opcode, VAR, IMM and operand block and runs, HDST takes
the handle with the slot's generation, and no byte of memory or scratch changes yet. A write-back takes the dirty words of its range
as its snapshot; UNMAP withdraws the range at once.
R214, R221, R272, R340: WAITH, TESTH, CANCELH and WAITALL of a well-formed handle, which WAITH reads at issue. A handle whose slot has
gone on denotes a completed operation: WAITH then raises the clock over its acknowledgements, TESTH pushes 0. TESTH pushes 1, 2 or 3 of a
running, paused or failed one. CANCELH frees the slot with the next generation, a SCATTER's after the index in hand. WAITH of an operation
that has not failed waits with what it read; of a failed one it takes the recorded fault, the slot free. WAITALL of a group with no
operation left raises the clock over them all. -/
def Obligations.EngineAndHandleInstructionsComplete : Prop :=
  (∀ (s : State) (g : Group) (f : EFields),
      let k := s.iss.core
      let c := s.core k
      let v := f.var.toNat
      let im := f.imm.toNat
      let quiet := fun (t : State) (h : Group) => t.mem = s.mem ∧ (∀ j, (t.core j).scratch = (s.core j).scratch) ∧
        t.group? k s.iss.frame = some h ∧ h.lanes = g.lanes ∧ h.flags = g.flags
      (∀ p : Instr × Nat × (List Word → Option (Cause × DWord)) × (List Word → Option (Cause × DWord)) × (List Word → List Region),
        p ∈ ([(.copy f, 0x00, copyFault v im, s.copyDev g v im, copyRegions v im),
          (.copynd f, 0x01, ndFault v im, s.ndDev g v im, ndRegions v im),
          (.gather f, 0x02, gatherFault, fun _ => none, gatherRegions true (1 + v % 2)),
          (.scatter f, 0x03, gatherFault, fun _ => none, gatherRegions false 1)] :
            List (Instr × Nat × (List Word → Option (Cause × DWord)) × (List Word → Option (Cause × DWord)) × (List Word → List Region))) →
        let ws := g.block f.blk.toNat (eBlock p.2.1)
        let locked := (p.2.2.2.2 ws).filter fun r => !(p.2.1 == 0x03 && r.write)
        s.MemReady p.1 g → p.2.2.1 ws = none → s.regionAwaits g (p.2.2.2.2 ws) = false → s.regionFault g (p.2.2.2.2 ws) = none → p.2.2.2.1 ws = none → s.locksFree g locked = true →
        ∀ idx, c.freeHandle (engineOf p.2.1) = some idx →
        ∃ t h, exec p.1 s = .next t ∧ quiet t h ∧ h.scalars = (g.setHandle f.hdst.toNat (c.handleWord idx)).scalars ∧
          ((t.core k).handle idx).state = .running ∧ ((t.core k).handle idx).op = p.2.1 ∧ ((t.core k).handle idx).var = f.var ∧
          ((t.core k).handle idx).imm = f.imm ∧ ((t.core k).handle idx).block = ws ∧ ((t.core k).handle idx).gen = (c.handle idx).gen ∧
          ((t.core k).handle idx).done = 0 ∧ ((t.core k).handle idx).owner = s.iss.frame) ∧
      (∀ p : Instr × Nat, p ∈ ([(.unmap f, 0x05), (.wback f, 0x06)] : List (Instr × Nat)) →
        ∀ m idx, s.MemReady p.1 g → s.teamMap g (g.scalar f.blk.toNat).toNat = some m → c.freeHandle 3 = some idx → s.splitWrites = false →
        ∃ t h, exec p.1 s = .next t ∧ quiet t h ∧ h.scalars = (g.setHandle f.hdst.toNat (c.handleWord idx)).scalars ∧
          (c.snapshot m 0 ≠ [] → ((t.core k).handle idx).state = .running ∧ ((t.core k).handle idx).words = c.snapshot m 0) ∧
          (c.snapshot m 0 = [] → ((t.core k).handle idx).state = .free) ∧
          (p.2 = 0x05 → ∀ x ∈ (t.core k).maps, ¬ (x.launch = m.launch ∧ x.off = m.off)))) ∧
  (∀ (s : State) (g : Group) (f : EFields) (idx w : Nat),
      let k := s.iss.core
      let c := s.core k
      let now := w = (g.scalar f.blk.toNat).toNat
      let read := now ∧ s.iss.kept = [] ∨ s.iss.kept = [w] ∧ w < 2 ^ 32
      handleIndex w = some idx →
      (c.opOf s.iss.frame w idx = none →
        (read → s.MemReady (.waith f) g →
          exec (.waith f) s = .next ((s.raiseClock k ((Sparse.get? g.engDone w).getD 0)).advance)) ∧
        (now → s.MemReady (.testh f) g → exec (.testh f) s = .next (s.pushed g fun _ _ => [0])) ∧
        (now → s.MemReady (.cancelh f) g → exec (.cancelh f) s = .next (s.finish g))) ∧
      (∀ h, c.opOf s.iss.frame w idx = some h →
        (now → s.MemReady (.testh f) g → exec (.testh f) s = .next (s.pushed g fun _ _ =>
          [match h.state with | .error => 3 | .paused => 2 | _ => 1])) ∧
        (now → s.MemReady (.cancelh f) g → h.state ≠ .running ∨ h.elem = [] →
          ∃ t x, exec (.cancelh f) s = .next t ∧ (t.core k).handle idx = HandleSlot.free (h.gen + 1) ∧ t.mem = s.mem ∧
          (t.core k).scratch = c.scratch ∧ t.group? k s.iss.frame = some x ∧ x.lanes = g.lanes ∧ x.scalars = g.scalars ∧
          ∀ l ∈ (t.core k).locks, ¬ (l.core = k ∧ l.owner = idx)) ∧
        (now → s.MemReady (.cancelh f) g →
          let s1 := s.finishElem k idx
          ((s1.core k).opOf s.iss.frame w idx = none → exec (.cancelh f) s = .next s1.advance) ∧
          ∀ h1, (s1.core k).opOf s.iss.frame w idx = some h1 → h1.op ≠ 0x06 → exec (.cancelh f) s = .next ((s1.endOp k idx h1).advance)) ∧
        (read → s.MemReady (.waith f) g → h.state ≠ .error →
          ∃ t x, exec (.waith f) s = .next t ∧ t.group? k s.iss.frame = some x ∧ t.mem = s.mem ∧ x.lanes = g.lanes ∧ x.scalars = g.scalars ∧
            x.waits = g.waits ++ [⟨s.iss, .waith f, g.seq, [w], s.iss.nextIdx == 0, true⟩]) ∧
        (∀ e, read → s.MemReady (.waith f) g → h.state = .error → h.errCause = some e → s.opWaits g h = false →
          ∃ t : State, exec (.waith f) s = .next (t.faultHere e h.errAddr) ∧ (t.core k).handle idx = HandleSlot.free (h.gen + 1) ∧ t.mem = s.mem)) ∧
      (s.MemReady (.waitall f) g → (∀ p ∈ c.handles, p.2.owner = s.iss.frame → p.2.state = .free) →
        exec (.waitall f) s = .next (((s.raiseClock k g.engMax).modGroup k s.iss.frame fun g => { g with engMax := 0, engDone := [] }).advance)))

/-- R215, R216, R222, R272, R317: the engines' own steps. An operation whose last step moves its last unit completes: its slot is free
with the next generation, its locks are released; an FCOPY whose blocks are all moved completes when its last write is acknowledged. A unit
that meets an unmapped page leaves it paused at that unit, with the fault to be served, and ENGINE_RESUME lets it run again from there; any
other fault of a unit ends it in error. -/
def Obligations.EngineEventsComplete : Prop :=
  ∀ (s : State) (k idx : Nat),
    let h := (s.core k).handle idx
    let next := h.done + 1
    s.engineBehind k h = false →
    (h.op ≠ 0x21 → h.state = .running → next = h.total → s.elemRest k h = [] → ∀ s1 w, s.unitStep k h h.done = .ok (s1, w) →
      ∃ t, exec (.engineComplete k idx) s = .next t ∧ (t.core k).handle idx = HandleSlot.free (h.gen + 1) ∧ t.mem = s1.mem ∧
        (∀ j, (t.core j).scratch = (s1.core j).scratch) ∧ ∀ l ∈ (t.core k).locks, ¬ (l.core = k ∧ l.owner = idx)) ∧
    (h.op ≠ 0x21 → h.state = .running → h.done < h.total → ∀ c a, s.unitStep k h h.done = .error (.pause c a) →
      ∃ t x, exec (.enginePause k idx 0) s = .next t ∧ (t.core k).handle idx = x ∧ x.state = .paused ∧ x.done = h.done ∧
        x.errCause = some c ∧ x.errAddr = a ∧ t.mem = s.mem ∧ t.reports = s.reports ++ [.engineFault k idx c a]) ∧
    (h.op ≠ 0x21 → h.state = .running → h.done < h.total → ∀ c a, s.unitStep k h h.done = .error (.error c a) → (s.owner? k h).isSome →
      ∃ t, exec (.engineComplete k idx) s = .next t ∧ (t.core k).handle idx = { h with state := .error, errCause := some c, errAddr := a } ∧
        t.mem = s.mem) ∧
    (h.op = 0x21 → h.state = .running → h.total ≤ h.done → (∀ q ∈ s.reqs, q.lane = 35 → q.op ≠ h.words.headD 0) →
      ∃ t, exec (.engineComplete k idx) s = .next t ∧ (t.core k).handle idx = HandleSlot.free (h.gen + 1) ∧ t.mem = s.mem) ∧
    (h.state = .paused → h.op ≠ 0x06 →
      ∃ t, exec (.engineResume k idx) s = .next t ∧ (t.core k).handle idx = { h with state := .running, errCause := none, errAddr := 0 } ∧
        t.mem = s.mem ∧ (t.core k).scratch = (s.core k).scratch)

/-! ## The fabric -/

/-- R210, R211, R419 to R422: the fabric instructions whose addresses pass their checks and overlap no logged access complete: FWRITE and
FATOM, which takes a log place, with one request to the other
device for each active lane, FATOM with the entry of the old value reserved; FCOPY by starting its operation; WINFENCE at once where
nothing of the group is outstanding, and no byte of this device's memory changes. An FATOM that its home has refused is reported by
WINFENCE, which is the model's choice (log entry 82). -/
def Obligations.FabricInstructionsComplete : Prop :=
  ∀ (s : State) (g : Group) (f : YFields),
    let k := s.iss.core
    (s.MemReady (.fwrite f) g → s.fabricFault g (fwriteBytes f) (s.fabricAddrs g f) = none →
      s.loggedOverlap g .global (fwriteBytes f) ((s.fabricAddrs g f).map (·.2)) = [] → s.windowClear g (f.sub.getLsbD 2) .fabric →
      ∃ t h, exec (.fwrite f) s = .next t ∧ t.group? k s.iss.frame = some h ∧ h.lanes = g.lanes ∧ h.scalars = g.scalars ∧
        s.Sends t ((s.fabricAddrs g f).map fun p => (p.1.val, .store, p.2, fwriteBytes f, s.fwriteData g f p.1))) ∧
    (s.MemReady (.fatom f) g → s.fabricFault g 4 (s.fabricAddrs g f) = none →
      s.loggedOverlap g .global 4 ((s.fabricAddrs g f).map (·.2)) = [] → s.logPlaces k s.iss.frame + 1 ≤ 4 →
      ∃ t h, exec (.fatom f) s = .next t ∧ t.group? k s.iss.frame = some h ∧ h.scalars = g.scalars ∧
        s.Sends t ((s.fabricAddrs g f).map fun p =>
          (p.1.val, .atomic (fatomOp f.sub.toNat) false, p.2, 4, leBytes 4 (s.ySrc g g.lanes[p.1] f))) ∧
        g.reserved h s.iss.mask 1) ∧
    (∀ idx, s.MemReady (.fcopy f) g → s.fcopyFault g (g.block f.sidx.toNat 6) = none → s.windowClear g (f.sub.getLsbD 0) .fabric →
      (s.core k).freeHandle 0 = some idx → s.locksFree g (fcopyRegions (g.block f.sidx.toNat 6)) = true →
      ∃ t h, exec (.fcopy f) s = .next t ∧ t.group? k s.iss.frame = some h ∧ h.lanes = g.lanes ∧ t.mem = s.mem ∧
        h.scalars = (g.setHandle (f.imm.toNat % 128) ((s.core k).handleWord idx)).scalars ∧
        ((t.core k).handle idx).state = .running ∧ ((t.core k).handle idx).op = 0x21 ∧
        ((t.core k).handle idx).block = g.block f.sidx.toNat 6) ∧
    (s.Ready (.winfence f) g → s.winState k s.iss.frame g.seq g = .done →
      exec (.winfence f) s = .next (s.finish { g with fabWin := none })) ∧
    (s.Ready (.winfence f) g → s.winState k s.iss.frame g.seq g = .timeSync → exec (.winfence f) s = .next (s.faultHere .timeSync 0)) ∧
    (∀ e, s.Ready (.winfence f) g → s.winState k s.iss.frame g.seq g = .refused e → exec (.winfence f) s = .next (s.faultLogged e))

/-- R410 to R415, R418, R420, R423, R425: the fabric's own steps. A request of another device counts its packets' retries at its port; outside every
aperture it is refused; a read is answered with the bytes; a write waits, with the context for which its aperture marks it, and is then performed at its home with FABMARK raised over its wts before the answer; a write
not delivered within eight windows and a request of a head flit in error complete with POISON, and the port's counter counts it; losing
the clock drops SYNC; FWINCFG takes 250 to 8,000 and FDEVCFG a device number while nothing remote is held; a WINFENCE ends when its
windows have passed. -/
def Obligations.FabricEventsComplete : Prop :=
  ∀ (s : State),
    (∀ r : RemoteRequest, s.hasFabric = true →
      let p := s.ports.toList.getD r.port (0, 0)
      let ports := s.ports.setIfInBounds r.port (p.1, (p.2 + r.retries) % 2 ^ 32)
      (s.aperture r = none → exec (.remoteRequest r) s =
        .next { s with ports := ports, nextReq := s.nextReq + 1, remoteReplies := s.remoteReplies ++ [(s.nextReq, .refused)] }) ∧
      (∀ a, s.aperture r = some a →
        (∀ n, r.kind = .read n → s.poisoned r.addr n = false → exec (.remoteRequest r) s =
          .next { s with ports := ports, nextReq := s.nextReq + 1, remoteReplies := s.remoteReplies ++ [(s.nextReq, .data (s.phys r.addr n) s.window?)] }) ∧
        ((∀ n, r.kind ≠ .read n) → exec (.remoteRequest r) s =
          .next { s with ports := ports, nextReq := s.nextReq + 1,
                         remotes := s.remotes ++ [⟨s.nextReq, r, if a.perm.getLsbD 2 then some a.ctx else none⟩] }))) ∧
    (∀ (o : RemoteOp) (bs : List Byte), s.remotes.find? (fun q => q.id == o.id) = some o →
      (∀ q ∈ s.remotes, q.req.dev = o.req.dev → o.id ≤ q.id) → o.req.kind = .write bs → Memory.wf s.mem = true →
      o.mark = none → isHbm o.req.addr = true → s.hostLine o.req.addr = false →
      (∀ j < bs.length, s.migrated (o.req.addr + j) = none ∧ s.place (o.req.addr + j) = o.req.addr + j) →
      ∃ t, exec (.remoteWritePerform o.id) s = .next t ∧
        (∀ a, Memory.get t.mem a = if o.req.addr ≤ a ∧ a < o.req.addr + bs.length then bs.getD (a - o.req.addr) 0 else Memory.get s.mem a) ∧
        t.fabmark = Max.max s.fabmark (((s.roomFor (lineOf o.req.addr)).lineTs (lineOf o.req.addr)).rts + 1) ∧
        t.remoteReplies = s.remoteReplies ++ [(o.id, .data [] s.window?)] ∧ t.remotes = s.remotes.filter fun q => q.id != o.id) ∧
    (∀ (id : Nat) (r : Req), s.req? id = some r →
      (r.dev = true → r.kind = .store → r.stage = .reply → r.lane < 34 → r.sent + 8 * s.winLen.toNat ≤ s.ptime →
        ∃ t, exec (.remoteWriteTimeout id) s = .next t ∧ t.mem = s.mem ∧ t.reqs = s.reqs.filter (fun q => q.id != r.id) ∧
          t.reports = s.reports ++ [.remoteTimeout r.core r.frame] ∧
          ∀ g, s.group? r.core r.frame = some g → ∃ h, t.group? r.core r.frame = some h ∧ h.async = g.async ++ [⟨.poison, r.va, r.mask⟩]) ∧
      (∀ port < 32, r.global = true → r.kind = .load → r.stage = .ready → r.lane < 34 →
        ∃ t q, exec (.headFlitError id port) s = .next t ∧ t.mem = s.mem ∧ t.req? id = some q ∧ q.stage = .data ∧ q.poison = true ∧
          (t.ports.toList.getD port (0, 0)).1 = ((s.ports.toList.getD port (0, 0)).1 + 1) % 2 ^ 32 ∧
          ∀ g, s.group? r.core r.frame = some g → ∃ h, t.group? r.core r.frame = some h ∧ h.async = g.async ++ [⟨.linkErr, 0, r.mask⟩])) ∧
    (exec (.syncLoss none) s = .next { s with clockStop := true, timeSync := false, errLow := 0 }) ∧
    (∀ e : BitVec 16, 50 < e.toNat → exec (.syncLoss (some e)) s = .next { s with timeErr := e, timeSync := false, errLow := 0 }) ∧
    (∀ e : BitVec 16, e.toNat ≤ 20 → s.errLow ≠ 0 → 2000000 ≤ s.cycle + 1 - s.errLow →
      exec (.syncRegain e) s = .next { s with clockStop := false, timeErr := e, timeSync := true }) ∧
    (∀ v : Word, s.hasRemoteCopy = false → s.remotes = [] → (∀ q ∈ s.reqs, q.dev = false) →
      exec (.fwincfgWrite v) s = .next (if 250 ≤ v.toNat ∧ v.toNat ≤ 8000 then { s with winLen := v } else s) ∧
      exec (.fdevcfgWrite v) s = .next { s with devNo := v.setWidth 12 }) ∧
    (∀ (k n slice : Nat) (g : Group) (w : Wait) (f : YFields), s.group? k n = some g → g.waitOf slice = some w → w.instr = .winfence f →
      g.status = .running → s.winState k n w.seq g = .done →
      exec (.winfenceWindowEnd k n slice) s = .next (s.endWait k n w fun g => { g with fabWin := none }))

/-! ## Mapped ranges and the nest unit -/

/-- R221, R223, R226, R230, R277, R320, R321, R342, R344, R345: MAP, SUBWAIT and SETTLE complete, and the steps of subscriptions and of
SETTLE. MAP adds an entry whose words are all invalid and clean; a subscription's counter starts at 0 when its last block has landed; a
forwarded write with none of its slice before it takes the next number; the update with the next number changes the bytes it names in the
range and no others, and counts; SUBWAIT reads range and count at issue, waits, and ends when the count is reached; SETTLE waits, and at its
end SWGEN has advanced on every core. That after a refill (R277, R321) the counter stands at the last write counted, and that the clock of
APPLIED is the largest wts of the writes counted, is the model's reading (log entries 69 and 102). -/
def Obligations.MappedRangesComplete : Prop :=
  ∀ (s : State),
    (∀ (g : Group) (f : EFields),
      let k := s.iss.core
      let c := s.core k
      let ws := g.block f.blk.toNat 6
      let mode := f.var.toNat % 4
      (s.MemReady (.mapRange f) g → s.mapFault g mode ws = none → s.splitWrites = false →
        ∃ t h m, exec (.mapRange f) s = .next t ∧ t.group? k s.iss.frame = some h ∧ h.lanes = g.lanes ∧ h.scalars = g.scalars ∧
          t.mem = s.mem ∧ (t.core k).scratch = c.scratch ∧ (t.core k).maps = c.maps ++ [m] ∧ m.launch = g.launch ∧ m.ctx = g.ctx ∧
          m.off = blockWord ws 0 ∧ m.len = blockWord ws 1 ∧ m.g = BitVec.ofNat 64 (blockWide ws 2) ∧ m.mode = mode ∧ m.applied = 0 ∧
          ∀ j < m.len / 4, (t.core k).status (c.mapBase m / 4 + j) = 0) ∧
      (∀ m o n, s.MemReady (.subwait f) g →
        (s.iss.kept = [] ∧ o = (g.scalar f.blk.toNat).toNat ∧ n = (g.scalar (f.blk.toNat + 1)).toNat ∨
          s.iss.kept = [o, n] ∧ o < 2 ^ 32 ∧ n < 2 ^ 32) →
        s.teamMap g o = some m → m.mode = 1 →
        let reached := (s.subOf k m).any (fun u => u.2.2.live) = true ∧ (BitVec.ofNat 32 m.applied - BitVec.ofNat 32 n).toNat < 2 ^ 31
        (reached → exec (.subwait f) s = .next ((s.raiseClock k m.appliedWts).advance)) ∧
        (¬ reached → ∃ t h, exec (.subwait f) s = .next t ∧ t.group? k s.iss.frame = some h ∧ t.mem = s.mem ∧ h.lanes = g.lanes ∧
          h.waits = g.waits ++ [⟨s.iss, .subwait f, g.seq, [o, n], s.iss.nextIdx == 0, true⟩])) ∧
      (s.MemReady (.settle f) g → s.settleFault g (g.block f.blk.toNat 8) = none → s.splitWrites = false →
        ∃ t h, exec (.settle f) s = .next t ∧ t.group? k s.iss.frame = some h ∧ h.lanes = g.lanes ∧ h.scalars = g.scalars ∧ t.mem = s.mem ∧
          h.waits = g.waits ++ [⟨s.iss, .settle f, g.seq, (g.block f.blk.toNat 8).map (·.toNat), s.iss.nextIdx == 0, false⟩])) ∧
    (∀ (k range : Nat) (m : MapRange), (s.core k).maps[range]? = some m →
      (∀ d n u, m.mode = 1 → m.toFill = [] → s.subOf k m = some (d, n, u) → u.live = false →
        let count := if u.counting then u.seqNo + u.writes.length else 0
        let last := if u.counting then (u.writes.map (·.wts)).foldl Nat.max u.lastWts else 0
        ∃ t, exec (.subscriptionFillDone k range) s = .next t ∧ t.mem = s.mem ∧
          Sparse.get? (t.die d).subs n = some { u with writes := [], unread := [], seqNo := count, counting := true, live := true, lastWts := last } ∧
          ∀ x ∈ (t.core k).maps, x.launch = m.launch → x.off = m.off → x.applied = count ∧ x.appliedWts = last) ∧
      (∀ n off bs wts, m.updates.find? (fun u => u.1 == m.applied + 1) = some (n, off, bs, wts) → Memory.wf (s.core k).scratch = true →
        let base := (s.core k).mapBase m + off
        ∃ t, exec (.updateApply k range) s = .next t ∧ t.mem = s.mem ∧
          (∀ a, Memory.get (t.core k).scratch a =
            if base ≤ a ∧ a < base + bs.length then bs.getD (a - base) 0 else Memory.get (s.core k).scratch a) ∧
          ∀ x ∈ (t.core k).maps, x.launch = m.launch → x.off = m.off → x.applied = m.applied + 1 ∧ x.appliedWts = Nat.max m.appliedWts wts)) ∧
    (∀ (d sub write k : Nat) (u : Sub) (w : SubWrite) (m : MapRange), Sparse.get? (s.die d).subs sub = some u → u.writes[write]? = some w →
      u.core = some k → u.counting = true → u.live = true → m ∈ (s.core k).maps → m.launch = u.launch → m.off = u.off →
      ((u.writes.take write).any fun v => v.slice == w.slice) = false →
      ∃ t, exec (.sequencerNumber d sub write) s = .next t ∧ t.mem = s.mem ∧
        Sparse.get? (t.die d).subs sub = some { u with seqNo := u.seqNo + 1, writes := u.writes.eraseIdx write, lastWts := Nat.max u.lastWts w.wts } ∧
        ∃ x ∈ (t.core k).maps, x.updates = m.updates ++ [(u.seqNo + 1, w.off, w.bytes, w.wts)]) ∧
    (∀ (k n slice : Nat) (g : Group) (w : Wait) (f : EFields), s.group? k n = some g → g.waitOf slice = some w → w.instr = .settle f →
      (s.core k).stepping = [] →
      ∃ t h, exec (.settleComplete k n slice) s = .next t ∧ t.swgen = s.swgen + 1 ∧ (∀ p ∈ t.cores, p.2.swgen = s.swgen + 1) ∧
        t.group? k n = some h ∧ ∀ x ∈ h.waits, x.same w = false)

/-- R75, R241, R255 to R258: a NEST that passes its checks and finds room completes by taking its place in the unit's queue with the scalars
it read and its flag counted. An element-by-element tuple over plain scratch, into whose source elements neither an earlier nor a later tuple
writes (R257 leaves open which value a read then has), writes the value of its two source elements at its destination and changes no other byte. After its last tuple the NEST leaves the queue and its flag falls. -/
def Obligations.NestCompletes : Prop :=
  ∀ (s : State) (g : Group) (f : NestFields),
    (let k := s.iss.core
     let c := s.core k
     let flag := flagOf s.iss.flagA
     let locks := s.nestLocks g f
     s.MemReady (.nest f) g → s.nestFault g f = none → (locks.any fun l => c.engineOver [] l.start l.len) = false →
     c.nestQ.length < 5 → g.flagFull flag = false → c.locksUsed + locks.length ≤ 64 →
     ∃ t h w, exec (.nest f) s = .next t ∧ t.group? k s.iss.frame = some h ∧ h.lanes = g.lanes ∧ h.scalars = g.scalars ∧
       h.flags = (g.flagUp flag).flags ∧ t.mem = s.mem ∧ (t.core k).scratch = c.scratch ∧ (t.core k).nestQ = c.nestQ ++ [w] ∧
       (t.core k).locks = c.locks ++ locks ∧ w.instr = .nest f ∧ w.tuple = 0 ∧
       w.vals = [g.scalar f.sd.toNat, g.scalar f.sa.toNat, g.scalar f.sb.toNat]) ∧
    (∀ (k base : Nat) (w : NestWork), f.op.reduces = false → f.op.noB = false → f.op ≠ .fma → w.wrote = [] → (s.core k).maps = [] →
      (s.core k).scratchPoison = [] → Memory.wf (s.core k).scratch = true →
      let at' := fun (o : Nat) => w.place f base o
      (∀ o ∈ (if f.bscalar then [1] else [1, 2]), ∀ u, w.tuple < u → u < nestTuples f →
        let d := w.outPlace f base u
        ¬ (d < at' o + 4 ∧ at' o < d + nestDstBytes f)) →
      let el := fun (o : Nat) => leNat (Memory.read (s.core k).scratch (at' o) 4)
      let v := nestResult f (el 1) (if f.bscalar then (w.vals.getD 2 0).toNat else el 2) 0
      ∃ t w1, s.nestTuple k g base f w = .ok (t, w1) ∧ w1.tuple = w.tuple + 1 ∧ t.mem = s.mem ∧
        ∀ a, Memory.get (t.core k).scratch a =
          if at' 0 ≤ a ∧ a < at' 0 + v.length then v.getD (a - at' 0) 0 else Memory.get (s.core k).scratch a) ∧
    (∀ (k n : Nat) (w : NestWork) (q : List NestWork) (t1 : State) (w1 : NestWork),
      (s.core k).nestQ = w :: q → w.instr = .nest f → w.why = none → s.group? k w.frame = some g → n = w.frame →
      (s.reqs.any fun q => q.core == k && q.frame == w.frame && q.isWrite && q.unperformed && decide (q.seq < w.seq)) = false →
      s.nestTuple k g ((((s.core k).team? g.launch).map (·.scratchBase)).getD 0) f w = .ok (t1, w1) →
      nestTuples f ≤ w1.tuple → t1.group? k n = some g →
      ∃ t h, exec (.nestPerform k) s = .next t ∧ t.mem = t1.mem ∧ (t.core k).scratch = (t1.core k).scratch ∧
        (∀ x ∈ (t.core k).nestQ, x.ticket ≠ w.ticket) ∧ t.group? k n = some h ∧ h.flags = (g.flagDown w.flag).flags)

/-! ## The rack and the matrix array -/

/-- R237, R241 to R252: the instructions of class X that pass their checks, with room in their queue and no range of a running engine
operation in their way, complete; ACCRD, RKLD and RKST with none of their group's earlier work on their slots. TAKE claims and FREE gives up its slots; BLOAD, CBLOAD, BDROP, MMA, MXT, MXP and MXR join their
section's queue, a load taking the section; ACCZ clears its D tiles; ACCRD, RKLD and RKST go on their way with their flag counted and
their scratch range locked. Lanes, scalars, memory and scratch stay. -/
def Obligations.MatrixInstructionsComplete : Prop :=
  ∀ (s : State) (g : Group) (f : XFields),
    let k := s.iss.core
    let fr := s.iss.frame
    let c := s.core k
    let x := c.sect f.sect.toNat
    let y := x.after c
    let q := g.quarters s.iss.mask
    let base := ((c.team? g.launch).map (·.rackBase)).getD 0
    let len := ((c.team? g.launch).map (·.rackLen)).getD 0
    let phys := s.physSlots g (xSlots f)
    let off := (g.scalar f.scale.toNat).toNat
    let flag := flagOf s.iss.flagA
    let ends := fun (r : Res) (p : State → Group → Prop) =>
      ∃ t h, r = .next t ∧ t.group? k fr = some h ∧ h.lanes = g.lanes ∧ h.scalars = g.scalars ∧ t.mem = s.mem ∧
        (t.core k).scratch = c.scratch ∧ p t h
    let joins := fun (op : Nat) (owner : Option Nat) (r : Res) => ends r fun t h =>
      (t.core k).sect f.sect.toNat = { x with queue := x.queue ++ [⟨op, f, fr, q, 0, g.seq⟩], owner := x.owner.or owner } ∧
        (t.core k).rack = c.rack ∧ h.flags = g.flags
    let leaves := fun (i : Instr) (low n : Nat) (qm : BitVec 4) (source : Bool) (r : Res) => ends r fun t h =>
      h.flags = (g.flagUp flag).flags ∧ (t.core k).rack = c.rack ∧
        (∃ w, (t.core k).rackQ = c.rackQ ++ [w] ∧ w.instr = i ∧ w.frame = fr ∧ w.qmask = qm ∧ w.vals = [BitVec.ofNat 32 off] ∧ w.seq = g.seq) ∧
        ∃ l, (t.core k).locks = c.locks ++ [l] ∧ l.start = s.poolOf g (off + low) ∧ l.len = n ∧ l.space = 1 ∧ l.source = source
    let free := fun (slots : List Nat) (p n : Nat) => c.engineOver (s.physSlots g slots) p n = false
    let room := x.queue.length < 2
    let tile := accTileBytes f.fmtA.toNat
    (s.MemReady (.take f) g → (∀ n ∈ xSlots f, n < len ∧ Sparse.get? c.claims (base + n) = none) → free (xSlots f) 0 0 →
      ends (exec (.take f) s) fun t h => h.flags = g.flags ∧ (t.core k).rack = c.rack ∧
        ∀ n, Sparse.get? (t.core k).claims n = if n ∈ phys then some fr else Sparse.get? c.claims n) ∧
    (s.MemReady (.free f) g → s.slotAwaits g (xSlots f) = false → s.slotBad g [] (xSlots f) = none → free (xSlots f) 0 0 →
      c.conflict fr g.seq phys phys = false →
      ends (exec (.free f) s) fun t h => h.flags = g.flags ∧ (t.core k).rack = c.rack ∧
        ∀ n, Sparse.get? (t.core k).claims n = if n ∈ phys then none else Sparse.get? c.claims n) ∧
    (s.MemReady (.bload f) g → x.ownedByOther fr = false → (f.fmtB ≠ 5 → f.flags.getLsbD 2 = decide (f.fmtB = 4)) →
      (f.fmtB = 5 → y.cb.isSome) → (f.fmtB = 8 → f.scale = 127) → s.slotBad g (latchOf 0 f).slots [] = none →
      free (latchOf 0 f).slots 0 0 → room → joins 0x02 (some fr) (exec (.bload f) s)) ∧
    (s.MemReady (.cbload f) g → x.ownedByOther fr = false → y.b = none → s.slotBad g [f.slotA.toNat] [] = none → free [f.slotA.toNat] 0 0 →
      room → joins 0x03 (some fr) (exec (.cbload f) s)) ∧
    (s.MemReady (.bdrop f) g → y.owner = some fr → room → joins 0x04 none (exec (.bdrop f) s)) ∧
    (∀ b, s.MemReady (.mma f) g → g.quarterSplit s.iss.mask = false → y.owner = some fr → y.b = some b →
      pairsWith f.fmtA.toNat b.fmt b.kclass = true → (f.fmtA = 8 → f.scale = 127 ∧ f.flags.getLsbD 1 = false) →
      s.slotAwaits g (workSlots 0x05 f q).2 = false → s.slotBad g (workSlots 0x05 f q).1 (workSlots 0x05 f q).2 = none →
      free ((workSlots 0x05 f q).1 ++ (workSlots 0x05 f q).2) 0 0 → room → joins 0x05 none (exec (.mma f) s)) ∧
    (∀ p ∈ [(Instr.mxt f, 0x06), (.mxp f, 0x07), (.mxr f, 0x08)], s.MemReady p.1 g → g.quarterSplit s.iss.mask = false →
      x.ownedByOther fr = false → y.ownedByOther fr = false → y.b = none → s.slotAwaits g (workSlots p.2 f q).2 = false →
      s.slotBad g (workSlots p.2 f q).1 (workSlots p.2 f q).2 = none → free ((workSlots p.2 f q).1 ++ (workSlots p.2 f q).2) 0 0 → room →
      joins p.2 none (exec p.1 s)) ∧
    (s.MemReady (.accz f) g → g.quarterSplit s.iss.mask = false → s.slotAwaits g (accSlots f q) = false →
      s.slotBad g [] (accSlots f q) = none → free (accSlots f q) 0 0 → c.conflict fr g.seq [] (s.physSlots g (accSlots f q)) = false →
      Memory.wf c.rack = true →
      ends (exec (.accz f) s) fun t h => h.flags = g.flags ∧
        ∀ a, Memory.get (t.core k).rack a = if a / 4096 ∈ s.physSlots g (accSlots f q) then 0 else Memory.get c.rack a) ∧
    (g.flagFull flag = false → c.locksUsed < 64 →
      (∀ low high, quartersIn q = low :: (quartersIn q).tail → (∀ n ∈ quartersIn q, n ≤ high) → high ∈ quartersIn q →
        s.MemReady (.accrd f) g → g.quarterSplit s.iss.mask = false → s.slotBad g (accSlots f q) [] = none →
        s.rackScratchFault g off (low * tile) ((high + 1) * tile) true = none →
        free (accSlots f q) (s.poolOf g (off + low * tile)) ((high + 1 - low) * tile) →
        c.conflict fr g.seq (s.physSlots g (accSlots f q)) [] = false →
        leaves (.accrd f) (low * tile) ((high + 1 - low) * tile) q false (exec (.accrd f) s)) ∧
      (s.MemReady (.rkld f) g → s.slotAwaits g (xSlots f) = false → s.slotBad g [] (xSlots f) = none →
        s.rackScratchFault g off 0 (4096 * f.count.toNat) false = none → s.rangeFillFault g off (4096 * f.count.toNat) = none →
        free (xSlots f) (s.poolOf g off) (4096 * f.count.toNat) → c.conflict fr g.seq [] phys = false →
        leaves (.rkld f) 0 (4096 * f.count.toNat) 0 true (exec (.rkld f) s)) ∧
      (s.MemReady (.rkst f) g → s.slotBad g (xSlots f) [] = none → s.rackScratchFault g off 0 (4096 * f.count.toNat) true = none →
        free (xSlots f) (s.poolOf g off) (4096 * f.count.toNat) → c.conflict fr g.seq phys [] = false →
        leaves (.rkst f) 0 (4096 * f.count.toNat) 0 false (exec (.rkst f) s)))

/-- R235, R241 to R246, R250, R251: what a core's sections do. A waiting TAKE claims its slots at once when all are unclaimed; a BLOAD or
CBLOAD that waits for a section goes on when it has no owner; the head of a queue latches its B or codebook, or performs its next tile,
which writes the D tile and no other byte of the rack; BDROP ends pins and ownership, and a load queued behind it takes the section; an
RKST or RKLD moves its slots. -/
def Obligations.SectionsAct : Prop :=
  ∀ (s : State) (k : Nat),
    let c := s.core k
    (∀ (fr slice : Nat) (g : Group) (w : Wait) (f : XFields), s.group? k fr = some g → g.waitOf slice = some w → g.status = .running →
      c.stepping = [] →
      (w.instr = .take f → (∀ n ∈ w.vals, Sparse.get? c.claims n = none) → c.engineOver w.vals 0 0 = false →
        ∃ t h, exec (.takeClaim k fr slice) s = .next t ∧ t.mem = s.mem ∧ (t.core k).rack = c.rack ∧ t.group? k fr = some h ∧
          h.lanes = g.lanes ∧ h.waits = g.waits.filter (fun x => !x.same w) ∧
          ∀ n, Sparse.get? (t.core k).claims n = if n ∈ w.vals then some fr else Sparse.get? c.claims n) ∧
      (∀ n, w.instr = .cbload f → w.vals = [n] → f.sect.toNat = n → w.iss.core = k → w.iss.frame = fr →
        (c.sect n).owner = none → (c.sect n).b = none → (c.sect n).queue = [] →
        (∃ team, c.team? g.launch = some team ∧ f.slotA.toNat < team.rackLen ∧ Sparse.get? c.claims (team.rackBase + f.slotA.toNat) = some fr) →
        c.locks = [] →
        ∃ t x, exec (.sectionWaitEnd k fr slice) s = .next t ∧ t.mem = s.mem ∧ (t.core k).rack = c.rack ∧ (t.core k).sect n = x ∧
          x.owner = some fr ∧ x.queue.map (fun v => (v.op, v.f, v.frame)) = [(0x03, f, fr)]) ∧
      (∀ n, w.instr = .bload f → w.vals = [n] → f.sect.toNat = n → w.iss.core = k → w.iss.frame = fr →
        (c.sect n).owner = none → (c.sect n).b = none → (c.sect n).queue = [] →
        (f.fmtB ≠ 5 → f.flags.getLsbD 2 = decide (f.fmtB = 4)) → (f.fmtB = 5 → (c.sect n).cb.isSome) → (f.fmtB = 8 → f.scale = 127) →
        (∃ team, c.team? g.launch = some team ∧ ∀ j ∈ (latchOf 0 f).slots, j < team.rackLen ∧ Sparse.get? c.claims (team.rackBase + j) = some fr) →
        c.locks = [] →
        ∃ t x, exec (.sectionWaitEnd k fr slice) s = .next t ∧ t.mem = s.mem ∧ (t.core k).rack = c.rack ∧ (t.core k).sect n = x ∧
          x.owner = some fr ∧ x.queue.map (fun v => (v.op, v.f, v.frame)) = [(0x02, f, fr)])) ∧
    (∀ (n : Nat) (w : SecWork) (rest : List SecWork), n < 4 → (c.sect n).queue = w :: rest →
      let x := c.sect n
      let base := c.rackBaseOf w.frame
      (w.op = 0x02 → c.conflict w.frame w.seq (latchOf base w.f).slots [] = false →
        ∃ t, exec (.sectionPerform k n) s = .next t ∧ t.mem = s.mem ∧ (t.core k).rack = c.rack ∧
          (t.core k).sect n = { x with owner := some w.frame, b := some (latchOf base w.f), queue := rest }) ∧
      (w.op = 0x03 → c.conflict w.frame w.seq [base + w.f.slotA.toNat] [] = false →
        ∃ t, exec (.sectionPerform k n) s = .next t ∧ t.mem = s.mem ∧ (t.core k).rack = c.rack ∧
          (t.core k).sect n = { x with owner := some w.frame, cb := some (base + w.f.slotA.toNat), queue := rest }) ∧
      (∀ j, w.op ∈ [0x05, 0x06, 0x07, 0x08] → (w.op = 0x05 → x.b.isSome) → w.tiles[w.tile]? = some j →
        c.conflict w.frame w.seq ((w.tileReads j).map (base + ·)) ((w.tileWrites j).map (base + ·)) = false → Memory.wf c.rack = true →
        ∃ t, exec (.sectionPerform k n) s = .next t ∧ t.mem = s.mem ∧ (t.core k).scratch = c.scratch ∧
          (t.core k).sect n = { x with queue := if w.tile + 1 < w.tiles.length then { w with tile := w.tile + 1 } :: rest else rest } ∧
          ∀ a, a < 4096 * (base + w.f.slotD.toNat + 2 * j) ∨ 4096 * (base + w.f.slotD.toNat + 2 * j) + 8192 ≤ a →
            Memory.get (t.core k).rack a = Memory.get c.rack a) ∧
      (w.op = 0x04 →
        ∃ t y, exec (.bdropAct k n) s = .next t ∧ t.mem = s.mem ∧ (t.core k).rack = c.rack ∧ (t.core k).sect n = y ∧ y.b = none ∧
          y.cb = none ∧ y.queue = rest ∧ y.owner = (rest.find? fun v => v.op == 0x02 || v.op == 0x03).map (·.frame))) ∧
    (∀ (req : Nat) (w : NestWork) (g : Group) (f : XFields), s.req? req = none →
      (s.cores.findSome? fun p => (p.2.rackQ.find? fun w => w.ticket == req).map fun w => (p.1, w)) = some (k, w) →
      s.group? k w.frame = some g → w.why = none → (∀ q ∈ s.reqs, q.core = k → q.frame = w.frame → w.seq ≤ q.seq) →
      c.conflict w.frame w.seq (w.use c).reads (w.use c).writes = false → c.maps = [] → c.scratchPoison = [] → c.rackPoison = [] →
      Memory.wf c.scratch = true → Memory.wf c.rack = true →
      let pool := ((c.team? g.launch).map (·.scratchBase)).getD 0 + (w.vals.getD 0 0).toNat
      let slot := 4096 * (c.rackBaseOf w.frame + f.slotA.toNat)
      let n := 4096 * f.count.toNat
      (w.instr = .rkst f →
        ∃ t, exec (.scratchPerform req) s = .next t ∧ t.mem = s.mem ∧ (t.core k).rack = c.rack ∧ (∀ v ∈ (t.core k).rackQ, v.ticket ≠ req) ∧
          ∀ a, Memory.get (t.core k).scratch a = if pool ≤ a ∧ a < pool + n then Memory.get c.rack (slot + (a - pool)) else Memory.get c.scratch a) ∧
      (w.instr = .rkld f →
        ∃ t, exec (.scratchPerform req) s = .next t ∧ t.mem = s.mem ∧ (t.core k).scratch = c.scratch ∧ (∀ v ∈ (t.core k).rackQ, v.ticket ≠ req) ∧
          ∀ a, Memory.get (t.core k).rack a = if slot ≤ a ∧ a < slot + n then Memory.get c.scratch (pool + (a - slot)) else Memory.get c.rack a))

/-- R92 to R94, R100, R106 to R109, R238, R246, R247: what a tile computes, word by word of its D tile, from the bytes in the rack before
it. With i8 operands an MMA adds the dot product of a row of A and a column of B to D, exact modulo 2^32; with float operands it accumulates
D block of 32 by block, each block's 32 products taken by R106 or R107 with the scales of its row and its column. MXT transposes A, MXP
rotates or exchanges its rows and MXR sums its columns, each element widened, and each float sum rounded once where it is not exact; and what one
block adds: its exact sum scaled and rounded to f32, then added to D and rounded again; a scale of 0xFF makes the canonical NaN. -/
def Obligations.TileValues : Prop :=
  (∀ (c : Core) (x : Section) (w : SecWork) (j m n : Nat), Memory.wf c.rack = true → m < 32 → n < 64 →
    let base := c.rackBaseOf w.frame
    let byte := fun (slot r i : Nat) => ((Memory.get c.rack (4096 * slot + 128 * r + i)).toInt : Int)
    let a := base + w.f.slotA.toNat + j
    let d := 4096 * (base + w.f.slotD.toNat + 2 * j) + 256 * m + 4 * n
    let word := fun (c : Core) => BitVec.ofNat 32 (c.rackNat d 4)
    let after := word (c.tileStep x w j)
    let cnt := w.f.count.toNat
    let h := cnt / 64
    let row := if cnt / 32 % 2 = 0 then (m + cnt % 32) % 32 else m ^^^ (cnt % 32)
    let fa := w.f.fmtA.toNat
    let kA := if fa = 4 then 256 else if fa ∈ [6, 7] then 64 else 128
    let code := fun (fmt at' i : Nat) => leNat (Memory.read c.rack at' 128) / 2 ^ (mxBits fmt * i) % 2 ^ mxBits fmt
    let el := fun (r i : Nat) => (mxFmt fa).decode (code fa (4096 * a + 128 * r) i)
    let wide := fun (v : FVal) => BitVec.ofNat 32 (FFmt.f32.encode .rne false v)
    (w.f.fmtA = 8 →
      (∀ b, w.op = 0x05 → x.b = some b → b.kclass = 128 → after =
        BitVec.ofInt 32 ((if w.f.flags.getLsbD 0 then 0 else (word c).toInt) + ((List.range 128).map fun i => byte a m i * byte b.slot n i).sum)) ∧
      (w.op = 0x06 → cnt < 4 → after = BitVec.ofInt 32 (if n < 32 then byte a n (32 * cnt + m) else 0)) ∧
      (w.op = 0x07 → h < 2 → after = BitVec.ofInt 32 (byte a row (64 * h + n))) ∧
      (w.op = 0x08 → h < 2 → after =
        BitVec.ofInt 32 (if m = 0 then ((List.range 32).map fun r => byte a r (64 * h + n)).sum else 0))) ∧
    (fa ∈ [0, 1, 2, 3, 4, 6, 7] →
      (w.op = 0x06 → cnt < kA / 32 → after = if n < 32 then wide (el n (32 * cnt + m)) else 0) ∧
      (w.op = 0x07 → h < kA / 64 → after = wide (el row (64 * h + n))) ∧
      (w.op = 0x08 → h < kA / 64 → fa ∈ [0, 2, 3, 4] → after =
        if m = 0 then wide (sumExact .rne ((List.range 32).map fun r => el r (64 * h + n))) else 0) ∧
      (∀ b, w.op = 0x05 → x.b = some b →
        let k := b.kclass
        let index := fun (i : Nat) => leNat (Memory.read c.rack (4096 * b.slot + k / 4 * n) (k / 4)) / 2 ^ (16 * (i / 8)) % 2 ^ 16
        let entry := fun (i : Nat) => leNat (Memory.read c.rack (4096 * (x.cb.getD 0) + 4 * (index i / 256)) 4)
        let nibble := fun (i : Nat) => (BitVec.ofNat 4 (entry i / 2 ^ (4 * (i % 8)))).toInt
        let col := fun (i : Nat) =>
          if b.fmt = 5 then ofInteger (if (index i).testBit (i % 8) then -nibble i else nibble i)
          else (mxFmt b.fmt).decode (code b.fmt (4096 * b.slot + 128 * n) i)
        let e8m0 := fun (p : Nat) => if Memory.get c.rack p = 0xFF then none else some (((Memory.get c.rack p).toNat : Int) - 127)
        let sa := fun (q : Nat) => if w.f.scale = 127 then some 0
          else e8m0 (4096 * (base + w.f.scale.toNat) + 32 * w.f.soff.toNat + j * k + k / 32 * m + q)
        let sb := fun (q : Nat) => match b.wscale with | none => some 0 | some p => e8m0 (p + 64 * q + n)
        after = BitVec.ofNat 32 ((List.range (k / 32)).foldl (fun d q =>
          mxBlock (fa == 6 || fa == 7) (w.f.flags.getLsbD 1) ((sa q).bind fun u => (sb q).map fun v => u + v)
            ((List.range 32).map fun i => mulExact (el m (32 * q + i)) (col (32 * q + i))) d)
          (if w.f.flags.getLsbD 0 then 0 else (word c).toNat))))) ∧
  ∀ (sat : Bool) (e : Int) (ps : List FVal) (d : Nat),
    let round := fun (v : FVal) => FFmt.f32.encode .rne (sat && !v.isInf) v
    let adds := fun (ps : List FVal) => round (sumExact .rne [FFmt.f32.decode d, FFmt.f32.decode (round (fscale (sumExact .rne ps) e))])
    mxBlock false sat (some e) ps d = adds ps ∧ mxBlock true sat none ps d = 0x7FC00000 ∧ mxBlock false sat none ps d = 0x7FC00000 ∧
    (topExp ps = none → mxBlock true sat (some e) ps d = adds ps) ∧
    ∀ top, topExp ps = some top → mxBlock true sat (some e) ps d = adds (ps.map (cutBelow (top - 40)))

/-! ## Barriers, fences, exchanges and the clocks -/

/-- R293, R294, R296, R322: the barrier instructions complete. An arrival counts one up, and the last participant's completes the phase, GEN one
up and departing; BARW of a completed phase counts one down, and the last departure opens the next phase; BAR does both where its arrival
completes the phase, else it waits, and departs when the phase is complete. At team scope one core's clock serves all. At cluster and
die scope an arrival raises the clock of the word's holder, the core of rank 0 or the die-barrier block, the completion carries that clock,
and a departure takes it. -/
def Obligations.BarriersComplete : Prop :=
  (∀ (s : State) (k fr : Nat) (g : Group) (f : YFields) (team : Team),
      let word := fun (t : State) => (t.barWord k g.launch 1 (yBarId f)).1
      let n := barCount (word s)
      let gen := barGen (word s)
      let left := barMake gen (decide (n - 1 ≠ 0)) (n - 1)
      let here := fun (i : Instr) => s.Ready i g ∧ k = s.iss.core ∧ fr = s.iss.frame ∧ yBarId f < g.hdr.barriers ∧
        ∀ x ∈ g.liveSlices, s.iss.mask.getLsbD x.val = true
      let ends := fun (r : Res) (p : State → Group → Prop) =>
        ∃ t h, r = .next t ∧ t.group? k fr = some h ∧ h.lanes = g.lanes ∧ h.scalars = g.scalars ∧ t.mem = s.mem ∧ t.reqs = s.reqs ∧ p t h
      yBarScope f = 1 → yBarId f < 16 → (s.core k).team? g.launch = some team → n + 1 < 2 ^ 12 →
      (here (.bara f) → s.canArrive g f = true → ends (exec (.bara f) s) fun t h => h.seq = g.seq + 1 ∧ h.waits = g.waits ∧
        word t = if team.live ≤ n + 1 then barMake (gen + 1) true (n + 1) else barMake gen false (n + 1)) ∧
      (here (.barw f) → barMode (word s) = true → ends (exec (.barw f) s) fun t h => h.seq = g.seq + 1 ∧ h.waits = g.waits ∧ word t = left) ∧
      (here (.barw f) → barMode (word s) = false → n = 0 → exec (.barw f) s = .next (s.faultHere .barFault (BitVec.ofNat 64 (yBarId f)))) ∧
      (here (.bar f) → s.canArrive g f = true →
        (team.live ≤ n + 1 → ends (exec (.bar f) s) fun t h => h.seq = g.seq + 1 ∧ h.waits = g.waits ∧
          word t = barMake (gen + 1) (decide (n ≠ 0)) n) ∧
        (n + 1 < team.live → ends (exec (.bar f) s) fun t h => h.waits = g.waits ++ [⟨s.iss, .bar f, g.seq, [1, 0], s.iss.nextIdx == 0, false⟩] ∧
          word t = barMake gen false (n + 1))) ∧
      (∀ (slice : Nat) (w : Wait), s.group? k fr = some g → g.waitOf slice = some w → w.instr = .bar f ∨ w.instr = .barw f →
        w.vals.headD 0 = 1 → g.waitsRun = true → (s.core k).stepping = [] → barMode (word s) = true →
        ends (exec (.barrierDepart k fr slice) s) fun t h => h.waits = g.waits.filter (fun x => !x.same w) ∧ word t = left)) ∧
  (∀ (s : State) (k fr : Nat) (g : Group) (f : YFields),
      let sc := yBarScope f
      let id := yBarId f
      let root := s.rootCore k g.launch
      let block := (s.die (dieOf k)).blocks.find? fun b => b.launch == g.launch
      let word := fun (t : State) => t.barWord k g.launch sc id
      let all := s.participants k g.launch sc
      let n := barCount (word s).1
      let gen := barGen (word s).1
      let left := (barMake gen (decide (n - 1 ≠ 0)) (n - 1), (word s).2)
      let mine := Nat.max (s.core k).clock g.ackmax
      let held := Nat.max (if sc = 2 then (s.core root).clock else ((block.map (·.clock)).getD 0)) mine
      let here := fun (i : Instr) => s.Ready i g ∧ k = s.iss.core ∧ fr = s.iss.frame ∧ id < g.hdr.barriers ∧
        ∀ x ∈ g.liveSlices, s.iss.mask.getLsbD x.val = true
      let ends := fun (r : Res) (p : State → Group → Prop) =>
        ∃ t h, r = .next t ∧ t.group? k fr = some h ∧ h.lanes = g.lanes ∧ h.scalars = g.scalars ∧ t.mem = s.mem ∧ t.reqs = s.reqs ∧ p t h
      let holder := fun (t : State) => if sc = 2 then (t.core root).clock = held
        else ∀ b ∈ (t.die (dieOf k)).blocks.find? (fun b => b.launch == g.launch), b.clock = held
      (sc = 2 ∧ id < 16 ∧ ((s.core root).team? g.launch).isSome ∨ sc = 3 ∧ id < 8 ∧ block.isSome) → n + 1 < 2 ^ 12 →
      (here (.bara f) → s.canArrive g f = true → ends (exec (.bara f) s) fun t h => h.waits = g.waits ∧ holder t ∧ (t.core k).clock = mine ∧
        word t = if all ≤ n + 1 then (barMake (gen + 1) true (n + 1), held) else (barMake gen false (n + 1), (word s).2)) ∧
      (here (.barw f) → barMode (word s).1 = true → ends (exec (.barw f) s) fun t h => h.waits = g.waits ∧ word t = left ∧
        (t.core k).clock = Nat.max (s.core k).clock (word s).2) ∧
      (here (.bar f) → s.canArrive g f = true →
        (all ≤ n + 1 → ends (exec (.bar f) s) fun t h => h.waits = g.waits ∧ (t.core k).clock = held ∧
          word t = (barMake (gen + 1) (decide (n ≠ 0)) n, held)) ∧
        (n + 1 < all → ends (exec (.bar f) s) fun t h => h.waits = g.waits ++ [⟨s.iss, .bar f, g.seq, [1, 0], s.iss.nextIdx == 0, false⟩] ∧
          holder t ∧ word t = (barMake gen false (n + 1), (word s).2))) ∧
      (∀ (slice : Nat) (w : Wait), s.group? k fr = some g → g.waitOf slice = some w → w.instr = .bar f ∨ w.instr = .barw f →
        w.vals.headD 0 = 1 → g.waitsRun = true → (s.core k).stepping = [] → barMode (word s).1 = true →
        ends (exec (.barrierDepart k fr slice) s) fun t h => h.waits = g.waits.filter (fun x => !x.same w) ∧ word t = left ∧
          (t.core k).clock = Nat.max (s.core k).clock (word s).2))

/-- R229, R300, R338, R417, R422: FENCE and XSWAP complete. A FENCE with nothing to wait for raises the clock to ACKMAX of a release and RDMAX
of an acquire, at fabric scope to FABMARK too; any other waits. Its release part goes on once its earlier writes are acknowledged, from die scope
up after the dirty words of leased ranges, which it sends home, and at fabric scope after the wait of WINFENCE, which may end in TIMESYNC; its
acquire part ends when its earlier loads have their data. XSWAP waits with what its lanes read, and two groups that name each
other with equal tags exchange: each participating lane pushes its partner lane's value, or its own where that lane takes no part. That
the entry is pushed at the match, and none is reserved at issue, is the model's reading (log entry 55). -/
def Obligations.FenceAndExchangeComplete : Prop :=
  ∀ (s : State) (k fr : Nat) (g : Group) (f : YFields), s.group? k fr = some g →
    let acquired := if yFenceScope f = .fabric then Nat.max g.rdmax s.fabmark else g.rdmax
    (s.Ready (.fence f) g → k = s.iss.core → fr = s.iss.frame → s.fenceFree k fr g f = true →
      ∃ t h, exec (.fence f) s = .next t ∧ t.group? k fr = some h ∧ h.lanes = g.lanes ∧ h.scalars = g.scalars ∧ t.mem = s.mem ∧
        t.reqs = s.reqs ∧ (t.core k).clock =
          Nat.max (Nat.max (s.core k).clock (if yFenceRel f then g.ackmax else 0)) (if yFenceAcq f then acquired else 0)) ∧
    (s.Ready (.fence f) g → k = s.iss.core → fr = s.iss.frame → s.fenceFree k fr g f = false →
      ∃ t h, exec (.fence f) s = .next t ∧ t.group? k fr = some h ∧ h.lanes = g.lanes ∧ h.scalars = g.scalars ∧ t.mem = s.mem ∧
        t.reqs = s.reqs ∧ h.waits = g.waits ++ [⟨s.iss, .fence f, g.seq, [], s.iss.nextIdx == 0, false⟩]) ∧
    (∀ slice w, g.waitOf slice = some w → w.instr = .fence f → g.status = .running → w.vals.length ≠ 3 → (s.core k).stepping = [] →
      let scope := yFenceScope f
      let wide := yFenceRel f = true ∧ 3 ≤ scope.code
      (yFenceRel f = true → s.earlierWrites k fr w.seq = false) →
      (wide → w.vals = [] →
        ∃ t h, exec (.fenceComplete k fr slice) s = .next t ∧ t.group? k fr = some h ∧ h.lanes = g.lanes ∧ t.mem = s.mem ∧
          h.waits = g.waits.map (fun x => if x.same w then { x with vals := [s.nextOp] } else x) ∧
          ∀ p ∈ (s.core k).dirtyLeased, ∃ q ∈ t.reqs, q.core = k ∧ q.op = s.nextOp ∧ q.kind = .store ∧ q.src = some (4 * p.2)) ∧
      ((wide → ∃ op, w.vals.head? = some op ∧ s.backsOut k op = false) →
        (yFenceRel f = true → scope = .fabric → s.winState k fr w.seq g = .timeSync →
          exec (.fenceComplete k fr slice) s = .next ((s.releaseDone k fr).faultWait k fr w .timeSync 0)) ∧
        ((yFenceRel f = true → scope = .fabric → s.winState k fr w.seq g = .done) →
          (yFenceAcq f = true → ∀ q ∈ s.reqs, q.core = k → q.frame = fr → q.kind = .load ∨ q.kind = .waitv ∨ q.isAtomic → w.seq ≤ q.seq) →
          ∃ t h, exec (.fenceComplete k fr slice) s = .next t ∧ t.group? k fr = some h ∧ h.lanes = g.lanes ∧ t.mem = s.mem ∧
            (t.core k).clock =
              Nat.max (Nat.max (s.core k).clock (if yFenceRel f then g.ackmax else 0)) (if yFenceAcq f then acquired else 0) ∧
            h.waits = g.waits.filter fun x => !x.same w))) ∧
    (∀ l, s.Ready (.xswap f) g → k = s.iss.core → fr = s.iss.frame → s.launch? g.launch = some l →
      let p := (g.scalar f.sidx.toNat).toNat
      p / 1024 ≠ g.cluster → p / 1024 < l.record.clusters → p % 1024 < l.record.groups → g.swapWait = none →
      ∃ t h, exec (.xswap f) s = .next t ∧ t.group? k fr = some h ∧ h.lanes = g.lanes ∧ h.scalars = g.scalars ∧ t.mem = s.mem ∧
        h.waits = g.waits ++ [⟨s.iss, .xswap f, g.seq, p / 1024 :: p % 1024 :: (g.activeMask s.iss.mask).toNat :: s.swapVals g f,
          s.iss.nextIdx == 0, false⟩]) ∧
    (∀ (k2 fr2 slice : Nat) (h : Group) (w w2 : Wait) (f2 : YFields) (m m2 : Nat) (v v2 : List Nat), s.group? k2 fr2 = some h →
      (k, fr) ≠ (k2, fr2) → g.swapWait = some (w, f) → h.swapWait = some (w2, f2) → w.iss.mask.getLsbD slice = true → g.status = .running →
      h.status = .running → (s.core k).stepping = [] → (s.core k2).stepping = [] → s.findGroup g.launch h.cluster h.index = some (k2, fr2, h) →
      w.vals = h.cluster :: h.index :: m :: v → w2.vals = g.cluster :: g.index :: m2 :: v2 → f.imm = f2.imm →
      let gives := fun (a : Group) (m m' : Nat) (v v' : List Nat) (l : Fin 32) =>
        if m.testBit l.val then a.lanes[l].emit (BitVec.ofNat 32 (if m'.testBit l.val then v'.getD l.val 0 else v.getD l.val 0)) else a.lanes[l]
      ∃ t a b, exec (.xswapMatch k fr slice) s = .next t ∧ t.group? k fr = some a ∧ t.group? k2 fr2 = some b ∧ t.mem = s.mem ∧
        (∀ l : Fin 32, a.lanes[l] = gives g m m2 v v2 l) ∧ (∀ l : Fin 32, b.lanes[l] = gives h m2 m v2 v l) ∧
        a.waits = g.waits.filter (fun x => !x.same w) ∧ b.waits = h.waits.filter fun x => !x.same w2)

/-- R149, R196, R211, R214, R259, R260, R339, R400: milestone counters, activation banks, clocks and SLEEP. MSINC whose address passes its
checks and overlaps no logged load sends one addition of 8 bytes; MSWAIT, which reads its scalars at issue, of a counter that has its value, with
no earlier write of the core to it under way, takes the counter's wts as its clock at least, at issue or when it reads
again; LDACT with the bank selected by no group puts the image into the bank, at issue or once the bank is free; ACTSEL selects a bank;
CLOCK and PTIME push the core's clock and package time; SLEEP keeps its slices from starting clauses until its cycles have passed. -/
def Obligations.CountersBanksAndClocksComplete : Prop :=
  ∀ (s : State) (g : Group) (f : YFields),
    let k := s.iss.core
    let fr := s.iss.frame
    let c := s.core k
    let a := g.yPair f 0
    let b := f.sub.toNat % 2
    let holds := fun (t : State) (bs : List Byte) => (∀ i < bankBytes, Memory.get ((t.core k).banks.toList.getD b []) i = bs.getD i 0) ∧
      (t.core k).banks.toList.getD (1 - b) [] = c.banks.toList.getD (1 - b) []
    let ends := fun (r : Res) (p : State → Group → Prop) =>
      ∃ t h, r = .next t ∧ t.group? k fr = some h ∧ h.lanes = g.lanes ∧ h.scalars = g.scalars ∧ t.mem = s.mem ∧ p t h
    (s.MemReady (.msinc f) g → s.yFault g .store a 8 8 = none → s.loggedOverlap g .global 8 [a] = [] → ends (exec (.msinc f) s) fun t _ =>
      s.Sends t [(33, .atomic .add false, a, 8, leBytes 8 (s.ySrc g Lane.start f))]) ∧
    (∀ a n t1 v wts lease, s.MemReady (.mswait f) g →
      (s.iss.kept = [] ∧ a = g.yPair f 0 ∧ n = (g.yPair f 2).toNat ∧ s.loggedOverlap g .global 8 [a] = [] ∨ s.iss.kept = [a.toNat, n] ∧ n < 2 ^ 64) →
      s.yFault g .load a 8 8 = none → s.counterBehind g a = false →
      s.readCounter k g.ctx g.priv a (s.leaseOf k g.ctx) c.clock = .ok (t1, v, wts, lease) → n ≤ v →
      ends (exec (.mswait f) s) fun t h => (t.core k).clock = Nat.max c.clock wts ∧ h.rdmax = Nat.max g.rdmax wts ∧ h.waits = g.waits) ∧
    (∀ slice w t1 v wts lease, s.group? k fr = some g → g.waitOf slice = some w → w.instr = .mswait f → g.status = .running →
      c.stepping = [] → (w.vals.getD 2 0 < c.clock ∨ w.vals.getD 2 0 = 0) →
      s.readCounter k g.ctx g.priv (BitVec.ofNat 64 (w.vals.getD 0 0)) (s.leaseOf k g.ctx) c.clock = .ok (t1, v, wts, lease) →
      w.vals.getD 1 0 ≤ v →
      ends (exec (.mswaitReread k fr slice) s) fun t h => (t.core k).clock = Nat.max c.clock wts ∧
        h.waits = g.waits.filter fun x => !x.same w) ∧
    (∀ bs, s.MemReady (.ldact f) g → (∀ p ∈ c.frames, p.2.ctx = g.ctx) → g.actBank ≠ b → s.yFault g .load a 16 bankBytes = none →
      c.bankHeld fr b = false → s.readV k g.ctx g.priv a bankBytes = .ok bs →
      ends (exec (.ldact f) s) fun t h => holds t bs ∧ h.waits = g.waits) ∧
    (∀ slice w bs, s.group? k fr = some g → g.waitOf slice = some w → w.instr = .ldact f → g.status = .running → c.stepping = [] →
      w.vals = [b, a.toNat] → c.bankHeld fr b = false → g.actBank ≠ b → s.readV k g.ctx g.priv a bankBytes = .ok bs →
      ends (exec (.ldactBankWrite k fr slice) s) fun t h => holds t bs ∧ h.waits = g.waits.filter (fun x => !x.same w) ∧
        ∀ x ∈ (t.core k).actWaits, ¬ (x.frame = fr ∧ x.bank = b)) ∧
    (s.Ready (.actsel f) g → (∀ x ∈ c.actWaits, x.bank = b → x.frame = fr) →
      exec (.actsel f) s = .next (s.finish { g with actBank := b })) ∧
    (s.Ready (.clock f) g → exec (.clock f) s = .next (s.pushed g fun _ _ => wordsOf true c.clock)) ∧
    (s.Ready (.ptime f) g → exec (.ptime f) s = .next (s.pushed g fun _ _ => wordsOf true s.ptime)) ∧
    (s.Ready (.sleep f) g → exec (.sleep f) s =
      .next (s.finish (g.mapSlices s.iss.mask fun _ sl => { sl with wake := s.cycle + f.imm.toNat }))) ∧
    (∀ slice : Fin 8, s.group? k fr = some g → g.slices[slice].wake ≤ s.cycle →
      ends (exec (.sleepEnd k fr slice.val) s) fun _ h => h.slices[slice] = { g.slices[slice] with wake := 0 } ∧
        ∀ j : Fin 8, j ≠ slice → h.slices[j] = g.slices[j])

/-! ## Scheduling, launches and completion -/

/-- R190 to R194, R334, R355, R377: CLAUSE_START. A free slot none of whose gangs faults at its header gives itself to the clause-ready
gang that it picks: it holds that gang at the clause's next instruction, the clause fetched whole, and issues next; the gang's rotation place
is kept where the rotation decided, and its team's starved count and raised priority are taken back. The clock creeps by one; 20,000,000
starved cycles raise a team's priority by one, to 3 at most, before another cycle begins. A cycle that passes moves package time while its clock runs, and no byte. -/
def Obligations.SchedulingEvents : Prop :=
  ∀ (s : State) (k slot : Nat),
    (∀ (g : Group) (gang : Gang) (rotated : Bool) (e : CodeEntry) (h : Header) (ws : List Word) (team : Team),
      let ready := (s.slotGangs k slot).filter fun p => s.clauseReady k p
      let was := (s.core k).slots.toList.getD slot default
      let sl := g.lead gang.mask
      s.slotFree k slot = true → (∀ p ∈ (s.core k).served slot, s.dueNow k p.2 = none) →
      (∀ p ∈ s.slotGangs k slot, ∃ x, s.headerOf k p.1 p.2 = .ok x) →
      s.pick k slot ready = some ((g, gang), rotated) → s.headerOf k g gang = .ok (e, h) →
      (s.clearYields k ready).fetchClause k g.ctx g.priv e sl.pc h.count.toNat = .ok ws → sl.iidx < h.count.toNat →
      (s.core k).team? g.launch = some team →
      ∃ t d team', exec (.clauseStart k slot) s = .next t ∧ t.mem = s.mem ∧ t.reqs = s.reqs ∧ t.agenda = .issue k slot :: s.agenda ∧
        (t.core k).slots.toList.getD slot default = { was with
          hold := some d, rotFrame := if rotated then gang.frame else was.rotFrame,
          rotSlice := if rotated then lowSlice gang.mask else was.rotSlice } ∧
        d.frame = gang.frame ∧ d.mask = gang.mask ∧ d.clause = sl.pc ∧ d.hdr = h ∧ d.idx = sl.iidx ∧
        (sl.iidx = 0 → d.pc = sl.pc + 8 ∧ d.words = ws) ∧
        d.clauseEnd = sl.pc + BitVec.ofNat 64 (4 * (2 + ws.length + ws.length % 2)) ∧
        (t.core k).team? g.launch = some team' ∧ team'.prio = team.prio ∧ team'.promo = 0 ∧ team'.starved = 0) ∧
    (∃ t, exec (.clockCreep k) s = .next t ∧ t.mem = s.mem ∧ (t.core k).clock = (s.core k).clock + 1 ∧ (t.core k).frames = (s.core k).frames ∧
      ∀ j, j ≠ k → t.core j = s.core j) ∧
    (∀ launch team, (s.core k).team? launch = some team →
      ∃ t team', exec (.priorityPromotion k launch) s = .next t ∧ (t.core k).team? launch = some team' ∧ t.mem = s.mem ∧
        team'.prio = team.prio ∧ (team'.prio + team'.promo =
          if 20000000 ≤ team.starved ∧ team.prio + team.promo < 3 then team.prio + team.promo + 1 else team.prio + team.promo) ∧
        (20000000 ≤ team.starved → team'.starved = 0)) ∧
    (∀ j c team, (j, c) ∈ s.passTime.cores → team ∈ c.teams → 20000000 ≤ team.starved →
      .event (.priorityPromotion j team.launch) ∈ s.passTime.agenda) ∧
    s.passTime.mem = s.mem ∧ s.passTime.reqs = s.reqs ∧ s.passTime.cycle = s.cycle + 1 ∧
    (s.clockStop = true → s.passTime.ptime = s.ptime) ∧ (s.clockStop = false → s.passTime.ptime = s.ptime + (s.ptimeSub + 1) / 2)

/-- R15, R18, R22, R28, R183, R390, R394 to R396, R400: launch records and placement. A LAUNCH with nothing to release and a sound record whose milestone is
none, with none of its group before it that waits still, hands it over, and the pass of a served queue takes the sound record at its HEAD: a launch with nothing placed is added. A record whose
milestone is reached is accepted, and until then it waits; its counter is read again once the lease of the last read has lapsed;
one whose entry lies in an object that is to be unloaded is refused. Clearing a queue's STATUS writes zero to its word; that the request to unload
an object comes to the pass in the same way is the model's choice (log entry 90). A cluster that may be placed
on a set of cores, with no launch before it, is placed: on each of them every group dealt to it stands in a frame that was free, its slices at the entry
with every lane active, its trail cleared, its scalars holding the arguments' address, its index and its cluster. -/
def Obligations.LaunchesAreTakenAndPlaced : Prop :=
  (∀ (s : State),
      let added := fun (t : State) (r : LaunchRec) (h : KHeader) (bank : List Byte) => ∃ l, t.launches = s.launches ++ [l] ∧ l.record = r ∧
        l.hdr = h ∧ l.bank = bank ∧ l.next = 0 ∧ l.live = 0 ∧ l.stopped = false
      (∀ (g : Group) (f : YFields) (a : DWord) (bs : List Byte) (r : LaunchRec) (h : KHeader) (bank : List Byte),
        let k := s.iss.core
        let s1 := s.releaseDone k s.iss.frame
        s.MemReady (.launch f) g → (s.iss.kept = [] ∧ a = g.yPair f 0 ∨ s.iss.kept = [a.toNat]) → s.yFault g .load a 64 64 = none → s.earlierWrites k s.iss.frame (g.seq + 1) = false →
        (s.core k).dirtyLeased = [] → s.backsOut k s.nextOp = false → s1.readV k g.ctx g.priv a 64 = .ok bs →
        (s1.noteRecord k g.ctx a bs).checkRecord k g.ctx a bs = .ok r h bank → r.waitAddr = 0 →
        (∀ p ∈ s.passRecs, p.src ≠ some (g.launch, g.cluster, g.index)) →
        ∃ t x, exec (.launch f) s = .next t ∧ t.group? k s.iss.frame = some x ∧ x.lanes = g.lanes ∧ x.scalars = g.scalars ∧ t.mem = s.mem ∧
          added t r h bank) ∧
      (∀ (ctx q : Nat) (d bs : List Byte) (r : LaunchRec) (h : KHeader) (bank : List Byte),
        let k := passKey (s.leadDie ctx)
        let priv := s.privCtx.contains ctx
        let addr : DWord := BitVec.ofNat 64 (fieldOf d 0 8 + 64 * (fieldOf d 0x18 8 % fieldOf d 8 4))
        q < 16 → (s.ctxField ctx 0x28 2).testBit q = true → (∀ p ∈ s.passRecs, p.record.ctx = ctx → p.queue.map (·.1) ≠ some q) →
        s.readV k ctx priv (BitVec.ofNat 64 (s.queueAddr ctx q)) 32 = .ok d → fieldOf d 0x0C 1 = 0 →
        (fieldOf d 0x10 8 ≤ fieldOf d 0x18 8 → exec (.queueTailUpdate ctx q) s = .next s) ∧
        (fieldOf d 0x18 8 < fieldOf d 0x10 8 → fieldOf d 0x10 8 - fieldOf d 0x18 8 ≤ fieldOf d 8 4 → s.readV k ctx priv addr 64 = .ok bs →
          ((s.notePages k ctx (BitVec.ofNat 64 (s.queueAddr ctx q)) 32).noteRecord k ctx addr bs).checkRecord k ctx addr bs = .ok r h bank → r.waitAddr = 0 →
          ∃ t, exec (.queueTailUpdate ctx q) s = .next t ∧ added t r h bank)) ∧
      (∀ (id : Nat) (p : PassRec) (s1 : State) (wts lease : Nat), s.passRecs.find? (fun p => p.id == id) = some p → p.queue = none →
        (s.unloading p.record.ctx p.record.entry.toNat = true → ∃ t, exec (.passMilestoneReread id) s = .next t ∧ t.launches = s.launches ∧
          t.mem = s.mem ∧ t.passRecs = s.passRecs.filter (fun x => x.id != id) ∧ t.reports = s.reports ++ [.launchErr p.record.addr]) ∧
        (s.unloading p.record.ctx p.record.entry.toNat = false → (∀ q ∈ s.passRecs, q.id < id → q.src ≠ p.src) → s.passBefore p.die id < 256 →
        (p.lease ≠ 0 → (s.core (passKey p.die)).clock ≤ p.lease → exec (.passMilestoneReread id) s = .next s) ∧
        (p.lease < (s.core (passKey p.die)).clock → s.passCounter p.die p.record = .ok (s1, false, wts, lease) →
          ∃ t, exec (.passMilestoneReread id) s = .next t ∧ t.launches = s.launches ∧ t.mem = s.mem ∧
            t.passRecs = s.passRecs.map fun x => if x.id = id then { x with lease := lease } else x) ∧
        (p.lease < (s.core (passKey p.die)).clock → s.passCounter p.die p.record = .ok (s1, true, wts, lease) →
          ∃ t bank, exec (.passMilestoneReread id) s = .next t ∧ t.passRecs = s.passRecs.filter (fun x => x.id != id) ∧ t.mem = s.mem ∧
            added t p.record p.hdr bank))) ∧
      (∀ (ctx lo hi : Nat), ∃ t, exec (.queueStatusClear ctx (.unload lo hi)) s = .next t ∧ t.mem = s.mem ∧ t.launches = s.launches ∧
        ∀ entry, lo ≤ entry → entry < hi → t.unloading ctx entry = true) ∧
      (∀ (ctx q : Nat) (e : TlbEntry),
        let a : DWord := BitVec.ofNat 64 (s.queueAddr ctx q + 0x0C)
        let pa := e.pa a
        q < 16 → (s.ctxField ctx 0x28 2).testBit q = true → a.toNat % 128 ≤ 124 → Memory.wf s.mem = true →
        s.translate (passKey (s.leadDie ctx)) none ctx (s.privCtx.contains ctx) .store a = .ok e → s.hostLine pa = false →
        e.tracked pa = none →
        (∀ j < 4, s.migrated (pa + j) = none ∧ s.place (pa + j) = pa + j) →
        ∃ t, exec (.queueStatusClear ctx (.clear q)) s = .next t ∧ t.launches = s.launches ∧
          ∀ x, Memory.get t.mem x = if pa ≤ x ∧ x < pa + 4 then 0 else Memory.get s.mem x)) ∧
  (∀ (s : State) (a : PlaceArgs) (l : Launch), s.launch? a.launch = some l → l.stopped = false → l.next < l.record.clusters →
      l.record.dieMask.getLsbD (dieOf (a.cores.headD 0)) = true → a.cores ∈ s.rects (dieOf (a.cores.headD 0)) l.hdr → s.fits l a.cores = true →
      (s.launches.any fun m => m.before l && s.placeable m) = false →
      ∃ t l', exec (.clusterPlace a) s = .next t ∧ t.mem = s.mem ∧ t.launch? l.id = some l' ∧ l'.next = l.next + 1 ∧
        l'.live = l.live + l.record.groups ∧
        (a.cores.Nodup → ∀ r < a.cores.length, ∀ i ∈ dealt l.record.groups a.cores.length r,
          let k := a.cores.getD r 0
          ∃ (fr : Nat) (g : Group), s.group? k fr = none ∧ t.group? k fr = some g ∧ g.index = i ∧ g.status = .running ∧
            (∀ n : Fin 32, g.lanes[n] = Lane.start) ∧
            (∀ n : Fin 8, g.slices[n].pc = l.record.entry ∧ g.slices[n].iidx = 0 ∧ g.slices[n].active = 0xF ∧ g.slices[n].exited = 0 ∧
              g.slices[n].depth = 0 ∧ g.slices[n].dvtop = 63) ∧ g.splitOf 0 = 0xFF ∧
            g.scalar64 0 = l.record.args ∧ g.scalar 2 = BitVec.ofNat 32 i ∧ g.scalar 3 = BitVec.ofNat 32 l.next ∧
            ∀ j, 4 ≤ j → g.scalar j = 0))

/-- R27, R233, R265, R397: the end of a launch. A group whose lanes have all exited, with nothing outstanding, retires: its frame is free and
its claims are given up; a team leaves its core once its cluster has no group left (the model's choice, log entry 61); a launch with every group retired and no team left
completes, adding to its done milestone at its home and interrupting the host where its record says so; Sundoc's end of a stopped launch
takes it away with nothing added. -/
def Obligations.LaunchesEnd : Prop :=
  ∀ (s : State),
    (∀ (k fr : Nat) (g : Group) (team : Team) (l : Launch), s.group? k fr = some g → g.liveSlices = [] → g.status = .running →
      (∀ q ∈ s.reqs, q.core = k → q.frame = fr → q.isWrite = false) →
      (∀ h ∈ (s.core k).handles, h.2.owner = fr → h.2.state ≠ .running ∧ h.2.state ≠ .paused) → (s.core k).workOf fr = false →
      (s.core k).team? g.launch = some team → s.launch? g.launch = some l →
      ∃ t team' l', exec (.groupRetire k fr) s = .next t ∧ t.group? k fr = none ∧ t.mem = s.mem ∧ (∀ p ∈ (t.core k).claims, p.2 ≠ fr) ∧
        (t.core k).team? g.launch = some team' ∧ team'.live = team.live - 1 ∧ t.launch? g.launch = some l' ∧ l'.live = l.live - 1) ∧
    (∀ (k launch : Nat) (team : Team), (s.core k).team? launch = some team → team.live = 0 → (∀ p ∈ team.peers, s.liveOn p launch = 0) →
      (∀ q ∈ s.reqs, q.core = k → q.frame = 64 → q.wb ≠ some launch) → team.preempting = false →
      ∃ t, exec (.teamLeave k launch) s = .next t ∧ ((∀ b ∈ (s.die (dieOf k)).blocks, b.launch ≠ launch) → t.mem = s.mem) ∧
        (t.core k).team? launch = none ∧ (t.core k).frames = (s.core k).frames) ∧
    (∀ (id : Nat) (l : Launch), s.launch? id = some l → l.next = l.record.clusters → l.live = 0 → l.stopped = false →
      (∀ p ∈ s.cores, p.2.team? id = none) → (∀ v ∈ s.saved, v.launch ≠ id) →
      ∃ t, exec (.launchComplete id) s = .next t ∧ t.launch? id = none ∧ t.interrupts = (if l.record.intr then s.interrupts ++ [id] else s.interrupts) ∧
        (l.record.doneAddr = 0 → t.mem = s.mem) ∧
        ∀ e, l.record.doneAddr ≠ 0 → Memory.wf s.mem = true →
          (s.raiseClock (passKey l.lead) l.maxClock).translate (passKey l.lead) none l.record.ctx (s.privCtx.contains l.record.ctx) .store l.record.doneAddr = .ok e →
          let pa := e.pa l.record.doneAddr
          pteDev e.pte = false → s.poisoned pa 8 = false → s.hostLine pa = false → e.tracked pa = none →
          (∀ j < 8, s.migrated (pa + j) = none ∧ s.place (pa + j) = pa + j) →
          leNat (Memory.read t.mem pa 8) = (leNat (Memory.read s.mem pa 8) + l.record.doneInc.toNat) % 2 ^ 64 ∧
            ∀ x, x < pa ∨ pa + 8 ≤ x → Memory.get t.mem x = Memory.get s.mem x) ∧
    (∀ (id : Nat) (l : Launch), s.launch? id = some l → l.stopped = true →
      (∀ q ∈ s.reqs, ∀ g, s.group? q.core q.frame = some g → g.launch = id → q.isWrite = false) →
      (∀ p ∈ s.cores, ∀ h ∈ p.2.handles, h.2.launch = id → h.2.state ≠ .running) →
      ∃ t, exec (.endLaunch id) s = .next t ∧ t.launch? id = none ∧ t.mem = s.mem ∧ t.interrupts = s.interrupts ∧
        ∀ k fr g, s.group? k fr = some g → g.launch = id → t.group? k fr = none)

/-! ## The debugger, the fault service and pre-emption -/

/-- R176, R177, R216, R221, R262, R264, R265, R269, R278: what the debugger and Sundoc do to a group whose launch has not been stopped and
whose team is not being pre-empted. A halt stops the target group, its waits abandoned, and with ALLSTOP in an attached context every
running group of it on the die; one that waits for the fault service stops once it is answered; a step is armed for the group that is the target then, and starts when that group, halted or stopped, is resumed; a resumed group runs again, after
a fault of kind P at the faulting instruction, or past it with SKIP; a repaired page lets the group go on, an invalid one leaves it its
fault; an uncorrectable soft error leaves ECC for the splits it struck, a corrected one is counted by the core. Choices of the model, not of
the rules: an answer of the fault service names a group by its frame, a number below 64, and SKIP of a resumed fault is an argument of the
resume (log entry 67); ALLSTOP reaches a context through any core of the die attached to it (log entry 15); a corrected soft error is counted
by the core of its group, where R262 has the die count it and R363 names a core's counter (log entry 63). -/
def Obligations.StopsAndResumes : Prop :=
  ∀ (s : State) (k fr : Nat) (g : Group), s.group? k fr = some g →
    let same := fun (t : State) (h : Group) => t.group? k fr = some h ∧ h.lanes = g.lanes ∧ h.scalars = g.scalars ∧ t.mem = s.mem
    let steps := fun (t : State) => fr ∈ (s.core k).stepArmed →
      (Sparse.get? (t.core k).stepping fr).isSome ∧ fr ∉ (t.core k).stepArmed
    let kept := ((s.core k).team? g.launch).any (·.preempting) = false
    (g.status = .running → (s.core k).target = fr →
      ∃ t h, exec (.dbgHalt k) s = .next t ∧ same t h ∧ h.status = .debug ∧ h.fault = none ∧ (g.waits = [] → h.slices = g.slices) ∧
        ((s.core k).dbgctl.getLsbD 0 = true → (s.core k).dbgctl.getLsbD 1 = true →
          ∀ (j m : Nat) (x : Group), (j, m) ≠ (k, fr) → (Sparse.get? s.cores j).isSome → s.group? j m = some x → x.status = .running → x.ctx = g.ctx →
            dieOf j = dieOf k → x.waits = [] → t.group? j m = some { x with status := .debug, fault := none, drainFault := false })) ∧
    (g.status = .service → (s.core k).target = fr →
      ∃ t h, exec (.dbgHalt k) s = .next t ∧ same t h ∧ h.status = .service ∧ h.halted = true ∧ h.fault = g.fault ∧ h.slices = g.slices) ∧
    (∀ r, fr < 64 → g.status = .service → g.fault = some r → r.kind ≠ .L → g.halted = true →
      ∃ t h, exec (.faultServiceAnswer k fr true) s = .next t ∧ same t h ∧ h.status = .debug ∧ h.slices = g.slices) ∧
    (∃ t, exec (.dbgStep k) s = .next t ∧ t.mem = s.mem ∧ t.group? k fr = some g ∧ (s.core k).target ∈ (t.core k).stepArmed ∧
      ∀ x ∈ (s.core k).stepArmed, x ∈ (t.core k).stepArmed) ∧
    (∀ skip, g.status = .debug → g.fault = none → s.runStatus k g = .running →
      ∃ t h, exec (.groupResume k fr skip) s = .next t ∧ same t h ∧ h.status = .running ∧ h.slices = g.slices ∧ steps t) ∧
    (∀ skip nested hfail r, ∀ i : Fin 8, g.status = .faulted nested hfail → g.fault = some r → r.kind = .P → r.slice = i.val → g.halted = false → kept →
      ∃ t h, exec (.groupResume k fr skip) s = .next t ∧ same t h ∧ h.status = .running ∧ h.fault = none ∧ steps t ∧
        ∀ j : Fin 8, h.slices[j] = if (g.splitOf i).getLsbD j.val then
          { g.slices[j] with iidx := if skip then g.slices[j].iidx + 1 else g.slices[j].iidx } else g.slices[j]) ∧
    (∀ r, fr < 64 → g.status = .service → g.fault = some r → s.runStatus k g = .running →
      (r.kind ≠ .L → exec (.faultServiceAnswer k fr true) s =
        .next (s.setGroup k fr { g with status := .running, fault := none, drainFault := false })) ∧
      (r.cause = .page → g.hdr.trapMode = 0 → (∀ i : Fin 8, g.slices[i].handler = false) →
        ∃ t h, exec (.faultServiceAnswer k fr false) s = .next t ∧ same t h ∧ h.status = .faulted false false ∧ h.fault = some r ∧
          t.reports = s.reports ++ [.groupFault g.launch g.cluster g.index r])) ∧
    (∃ t, exec (.softError k fr 0) s = .next t ∧ t.group? k fr = some g ∧ t.mem = s.mem ∧ (t.core k).corrected = (s.core k).corrected + 1) ∧
    (∀ mask : BitVec 8, mask ≠ 0 →
      ∃ t h m, exec (.softError k fr mask) s = .next t ∧ same t h ∧ h.slices = g.slices ∧ h.async = g.async ++ [⟨.ecc, 0, m⟩] ∧ m &&& mask = mask)

/-- R34, R270, R271, R274, R275, R277: pre-emption and restore. A request stops every running group of the cluster's teams, and takes the record
addresses that Sundoc gives with it. When all have drained SAVE_RECORDS keeps the cluster as saved and its teams leave their cores: of a
cluster of one core with one group the group's record, its call stack and the core record are stored, in this order, at the addresses of
the team, from the state in which the group stands at its resume points. Records of a group that a fault has stopped are written with its
frame kept. A part of a record that lies in one line is stored byte by byte at its home, and no other byte changes. A restore onto cores that
hold nothing and form the cluster's shape reads the core records and puts each team on its core by rank, with a group in each frame that its
record has saved; a group without a fault of the drain holds the HEAD, NET, trail and pantry of each lane, the scalars, the flags and the
slices that its record gives. That Sundoc names the index of a restored group, which no record holds, that its account keeps the window of remote writes and the faults of trap
records, which have no field for them, and that a part without the unit of work in a record does not take it, are the model's choices (log
entries 66, 43 and 101). -/
def Obligations.PreemptionAndRestore : Prop :=
  ∀ (s : State) (launch cluster : Nat) (recs : Option RecAddrs),
    let ks := s.clusterCores launch cluster
    (∀ k fr g team, k ∈ ks → s.group? k fr = some g → g.launch = launch → g.status = .running → (s.core k).team? launch = some team →
      ∃ t h team', exec (.preemptRequest launch ⟨cluster, recs⟩) s = .next t ∧ t.group? k fr = some h ∧ h.status = .preempt ∧
        h.lanes = g.lanes ∧ h.scalars = g.scalars ∧ t.mem = s.mem ∧ (t.core k).team? launch = some team' ∧ team'.preempting = true ∧
        ∀ r, recs = some r → team'.coreRec = r.cores.getD team.rank 0 ∧ team'.grpRecs = r.groups.getD team.rank []) ∧
    (ks ≠ [] → (∀ k ∈ ks, ∃ team, (s.core k).team? launch = some team ∧ team.preempting = true) → s.clusterDrained launch ks = true →
      ∃ t v, exec (.saveRecords launch ⟨cluster, recs⟩) s = .next t ∧ t.saved = s.saved ++ [v] ∧ v.launch = launch ∧ v.cluster = cluster ∧
        (∀ k ∈ ks, (t.core k).team? launch = none ∧ ∀ fr g, s.group? k fr = some g → g.launch = launch → t.group? k fr = none) ∧
        ∀ k fr g l team, ks = [k] → s.group? k fr = some g → (s.core k).groupsOf launch = [(fr, g)] → s.launch? launch = some l → l.record.ctx = g.ctx →
          (s.core k).team? launch = some team → (∀ b ∈ (s.die (dieOf k)).blocks, b.launch ≠ launch) →
          let u := ((s.settleNest k launch).settleEngines k launch).settleGroup k fr
          (∃ n, v.notes = [n] ∧ n.rank = 0 ∧ n.frame = fr ∧ ∃ x, u.group? k fr = some x ∧ n.win = x.fabWin ∧
            ∀ p ∈ x.traps, ∃ q ∈ n.traps, q.1 = p.1 ∧ q.2.kind = p.2.kind ∧ q.2.cause = p.2.cause ∧ q.2.addr = p.2.addr ∧ q.2.pc = p.2.pc) ∧
          ∃ x team', u.group? k fr = some x ∧ (u.core k).team? launch = some team' ∧ team'.grpRecs = team.grpRecs ∧ team'.coreRec = team.coreRec ∧
            (∀ n : Fin 32, x.lanes[n].head = g.lanes[n].head ∧ x.lanes[n].trail = g.lanes[n].trail ∧
              x.lanes[n].net = g.lanes[n].net ∧ x.lanes[n].pantry = g.lanes[n].pantry) ∧
            (x.badBytes (team.grpRecs.getD fr 0) = [] → (u.core k).scratchPoison = [] → (u.core k).rackPoison = [] →
              let w := (u.storeRec k g.ctx (team.grpRecs.getD fr 0) (u.groupPieces k fr x)).storeRec k g.ctx x.csp x.stackPieces
              t.mem = (w.storeRec k g.ctx team.coreRec ((w.core k).pieces team' g.ctx
                fun l => team'.peers.contains l.core && w.lockOf launch l)).mem)) ∧
    (∀ k fr g team nested hfail, ks = [k] → s.group? k fr = some g → (s.core k).groupsOf launch = [(fr, g)] → (s.core k).team? launch = some team →
      team.preempting = false → g.status = .faulted nested hfail → s.groupDrained k fr g = true → g.waits = [] →
      let u := s.settleGroup k fr
      ∃ t h x, exec (.saveRecords launch ⟨cluster, none⟩) s = .next t ∧ t.saved = s.saved ∧ t.group? k fr = some h ∧ h.status = g.status ∧
        u.group? k fr = some x ∧ x.lanes = g.lanes ∧ x.scalars = g.scalars ∧
        (x.badBytes (team.grpRecs.getD fr 0) = [] →
          t.mem = ((u.storeRec k g.ctx (team.grpRecs.getD fr 0) (u.groupPieces k fr x)).storeRec k g.ctx x.csp x.stackPieces).mem)) ∧
    (∀ (k ctx off : Nat) (base : DWord) (bs : List Byte) (e : TlbEntry),
      let a := base + BitVec.ofNat 64 off
      let pa := e.pa a
      bs ≠ [] → a.toNat % 128 + bs.length ≤ 128 → Memory.wf s.mem = true → s.translate k none ctx true .store a = .ok e →
      s.hostLine pa = false → e.tracked pa = none → (∀ j < bs.length, s.migrated (pa + j) = none ∧ s.place (pa + j) = pa + j) →
      ∀ x, Memory.get (s.storeRec k ctx base [(off, bs)]).mem x = if pa ≤ x ∧ x < pa + bs.length then bs.getD (x - pa) 0 else Memory.get s.mem x) ∧
    ((∃ k ∈ ks, ∃ team, (s.core k).team? launch = some team ∧ team.preempting = false) →
      ∃ t, exec (.saveRecords launch ⟨cluster, recs⟩) s = .next t ∧ t.saved = s.saved ∧
        ∀ k fr g, s.group? k fr = some g → ∃ h, t.group? k fr = some h ∧ h.status = g.status ∧ h.lanes = g.lanes ∧ h.scalars = g.scalars) ∧
    (∀ (a : RestoreArgs) (l : Launch) (v : Saved) (core : Nat → List Byte) (note : GroupNote), a.launch = launch → a.cluster = cluster → a.foreign = none →
      s.launch? launch = some l → s.saved.find? (fun v => v.launch == launch && v.cluster == cluster) = some v → a.cores.Nodup →
      (∀ k ∈ a.cores, (s.core k).frames = [] ∧ (s.core k).teams = [] ∧ (s.core k).retired = false) →
      a.cores ∈ s.rects (dieOf (a.cores.headD 0)) l.hdr → s.blockAllows l v.die (dieOf (a.cores.headD 0)) = true →
      s.broughtUp = true → (∀ r < a.cores.length, s.recUnit (core r) = false) →
      (∀ r < a.cores.length, (∃ bs, s.readRec (a.cores.getD r 0) l.record.ctx (a.recs.cores.getD r 0)
          (recRackOff l.hdr.scratch + 4096 * l.hdr.rack) = some bs ∧ bs.map (·.1) = core r) ∧ recFits a.cores.length r (core r) = true) →
      ∃ t, exec (.restore a) s = .next t ∧ (∀ x ∈ t.saved, ¬ (x.launch = launch ∧ x.cluster = cluster)) ∧
        ∀ r < a.cores.length, ∃ team, (t.core (a.cores.getD r 0)).team? launch = some team ∧ team.rank = r ∧ team.peers = a.cores ∧
          team.cluster = cluster ∧ team.live = (recFrames (core r)).length ∧
          ∀ fr ∈ recFrames (core r), ∃ g, t.group? (a.cores.getD r 0) fr = some g ∧ g.launch = launch ∧
            g.index = (a.indexes.getD r []).getD fr 0 ∧
            ∀ rs, s.readRec (a.cores.getD r 0) l.record.ctx ((a.recs.groups.getD r []).getD fr 0) (0x2000 + 128 * l.hdr.pantry) = some rs →
              (∀ q < a.cores.length, ∀ i < 16, byteAt (core q) (0x710 + 32 * i) ≠ 1) →
              let b := rs.map (·.1)
              fieldOf b 6 2 / 16 % 2 = 0 →
              (v.notes.find? (fun n => n.rank == r && n.frame == fr) = some note → g.fabWin = note.win ∧
                ∀ p ∈ note.traps, ∃ q ∈ g.traps, q.1 = p.1 ∧ q.2.kind = p.2.kind ∧ q.2.cause = p.2.cause ∧ q.2.addr = p.2.addr ∧ q.2.pc = p.2.pc) ∧
              (∀ i : Fin 32, g.lanes[i].head = BitVec.ofNat 5 (byteAt b (0x100 + 2 * i.val)) ∧
                g.lanes[i].net = BitVec.ofNat 8 (byteAt b (0x101 + 2 * i.val)) ∧
                (∀ e : Fin 32, g.lanes[i].trail[e] = BitVec.ofNat 32 (fieldOf b (0x1000 + 128 * i.val + 4 * e.val) 4)) ∧
                ∀ j : Fin 64, j.val < l.hdr.pantry → g.lanes[i].pantry[j] = BitVec.ofNat 32 (fieldOf b (0x2000 + 128 * j.val + 4 * i.val) 4)) ∧
              (∀ j < 96, g.scalar j = BitVec.ofNat 32 (fieldOf b (0x140 + 4 * j) 4)) ∧ (∀ j : Fin 12, (g.flags[j]) = byteAt b (0x2C0 + j.val)) ∧
              ∀ i : Fin 8, g.slices[i].pc = BitVec.ofNat 64 (fieldOf b (8 + 8 * i.val) 8) ∧ g.slices[i].iidx = byteAt b (0x68 + i.val) ∧
                g.slices[i].active = BitVec.ofNat 4 (byteAt b (0x48 + 4 * i.val)) ∧
                g.slices[i].exited = BitVec.ofNat 4 (byteAt b (0x48 + 4 * i.val) / 16) ∧ g.slices[i].depth = fieldOf b (0x4A + 4 * i.val) 2 ∧
                g.slices[i].dvtop = BitVec.ofNat 6 (byteAt b (0x49 + 4 * i.val)))

/-! ## The package -/

/-- R337, R374 to R376: rebasing and shoot-downs. Once a clock has reached B + 2^31 a rebase lifts every clock, the timestamps of every line
that a slice holds, and the slices' EVW and EVR, to the new B at least and counts itself; before that it does nothing. That the copies of L1s
and remote-data caches keep their timestamps is the model's choice (log entry 68). The first shoot-down sweeps the translations of its page out of every
core and die, and ends when the accesses it waits for are done. No byte changes. -/
def Obligations.RebasingAndShootdowns : Prop :=
  ∀ (s : State),
    (s.topClock < s.base + 2 ^ 31 → exec .rebase s = .next s) ∧
    (s.base + 2 ^ 31 ≤ s.topClock →
      ∃ t, exec .rebase s = .next t ∧ t.mem = s.mem ∧ t.base = s.base + 2 ^ 30 ∧ t.epoch = s.epoch + 1 ∧ t.rebases = s.rebases + 1 ∧
        (∀ k ∈ s.everyCore, (t.core k).clock = Nat.max (s.core k).clock t.base) ∧
        (∀ d ∈ s.fittedDies, ∀ n : Fin 24, (t.die d).evw[n] = Nat.max t.base (s.die d).evw[n] ∧ (t.die d).evr[n] = Nat.max t.base (s.die d).evr[n] ∧
          (t.die d).rdc = (s.die d).rdc) ∧
        (∀ k, (t.core k).l1 = (s.core k).l1) ∧ ∀ p ∈ t.lines, t.base ≤ p.2.wts ∧ t.base ≤ p.2.rts) ∧
    (∀ x xs, s.shoots = x :: xs →
      (x.started = false →
        ∃ t, exec (.shootdown x.src) s = .next t ∧ t.mem = s.mem ∧
          t.shoots = { x with started := true, pending := (s.reqs.filter x.waitsFor).map (·.id) } :: xs ∧
          (∀ p ∈ t.cores, (∀ e ∈ p.2.tlb, x.entry e = false) ∧ ∀ e ∈ p.2.lastPage, x.entry e.2 = false) ∧
          (∀ p ∈ t.dies, ∀ e ∈ p.2.tlb, x.entry e = false) ∧
          ∀ k c, Sparse.get? s.cores k = some c → (t.core k).sdgen = c.sdgen + 1) ∧
      (x.started = true → (∀ r ∈ s.reqs, r.id ∉ x.pending ∧ (r.stage = .walk → r.sdgen = (s.core r.core).sdgen)) →
        (∀ p ∈ s.cores, ∀ h ∈ p.2.handles, h.2.state = .running → ∀ w ∈ h.2.elem, x.entry w.entry = false) →
        (x.src = .driver → ∃ t, exec .shootdownComplete s = .next t ∧ t.mem = s.mem ∧ t.shoots = xs ∧ t.bar0Busy = xs.any fun y => y.src == .driver) ∧
        (∀ k g w, x.src = .core k → s.group? k x.frame = some g → g.waits.find? (fun w => w.kept && w.seq == x.seq) = some w → (s.core k).stepping = [] →
          ∃ t h, exec .shootdownComplete s = .next t ∧ t.mem = s.mem ∧ t.shoots = xs ∧ (t.core k).sdBusy = xs.any (fun y => y.src == .core k) ∧
            t.group? k x.frame = some h ∧ h.lanes = g.lanes ∧ h.waits = g.waits.filter fun y => !y.same w)))

/-- R355 to R358, R363: connections and streams. An idle entry whose destination is another fitted die, whose bundle is one of the eight and
busy with no entry, and whose width is 1 to 8 sets up, and comes up; a bundle that a lower-numbered entry keeps busy leaves it down with error
1, and of two that ask for a bundle in one cycle the lower-numbered has it. A teardown drains an entry, after which it is idle, or down with
error 3 after an optical failure; CMD 3 clears it. The third failed wavelength of a bundle is an optical failure of the circuit on it. A
stream moves with nothing in flight onto a circuit that is up from its die to its receiver's. A write to an idle entry through BAR0 sets its
fields, and a read gives them with its state and its error. That a bundle of a number past seven is never free is the model's choice. -/
def Obligations.ConnectionsFollowTheirStates : Prop :=
  ∀ (s : State) (d i : Nat), i < 32 →
    let c := s.connAt d i
    let becomes := fun (r : Res) (x : Conn) => ∃ t, r = .next t ∧ t.mem = s.mem ∧ t.connAt d i = x ∧ ∀ j, j ≠ i → t.connAt d j = s.connAt d j
    let free := ∀ j < 32, (s.connAt d j).bundle = c.bundle → (s.connAt d j).busy = false
    let sound := c.state = .idle ∧ s.fitted d = true ∧ c.dest ≠ d ∧ s.fitted c.dest = true ∧ c.bundle < 8
    let up : Conn := { c with state := .setup, failing := false, asked := s.cycle + 1 }
    (sound → free → 1 ≤ c.bw → c.bw ≤ 8 → becomes (exec (.connSetup d i) s) up) ∧
    (sound → free → c.bw = 0 ∨ 8 < c.bw → becomes (exec (.connSetup d i) s) { c with state := .down, err := 4 }) ∧
    (∀ j < i, sound → s.bundleUser d i = some j → becomes (exec (.connSetup d i) s) { c with state := .down, err := 1 }) ∧
    (∀ j, sound → s.bundleUser d i = some j → i < j → (s.connAt d j).state = .setup → (s.connAt d j).asked = s.cycle + 1 → 1 ≤ c.bw →
      c.bw ≤ 8 → ∃ t, exec (.connSetup d i) s = .next t ∧ t.connAt d i = up ∧ t.connAt d j = { s.connAt d j with state := .down, err := 1 }) ∧
    (c.state = .idle → s.fitted d = true → (c.dest = d ∨ s.fitted c.dest = false) →
      becomes (exec (.connSetup d i) s) { c with state := .down, err := 2 }) ∧
    (c.state = .setup → becomes (exec (.circuitUp d i) s) { c with state := .up }) ∧
    (c.state = .setup ∨ c.state = .up → becomes (exec (.connTeardown d i) s) { c with state := .draining, failing := false }) ∧
    (c.state = .draining → (∀ x ∈ s.streams, x.key.sender / 128 = d → x.path = i + 1 → s.streamBusy x.key = false) →
      becomes (exec (.circuitDrained d i) s) (if c.failing then { c with state := .down, err := 3, failing := false } else { c with state := .idle }) ∧
      ∃ t, exec (.circuitDrained d i) s = .next t ∧ ∀ x ∈ t.streams, ¬ (x.key.sender / 128 = d ∧ x.path = i + 1)) ∧
    (c.state = .down → becomes (exec (.connClear d i) s) { c with state := .idle, err := 0 }) ∧
    (c.state = .up → becomes (exec (.opticalFailure d i) s) { c with state := .draining, failing := true }) ∧
    (c.state = .up →
      ∃ t, exec (.wavelengthFailure d c.bundle) s = .next t ∧ t.mem = s.mem ∧
        (t.connAt d i).state = if (s.die d).waves.toList.getD c.bundle 0 + 1 < 3 then .up else .draining) ∧
    (∀ key : StreamKey, opticalStream key = true → key.sender / 128 = d → c.state = .up → c.dest = key.receiver / 128 → s.streamBusy key = false →
      ∃ t, exec (.streamMove key (i + 1)) s = .next t ∧ t.mem = s.mem ∧ t.pathOf key = i + 1 ∧ ∀ x, x ≠ key → t.pathOf x = s.pathOf x) ∧
    (∀ v : DWord, d < 16 → c.state = .idle → v.toNat / 2 ^ 28 % 4 = 0 →
      becomes (exec (.bar0Write (2 ^ 20 * d + 0x10000 + 8 * i) v) s)
        { c with bw := v.toNat / 2 ^ 16 % 16, bundle := v.toNat / 2 ^ 8 % 16, dest := v.toNat % 16 }) ∧
    (d < 16 → s.fitted d = true → c.err < 256 → c.bw < 16 → c.bundle < 16 → c.dest < 16 →
      let code := match c.state with | .idle => 0 | .setup => 1 | .up => 2 | .draining => 3 | .down => 4
      (s.bar0Read (2 ^ 20 * d + 0x10000 + 8 * i)).toNat = c.err * 2 ^ 40 + code * 2 ^ 32 + c.bw * 2 ^ 16 + c.bundle * 2 ^ 8 + c.dest)

/-- R302, R314, R325, R362 to R367: spares, errors, harvest, power and resets. The spare way of a slice is used once and spares are counted; they
change no byte; lost data is poisoned; a retired core's logical number goes to the first reserve core; an error that is corrected is counted by its die; a mode is set while its dies hold no
group, HVGEN counting every setting but the one that brings a die up (the model's choice, log entry 87), and cores that a reset has found
healthy return with it; shares of power are kept; the package's reset starts clocks, epochs, tables, connections, leases and cores as at reset and
keeps the retired cores; that memory keeps its bytes and its poison over it is the model's choice (log entry 88); a die's reset starts its clocks above every clock, its connections idle or
draining. -/
def Obligations.SparesErrorsAndResets : Prop :=
  ∀ (s : State) (d : Nat),
    (∀ slice lines,
      (slice < 24 → (s.die d).spareWays.getLsbD slice = false →
        ∃ t, exec (.spareWayReplace d slice false lines) s = .next t ∧ t.mem = s.mem ∧
          (t.die d).spareWays = (s.die d).spareWays ||| BitVec.ofNat 24 (2 ^ slice) ∧
          ∀ l ∈ lines, s.sliceOf l = (d, slice) → Sparse.get? t.lines l = none) ∧
      (slice < 8 → (s.die d).spareRdc.getLsbD slice = false →
        ∃ t, exec (.spareWayReplace d slice true lines) s = .next t ∧ t.mem = s.mem ∧
          (t.die d).spareRdc = (s.die d).spareRdc ||| BitVec.ofNat 8 (2 ^ slice) ∧
          ∀ l ∈ lines, rdcSlice l = slice → Sparse.get? (t.die d).rdc l = none)) ∧
    (∀ row, exec (.hbmRowRemap d row) s = .next (s.setDie d { s.die d with spareRows := (s.die d).spareRows + 1 })) ∧
    (∀ link, exec (.meshLinkSpare d link) s =
      .next (s.setDie d { s.die d with spareLinks := (s.die d).spareLinks ||| BitVec.ofNat 12 (2 ^ link) })) ∧
    (∀ slice < 24, ∃ t, exec (.l2SliceFailure d slice) s = .next t ∧ t.mem = s.mem ∧ (t.die d).drained = true ∧ (t.die d).badSlices.getLsbD slice = true) ∧
    (∀ line, exec (.uncorrectableMemoryError (.l2Clean line)) s = .next (s.evict line)) ∧
    (∀ a n, s.migrated a = none →
      ∃ t, exec (.uncorrectableMemoryError (.hbm a n)) s = .next t ∧ t.mem = s.mem ∧ ∀ p, p ∈ t.poison ↔ p ∈ s.poison ∨ a ≤ p ∧ p < a + n) ∧
    exec (.uncorrectableMemoryError (.corrected d)) s = .next (s.setDie d { s.die d with corrected := (s.die d).corrected + 1 }) ∧
    (∀ line, s.place (128 * line) = 128 * line → s.migrated (128 * line) = none →
      ∃ t, exec (.uncorrectableMemoryError (.l2Dirty line)) s = .next t ∧ t.mem = s.mem ∧
        ∀ p, p ∈ t.poison ↔ p ∈ s.poison ∨ 128 * line ≤ p ∧ p < 128 * line + 128) ∧
    (∀ p < 36, ∀ i : Fin 36, let k := 64 * d + p
      (s.core k).frames = [] → (s.core k).teams = [] → (s.core k).retired = false → (s.die d).healthy.getLsbD p = true → (s.die d).full = false →
      (s.die d).lpct[i].toNat = p →
      ∃ t, exec (.coreRetire k) s = .next t ∧ t.mem = s.mem ∧ (t.core k).retired = true ∧ (t.die d).healthy.getLsbD p = false ∧
        (t.die d).lpct[i] = (s.die d).spare[0] ∧ (t.die d).hvgen = (s.die d).hvgen + 1) ∧
    (∀ full, s.dieBusy d = false → s.fitted d = true →
      let x : Die := { s.die d with healthy := (s.die d).healthy ||| (s.die d).returning }
      ∃ t, exec (.harvestModeSet [d] full) s = .next t ∧ t.mem = s.mem ∧ (t.die d).full = full ∧
        (t.die d).hvgen = (s.die d).hvgen + (if (s.die d).modeSet then 1 else 0) ∧ (t.die d).modeSet = true ∧
        (∀ p < 36, (s.die d).returning.getLsbD p = true → (t.core (64 * d + p)).retired = false) ∧
        ∀ j : Fin 36, j.val < (if full then x.healthyCores.length else Nat.min 32 x.healthyCores.length) →
          (t.die d).lpct[j].toNat = x.healthyCores.getD j.val 0) ∧
    (∀ shares : List Nat, d < 16 → d < shares.length → ∃ t, exec (.powerShareUpdate shares) s = .next t ∧ t.mem = s.mem ∧ (t.die d).share = shares.getD d 0) ∧
    (∃ t, exec .packageReset s = .next t ∧ t.mem = s.mem ∧ t.poison = s.poison ∧ t.feat = s.feat ∧ t.dieMask = s.dieMask ∧
      (∀ k c, Sparse.get? s.cores k = some c → c.retired = true → (t.core k).retired = true) ∧
      (∀ k, (t.core k).frames = [] ∧ (t.core k).teams = [] ∧ (t.core k).clock = 0 ∧ (t.core k).leases = [] ∧ (t.core k).diesel = dieOf k) ∧
      (∀ e ∈ s.fittedDies, (t.die e).modeSet = false ∧ (t.die e).hvgen = 0 ∧ ∀ i < 32, t.connAt e i = Conn.idle) ∧
      t.reqs = [] ∧ t.launches = [] ∧ t.saved = [] ∧ t.shoots = [] ∧ t.streams = [] ∧ t.lines = [] ∧ t.base = 0 ∧ t.epoch = 0 ∧ t.rebases = 0) ∧
    (s.dieBusy d = false → s.fitted d = true →
      ∃ t, exec (.dieReset d) s = .next t ∧ t.mem = s.mem ∧ (∀ p < 36, (t.core (64 * d + p)).clock = s.topClock + 4096 ∧ (t.core (64 * d + p)).frames = []) ∧
        (∀ n : Fin 24, (t.die d).evw[n] = s.topClock + 4096) ∧ (∀ i < 32, (t.connAt d i).state = .idle ∨ (t.connAt d i).state = .draining) ∧
        ∀ p ∈ t.lines, p.1 * 128 / 2 ^ 36 ≠ d)

/-- R313, R347 to R349, R378 to R380: bias, the host's accesses and migration. A region flips once nothing accepted there is under way: its
lines leave their slices, or its remote copies are dropped. The host reads and writes a fitted die's HBM byte by byte, under device bias with a
new timestamp that HOSTMARK takes; anywhere else the model stops with the fault of absent memory (log entry 1). A free migration entry
with a sound NEW frame starts copying, an unsound one is in error; each block copy brings the next 2 KiB to the NEW frame, the last flipping
the entry; a flipped entry retires, every clock past the leases there, and an error clears. -/
def Obligations.BiasHostAndMigration : Prop :=
  (∀ (s : State) (d region : Nat), region < 2 ^ 15 → s.regionBusy d region = false →
      ((s.die d).hostBias.contains region = false →
        ∃ t, exec (.biasFlipToHost d region) s = .next t ∧ t.mem = s.mem ∧ (t.die d).hostBias.contains region = true ∧
          (∀ p ∈ t.lines, p.1 * 128 / 2 ^ 21 ≠ d * 2 ^ 15 + region) ∧ ∀ k ∈ s.everyCore, s.regionRts d region < (t.core k).clock) ∧
      (∃ t, exec (.biasFlipToDevice d region) s = .next t ∧ t.mem = s.mem ∧ (t.die d).hostBias.contains region = false ∧
        ∀ p ∈ t.dies, ∀ c ∈ p.2.rdc, c.1 * 128 / 2 ^ 21 ≠ d * 2 ^ 15 + region) ∧
      (∀ line, s.hostLine (128 * line) = true → ∃ t, exec (.hostSnoop d line []) s = .next t ∧ t.mem = s.mem ∧ Sparse.get? (t.die d).rdc line = none) ∧
      (∀ a n, (s.inHbm a n = true → s.poisoned a n = false → (∀ j < n, s.place (a + j) = a + j) →
          exec (.hostMemRead a n) s = .next { s with hostReply := some (Memory.read s.mem a n) }) ∧
        (s.inHbm a n = false → exec (.hostMemRead a n) s = .fault (.noMemory a))) ∧
      (∀ a (bs : List Byte), (s.inHbm a bs.length = false → exec (.hostMemWrite a bs) s = .fault (.noMemory a)) ∧
        (s.inHbm a bs.length = true → Memory.wf s.mem = true → (∀ j < bs.length, s.migrated (a + j) = none ∧ s.place (a + j) = a + j) →
          ∃ t, exec (.hostMemWrite a bs) s = .next t ∧
            (∀ x, Memory.get t.mem x = if a ≤ x ∧ x < a + bs.length then bs.getD (x - a) 0 else Memory.get s.mem x) ∧
            (s.hostLine a = false → bs.length = 8 → a % 8 = 0 → t.hostmark = Nat.max s.hostmark (((s.roomFor (lineOf a)).lineTs (lineOf a)).rts + 1))))) ∧
  (∀ (s : State) (d i : Nat), i < 64 →
      let e := s.indAt d i
      let sound := e.new < 2 ^ 19 ∧ s.fitted (e.new / 2 ^ 15) = true ∧ s.frameUsed d i e.new = false ∧ e.new ≠ d * 2 ^ 15 + e.old
      let becomes := fun (r : Res) (x : IndEntry) => ∃ t, r = .next t ∧ t.indAt d i = x ∧ t.mem = s.mem ∧ ∀ j, j ≠ i → t.indAt d j = s.indAt d j
      (e.state = .free → sound → becomes (exec (.migStart d i) s) { e with state := .copying, done := 0 }) ∧
      (e.state = .free → ¬ sound → becomes (exec (.migStart d i) s) { e with state := .error }) ∧
      (e.state = .copying → e.done < 1024 → Memory.wf s.mem = true →
        let src := (d * 2 ^ 15 + e.old) * 2 ^ 21 + 2048 * e.done
        let dst := e.new * 2 ^ 21 + 2048 * e.done
        ∃ t, exec (.migrationBlockCopy d i) s = .next t ∧ t.indAt d i = { e with done := e.done + 1, state := if e.done = 1023 then .flipped else .copying } ∧
          ∀ a, Memory.get t.mem a = if dst ≤ a ∧ a < dst + 2048 then Memory.get s.mem (src + (a - dst)) else Memory.get s.mem a) ∧
      (e.state = .flipped ∨ e.state = .retiring → becomes (exec (.migRetire d i) s) { e with state := .free, done := 0 } ∧
        ∃ t, exec (.migRetire d i) s = .next t ∧ ∀ k ∈ s.everyCore, s.regionRts d e.old < (t.core k).clock) ∧
      (e.state = .error → becomes (exec (.migClear d i) s) { e with state := .free }))

/-! ## Encodings and the step -/

/-- R37, R46 to R75: decoding the words of any well-formed instruction gives that instruction and the words after it. -/
def Obligations.DecodeEncode : Prop :=
  ∀ (i : Instr) (ws : List Word), i.wf = true → decode (encode i ++ ws) = .ok (i, ws)

/-- R37 to R41, R46 to R76: words that hold an instruction are that instruction's encoding and no other; the same of clause headers, which
decode again after they are encoded. -/
def Obligations.WordsHaveOneMeaning : Prop :=
  (∀ (ws rest : List Word) (i : Instr), decode ws = .ok (i, rest) → i.wf = true ∧ encode i ++ rest = ws) ∧
  (∀ (lo hi : Word) (h : Header), decodeHeader lo hi = some h → encodeHeader h = [lo, hi]) ∧
  ∀ h : Header, 1 ≤ h.count.toNat → h.count.toNat ≤ 24 → flagCodeLegal h.flagA.toNat = true → flagCodeLegal h.flagB.toNat = true →
    ∃ lo hi, encodeHeader h = [lo, hi] ∧ decodeHeader lo hi = some h

/-- R56, R57, R59, R62, R64, R66, R68, R70, R72, R73: words written out from the spec's encodings decode to the instructions they stand
for, one or more of every class. -/
def Obligations.DecodedWords : Prop :=
  decodeTableWord 64 0x1111000000004000 = some (.sub ⟨.i32, 0, .rne, false, false, ⟨.age 0, 0⟩, ⟨.age 1, 0⟩, ⟨.age 0, 0⟩, false, []⟩) ∧
  decodeTableWord 64 0x1000000000001014 = some (.get 5) ∧
  decodeTableWord 64 0x1000000000002014 = some (.save 0 5) ∧
  decodeTableWord 64 0x1020003008000000 = some (.drop 2) ∧
  decodeTableWord 64 0x1121000004008000 = some (.mul ⟨.i32, 0, .rne, false, false, ⟨.age 1, 0⟩, ⟨.age 2, 0⟩, ⟨.age 0, 0⟩, false, []⟩) ∧
  decodeTableWord 64 0x8000000000140000 = some (.ballot ⟨.b32, ⟨.age 0, 0⟩, ⟨.age 0, 0⟩, 10, 0⟩) ∧
  decodeTableWord 64 0x310102202E018000 = some (.sadd ⟨.i32, 4, ⟨.scalar 5, 0⟩, ⟨.inline 3, 0⟩, 0, 0, []⟩) ∧
  decodeTableWord 64 0x210B0000000FFA08 = some (.addi ⟨.i64, ⟨.age 0, 0⟩, ⟨.age 0, 0⟩, .rne, false, 0xFFA08⟩) ∧
  decodeTableWord 64 0x40182D0100000008 = some (.ld ⟨.b64, .global, .acquire, .die, ⟨.scalar 4, 0⟩, ⟨.age 0, 0⟩, false, false, .normal, 8⟩) ∧
  decodeTableWord 64 0x500F100400000000 = some (.copy ⟨30, 16, 4, 0⟩) ∧
  decodeTableWord 64 0x7080000001200008 = some (.brnz ⟨.age 0, 0⟩ 0x12 8) ∧
  decodeTableWord 64 0x7200904000000000 = some (.join ⟨2, 2, 1, 0, 0, 0, 0, 0⟩) ∧
  decodeTableWord 64 0x7300000000000000 = some .exit ∧
  decodeTableWord 64 0x9004300000000000 = some (.bar ⟨0x43, ⟨.age 0, 0⟩, 0, 0⟩) ∧
  decodeTableWord 64 0x9120000000000064 = some (.sleep ⟨0, ⟨.age 0, 0⟩, 0, 100⟩) ∧
  (decode [0x01004230, 0xA1010000, 0x00000000, 0x02800000]).toOption =
    some (.pair ⟨.add, .i32, ⟨.age 0, 0⟩, ⟨.age 1, 0⟩, false, .fmul, .f32, ⟨.age 2, 0⟩, ⟨.const 0, 0⟩, .rne⟩, []) ∧
  (decode [0x00003F00, 0xB24D0A16, 0x00000010, 0x30000000, 0x11000000, 0, 0, 0]).toOption.map (fun p => (p.1.form, p.2)) =
    some (.nest ⟨.maxr, true, 2, 10, 11, 0, false, .rne, false, 0, [63, 3, 0, 0, 0], [0, 1, 0, 0, 0, 1, 64, 0, 0, 0, 0, 0, 0, 0, 0]⟩, []) ∧
  decodeTableWord 64 0x340D0A0000000000 = some (.sread ⟨.b64, 20, ⟨.age 0, 0⟩, ⟨.age 0, 0⟩, 0, 0, []⟩) ∧
  decodeTableWord 64 0x6000000000000030 = some (.take ⟨0, 0, 0, 0, 0, 0, 0, 0, 48⟩) ∧
  decodeTableWord 64 0x6140202080100402 = some (.mma ⟨0, 32, 16, 1, 0, 0, 1, 4, 2⟩)

/-- R42, R191, R221: a step makes the next move. A slot that holds a clause whose next words decode to an instruction, in a group that issues and
whose slices stand there with no fault held, and that has not issued in this cycle, executes it, and the slot is settled; where every slice
then stands at the next instruction, the slot holds the clause with those words behind it. An event is executed, an instruction that waits at
a header is tried again from where it issued, cycles pass one by one with the moves of every slot in each, and an engine moves units. That a step takes the head of an agenda
(log entry 3), and that a cycle is the moves of every slot in a fixed order and then its end (log entry 7), are the model's choices. -/
def Obligations.StepRunsDecoded : Prop :=
  ∀ (s : State) (m : Move) (ms : List Move), s.agenda = m :: ms →
    let s0 := { s with agenda := ms, tick := s.tick + 1 }
    (∀ k slot h g i rest, m = .issue k slot →
      let x := (s.core k).slots.toList.getD slot default
      let here := g.slicesAt h.mask h.clause h.idx
      x.hold = some h → x.used ≠ s.cycle + 1 → s.group? k h.frame = some g → g.issues = true → g.holdsBack = false →
      (∀ d ∈ g.due, d.mask &&& here = 0) → here ≠ 0 → (s.core k).stepAllows g ⟨h.frame, here⟩ = true →
      decode h.words = .ok (i, rest) → ∀ t, exec i { s0 with iss := h.issuer k here } = .next t →
        let u := t.settleIssue k slot g.seq (i == .eret)
        step s = .next u ∧
        ∀ y d, slot < 4 → i ≠ .eret → ((t.core k).slots.toList.getD slot default).hold = some d → d = h → t.group? k h.frame = some y →
          y.issues = true → y.slicesAt h.mask h.clause h.idx = 0 → y.slicesAt h.mask h.clause (h.idx + 1) ≠ 0 →
          h.idx + 1 < h.hdr.count.toNat → y.holdsOn h.mask = false → (t.core k).stepping = [] →
          ((u.core k).slots.toList.getD slot default).hold = some (h.next (y.slicesAt h.mask h.clause (h.idx + 1))) ∧
          (h.next (y.slicesAt h.mask h.clause (h.idx + 1))).words = rest) ∧
    (∀ i, m = .event i → i.form = .event → step s = exec i s0) ∧
    (∀ k fr slice g w t, m = .resume k fr slice → s.group? k fr = some g → g.waitOf slice = some w →
      (g.status = .running ∧ g.replay = false) ∨ w.kept = true → w.retry = true → exec w.instr (s0.reissue k fr w) = .next t →
      step s = .next (t.reportStep k fr t.iss.mask)) ∧
    (m = .advance 0 → step s = .next s0) ∧
    (∀ n, m = .advance (n + 1) → step s = .next (s0.prepend (s0.cycleMoves ++ [.tick, .advance n]))) ∧
    (m = .tick → step s = .next s0.passTime) ∧
    ∀ k idx n, m = .engineUnits k idx n → step s = .next (s0.moveUnits k idx n)

/-- R149, R199, R333, R361, R366, R412: the state after reset. Nothing is resident or on its way; every core's clock is 0, its lease of a context 64,
its activation banks zero, DIESEL its own die; B, REBASES and package time are 0; FWINCFG is 1,000. Every memory is in its canonical form,
and reads zero, which is the model's choice (log entries 1 and 2). -/
def Obligations.ResetState : Prop :=
  State.reset.memOk = true ∧ State.reset.reqs = [] ∧ State.reset.launches = [] ∧ State.reset.shoots = [] ∧
  (∀ k : Nat, k / 64 < 16 → let c := State.reset.core k
    c.clock = 0 ∧ c.frames = [] ∧ c.diesel = k / 64 ∧ c.l1 = [] ∧ c.tlb = [] ∧ (∀ ctx, State.reset.leaseOf k ctx = 64) ∧
      ∀ b < 2, ∀ a, Memory.get (c.banks.toList.getD b []) a = 0) ∧
  (∀ d i : Nat, State.reset.connAt d i = Conn.idle ∧ State.reset.indAt d i = IndEntry.free) ∧
  State.reset.base = 0 ∧ State.reset.rebases = 0 ∧ State.reset.ptime = 0 ∧ State.reset.winLen = 1000 ∧ ∀ a, Memory.get State.reset.mem a = 0

/-- An invariant of every step: memory, and the scratch, the rack and the activation banks of every core, keep their canonical form, addresses
rising and no byte listed that an unlisted address reads as. That form is the model's choice of how it holds R11's bytes (log entry 1). -/
def Obligations.MemoryStaysCanonical : Prop :=
  ∀ s t : State, s.memOk = true → step s = .next t → t.memOk = true

/-- R27, R34, R113, R129: what instructions leave alone, whatever next state they end in. One that accesses no memory leaves scratch, rack, banks
and claims, and every byte of memory too unless its group keeps call records back that it must write there. One of a class that acts on lanes
leaves the lanes outside its split, pantry slots (SAVE apart), flags, divergence entries, and every scalar but BALLOT's; one of class S leaves
the lanes outside its split, pantry slots, flags, divergence entries, and every scalar but DST (a fault may enter the handler, which takes
the lanes of the split); slices outside the split stay too unless a stop abandons their waits. -/
def Obligations.InstructionFrames : Prop :=
  ∀ (s t : State) (i : Instr), exec i s = .next t →
    (i.form.keepsMemory = true → (∀ k, (t.core k).scratch = (s.core k).scratch ∧ (t.core k).rack = (s.core k).rack ∧
      (t.core k).banks = (s.core k).banks ∧ (t.core k).claims = (s.core k).claims) ∧
      ((∀ g, s.group? s.iss.core s.iss.frame = some g → g.sliceRecs = [] ∧ g.recHeld = []) → t.mem = s.mem)) ∧
    (∀ g op f, s.group? s.iss.core s.iss.frame = some g → (i.form.onLanes = true ∨ (i.form = .s op f ∧ op < 0x50)) →
      ∃ h : Group, t.group? s.iss.core s.iss.frame = some h ∧ (∀ l : Fin 32, g.on s.iss.mask l = false → h.lanes[l] = g.lanes[l]) ∧
        (i.form.saves = false → ∀ l : Fin 32, h.lanes[l].pantry = g.lanes[l].pantry) ∧ h.flags = g.flags ∧ h.div = g.div ∧
        (∀ j, j ∉ i.form.writesScalars → h.scalar j = g.scalar j) ∧
        (g.waits = [] → ∀ j : Fin 8, s.iss.mask.getLsbD j.val = false → h.slices[j] = g.slices[j]))
end

