-- ==== Sys2Proof/Laws/State.lean ====
section
/-! SUPPORT. One lemma per field and update of the whole state and of a group: what each update leaves alone and what it
writes. -/

namespace Sys2Proof.Machine

open Sys2Proof

/-! ## setCore -/

@[simp] theorem State.setCore_agenda (s : State) (k : Nat) (c : Core) : (s.setCore k c).agenda = s.agenda := rfl
@[simp] theorem State.setCore_tick (s : State) (k : Nat) (c : Core) : (s.setCore k c).tick = s.tick := rfl
@[simp] theorem State.setCore_iss (s : State) (k : Nat) (c : Core) : (s.setCore k c).iss = s.iss := rfl
@[simp] theorem State.setCore_mem (s : State) (k : Nat) (c : Core) : (s.setCore k c).mem = s.mem := rfl
@[simp] theorem State.setCore_poison (s : State) (k : Nat) (c : Core) : (s.setCore k c).poison = s.poison := rfl
@[simp] theorem State.setCore_comp (s : State) (k : Nat) (c : Core) : (s.setCore k c).comp = s.comp := rfl
@[simp] theorem State.setCore_lines (s : State) (k : Nat) (c : Core) : (s.setCore k c).lines = s.lines := rfl
@[simp] theorem State.setCore_reqs (s : State) (k : Nat) (c : Core) : (s.setCore k c).reqs = s.reqs := rfl
@[simp] theorem State.setCore_nextReq (s : State) (k : Nat) (c : Core) : (s.setCore k c).nextReq = s.nextReq := rfl
@[simp] theorem State.setCore_nextOp (s : State) (k : Nat) (c : Core) : (s.setCore k c).nextOp = s.nextOp := rfl
@[simp] theorem State.setCore_cores (s : State) (k : Nat) (c : Core) : (s.setCore k c).cores = Sparse.put s.cores k c := rfl
@[simp] theorem State.setCore_dies (s : State) (k : Nat) (c : Core) : (s.setCore k c).dies = s.dies := rfl
@[simp] theorem State.setCore_cycle (s : State) (k : Nat) (c : Core) : (s.setCore k c).cycle = s.cycle := rfl
@[simp] theorem State.setCore_ptime (s : State) (k : Nat) (c : Core) : (s.setCore k c).ptime = s.ptime := rfl
@[simp] theorem State.setCore_ptimeSub (s : State) (k : Nat) (c : Core) : (s.setCore k c).ptimeSub = s.ptimeSub := rfl
@[simp] theorem State.setCore_base (s : State) (k : Nat) (c : Core) : (s.setCore k c).base = s.base := rfl
@[simp] theorem State.setCore_epoch (s : State) (k : Nat) (c : Core) : (s.setCore k c).epoch = s.epoch := rfl
@[simp] theorem State.setCore_rebases (s : State) (k : Nat) (c : Core) : (s.setCore k c).rebases = s.rebases := rfl
@[simp] theorem State.setCore_timeSync (s : State) (k : Nat) (c : Core) : (s.setCore k c).timeSync = s.timeSync := rfl
@[simp] theorem State.setCore_timeErr (s : State) (k : Nat) (c : Core) : (s.setCore k c).timeErr = s.timeErr := rfl
@[simp] theorem State.setCore_errLow (s : State) (k : Nat) (c : Core) : (s.setCore k c).errLow = s.errLow := rfl
@[simp] theorem State.setCore_clockStop (s : State) (k : Nat) (c : Core) : (s.setCore k c).clockStop = s.clockStop := rfl
@[simp] theorem State.setCore_winLen (s : State) (k : Nat) (c : Core) : (s.setCore k c).winLen = s.winLen := rfl
@[simp] theorem State.setCore_devNo (s : State) (k : Nat) (c : Core) : (s.setCore k c).devNo = s.devNo := rfl
@[simp] theorem State.setCore_fabmark (s : State) (k : Nat) (c : Core) : (s.setCore k c).fabmark = s.fabmark := rfl
@[simp] theorem State.setCore_hostmark (s : State) (k : Nat) (c : Core) : (s.setCore k c).hostmark = s.hostmark := rfl
@[simp] theorem State.setCore_swgen (s : State) (k : Nat) (c : Core) : (s.setCore k c).swgen = s.swgen := rfl
@[simp] theorem State.setCore_feat (s : State) (k : Nat) (c : Core) : (s.setCore k c).feat = s.feat := rfl
@[simp] theorem State.setCore_dieMask (s : State) (k : Nat) (c : Core) : (s.setCore k c).dieMask = s.dieMask := rfl
@[simp] theorem State.setCore_ctxtab (s : State) (k : Nat) (c : Core) : (s.setCore k c).ctxtab = s.ctxtab := rfl
@[simp] theorem State.setCore_privCtx (s : State) (k : Nat) (c : Core) : (s.setCore k c).privCtx = s.privCtx := rfl
@[simp] theorem State.setCore_bar0Sdva (s : State) (k : Nat) (c : Core) : (s.setCore k c).bar0Sdva = s.bar0Sdva := rfl
@[simp] theorem State.setCore_bar0Sdctl (s : State) (k : Nat) (c : Core) : (s.setCore k c).bar0Sdctl = s.bar0Sdctl := rfl
@[simp] theorem State.setCore_bar0Busy (s : State) (k : Nat) (c : Core) : (s.setCore k c).bar0Busy = s.bar0Busy := rfl
@[simp] theorem State.setCore_shoots (s : State) (k : Nat) (c : Core) : (s.setCore k c).shoots = s.shoots := rfl
@[simp] theorem State.setCore_launches (s : State) (k : Nat) (c : Core) : (s.setCore k c).launches = s.launches := rfl
@[simp] theorem State.setCore_nextLaunch (s : State) (k : Nat) (c : Core) : (s.setCore k c).nextLaunch = s.nextLaunch := rfl
@[simp] theorem State.setCore_passRecs (s : State) (k : Nat) (c : Core) : (s.setCore k c).passRecs = s.passRecs := rfl
@[simp] theorem State.setCore_nextRec (s : State) (k : Nat) (c : Core) : (s.setCore k c).nextRec = s.nextRec := rfl
@[simp] theorem State.setCore_apertures (s : State) (k : Nat) (c : Core) : (s.setCore k c).apertures = s.apertures := rfl
@[simp] theorem State.setCore_ports (s : State) (k : Nat) (c : Core) : (s.setCore k c).ports = s.ports := rfl
@[simp] theorem State.setCore_remotes (s : State) (k : Nat) (c : Core) : (s.setCore k c).remotes = s.remotes := rfl
@[simp] theorem State.setCore_streams (s : State) (k : Nat) (c : Core) : (s.setCore k c).streams = s.streams := rfl
@[simp] theorem State.setCore_dieSaves (s : State) (k : Nat) (c : Core) : (s.setCore k c).dieSaves = s.dieSaves := rfl
@[simp] theorem State.setCore_saved (s : State) (k : Nat) (c : Core) : (s.setCore k c).saved = s.saved := rfl
@[simp] theorem State.setCore_reports (s : State) (k : Nat) (c : Core) : (s.setCore k c).reports = s.reports := rfl
@[simp] theorem State.setCore_interrupts (s : State) (k : Nat) (c : Core) : (s.setCore k c).interrupts = s.interrupts := rfl
@[simp] theorem State.setCore_hostReply (s : State) (k : Nat) (c : Core) : (s.setCore k c).hostReply = s.hostReply := rfl
@[simp] theorem State.setCore_remoteReplies (s : State) (k : Nat) (c : Core) : (s.setCore k c).remoteReplies = s.remoteReplies := rfl

/-! ## setDie -/

@[simp] theorem State.setDie_agenda (s : State) (d : Nat) (x : Die) : (s.setDie d x).agenda = s.agenda := rfl
@[simp] theorem State.setDie_tick (s : State) (d : Nat) (x : Die) : (s.setDie d x).tick = s.tick := rfl
@[simp] theorem State.setDie_iss (s : State) (d : Nat) (x : Die) : (s.setDie d x).iss = s.iss := rfl
@[simp] theorem State.setDie_mem (s : State) (d : Nat) (x : Die) : (s.setDie d x).mem = s.mem := rfl
@[simp] theorem State.setDie_poison (s : State) (d : Nat) (x : Die) : (s.setDie d x).poison = s.poison := rfl
@[simp] theorem State.setDie_comp (s : State) (d : Nat) (x : Die) : (s.setDie d x).comp = s.comp := rfl
@[simp] theorem State.setDie_lines (s : State) (d : Nat) (x : Die) : (s.setDie d x).lines = s.lines := rfl
@[simp] theorem State.setDie_reqs (s : State) (d : Nat) (x : Die) : (s.setDie d x).reqs = s.reqs := rfl
@[simp] theorem State.setDie_nextReq (s : State) (d : Nat) (x : Die) : (s.setDie d x).nextReq = s.nextReq := rfl
@[simp] theorem State.setDie_nextOp (s : State) (d : Nat) (x : Die) : (s.setDie d x).nextOp = s.nextOp := rfl
@[simp] theorem State.setDie_cores (s : State) (d : Nat) (x : Die) : (s.setDie d x).cores = s.cores := rfl
@[simp] theorem State.setDie_dies (s : State) (d : Nat) (x : Die) : (s.setDie d x).dies = Sparse.put s.dies d x := rfl
@[simp] theorem State.setDie_cycle (s : State) (d : Nat) (x : Die) : (s.setDie d x).cycle = s.cycle := rfl
@[simp] theorem State.setDie_ptime (s : State) (d : Nat) (x : Die) : (s.setDie d x).ptime = s.ptime := rfl
@[simp] theorem State.setDie_ptimeSub (s : State) (d : Nat) (x : Die) : (s.setDie d x).ptimeSub = s.ptimeSub := rfl
@[simp] theorem State.setDie_base (s : State) (d : Nat) (x : Die) : (s.setDie d x).base = s.base := rfl
@[simp] theorem State.setDie_epoch (s : State) (d : Nat) (x : Die) : (s.setDie d x).epoch = s.epoch := rfl
@[simp] theorem State.setDie_rebases (s : State) (d : Nat) (x : Die) : (s.setDie d x).rebases = s.rebases := rfl
@[simp] theorem State.setDie_timeSync (s : State) (d : Nat) (x : Die) : (s.setDie d x).timeSync = s.timeSync := rfl
@[simp] theorem State.setDie_timeErr (s : State) (d : Nat) (x : Die) : (s.setDie d x).timeErr = s.timeErr := rfl
@[simp] theorem State.setDie_errLow (s : State) (d : Nat) (x : Die) : (s.setDie d x).errLow = s.errLow := rfl
@[simp] theorem State.setDie_clockStop (s : State) (d : Nat) (x : Die) : (s.setDie d x).clockStop = s.clockStop := rfl
@[simp] theorem State.setDie_winLen (s : State) (d : Nat) (x : Die) : (s.setDie d x).winLen = s.winLen := rfl
@[simp] theorem State.setDie_devNo (s : State) (d : Nat) (x : Die) : (s.setDie d x).devNo = s.devNo := rfl
@[simp] theorem State.setDie_fabmark (s : State) (d : Nat) (x : Die) : (s.setDie d x).fabmark = s.fabmark := rfl
@[simp] theorem State.setDie_hostmark (s : State) (d : Nat) (x : Die) : (s.setDie d x).hostmark = s.hostmark := rfl
@[simp] theorem State.setDie_swgen (s : State) (d : Nat) (x : Die) : (s.setDie d x).swgen = s.swgen := rfl
@[simp] theorem State.setDie_feat (s : State) (d : Nat) (x : Die) : (s.setDie d x).feat = s.feat := rfl
@[simp] theorem State.setDie_dieMask (s : State) (d : Nat) (x : Die) : (s.setDie d x).dieMask = s.dieMask := rfl
@[simp] theorem State.setDie_ctxtab (s : State) (d : Nat) (x : Die) : (s.setDie d x).ctxtab = s.ctxtab := rfl
@[simp] theorem State.setDie_privCtx (s : State) (d : Nat) (x : Die) : (s.setDie d x).privCtx = s.privCtx := rfl
@[simp] theorem State.setDie_bar0Sdva (s : State) (d : Nat) (x : Die) : (s.setDie d x).bar0Sdva = s.bar0Sdva := rfl
@[simp] theorem State.setDie_bar0Sdctl (s : State) (d : Nat) (x : Die) : (s.setDie d x).bar0Sdctl = s.bar0Sdctl := rfl
@[simp] theorem State.setDie_bar0Busy (s : State) (d : Nat) (x : Die) : (s.setDie d x).bar0Busy = s.bar0Busy := rfl
@[simp] theorem State.setDie_shoots (s : State) (d : Nat) (x : Die) : (s.setDie d x).shoots = s.shoots := rfl
@[simp] theorem State.setDie_launches (s : State) (d : Nat) (x : Die) : (s.setDie d x).launches = s.launches := rfl
@[simp] theorem State.setDie_nextLaunch (s : State) (d : Nat) (x : Die) : (s.setDie d x).nextLaunch = s.nextLaunch := rfl
@[simp] theorem State.setDie_passRecs (s : State) (d : Nat) (x : Die) : (s.setDie d x).passRecs = s.passRecs := rfl
@[simp] theorem State.setDie_nextRec (s : State) (d : Nat) (x : Die) : (s.setDie d x).nextRec = s.nextRec := rfl
@[simp] theorem State.setDie_apertures (s : State) (d : Nat) (x : Die) : (s.setDie d x).apertures = s.apertures := rfl
@[simp] theorem State.setDie_ports (s : State) (d : Nat) (x : Die) : (s.setDie d x).ports = s.ports := rfl
@[simp] theorem State.setDie_remotes (s : State) (d : Nat) (x : Die) : (s.setDie d x).remotes = s.remotes := rfl
@[simp] theorem State.setDie_streams (s : State) (d : Nat) (x : Die) : (s.setDie d x).streams = s.streams := rfl
@[simp] theorem State.setDie_dieSaves (s : State) (d : Nat) (x : Die) : (s.setDie d x).dieSaves = s.dieSaves := rfl
@[simp] theorem State.setDie_saved (s : State) (d : Nat) (x : Die) : (s.setDie d x).saved = s.saved := rfl
@[simp] theorem State.setDie_reports (s : State) (d : Nat) (x : Die) : (s.setDie d x).reports = s.reports := rfl
@[simp] theorem State.setDie_interrupts (s : State) (d : Nat) (x : Die) : (s.setDie d x).interrupts = s.interrupts := rfl
@[simp] theorem State.setDie_hostReply (s : State) (d : Nat) (x : Die) : (s.setDie d x).hostReply = s.hostReply := rfl
@[simp] theorem State.setDie_remoteReplies (s : State) (d : Nat) (x : Die) : (s.setDie d x).remoteReplies = s.remoteReplies := rfl

/-! ## tell -/

@[simp] theorem State.tell_agenda (s : State) (r : Report) : (s.tell r).agenda = s.agenda := rfl
@[simp] theorem State.tell_tick (s : State) (r : Report) : (s.tell r).tick = s.tick := rfl
@[simp] theorem State.tell_iss (s : State) (r : Report) : (s.tell r).iss = s.iss := rfl
@[simp] theorem State.tell_mem (s : State) (r : Report) : (s.tell r).mem = s.mem := rfl
@[simp] theorem State.tell_poison (s : State) (r : Report) : (s.tell r).poison = s.poison := rfl
@[simp] theorem State.tell_comp (s : State) (r : Report) : (s.tell r).comp = s.comp := rfl
@[simp] theorem State.tell_lines (s : State) (r : Report) : (s.tell r).lines = s.lines := rfl
@[simp] theorem State.tell_reqs (s : State) (r : Report) : (s.tell r).reqs = s.reqs := rfl
@[simp] theorem State.tell_nextReq (s : State) (r : Report) : (s.tell r).nextReq = s.nextReq := rfl
@[simp] theorem State.tell_nextOp (s : State) (r : Report) : (s.tell r).nextOp = s.nextOp := rfl
@[simp] theorem State.tell_cores (s : State) (r : Report) : (s.tell r).cores = s.cores := rfl
@[simp] theorem State.tell_dies (s : State) (r : Report) : (s.tell r).dies = s.dies := rfl
@[simp] theorem State.tell_cycle (s : State) (r : Report) : (s.tell r).cycle = s.cycle := rfl
@[simp] theorem State.tell_ptime (s : State) (r : Report) : (s.tell r).ptime = s.ptime := rfl
@[simp] theorem State.tell_ptimeSub (s : State) (r : Report) : (s.tell r).ptimeSub = s.ptimeSub := rfl
@[simp] theorem State.tell_base (s : State) (r : Report) : (s.tell r).base = s.base := rfl
@[simp] theorem State.tell_epoch (s : State) (r : Report) : (s.tell r).epoch = s.epoch := rfl
@[simp] theorem State.tell_rebases (s : State) (r : Report) : (s.tell r).rebases = s.rebases := rfl
@[simp] theorem State.tell_timeSync (s : State) (r : Report) : (s.tell r).timeSync = s.timeSync := rfl
@[simp] theorem State.tell_timeErr (s : State) (r : Report) : (s.tell r).timeErr = s.timeErr := rfl
@[simp] theorem State.tell_errLow (s : State) (r : Report) : (s.tell r).errLow = s.errLow := rfl
@[simp] theorem State.tell_clockStop (s : State) (r : Report) : (s.tell r).clockStop = s.clockStop := rfl
@[simp] theorem State.tell_winLen (s : State) (r : Report) : (s.tell r).winLen = s.winLen := rfl
@[simp] theorem State.tell_devNo (s : State) (r : Report) : (s.tell r).devNo = s.devNo := rfl
@[simp] theorem State.tell_fabmark (s : State) (r : Report) : (s.tell r).fabmark = s.fabmark := rfl
@[simp] theorem State.tell_hostmark (s : State) (r : Report) : (s.tell r).hostmark = s.hostmark := rfl
@[simp] theorem State.tell_swgen (s : State) (r : Report) : (s.tell r).swgen = s.swgen := rfl
@[simp] theorem State.tell_feat (s : State) (r : Report) : (s.tell r).feat = s.feat := rfl
@[simp] theorem State.tell_dieMask (s : State) (r : Report) : (s.tell r).dieMask = s.dieMask := rfl
@[simp] theorem State.tell_ctxtab (s : State) (r : Report) : (s.tell r).ctxtab = s.ctxtab := rfl
@[simp] theorem State.tell_privCtx (s : State) (r : Report) : (s.tell r).privCtx = s.privCtx := rfl
@[simp] theorem State.tell_bar0Sdva (s : State) (r : Report) : (s.tell r).bar0Sdva = s.bar0Sdva := rfl
@[simp] theorem State.tell_bar0Sdctl (s : State) (r : Report) : (s.tell r).bar0Sdctl = s.bar0Sdctl := rfl
@[simp] theorem State.tell_bar0Busy (s : State) (r : Report) : (s.tell r).bar0Busy = s.bar0Busy := rfl
@[simp] theorem State.tell_shoots (s : State) (r : Report) : (s.tell r).shoots = s.shoots := rfl
@[simp] theorem State.tell_launches (s : State) (r : Report) : (s.tell r).launches = s.launches := rfl
@[simp] theorem State.tell_nextLaunch (s : State) (r : Report) : (s.tell r).nextLaunch = s.nextLaunch := rfl
@[simp] theorem State.tell_passRecs (s : State) (r : Report) : (s.tell r).passRecs = s.passRecs := rfl
@[simp] theorem State.tell_nextRec (s : State) (r : Report) : (s.tell r).nextRec = s.nextRec := rfl
@[simp] theorem State.tell_apertures (s : State) (r : Report) : (s.tell r).apertures = s.apertures := rfl
@[simp] theorem State.tell_ports (s : State) (r : Report) : (s.tell r).ports = s.ports := rfl
@[simp] theorem State.tell_remotes (s : State) (r : Report) : (s.tell r).remotes = s.remotes := rfl
@[simp] theorem State.tell_streams (s : State) (r : Report) : (s.tell r).streams = s.streams := rfl
@[simp] theorem State.tell_dieSaves (s : State) (r : Report) : (s.tell r).dieSaves = s.dieSaves := rfl
@[simp] theorem State.tell_saved (s : State) (r : Report) : (s.tell r).saved = s.saved := rfl
@[simp] theorem State.tell_reports (s : State) (r : Report) : (s.tell r).reports = s.reports ++ [r] := rfl
@[simp] theorem State.tell_interrupts (s : State) (r : Report) : (s.tell r).interrupts = s.interrupts := rfl
@[simp] theorem State.tell_hostReply (s : State) (r : Report) : (s.tell r).hostReply = s.hostReply := rfl
@[simp] theorem State.tell_remoteReplies (s : State) (r : Report) : (s.tell r).remoteReplies = s.remoteReplies := rfl

/-! ## prepend -/

@[simp] theorem State.prepend_agenda (s : State) (ms : List Move) : (s.prepend ms).agenda = ms ++ s.agenda := rfl
@[simp] theorem State.prepend_tick (s : State) (ms : List Move) : (s.prepend ms).tick = s.tick := rfl
@[simp] theorem State.prepend_iss (s : State) (ms : List Move) : (s.prepend ms).iss = s.iss := rfl
@[simp] theorem State.prepend_mem (s : State) (ms : List Move) : (s.prepend ms).mem = s.mem := rfl
@[simp] theorem State.prepend_poison (s : State) (ms : List Move) : (s.prepend ms).poison = s.poison := rfl
@[simp] theorem State.prepend_comp (s : State) (ms : List Move) : (s.prepend ms).comp = s.comp := rfl
@[simp] theorem State.prepend_lines (s : State) (ms : List Move) : (s.prepend ms).lines = s.lines := rfl
@[simp] theorem State.prepend_reqs (s : State) (ms : List Move) : (s.prepend ms).reqs = s.reqs := rfl
@[simp] theorem State.prepend_nextReq (s : State) (ms : List Move) : (s.prepend ms).nextReq = s.nextReq := rfl
@[simp] theorem State.prepend_nextOp (s : State) (ms : List Move) : (s.prepend ms).nextOp = s.nextOp := rfl
@[simp] theorem State.prepend_cores (s : State) (ms : List Move) : (s.prepend ms).cores = s.cores := rfl
@[simp] theorem State.prepend_dies (s : State) (ms : List Move) : (s.prepend ms).dies = s.dies := rfl
@[simp] theorem State.prepend_cycle (s : State) (ms : List Move) : (s.prepend ms).cycle = s.cycle := rfl
@[simp] theorem State.prepend_ptime (s : State) (ms : List Move) : (s.prepend ms).ptime = s.ptime := rfl
@[simp] theorem State.prepend_ptimeSub (s : State) (ms : List Move) : (s.prepend ms).ptimeSub = s.ptimeSub := rfl
@[simp] theorem State.prepend_base (s : State) (ms : List Move) : (s.prepend ms).base = s.base := rfl
@[simp] theorem State.prepend_epoch (s : State) (ms : List Move) : (s.prepend ms).epoch = s.epoch := rfl
@[simp] theorem State.prepend_rebases (s : State) (ms : List Move) : (s.prepend ms).rebases = s.rebases := rfl
@[simp] theorem State.prepend_timeSync (s : State) (ms : List Move) : (s.prepend ms).timeSync = s.timeSync := rfl
@[simp] theorem State.prepend_timeErr (s : State) (ms : List Move) : (s.prepend ms).timeErr = s.timeErr := rfl
@[simp] theorem State.prepend_errLow (s : State) (ms : List Move) : (s.prepend ms).errLow = s.errLow := rfl
@[simp] theorem State.prepend_clockStop (s : State) (ms : List Move) : (s.prepend ms).clockStop = s.clockStop := rfl
@[simp] theorem State.prepend_winLen (s : State) (ms : List Move) : (s.prepend ms).winLen = s.winLen := rfl
@[simp] theorem State.prepend_devNo (s : State) (ms : List Move) : (s.prepend ms).devNo = s.devNo := rfl
@[simp] theorem State.prepend_fabmark (s : State) (ms : List Move) : (s.prepend ms).fabmark = s.fabmark := rfl
@[simp] theorem State.prepend_hostmark (s : State) (ms : List Move) : (s.prepend ms).hostmark = s.hostmark := rfl
@[simp] theorem State.prepend_swgen (s : State) (ms : List Move) : (s.prepend ms).swgen = s.swgen := rfl
@[simp] theorem State.prepend_feat (s : State) (ms : List Move) : (s.prepend ms).feat = s.feat := rfl
@[simp] theorem State.prepend_dieMask (s : State) (ms : List Move) : (s.prepend ms).dieMask = s.dieMask := rfl
@[simp] theorem State.prepend_ctxtab (s : State) (ms : List Move) : (s.prepend ms).ctxtab = s.ctxtab := rfl
@[simp] theorem State.prepend_privCtx (s : State) (ms : List Move) : (s.prepend ms).privCtx = s.privCtx := rfl
@[simp] theorem State.prepend_bar0Sdva (s : State) (ms : List Move) : (s.prepend ms).bar0Sdva = s.bar0Sdva := rfl
@[simp] theorem State.prepend_bar0Sdctl (s : State) (ms : List Move) : (s.prepend ms).bar0Sdctl = s.bar0Sdctl := rfl
@[simp] theorem State.prepend_bar0Busy (s : State) (ms : List Move) : (s.prepend ms).bar0Busy = s.bar0Busy := rfl
@[simp] theorem State.prepend_shoots (s : State) (ms : List Move) : (s.prepend ms).shoots = s.shoots := rfl
@[simp] theorem State.prepend_launches (s : State) (ms : List Move) : (s.prepend ms).launches = s.launches := rfl
@[simp] theorem State.prepend_nextLaunch (s : State) (ms : List Move) : (s.prepend ms).nextLaunch = s.nextLaunch := rfl
@[simp] theorem State.prepend_passRecs (s : State) (ms : List Move) : (s.prepend ms).passRecs = s.passRecs := rfl
@[simp] theorem State.prepend_nextRec (s : State) (ms : List Move) : (s.prepend ms).nextRec = s.nextRec := rfl
@[simp] theorem State.prepend_apertures (s : State) (ms : List Move) : (s.prepend ms).apertures = s.apertures := rfl
@[simp] theorem State.prepend_ports (s : State) (ms : List Move) : (s.prepend ms).ports = s.ports := rfl
@[simp] theorem State.prepend_remotes (s : State) (ms : List Move) : (s.prepend ms).remotes = s.remotes := rfl
@[simp] theorem State.prepend_streams (s : State) (ms : List Move) : (s.prepend ms).streams = s.streams := rfl
@[simp] theorem State.prepend_dieSaves (s : State) (ms : List Move) : (s.prepend ms).dieSaves = s.dieSaves := rfl
@[simp] theorem State.prepend_saved (s : State) (ms : List Move) : (s.prepend ms).saved = s.saved := rfl
@[simp] theorem State.prepend_reports (s : State) (ms : List Move) : (s.prepend ms).reports = s.reports := rfl
@[simp] theorem State.prepend_interrupts (s : State) (ms : List Move) : (s.prepend ms).interrupts = s.interrupts := rfl
@[simp] theorem State.prepend_hostReply (s : State) (ms : List Move) : (s.prepend ms).hostReply = s.hostReply := rfl
@[simp] theorem State.prepend_remoteReplies (s : State) (ms : List Move) : (s.prepend ms).remoteReplies = s.remoteReplies := rfl

/-! ## send -/

@[simp] theorem State.send_agenda (s : State) (r : Req) : (s.send r).agenda = s.agenda := rfl
@[simp] theorem State.send_tick (s : State) (r : Req) : (s.send r).tick = s.tick := rfl
@[simp] theorem State.send_iss (s : State) (r : Req) : (s.send r).iss = s.iss := rfl
@[simp] theorem State.send_mem (s : State) (r : Req) : (s.send r).mem = s.mem := rfl
@[simp] theorem State.send_poison (s : State) (r : Req) : (s.send r).poison = s.poison := rfl
@[simp] theorem State.send_comp (s : State) (r : Req) : (s.send r).comp = s.comp := rfl
@[simp] theorem State.send_lines (s : State) (r : Req) : (s.send r).lines = s.lines := rfl
@[simp] theorem State.send_reqs (s : State) (r : Req) : (s.send r).reqs = s.reqs ++ [{ r with id := s.nextReq }] := rfl
@[simp] theorem State.send_nextReq (s : State) (r : Req) : (s.send r).nextReq = s.nextReq + 1 := rfl
@[simp] theorem State.send_nextOp (s : State) (r : Req) : (s.send r).nextOp = s.nextOp := rfl
@[simp] theorem State.send_cores (s : State) (r : Req) : (s.send r).cores = s.cores := rfl
@[simp] theorem State.send_dies (s : State) (r : Req) : (s.send r).dies = s.dies := rfl
@[simp] theorem State.send_cycle (s : State) (r : Req) : (s.send r).cycle = s.cycle := rfl
@[simp] theorem State.send_ptime (s : State) (r : Req) : (s.send r).ptime = s.ptime := rfl
@[simp] theorem State.send_ptimeSub (s : State) (r : Req) : (s.send r).ptimeSub = s.ptimeSub := rfl
@[simp] theorem State.send_base (s : State) (r : Req) : (s.send r).base = s.base := rfl
@[simp] theorem State.send_epoch (s : State) (r : Req) : (s.send r).epoch = s.epoch := rfl
@[simp] theorem State.send_rebases (s : State) (r : Req) : (s.send r).rebases = s.rebases := rfl
@[simp] theorem State.send_timeSync (s : State) (r : Req) : (s.send r).timeSync = s.timeSync := rfl
@[simp] theorem State.send_timeErr (s : State) (r : Req) : (s.send r).timeErr = s.timeErr := rfl
@[simp] theorem State.send_errLow (s : State) (r : Req) : (s.send r).errLow = s.errLow := rfl
@[simp] theorem State.send_clockStop (s : State) (r : Req) : (s.send r).clockStop = s.clockStop := rfl
@[simp] theorem State.send_winLen (s : State) (r : Req) : (s.send r).winLen = s.winLen := rfl
@[simp] theorem State.send_devNo (s : State) (r : Req) : (s.send r).devNo = s.devNo := rfl
@[simp] theorem State.send_fabmark (s : State) (r : Req) : (s.send r).fabmark = s.fabmark := rfl
@[simp] theorem State.send_hostmark (s : State) (r : Req) : (s.send r).hostmark = s.hostmark := rfl
@[simp] theorem State.send_swgen (s : State) (r : Req) : (s.send r).swgen = s.swgen := rfl
@[simp] theorem State.send_feat (s : State) (r : Req) : (s.send r).feat = s.feat := rfl
@[simp] theorem State.send_dieMask (s : State) (r : Req) : (s.send r).dieMask = s.dieMask := rfl
@[simp] theorem State.send_ctxtab (s : State) (r : Req) : (s.send r).ctxtab = s.ctxtab := rfl
@[simp] theorem State.send_privCtx (s : State) (r : Req) : (s.send r).privCtx = s.privCtx := rfl
@[simp] theorem State.send_bar0Sdva (s : State) (r : Req) : (s.send r).bar0Sdva = s.bar0Sdva := rfl
@[simp] theorem State.send_bar0Sdctl (s : State) (r : Req) : (s.send r).bar0Sdctl = s.bar0Sdctl := rfl
@[simp] theorem State.send_bar0Busy (s : State) (r : Req) : (s.send r).bar0Busy = s.bar0Busy := rfl
@[simp] theorem State.send_shoots (s : State) (r : Req) : (s.send r).shoots = s.shoots := rfl
@[simp] theorem State.send_launches (s : State) (r : Req) : (s.send r).launches = s.launches := rfl
@[simp] theorem State.send_nextLaunch (s : State) (r : Req) : (s.send r).nextLaunch = s.nextLaunch := rfl
@[simp] theorem State.send_passRecs (s : State) (r : Req) : (s.send r).passRecs = s.passRecs := rfl
@[simp] theorem State.send_nextRec (s : State) (r : Req) : (s.send r).nextRec = s.nextRec := rfl
@[simp] theorem State.send_apertures (s : State) (r : Req) : (s.send r).apertures = s.apertures := rfl
@[simp] theorem State.send_ports (s : State) (r : Req) : (s.send r).ports = s.ports := rfl
@[simp] theorem State.send_remotes (s : State) (r : Req) : (s.send r).remotes = s.remotes := rfl
@[simp] theorem State.send_streams (s : State) (r : Req) : (s.send r).streams = s.streams := rfl
@[simp] theorem State.send_dieSaves (s : State) (r : Req) : (s.send r).dieSaves = s.dieSaves := rfl
@[simp] theorem State.send_saved (s : State) (r : Req) : (s.send r).saved = s.saved := rfl
@[simp] theorem State.send_reports (s : State) (r : Req) : (s.send r).reports = s.reports := rfl
@[simp] theorem State.send_interrupts (s : State) (r : Req) : (s.send r).interrupts = s.interrupts := rfl
@[simp] theorem State.send_hostReply (s : State) (r : Req) : (s.send r).hostReply = s.hostReply := rfl
@[simp] theorem State.send_remoteReplies (s : State) (r : Req) : (s.send r).remoteReplies = s.remoteReplies := rfl

/-! ## Cores, dies and groups behind an update -/

theorem Sparse.get?_put {α : Type} (t : Sparse α) (k j : Nat) (v : α) :
    Sparse.get? (Sparse.put t k v) j = if j = k then some v else Sparse.get? t j := by
  induction t with
  | nil => simp [Sparse.put, Sparse.get?]
  | cons p t ih =>
    obtain ⟨k', v'⟩ := p
    unfold Sparse.put
    split
    · simp [Sparse.get?]
    · split
      · subst_vars; simp only [Sparse.get?]; split <;> rfl
      · simp only [Sparse.get?, ih]; split <;> split <;> simp_all

/-- The later of two entries put at one key stays. -/
@[simp] theorem Sparse.put_put {α : Type} (t : Sparse α) (k : Nat) (v w : α) : Sparse.put (Sparse.put t k v) k w = Sparse.put t k w := by
  induction t with
  | nil => simp [Sparse.put]
  | cons p t ih =>
    obtain ⟨j, x⟩ := p
    by_cases h1 : k < j
    · simp [Sparse.put, h1]
    · by_cases h2 : k = j
      · simp [Sparse.put, h2]
      · simp [Sparse.put, h1, h2, ih]

theorem Sparse.get?_erase {α : Type} (t : Sparse α) (k j : Nat) :
    Sparse.get? (Sparse.erase t k) j = if j = k then none else Sparse.get? t j := by
  induction t with
  | nil => simp [Sparse.erase, Sparse.get?]
  | cons p t ih =>
    obtain ⟨k', v'⟩ := p
    simp only [Sparse.erase, List.filter_cons, bne_iff_ne, ne_eq] at ih ⊢
    by_cases h1 : k' = k <;> by_cases h2 : j = k <;> by_cases h3 : j = k' <;> simp_all [Sparse.get?]

/-- A core that has been set. -/
@[simp] theorem State.core_setCore (s : State) (k : Nat) (c : Core) : (s.setCore k c).core k = c := by
  simp [State.core, Sparse.get?_put]

theorem State.core_setCore_ne (s : State) {j k : Nat} (c : Core) (h : j ≠ k) : (s.setCore k c).core j = s.core j := by
  simp [State.core, Sparse.get?_put, h]

@[simp] theorem State.core_setDie (s : State) (d k : Nat) (x : Die) : (s.setDie d x).core k = s.core k := rfl

@[simp] theorem State.die_setDie (s : State) (d : Nat) (x : Die) : (s.setDie d x).die d = x := by
  simp [State.die, Sparse.get?_put]

theorem State.die_setDie_ne (s : State) {d e : Nat} (x : Die) (h : e ≠ d) : (s.setDie d x).die e = s.die e := by
  simp [State.die, Sparse.get?_put, h]

@[simp] theorem State.die_setCore (s : State) (d k : Nat) (c : Core) : (s.setCore k c).die d = s.die d := rfl

@[simp] theorem State.group?_setGroup (s : State) (k f : Nat) (g : Group) : (s.setGroup k f g).group? k f = some g := by
  simp [State.group?, State.setGroup, State.modCore, Sparse.get?_put]

theorem State.group?_setGroup_ne (s : State) {k f j m : Nat} (g : Group) (h : (j, m) ≠ (k, f)) :
    (s.setGroup k f g).group? j m = s.group? j m := by
  by_cases hk : j = k
  · subst hk
    have hm : m ≠ f := fun e => h (by rw [e])
    simp [State.group?, State.setGroup, State.modCore, Sparse.get?_put, hm]
  · simp [State.group?, State.setGroup, State.modCore, State.core_setCore_ne _ _ hk]

/-- The core of a group that is set. -/
theorem State.core_setGroup (s : State) (k f : Nat) (g : Group) :
    (s.setGroup k f g).core k = { s.core k with frames := Sparse.put (s.core k).frames f g } := by
  simp [State.setGroup, State.modCore]

theorem State.core_setGroup_ne (s : State) {j k : Nat} (f : Nat) (g : Group) (h : j ≠ k) : (s.setGroup k f g).core j = s.core j := by
  simp [State.setGroup, State.modCore, State.core_setCore_ne _ _ h]

/-- The later of two groups set in one frame stays. -/
@[simp] theorem State.setGroup_setGroup (s : State) (k f : Nat) (g h : Group) : (s.setGroup k f g).setGroup k f h = s.setGroup k f h := by
  have h1 : ∀ c d : Core, (s.setCore k c).setCore k d = s.setCore k d := fun c d => by simp only [State.setCore, Sparse.put_put]
  simp only [State.setGroup, State.modCore, State.core_setCore, h1, Sparse.put_put]

/-! ## setGroup, modGroup, advance and finish -/

@[simp] theorem State.setGroup_agenda (s : State) (k f : Nat) (g : Group) : (s.setGroup k f g).agenda = s.agenda := rfl
@[simp] theorem State.setGroup_tick (s : State) (k f : Nat) (g : Group) : (s.setGroup k f g).tick = s.tick := rfl
@[simp] theorem State.setGroup_iss (s : State) (k f : Nat) (g : Group) : (s.setGroup k f g).iss = s.iss := rfl
@[simp] theorem State.setGroup_mem (s : State) (k f : Nat) (g : Group) : (s.setGroup k f g).mem = s.mem := rfl
@[simp] theorem State.setGroup_poison (s : State) (k f : Nat) (g : Group) : (s.setGroup k f g).poison = s.poison := rfl
@[simp] theorem State.setGroup_comp (s : State) (k f : Nat) (g : Group) : (s.setGroup k f g).comp = s.comp := rfl
@[simp] theorem State.setGroup_lines (s : State) (k f : Nat) (g : Group) : (s.setGroup k f g).lines = s.lines := rfl
@[simp] theorem State.setGroup_reqs (s : State) (k f : Nat) (g : Group) : (s.setGroup k f g).reqs = s.reqs := rfl
@[simp] theorem State.setGroup_nextReq (s : State) (k f : Nat) (g : Group) : (s.setGroup k f g).nextReq = s.nextReq := rfl
@[simp] theorem State.setGroup_nextOp (s : State) (k f : Nat) (g : Group) : (s.setGroup k f g).nextOp = s.nextOp := rfl
@[simp] theorem State.setGroup_dies (s : State) (k f : Nat) (g : Group) : (s.setGroup k f g).dies = s.dies := rfl
@[simp] theorem State.setGroup_cycle (s : State) (k f : Nat) (g : Group) : (s.setGroup k f g).cycle = s.cycle := rfl
@[simp] theorem State.setGroup_ptime (s : State) (k f : Nat) (g : Group) : (s.setGroup k f g).ptime = s.ptime := rfl
@[simp] theorem State.setGroup_ptimeSub (s : State) (k f : Nat) (g : Group) : (s.setGroup k f g).ptimeSub = s.ptimeSub := rfl
@[simp] theorem State.setGroup_base (s : State) (k f : Nat) (g : Group) : (s.setGroup k f g).base = s.base := rfl
@[simp] theorem State.setGroup_epoch (s : State) (k f : Nat) (g : Group) : (s.setGroup k f g).epoch = s.epoch := rfl
@[simp] theorem State.setGroup_rebases (s : State) (k f : Nat) (g : Group) : (s.setGroup k f g).rebases = s.rebases := rfl
@[simp] theorem State.setGroup_timeSync (s : State) (k f : Nat) (g : Group) : (s.setGroup k f g).timeSync = s.timeSync := rfl
@[simp] theorem State.setGroup_timeErr (s : State) (k f : Nat) (g : Group) : (s.setGroup k f g).timeErr = s.timeErr := rfl
@[simp] theorem State.setGroup_errLow (s : State) (k f : Nat) (g : Group) : (s.setGroup k f g).errLow = s.errLow := rfl
@[simp] theorem State.setGroup_clockStop (s : State) (k f : Nat) (g : Group) : (s.setGroup k f g).clockStop = s.clockStop := rfl
@[simp] theorem State.setGroup_winLen (s : State) (k f : Nat) (g : Group) : (s.setGroup k f g).winLen = s.winLen := rfl
@[simp] theorem State.setGroup_devNo (s : State) (k f : Nat) (g : Group) : (s.setGroup k f g).devNo = s.devNo := rfl
@[simp] theorem State.setGroup_fabmark (s : State) (k f : Nat) (g : Group) : (s.setGroup k f g).fabmark = s.fabmark := rfl
@[simp] theorem State.setGroup_hostmark (s : State) (k f : Nat) (g : Group) : (s.setGroup k f g).hostmark = s.hostmark := rfl
@[simp] theorem State.setGroup_swgen (s : State) (k f : Nat) (g : Group) : (s.setGroup k f g).swgen = s.swgen := rfl
@[simp] theorem State.setGroup_feat (s : State) (k f : Nat) (g : Group) : (s.setGroup k f g).feat = s.feat := rfl
@[simp] theorem State.setGroup_dieMask (s : State) (k f : Nat) (g : Group) : (s.setGroup k f g).dieMask = s.dieMask := rfl
@[simp] theorem State.setGroup_ctxtab (s : State) (k f : Nat) (g : Group) : (s.setGroup k f g).ctxtab = s.ctxtab := rfl
@[simp] theorem State.setGroup_privCtx (s : State) (k f : Nat) (g : Group) : (s.setGroup k f g).privCtx = s.privCtx := rfl
@[simp] theorem State.setGroup_bar0Sdva (s : State) (k f : Nat) (g : Group) : (s.setGroup k f g).bar0Sdva = s.bar0Sdva := rfl
@[simp] theorem State.setGroup_bar0Sdctl (s : State) (k f : Nat) (g : Group) : (s.setGroup k f g).bar0Sdctl = s.bar0Sdctl := rfl
@[simp] theorem State.setGroup_bar0Busy (s : State) (k f : Nat) (g : Group) : (s.setGroup k f g).bar0Busy = s.bar0Busy := rfl
@[simp] theorem State.setGroup_shoots (s : State) (k f : Nat) (g : Group) : (s.setGroup k f g).shoots = s.shoots := rfl
@[simp] theorem State.setGroup_launches (s : State) (k f : Nat) (g : Group) : (s.setGroup k f g).launches = s.launches := rfl
@[simp] theorem State.setGroup_nextLaunch (s : State) (k f : Nat) (g : Group) : (s.setGroup k f g).nextLaunch = s.nextLaunch := rfl
@[simp] theorem State.setGroup_passRecs (s : State) (k f : Nat) (g : Group) : (s.setGroup k f g).passRecs = s.passRecs := rfl
@[simp] theorem State.setGroup_nextRec (s : State) (k f : Nat) (g : Group) : (s.setGroup k f g).nextRec = s.nextRec := rfl
@[simp] theorem State.setGroup_apertures (s : State) (k f : Nat) (g : Group) : (s.setGroup k f g).apertures = s.apertures := rfl
@[simp] theorem State.setGroup_ports (s : State) (k f : Nat) (g : Group) : (s.setGroup k f g).ports = s.ports := rfl
@[simp] theorem State.setGroup_remotes (s : State) (k f : Nat) (g : Group) : (s.setGroup k f g).remotes = s.remotes := rfl
@[simp] theorem State.setGroup_streams (s : State) (k f : Nat) (g : Group) : (s.setGroup k f g).streams = s.streams := rfl
@[simp] theorem State.setGroup_dieSaves (s : State) (k f : Nat) (g : Group) : (s.setGroup k f g).dieSaves = s.dieSaves := rfl
@[simp] theorem State.setGroup_saved (s : State) (k f : Nat) (g : Group) : (s.setGroup k f g).saved = s.saved := rfl
@[simp] theorem State.setGroup_reports (s : State) (k f : Nat) (g : Group) : (s.setGroup k f g).reports = s.reports := rfl
@[simp] theorem State.setGroup_interrupts (s : State) (k f : Nat) (g : Group) : (s.setGroup k f g).interrupts = s.interrupts := rfl
@[simp] theorem State.setGroup_hostReply (s : State) (k f : Nat) (g : Group) : (s.setGroup k f g).hostReply = s.hostReply := rfl
@[simp] theorem State.setGroup_remoteReplies (s : State) (k f : Nat) (g : Group) : (s.setGroup k f g).remoteReplies = s.remoteReplies := rfl

@[simp] theorem State.modGroup_agenda (s : State) (k f : Nat) (u : Group → Group) : (s.modGroup k f u).agenda = s.agenda := by
  unfold State.modGroup; split <;> rfl
@[simp] theorem State.modGroup_tick (s : State) (k f : Nat) (u : Group → Group) : (s.modGroup k f u).tick = s.tick := by
  unfold State.modGroup; split <;> rfl
@[simp] theorem State.modGroup_iss (s : State) (k f : Nat) (u : Group → Group) : (s.modGroup k f u).iss = s.iss := by
  unfold State.modGroup; split <;> rfl
@[simp] theorem State.modGroup_mem (s : State) (k f : Nat) (u : Group → Group) : (s.modGroup k f u).mem = s.mem := by
  unfold State.modGroup; split <;> rfl
@[simp] theorem State.modGroup_poison (s : State) (k f : Nat) (u : Group → Group) : (s.modGroup k f u).poison = s.poison := by
  unfold State.modGroup; split <;> rfl
@[simp] theorem State.modGroup_comp (s : State) (k f : Nat) (u : Group → Group) : (s.modGroup k f u).comp = s.comp := by
  unfold State.modGroup; split <;> rfl
@[simp] theorem State.modGroup_lines (s : State) (k f : Nat) (u : Group → Group) : (s.modGroup k f u).lines = s.lines := by
  unfold State.modGroup; split <;> rfl
@[simp] theorem State.modGroup_reqs (s : State) (k f : Nat) (u : Group → Group) : (s.modGroup k f u).reqs = s.reqs := by
  unfold State.modGroup; split <;> rfl
@[simp] theorem State.modGroup_nextReq (s : State) (k f : Nat) (u : Group → Group) : (s.modGroup k f u).nextReq = s.nextReq := by
  unfold State.modGroup; split <;> rfl
@[simp] theorem State.modGroup_nextOp (s : State) (k f : Nat) (u : Group → Group) : (s.modGroup k f u).nextOp = s.nextOp := by
  unfold State.modGroup; split <;> rfl
@[simp] theorem State.modGroup_dies (s : State) (k f : Nat) (u : Group → Group) : (s.modGroup k f u).dies = s.dies := by
  unfold State.modGroup; split <;> rfl
@[simp] theorem State.modGroup_cycle (s : State) (k f : Nat) (u : Group → Group) : (s.modGroup k f u).cycle = s.cycle := by
  unfold State.modGroup; split <;> rfl
@[simp] theorem State.modGroup_ptime (s : State) (k f : Nat) (u : Group → Group) : (s.modGroup k f u).ptime = s.ptime := by
  unfold State.modGroup; split <;> rfl
@[simp] theorem State.modGroup_ptimeSub (s : State) (k f : Nat) (u : Group → Group) : (s.modGroup k f u).ptimeSub = s.ptimeSub := by
  unfold State.modGroup; split <;> rfl
@[simp] theorem State.modGroup_base (s : State) (k f : Nat) (u : Group → Group) : (s.modGroup k f u).base = s.base := by
  unfold State.modGroup; split <;> rfl
@[simp] theorem State.modGroup_epoch (s : State) (k f : Nat) (u : Group → Group) : (s.modGroup k f u).epoch = s.epoch := by
  unfold State.modGroup; split <;> rfl
@[simp] theorem State.modGroup_rebases (s : State) (k f : Nat) (u : Group → Group) : (s.modGroup k f u).rebases = s.rebases := by
  unfold State.modGroup; split <;> rfl
@[simp] theorem State.modGroup_timeSync (s : State) (k f : Nat) (u : Group → Group) : (s.modGroup k f u).timeSync = s.timeSync := by
  unfold State.modGroup; split <;> rfl
@[simp] theorem State.modGroup_timeErr (s : State) (k f : Nat) (u : Group → Group) : (s.modGroup k f u).timeErr = s.timeErr := by
  unfold State.modGroup; split <;> rfl
@[simp] theorem State.modGroup_errLow (s : State) (k f : Nat) (u : Group → Group) : (s.modGroup k f u).errLow = s.errLow := by
  unfold State.modGroup; split <;> rfl
@[simp] theorem State.modGroup_clockStop (s : State) (k f : Nat) (u : Group → Group) : (s.modGroup k f u).clockStop = s.clockStop := by
  unfold State.modGroup; split <;> rfl
@[simp] theorem State.modGroup_winLen (s : State) (k f : Nat) (u : Group → Group) : (s.modGroup k f u).winLen = s.winLen := by
  unfold State.modGroup; split <;> rfl
@[simp] theorem State.modGroup_devNo (s : State) (k f : Nat) (u : Group → Group) : (s.modGroup k f u).devNo = s.devNo := by
  unfold State.modGroup; split <;> rfl
@[simp] theorem State.modGroup_fabmark (s : State) (k f : Nat) (u : Group → Group) : (s.modGroup k f u).fabmark = s.fabmark := by
  unfold State.modGroup; split <;> rfl
@[simp] theorem State.modGroup_hostmark (s : State) (k f : Nat) (u : Group → Group) : (s.modGroup k f u).hostmark = s.hostmark := by
  unfold State.modGroup; split <;> rfl
@[simp] theorem State.modGroup_swgen (s : State) (k f : Nat) (u : Group → Group) : (s.modGroup k f u).swgen = s.swgen := by
  unfold State.modGroup; split <;> rfl
@[simp] theorem State.modGroup_feat (s : State) (k f : Nat) (u : Group → Group) : (s.modGroup k f u).feat = s.feat := by
  unfold State.modGroup; split <;> rfl
@[simp] theorem State.modGroup_dieMask (s : State) (k f : Nat) (u : Group → Group) : (s.modGroup k f u).dieMask = s.dieMask := by
  unfold State.modGroup; split <;> rfl
@[simp] theorem State.modGroup_ctxtab (s : State) (k f : Nat) (u : Group → Group) : (s.modGroup k f u).ctxtab = s.ctxtab := by
  unfold State.modGroup; split <;> rfl
@[simp] theorem State.modGroup_privCtx (s : State) (k f : Nat) (u : Group → Group) : (s.modGroup k f u).privCtx = s.privCtx := by
  unfold State.modGroup; split <;> rfl
@[simp] theorem State.modGroup_bar0Sdva (s : State) (k f : Nat) (u : Group → Group) : (s.modGroup k f u).bar0Sdva = s.bar0Sdva := by
  unfold State.modGroup; split <;> rfl
@[simp] theorem State.modGroup_bar0Sdctl (s : State) (k f : Nat) (u : Group → Group) : (s.modGroup k f u).bar0Sdctl = s.bar0Sdctl := by
  unfold State.modGroup; split <;> rfl
@[simp] theorem State.modGroup_bar0Busy (s : State) (k f : Nat) (u : Group → Group) : (s.modGroup k f u).bar0Busy = s.bar0Busy := by
  unfold State.modGroup; split <;> rfl
@[simp] theorem State.modGroup_shoots (s : State) (k f : Nat) (u : Group → Group) : (s.modGroup k f u).shoots = s.shoots := by
  unfold State.modGroup; split <;> rfl
@[simp] theorem State.modGroup_launches (s : State) (k f : Nat) (u : Group → Group) : (s.modGroup k f u).launches = s.launches := by
  unfold State.modGroup; split <;> rfl
@[simp] theorem State.modGroup_nextLaunch (s : State) (k f : Nat) (u : Group → Group) : (s.modGroup k f u).nextLaunch = s.nextLaunch := by
  unfold State.modGroup; split <;> rfl
@[simp] theorem State.modGroup_passRecs (s : State) (k f : Nat) (u : Group → Group) : (s.modGroup k f u).passRecs = s.passRecs := by
  unfold State.modGroup; split <;> rfl
@[simp] theorem State.modGroup_nextRec (s : State) (k f : Nat) (u : Group → Group) : (s.modGroup k f u).nextRec = s.nextRec := by
  unfold State.modGroup; split <;> rfl
@[simp] theorem State.modGroup_apertures (s : State) (k f : Nat) (u : Group → Group) : (s.modGroup k f u).apertures = s.apertures := by
  unfold State.modGroup; split <;> rfl
@[simp] theorem State.modGroup_ports (s : State) (k f : Nat) (u : Group → Group) : (s.modGroup k f u).ports = s.ports := by
  unfold State.modGroup; split <;> rfl
@[simp] theorem State.modGroup_remotes (s : State) (k f : Nat) (u : Group → Group) : (s.modGroup k f u).remotes = s.remotes := by
  unfold State.modGroup; split <;> rfl
@[simp] theorem State.modGroup_streams (s : State) (k f : Nat) (u : Group → Group) : (s.modGroup k f u).streams = s.streams := by
  unfold State.modGroup; split <;> rfl
@[simp] theorem State.modGroup_dieSaves (s : State) (k f : Nat) (u : Group → Group) : (s.modGroup k f u).dieSaves = s.dieSaves := by
  unfold State.modGroup; split <;> rfl
@[simp] theorem State.modGroup_saved (s : State) (k f : Nat) (u : Group → Group) : (s.modGroup k f u).saved = s.saved := by
  unfold State.modGroup; split <;> rfl
@[simp] theorem State.modGroup_reports (s : State) (k f : Nat) (u : Group → Group) : (s.modGroup k f u).reports = s.reports := by
  unfold State.modGroup; split <;> rfl
@[simp] theorem State.modGroup_interrupts (s : State) (k f : Nat) (u : Group → Group) : (s.modGroup k f u).interrupts = s.interrupts := by
  unfold State.modGroup; split <;> rfl
@[simp] theorem State.modGroup_hostReply (s : State) (k f : Nat) (u : Group → Group) : (s.modGroup k f u).hostReply = s.hostReply := by
  unfold State.modGroup; split <;> rfl
@[simp] theorem State.modGroup_remoteReplies (s : State) (k f : Nat) (u : Group → Group) : (s.modGroup k f u).remoteReplies = s.remoteReplies := by
  unfold State.modGroup; split <;> rfl

theorem State.modGroup_some {s : State} {k f : Nat} {g : Group} (h : s.group? k f = some g) (u : Group → Group) :
    s.modGroup k f u = s.setGroup k f (u g) := by simp [State.modGroup, h]

theorem State.group?_modGroup {s : State} {k f : Nat} {g : Group} (h : s.group? k f = some g) (u : Group → Group) :
    (s.modGroup k f u).group? k f = some (u g) := by simp [State.modGroup_some h]

@[simp] theorem State.advance_agenda (s : State) : s.advance.agenda = s.agenda := State.modGroup_agenda _ _ _ _
@[simp] theorem State.finish_agenda (s : State) (g : Group) : (s.finish g).agenda = s.agenda := by simp [State.finish]
@[simp] theorem State.advance_tick (s : State) : s.advance.tick = s.tick := State.modGroup_tick _ _ _ _
@[simp] theorem State.finish_tick (s : State) (g : Group) : (s.finish g).tick = s.tick := by simp [State.finish]
@[simp] theorem State.advance_iss (s : State) : s.advance.iss = s.iss := State.modGroup_iss _ _ _ _
@[simp] theorem State.finish_iss (s : State) (g : Group) : (s.finish g).iss = s.iss := by simp [State.finish]
@[simp] theorem State.advance_mem (s : State) : s.advance.mem = s.mem := State.modGroup_mem _ _ _ _
@[simp] theorem State.finish_mem (s : State) (g : Group) : (s.finish g).mem = s.mem := by simp [State.finish]
@[simp] theorem State.advance_poison (s : State) : s.advance.poison = s.poison := State.modGroup_poison _ _ _ _
@[simp] theorem State.finish_poison (s : State) (g : Group) : (s.finish g).poison = s.poison := by simp [State.finish]
@[simp] theorem State.advance_comp (s : State) : s.advance.comp = s.comp := State.modGroup_comp _ _ _ _
@[simp] theorem State.finish_comp (s : State) (g : Group) : (s.finish g).comp = s.comp := by simp [State.finish]
@[simp] theorem State.advance_lines (s : State) : s.advance.lines = s.lines := State.modGroup_lines _ _ _ _
@[simp] theorem State.finish_lines (s : State) (g : Group) : (s.finish g).lines = s.lines := by simp [State.finish]
@[simp] theorem State.advance_reqs (s : State) : s.advance.reqs = s.reqs := State.modGroup_reqs _ _ _ _
@[simp] theorem State.finish_reqs (s : State) (g : Group) : (s.finish g).reqs = s.reqs := by simp [State.finish]
@[simp] theorem State.advance_nextReq (s : State) : s.advance.nextReq = s.nextReq := State.modGroup_nextReq _ _ _ _
@[simp] theorem State.finish_nextReq (s : State) (g : Group) : (s.finish g).nextReq = s.nextReq := by simp [State.finish]
@[simp] theorem State.advance_nextOp (s : State) : s.advance.nextOp = s.nextOp := State.modGroup_nextOp _ _ _ _
@[simp] theorem State.finish_nextOp (s : State) (g : Group) : (s.finish g).nextOp = s.nextOp := by simp [State.finish]
@[simp] theorem State.advance_dies (s : State) : s.advance.dies = s.dies := State.modGroup_dies _ _ _ _
@[simp] theorem State.finish_dies (s : State) (g : Group) : (s.finish g).dies = s.dies := by simp [State.finish]
@[simp] theorem State.advance_cycle (s : State) : s.advance.cycle = s.cycle := State.modGroup_cycle _ _ _ _
@[simp] theorem State.finish_cycle (s : State) (g : Group) : (s.finish g).cycle = s.cycle := by simp [State.finish]
@[simp] theorem State.advance_ptime (s : State) : s.advance.ptime = s.ptime := State.modGroup_ptime _ _ _ _
@[simp] theorem State.finish_ptime (s : State) (g : Group) : (s.finish g).ptime = s.ptime := by simp [State.finish]
@[simp] theorem State.advance_ptimeSub (s : State) : s.advance.ptimeSub = s.ptimeSub := State.modGroup_ptimeSub _ _ _ _
@[simp] theorem State.finish_ptimeSub (s : State) (g : Group) : (s.finish g).ptimeSub = s.ptimeSub := by simp [State.finish]
@[simp] theorem State.advance_base (s : State) : s.advance.base = s.base := State.modGroup_base _ _ _ _
@[simp] theorem State.finish_base (s : State) (g : Group) : (s.finish g).base = s.base := by simp [State.finish]
@[simp] theorem State.advance_epoch (s : State) : s.advance.epoch = s.epoch := State.modGroup_epoch _ _ _ _
@[simp] theorem State.finish_epoch (s : State) (g : Group) : (s.finish g).epoch = s.epoch := by simp [State.finish]
@[simp] theorem State.advance_rebases (s : State) : s.advance.rebases = s.rebases := State.modGroup_rebases _ _ _ _
@[simp] theorem State.finish_rebases (s : State) (g : Group) : (s.finish g).rebases = s.rebases := by simp [State.finish]
@[simp] theorem State.advance_timeSync (s : State) : s.advance.timeSync = s.timeSync := State.modGroup_timeSync _ _ _ _
@[simp] theorem State.finish_timeSync (s : State) (g : Group) : (s.finish g).timeSync = s.timeSync := by simp [State.finish]
@[simp] theorem State.advance_timeErr (s : State) : s.advance.timeErr = s.timeErr := State.modGroup_timeErr _ _ _ _
@[simp] theorem State.finish_timeErr (s : State) (g : Group) : (s.finish g).timeErr = s.timeErr := by simp [State.finish]
@[simp] theorem State.advance_errLow (s : State) : s.advance.errLow = s.errLow := State.modGroup_errLow _ _ _ _
@[simp] theorem State.finish_errLow (s : State) (g : Group) : (s.finish g).errLow = s.errLow := by simp [State.finish]
@[simp] theorem State.advance_clockStop (s : State) : s.advance.clockStop = s.clockStop := State.modGroup_clockStop _ _ _ _
@[simp] theorem State.finish_clockStop (s : State) (g : Group) : (s.finish g).clockStop = s.clockStop := by simp [State.finish]
@[simp] theorem State.advance_winLen (s : State) : s.advance.winLen = s.winLen := State.modGroup_winLen _ _ _ _
@[simp] theorem State.finish_winLen (s : State) (g : Group) : (s.finish g).winLen = s.winLen := by simp [State.finish]
@[simp] theorem State.advance_devNo (s : State) : s.advance.devNo = s.devNo := State.modGroup_devNo _ _ _ _
@[simp] theorem State.finish_devNo (s : State) (g : Group) : (s.finish g).devNo = s.devNo := by simp [State.finish]
@[simp] theorem State.advance_fabmark (s : State) : s.advance.fabmark = s.fabmark := State.modGroup_fabmark _ _ _ _
@[simp] theorem State.finish_fabmark (s : State) (g : Group) : (s.finish g).fabmark = s.fabmark := by simp [State.finish]
@[simp] theorem State.advance_hostmark (s : State) : s.advance.hostmark = s.hostmark := State.modGroup_hostmark _ _ _ _
@[simp] theorem State.finish_hostmark (s : State) (g : Group) : (s.finish g).hostmark = s.hostmark := by simp [State.finish]
@[simp] theorem State.advance_swgen (s : State) : s.advance.swgen = s.swgen := State.modGroup_swgen _ _ _ _
@[simp] theorem State.finish_swgen (s : State) (g : Group) : (s.finish g).swgen = s.swgen := by simp [State.finish]
@[simp] theorem State.advance_feat (s : State) : s.advance.feat = s.feat := State.modGroup_feat _ _ _ _
@[simp] theorem State.finish_feat (s : State) (g : Group) : (s.finish g).feat = s.feat := by simp [State.finish]
@[simp] theorem State.advance_dieMask (s : State) : s.advance.dieMask = s.dieMask := State.modGroup_dieMask _ _ _ _
@[simp] theorem State.finish_dieMask (s : State) (g : Group) : (s.finish g).dieMask = s.dieMask := by simp [State.finish]
@[simp] theorem State.advance_ctxtab (s : State) : s.advance.ctxtab = s.ctxtab := State.modGroup_ctxtab _ _ _ _
@[simp] theorem State.finish_ctxtab (s : State) (g : Group) : (s.finish g).ctxtab = s.ctxtab := by simp [State.finish]
@[simp] theorem State.advance_privCtx (s : State) : s.advance.privCtx = s.privCtx := State.modGroup_privCtx _ _ _ _
@[simp] theorem State.finish_privCtx (s : State) (g : Group) : (s.finish g).privCtx = s.privCtx := by simp [State.finish]
@[simp] theorem State.advance_bar0Sdva (s : State) : s.advance.bar0Sdva = s.bar0Sdva := State.modGroup_bar0Sdva _ _ _ _
@[simp] theorem State.finish_bar0Sdva (s : State) (g : Group) : (s.finish g).bar0Sdva = s.bar0Sdva := by simp [State.finish]
@[simp] theorem State.advance_bar0Sdctl (s : State) : s.advance.bar0Sdctl = s.bar0Sdctl := State.modGroup_bar0Sdctl _ _ _ _
@[simp] theorem State.finish_bar0Sdctl (s : State) (g : Group) : (s.finish g).bar0Sdctl = s.bar0Sdctl := by simp [State.finish]
@[simp] theorem State.advance_bar0Busy (s : State) : s.advance.bar0Busy = s.bar0Busy := State.modGroup_bar0Busy _ _ _ _
@[simp] theorem State.finish_bar0Busy (s : State) (g : Group) : (s.finish g).bar0Busy = s.bar0Busy := by simp [State.finish]
@[simp] theorem State.advance_shoots (s : State) : s.advance.shoots = s.shoots := State.modGroup_shoots _ _ _ _
@[simp] theorem State.finish_shoots (s : State) (g : Group) : (s.finish g).shoots = s.shoots := by simp [State.finish]
@[simp] theorem State.advance_launches (s : State) : s.advance.launches = s.launches := State.modGroup_launches _ _ _ _
@[simp] theorem State.finish_launches (s : State) (g : Group) : (s.finish g).launches = s.launches := by simp [State.finish]
@[simp] theorem State.advance_nextLaunch (s : State) : s.advance.nextLaunch = s.nextLaunch := State.modGroup_nextLaunch _ _ _ _
@[simp] theorem State.finish_nextLaunch (s : State) (g : Group) : (s.finish g).nextLaunch = s.nextLaunch := by simp [State.finish]
@[simp] theorem State.advance_passRecs (s : State) : s.advance.passRecs = s.passRecs := State.modGroup_passRecs _ _ _ _
@[simp] theorem State.finish_passRecs (s : State) (g : Group) : (s.finish g).passRecs = s.passRecs := by simp [State.finish]
@[simp] theorem State.advance_nextRec (s : State) : s.advance.nextRec = s.nextRec := State.modGroup_nextRec _ _ _ _
@[simp] theorem State.finish_nextRec (s : State) (g : Group) : (s.finish g).nextRec = s.nextRec := by simp [State.finish]
@[simp] theorem State.advance_apertures (s : State) : s.advance.apertures = s.apertures := State.modGroup_apertures _ _ _ _
@[simp] theorem State.finish_apertures (s : State) (g : Group) : (s.finish g).apertures = s.apertures := by simp [State.finish]
@[simp] theorem State.advance_ports (s : State) : s.advance.ports = s.ports := State.modGroup_ports _ _ _ _
@[simp] theorem State.finish_ports (s : State) (g : Group) : (s.finish g).ports = s.ports := by simp [State.finish]
@[simp] theorem State.advance_remotes (s : State) : s.advance.remotes = s.remotes := State.modGroup_remotes _ _ _ _
@[simp] theorem State.finish_remotes (s : State) (g : Group) : (s.finish g).remotes = s.remotes := by simp [State.finish]
@[simp] theorem State.advance_streams (s : State) : s.advance.streams = s.streams := State.modGroup_streams _ _ _ _
@[simp] theorem State.finish_streams (s : State) (g : Group) : (s.finish g).streams = s.streams := by simp [State.finish]
@[simp] theorem State.advance_dieSaves (s : State) : s.advance.dieSaves = s.dieSaves := State.modGroup_dieSaves _ _ _ _
@[simp] theorem State.finish_dieSaves (s : State) (g : Group) : (s.finish g).dieSaves = s.dieSaves := by simp [State.finish]
@[simp] theorem State.advance_saved (s : State) : s.advance.saved = s.saved := State.modGroup_saved _ _ _ _
@[simp] theorem State.finish_saved (s : State) (g : Group) : (s.finish g).saved = s.saved := by simp [State.finish]
@[simp] theorem State.advance_reports (s : State) : s.advance.reports = s.reports := State.modGroup_reports _ _ _ _
@[simp] theorem State.finish_reports (s : State) (g : Group) : (s.finish g).reports = s.reports := by simp [State.finish]
@[simp] theorem State.advance_interrupts (s : State) : s.advance.interrupts = s.interrupts := State.modGroup_interrupts _ _ _ _
@[simp] theorem State.finish_interrupts (s : State) (g : Group) : (s.finish g).interrupts = s.interrupts := by simp [State.finish]
@[simp] theorem State.advance_hostReply (s : State) : s.advance.hostReply = s.hostReply := State.modGroup_hostReply _ _ _ _
@[simp] theorem State.finish_hostReply (s : State) (g : Group) : (s.finish g).hostReply = s.hostReply := by simp [State.finish]
@[simp] theorem State.advance_remoteReplies (s : State) : s.advance.remoteReplies = s.remoteReplies := State.modGroup_remoteReplies _ _ _ _
@[simp] theorem State.finish_remoteReplies (s : State) (g : Group) : (s.finish g).remoteReplies = s.remoteReplies := by simp [State.finish]

/-- The issuing group after an instruction that changed it to `g`. -/
theorem State.group?_finish (s : State) (g : Group) :
    (s.finish g).group? s.iss.core s.iss.frame = some
      { (g.mapSlices s.iss.mask fun _ sl => { sl with pc := s.iss.nextPc, iidx := s.iss.nextIdx }) with seq := g.seq + 1 } := by
  simp [State.finish, State.advance, State.modGroup]

/-! ## Group.mapLanes -/

@[simp] theorem Group.mapLanes_slices (g : Group) (mask : BitVec 8) (u : Fin 32 → Lane → Lane) : (g.mapLanes mask u).slices = g.slices := by
  simp only [Group.mapLanes]
@[simp] theorem Group.mapLanes_scalars (g : Group) (mask : BitVec 8) (u : Fin 32 → Lane → Lane) : (g.mapLanes mask u).scalars = g.scalars := by
  simp only [Group.mapLanes]
@[simp] theorem Group.mapLanes_sseq (g : Group) (mask : BitVec 8) (u : Fin 32 → Lane → Lane) : (g.mapLanes mask u).sseq = g.sseq := by
  simp only [Group.mapLanes]
@[simp] theorem Group.mapLanes_flags (g : Group) (mask : BitVec 8) (u : Fin 32 → Lane → Lane) : (g.mapLanes mask u).flags = g.flags := by
  simp only [Group.mapLanes]
@[simp] theorem Group.mapLanes_clear (g : Group) (mask : BitVec 8) (u : Fin 32 → Lane → Lane) : (g.mapLanes mask u).clear = g.clear := by
  simp only [Group.mapLanes]
@[simp] theorem Group.mapLanes_div (g : Group) (mask : BitVec 8) (u : Fin 32 → Lane → Lane) : (g.mapLanes mask u).div = g.div := by
  simp only [Group.mapLanes]
@[simp] theorem Group.mapLanes_laneRecs (g : Group) (mask : BitVec 8) (u : Fin 32 → Lane → Lane) : (g.mapLanes mask u).laneRecs = g.laneRecs := by
  simp only [Group.mapLanes]
@[simp] theorem Group.mapLanes_sliceRecs (g : Group) (mask : BitVec 8) (u : Fin 32 → Lane → Lane) : (g.mapLanes mask u).sliceRecs = g.sliceRecs := by
  simp only [Group.mapLanes]
@[simp] theorem Group.mapLanes_recHeld (g : Group) (mask : BitVec 8) (u : Fin 32 → Lane → Lane) : (g.mapLanes mask u).recHeld = g.recHeld := by
  simp only [Group.mapLanes]
@[simp] theorem Group.mapLanes_traps (g : Group) (mask : BitVec 8) (u : Fin 32 → Lane → Lane) : (g.mapLanes mask u).traps = g.traps := by
  simp only [Group.mapLanes]
@[simp] theorem Group.mapLanes_csp (g : Group) (mask : BitVec 8) (u : Fin 32 → Lane → Lane) : (g.mapLanes mask u).csp = g.csp := by
  simp only [Group.mapLanes]
@[simp] theorem Group.mapLanes_actBank (g : Group) (mask : BitVec 8) (u : Fin 32 → Lane → Lane) : (g.mapLanes mask u).actBank = g.actBank := by
  simp only [Group.mapLanes]
@[simp] theorem Group.mapLanes_log (g : Group) (mask : BitVec 8) (u : Fin 32 → Lane → Lane) : (g.mapLanes mask u).log = g.log := by
  simp only [Group.mapLanes]
@[simp] theorem Group.mapLanes_replay (g : Group) (mask : BitVec 8) (u : Fin 32 → Lane → Lane) : (g.mapLanes mask u).replay = g.replay := by
  simp only [Group.mapLanes]
@[simp] theorem Group.mapLanes_sPoison (g : Group) (mask : BitVec 8) (u : Fin 32 → Lane → Lane) : (g.mapLanes mask u).sPoison = g.sPoison := by
  simp only [Group.mapLanes]
@[simp] theorem Group.mapLanes_rdmax (g : Group) (mask : BitVec 8) (u : Fin 32 → Lane → Lane) : (g.mapLanes mask u).rdmax = g.rdmax := by
  simp only [Group.mapLanes]
@[simp] theorem Group.mapLanes_ackmax (g : Group) (mask : BitVec 8) (u : Fin 32 → Lane → Lane) : (g.mapLanes mask u).ackmax = g.ackmax := by
  simp only [Group.mapLanes]
@[simp] theorem Group.mapLanes_engMax (g : Group) (mask : BitVec 8) (u : Fin 32 → Lane → Lane) : (g.mapLanes mask u).engMax = g.engMax := by
  simp only [Group.mapLanes]
@[simp] theorem Group.mapLanes_engDone (g : Group) (mask : BitVec 8) (u : Fin 32 → Lane → Lane) : (g.mapLanes mask u).engDone = g.engDone := by
  simp only [Group.mapLanes]
@[simp] theorem Group.mapLanes_seq (g : Group) (mask : BitVec 8) (u : Fin 32 → Lane → Lane) : (g.mapLanes mask u).seq = g.seq := by
  simp only [Group.mapLanes]
@[simp] theorem Group.mapLanes_status (g : Group) (mask : BitVec 8) (u : Fin 32 → Lane → Lane) : (g.mapLanes mask u).status = g.status := by
  simp only [Group.mapLanes]
@[simp] theorem Group.mapLanes_fault (g : Group) (mask : BitVec 8) (u : Fin 32 → Lane → Lane) : (g.mapLanes mask u).fault = g.fault := by
  simp only [Group.mapLanes]
@[simp] theorem Group.mapLanes_drainFault (g : Group) (mask : BitVec 8) (u : Fin 32 → Lane → Lane) : (g.mapLanes mask u).drainFault = g.drainFault := by
  simp only [Group.mapLanes]
@[simp] theorem Group.mapLanes_async (g : Group) (mask : BitVec 8) (u : Fin 32 → Lane → Lane) : (g.mapLanes mask u).async = g.async := by
  simp only [Group.mapLanes]
@[simp] theorem Group.mapLanes_due (g : Group) (mask : BitVec 8) (u : Fin 32 → Lane → Lane) : (g.mapLanes mask u).due = g.due := by
  simp only [Group.mapLanes]
@[simp] theorem Group.mapLanes_waits (g : Group) (mask : BitVec 8) (u : Fin 32 → Lane → Lane) : (g.mapLanes mask u).waits = g.waits := by
  simp only [Group.mapLanes]
@[simp] theorem Group.mapLanes_launch (g : Group) (mask : BitVec 8) (u : Fin 32 → Lane → Lane) : (g.mapLanes mask u).launch = g.launch := by
  simp only [Group.mapLanes]
@[simp] theorem Group.mapLanes_cluster (g : Group) (mask : BitVec 8) (u : Fin 32 → Lane → Lane) : (g.mapLanes mask u).cluster = g.cluster := by
  simp only [Group.mapLanes]
@[simp] theorem Group.mapLanes_index (g : Group) (mask : BitVec 8) (u : Fin 32 → Lane → Lane) : (g.mapLanes mask u).index = g.index := by
  simp only [Group.mapLanes]
@[simp] theorem Group.mapLanes_ctx (g : Group) (mask : BitVec 8) (u : Fin 32 → Lane → Lane) : (g.mapLanes mask u).ctx = g.ctx := by
  simp only [Group.mapLanes]
@[simp] theorem Group.mapLanes_priv (g : Group) (mask : BitVec 8) (u : Fin 32 → Lane → Lane) : (g.mapLanes mask u).priv = g.priv := by
  simp only [Group.mapLanes]
@[simp] theorem Group.mapLanes_hdr (g : Group) (mask : BitVec 8) (u : Fin 32 → Lane → Lane) : (g.mapLanes mask u).hdr = g.hdr := by
  simp only [Group.mapLanes]
@[simp] theorem Group.mapLanes_placedAt (g : Group) (mask : BitVec 8) (u : Fin 32 → Lane → Lane) : (g.mapLanes mask u).placedAt = g.placedAt := by
  simp only [Group.mapLanes]
@[simp] theorem Group.mapLanes_fabWin (g : Group) (mask : BitVec 8) (u : Fin 32 → Lane → Lane) : (g.mapLanes mask u).fabWin = g.fabWin := by
  simp only [Group.mapLanes]
@[simp] theorem Group.mapLanes_hostSt (g : Group) (mask : BitVec 8) (u : Fin 32 → Lane → Lane) : (g.mapLanes mask u).hostSt = g.hostSt := by
  simp only [Group.mapLanes]

/-! ## Group.mapSlices -/

@[simp] theorem Group.mapSlices_lanes (g : Group) (mask : BitVec 8) (u : Fin 8 → Slice → Slice) : (g.mapSlices mask u).lanes = g.lanes := by
  simp only [Group.mapSlices]
@[simp] theorem Group.mapSlices_scalars (g : Group) (mask : BitVec 8) (u : Fin 8 → Slice → Slice) : (g.mapSlices mask u).scalars = g.scalars := by
  simp only [Group.mapSlices]
@[simp] theorem Group.mapSlices_sseq (g : Group) (mask : BitVec 8) (u : Fin 8 → Slice → Slice) : (g.mapSlices mask u).sseq = g.sseq := by
  simp only [Group.mapSlices]
@[simp] theorem Group.mapSlices_flags (g : Group) (mask : BitVec 8) (u : Fin 8 → Slice → Slice) : (g.mapSlices mask u).flags = g.flags := by
  simp only [Group.mapSlices]
@[simp] theorem Group.mapSlices_clear (g : Group) (mask : BitVec 8) (u : Fin 8 → Slice → Slice) : (g.mapSlices mask u).clear = g.clear := by
  simp only [Group.mapSlices]
@[simp] theorem Group.mapSlices_div (g : Group) (mask : BitVec 8) (u : Fin 8 → Slice → Slice) : (g.mapSlices mask u).div = g.div := by
  simp only [Group.mapSlices]
@[simp] theorem Group.mapSlices_laneRecs (g : Group) (mask : BitVec 8) (u : Fin 8 → Slice → Slice) : (g.mapSlices mask u).laneRecs = g.laneRecs := by
  simp only [Group.mapSlices]
@[simp] theorem Group.mapSlices_sliceRecs (g : Group) (mask : BitVec 8) (u : Fin 8 → Slice → Slice) : (g.mapSlices mask u).sliceRecs = g.sliceRecs := by
  simp only [Group.mapSlices]
@[simp] theorem Group.mapSlices_recHeld (g : Group) (mask : BitVec 8) (u : Fin 8 → Slice → Slice) : (g.mapSlices mask u).recHeld = g.recHeld := by
  simp only [Group.mapSlices]
@[simp] theorem Group.mapSlices_traps (g : Group) (mask : BitVec 8) (u : Fin 8 → Slice → Slice) : (g.mapSlices mask u).traps = g.traps := by
  simp only [Group.mapSlices]
@[simp] theorem Group.mapSlices_csp (g : Group) (mask : BitVec 8) (u : Fin 8 → Slice → Slice) : (g.mapSlices mask u).csp = g.csp := by
  simp only [Group.mapSlices]
@[simp] theorem Group.mapSlices_actBank (g : Group) (mask : BitVec 8) (u : Fin 8 → Slice → Slice) : (g.mapSlices mask u).actBank = g.actBank := by
  simp only [Group.mapSlices]
@[simp] theorem Group.mapSlices_log (g : Group) (mask : BitVec 8) (u : Fin 8 → Slice → Slice) : (g.mapSlices mask u).log = g.log := by
  simp only [Group.mapSlices]
@[simp] theorem Group.mapSlices_replay (g : Group) (mask : BitVec 8) (u : Fin 8 → Slice → Slice) : (g.mapSlices mask u).replay = g.replay := by
  simp only [Group.mapSlices]
@[simp] theorem Group.mapSlices_sPoison (g : Group) (mask : BitVec 8) (u : Fin 8 → Slice → Slice) : (g.mapSlices mask u).sPoison = g.sPoison := by
  simp only [Group.mapSlices]
@[simp] theorem Group.mapSlices_rdmax (g : Group) (mask : BitVec 8) (u : Fin 8 → Slice → Slice) : (g.mapSlices mask u).rdmax = g.rdmax := by
  simp only [Group.mapSlices]
@[simp] theorem Group.mapSlices_ackmax (g : Group) (mask : BitVec 8) (u : Fin 8 → Slice → Slice) : (g.mapSlices mask u).ackmax = g.ackmax := by
  simp only [Group.mapSlices]
@[simp] theorem Group.mapSlices_engMax (g : Group) (mask : BitVec 8) (u : Fin 8 → Slice → Slice) : (g.mapSlices mask u).engMax = g.engMax := by
  simp only [Group.mapSlices]
@[simp] theorem Group.mapSlices_engDone (g : Group) (mask : BitVec 8) (u : Fin 8 → Slice → Slice) : (g.mapSlices mask u).engDone = g.engDone := by
  simp only [Group.mapSlices]
@[simp] theorem Group.mapSlices_seq (g : Group) (mask : BitVec 8) (u : Fin 8 → Slice → Slice) : (g.mapSlices mask u).seq = g.seq := by
  simp only [Group.mapSlices]
@[simp] theorem Group.mapSlices_status (g : Group) (mask : BitVec 8) (u : Fin 8 → Slice → Slice) : (g.mapSlices mask u).status = g.status := by
  simp only [Group.mapSlices]
@[simp] theorem Group.mapSlices_fault (g : Group) (mask : BitVec 8) (u : Fin 8 → Slice → Slice) : (g.mapSlices mask u).fault = g.fault := by
  simp only [Group.mapSlices]
@[simp] theorem Group.mapSlices_drainFault (g : Group) (mask : BitVec 8) (u : Fin 8 → Slice → Slice) : (g.mapSlices mask u).drainFault = g.drainFault := by
  simp only [Group.mapSlices]
@[simp] theorem Group.mapSlices_async (g : Group) (mask : BitVec 8) (u : Fin 8 → Slice → Slice) : (g.mapSlices mask u).async = g.async := by
  simp only [Group.mapSlices]
@[simp] theorem Group.mapSlices_due (g : Group) (mask : BitVec 8) (u : Fin 8 → Slice → Slice) : (g.mapSlices mask u).due = g.due := by
  simp only [Group.mapSlices]
@[simp] theorem Group.mapSlices_waits (g : Group) (mask : BitVec 8) (u : Fin 8 → Slice → Slice) : (g.mapSlices mask u).waits = g.waits := by
  simp only [Group.mapSlices]
@[simp] theorem Group.mapSlices_launch (g : Group) (mask : BitVec 8) (u : Fin 8 → Slice → Slice) : (g.mapSlices mask u).launch = g.launch := by
  simp only [Group.mapSlices]
@[simp] theorem Group.mapSlices_cluster (g : Group) (mask : BitVec 8) (u : Fin 8 → Slice → Slice) : (g.mapSlices mask u).cluster = g.cluster := by
  simp only [Group.mapSlices]
@[simp] theorem Group.mapSlices_index (g : Group) (mask : BitVec 8) (u : Fin 8 → Slice → Slice) : (g.mapSlices mask u).index = g.index := by
  simp only [Group.mapSlices]
@[simp] theorem Group.mapSlices_ctx (g : Group) (mask : BitVec 8) (u : Fin 8 → Slice → Slice) : (g.mapSlices mask u).ctx = g.ctx := by
  simp only [Group.mapSlices]
@[simp] theorem Group.mapSlices_priv (g : Group) (mask : BitVec 8) (u : Fin 8 → Slice → Slice) : (g.mapSlices mask u).priv = g.priv := by
  simp only [Group.mapSlices]
@[simp] theorem Group.mapSlices_hdr (g : Group) (mask : BitVec 8) (u : Fin 8 → Slice → Slice) : (g.mapSlices mask u).hdr = g.hdr := by
  simp only [Group.mapSlices]
@[simp] theorem Group.mapSlices_placedAt (g : Group) (mask : BitVec 8) (u : Fin 8 → Slice → Slice) : (g.mapSlices mask u).placedAt = g.placedAt := by
  simp only [Group.mapSlices]
@[simp] theorem Group.mapSlices_fabWin (g : Group) (mask : BitVec 8) (u : Fin 8 → Slice → Slice) : (g.mapSlices mask u).fabWin = g.fabWin := by
  simp only [Group.mapSlices]
@[simp] theorem Group.mapSlices_hostSt (g : Group) (mask : BitVec 8) (u : Fin 8 → Slice → Slice) : (g.mapSlices mask u).hostSt = g.hostSt := by
  simp only [Group.mapSlices]

@[simp] theorem Group.mapLanes_lane (g : Group) (mask : BitVec 8) (u : Fin 32 → Lane → Lane) (l : Fin 32) :
    (g.mapLanes mask u).lanes[l] = if g.on mask l then u l g.lanes[l] else g.lanes[l] := by simp [Group.mapLanes]

@[simp] theorem Group.mapSlices_slice (g : Group) (mask : BitVec 8) (u : Fin 8 → Slice → Slice) (i : Fin 8) :
    (g.mapSlices mask u).slices[i] = if mask.getLsbD i.val then u i g.slices[i] else g.slices[i] := by simp [Group.mapSlices]

end Sys2Proof.Machine
end

