-- ==== Sys2Proof/Laws/Gate.lean ====
section
/-! SUPPORT. What the gate of an instruction and the shared shapes of a meaning come to, where the instruction is ready and
where it is not. -/

namespace Sys2Proof.Machine

open Sys2Proof

/-! ## The gate (R10, R17, R76, R262) -/

/-- A ready instruction goes on with its group. -/
theorem gate_ready {s : State} {i : Instr} {g : Group} (h : s.Ready i g) (k : Group → Res) : s.gate i k = k g := by
  obtain ⟨h1, h2, h3, h4⟩ := h
  simp only [State.gate, State.checked, State.unblocked, h1, h2, h3, h4]

/-- An instruction that fails a check reports it and has no other effect. -/
theorem gate_checks {s : State} {i : Instr} {g : Group} {c : Cause} (hg : s.group? s.iss.core s.iss.frame = some g)
    (hc : s.checks g i = some c) (k : Group → Res) : s.gate i k = .next (s.faultHere c 0) := by
  simp only [State.gate, State.checked, hg, hc]

/-- An instruction that reads or would come round to a pending entry waits. -/
theorem gate_blocked {s : State} {i : Instr} {g : Group} (hg : s.group? s.iss.core s.iss.frame = some g)
    (hc : s.checks g i = none) (hb : g.blockedBy s.iss.mask (formAges i.form) (formPushes i.form) ≠ []) (k : Group → Res) :
    s.gate i k = .next (s.waitFor g (g.blockedBy s.iss.mask (formAges i.form) (formPushes i.form))) := by
  simp only [State.gate, State.checked, State.unblocked, hg, hc]

/-- An instruction that reads a poisoned entry reports it. -/
theorem gate_poisoned {s : State} {i : Instr} {g : Group} {p : PoisonMark} (hg : s.group? s.iss.core s.iss.frame = some g)
    (hc : s.checks g i = none) (hb : g.blockedBy s.iss.mask (formAges i.form) (formPushes i.form) = [])
    (hp : g.poisonRead s.iss.mask (formAges i.form) = some p) (k : Group → Res) : s.gate i k = .next (s.faultPoison p) := by
  simp only [State.gate, State.checked, State.unblocked, hg, hc, hb, hp]

/-- Everything a gate can come to: it refuses without an issuer, leaves a state that reports or waits, or goes on. -/
theorem gate_cases (s : State) (i : Instr) (k : Group → Res) :
    (s.group? s.iss.core s.iss.frame = none ∧ s.gate i k = .refused .noIssuer) ∨
    ∃ g : Group, s.group? s.iss.core s.iss.frame = some g ∧
      ((∃ c, s.checks g i = some c ∧ s.gate i k = .next (s.faultHere c 0)) ∨
       (∃ ids, ids ≠ [] ∧ s.gate i k = .next (s.waitFor g ids)) ∨
       (∃ p, s.gate i k = .next (s.faultPoison p)) ∨
       (s.Ready i g ∧ s.gate i k = k g)) := by
  cases hg : s.group? s.iss.core s.iss.frame with
  | none => left; simp only [State.gate, State.checked, hg, and_self]
  | some g =>
    refine .inr ⟨g, rfl, ?_⟩
    cases hc : s.checks g i with
    | some c => exact .inl ⟨c, rfl, gate_checks hg hc k⟩
    | none =>
      by_cases hb : g.blockedBy s.iss.mask (formAges i.form) (formPushes i.form) = []
      · cases hp : g.poisonRead s.iss.mask (formAges i.form) with
        | some p => exact .inr (.inr (.inl ⟨p, gate_poisoned hg hc hb hp k⟩))
        | none => exact .inr (.inr (.inr ⟨⟨hg, hc, hb, hp⟩, gate_ready ⟨hg, hc, hb, hp⟩ k⟩))
      · exact .inr (.inl ⟨_, hb, gate_blocked hg hc hb k⟩)

/-- A ready memory instruction goes on with its group. -/
theorem memGate_ready {s : State} {i : Instr} {g : Group} (h : s.MemReady i g) (k : Group → Res) : s.memGate i k = k g := by
  obtain ⟨h1, h2, h3⟩ := h
  simp only [State.memGate, gate_ready h1, h2, h3, Bool.false_eq_true, if_false]

/-! ## Shapes of a meaning -/

theorem laneOp_ready {s : State} {i : Instr} {g : Group} (h : s.Ready i g) (r : Group → Fin 32 → Lane → List Word) :
    s.laneOp i r = .next (s.pushed g (r g)) := by
  simp only [State.laneOp, gate_ready h, State.pushed]

theorem longOp_ready {s : State} {i : Instr} {g : Group} (h : s.Ready i g) (r : Group → Fin 32 → Lane → List Word) :
    s.longOp i r = .next (s.sentOff g (r g)) := by
  simp only [State.longOp, gate_ready h, State.sentOff]

theorem scalarOp_ready {s : State} {i : Instr} {g : Group} (h : s.Ready i g) (u : Group → Group) :
    s.scalarOp i u = .next (s.finish (u g)) := by
  simp only [State.scalarOp, gate_ready h]

/-- A V instruction pushes at once, but for the f64 forms and the special functions, whose results come later (R137). -/
theorem vOp_ready {s : State} {i : Instr} {g : Group} {op : Nat} {f : VFields} (h : s.Ready i g)
    (r : Nat → Nat → Nat → List Word) : s.vOp i op f r = .next
      (if vLong op f then s.vSentOff g op f r else s.vPushed g op f r) := by
  simp only [State.vOp]
  split <;> simp [laneOp_ready h, longOp_ready h, State.vSentOff, State.vPushed]

/-! ## One push (R14) -/

/-- A push moves HEAD and NET up by one and writes one entry. -/
theorem Lane.emit_head (l : Lane) (w : Word) : (l.emit w).head = l.head + 1 := rfl

theorem Lane.emit_pantry (l : Lane) (w : Word) : (l.emit w).pantry = l.pantry := rfl

theorem Lane.emits_pantry (ws : List Word) (l : Lane) : (l.emits ws).pantry = l.pantry := by
  unfold Lane.emits
  induction ws generalizing l with
  | nil => rfl
  | cons w ws ih => simp only [List.foldl_cons, ih, Lane.emit_pantry]

theorem Lane.emits_head (ws : List Word) (l : Lane) : (l.emits ws).head = l.head + BitVec.ofNat 5 ws.length := by
  unfold Lane.emits
  induction ws generalizing l with
  | nil => simp
  | cons w ws ih =>
    simp only [List.foldl_cons, ih, Lane.emit_head, List.length_cons]
    rw [BitVec.ofNat_add]
    ac_rfl

end Sys2Proof.Machine
end

