-- ==== Sys2Proof/Laws/Frame.lean ====
section
/-! SUPPORT. What the shared operations of a meaning leave alone: taking a fault, waiting, finishing an instruction. -/

namespace Sys2Proof.Machine

open Sys2Proof

/-- The memories of two cores agree: scratch, rack, banks and the banks' claims. -/
def Core.sameStores (c d : Core) : Prop :=
  d.scratch = c.scratch ∧ d.rack = c.rack ∧ d.banks = c.banks ∧ d.claims = c.claims

/-- The memories of two states agree: global and host memory, and every core's. -/
def State.sameStores (s t : State) : Prop := t.mem = s.mem ∧ ∀ k, (s.core k).sameStores (t.core k)

theorem Core.sameStores_refl (c : Core) : c.sameStores c := ⟨rfl, rfl, rfl, rfl⟩

theorem State.sameStores_refl (s : State) : s.sameStores s := ⟨rfl, fun k => (s.core k).sameStores_refl⟩

theorem State.sameStores_trans {s t u : State} (h : s.sameStores t) (h' : t.sameStores u) : s.sameStores u := by
  refine ⟨h'.1.trans h.1, fun k => ?_⟩
  obtain ⟨a, b, c, d⟩ := h.2 k
  obtain ⟨a', b', c', d'⟩ := h'.2 k
  exact ⟨a'.trans a, b'.trans b, c'.trans c, d'.trans d⟩

/-- A core replaced by one with the same memories. -/
theorem State.sameStores_setCore (s : State) (k : Nat) {c : Core} (h : (s.core k).sameStores c) :
    s.sameStores (s.setCore k c) := by
  refine ⟨rfl, fun j => ?_⟩
  by_cases hj : j = k
  · subst hj; simpa using h
  · rw [State.core_setCore_ne _ _ hj]; exact Core.sameStores_refl _

theorem State.sameStores_setGroup (s : State) (k f : Nat) (g : Group) : s.sameStores (s.setGroup k f g) :=
  s.sameStores_setCore k ⟨rfl, rfl, rfl, rfl⟩

theorem State.sameStores_modGroup (s : State) (k f : Nat) (u : Group → Group) : s.sameStores (s.modGroup k f u) := by
  unfold State.modGroup
  split
  · exact s.sameStores_setGroup _ _ _
  · exact s.sameStores_refl

theorem State.sameStores_advance (s : State) : s.sameStores s.advance := s.sameStores_modGroup _ _ _

/-- Finishing an instruction that changed its group touches no memory. -/
theorem State.sameStores_finish (s : State) (g : Group) : s.sameStores (s.finish g) :=
  State.sameStores_trans (s.sameStores_setGroup _ _ g) (State.sameStores_advance _)

theorem State.sameStores_tell (s : State) (r : Report) : s.sameStores (s.tell r) := s.sameStores_refl

/-- A core changed but for its memories. -/
theorem State.sameStores_modCore (s : State) (k : Nat) {u : Core → Core} (h : (s.core k).sameStores (u (s.core k))) :
    s.sameStores (s.modCore k u) := s.sameStores_setCore k h

theorem State.sameStores_modLaunch (s : State) (i : Nat) (u : Launch → Launch) : s.sameStores (s.modLaunch i u) :=
  ⟨rfl, fun k => (s.core k).sameStores_refl⟩

/-- A barrier word is no memory. -/
theorem State.sameStores_setBar (s : State) (k launch sc id : Nat) (w : Word) (clk : Nat) :
    s.sameStores (s.setBar k launch sc id w clk) := by
  unfold State.setBar
  split
  · exact s.sameStores_modCore _ ⟨rfl, rfl, rfl, rfl⟩
  · exact s.sameStores_modCore _ ⟨rfl, rfl, rfl, rfl⟩
  · exact ⟨rfl, fun k => (s.core k).sameStores_refl⟩

theorem State.sameStores_barLeave (s : State) (k launch sc id : Nat) : s.sameStores (s.barLeave k launch sc id) :=
  State.sameStores_trans (s.sameStores_modCore k ⟨rfl, rfl, rfl, rfl⟩) (State.sameStores_setBar _ _ _ _ _ _ _)

theorem State.sameStores_withdraw (s : State) (k launch : Nat) (w : Wait) : s.sameStores (s.withdraw k launch w) := by
  unfold State.withdraw
  split
  · simp only
    split
    · exact s.sameStores_refl
    · exact s.sameStores_setBar _ _ _ _ _ _
  · exact s.sameStores_refl

/-! ## Stops (R176, R221) -/

theorem State.sameStores_abandonWait (s : State) (k f : Nat) (w : Wait) : s.sameStores (s.abandonWait k f w) := by
  unfold State.abandonWait
  split
  · exact s.sameStores_refl
  · split
    · exact s.sameStores_refl
    · split
      · split
        · exact State.sameStores_trans (s.sameStores_barLeave _ _ _ _) (State.sameStores_modGroup _ _ _ _)
        · exact State.sameStores_trans (s.sameStores_withdraw _ _ _) (State.sameStores_modGroup _ _ _ _)
      · exact State.sameStores_trans (s.sameStores_modCore k ⟨rfl, rfl, rfl, rfl⟩) (State.sameStores_modGroup _ _ _ _)

/-- Steps each of which leaves the memories leave them together. -/
theorem State.sameStores_foldl {α : Type} (u : State → α → State) (h : ∀ (s : State) (a : α), s.sameStores (u s a)) (xs : List α) (s : State) :
    s.sameStores (xs.foldl u s) := by
  induction xs generalizing s with
  | nil => exact s.sameStores_refl
  | cons a xs ih => exact State.sameStores_trans (h s a) (ih _)

theorem State.sameStores_abandonWaits (s : State) (k f : Nat) : s.sameStores (s.abandonWaits k f) :=
  State.sameStores_foldl _ (fun t w => t.sameStores_abandonWait k f w) _ s

theorem State.sameStores_halt (s : State) (k f : Nat) (st : Status) (flt : Option FaultRec) : s.sameStores (s.halt k f st flt) :=
  State.sameStores_trans (s.sameStores_abandonWaits k f) (State.sameStores_modGroup _ _ _ _)

theorem State.sameStores_stopWhere (s : State) (p : Nat → Group → Bool) (st : Status) : s.sameStores (s.stopWhere p st) := by
  unfold State.stopWhere
  refine State.sameStores_foldl _ (fun t x => ?_) _ s
  split
  · split
    · exact t.sameStores_halt _ _ _ _
    · exact t.sameStores_refl
  · exact t.sameStores_refl

theorem State.sameStores_haltDebug (s : State) (k f : Nat) : s.sameStores (s.haltDebug k f) := by
  unfold State.haltDebug
  split
  · exact s.sameStores_refl
  · split
    · exact s.sameStores_halt _ _ _ _
    · split
      · exact s.sameStores_setGroup _ _ _
      · exact s.sameStores_setGroup _ _ _
      · exact s.sameStores_refl

theorem State.sameStores_allStop (s : State) (k : Nat) (g : Group) : s.sameStores (s.allStop k g) := by
  unfold State.allStop
  split
  · exact State.sameStores_foldl _ (fun t (x : Nat × Nat) => t.sameStores_haltDebug x.1 x.2) _ s
  · exact s.sameStores_refl

theorem State.sameStores_stopFaulted (s : State) (k f : Nat) (g : Group) (r : FaultRec) (nested hfail : Bool) :
    s.sameStores (s.stopFaulted k f g r nested hfail) :=
  State.sameStores_trans (s.sameStores_setGroup k f g) (State.sameStores_trans (State.sameStores_halt _ k f _ _)
    (State.sameStores_trans (State.sameStores_tell _ _) (State.sameStores_allStop _ _ _)))

theorem State.sameStores_stopGrid (s : State) (k f : Nat) (g : Group) (r : FaultRec) : s.sameStores (s.stopGrid k f g r) :=
  State.sameStores_trans (State.sameStores_trans (s.sameStores_stopFaulted k f g r _ _) (State.sameStores_stopWhere _ _ _))
    (State.sameStores_modLaunch _ _ _)

/-! ## Translations (R374) -/

theorem State.sameStores_noteTlb (s : State) (k : Nat) (e : TlbEntry) : s.sameStores (s.noteTlb k e) :=
  State.sameStores_trans (s.sameStores_modCore k (u := fun c => { c with tlb := if c.tlb.contains e then c.tlb else (e :: c.tlb).take 256 })
    ⟨rfl, rfl, rfl, rfl⟩) ⟨rfl, fun _ => ⟨rfl, rfl, rfl, rfl⟩⟩

theorem State.sameStores_notePages (s : State) (k ctx : Nat) (a : DWord) (n : Nat) : s.sameStores (s.notePages k ctx a n) := by
  unfold State.notePages
  refine State.sameStores_foldl _ (fun t p => ?_) _ s
  split
  · exact t.sameStores_noteTlb _ _
  · exact t.sameStores_refl

theorem State.sameStores_noteStart (s : State) (k ctx : Nat) (a : DWord) : s.sameStores (s.noteStart k ctx a) := by
  unfold State.noteStart
  split
  · exact State.sameStores_trans (s.sameStores_notePages _ _ _ _) (State.sameStores_notePages _ _ _ _ _)
  · exact s.sameStores_refl

theorem State.sameStores_noteEntry (s : State) (k ctx : Nat) (priv : Bool) (i : Nat) : s.sameStores (s.noteEntry k ctx priv i) := by
  unfold State.noteEntry
  simp only
  split
  · exact s.sameStores_notePages _ _ _ _
  · exact State.sameStores_trans (s.sameStores_notePages _ _ _ _) (State.sameStores_noteStart _ _ _ _)

/-! ## Faults (R261 to R267) -/

/-- A group with no call record in its shadow has nothing to write to memory (R34). -/
theorem State.spill_nil (s : State) (k : Nat) {g : Group} (h : g.sliceRecs = []) : s.spill k g = .ok (s, g) := by
  simp only [State.spill, h]

/-- Entering a handler writes no memory where the shadow is free. -/
theorem State.sameStores_enterHandler (s : State) (k f : Nat) {g : Group} (mask : BitVec 8) (r : FaultRec) (hg : g.sliceRecs = []) :
    s.sameStores (s.enterHandler k f g mask r) := by
  have ht := s.sameStores_noteEntry k g.ctx g.priv g.hdr.handler
  have fail := State.sameStores_trans ht (State.sameStores_stopFaulted _ k f g r false true)
  unfold State.enterHandler
  simp only [State.spill_nil _ k hg]
  split
  · exact s.sameStores_stopFaulted _ _ _ _ _ _
  · split
    · exact fail
    · split
      · split
        · exact fail
        · exact State.sameStores_trans ht (State.sameStores_setGroup _ _ _ _)
      · exact fail

theorem State.sameStores_deliver (s : State) (k f : Nat) {g : Group} (mask : BitVec 8) (r : FaultRec) (hg : g.sliceRecs = []) :
    s.sameStores (s.deliver k f g mask r) := by
  unfold State.deliver
  split
  · exact State.sameStores_trans (s.sameStores_setGroup k f g) (State.sameStores_trans (State.sameStores_halt _ _ _ _ _)
      (State.sameStores_allStop _ _ _))
  split
  · exact s.sameStores_stopFaulted _ _ _ _ _ _
  split
  · exact s.sameStores_stopFaulted _ _ _ _ _ _
  split
  · exact s.sameStores_enterHandler _ _ _ _ hg
  split
  · exact s.sameStores_stopGrid _ _ _ _
  · exact s.sameStores_stopFaulted _ _ _ _ _ _

/-- Raising a fault on a group with no call record in its shadow touches no memory, whatever it leads to. -/
theorem State.sameStores_raise (s : State) (k f : Nat) (mask : BitVec 8) (r : FaultRec)
    (h : ∀ g, s.group? k f = some g → g.sliceRecs = []) : s.sameStores (s.raise k f mask r) := by
  unfold State.raise
  split
  · exact s.sameStores_refl
  · rename_i g hg
    split
    · split
      · exact s.sameStores_refl
      · exact s.sameStores_setGroup _ _ _
    · split
      · exact State.sameStores_trans (s.sameStores_halt k f _ _)
          (State.sameStores_trans (State.sameStores_tell _ _) (State.sameStores_allStop _ _ _))
      · split
        · exact s.sameStores_refl
        · exact s.sameStores_deliver _ _ _ _ (h g hg)
    · exact s.sameStores_refl

theorem State.sameStores_faultHere {s : State} (h : s.ShadowFree) (c : Cause) (a : DWord) : s.sameStores (s.faultHere c a) :=
  s.sameStores_raise _ _ _ _ h

theorem State.sameStores_faultPoison {s : State} (h : s.ShadowFree) (p : PoisonMark) : s.sameStores (s.faultPoison p) :=
  s.sameStores_raise _ _ _ _ h

/-- Waiting touches no memory. -/
theorem State.sameStores_waitFor {s : State} (h : s.ShadowFree) (g : Group) (ids : List Nat) : s.sameStores (s.waitFor g ids) := by
  unfold State.waitFor
  split
  · exact s.sameStores_raise _ _ _ _ h
  · exact s.sameStores_refl

/-- An instruction whose own effect touches no memory touches none, whatever its gate comes to. -/
theorem gate_sameStores {s t : State} {i : Instr} {k : Group → Res} (h : s.gate i k = .next t) (hs : s.ShadowFree)
    (hk : ∀ g : Group, s.Ready i g → k g = .next t → s.sameStores t) : s.sameStores t := by
  rcases gate_cases s i k with ⟨-, e⟩ | ⟨g, -, ⟨c, -, e⟩ | ⟨ids, -, e⟩ | ⟨p, e⟩ | ⟨hr, e⟩⟩ <;> rw [e] at h
  · cases h
  · cases h; exact State.sameStores_faultHere hs _ _
  · cases h; exact State.sameStores_waitFor hs _ _
  · cases h; exact State.sameStores_faultPoison hs _
  · exact hk g hr h

theorem laneOp_sameStores {s t : State} {i : Instr} {r : Group → Fin 32 → Lane → List Word} (h : s.laneOp i r = .next t)
    (hs : s.ShadowFree) : s.sameStores t :=
  gate_sameStores h hs fun g _ e => by cases e; exact s.sameStores_finish _

theorem scalarOp_sameStores {s t : State} {i : Instr} {u : Group → Group} (h : s.scalarOp i u = .next t) (hs : s.ShadowFree) :
    s.sameStores t :=
  gate_sameStores h hs fun g _ e => by cases e; exact s.sameStores_finish _

theorem State.sameStores_reserveFor (s : State) (lane : Fin 32) (n : Nat) (r : Req) : s.sameStores (s.reserveFor lane n r) := by
  unfold State.reserveFor
  split
  · exact s.sameStores_refl
  · rename_i g _
    exact s.sameStores_setGroup r.core r.frame { g with lanes := g.lanes.set lane (g.lanes[lane].reserve s.nextReq n) }

theorem longOp_sameStores {s t : State} {i : Instr} {r : Group → Fin 32 → Lane → List Word} (h : s.longOp i r = .next t)
    (hs : s.ShadowFree) : s.sameStores t := by
  refine gate_sameStores h hs fun g _ e => ?_
  cases e
  refine State.sameStores_trans ?_ (State.sameStores_advance _)
  generalize g.activeLanes s.iss.mask = ls
  suffices ∀ s' : State, s.sameStores s' → s.sameStores (ls.foldl (fun s n => s.reserveFor n (r g n g.lanes[n]).length
      { Req.blank s g n.val with kind := .long, data := wordsBytes (r g n g.lanes[n]) }) s') from this s s.sameStores_refl
  induction ls with
  | nil => exact fun _ h => h
  | cons l ls ih => exact fun s' h' => ih _ (State.sameStores_trans h' (State.sameStores_reserveFor _ _ _ _))

/-- A V instruction touches no memory. -/
theorem vOp_sameStores {s t : State} {i : Instr} {op : Nat} {f : VFields} {r : Nat → Nat → Nat → List Word}
    (h : s.vOp i op f r = .next t) (hs : s.ShadowFree) :
    s.sameStores t := by
  unfold State.vOp at h
  simp only at h
  split at h
  · exact longOp_sameStores h hs
  · exact laneOp_sameStores h hs

end Sys2Proof.Machine
end

