-- ==== Sys2Proof/Laws/Memory.lean ====
section
/-! SUPPORT. Byte memory: a read after a write, and that every memory operation keeps the canonical form (log entry 1). -/

namespace Sys2Proof.Machine

open Sys2Proof

/-- Whether every listed address lies above one. -/
def Memory.above (a : Nat) (m : List Host.Cell) : Prop := ∀ p ∈ m, a < p.1

theorem Memory.above_mono {a b : Nat} {m : List Host.Cell} (h : Memory.above b m) (hab : a ≤ b) : Memory.above a m :=
  fun p hp => Nat.lt_of_le_of_lt hab (h p hp)

/-- The canonical form of a list with a head, one cell at a time. -/
theorem Memory.wf_cons {k : Nat} {v : Byte} {t : List Host.Cell} :
    Memory.wf ((k, v) :: t) = true ↔ v ≠ 0 ∧ Memory.above k t ∧ Memory.wf t = true := by
  induction t generalizing k v with
  | nil => simp [Memory.wf, Memory.above]
  | cons p t ih =>
    obtain ⟨k', v'⟩ := p
    simp only [Memory.wf, Bool.and_eq_true, bne_iff_ne, ne_eq, decide_eq_true_eq, Memory.above, List.mem_cons,
      forall_eq_or_imp]
    constructor
    · rintro ⟨⟨h1, h2⟩, h3⟩
      exact ⟨h1, ⟨h2, fun p hp => Nat.lt_trans h2 ((ih.mp h3).2.1 p hp)⟩, h3⟩
    · rintro ⟨h1, ⟨h2, -⟩, h3⟩
      exact ⟨⟨h1, h2⟩, h3⟩

/-- The canonical form of the empty memory. -/
@[simp] theorem Memory.wf_nil : Memory.wf [] = true := rfl

/-- An address below every listed one reads as unlisted. -/
theorem Memory.get_above {a : Nat} {m : List Host.Cell} (h : Memory.above a m) : Memory.get m a = 0 := by
  unfold Memory.get
  induction m with
  | nil => rfl
  | cons p t ih =>
    obtain ⟨k, v⟩ := p
    have hk : a < k := h (k, v) List.mem_cons_self
    have : a ≠ k := by omega
    simp only [Sparse.get?, this, if_false]
    exact ih fun p hp => h p (List.mem_cons_of_mem _ hp)

@[simp] theorem Memory.get_nil (a : Nat) : Memory.get [] a = 0 := rfl

theorem Memory.get_cons (k : Nat) (v : Byte) (t : List Host.Cell) (a : Nat) :
    Memory.get ((k, v) :: t) a = if a = k then v else Memory.get t a := by
  unfold Memory.get
  simp only [Sparse.get?]
  split <;> rfl

theorem Memory.above_set {b a : Nat} {v : Byte} {m : List Host.Cell} (h : Memory.above b m) (hb : b < a) :
    Memory.above b (Memory.set m a v) := by
  induction m with
  | nil => unfold Memory.set; split <;> simp_all [Memory.above]
  | cons p t ih =>
    obtain ⟨k, w⟩ := p
    have hk : b < k := h (k, w) List.mem_cons_self
    have ht : Memory.above b t := fun p hp => h p (List.mem_cons_of_mem _ hp)
    unfold Memory.set
    split
    · split
      · exact h
      · intro p hp
        rcases List.mem_cons.mp hp with rfl | hp
        · exact hb
        · exact h p hp
    · split
      · split
        · exact ht
        · intro p hp
          rcases List.mem_cons.mp hp with rfl | hp
          · exact hb
          · exact ht p hp
      · intro p hp
        rcases List.mem_cons.mp hp with rfl | hp
        · exact hk
        · exact ih ht p hp

/-- A write of one byte keeps the canonical form. -/
theorem Memory.wf_set {m : List Host.Cell} (h : Memory.wf m = true) (a : Nat) (b : Byte) : Memory.wf (Memory.set m a b) = true := by
  induction m with
  | nil => unfold Memory.set; split <;> simp_all [Memory.wf]
  | cons p t ih =>
    obtain ⟨k, v⟩ := p
    obtain ⟨h1, h2, h3⟩ := Memory.wf_cons.mp h
    unfold Memory.set
    split
    · split
      · exact h
      · refine Memory.wf_cons.mpr ⟨‹_›, ?_, h⟩
        intro p hp
        rcases List.mem_cons.mp hp with rfl | hp
        · assumption
        · have := h2 p hp; omega
    · split
      · subst_vars
        split
        · exact h3
        · exact Memory.wf_cons.mpr ⟨‹_›, h2, h3⟩
      · exact Memory.wf_cons.mpr ⟨h1, Memory.above_set h2 (by omega), ih h3⟩

/-- A byte after a write of one byte. -/
theorem Memory.get_set {m : List Host.Cell} (h : Memory.wf m = true) (a x : Nat) (b : Byte) :
    Memory.get (Memory.set m a b) x = if x = a then b else Memory.get m x := by
  induction m with
  | nil => unfold Memory.set; split <;> simp_all [Memory.get_cons]
  | cons p t ih =>
    obtain ⟨k, v⟩ := p
    obtain ⟨h1, h2, h3⟩ := Memory.wf_cons.mp h
    unfold Memory.set
    split
    · have hab : Memory.above a ((k, v) :: t) := by
        intro p hp
        rcases List.mem_cons.mp hp with rfl | hp
        · assumption
        · have := h2 p hp; omega
      split
      · by_cases hx : x = a
        · subst hx; simp [Memory.get_above hab, *]
        · simp [hx]
      · rw [Memory.get_cons]
    · split
      · subst_vars
        by_cases hx : x = k
        · subst hx
          split
          · simp [Memory.get_above h2, *]
          · simp [Memory.get_cons]
        · split <;> simp [Memory.get_cons, hx]
      · rw [Memory.get_cons, Memory.get_cons, ih h3]
        by_cases hx : x = k
        · subst hx
          have : x ≠ a := fun e => by omega
          simp [this]
        · simp [hx]

/-- A write of bytes keeps the canonical form. -/
theorem Memory.wf_write (bs : List Byte) {m : List Host.Cell} (h : Memory.wf m = true) (a : Nat) : Memory.wf (Memory.write m a bs) = true := by
  induction bs generalizing m a with
  | nil => exact h
  | cons b bs ih => exact ih (Memory.wf_set h a b) (a + 1)

/-- A byte after a write of bytes: the byte written there, or the one before. -/
theorem Memory.get_write (bs : List Byte) {m : List Host.Cell} (h : Memory.wf m = true) (a x : Nat) :
    Memory.get (Memory.write m a bs) x = if a ≤ x then (bs[x - a]?).getD (Memory.get m x) else Memory.get m x := by
  induction bs generalizing m a with
  | nil => simp [Memory.write]
  | cons b bs ih =>
    rw [Memory.write, ih (Memory.wf_set h a b), Memory.get_set h]
    rcases Nat.lt_trichotomy x a with hx | hx | hx
    · have h1 : ¬ a + 1 ≤ x := by omega
      have h2 : ¬ a ≤ x := by omega
      have h3 : x ≠ a := by omega
      simp [h1, h2, h3]
    · subst hx
      have h1 : ¬ x + 1 ≤ x := by omega
      simp [h1]
    · have h1 : a + 1 ≤ x := by omega
      have h2 : a ≤ x := by omega
      have h3 : x ≠ a := by omega
      have h4 : x - a = (x - (a + 1)) + 1 := by omega
      rw [if_pos h1, if_pos h2, if_neg h3, h4, List.getElem?_cons_succ]

/-- Bytes outside a write stay. -/
theorem Memory.get_write_out {bs : List Byte} {m : List Host.Cell} (h : Memory.wf m = true) {a x : Nat}
    (hx : x < a ∨ a + bs.length ≤ x) : Memory.get (Memory.write m a bs) x = Memory.get m x := by
  rw [Memory.get_write bs h]
  split
  · have : bs.length ≤ x - a := by omega
    simp [List.getElem?_eq_none this]
  · rfl

/-- A read is as long as asked. -/
@[simp] theorem Memory.length_read (m : List Host.Cell) (a n : Nat) : (Memory.read m a n).length = n := by
  induction n generalizing a with
  | zero => rfl
  | succ n ih => simp [Memory.read, ih]

theorem Memory.getElem_read (m : List Host.Cell) (a n i : Nat) (h : i < (Memory.read m a n).length) :
    (Memory.read m a n)[i] = Memory.get m (a + i) := by
  induction n generalizing a i with
  | zero => simp [Memory.read] at h
  | succ n ih =>
    cases i with
    | zero => simp [Memory.read]
    | succ i =>
      simp only [Memory.read, List.getElem_cons_succ]
      rw [ih]
      congr 1
      omega

/-- A read after a write of the same bytes gives them. -/
theorem Memory.read_write {m : List Host.Cell} (h : Memory.wf m = true) (a : Nat) (bs : List Byte) :
    Memory.read (Memory.write m a bs) a bs.length = bs := by
  apply List.ext_getElem
  · simp
  · intro i h1 h2
    rw [Memory.getElem_read, Memory.get_write bs h]
    simp [h2]

/-! ## Numbers as bytes (R11) -/

@[simp] theorem leBytes_length (n x : Nat) : (leBytes n x).length = n := by
  induction n generalizing x with
  | zero => rfl
  | succ n ih => simp [leBytes, ih]

/-- The number that the low bytes of a number stand for. -/
theorem leNat_leBytes (n x : Nat) : leNat (leBytes n x) = x % 256 ^ n := by
  induction n generalizing x with
  | zero => simp [leBytes, leNat, Nat.mod_one]
  | succ n ih =>
    simp only [leBytes, leNat, ih, BitVec.toNat_ofNat]
    have h : 256 ^ (n + 1) = 256 * 256 ^ n := Nat.pow_succ' ..
    rw [h, Nat.mod_mul]

theorem leNat_lt (bs : List Byte) : leNat bs < 256 ^ bs.length := by
  induction bs with
  | nil => simp [leNat]
  | cons b bs ih =>
    have := b.isLt
    simp only [leNat, List.length_cons, Nat.pow_succ]
    omega

/-- The memory after reset is canonical. -/
theorem memOk_reset : State.reset.memOk = true := by decide

end Sys2Proof.Machine
end

