-- ==== Sys2Proof/Laws/PerInstr.lean ====
section
/-! SUPPORT. Per instruction: its form (class, opcode and fields) stands for it alone. -/

namespace Sys2Proof.Laws.Encoding

open Sys2Proof

/-- A well-formed instruction is the one that its form stands for (R56 to R75). -/
def Statement (i : Instr) : Prop := i.wf = true → i.form.toInstr = some i

theorem dup (f : VFields) : Statement (.dup f) := fun _ => rfl
theorem get (slot : BitVec 6) : Statement (.get slot) := fun _ => rfl
theorem save (age : BitVec 5) (slot : BitVec 6) : Statement (.save age slot) := fun _ => rfl
theorem sel (f : VFields) : Statement (.sel f) := fun _ => rfl
theorem drop (n : BitVec 5) : Statement (.drop n) := fun _ => rfl
theorem lane (f : VFields) : Statement (.lane f) := fun _ => rfl
theorem add (f : VFields) : Statement (.add f) := fun _ => rfl
theorem sub (f : VFields) : Statement (.sub f) := fun _ => rfl
theorem mul (f : VFields) : Statement (.mul f) := fun _ => rfl
theorem mulhi (f : VFields) : Statement (.mulhi f) := fun _ => rfl
theorem mad (f : VFields) : Statement (.mad f) := fun _ => rfl
theorem div (f : VFields) : Statement (.div f) := fun _ => rfl
theorem rem (f : VFields) : Statement (.rem f) := fun _ => rfl
theorem abs (f : VFields) : Statement (.abs f) := fun _ => rfl
theorem neg (f : VFields) : Statement (.neg f) := fun _ => rfl
theorem min (f : VFields) : Statement (.min f) := fun _ => rfl
theorem max (f : VFields) : Statement (.max f) := fun _ => rfl
theorem clamp (f : VFields) : Statement (.clamp f) := fun _ => rfl
theorem absdiff (f : VFields) : Statement (.absdiff f) := fun _ => rfl
theorem lea (f : VFields) : Statement (.lea f) := fun _ => rfl
theorem and (f : VFields) : Statement (.and f) := fun _ => rfl
theorem or (f : VFields) : Statement (.or f) := fun _ => rfl
theorem xor (f : VFields) : Statement (.xor f) := fun _ => rfl
theorem not (f : VFields) : Statement (.not f) := fun _ => rfl
theorem shl (f : VFields) : Statement (.shl f) := fun _ => rfl
theorem shr (f : VFields) : Statement (.shr f) := fun _ => rfl
theorem rotl (f : VFields) : Statement (.rotl f) := fun _ => rfl
theorem bfx (f : VFields) : Statement (.bfx f) := fun _ => rfl
theorem bfi (f : VFields) : Statement (.bfi f) := fun _ => rfl
theorem popc (f : VFields) : Statement (.popc f) := fun _ => rfl
theorem clz (f : VFields) : Statement (.clz f) := fun _ => rfl
theorem ctz (f : VFields) : Statement (.ctz f) := fun _ => rfl
theorem brev (f : VFields) : Statement (.brev f) := fun _ => rfl
theorem permb (f : VFields) : Statement (.permb f) := fun _ => rfl
theorem pack (f : VFields) : Statement (.pack f) := fun _ => rfl
theorem ceq (f : VFields) : Statement (.ceq f) := fun _ => rfl
theorem cne (f : VFields) : Statement (.cne f) := fun _ => rfl
theorem clt (f : VFields) : Statement (.clt f) := fun _ => rfl
theorem cle (f : VFields) : Statement (.cle f) := fun _ => rfl
theorem cgt (f : VFields) : Statement (.cgt f) := fun _ => rfl
theorem cge (f : VFields) : Statement (.cge f) := fun _ => rfl
theorem cuno (f : VFields) : Statement (.cuno f) := fun _ => rfl
theorem fclass (f : VFields) : Statement (.fclass f) := fun _ => rfl
theorem fadd (f : VFields) : Statement (.fadd f) := fun _ => rfl
theorem fsub (f : VFields) : Statement (.fsub f) := fun _ => rfl
theorem fmul (f : VFields) : Statement (.fmul f) := fun _ => rfl
theorem ffma (f : VFields) : Statement (.ffma f) := fun _ => rfl
theorem fmin (f : VFields) : Statement (.fmin f) := fun _ => rfl
theorem fmax (f : VFields) : Statement (.fmax f) := fun _ => rfl
theorem frnd (f : VFields) : Statement (.frnd f) := fun _ => rfl
theorem fdot2 (f : VFields) : Statement (.fdot2 f) := fun _ => rfl
theorem fdot4 (f : VFields) : Statement (.fdot4 f) := fun _ => rfl
theorem fscale (f : VFields) : Statement (.fscale f) := fun _ => rfl
theorem cvtf (f : VFields) : Statement (.cvtf f) := fun _ => rfl
theorem cvtfi (f : VFields) : Statement (.cvtfi f) := fun _ => rfl
theorem cvtif (f : VFields) : Statement (.cvtif f) := fun _ => rfl
theorem rcp (f : VFields) : Statement (.rcp f) := fun _ => rfl
theorem rsq (f : VFields) : Statement (.rsq f) := fun _ => rfl
theorem sqrt (f : VFields) : Statement (.sqrt f) := fun _ => rfl
theorem exp2 (f : VFields) : Statement (.exp2 f) := fun _ => rfl
theorem log2 (f : VFields) : Statement (.log2 f) := fun _ => rfl
theorem sin (f : VFields) : Statement (.sin f) := fun _ => rfl
theorem cos (f : VFields) : Statement (.cos f) := fun _ => rfl
theorem tanh (f : VFields) : Statement (.tanh f) := fun _ => rfl
theorem sigm (f : VFields) : Statement (.sigm f) := fun _ => rfl
theorem act (f : VFields) : Statement (.act f) := fun _ => rfl
theorem ldi (f : IFields) : Statement (.ldi f) := fun _ => rfl
theorem ldhi (f : IFields) : Statement (.ldhi f) := fun _ => rfl
theorem pchi (f : IFields) : Statement (.pchi f) := fun _ => rfl
theorem addi (f : IFields) : Statement (.addi f) := fun _ => rfl
theorem muli (f : IFields) : Statement (.muli f) := fun _ => rfl
theorem andi (f : IFields) : Statement (.andi f) := fun _ => rfl
theorem ori (f : IFields) : Statement (.ori f) := fun _ => rfl
theorem xori (f : IFields) : Statement (.xori f) := fun _ => rfl
theorem shli (f : IFields) : Statement (.shli f) := fun _ => rfl
theorem shri (f : IFields) : Statement (.shri f) := fun _ => rfl
theorem mini (f : IFields) : Statement (.mini f) := fun _ => rfl
theorem maxi (f : IFields) : Statement (.maxi f) := fun _ => rfl
theorem clti (f : IFields) : Statement (.clti f) := fun _ => rfl
theorem faddi (f : IFields) : Statement (.faddi f) := fun _ => rfl
theorem fmuli (f : IFields) : Statement (.fmuli f) := fun _ => rfl
theorem ffmai (f : IFields) : Statement (.ffmai f) := fun _ => rfl
theorem fmini (f : IFields) : Statement (.fmini f) := fun _ => rfl
theorem fmaxi (f : IFields) : Statement (.fmaxi f) := fun _ => rfl
theorem smov (f : SFields) : Statement (.smov f) := fun _ => rfl
theorem ssel (f : SFields) : Statement (.ssel f) := fun _ => rfl
theorem sadd (f : SFields) : Statement (.sadd f) := fun _ => rfl
theorem ssub (f : SFields) : Statement (.ssub f) := fun _ => rfl
theorem smul (f : SFields) : Statement (.smul f) := fun _ => rfl
theorem smulhi (f : SFields) : Statement (.smulhi f) := fun _ => rfl
theorem sdiv (f : SFields) : Statement (.sdiv f) := fun _ => rfl
theorem srem (f : SFields) : Statement (.srem f) := fun _ => rfl
theorem smin (f : SFields) : Statement (.smin f) := fun _ => rfl
theorem smax (f : SFields) : Statement (.smax f) := fun _ => rfl
theorem slea (f : SFields) : Statement (.slea f) := fun _ => rfl
theorem sand (f : SFields) : Statement (.sand f) := fun _ => rfl
theorem sor (f : SFields) : Statement (.sor f) := fun _ => rfl
theorem sxor (f : SFields) : Statement (.sxor f) := fun _ => rfl
theorem snot (f : SFields) : Statement (.snot f) := fun _ => rfl
theorem sshl (f : SFields) : Statement (.sshl f) := fun _ => rfl
theorem sshr (f : SFields) : Statement (.sshr f) := fun _ => rfl
theorem sbfx (f : SFields) : Statement (.sbfx f) := fun _ => rfl
theorem spopc (f : SFields) : Statement (.spopc f) := fun _ => rfl
theorem sclz (f : SFields) : Statement (.sclz f) := fun _ => rfl
theorem sctz (f : SFields) : Statement (.sctz f) := fun _ => rfl
theorem scmp (f : SFields) : Statement (.scmp f) := fun _ => rfl
theorem sread (f : SFields) : Statement (.sread f) := fun _ => rfl
theorem swrite (f : SFields) : Statement (.swrite f) := by
  intro h
  simp_all [Instr.wf, Instr.canonical, Instr.form, Form.toInstr, Instr.ofS]
theorem leaseWrite (f : SFields) : Statement (.leaseWrite f) := by
  intro h
  simp_all [Instr.wf, Instr.canonical, Instr.form, Form.toInstr, Instr.ofS]
theorem dieselWrite (f : SFields) : Statement (.dieselWrite f) := by
  intro h
  simp_all [Instr.wf, Instr.canonical, Instr.form, Form.toInstr, Instr.ofS]
theorem dbgHalt (core : Nat) : Statement (.dbgHalt core) := fun h => absurd h Bool.false_ne_true
theorem dbgStep (core : Nat) : Statement (.dbgStep core) := fun h => absurd h Bool.false_ne_true
theorem sld (f : SFields) : Statement (.sld f) := fun _ => rfl
theorem sst (f : SFields) : Statement (.sst f) := fun _ => rfl
theorem satom (f : SFields) : Statement (.satom f) := fun _ => rfl
theorem ld (f : MFields) : Statement (.ld f) := fun _ => rfl
theorem st (f : MFields) : Statement (.st f) := fun _ => rfl
theorem pref (f : MFields) : Statement (.pref f) := fun _ => rfl
theorem renew (f : MFields) : Statement (.renew f) := fun _ => rfl
theorem waitv (f : MFields) : Statement (.waitv f) := fun _ => rfl
theorem aadd (f : MFields) : Statement (.aadd f) := fun _ => rfl
theorem amin (f : MFields) : Statement (.amin f) := fun _ => rfl
theorem amax (f : MFields) : Statement (.amax f) := fun _ => rfl
theorem aand (f : MFields) : Statement (.aand f) := fun _ => rfl
theorem aor (f : MFields) : Statement (.aor f) := fun _ => rfl
theorem axor (f : MFields) : Statement (.axor f) := fun _ => rfl
theorem axchg (f : MFields) : Statement (.axchg f) := fun _ => rfl
theorem acas (f : MFields) : Statement (.acas f) := fun _ => rfl
theorem afadd (f : MFields) : Statement (.afadd f) := fun _ => rfl
theorem ainc (f : MFields) : Statement (.ainc f) := fun _ => rfl
theorem copy (f : EFields) : Statement (.copy f) := fun _ => rfl
theorem copynd (f : EFields) : Statement (.copynd f) := fun _ => rfl
theorem gather (f : EFields) : Statement (.gather f) := fun _ => rfl
theorem scatter (f : EFields) : Statement (.scatter f) := fun _ => rfl
theorem mapRange (f : EFields) : Statement (.mapRange f) := fun _ => rfl
theorem unmap (f : EFields) : Statement (.unmap f) := fun _ => rfl
theorem wback (f : EFields) : Statement (.wback f) := fun _ => rfl
theorem settle (f : EFields) : Statement (.settle f) := fun _ => rfl
theorem subwait (f : EFields) : Statement (.subwait f) := fun _ => rfl
theorem waith (f : EFields) : Statement (.waith f) := fun _ => rfl
theorem testh (f : EFields) : Statement (.testh f) := fun _ => rfl
theorem cancelh (f : EFields) : Statement (.cancelh f) := fun _ => rfl
theorem waitall (f : EFields) : Statement (.waitall f) := fun _ => rfl
theorem take (f : XFields) : Statement (.take f) := fun _ => rfl
theorem free (f : XFields) : Statement (.free f) := fun _ => rfl
theorem bload (f : XFields) : Statement (.bload f) := fun _ => rfl
theorem cbload (f : XFields) : Statement (.cbload f) := fun _ => rfl
theorem bdrop (f : XFields) : Statement (.bdrop f) := fun _ => rfl
theorem mma (f : XFields) : Statement (.mma f) := fun _ => rfl
theorem mxt (f : XFields) : Statement (.mxt f) := fun _ => rfl
theorem mxp (f : XFields) : Statement (.mxp f) := fun _ => rfl
theorem mxr (f : XFields) : Statement (.mxr f) := fun _ => rfl
theorem accz (f : XFields) : Statement (.accz f) := fun _ => rfl
theorem accrd (f : XFields) : Statement (.accrd f) := fun _ => rfl
theorem rkld (f : XFields) : Statement (.rkld f) := fun _ => rfl
theorem rkst (f : XFields) : Statement (.rkst f) := fun _ => rfl
theorem br (off : Word) : Statement (.br off) := fun _ => rfl
theorem brz (c : Operand) (junc : BitVec 22) (target : BitVec 20) : Statement (.brz c junc target) := fun _ => rfl
theorem brnz (c : Operand) (junc : BitVec 22) (target : BitVec 20) : Statement (.brnz c junc target) := fun _ => rfl
theorem brsz (s : BitVec 7) (off : Word) : Statement (.brsz s off) := fun _ => rfl
theorem brsnz (s : BitVec 7) (off : Word) : Statement (.brsnz s off) := fun _ => rfl
theorem brdec (s : BitVec 7) (off : Word) : Statement (.brdec s off) := fun _ => rfl
theorem join (f : JoinFields) : Statement (.join f) := fun _ => rfl
theorem call (n : BitVec 4) (off : Word) : Statement (.call n off) := fun _ => rfl
theorem calli (n : BitVec 4) (idx : Operand) (sig : Word) : Statement (.calli n idx sig) := fun _ => rfl
theorem ret (m : BitVec 4) : Statement (.ret m) := fun _ => rfl
theorem exit : Statement (.exit) := fun _ => rfl
theorem yieldGang : Statement (.yieldGang) := fun _ => rfl
theorem nop : Statement (.nop) := fun _ => rfl
theorem brk (imm : BitVec 16) : Statement (.brk imm) := fun _ => rfl
theorem trap (imm : BitVec 16) : Statement (.trap imm) := fun _ => rfl
theorem eret : Statement (.eret) := fun _ => rfl
theorem ballot (f : GFields) : Statement (.ballot f) := fun _ => rfl
theorem vany (f : GFields) : Statement (.vany f) := fun _ => rfl
theorem vall (f : GFields) : Statement (.vall f) := fun _ => rfl
theorem shfl (f : GFields) : Statement (.shfl f) := fun _ => rfl
theorem shflx (f : GFields) : Statement (.shflx f) := fun _ => rfl
theorem shflup (f : GFields) : Statement (.shflup f) := fun _ => rfl
theorem shfldn (f : GFields) : Statement (.shfldn f) := fun _ => rfl
theorem bcast (f : GFields) : Statement (.bcast f) := fun _ => rfl
theorem redadd (f : GFields) : Statement (.redadd f) := fun _ => rfl
theorem redmin (f : GFields) : Statement (.redmin f) := fun _ => rfl
theorem redmax (f : GFields) : Statement (.redmax f) := fun _ => rfl
theorem scanadd (f : GFields) : Statement (.scanadd f) := fun _ => rfl
theorem matchLanes (f : GFields) : Statement (.matchLanes f) := fun _ => rfl
theorem rank (f : GFields) : Statement (.rank f) := fun _ => rfl
theorem bar (f : YFields) : Statement (.bar f) := fun _ => rfl
theorem bara (f : YFields) : Statement (.bara f) := fun _ => rfl
theorem barw (f : YFields) : Statement (.barw f) := fun _ => rfl
theorem fence (f : YFields) : Statement (.fence f) := fun _ => rfl
theorem xswap (f : YFields) : Statement (.xswap f) := fun _ => rfl
theorem msinc (f : YFields) : Statement (.msinc f) := fun _ => rfl
theorem mswait (f : YFields) : Statement (.mswait f) := fun _ => rfl
theorem launch (f : YFields) : Statement (.launch f) := fun _ => rfl
theorem ldact (f : YFields) : Statement (.ldact f) := fun _ => rfl
theorem actsel (f : YFields) : Statement (.actsel f) := fun _ => rfl
theorem clock (f : YFields) : Statement (.clock f) := fun _ => rfl
theorem ptime (f : YFields) : Statement (.ptime f) := fun _ => rfl
theorem sleep (f : YFields) : Statement (.sleep f) := fun _ => rfl
theorem fwrite (f : YFields) : Statement (.fwrite f) := fun _ => rfl
theorem fcopy (f : YFields) : Statement (.fcopy f) := fun _ => rfl
theorem fatom (f : YFields) : Statement (.fatom f) := fun _ => rfl
theorem winfence (f : YFields) : Statement (.winfence f) := fun _ => rfl
theorem pair (f : PairFields) : Statement (.pair f) := fun _ => rfl
theorem nest (f : NestFields) : Statement (.nest f) := fun _ => rfl
theorem clauseStart (core slot : Nat) : Statement (.clauseStart core slot) := fun h => absurd h Bool.false_ne_true
theorem loadDataArrival (req : Nat) : Statement (.loadDataArrival req) := fun h => absurd h Bool.false_ne_true
theorem scalarDataArrival (req : Nat) : Statement (.scalarDataArrival req) := fun h => absurd h Bool.false_ne_true
theorem longResultReady (req : Nat) : Statement (.longResultReady req) := fun h => absurd h Bool.false_ne_true
theorem storeAck (req : Nat) : Statement (.storeAck req) := fun h => absurd h Bool.false_ne_true
theorem scratchPerform (req : Nat) : Statement (.scratchPerform req) := fun h => absurd h Bool.false_ne_true
theorem homeStore (req : Nat) (evict : List Nat) : Statement (.homeStore req evict) := fun h => absurd h Bool.false_ne_true
theorem homeAtomic (req : Nat) (evict : List Nat) : Statement (.homeAtomic req evict) := fun h => absurd h Bool.false_ne_true
theorem homeRenewal (req : Nat) (evict : List Nat) : Statement (.homeRenewal req evict) := fun h => absurd h Bool.false_ne_true
theorem homeRead (req : Nat) : Statement (.homeRead req) := fun h => absurd h Bool.false_ne_true
theorem renewalReply (req : Nat) (ext : RemoteReply) : Statement (.renewalReply req ext) := fun h => absurd h Bool.false_ne_true
theorem waitvReread (req : Nat) : Statement (.waitvReread req) := fun h => absurd h Bool.false_ne_true
theorem clockCreep (core : Nat) : Statement (.clockCreep core) := fun h => absurd h Bool.false_ne_true
theorem rebase : Statement (.rebase) := fun h => absurd h Bool.false_ne_true
theorem priorityPromotion (core launch : Nat) : Statement (.priorityPromotion core launch) := fun h => absurd h Bool.false_ne_true
theorem sleepEnd (core frame slice : Nat) : Statement (.sleepEnd core frame slice) := fun h => absurd h Bool.false_ne_true
theorem replay (core frame : Nat) : Statement (.replay core frame) := fun h => absurd h Bool.false_ne_true
theorem faultServiceAnswer (core frame : Nat) (repaired : Bool) : Statement (.faultServiceAnswer core frame repaired) := fun h => absurd h Bool.false_ne_true
theorem groupResume (core frame : Nat) (skip : Bool) : Statement (.groupResume core frame skip) := fun h => absurd h Bool.false_ne_true
theorem softError (core frame : Nat) (mask : BitVec 8) : Statement (.softError core frame mask) := fun h => absurd h Bool.false_ne_true
theorem preemptRequest (launch : Nat) (a : SaveArgs) : Statement (.preemptRequest launch a) := fun h => absurd h Bool.false_ne_true
theorem saveRecords (launch : Nat) (a : SaveArgs) : Statement (.saveRecords launch a) := fun h => absurd h Bool.false_ne_true
theorem restore (a : RestoreArgs) : Statement (.restore a) := fun h => absurd h Bool.false_ne_true
theorem engineComplete (core handle : Nat) : Statement (.engineComplete core handle) := fun h => absurd h Bool.false_ne_true
theorem enginePause (core handle units : Nat) : Statement (.enginePause core handle units) := fun h => absurd h Bool.false_ne_true
theorem engineResume (core handle : Nat) : Statement (.engineResume core handle) := fun h => absurd h Bool.false_ne_true
theorem blockFill (core range block : Nat) : Statement (.blockFill core range block) := fun h => absurd h Bool.false_ne_true
theorem subscriptionFillDone (core range : Nat) : Statement (.subscriptionFillDone core range) := fun h => absurd h Bool.false_ne_true
theorem sequencerNumber (die sub write : Nat) : Statement (.sequencerNumber die sub write) := fun h => absurd h Bool.false_ne_true
theorem updateApply (core range : Nat) : Statement (.updateApply core range) := fun h => absurd h Bool.false_ne_true
theorem sectionPerform (core sect : Nat) : Statement (.sectionPerform core sect) := fun h => absurd h Bool.false_ne_true
theorem bdropAct (core sect : Nat) : Statement (.bdropAct core sect) := fun h => absurd h Bool.false_ne_true
theorem nestPerform (core : Nat) : Statement (.nestPerform core) := fun h => absurd h Bool.false_ne_true
theorem sectionWaitEnd (core frame slice : Nat) : Statement (.sectionWaitEnd core frame slice) := fun h => absurd h Bool.false_ne_true
theorem takeClaim (core frame slice : Nat) : Statement (.takeClaim core frame slice) := fun h => absurd h Bool.false_ne_true
theorem ldactBankWrite (core frame slice : Nat) : Statement (.ldactBankWrite core frame slice) := fun h => absurd h Bool.false_ne_true
theorem barrierDepart (core frame slice : Nat) : Statement (.barrierDepart core frame slice) := fun h => absurd h Bool.false_ne_true
theorem xswapMatch (core frame slice : Nat) : Statement (.xswapMatch core frame slice) := fun h => absurd h Bool.false_ne_true
theorem fenceComplete (core frame slice : Nat) : Statement (.fenceComplete core frame slice) := fun h => absurd h Bool.false_ne_true
theorem settleComplete (core frame slice : Nat) : Statement (.settleComplete core frame slice) := fun h => absurd h Bool.false_ne_true
theorem mswaitReread (core frame slice : Nat) : Statement (.mswaitReread core frame slice) := fun h => absurd h Bool.false_ne_true
theorem winfenceWindowEnd (core frame slice : Nat) : Statement (.winfenceWindowEnd core frame slice) := fun h => absurd h Bool.false_ne_true
theorem groupRetire (core frame : Nat) : Statement (.groupRetire core frame) := fun h => absurd h Bool.false_ne_true
theorem teamLeave (core launch : Nat) : Statement (.teamLeave core launch) := fun h => absurd h Bool.false_ne_true
theorem launchComplete (launch : Nat) : Statement (.launchComplete launch) := fun h => absurd h Bool.false_ne_true
theorem queueTailUpdate (ctx queue : Nat) : Statement (.queueTailUpdate ctx queue) := fun h => absurd h Bool.false_ne_true
theorem passMilestoneReread (rec : Nat) : Statement (.passMilestoneReread rec) := fun h => absurd h Bool.false_ne_true
theorem clusterPlace (a : PlaceArgs) : Statement (.clusterPlace a) := fun h => absurd h Bool.false_ne_true
theorem shootdown (src : ShootSource) : Statement (.shootdown src) := fun h => absurd h Bool.false_ne_true
theorem shootdownComplete : Statement (.shootdownComplete) := fun h => absurd h Bool.false_ne_true
theorem walkComplete (req : Nat) : Statement (.walkComplete req) := fun h => absurd h Bool.false_ne_true
theorem connSetup (die entry : Nat) : Statement (.connSetup die entry) := fun h => absurd h Bool.false_ne_true
theorem connTeardown (die entry : Nat) : Statement (.connTeardown die entry) := fun h => absurd h Bool.false_ne_true
theorem connClear (die entry : Nat) : Statement (.connClear die entry) := fun h => absurd h Bool.false_ne_true
theorem circuitUp (die entry : Nat) : Statement (.circuitUp die entry) := fun h => absurd h Bool.false_ne_true
theorem circuitDrained (die entry : Nat) : Statement (.circuitDrained die entry) := fun h => absurd h Bool.false_ne_true
theorem opticalFailure (die entry : Nat) : Statement (.opticalFailure die entry) := fun h => absurd h Bool.false_ne_true
theorem wavelengthFailure (die bundle : Nat) : Statement (.wavelengthFailure die bundle) := fun h => absurd h Bool.false_ne_true
theorem streamMove (stream : StreamKey) (path : Nat) : Statement (.streamMove stream path) := fun h => absurd h Bool.false_ne_true
theorem spareWayReplace (die slice : Nat) (remote : Bool) (lines : List Nat) : Statement (.spareWayReplace die slice remote lines) := fun h => absurd h Bool.false_ne_true
theorem hbmRowRemap (die row : Nat) : Statement (.hbmRowRemap die row) := fun h => absurd h Bool.false_ne_true
theorem meshLinkSpare (die link : Nat) : Statement (.meshLinkSpare die link) := fun h => absurd h Bool.false_ne_true
theorem coreRetire (core : Nat) : Statement (.coreRetire core) := fun h => absurd h Bool.false_ne_true
theorem harvestModeSet (dies : List Nat) (full : Bool) : Statement (.harvestModeSet dies full) := fun h => absurd h Bool.false_ne_true
theorem powerShareUpdate (shares : List Nat) : Statement (.powerShareUpdate shares) := fun h => absurd h Bool.false_ne_true
theorem packageReset : Statement (.packageReset) := fun h => absurd h Bool.false_ne_true
theorem dieReset (die : Nat) : Statement (.dieReset die) := fun h => absurd h Bool.false_ne_true
theorem biasFlipToHost (die region : Nat) : Statement (.biasFlipToHost die region) := fun h => absurd h Bool.false_ne_true
theorem biasFlipToDevice (die region : Nat) : Statement (.biasFlipToDevice die region) := fun h => absurd h Bool.false_ne_true
theorem hostSnoop (die line : Nat) (data : List Byte) : Statement (.hostSnoop die line data) := fun h => absurd h Bool.false_ne_true
theorem hostMemRead (addr len : Nat) : Statement (.hostMemRead addr len) := fun h => absurd h Bool.false_ne_true
theorem hostMemWrite (addr : Nat) (data : List Byte) : Statement (.hostMemWrite addr data) := fun h => absurd h Bool.false_ne_true
theorem migStart (die entry : Nat) : Statement (.migStart die entry) := fun h => absurd h Bool.false_ne_true
theorem migRetire (die entry : Nat) : Statement (.migRetire die entry) := fun h => absurd h Bool.false_ne_true
theorem migClear (die entry : Nat) : Statement (.migClear die entry) := fun h => absurd h Bool.false_ne_true
theorem migrationBlockCopy (die entry : Nat) : Statement (.migrationBlockCopy die entry) := fun h => absurd h Bool.false_ne_true
theorem bar0Write (off : Nat) (val : DWord) : Statement (.bar0Write off val) := fun h => absurd h Bool.false_ne_true
theorem fwincfgWrite (val : Word) : Statement (.fwincfgWrite val) := fun h => absurd h Bool.false_ne_true
theorem fdevcfgWrite (val : Word) : Statement (.fdevcfgWrite val) := fun h => absurd h Bool.false_ne_true
theorem remoteRequest (r : RemoteRequest) : Statement (.remoteRequest r) := fun h => absurd h Bool.false_ne_true
theorem remoteWritePerform (id : Nat) : Statement (.remoteWritePerform id) := fun h => absurd h Bool.false_ne_true
theorem remoteWriteTimeout (req : Nat) : Statement (.remoteWriteTimeout req) := fun h => absurd h Bool.false_ne_true
theorem syncLoss (err : Option (BitVec 16)) : Statement (.syncLoss err) := fun h => absurd h Bool.false_ne_true
theorem syncRegain (err : BitVec 16) : Statement (.syncRegain err) := fun h => absurd h Bool.false_ne_true
theorem headFlitError (req port : Nat) : Statement (.headFlitError req port) := fun h => absurd h Bool.false_ne_true
theorem uncorrectableMemoryError (e : MemError) : Statement (.uncorrectableMemoryError e) := fun h => absurd h Bool.false_ne_true
theorem l2SliceFailure (die slice : Nat) : Statement (.l2SliceFailure die slice) := fun h => absurd h Bool.false_ne_true
theorem endLaunch (launch : Nat) : Statement (.endLaunch launch) := fun h => absurd h Bool.false_ne_true
theorem queueStatusClear (ctx : Nat) (act : PassAct) : Statement (.queueStatusClear ctx act) := fun h => absurd h Bool.false_ne_true

end Sys2Proof.Laws.Encoding
end

