-- ==== Sys2Proof/Tests/Slice0.lean ====
section
/-! SUPPORT. Tests of decoding and of the static checks, and for each statement states and operands that meet its hypotheses. -/

namespace Sys2Proof.Tests

open Sys2Proof Sys2Proof.Machine

/-! ## Words of the spec's worked examples -/

/-- The example of spec/05_lane_integer.md: CLAMP.i32 a0, -4, a2. -/
theorem test_decode_clamp : decodeTableWord 64 0x11B100000308C008 =
    some (.clamp ⟨.i32, 0, .rne, false, false, ⟨.age 0, 0⟩, ⟨.inline 35, 0⟩, ⟨.age 2, 0⟩, false, []⟩) := by decide

/-- The source of that example: inline constant 35 is -4 (R49). -/
theorem test_inline_minus_four : intVal .i32 (((State.reset).env (Group.placed 0) Lane.start []).get 0 (.val .i32) ⟨.inline 35, 0⟩) = -4 := by
  decide

/-- The example of spec/05_lane_integer.md: PCHI at word offset 20. -/
theorem test_decode_pchi : decodeTableWord 64 0x202D000000000014 =
    some (.pchi ⟨.b64, ⟨.age 0, 0⟩, ⟨.age 0, 0⟩, .rne, false, 20⟩) := by decide

/-- Examples of the group operations. -/
theorem test_decode_match : decodeTableWord 64 0x80C0001000000000 = some (.matchLanes ⟨.b32, ⟨.age 1, 0⟩, ⟨.age 0, 0⟩, 0, 0⟩) := by decide
theorem test_decode_shflup : decodeTableWord 64 0x8050003C02000000 = some (.shflup ⟨.b32, ⟨.age 3, 0⟩, ⟨.inline 2, 0⟩, 0, 0⟩) := by decide
theorem test_decode_redadd : decodeTableWord 64 0x8081004000000000 = some (.redadd ⟨.i32, ⟨.age 4, 0⟩, ⟨.age 0, 0⟩, 0, 0⟩) := by decide

/-- A class with no assigned code, an unassigned opcode and a nonzero reserved field are refused by name (R37, R57, R72). -/
theorem test_refuse_class : decode [0, 0xC0000000] = .error .noClass := by decide
theorem test_refuse_opcode : decode [0, 0x10400000] = .error .noOpcode := by decide
theorem test_refuse_end : decode [0] = .error .codeEnd := by decide
theorem test_refuse_literals : decode [0x00000003, 0x11010000] = .error .badField := by decide

/-! ## Ill-formed instructions, one for each check -/

/-- Sources read none, one, two or three times in their places (R55). -/
def fields (ty : Ty) (n : Nat) : VFields :=
  let o := fun (k : Nat) => if k < n then (⟨.scalar 4, 0⟩ : Operand) else Operand.zero
  ⟨ty, 0, .rne, false, false, o 0, o 1, o 2, false, []⟩

theorem test_wf : (Instr.add (fields .i32 2)).wf = true := by decide
theorem test_wf_type : (Instr.add (fields .f32 2)).wf = false := by decide
theorem test_wf_unused : (Instr.add (fields .i32 3)).wf = false := by decide
theorem test_wf_narrow : (Instr.shl { fields .i32 2 with narrow := true, nfmt := 7 }).wf = false := by decide
theorem test_wf_format : (Instr.add { fields .i32 2 with nfmt := 7 }).wf = false := by decide
theorem test_wf_saturation : (Instr.and { fields .b32 2 with sat := true }).wf = false := by decide
theorem test_wf_rounding : (Instr.add { fields .i32 2 with rm := .rz }).wf = false := by decide
theorem test_wf_grade : (Instr.fadd { fields .f32 2 with grade := true }).wf = false := by decide
theorem test_wf_scalar : (Instr.dup { fields .b32 1 with src0 := ⟨.scalar 96, 0⟩ }).wf = false := by decide
theorem test_wf_pair_of_scalars : (Instr.dup { fields .b64 1 with src0 := ⟨.scalar 5, 0⟩ }).wf = false := by decide
theorem test_wf_age : (Instr.dup { fields .b64 1 with src0 := ⟨.age 31, 0⟩ }).wf = false := by decide
theorem test_wf_inline : (Instr.dup { fields .i32 1 with src0 := ⟨.inline 48, 0⟩ }).wf = false := by decide
theorem test_wf_literal : (Instr.dup { fields .b32 1 with lits := [1] }).wf = false := by decide
theorem test_wf_modifier : (Instr.dup { fields .n32 1 with src0 := ⟨.age 0, 1⟩ }).wf = false := by decide
theorem test_wf_subfield : (Instr.dup { fields .b32 1 with src0 := ⟨.age 0, 4⟩ }).wf = false := by decide
/-- R50 and R51 give b32 subfield mode, and R53 a narrowing destination its rounding mode. -/
theorem test_wf_subfield_of_words : (Instr.dup { fields .b32 1 with src0 := ⟨.age 0, 4⟩, nfmt := 7 }).wf = true := by decide
theorem test_wf_narrow_rounds : (Instr.dup { fields .f32 1 with narrow := true, nfmt := 1, rm := .rz }).wf = true := by decide
theorem test_wf_immediate : (Instr.shli ⟨.i32, ⟨.age 0, 0⟩, ⟨.age 0, 0⟩, .rne, false, 32⟩).wf = false := by decide
theorem test_wf_drop : (Instr.drop 0).wf = false := by decide
theorem test_wf_scalar_age : (Instr.smov ⟨.i32, 4, ⟨.age 0, 0⟩, ⟨.age 0, 0⟩, 0, 0, []⟩).wf = false := by decide
theorem test_wf_destination : (Instr.smov ⟨.i32, 96, ⟨.scalar 4, 0⟩, ⟨.age 0, 0⟩, 0, 0, []⟩).wf = false := by decide
theorem test_wf_condition : (Instr.scmp ⟨.i32, 4, ⟨.scalar 4, 0⟩, ⟨.scalar 4, 0⟩, 6, 0, []⟩).wf = false := by decide
theorem test_wf_field : (Instr.sbfx ⟨.i32, 4, ⟨.scalar 4, 0⟩, ⟨.age 0, 0⟩, 0, 0, []⟩).wf = false := by decide
theorem test_wf_register : (Instr.sread ⟨.b32, 4, ⟨.age 0, 0⟩, ⟨.age 0, 0⟩, 0, 1, []⟩).wf = false := by decide
theorem test_wf_read_only : (Instr.swrite ⟨.b32, 0, ⟨.scalar 4, 0⟩, ⟨.age 0, 0⟩, 0, 2, []⟩).wf = false := by decide
theorem test_wf_own_code : (Instr.swrite ⟨.b32, 0, ⟨.scalar 4, 0⟩, ⟨.age 0, 0⟩, 0, 0x105, []⟩).wf = false := by decide
theorem test_wf_order : (Instr.ld ⟨.b32, .global, .release, .group, ⟨.scalar 4, 0⟩, ⟨.age 0, 0⟩, false, false, .normal, 0⟩).wf = false := by decide
theorem test_wf_scope : (Instr.ld ⟨.b32, .global, .plain, .die, ⟨.scalar 4, 0⟩, ⟨.age 0, 0⟩, false, false, .normal, 0⟩).wf = false := by decide
theorem test_wf_space : (Instr.st ⟨.b32, .bank, .plain, .group, ⟨.scalar 4, 0⟩, ⟨.age 0, 0⟩, false, false, .normal, 0⟩).wf = false := by decide
theorem test_wf_hint : (Instr.ld ⟨.b32, .scratch, .plain, .group, ⟨.scalar 4, 0⟩, ⟨.age 0, 0⟩, false, false, .keep, 0⟩).wf = false := by decide
theorem test_wf_sign : (Instr.ld ⟨.b32, .global, .plain, .group, ⟨.scalar 4, 0⟩, ⟨.age 0, 0⟩, true, false, .normal, 0⟩).wf = false := by decide
theorem test_wf_quad : (Instr.st ⟨.b128, .global, .plain, .group, ⟨.scalar 4, 0⟩, ⟨.scalar 6, 0⟩, false, false, .normal, 0⟩).wf = false := by decide
theorem test_wf_cas : (Instr.acas ⟨.b64, .global, .plain, .group, ⟨.scalar 4, 0⟩, ⟨.age 29, 0⟩, false, false, .normal, 0⟩).wf = false := by decide
theorem test_wf_block : (Instr.copy ⟨30, 90, 0, 0⟩).wf = false := by decide
theorem test_wf_handle : (Instr.copy ⟨100, 8, 0, 0⟩).wf = false := by decide
theorem test_wf_transform : (Instr.copy ⟨30, 8, 0x12, 3⟩).wf = false := by decide
theorem test_wf_slots : (Instr.take ⟨120, 0, 0, 0, 0, 0, 0, 0, 9⟩).wf = false := by decide
theorem test_wf_tiles : (Instr.mma ⟨0, 32, 127, 0, 0, 0, 0, 0, 9⟩).wf = false := by decide
theorem test_wf_scale : (Instr.bload ⟨0, 0, 127, 0, 0, 0, 0, 1, 0⟩).wf = false := by decide
theorem test_wf_uniform : (Instr.br 4).wf = true := by decide
theorem test_wf_branch : (Instr.brsz 96 4).wf = false := by decide
theorem test_wf_condition_word : (Instr.brz ⟨.age 0, 1⟩ 1 1).wf = false := by decide
theorem test_wf_select : (Instr.join ⟨0, 1, 0, 1, 0, 0, 0, 0⟩).wf = false := by decide
theorem test_wf_ballot : (Instr.ballot ⟨.b32, ⟨.age 0, 0⟩, ⟨.age 0, 0⟩, 96, 0⟩).wf = false := by decide
theorem test_wf_exclusive : (Instr.scanadd ⟨.i32, ⟨.age 0, 0⟩, ⟨.age 0, 0⟩, 0, 2⟩).wf = false := by decide
theorem test_wf_barrier : (Instr.bar ⟨0x70, ⟨.age 0, 0⟩, 0, 0⟩).wf = false := by decide
theorem test_wf_fence : (Instr.fence ⟨0x02, ⟨.age 0, 0⟩, 0, 0⟩).wf = false := by decide
theorem test_wf_sleep : (Instr.sleep ⟨0, ⟨.age 0, 0⟩, 0, 0⟩).wf = false := by decide
theorem test_wf_pair : (Instr.pair ⟨.shl, .i32, ⟨.age 0, 0⟩, ⟨.age 1, 0⟩, true, .fmul, .f32, ⟨.age 2, 0⟩, ⟨.age 3, 0⟩, .rne⟩).wf = false := by
  decide
theorem test_wf_pair_ports : (Instr.pair ⟨.add, .i32, ⟨.scalar 0, 0⟩, ⟨.scalar 1, 0⟩, false, .fmul, .f32, ⟨.scalar 2, 0⟩, ⟨.age 3, 0⟩, .rne⟩).wf =
    false := by decide
theorem test_wf_nest : (Instr.nest ⟨.maxr, true, 1, 0, 0, 0, false, .rne, false, 0, [7, 0, 0, 0, 0],
    [1, 0, 0, 0, 0, 1, 0, 0, 0, 0, 0, 0, 0, 0, 0]⟩).wf = false := by decide
theorem test_wf_event : (Instr.rebase).wf = false := by decide

/-! ## A small state -/

/-- Context 0's descriptor at 0x1000: a function table of two entries, queue 0, a code table of one object whose start map marks its
first 64 words. Function 0 is at 0x10010 with signature 7. A clause of one NOP lies at 0x10000, a kernel's header at 0x10040 with its entry behind
it, a launch record at 0x6000, and queue 0 with one record to take at 0x7000. -/
def someMemory : List Host.Cell :=
  [(0x1011, 0x40), (0x1018, 0x2), (0x1021, 0x70), (0x1028, 0x1), (0x102A, 0x1), (0x1031, 0x20), (0x1038, 0x1), (0x2002, 0x1),
   (0x2009, 0x10), (0x2011, 0x30), (0x3000, 0xFF), (0x3001, 0xFF), (0x3002, 0xFF), (0x3003, 0xFF), (0x3004, 0xFF), (0x3005, 0xFF),
   (0x3006, 0xFF), (0x3007, 0xFF), (0x4000, 0x10), (0x4002, 0x1), (0x4008, 0x7), (0x400C, 0x1), (0x6000, 0x80), (0x6002, 0x1),
   (0x6010, 0x1), (0x6014, 0x1), (0x6018, 0x1), (0x7001, 0x60), (0x7008, 0x8), (0x7010, 0x1), (0x10004, 0x8), (0x10005, 0xFF),
   (0x1000E, 0x80), (0x1000F, 0x73), (0x10040, 0x57), (0x10041, 0x48), (0x10042, 0x4B), (0x10043, 0x31), (0x10044, 0x1),
   (0x1004D, 0x4), (0x10054, 0x80), (0x10058, 0x1), (0x10059, 0x1), (0x1005A, 0x1), (0x1005B, 0x1), (0x10070, 0x1)]

/-- Scalars listed, the others zero. -/
def scalarsOf (l : List (Nat × Word)) : Vector Word 96 :=
  ⟨((List.range 96).map fun j => (Sparse.get? l j).getD 0).toArray, by simp⟩

/-- A group in frame 0 of core 0. -/
def g0 : Group := { Group.placed 0x10000 with scalars := scalarsOf [(4, 0x20000)] }

/-- One page of 1 TiB that maps addresses to themselves, readable, writable and executable. -/
def page0 : TlbEntry := ⟨0, 0, 1, 0x1F, 0⟩

/-- A core with one group. -/
def coreOf (g : Group) : Core := { Core.reset 0 0 0 with frames := [(0, g)], teams := [Team.placed], tlb := [page0] }

/-- An instruction of it in issue: the first of two in the clause at its PC. -/
def iss0 : Issuer := ⟨0, 0, 0xFF, 0x10000, 0, 0x10008, 0x10000, 1, 0x10018, 0, 1, []⟩

/-- Its launch. -/
def record0 : LaunchRec := ⟨0x10000, 0x50000, 2, 1, 0, false, none, 1, 0, 0, 0, 0, 0, 0x6000⟩
def launch0 : Launch := ⟨0, record0, KHeader.widest, 1, 1, 1, 0, 0, false, []⟩

/-- A state around a core. -/
def stateOf (c : Core) : State :=
  { State.reset with mem := someMemory, ctxtab := 0x1000, cores := [(0, c)], iss := iss0, launches := [launch0] }

def s0 : State := stateOf (coreOf g0)

/-- The second part of readiness, as a computation. -/
def ready (s : State) (g : Group) (i : Instr) : Bool :=
  s.checks g i == none && g.blockedBy s.iss.mask (formAges i.form) (formPushes i.form) == [] &&
    g.poisonRead s.iss.mask (formAges i.form) == none

theorem ready_of {s : State} {g : Group} {i : Instr} (hg : s.group? s.iss.core s.iss.frame = some g) (h : ready s g i = true) :
    s.Ready i g := by
  simp only [ready, Bool.and_eq_true, beq_iff_eq] at h
  exact ⟨hg, h.1.1, h.1.2, h.2⟩

theorem ready_all {s : State} {g : Group} {is : List Instr} (hg : s.group? s.iss.core s.iss.frame = some g)
    (h : is.all (ready s g) = true) : ∀ i ∈ is, s.Ready i g := fun i hi => ready_of hg (List.all_eq_true.mp h i hi)

def memReady (s : State) (g : Group) (i : Instr) : Bool :=
  ready s g i && !(g.waits.any Wait.acquires) && s.acquires s.iss.core s.iss.frame == []

theorem memReady_of {s : State} {g : Group} {i : Instr} (hg : s.group? s.iss.core s.iss.frame = some g) (h : memReady s g i = true) :
    s.MemReady i g := by
  simp only [memReady, Bool.and_eq_true, Bool.not_eq_true', beq_iff_eq] at h
  exact ⟨ready_of hg h.1.1, h.1.2, h.2⟩

theorem memReady_all {s : State} {g : Group} {is : List Instr} (hg : s.group? s.iss.core s.iss.frame = some g)
    (h : is.all (memReady s g) = true) : ∀ i ∈ is, s.MemReady i g := fun i hi => memReady_of hg (List.all_eq_true.mp h i hi)

/-! ## Witnesses: lane instructions -/

def age0 : Operand := ⟨.age 0, 0⟩
def sc4 : Operand := ⟨.scalar 4, 0⟩

theorem meets_TrailInstructionsComplete : ∀ i ∈ [Instr.dup (fields .b64 1), .dup (fields .f64 1),
    .sel { fields .b32 3 with src0 := age0 }, .sel { fields .f64 3 with src0 := age0 }, .get 63, .lane (fields .i32 0),
    .save 31 63, .drop 31], s0.Ready i g0 := ready_all rfl (by decide)

theorem meets_IntegerArithmeticCompletes : ∀ i ∈ [Instr.add (fields .i32 2), .sub (fields .i64 2), .mul { fields .i8x4 2 with sat := true },
    .mulhi (fields .n64 2), .mad { fields .i32 3 with narrow := true, nfmt := 7 }, .div (fields .i32 2), .rem (fields .n64 2), .abs (fields .i32 1),
    .neg (fields .i64 1), .min (fields .n16x2 2), .max (fields .i32 2), .clamp (fields .i64 3), .absdiff (fields .n8x4 2)], s0.Ready i g0 :=
  ready_all rfl (by decide)

theorem meets_IntegerElementsAreIndependent : Ty.i8x4.isFloat = false ∧ 3 < Ty.i8x4.lanes ∧ Ty.b64.isFloat = false ∧ 0 < Ty.b64.lanes := by decide

theorem meets_BitInstructionsComplete : (∀ i ∈ [Instr.lea { fields .i32 3 with src2 := ⟨.inline 7, 0⟩ }, .and (fields .b64 2), .or (fields .b32 2),
    .xor (fields .b32 2), .not (fields .b64 1), .shl (fields .b64 2), .shr (fields .i32 2), .rotl (fields .n32 2), .bfx (fields .i32 3),
    .bfi (fields .b32 3), .popc (fields .b64 1), .clz (fields .b32 1), .ctz (fields .b32 1), .brev (fields .b64 1), .permb (fields .b32 2),
    .pack { fields .i8x4 2 with sat := true }], s0.Ready i g0) ∧ (2 ^ 32 - 1 < 2 ^ 32 ∧ 31 < 32 ∧ 3 < 4) :=
  ⟨ready_all rfl (by decide), by decide⟩

theorem meets_ComparesComplete : ∀ i ∈ [Instr.ceq (fields .b32 2), .cne (fields .f64 2), .clt (fields .f32 2), .cle (fields .i32 2), .cgt (fields .n64 2),
    .cge (fields .f64 2), .cuno (fields .f64 2), .fclass (fields .f32 2)], s0.Ready i g0 := ready_all rfl (by decide)

theorem meets_ImmediatesAndPairComplete : ∀ i ∈ [Instr.ldi ⟨.f32, age0, age0, .rne, false, 1⟩, .ldhi ⟨.b32, age0, age0, .rne, false, 1⟩,
    .pchi ⟨.b64, age0, age0, .rne, false, 1⟩, .addi ⟨.i64, sc4, age0, .rne, true, 1⟩, .muli ⟨.i32, age0, age0, .rne, false, 1⟩,
    .andi ⟨.b32, age0, age0, .rne, false, 1⟩, .ori ⟨.b32, age0, age0, .rne, false, 1⟩, .xori ⟨.n32, age0, age0, .rne, false, 1⟩,
    .shli ⟨.i32, age0, age0, .rne, false, 31⟩, .shri ⟨.i32, age0, age0, .rne, false, 31⟩, .mini ⟨.i32, age0, age0, .rne, false, 1⟩,
    .maxi ⟨.n32, age0, age0, .rne, false, 1⟩, .clti ⟨.i32, age0, age0, .rne, false, 1⟩, .faddi ⟨.f32, age0, age0, .rz, false, 1⟩,
    .fmuli ⟨.f32, age0, age0, .rne, false, 1⟩, .ffmai ⟨.f32, age0, sc4, .rne, false, 1⟩, .fmini ⟨.f32, age0, age0, .rne, false, 1⟩,
    .fmaxi ⟨.f32, age0, age0, .rne, false, 1⟩,
    .pair ⟨.add, .i32, age0, ⟨.age 31, 0⟩, true, .fmul, .f32, ⟨.age 2, 0⟩, sc4, .rz⟩], s0.Ready i g0 := ready_all rfl (by decide)

/-- Both clauses: doubles, and the types that push at once. -/
theorem meets_FloatArithmeticCompletes : ∀ i ∈ [Instr.fadd (fields .f64 2), .fsub (fields .f32 2), .fmul (fields .f16x2 2), .ffma (fields .bf16x2 3),
    .fmin (fields .f32 2), .fmax (fields .f64 2), .frnd { fields .f32 1 with rm := .rup }, .fdot2 (fields .f16x2 3),
    .fdot4 { fields .f32 3 with nfmt := 1 }, .fscale (fields .f64 2), .cvtf { fields .f32 1 with nfmt := 10 }, .cvtf { fields .f32 1 with nfmt := 4 },
    .cvtfi { fields .i32 1 with nfmt := 3, rm := .rz }, .cvtif { fields .f64 1 with nfmt := 1 }], s0.Ready i g0 := ready_all rfl (by decide)

theorem meets_ExactArithmetic : (FVal.fin true 3 (-5)).finite ∧ (FVal.fin false 1 100).finite := by decide

/-- At the largest finite code of each format of R87 and the most negative. -/
theorem meets_ExactValuesAreKept : 0x7F7FFFFF < 2 ^ FFmt.f32.bits ∧ (FFmt.f32.decode 0x7F7FFFFF).isNan = false ∧
    (FFmt.f32.decode 0xFF7FFFFF).isNan = false := by decide

theorem meets_SpecialFunctionsComplete : ∀ i ∈ [Instr.rcp (fields .f32 1), .rsq (fields .f32 1), .sqrt { fields .f32 1 with grade := true },
    .exp2 (fields .f32 1), .log2 (fields .f32 1), .sin (fields .f32 1), .cos (fields .f32 1), .tanh (fields .f32 1), .sigm (fields .f32 1),
    .act { fields .f32 2 with src1 := ⟨.inline 7, 0⟩ }], s0.Ready i g0 := ready_all rfl (by decide)

theorem meets_SpecialValues : 0x7FC00000 < 2 ^ 32 ∧ (FFmt.f32.decode 0x7FC00000).isNan = true ∧ (FFmt.f32.decode 0xFFFFFFFF).isNan = true := by decide

/-- A class S instruction's fields with as many sources as it has. -/
def sfields (ty : Ty) (dst : BitVec 7) (n : Nat) (imm : BitVec 12) : SFields :=
  ⟨ty, dst, if 0 < n then sc4 else Operand.zero, if 1 < n then sc4 else Operand.zero, 0, imm, []⟩

theorem meets_ScalarInstructionsComplete : ∀ i ∈ [Instr.smov (sfields .f32 95 1 0), .ssel (sfields .b64 94 2 95), .sadd (sfields .i64 94 2 0),
    .ssub (sfields .i32 4 2 0), .smul (sfields .n64 4 2 0), .smulhi (sfields .i32 4 2 0), .sdiv (sfields .i32 4 2 0), .srem (sfields .n32 4 2 0),
    .smin (sfields .i32 4 2 0), .smax (sfields .i64 4 2 0), .slea (sfields .i32 4 2 7), .sand (sfields .b32 4 2 0), .sor (sfields .b64 4 2 0),
    .sxor (sfields .b32 4 2 0), .snot (sfields .b64 4 1 0), .sshl (sfields .b32 4 2 0), .sshr (sfields .i64 4 2 0), .sbfx (sfields .i32 4 1 0x400),
    .spopc (sfields .b64 4 1 0), .sclz (sfields .b32 4 1 0), .sctz (sfields .b32 4 1 0), .scmp { sfields .i64 4 2 0 with cond := 5 }],
    s0.Ready i g0 := ready_all rfl (by decide)

theorem meets_GroupOperationsComplete : ∀ i ∈ [Instr.ballot ⟨.b32, age0, age0, 95, 0⟩, .vany ⟨.b32, age0, age0, 0, 0⟩, .vall ⟨.b32, age0, age0, 0, 0⟩,
    .shfl ⟨.b64, age0, age0, 0, 0⟩, .shflx ⟨.b32, age0, age0, 0, 0⟩, .shflup ⟨.b32, age0, age0, 0, 0⟩, .shfldn ⟨.b64, age0, age0, 0, 0⟩,
    .bcast ⟨.b64, age0, age0, 0, 31⟩, .redadd ⟨.f32, age0, age0, 0, 0⟩, .redmin ⟨.i32, age0, age0, 0, 0⟩, .redmax ⟨.n32, age0, age0, 0, 0⟩,
    .scanadd ⟨.f32, age0, age0, 0, 1⟩, .matchLanes ⟨.b64, age0, age0, 0, 0⟩, .rank ⟨.b32, age0, age0, 0, 0⟩], s0.Ready i g0 := ready_all rfl (by decide)

theorem meets_ReductionAndAtomicValues : (let vs := some (2 ^ 32 - 1) :: List.replicate 31 none
    vs.length = 32 ∧ (∀ v ∈ vs, ∀ x, v = some x → x < 2 ^ 32) ∧ some (2 ^ 32 - 1) ∈ vs) ∧ (31 < 32 ∧ (Ty.i32 ≠ .f32) ∧ 2 ^ 32 - 1 < 2 ^ 32) ∧
    (5 ≤ 5 ∧ 4 < 5) := by
  refine ⟨⟨by decide, ?_, by decide⟩, by decide, by decide⟩
  intro v hv x hx
  simp at hv
  rcases hv with rfl | rfl <;> simp_all
  omega

/-! ## Witnesses: control flow -/

/-- Targets within the marked words; a free divergence entry. -/
theorem meets_BranchesComplete : s0.targetFault g0 (s0.iss.pc + BitVec.signExtend 64 (2#32) * 4) = none ∧
    (∀ i ∈ [Instr.br 2, .brsz 95 2, .brsnz 0 2, .brdec 95 2], s0.Ready i g0) ∧
    s0.targetFault g0 (s0.iss.pc + BitVec.signExtend 64 (8#20) * 4) = none ∧ s0.targetFault g0 (s0.iss.pc + BitVec.signExtend 64 (0x12#22) * 4) = none ∧
    g0.divDepth < g0.hdr.divDepth ∧ ∀ i ∈ [Instr.brz age0 0x12 8, .brnz age0 0x12 8], s0.Ready i g0 :=
  ⟨by decide, ready_all rfl (by decide), by decide, by decide, by decide, ready_all rfl (by decide)⟩

theorem meets_ForkSplitsTheLanes : (0x80000001 : BitVec 32) &&& g0.activeMask s0.iss.mask = 0x80000001 := by decide

/-- A group whose slices stand in divergence entry 0, half of the lanes deferred nowhere, all still to arrive. -/
def entry0 : DivEntry := ⟨0x10010, 0, 0xFFFFFFFF, 0, 0, 5, 0⟩
def gDiv : Group := { g0.mapSlices 0xFF (fun _ sl => { sl with dvtop := 0 }) with div := [(0, entry0)] }
def sDiv : State := stateOf (coreOf gDiv)

theorem meets_JoinAndFusionReuniteTheLanes : (sDiv.Ready (.join ⟨0, 6, 0, 1, 2, 3, 4, 31⟩) gDiv ∧
    Sparse.get? gDiv.div (gDiv.slices.toList.getD (lowSlice sDiv.iss.mask) default).dvtop.toNat = some entry0 ∧
    (∀ l ∈ gDiv.activeLanes sDiv.iss.mask, gDiv.lanes[l].net = 0) ∧
    gDiv.joinBlocked sDiv.iss.mask (joinSels ⟨0, 6, 0, 1, 2, 3, 4, 31⟩) = []) ∧
    (let g := gDiv.mapLanes 0x01 fun _ l => { l with pend := [⟨31, 9⟩] }
     let s := stateOf (coreOf g)
     s.group? 0 0 = some g ∧ s.checks g (.join ⟨0, 6, 0, 1, 2, 3, 4, 31⟩) = none ∧
       g.joinBlocked s.iss.mask (joinSels ⟨0, 6, 0, 1, 2, 3, 4, 31⟩) ≠ [] ∧ g.log = [] ∧ ∀ l ∈ g.activeLanes s.iss.mask, g.lanes[l].net = 0) ∧
    (entry0.pmask &&& ~~~(entry0.amask ||| gDiv.exitedMask) ≠ 0) ∧
    (let d := { entry0 with amask := 0xFFFFFFFF }
     let g := { gDiv with div := [(0, d)] }
     Sparse.get? g.div 0 = some d ∧ d.pmask &&& ~~~(d.amask ||| g.exitedMask) = 0 ∧ ∀ l m : Fin 32, g.lanes[l].net = g.lanes[m].net) ∧
    (let d := { entry0 with amask := 0xFFFFFFFF }
     let g := { gDiv.mapLanes 0x01 (fun _ l => { l with net := 2 }) with div := [(0, d)] }
     Sparse.get? g.div 0 = some d ∧ d.pmask &&& ~~~(d.amask ||| g.exitedMask) = 0 ∧ d.amask.getLsbD 0 = true ∧ d.amask.getLsbD 31 = true ∧
       g.lanes[(0 : Fin 32)].net ≠ g.lanes[(31 : Fin 32)].net) := by
  refine ⟨⟨ready_of rfl (by decide), by decide, by decide, by decide⟩, ⟨rfl, by decide, by decide, rfl, by decide⟩, by decide, ⟨rfl, by decide, ?_⟩,
    by decide⟩
  intro l m
  simp [gDiv, g0, Group.placed]

/-- A group in a call, every slice one level down. -/
def gCall : Group := { g0.callInto 0xFF 0 (fun _ _ => []) (fun _ => (0x10008, 0)) none 0x10010 with seq := 1 }
def sCall : State := stateOf (coreOf gCall)

/-- With the shadow empty, and with the records of an earlier call in it. -/
theorem meets_CallsComplete_spill : s0.spill 0 g0 = .ok (s0, g0) ∧ g0.sliceRecs = [] ∧ (sCall.spill 0 gCall).toOption.isSome = true ∧
    gCall.sliceRecs ≠ [] ∧ sCall.Ready (.call 15 2) gCall ∧ gCall.callFull sCall.iss.mask = false ∧ gCall.allPending sCall.iss.mask = [] :=
  ⟨rfl, rfl, by decide +kernel, by decide +kernel, ready_of rfl (by decide +kernel), by decide +kernel, by decide +kernel⟩

theorem meets_CallsComplete : g0.callFull s0.iss.mask = false ∧ g0.allPending s0.iss.mask = [] ∧
    g0.poisonRead s0.iss.mask (List.range 15) = none ∧ s0.Ready (.call 15 2) g0 ∧
    s0.targetFault g0 (s0.iss.pc + BitVec.signExtend 64 (2#32) * 4) = none ∧
    s0.Ready (.calli 15 age0 7) g0 ∧ slicesOf s0.iss.mask ≠ [] ∧
    (∀ j ∈ slicesOf s0.iss.mask, s0.sliceIndex g0 age0 j = some (0, true)) ∧ s0.callee g0 7 0 = .ok 0x10010 :=
  ⟨by decide, by decide, by decide, ready_of rfl (by decide), by decide, ready_of rfl (by decide), by decide, by decide, by decide⟩

theorem meets_CallRecordsRestoreTheCaller : g0.on 0x80 31 = true ∧ g0.on 0x80 0 = false ∧ (0x80 : BitVec 8).getLsbD 7 = true ∧
    (0x80 : BitVec 8).getLsbD 0 = false := by decide

theorem meets_ReturnCompletes : sCall.Ready (.ret 15) gCall ∧
    (∀ i ∈ slicesOf sCall.iss.mask, gCall.slices[i].depth ≠ 0 ∧ gCall.slices[i].dvtop = 63) ∧ gCall.allPending sCall.iss.mask = [] ∧
    gCall.poisonRead sCall.iss.mask (List.range 15) = none ∧
    (∀ i ∈ slicesOf sCall.iss.mask, sCall.targetFault gCall (gCall.sliceRec i).retPc = none) ∧
    (∀ l ∈ gCall.activeLanes sCall.iss.mask, (Sparse.get? gCall.laneRecs (laneKey gCall.slices[sliceOfLane l].depth l.val)).isSome) ∧
    (∀ i ∈ slicesOf sCall.iss.mask, (Sparse.get? gCall.sliceRecs (sliceKey gCall.slices[i].depth i.val)).isSome) :=
  ⟨ready_of rfl (by decide), by decide, by decide, by decide, by decide, by decide, by decide⟩

/-- And with the records in memory. -/
theorem meets_ReturnCompletes_memory : (let g := { gCall with laneRecs := [], sliceRecs := [] }
    let s := stateOf (coreOf g)
    s.Ready (.ret 15) g ∧ (s.fetchRecs 0 g s.iss.mask s.iss.pc).toOption.isSome = true) :=
  ⟨ready_of rfl (by decide), by decide +kernel⟩

theorem meets_ExitYieldNopBrkTrapComplete : ∀ i ∈ [Instr.nop, .yieldGang, .exit, .brk 0xFFFF, .trap 0xFFFF], s0.Ready i g0 :=
  ready_all rfl (by decide)

/-- Slice 0 exits while entry 0 holds its lanes 0 to 3 deferred at 0x10008. -/
theorem meets_ExitYieldNopBrkTrapComplete_exit : (let d : DivEntry := { entry0 with dmask := 0xF, dpc := 0x10008 }
    let g := { gDiv with div := [(0, d)] }
    let s := { stateOf (coreOf g) with iss := { iss0 with mask := 0x01 } }
    s.Ready .exit g ∧ s.iss.mask = BitVec.ofNat 8 (2 ^ (0 : Fin 8).val) ∧
      (g.mapSlices s.iss.mask fun _ sl =>
        { sl with exited := sl.exited ||| sl.active, active := 0, pc := s.iss.nextPc, iidx := s.iss.nextIdx }).deferredIn 0 = some (0, d)) :=
  ⟨ready_of rfl (by decide), by decide, by decide⟩

/-- A group in its handler after a fault of some kind. -/
def faultOf (kind : FaultKind) : FaultRec := ⟨.trap, kind, 5, 0x10000, 0, 0, none⟩
def gTrap (kind : FaultKind) (skip : Bool) : Group :=
  (g0.callInto 0x01 0 (fun _ _ => handlerArgs (faultOf kind)) (fun _ => (0x10000, 1)) (some (faultOf kind)) 0x10010).mapSlices 0x01 fun _ sl =>
    { sl with skip := skip }
def sTrap (kind : FaultKind) (skip : Bool) : State := { stateOf (coreOf (gTrap kind skip)) with iss := { iss0 with mask := 0x01 } }

/-- The common hypotheses, and those of each of the three outcomes. -/
theorem meets_HandlerReturnCompletes : (∀ p ∈ [(FaultKind.P, true), (.A, false), (.H, false), (.H, true), (.L, false)],
      (sTrap p.1 p.2).Ready .eret (gTrap p.1 p.2) ∧
      (∀ i ∈ slicesOf 0x01, (gTrap p.1 p.2).slices[i].handler = true ∧ (gTrap p.1 p.2).slices[i].dvtop = 63 ∧
        ((gTrap p.1 p.2).sliceRec i).trapRec = true ∧ (sTrap p.1 p.2).targetFault (gTrap p.1 p.2) ((gTrap p.1 p.2).sliceRec i).retPc = none) ∧
      (gTrap p.1 p.2).allPending 0x01 = [] ∧ slicesOf 0x01 = [0] ∧
      ((sTrap p.1 p.2).fetchRecs 0 (gTrap p.1 p.2) 0x01 0x10000).toOption.isSome = true ∧
      (gTrap p.1 p.2).trapOf 0 = some (faultOf p.1) ∧ (gTrap p.1 p.2).slices[0].skip = p.2) := by
  intro p hp
  simp only [List.mem_cons, List.not_mem_nil, or_false] at hp
  rcases hp with rfl | rfl | rfl | rfl | rfl <;>
    exact ⟨ready_of rfl (by decide), by decide, by decide, by decide, by decide +kernel, by decide, by decide⟩

/-- A handler over a fault of kind L that asks to skip the logged load it names. -/
def faultL : FaultRec := ⟨.prot, .L, 0x20000, 0x10000, 0, 0, some 3⟩
def gSkipL : Group := { (g0.callInto 0x01 0 (fun _ _ => handlerArgs faultL) (fun _ => (0x10000, 1)) (some faultL) 0x10010).mapSlices 0x01
  (fun _ sl => { sl with skip := true }) with log := [⟨3, 0x10000, 0, some .prot, none, 0x20000⟩] }
def sSkipL : State := { stateOf (coreOf gSkipL) with
  iss := { iss0 with mask := 0x01 }, reqs := [{ Req.blank s0 gSkipL 0 with id := 7, op := 3, kind := .load, stage := .logged, entries := [1] }] }

theorem meets_HandlerReturnCompletes_skipped : sSkipL.group? 0 0 = some gSkipL ∧ sSkipL.checks gSkipL .eret = none ∧
    (∀ i ∈ slicesOf 0x01, gSkipL.slices[i].handler = true ∧ gSkipL.slices[i].dvtop = 63 ∧ (gSkipL.sliceRec i).trapRec = true ∧
      sSkipL.targetFault gSkipL (gSkipL.sliceRec i).retPc = none) ∧
    gSkipL.allPending 0x01 = [] ∧ slicesOf 0x01 = [0] ∧ (sSkipL.fetchRecs 0 gSkipL 0x01 0x10000).toOption.isSome = true ∧
    gSkipL.trapOf 0 = some faultL ∧ faultL.kind = .L ∧ faultL.cause ≠ .poison ∧ faultL.op = some 3 ∧ gSkipL.slices[0].skip = true ∧
    ∃ e ∈ gSkipL.log, e.op = 3 :=
  ⟨rfl, by decide, by decide, by decide, by decide, by decide +kernel, by decide, rfl, by decide, rfl, by decide, _, .head _, rfl⟩

/-! ## Witnesses: system registers, checks and faults -/

def gHandler : Group := { g0 with hdr := { g0.hdr with trapMode := 1 } }.mapSlices 0xFF fun _ sl => { sl with handler := true }

theorem meets_SystemRegistersComplete : (∀ i ∈ [Instr.sread (sfields .b64 94 0 0x000), .sread (sfields .b32 4 0 0x133),
      .leaseWrite (sfields .b32 0 1 0x00A), .dieselWrite (sfields .b32 0 1 0x105), .swrite (sfields .b32 0 1 0x200), .swrite (sfields .b64 0 1 0x210),
      .swrite (sfields .b64 0 1 0x216), .swrite (sfields .b32 0 1 0x218), .swrite (sfields .b32 0 1 0x21B), .swrite (sfields .b64 0 1 0x240),
      .swrite (sfields .b32 0 1 0x242)], s0.Ready i g0) ∧
    (stateOf (coreOf gHandler)).Ready (.swrite (sfields .b32 0 1 0x220)) gHandler ∧
    ∀ i ∈ slicesOf (0xFF : BitVec 8), gHandler.slices[i].handler = true :=
  ⟨ready_all rfl (by decide), ready_of rfl (by decide), by decide⟩

/-- A lane waits for its youngest entry, or has it poisoned. -/
def gPending : Group := g0.mapLanes 0x01 fun _ l => { l with pend := [⟨0, 9⟩] }
def gPoison : Group := g0.mapLanes 0x01 fun _ l => { l with poison := [⟨0, 0x100, 0x10000, none⟩] }
def gUser : Group := { g0 with priv := false }

theorem meets_GateOfAnInstruction : (Instr.dup (fields .b32 1)).form ≠ .event ∧
    s0.checks g0 (.dup (fields .b32 2)) = some .illop ∧ (stateOf (coreOf gUser)).group? 0 0 = some gUser ∧
    (stateOf (coreOf gUser)).checks gUser (.swrite (sfields .b32 0 1 0x200)) = some .prot ∧
    { s0 with feat := 0 }.checks g0 (.fwrite ⟨1, sc4, 74, 0⟩) = some .unitAbsent ∧
    (let i := Instr.dup { fields .b32 1 with src0 := age0 }
     let s := stateOf (coreOf gPending)
     s.group? s.iss.core s.iss.frame = some gPending ∧ s.checks gPending i = none ∧
       gPending.blockedBy s.iss.mask (formAges i.form) (formPushes i.form) ≠ [] ∧ gPending.log = []) ∧
    (let i := Instr.dup { fields .b32 1 with src0 := age0 }
     let s := stateOf (coreOf gPoison)
     s.group? s.iss.core s.iss.frame = some gPoison ∧ s.checks gPoison i = none ∧
       gPoison.blockedBy s.iss.mask (formAges i.form) (formPushes i.form) = [] ∧
       gPoison.poisonRead s.iss.mask (formAges i.form) = some ⟨0, 0x100, 0x10000, none⟩) ∧
    (let i := Instr.brz age0 0x12 8
     let s := stateOf (coreOf gPending)
     s.checks gPending i = none ∧ gPending.divDepth < gPending.hdr.divDepth ∧ s.targetFault gPending (s.iss.pc + BitVec.signExtend 64 (8#20) * 4) = none ∧
       s.targetFault gPending (s.iss.pc + BitVec.signExtend 64 (0x12#22) * 4) = none ∧
       gPending.blockedBy s.iss.mask (formAges i.form) (formPushes i.form) ≠ []) :=
  ⟨by decide, by decide, rfl, by decide, by decide, ⟨rfl, by decide, by decide, rfl⟩, ⟨rfl, by decide, by decide, by decide⟩,
    by decide, by decide, by decide, by decide, by decide⟩

/-- Groups under each trap mode, and a second group of the launch on another core. -/
def gMode (m : Nat) : Group := { g0 with hdr := { g0.hdr with trapMode := m } }
def sTwo : State := { stateOf (coreOf (gMode 2)) with cores := [(0, coreOf (gMode 2)), (5, coreOf (gMode 2))] }

theorem meets_FaultsStopTheGroup : s0.group? 0 0 = some g0 ∧ g0.status = .running ∧ g0.waits = [] ∧ (gMode 2).waits = [] ∧ s0.attached 0 g0 = false ∧
    (faultOf .P).cause ≠ .page ∧ (faultOf .P).cause ≠ .prot ∧ (faultOf .P).cause ≠ .ecc ∧ g0.hdr.trapMode = 0 ∧
    (∀ i ∈ slicesOf 0xFF, g0.slices[i].handler = false) ∧
    ((stateOf (coreOf gHandler)).attached 0 gHandler = false ∧ gHandler.hdr.trapMode = 1 ∧ ∃ i ∈ slicesOf 0xFF, gHandler.slices[i].handler = true) ∧
    (sTwo.group? 0 0 = some (gMode 2) ∧ sTwo.attached 0 (gMode 2) = false ∧ (gMode 2).hdr.trapMode = 2 ∧ sTwo.group? 5 0 = some (gMode 2) ∧
      ((5, 0) : Nat × Nat) ≠ (0, 0) ∧ (Sparse.get? sTwo.cores 5).isSome = true) :=
  ⟨rfl, rfl, rfl, rfl, by decide, by decide, by decide, by decide, rfl, by decide, ⟨by decide, rfl, 7, by decide⟩, rfl, by decide, rfl, rfl, by decide, by decide⟩

/-- A frame under migration, and an access that PROT stops there. -/
def sMig : State := s0.setDie 0 { Die.reset with ind := Die.reset.ind.set 0 ⟨0, 9, 0, .copying⟩ }
theorem meets_FaultsStopTheGroup_migrating : sMig.migrating 0 g0.ctx 5 = true ∧ sMig.group? 0 0 = some g0 ∧ sMig.attached 0 g0 = false :=
  ⟨by decide, rfl, by decide⟩

theorem meets_HandlerEntered : (stateOf (coreOf (gMode 1))).group? 0 0 = some (gMode 1) ∧ (stateOf (coreOf (gMode 1))).attached 0 (gMode 1) = false ∧
    (gMode 1).hdr.trapMode = 1 ∧ (∀ i ∈ slicesOf 0xFF, (gMode 1).slices[i].handler = false ∧ (gMode 1).slices[i].depth < (gMode 1).hdr.callDepth) ∧
    (stateOf (coreOf (gMode 1))).pendingData (gMode 1) 0xFF = false ∧ (gMode 1).hdr.handler < (stateOf (coreOf (gMode 1))).ftLen 0 ∧
    (stateOf (coreOf (gMode 1))).ftEntry 0 0 true 0 = .ok ⟨0x10010, 7, true⟩ ∧
    (stateOf (coreOf (gMode 1))).startBit 0 0 true 0x10010 = .ok true ∧
    (stateOf (coreOf (gMode 1))).spill 0 (gMode 1) = .ok (stateOf (coreOf (gMode 1)), gMode 1) :=
  ⟨rfl, by decide, rfl, by decide, by decide, by decide, by decide, by decide, rfl⟩

/-! ## Witnesses: memory instructions -/

/-- A class M instruction at the address in scalar 4. -/
def mf (size : Size) (space : Space) (order : Order) (scope : Scope) (data : Operand) : MFields :=
  ⟨size, space, order, scope, sc4, data, false, false, .normal, 0⟩

/-- Scalar 4 at the last word of the constant bank. -/
def gLow : Group := { g0 with scalars := scalarsOf [(4, 0xFFFC)] }

/-- Every size of LD, the four spaces among them; the second list is of instructions that address global memory. -/
theorem meets_LoadsComplete : (∀ f ∈ [mf .b32 .global .plain .group age0, mf .b128 .global .acquire .package age0, mf .b8 .scratch .plain .group age0,
      mf .b64 .cluster .plain .group age0], s0.mFault g0 f false none (s0.laneAddrs g0 f) = none ∧
      g0.flagFull (s0.mFlag f) = false ∧ s0.logPlaces 0 0 + (if s0.loadUnknown g0 f (s0.laneAddrs g0 f) then 1 else 0) ≤ 4) ∧
    (∀ i ∈ [Instr.ld (mf .b32 .global .plain .group age0), .ld (mf .b128 .global .acquire .package age0), .ld (mf .b8 .scratch .plain .group age0),
      .ld (mf .b64 .cluster .plain .group age0), .ld (mf .b32 .bank .plain .group age0), .pref (mf .b8 .global .plain .group age0),
      .renew (mf .b8 .global .plain .group age0), .waitv (mf .b32 .global .plain .group age0)], s0.MemReady i g0) ∧
    (let f := mf .b8 .global .plain .group age0
     s0.addrFault g0 .global 1 false ((s0.laneAddrs g0 f).map (·.2)) = none ∧
     s0.xlateFault g0 .load ((s0.laneAddrs g0 f).map fun p => (some (lastReg s0.iss.frame p.1.val), p.2)) = none) ∧
    (let f := mf .b32 .global .plain .group age0
     s0.mFault g0 f false (some .load) (s0.laneAddrs g0 f) = none ∧ s0.loggedOverlap g0 .global 4 ((s0.laneAddrs g0 f).map (·.2)) = [] ∧
     s0.logPlaces 0 0 + 2 ≤ 4) ∧
    (let f := mf .b32 .bank .plain .group age0
     (stateOf (coreOf gLow)).MemReady (.ld f) gLow ∧ (stateOf (coreOf gLow)).mFault gLow f false none ((stateOf (coreOf gLow)).laneAddrs gLow f) = none) :=
  ⟨by decide, memReady_all rfl (by decide), by decide, by decide, memReady_of rfl (by decide), by decide⟩

theorem meets_StoresAndAtomicsComplete : (∀ f ∈ [mf .b32 .global .plain .group age0, mf .b128 .global .release .fabric age0, mf .b8 .scratch .plain .group age0,
      mf .b64 .cluster .plain .group age0], g0.flagFull (s0.mFlag f) = false ∧ s0.mFault g0 f true (some .store) (s0.laneAddrs g0 f) = none ∧
      s0.loggedOverlap g0 f.space f.size.bytes ((s0.laneAddrs g0 f).map (·.2)) = [] ∧ s0.fillFault g0 f (s0.laneAddrs g0 f) = none) ∧
    s0.windowClear g0 true .fabric ∧
    ∀ i ∈ [Instr.st (mf .b32 .global .plain .group age0), .st (mf .b128 .global .release .fabric age0), .st (mf .b8 .scratch .plain .group age0),
      .st (mf .b64 .cluster .plain .group age0), .aadd (mf .b32 .global .plain .group age0), .amin (mf .b32 .global .plain .group age0),
      .amax (mf .b64 .cluster .plain .group age0), .aand (mf .b32 .global .plain .group age0), .aor (mf .b32 .global .plain .group age0),
      .axor (mf .b32 .global .plain .group age0), .axchg (mf .b64 .cluster .plain .group age0), .acas (mf .b64 .cluster .plain .group age0),
      .afadd (mf .b32 .global .plain .group age0), .ainc (mf .b32 .global .plain .group age0)], s0.MemReady i g0 :=
  ⟨by decide, fun _ _ => by decide, memReady_all rfl (by decide)⟩

/-- An address that no translation covers is the last clause's case. -/
def gFar : Group := { g0 with scalars := scalarsOf [(4, 0), (5, 0x100)] }

theorem meets_ScalarMemoryCompletes : (∀ i ∈ [Instr.sld (sfields .b64 94 1 8), .sst (sfields .b32 0 2 8), .satom (sfields .i32 4 2 8)], s0.MemReady i g0) ∧
    s0.sFault g0 false 8 0x20008 = none ∧ s0.sFault g0 true 4 0x20008 = none ∧ s0.loggedOverlap g0 .global 4 [0x20008] = [] ∧
    s0.logPlaces 0 0 + (if s0.devAt g0 0x20008 then 1 else 0) ≤ 4 ∧
    g0.flagFull (flagOf s0.iss.flagA) = false ∧ BitVec.ofNat 64 (s0.sSrc 0x50 (sfields .b64 94 1 8) g0).1 + 8 = 0x20008 ∧
    (let s := stateOf (coreOf gFar)
     let f := mf .b32 .global .plain .group age0
     (∀ i ∈ [Instr.st f, .waitv f, .renew (mf .b8 .global .plain .group age0), .aadd f, .acas f, .sld (sfields .b64 94 1 8), .sst (sfields .b32 0 2 8), .satom (sfields .i32 4 2 8)],
       s.MemReady i gFar) ∧
     s.mFault gFar f true (some .store) (s.laneAddrs gFar f) = some (.page, 0x10000000000) ∧
     s.mFault gFar f false (some .load) (s.laneAddrs gFar f) = some (.page, 0x10000000000) ∧
     s.addrFault gFar .global 1 false ((s.laneAddrs gFar f).map (·.2)) = none ∧
     s.xlateFault gFar .load ((s.laneAddrs gFar f).map fun p => (some (lastReg s.iss.frame p.1.val), p.2)) = some (.page, 0x10000000000) ∧
     s.sFault gFar false 8 0x10000000008 = some (.page, 0x10000000008) ∧ s.sFault gFar true 4 0x10000000008 = some (.page, 0x10000000008) ∧
     BitVec.ofNat 64 (s.sSrc 0x50 (sfields .b64 94 1 8) gFar).1 + 8 = 0x10000000008 ∧ s.ShadowFree) :=
  ⟨memReady_all rfl (by decide), by decide, by decide, by decide, by decide, by decide, by decide,
    memReady_all rfl (by decide), by decide, by decide, by decide, by decide, by decide, by decide, by decide, fun g h => by cases h; rfl⟩

/-- A load fails a check at issue where its address is not aligned. -/
def gOdd : Group := { g0 with scalars := scalarsOf [(4, 0x20001)] }
theorem meets_ScalarMemoryCompletes_load : (let s := stateOf (coreOf gOdd)
    let f := mf .b32 .global .plain .group age0
    s.MemReady (.ld f) gOdd ∧ s.mFault gOdd f false none (s.laneAddrs gOdd f) = some (.align, 0x20001)) :=
  ⟨memReady_of rfl (by decide), by decide⟩

/-! ## Witnesses: accesses in flight -/

/-- One request of lane 0 on its way, to the last word of a line. -/
def rq (kind : ReqKind) (stage : Stage) : Req :=
  { Req.blank s0 g0 0 with id := 7, op := 3, kind := kind, stage := stage, va := 0x2007C, pa := 0x2007C, size := 4, data := [1, 2, 3, 4],
                           entries := [1], wts := 9, rts := 70 }
def sReq (r : Req) : State := { s0 with reqs := [r], nextReq := 8, nextOp := 4 }

theorem meets_HomeEventsComplete : Memory.wf s0.mem = true ∧
    (let r := rq .load .walk
     (sReq r).req? 7 = some r ∧ r.sdgen = ((sReq r).core r.core).sdgen ∧ r.global = true ∧
       (sReq r).translate r.core r.lane? r.ctx true .load r.va = .ok page0) ∧
    (∀ r ∈ [rq .store .ready, rq (.atomic .add false) .ready], (sReq r).req? 7 = some r ∧ (sReq r).heldBack r = false ∧ (sReq r).fenced r = false ∧
       r.dev = false ∧ r.releases = false ∧ r.src = none ∧ r.dirty = none ∧ isHbm r.pa = true ∧ (sReq r).hostLine r.pa = false ∧
       (∀ j < 4, (sReq r).migrated (r.pa + j) = none ∧ (sReq r).place (r.pa + j) = r.pa + j) ∧
       AtomOp.value .add false (8 * r.size) (leNat ((sReq r).phys r.pa r.size)) (leNat r.data) (leNat r.cmp) = some 0x04030201) ∧
    (let r := { rq .store .ready with dirty := some 0x30000 }
     (sReq r).req? 7 = some r ∧ (sReq r).heldBack r = false ∧ (sReq r).fenced r = false ∧ r.dev = false ∧ r.releases = false ∧ r.src = none ∧
       isHbm r.pa = true ∧ (sReq r).hostLine r.pa = false ∧
       (∀ j < 4, (sReq r).migrated (r.pa + j) = none ∧ (sReq r).place (r.pa + j) = r.pa + j) ∧
       r.pa % 2 ^ 40 / 2 ^ 16 = 2 ∧ (sReq r).migrated 0x30000 = none ∧ (sReq r).place 0x30000 = 0x30000) ∧
    (let r := { rq .load .ready with order := .acquire }
     (sReq r).req? 7 = some r ∧ r.global = true ∧ (sReq r).readsBare r = false ∧ (sReq r).heldBack r = false) ∧
    (let r := { rq .load .ready with order := .relaxed }
     (sReq r).req? 7 = some r ∧ r.global = true ∧ (sReq r).readsBare r = true ∧ r.dev = false ∧ (sReq r).hostLine r.pa = false ∧
       (sReq r).heldBack r = false) := by
  refine ⟨by decide, ⟨by decide, by decide, by decide, by decide⟩, by decide, by decide, by decide, by decide⟩

/-- R381: a store to a page of number 2 sets bit 2 of the bitmap's first byte. -/
theorem test_tracked_store_sets_its_bit : (match exec (.homeStore 7 []) (sReq { rq .store .ready with dirty := some 0x30000 }) with
    | .next t => (t.byte 0x30000, t.byte 0x2007F)
    | _ => (0, 0)) = (4, 4) := by decide +kernel

theorem meets_ArrivalEventsComplete :
    (let r := { rq .load .reply with order := .acquire }
     (sReq r).req? 7 = some r ∧ (sReq r).group? r.core r.frame = some g0 ∧ r.dev = false ∧ (sReq r).answerBehind r = false ∧ r.plainRead = false) ∧
    (let r := rq .load .data
     g0.recHeld = [] ∧ r.kind = .load ∧ r.dst = none ∧ r.lane < 32 ∧ r.poison = false ∧
       ((sReq r).reqs.filter fun q => q.sameLane r && q.kind == r.kind) = [r]) ∧
    (let r := { rq .load .data with dst := some (95, 1) }
     r.dst = some (95, 1) ∧ 95 + 1 ≤ 96 ∧ r.poison = false) ∧
    (rq .long .data).kind = .long ∧
    (let r := rq .store .ack
     r.dev = false ∧ (sReq r).answerBehind r = false ∧ r.frame < 64) ∧
    (let r := rq .waitv .asleep
     let c := { coreOf g0 with clock := 71, l1 := [(lineOf r.pa, ⟨9, 70, [], none, 0, false⟩)] }
     let s := { stateOf c with reqs := [r] }
     s.req? 7 = some r ∧ r.dev = false ∧ Sparse.get? (s.core r.core).l1 (lineOf r.pa) = some ⟨9, 70, [], none, 0, false⟩ ∧ 70 < (s.core r.core).clock) :=
  ⟨⟨by decide, rfl, by decide, by decide, by decide⟩, by decide, by decide, rfl, by decide, by decide⟩

/-- A mapped range of two blocks at pool byte 0. -/
def range0 : MapRange := ⟨0, 0, 0, 256, 0x20000, 0, false, 0, 0, [], [1], true, []⟩
def sMap : State := stateOf { coreOf g0 with maps := [range0] }

theorem meets_ScratchEventsComplete : (∀ r ∈ [{ rq .store .scratch with space := .scratch, pa := 0x1FFFFC }, { rq .load .scratch with space := .cluster },
      { rq (.atomic .xor false) .scratch with space := .scratch }], (sReq r).req? 7 = some r ∧ r.stage = .scratch ∧ r.global = false ∧
      (sReq r).scratchBehind r = false ∧ (sReq r).awaitsFill r = false ∧ (sReq r).fenced r = false ∧ r.releases = false ∧
      Memory.wf ((sReq r).core r.peer).scratch = true ∧
      AtomOp.value .xor false (8 * r.size) (leNat (Memory.read ((sReq r).core r.peer).scratch r.pa r.size)) (leNat r.data) (leNat r.cmp) = some 0x04030201) ∧
    ((sMap.core 0).maps[0]? = some range0 ∧ range0.toFill.contains 1 = true ∧ Memory.wf (sMap.core 0).scratch = true ∧
      ((sMap.readBlock 0 range0 1).toOption.map fun p => p.2.2.2) = some false) := by
  refine ⟨by decide, rfl, by decide, by decide, by decide⟩

/-! ## Witnesses: engines and the fabric -/

/-- Operand blocks: COPY at 8, COPYND at 16, GATHER at 32, FCOPY at 40, MAP at 48, a range's offset at 60 and 62, SETTLE at 64, a handle
at 72, remote addresses at 74, a nest's bases at 80 to 82. -/
def blocks : List (Nat × Word) :=
  [(8, 0x20000), (12, 16), (13, 1), (16, 0x20000), (18, 0x400), (20, 4), (21, 1), (22, 16), (32, 0x800), (33, 1), (34, 0x20000), (36, 4), (37, 0xC00),
   (40, 0x20000), (43, 0x200), (44, 4), (48, 0), (49, 256), (50, 0x20000), (66, 0x10000), (68, 0x30000), (75, 0x200), (76, 4),
   (80, 0x1000), (81, 0x1100), (82, 0x1200)]
def gB : Group := { g0 with scalars := scalarsOf blocks }
/-- A page of device 5's memory at 2 TiB. -/
def pageDev : TlbEntry := ⟨0, 2, 1, 0x50000000000040F, 0⟩
def coreB : Core := { coreOf gB with tlb := [page0, pageDev] }
def sB : State := stateOf coreB

/-- A core whose mapped range has a dirty word, and one whose range has none; handle slot 48 is the first for write-backs. -/
def sRange (dirty : Bool) : State := stateOf { coreB with
  maps := [{ range0 with mode := 1, toFill := [], applied := 2, appliedWts := 5 }], wstat := if dirty then [(63, 3)] else [] }

/-- An operation of copy slot 0, in some state. -/
def slotOf (st : HState) : HandleSlot := { HandleSlot.free 0 with state := st, block := gB.block 8 8, var := 4, mask := 0xFF }
def sOp (st : HState) : State := stateOf { coreB with handles := [(0, slotOf st)] }

theorem meets_EngineAndHandleInstructionsComplete :
    (∀ i ∈ [Instr.copy ⟨30, 8, 4, 0⟩, .copynd ⟨127, 16, 4, 0⟩, .gather ⟨30, 32, 0, 0⟩, .scatter ⟨30, 32, 0, 0⟩], sB.MemReady i gB) ∧
    (copyFault 4 0 (gB.block 8 8) = none ∧ sB.regionAwaits gB (copyRegions 4 0 (gB.block 8 8)) = false ∧ sB.regionFault gB (copyRegions 4 0 (gB.block 8 8)) = none ∧ sB.copyDev gB 4 0 (gB.block 8 8) = none ∧
      sB.locksFree gB (copyRegions 4 0 (gB.block 8 8)) = true ∧ coreB.freeHandle 0 = some 0) ∧
    (ndFault 4 0 (gB.block 16 16) = none ∧ sB.regionAwaits gB (ndRegions 4 0 (gB.block 16 16)) = false ∧ sB.regionFault gB (ndRegions 4 0 (gB.block 16 16)) = none ∧ sB.ndDev gB 4 0 (gB.block 16 16) = none ∧
      sB.locksFree gB (ndRegions 4 0 (gB.block 16 16)) = true) ∧
    (gatherFault (gB.block 32 8) = none ∧ sB.regionAwaits gB (gatherRegions true 1 (gB.block 32 8)) = false ∧ sB.regionFault gB (gatherRegions true 1 (gB.block 32 8)) = none ∧
      sB.locksFree gB (gatherRegions true 1 (gB.block 32 8)) = true ∧ coreB.freeHandle (engineOf 0x02) = some 32 ∧
      sB.regionAwaits gB (gatherRegions false 1 (gB.block 32 8)) = false ∧ sB.regionFault gB (gatherRegions false 1 (gB.block 32 8)) = none ∧ (coreB.freeHandle (engineOf 0x03)).isSome = true) ∧
    (∀ d ∈ [true, false], (∀ i ∈ [Instr.unmap ⟨127, 60, 0, 0⟩, .wback ⟨30, 60, 0, 0⟩], ready (sRange d) gB i = true ∧ memReady (sRange d) gB i = true) ∧
      ((sRange d).teamMap gB 0).isSome = true ∧ ((sRange d).core 0).freeHandle 3 = some 64 ∧ (sRange d).splitWrites = false ∧
      (((sRange d).core 0).snapshot range0 0 == [63]) = d) ∧
    (handleIndex 0 = some 0 ∧ (sB.core 0).opOf 0 0 0 = none ∧ sB.MemReady (.waith ⟨127, 72, 0, 0⟩) gB ∧ sB.MemReady (.testh ⟨127, 72, 0, 0⟩) gB ∧
      sB.MemReady (.cancelh ⟨127, 72, 0, 0⟩) gB ∧ sB.MemReady (.waitall ⟨127, 0, 0, 0⟩) gB ∧
      ∀ p ∈ (sB.core 0).handles, p.2.owner = 0 → p.2.state = .free) ∧
    (∀ st ∈ [HState.running, .paused, .error], ((sOp st).core 0).opOf 0 0 0 = some (slotOf st) ∧
      memReady (sOp st) gB (.testh ⟨127, 72, 0, 0⟩) = true ∧ memReady (sOp st) gB (.cancelh ⟨127, 72, 0, 0⟩) = true ∧
      memReady (sOp st) gB (.waith ⟨127, 72, 0, 0⟩) = true ∧ (sOp st).iss.nextIdx ≠ 0 ∧ (slotOf st).elem = []) := by
  refine ⟨memReady_all rfl (by decide), by decide, by decide, by decide, by decide,
    ⟨by decide, by decide, memReady_of rfl (by decide), memReady_of rfl (by decide), memReady_of rfl (by decide), memReady_of rfl (by decide), by decide⟩, by decide⟩

/-- A SCATTER with the last word of its last index in hand, and a WAITH tried again, which holds what it read. -/
def slotLast : HandleSlot := { slotOf .running with op := 0x03, var := 0, block := gB.block 32 8, elem := [⟨page0, 0x20000, 5⟩] }
def sLast : State := stateOf { coreB with handles := [(0, slotLast)] }
def sKept (st : HState) : State := { sOp st with iss := { iss0 with kept := [0] } }

theorem meets_EngineAndHandleInstructionsComplete_cancel : ((sLast.core 0).opOf 0 0 0 = some slotLast ∧ sLast.MemReady (.cancelh ⟨127, 72, 0, 0⟩) gB ∧
      ((sLast.finishElem 0 0).core 0).opOf 0 0 0 = none) ∧
    ((((sOp .paused).finishElem 0 0).core 0).opOf 0 0 0 = some (slotOf .paused) ∧ (slotOf .paused).op ≠ 0x06) :=
  ⟨⟨by decide, memReady_of rfl (by decide), by decide +kernel⟩, by decide, by decide⟩

theorem meets_EngineAndHandleInstructionsComplete_kept (st : HState) : (sKept st).iss.kept = [0] ∧ (sKept st).group? 0 0 = some gB ∧
    ((sKept .error).MemReady (.waith ⟨127, 72, 0, 0⟩) gB ∧ (sKept .error).opWaits gB (slotOf .error) = false) :=
  ⟨rfl, rfl, memReady_of rfl (by decide), by decide⟩

/-- The group there is the one named. -/
theorem meets_EngineAndHandleInstructionsComplete_group (d : Bool) (st : HState) :
    (sRange d).group? 0 0 = some gB ∧ (sOp st).group? 0 0 = some gB := by cases d <;> exact ⟨rfl, rfl⟩

/-- An operation from a page that is not mapped pauses; to a protected page it ends in error. -/
def sFar (pte : DWord) : State := stateOf { coreB with tlb := if pte = 0 then [] else [{ page0 with pte := pte }], handles := [(0, slotOf .running)] }
def fcopy0 (st : HState) : HandleSlot := { slotOf st with op := 0x21, block := gB.block 40 6, done := 1, words := [9] }

theorem meets_EngineEventsComplete :
    ((sOp .running).engineBehind 0 ((sOp .running).core 0 |>.handle 0) = false ∧ (slotOf .running).op ≠ 0x21 ∧ (slotOf .running).done + 1 = (slotOf .running).total ∧
      (sOp .running).elemRest 0 (slotOf .running) = [] ∧
      ((sOp .running).unitStep 0 (slotOf .running) 0).toOption.isSome = true ∧ ((sOp .running).core 0).handle 0 = slotOf .running) ∧
    ((sFar 0).engineBehind 0 (slotOf .running) = false ∧ ((sFar 0).core 0).handle 0 = slotOf .running ∧ 0 < (slotOf .running).total ∧
      (match (sFar 0).unitStep 0 (slotOf .running) 0 with | .error (.pause .page 0x20000) => true | _ => false) = true) ∧
    (((sFar 0x03).core 0).handle 0 = slotOf .running ∧ ((sFar 0x03).owner? 0 (slotOf .running)).isSome = true ∧
      (match (sFar 0x03).unitStep 0 (slotOf .running) 0 with | .error (.error .prot 0x20000) => true | _ => false) = true) ∧
    ((fcopy0 .running).total ≤ (fcopy0 .running).done ∧ ∀ q ∈ sB.reqs, q.lane = 35 → q.op ≠ (fcopy0 .running).words.headD 0) ∧
    ((slotOf .paused).state = .paused ∧ (slotOf .paused).op ≠ 0x06 ∧ ((sOp .paused).core 0).handle 0 = slotOf .paused) := by
  refine ⟨⟨by decide, by decide, by decide, by decide, by decide, by decide⟩, ⟨by decide, by decide, by decide, by decide⟩,
    ⟨by decide, by decide, by decide⟩, by decide, by decide⟩

/-- An FATOM of the group that its home refused, so that it stands in the log. -/
def refused0 : LogEntry := ⟨3, 0x10000, 0, some Cause.prot, some 0, 0x20000000000⟩
def gRefused : Group := { gB with log := [refused0], seq := 1 }
def sRefused : State := { stateOf (coreOf gRefused) with reqs := [{ Req.blank s0 gB 0 with id := 7, op := 3, kind := .atomic .add false, stage := .logged, dev := true }] }

theorem meets_FabricInstructionsComplete : (∀ i ∈ [Instr.fwrite ⟨1, sc4, 74, 0⟩, .fwrite ⟨4, age0, 74, 0⟩, .fatom ⟨6, age0, 74, 0⟩,
      .fcopy ⟨1, age0, 40, 95⟩], sB.MemReady i gB) ∧
    sB.fabricFault gB 4 (sB.fabricAddrs gB ⟨4, age0, 74, 0⟩) = none ∧
    sB.loggedOverlap gB .global 4 ((sB.fabricAddrs gB ⟨4, age0, 74, 0⟩).map (·.2)) = [] ∧ sB.logPlaces 0 0 + 1 ≤ 4 ∧
    (sB.winState 0 0 gB.seq gB = .done ∧ sB.windowClear gB true .fabric) ∧ sB.fcopyFault gB (gB.block 40 6) = none ∧ coreB.freeHandle 0 = some 0 ∧
    sB.locksFree gB (fcopyRegions (gB.block 40 6)) = true ∧ sB.Ready (.winfence ⟨0, age0, 0, 0⟩) gB ∧
    (let g := { gB with fabWin := some 0 }
     (stateOf (coreOf g)).Ready (.winfence ⟨0, age0, 0, 0⟩) g ∧ (stateOf (coreOf g)).winState 0 0 g.seq g = .timeSync) ∧
    (sRefused.Ready (.winfence ⟨0, age0, 0, 0⟩) gRefused ∧ sRefused.winState 0 0 gRefused.seq gRefused = .refused refused0) :=
  ⟨memReady_all rfl (by decide), by decide, by decide, by decide, ⟨by decide, fun _ _ => by decide⟩, by decide, by decide, by decide, ready_of rfl (by decide),
    ⟨ready_of rfl (by decide), by decide⟩, ready_of rfl (by decide), by decide⟩

/-- An aperture for device 5 over one line, and a write of it accepted. -/
def sAper : State := { s0 with apertures := s0.apertures.set 0 ⟨0x20000, 65536, 0, 5, 3⟩ }
def write0 : RemoteOp := ⟨4, ⟨5, 0x2007C, .write [1, 2, 3, 4], 31, 2⟩, none⟩
def sRemote : State := { sAper with remotes := [write0] }
/-- A remote write sent eight windows ago. -/
def rqFar : Req := { rq .store .reply with dev := true, sent := 0 }
def gWinf : Group := { g0 with waits := [⟨iss0, .winfence ⟨0, age0, 0, 0⟩, 0, [], false, false⟩] }

theorem meets_FabricEventsComplete : s0.hasFabric = true ∧ s0.aperture ⟨5, 0x20000, .read 4, 0, 0⟩ = none ∧
    (sAper.aperture ⟨5, 0x2FFFC, .read 4, 0, 0⟩).isSome = true ∧ sAper.poisoned 0x2FFFC 4 = false ∧ (sAper.aperture ⟨5, 0x20000, .atomic 6 1, 31, 0⟩).isSome = true ∧
    (sRemote.remotes.find? (fun q => q.id == write0.id) = some write0 ∧ (∀ q ∈ sRemote.remotes, q.req.dev = write0.req.dev → write0.id ≤ q.id) ∧
      ((sRemote.aperture write0.req).map fun a => a.perm.getLsbD 2) = some false ∧ isHbm write0.req.addr = true ∧ sRemote.hostLine write0.req.addr = false ∧
      (∀ j < 4, sRemote.migrated (write0.req.addr + j) = none ∧ sRemote.place (write0.req.addr + j) = write0.req.addr + j) ∧ Memory.wf sRemote.mem = true) ∧
    (let s := { sReq rqFar with ptime := 8000 }
     s.req? 7 = some rqFar ∧ rqFar.lane < 34 ∧ rqFar.sent + 8 * s.winLen.toNat ≤ s.ptime) ∧
    ((sReq (rq .load .ready)).req? 7 = some (rq .load .ready) ∧ (rq .load .ready).global = true ∧ 31 < 32) ∧
    (50 < (51 : BitVec 16).toNat ∧ (20 : BitVec 16).toNat ≤ 20 ∧ (let s := { s0 with errLow := 1, cycle := 2000000 }
      s.errLow ≠ 0 ∧ 2000000 ≤ s.cycle + 1 - s.errLow)) ∧
    (s0.hasRemoteCopy = false ∧ s0.remotes = [] ∧ ∀ q ∈ s0.reqs, q.dev = false) ∧
    (let s := stateOf (coreOf gWinf)
     s.group? 0 0 = some gWinf ∧ gWinf.waitOf 7 = gWinf.waits.head? ∧ s.winState 0 0 0 gWinf = .done) := by
  refine ⟨by decide, by decide, by decide, by decide, by decide, ⟨by decide, by decide, by decide, by decide, by decide, by decide, by decide⟩,
    by decide, by decide, by decide, by decide, ⟨rfl, by decide, by decide⟩⟩

/-! ## Witnesses: mapped ranges and the nest unit -/

/-- A subscription at die 0 of the range on core 0, with a write forwarded to it, and an update sent to the range. -/
def write1 : SubWrite := ⟨0, [1, 2, 3, 4], 9, 7⟩
def sub0 : Machine.Sub := ⟨some 0, 0, 0, 0, 0, [(0, 0x20000, 256)], [], 2, true, true, [write1], 0⟩
def rangeSub : MapRange := { range0 with mode := 1, toFill := [], applied := 2, updates := [(3, 0x20004, [5, 6, 7, 8], 9)] }
def sSubOf (u : Machine.Sub) : State := ({ stateOf { coreB with maps := [rangeSub] } with dies := [] }).setDie 0 { Die.reset with subs := [(4, u)] }
def sSub : State := sSubOf sub0
/-- The same before its fill is done. -/
def subFill : Machine.Sub := { sub0 with seqNo := 0, counting := false, live := false }
def gSettle : Group := { gB with waits := [⟨iss0, .settle ⟨127, 64, 0, 0⟩, 0, [], false, false⟩] }

theorem meets_MappedRangesComplete : sB.MemReady (.mapRange ⟨127, 48, 0, 0⟩) gB ∧ sB.mapFault gB 0 (gB.block 48 6) = none ∧ sB.splitWrites = false ∧
    (sSub.MemReady (.subwait ⟨127, 62, 0, 0⟩) gB ∧ sSub.teamMap gB 0 = some rangeSub ∧ rangeSub.mode = 1 ∧ (sSub.subOf 0 rangeSub).any (fun u => u.2.2.live) = true ∧
      (BitVec.ofNat 32 rangeSub.applied - gB.scalar 63).toNat < 2 ^ 31) ∧
    (sB.MemReady (.settle ⟨127, 64, 0, 0⟩) gB ∧ sB.settleFault gB (gB.block 64 8) = none) ∧
    ((sSub.core 0).maps[0]? = some rangeSub ∧ rangeSub.toFill = [] ∧ (sSubOf subFill).subOf 0 rangeSub = some (0, 4, subFill) ∧
      (sSubOf { subFill with counting := true }).subOf 0 rangeSub = some (0, 4, { subFill with counting := true }) ∧
      rangeSub.updates.find? (fun u => u.1 == rangeSub.applied + 1) = some (3, 0x20004, [5, 6, 7, 8], 9) ∧ Memory.wf (sSub.core 0).scratch = true) ∧
    (Sparse.get? (sSub.die 0).subs 4 = some sub0 ∧ sub0.writes[0]? = some write1 ∧ sub0.core = some 0 ∧ sub0.counting = true ∧ sub0.live = true ∧
      rangeSub ∈ (sSub.core 0).maps ∧ rangeSub.launch = sub0.launch ∧ rangeSub.off = sub0.off ∧
      ((sub0.writes.take 0).any fun v => v.slice == write1.slice) = false) ∧
    ((stateOf (coreOf gSettle)).group? 0 0 = some gSettle ∧ gSettle.waitOf 7 = gSettle.waits.head? ∧
      ((stateOf (coreOf gSettle)).core 0).stepping = []) := by
  refine ⟨memReady_of rfl (by decide), by decide, by decide, ⟨memReady_of rfl (by decide), by decide, rfl, by decide, by decide⟩,
    ⟨memReady_of rfl (by decide), by decide⟩, by decide, by decide, ⟨rfl, by decide, rfl⟩⟩

/-- A SUBWAIT tried again, which holds what it read. -/
theorem meets_MappedRangesComplete_kept : (let s := { sSub with iss := { iss0 with kept := [0, 2] } }
    s.iss.kept = [0, 2] ∧ s.MemReady (.subwait ⟨127, 62, 0, 0⟩) gB ∧ s.teamMap gB 0 = some rangeSub) :=
  ⟨rfl, memReady_of rfl (by decide), by decide⟩

/-- A sum of four elements of two vectors, and its last tuple in the unit. -/
def nest0 : NestFields := ⟨.add, true, 1, 80, 81, 82, false, .rne, false, 0, [3, 0, 0, 0, 0], [1, 0, 0, 0, 0, 1, 0, 0, 0, 0, 1, 0, 0, 0, 0]⟩
def nestWork (t : Nat) : NestWork := ⟨.nest nest0, 0, some 0, [0x1000, 0x1100, 0x1200], t, none, 0, 0, 5, 0, [], [], none⟩
def sNest : State := stateOf { coreB with nestQ := [nestWork 3] }

/-- The first tuple: its sources lie in no destination of a later one. -/
theorem meets_NestCompletes_first : ∀ o ∈ [1, 2], ∀ u, (nestWork 0).tuple < u → u < nestTuples nest0 →
    let d := (nestWork 0).outPlace nest0 0 u
    ¬ (d < (nestWork 0).place nest0 0 o + 4 ∧ (nestWork 0).place nest0 0 o < d + nestDstBytes nest0) := by
  intro o ho u h1 h2
  have h3 : u < 4 := h2
  interval_cases u <;> revert o <;> decide

theorem meets_NestCompletes : (sB.MemReady (.nest nest0) gB ∧ sB.nestFault gB nest0 = none ∧
      ((sB.nestLocks gB nest0).any fun l => (sB.core 0).engineOver [] l.start l.len) = false ∧ (sB.core 0).nestQ.length < 5 ∧
      g0.flagFull (flagOf sB.iss.flagA) = false ∧ (sB.core 0).locksUsed + (sB.nestLocks gB nest0).length ≤ 64) ∧
    (nestWork 3).why = none ∧ (∀ o ∈ (if nest0.bscalar then [1] else [1, 2]), ∀ u, (nestWork 3).tuple < u → ¬ u < nestTuples nest0) ∧
    (nest0.op.reduces = false ∧ nest0.op.noB = false ∧ nest0.op ≠ .fma ∧ (nestWork 3).wrote = [] ∧ (sNest.core 0).maps = [] ∧
      (sNest.core 0).scratchPoison = [] ∧ Memory.wf (sNest.core 0).scratch = true) ∧
    ((sNest.core 0).nestQ = [nestWork 3] ∧ sNest.group? 0 0 = some gB ∧
      (sNest.reqs.any fun q => q.core == 0 && q.frame == 0 && q.isWrite && q.unperformed && decide (q.seq < 0)) = false ∧
      ∃ t w, sNest.nestTuple 0 gB 0 nest0 { nestWork 3 with before := (sNest.core 0).scratch } = .ok (t, w) ∧ nestTuples nest0 ≤ w.tuple ∧ w.ticket = 5 ∧
        w.flag = some 0 ∧ w.frame = 0 ∧ t.group? 0 0 = some gB) := by
  refine ⟨⟨memReady_of rfl (by decide), by decide, by decide, by decide, by decide, by decide⟩, rfl, fun _ _ _ h => Nat.not_lt.mpr h, by decide, by decide, rfl, by decide, ?_⟩
  exact ⟨_, _, rfl, by decide, by decide, by decide, by decide, rfl⟩

/-! ## Witnesses: the rack and the matrix array -/

/-- Slots 0 to 127 of the core are claimed by frame 0, but for the last eight. -/
def claims0 : Sparse Nat := (List.range 120).map fun n => (n, 0)
def latch0 : BLatch := ⟨0, 128, 110, none⟩
/-- Section 0 is the group's, with a B latched; section 1 is free. -/
def coreX : Core := { coreB with claims := claims0, sections := (Vector.replicate 4 Section.empty).set 0 ⟨some 0, some latch0, some 111, []⟩ }
def sX : State := stateOf coreX
def xf (a d scale : BitVec 7) (sect : BitVec 2) (fa fb : BitVec 4) (flags : BitVec 3) (count : BitVec 8) : XFields :=
  ⟨a, d, scale, sect, fa, fb, flags, 0, count⟩

/-- Where only the highest quarter takes part, the range begins at its bytes. -/
theorem meets_MatrixInstructionsComplete_high : (let s := { sX with iss := { iss0 with mask := 0xC0 } }
    let q := gB.quarters s.iss.mask
    quartersIn q = [3] ∧ s.MemReady (.accrd (xf 0 32 80 0 0 0 0 0)) gB ∧
      s.rackScratchFault gB 0x1000 (3 * accTileBytes 0) (4 * accTileBytes 0) true = none) :=
  ⟨by decide, memReady_of rfl (by decide), by decide⟩

theorem meets_MatrixInstructionsComplete :
    (∀ i ∈ [Instr.take (xf 120 0 0 0 0 0 0 8), .free (xf 100 0 0 0 0 0 0 8), .bload (xf 112 0 127 1 0 0 0 0), .cbload (xf 113 0 0 1 0 0 0 0),
      .bdrop (xf 0 0 0 0 0 0 0 0), .mma (xf 0 32 127 0 0 0 0 8), .mxt (xf 0 32 0 1 0 0 0 0), .mxp (xf 0 32 0 1 0 0 0 0), .mxr (xf 0 32 0 1 0 0 0 0),
      .accz (xf 0 32 0 0 0 0 0 0), .accrd (xf 0 32 80 0 0 0 0 0), .rkld (xf 0 0 80 0 0 0 0 1), .rkst (xf 0 0 80 0 0 0 0 1)], sX.MemReady i gB) ∧
    (∀ n ∈ xSlots (xf 120 0 0 0 0 0 0 8), n < 128 ∧ Sparse.get? coreX.claims (0 + n) = none) ∧
    (let f := xf 100 0 0 0 0 0 0 8
     sX.slotAwaits gB (xSlots f) = false ∧ sX.slotBad gB [] (xSlots f) = none ∧ coreX.conflict 0 0 (sX.physSlots gB (xSlots f)) (sX.physSlots gB (xSlots f)) = false) ∧
    (let f := xf 112 0 127 1 0 0 0 0
     (coreX.sect 1).ownedByOther 0 = false ∧ f.fmtB ≠ 5 ∧ f.flags.getLsbD 2 = decide (f.fmtB = 4) ∧ f.fmtB ≠ 8 ∧
       sX.slotBad gB (latchOf 0 f).slots [] = none ∧ coreX.engineOver (sX.physSlots gB (latchOf 0 f).slots) 0 0 = false ∧ (coreX.sect 1).queue.length < 2) ∧
    (((coreX.sect 1).after coreX).b = none ∧ sX.slotBad gB [113] [] = none ∧ coreX.engineOver (sX.physSlots gB [113]) 0 0 = false) ∧
    (((coreX.sect 0).after coreX).owner = some 0 ∧ (coreX.sect 0).queue.length < 2) ∧
    (let f := xf 0 32 127 0 0 0 0 8
     let q := gB.quarters sX.iss.mask
     gB.quarterSplit sX.iss.mask = false ∧ ((coreX.sect 0).after coreX).b = some latch0 ∧ pairsWith 0 latch0.fmt latch0.kclass = true ∧ f.fmtA ≠ 8 ∧
       sX.slotAwaits gB (workSlots 0x05 f q).2 = false ∧ sX.slotBad gB (workSlots 0x05 f q).1 (workSlots 0x05 f q).2 = none ∧
       coreX.engineOver (sX.physSlots gB ((workSlots 0x05 f q).1 ++ (workSlots 0x05 f q).2)) 0 0 = false) ∧
    (∀ op ∈ [0x06, 0x07, 0x08],
       let f := xf 0 32 0 1 0 0 0 0
       let q := gB.quarters sX.iss.mask
       ((coreX.sect 1).after coreX).ownedByOther 0 = false ∧ sX.slotAwaits gB (workSlots op f q).2 = false ∧
       sX.slotBad gB (workSlots op f q).1 (workSlots op f q).2 = none ∧
       coreX.engineOver (sX.physSlots gB ((workSlots op f q).1 ++ (workSlots op f q).2)) 0 0 = false) ∧
    (let f := xf 0 32 0 0 0 0 0 0
     let q := gB.quarters sX.iss.mask
     sX.slotAwaits gB (accSlots f q) = false ∧ sX.slotBad gB [] (accSlots f q) = none ∧ coreX.engineOver (sX.physSlots gB (accSlots f q)) 0 0 = false ∧
       coreX.conflict 0 0 [] (sX.physSlots gB (accSlots f q)) = false ∧ Memory.wf coreX.rack = true) ∧
    (let f := xf 0 32 80 0 0 0 0 0
     let q := gB.quarters sX.iss.mask
     let n := (quartersIn q).length * accTileBytes 0
     gB.flagFull (flagOf sX.iss.flagA) = false ∧ coreX.locksUsed < 64 ∧ sX.slotBad gB (accSlots f q) [] = none ∧
       sX.rackScratchFault gB 0x1000 0 n true = none ∧ coreX.engineOver (sX.physSlots gB (accSlots f q)) (sX.poolOf gB 0x1000) n = false) ∧
    (let f := xf 0 0 80 0 0 0 0 1
     sX.slotAwaits gB (xSlots f) = false ∧ sX.slotBad gB [] (xSlots f) = none ∧ sX.slotBad gB (xSlots f) [] = none ∧
       sX.rackScratchFault gB 0x1000 0 4096 false = none ∧ sX.rackScratchFault gB 0x1000 0 4096 true = none ∧ sX.rangeFillFault gB 0x1000 4096 = none ∧
       coreX.engineOver (sX.physSlots gB (xSlots f)) (sX.poolOf gB 0x1000) 4096 = false) := by
  refine ⟨memReady_all rfl (by decide), by decide, by decide, by decide, by decide, by decide, by decide, by decide, by decide, by decide, by decide⟩

/-- A TAKE and a CBLOAD that wait, and sections with work at their heads. -/
def waitOf (i : Instr) (vals : List Nat) : Wait := ⟨iss0, i, 0, vals, false, false⟩
def gWait (i : Instr) (vals : List Nat) : Group := { gB with waits := [waitOf i vals] }
def sWait (i : Instr) (vals : List Nat) : State := stateOf { coreX with frames := [(0, gWait i vals)] }
def work (op : Nat) (f : XFields) (tile : Nat) : SecWork := ⟨op, f, 0, 0xF, tile, 0⟩
def coreW (w : SecWork) : Core := { coreX with sections := coreX.sections.set 0 ⟨some 0, some latch0, some 111, [w]⟩ }
/-- An RKST on its way with ticket 5. -/
def rkst0 : NestWork := ⟨.rkst (xf 0 0 80 0 0 0 0 1), 0, none, [0x1000], 0, none, 0, 0, 5, 0, [], [], none⟩
def rkld0 : NestWork := { rkst0 with instr := .rkld (xf 0 0 80 0 0 0 0 1) }
def sRack (w : NestWork) : State := stateOf { coreX with rackQ := [w] }

theorem meets_SectionsAct :
    (let i := Instr.take (xf 120 0 0 0 0 0 0 8)
     let vals := [120, 121, 122, 123, 124, 125, 126, 127]
     (sWait i vals).group? 0 0 = some (gWait i vals) ∧ (gWait i vals).waitOf 7 = some (waitOf i vals) ∧ ((sWait i vals).core 0).stepping = [] ∧
       ∀ n ∈ vals, Sparse.get? ((sWait i vals).core 0).claims n = none) ∧
    (let f := xf 113 0 0 1 0 0 0 0
     let s := sWait (.cbload f) [1]
     let c := s.core 0
     s.group? 0 0 = some (gWait (.cbload f) [1]) ∧ (gWait (.cbload f) [1]).waitOf 0 = some (waitOf (.cbload f) [1]) ∧ f.sect.toNat = 1 ∧
       (c.sect 1).owner = none ∧ (c.sect 1).b = none ∧ (c.sect 1).queue = [] ∧ c.team? 0 = some Team.placed ∧ f.slotA.toNat < Team.placed.rackLen ∧
       Sparse.get? c.claims (Team.placed.rackBase + f.slotA.toNat) = some 0 ∧ c.locks = []) ∧
    (∀ w ∈ [work 0x02 (xf 112 0 127 0 0 0 0 0) 0, work 0x03 (xf 113 0 0 0 0 0 0 0) 0, work 0x05 (xf 0 32 127 0 8 0 0 8) 7, work 0x08 (xf 0 32 0 0 8 0 0 0) 0],
       ((coreW w).sect 0).queue = [w] ∧ ((coreW w).sect 0).b.isSome = true) ∧
    ((coreW (work 0x02 (xf 112 0 127 0 0 0 0 0) 0)).conflict 0 0 (latchOf 0 (xf 112 0 127 0 0 0 0 0)).slots [] = false ∧
      (coreW (work 0x03 (xf 113 0 0 0 0 0 0 0) 0)).conflict 0 0 [113] [] = false) ∧
    (let w := work 0x05 (xf 0 32 127 0 8 0 0 8) 3
     w.tiles[w.tile]? = some 3 ∧ (coreW w).conflict 0 0 (w.tileReads 3) (w.tileWrites 3) = false ∧ Memory.wf (coreW w).rack = true) ∧
    (∀ w ∈ [rkst0, rkld0], (sRack w).req? 5 = none ∧
      ((sRack w).cores.findSome? fun p => (p.2.rackQ.find? fun w => w.ticket == 5).map fun w => (p.1, w)) = some (0, w) ∧
      (∀ q ∈ (sRack w).reqs, q.core = 0 → q.frame = w.frame → w.seq ≤ q.seq) ∧
      ((sRack w).core 0).conflict 0 0 (w.use ((sRack w).core 0)).reads (w.use ((sRack w).core 0)).writes = false ∧ ((sRack w).core 0).maps = [] ∧
      ((sRack w).core 0).scratchPoison = [] ∧ ((sRack w).core 0).rackPoison = []) := by
  refine ⟨⟨rfl, by decide, by decide, by decide⟩, ⟨rfl, by decide, by decide, by decide, by decide, by decide, by decide, by decide, by decide, by decide⟩,
    by decide, by decide, by decide, by decide⟩

/-- A BLOAD that waits for section 1. -/
theorem meets_SectionsAct_bload : (let f := xf 112 0 127 1 0 0 0 0
    let s := sWait (.bload f) [1]
    let c := s.core 0
    s.group? 0 0 = some (gWait (.bload f) [1]) ∧ (gWait (.bload f) [1]).waitOf 0 = some (waitOf (.bload f) [1]) ∧ f.sect.toNat = 1 ∧
      (c.sect 1).owner = none ∧ (c.sect 1).b = none ∧ (c.sect 1).queue = [] ∧ f.fmtB ≠ 5 ∧ f.flags.getLsbD 2 = decide (f.fmtB = 4) ∧ f.fmtB ≠ 8 ∧
      c.team? 0 = some Team.placed ∧ (∀ j ∈ (latchOf 0 f).slots, j < Team.placed.rackLen ∧ Sparse.get? c.claims (Team.placed.rackBase + j) = some 0) ∧
      c.locks = []) :=
  ⟨rfl, by decide, by decide, by decide, by decide, by decide, by decide, by decide, by decide, by decide, by decide, by decide⟩

theorem meets_SectionsAct_group (w : NestWork) : (sRack w).group? 0 0 = some gB := rfl

theorem meets_TileValues : Memory.wf coreX.rack = true ∧ 31 < 32 ∧ 63 < 64 ∧ (xf 0 32 127 0 8 0 0 8).fmtA = 8 ∧
    (xf 0 32 0 0 8 0 0 3).count.toNat < 4 ∧ (xf 0 32 0 0 8 0 0 64).count.toNat / 64 < 2 ∧ ({ latch0 with fmt := 8 } : BLatch).kclass = 128 ∧
    ((xf 0 32 0 0 8 0 0 127).count.toNat / 64 < 2 ∧ ∀ fa ∈ [0, 1, 2, 3, 4, 6, 7], (xf 0 32 0 0 (BitVec.ofNat 4 fa) 0 0 0).fmtA.toNat = fa) ∧
    ((xf 0 32 0 0 4 0 0 7).count.toNat < 256 / 32 ∧ (xf 0 32 0 0 6 0 0 63).count.toNat / 64 < 64 / 64 ∧
      (xf 0 32 0 0 4 0 0 255).count.toNat / 64 < 256 / 64) ∧
    topExp [.fin false 3 (-5), .zero] = some (-4) ∧ topExp [.zero] = none := by decide

/-! ## Witnesses: barriers, fences, exchanges and the clocks -/

/-- A team of one group, or of two; its barrier 15 in some phase. -/
def teamOf (live : Nat) (word : Word) : Team := { Team.placed with live := live, groups := live, bars := Team.placed.bars.set 15 word }
def sBar (g : Group) (live : Nat) (word : Word) : State := stateOf { coreOf g with teams := [teamOf live word] }
/-- Team barrier 15. -/
def bar15 : YFields := ⟨0x2F, age0, 0, 0⟩
def gBarWait : Group := { g0 with waits := [waitOf (.bar bar15) [1, 0]] }

theorem meets_BarriersComplete : yBarScope bar15 = 1 ∧ yBarId bar15 < 16 ∧ yBarId bar15 < g0.hdr.barriers ∧
    (∀ x ∈ g0.liveSlices, iss0.mask.getLsbD x.val = true) ∧
    (∀ i ∈ [Instr.bara bar15, .barw bar15, .bar bar15], ready (sBar g0 1 0) g0 i = true) ∧
    (ready (sBar g0 2 0) g0 (.bar bar15) = true ∧ ready (sBar g0 1 0x07000001) g0 (.barw bar15) = true) ∧
    (barCount (((sBar g0 1 0).barWord 0 0 1 15).1) + 1 < 2 ^ 12 ∧ barCount (((sBar g0 1 0x07000001).barWord 0 0 1 15).1) + 1 < 2 ^ 12) ∧
    ((sBar g0 1 0).canArrive g0 bar15 = true ∧ barMode (((sBar g0 1 0).barWord 0 0 1 15).1) = false ∧ barCount (((sBar g0 1 0).barWord 0 0 1 15).1) = 0 ∧
      (teamOf 1 0).live ≤ 0 + 1 ∧ 0 + 1 < (teamOf 2 0).live ∧ (sBar g0 2 0).canArrive g0 bar15 = true) ∧
    (barMode (((sBar g0 1 (0x07000001)).barWord 0 0 1 15).1) = true ∧
      let s := sBar gBarWait 1 (0x07000001)
      gBarWait.waitOf 7 = some (waitOf (.bar bar15) [1, 0]) ∧ gBarWait.waitsRun = true ∧ (s.core 0).stepping = [] ∧
        barMode ((s.barWord 0 0 1 15).1) = true) := by
  refine ⟨by decide, by decide, by decide, by decide, by decide, by decide, by decide, by decide, by decide⟩

theorem meets_BarriersComplete_group (g : Group) (live : Nat) (word : Word) : (sBar g live word).group? 0 0 = some g ∧
    ((sBar g live word).core 0).team? 0 = some (teamOf live word) := ⟨rfl, rfl⟩

/-- Barrier 15 of the cluster, or 7 of the die, in some phase, with a second group of the launch or none on core 1 of the cluster. -/
def wideBar (die : Bool) : YFields := ⟨if die then 0x67 else 0x4F, age0, 0, 0⟩
def sWide (g : Group) (two die : Bool) (word : Word) : State :=
  let peers := if two then [0, 1] else [0]
  let team := { Team.placed with peers := peers, cbars := Team.placed.cbars.set 15 word }
  let s := { stateOf { coreOf g with teams := [team] } with cores := (0, { coreOf g with teams := [team] }) :: if two then [(1, { coreOf g with teams := [team] })] else [] }
  if die then s.setDie 0 { Die.reset with blocks := [⟨0, (Vector.replicate 8 0).set 7 word, 40, Vector.replicate 8 0, 0⟩] } else s

theorem meets_BarriersComplete_wide : ∀ die ∈ [true, false],
    yBarScope (wideBar die) = (if die then 3 else 2) ∧ yBarId (wideBar die) < (if die then 8 else 16) ∧ yBarId (wideBar die) < g0.hdr.barriers ∧
    ((sWide g0 false die 0).rootCore 0 0 = 0 ∧ (((sWide g0 false die 0).core 0).team? 0).isSome = true) ∧
    (die = true → (((sWide g0 false die 0).die 0).blocks.find? fun b => b.launch == 0).isSome = true) ∧
    barCount ((sWide g0 false die 0).barWord 0 0 (yBarScope (wideBar die)) (yBarId (wideBar die))).1 + 1 < 2 ^ 12 ∧
    (∀ i ∈ [Instr.bara (wideBar die), .bar (wideBar die)], ready (sWide g0 false die 0) g0 i = true) ∧
    (sWide g0 false die 0).canArrive g0 (wideBar die) = true ∧ (sWide g0 true die 0).canArrive g0 (wideBar die) = true ∧
    (sWide g0 false die 0).participants 0 0 (yBarScope (wideBar die)) ≤ 0 + 1 ∧ 0 + 1 < (sWide g0 true die 0).participants 0 0 (yBarScope (wideBar die)) ∧
    (ready (sWide g0 true die 0) g0 (.bar (wideBar die)) = true ∧ ready (sWide g0 false die 0x07000001) g0 (.barw (wideBar die)) = true) ∧
    barMode ((sWide g0 false die 0x07000001).barWord 0 0 (yBarScope (wideBar die)) (yBarId (wideBar die))).1 = true ∧
    (let w := waitOf (.bar (wideBar die)) [1, 0]
     let g := { g0 with waits := [w] }
     let s := sWide g false die 0x07000001
     g.waitOf 7 = some w ∧ g.waitsRun = true ∧ (s.core 0).stepping = [] ∧
       barMode (s.barWord 0 0 (yBarScope (wideBar die)) (yBarId (wideBar die))).1 = true) := by decide

theorem meets_BarriersComplete_wide_group (g : Group) (two die : Bool) (word : Word) : (sWide g two die word).group? 0 0 = some g := by
  cases two <;> cases die <;> rfl

/-- A FENCE, an acquire one that waits, and two groups that name each other. -/
def fenceRel : YFields := ⟨0x34, age0, 0, 0⟩
def fenceAcq : YFields := ⟨0x14, age0, 0, 0⟩
def gFence : Group := { g0 with waits := [waitOf (.fence fenceAcq) []] }
def swap0 : YFields := ⟨0, age0, 4, 77⟩
def gSwap (cluster peer : Nat) : Group :=
  { g0 with cluster := cluster, waits := [waitOf (.xswap swap0) (peer :: 0 :: 0xFFFFFFFF :: List.replicate 32 5)] }
def sSwap : State := { stateOf (coreOf (gSwap 0 1)) with cores := [(0, coreOf (gSwap 0 1)), (3, coreOf (gSwap 1 0))] }
def gNext : Group := { g0 with scalars := scalarsOf [(4, 1024)] }

/-- FENCEs that wait: a release at package scope whose dirty words go home or have gone, one at fabric scope whose window has passed or
whose clock was lost; and both at issue. -/
def fenceBoth (sc : BitVec 8) : YFields := ⟨0x30 + sc, age0, 0, 0⟩
def gFenced (sc : BitVec 8) (vals : List Nat) (win : Option Nat) : Group :=
  { g0 with fabWin := win, waits := [waitOf (.fence (fenceBoth sc)) vals] }

theorem meets_FenceAndExchangeComplete_release : yFenceScope (fenceBoth 4) = .package ∧ yFenceScope (fenceBoth 5) = .fabric ∧
    (∀ sc ∈ [(4 : BitVec 8), 5], ∀ vals ∈ [[], [1]], ∀ win ∈ [none, some 0],
      let g := gFenced sc vals win
      let s := stateOf (coreOf g)
      g.waitOf 7 = some (waitOf (.fence (fenceBoth sc)) vals) ∧ yFenceRel (fenceBoth sc) = true ∧ yFenceAcq (fenceBoth sc) = true ∧ vals.length ≠ 3 ∧
        s.earlierWrites 0 0 0 = false ∧ s.backsOut 0 1 = false ∧ s.reqs = [] ∧ (s.core 0).stepping = [] ∧
        s.winState 0 0 0 g = if win = none then .done else .timeSync) ∧
    (ready s0 g0 (.fence (fenceBoth 5)) = true ∧ s0.fenceFree 0 0 g0 (fenceBoth 5) = false ∧ ready s0 g0 (.fence ⟨0x15, age0, 0, 0⟩) = true ∧
      yFenceScope ⟨0x15, age0, 0, 0⟩ = .fabric ∧ s0.fenceFree 0 0 g0 ⟨0x15, age0, 0, 0⟩ = true) := by decide

theorem meets_FenceAndExchangeComplete_group (sc : BitVec 8) (vals : List Nat) (win : Option Nat) :
    (stateOf (coreOf (gFenced sc vals win))).group? 0 0 = some (gFenced sc vals win) := rfl

theorem meets_FenceAndExchangeComplete : (∀ f ∈ [fenceRel, fenceAcq], ready s0 g0 (.fence f) = true ∧ s0.fenceFree 0 0 g0 f = true) ∧
    (let s := stateOf (coreOf gFence)
     s.group? 0 0 = some gFence ∧ gFence.waitOf 7 = some (waitOf (.fence fenceAcq) []) ∧ yFenceRel fenceAcq = false ∧ yFenceAcq fenceAcq = true ∧
       (s.core 0).stepping = [] ∧ ∀ q ∈ s.reqs, q.core = 0 → q.frame = 0 → q.kind = .load ∨ q.kind = .waitv ∨ q.isAtomic → 0 ≤ q.seq) ∧
    (let s := stateOf (coreOf gNext)
     s.Ready (.xswap swap0) gNext ∧ s.launch? 0 = some launch0 ∧ 1024 / 1024 ≠ gNext.cluster ∧ 1024 / 1024 < record0.clusters ∧
       1024 % 1024 < record0.groups ∧ (gNext.scalar swap0.sidx.toNat).toNat = 1024 ∧ gNext.swapWait = none) ∧
    (sSwap.group? 0 0 = some (gSwap 0 1) ∧ sSwap.group? 3 0 = some (gSwap 1 0) ∧
      (gSwap 0 1).swapWait = some (waitOf (.xswap swap0) (1 :: 0 :: 0xFFFFFFFF :: List.replicate 32 5), swap0) ∧
      (gSwap 1 0).swapWait = some (waitOf (.xswap swap0) (0 :: 0 :: 0xFFFFFFFF :: List.replicate 32 5), swap0) ∧
      iss0.mask.getLsbD 7 = true ∧ sSwap.findGroup 0 1 0 = some (3, 0, gSwap 1 0)) := by
  refine ⟨by decide, ⟨rfl, by decide, by decide, by decide, by decide, by decide⟩, ⟨ready_of rfl (by decide), rfl, by decide, by decide, by decide, by decide, by decide⟩,
    rfl, rfl, by decide, by decide, by decide, by decide⟩

theorem ok_of {ε α : Type} {x : Except ε α} (h : x.toOption.isSome = true) : ∃ a, x = .ok a := by
  cases x with
  | error e => simp [Except.toOption] at h
  | ok a => exact ⟨a, rfl⟩

/-- Reads of mapped memory succeed, however long. -/
theorem span_ok {s : State} {k ctx : Nat} {priv : Bool} (h : ∀ va : DWord, va.toNat < 2 ^ 40 → s.translate k none ctx priv .load va = .ok page0) (n : Nat) :
    ∀ va : DWord, va.toNat + n ≤ 2 ^ 40 → ∃ ps, s.translateSpan k ctx priv .load va n = .ok ps ∧ ∀ p ∈ ps, p < 2 ^ 52 := by
  induction n with
  | zero => exact fun va _ => ⟨[], rfl, by simp⟩
  | succ n ih =>
    intro va hv
    have h1 : va.toNat < 2 ^ 40 := by omega
    have h2 : (va + 1).toNat = va.toNat + 1 := by
      have h3 : (1 : DWord).toNat = 1 := rfl
      rw [BitVec.toNat_add, h3]; omega
    obtain ⟨ps, e, hp⟩ := ih (va + 1) (by omega)
    refine ⟨page0.pa va :: ps, by simp only [State.translateSpan, h va h1, e], ?_⟩
    intro p hq
    rcases List.mem_cons.mp hq with rfl | hq
    · have : page0.pa va = va.toNat % 2 ^ 40 := by simp [TlbEntry.pa, page0, pteDev, pteFrame, pageBytes]
      omega
    · exact hp p hq

theorem readV_ok {s : State} {k ctx : Nat} {priv : Bool} (h : ∀ va : DWord, va.toNat < 2 ^ 40 → s.translate k none ctx priv .load va = .ok page0)
    (hp : s.poison = []) (va : DWord) (n : Nat) (hv : va.toNat + n ≤ 2 ^ 40) : ∃ bs, s.readV k ctx priv va n = .ok bs := by
  obtain ⟨ps, e, hr⟩ := span_ok h n va hv
  have h1 : ps.any isRemote = false := by
    rw [List.any_eq_false]
    intro p q
    have := hr p q
    simp [isRemote]; omega
  exact ⟨ps.map s.byte, by simp [State.readV, e, h1, hp]⟩

/-- A state whose core holds page 0 in its TLB maps the first 1 TiB to itself. -/
theorem translate_page0 {s : State} {k : Nat} {priv : Bool} {rest : List TlbEntry} (h1 : (s.core k).tlb = page0 :: rest) 
    (h2 : ∀ d < 16, s.dieMask.getLsbD d = true) (va : DWord) (hv : va.toNat < 2 ^ 40) : s.translate k none 0 priv .load va = .ok page0 := by
  have h4 : page0.hits 0 va = true := by
    have : va.toNat / 1099511627776 = 0 := by omega
    simp [TlbEntry.hits, page0, pageBytes, this]
  have h5 : s.lookup k none 0 va = some page0 := by
    simp [State.lookup, h1, h4]
  have h6 : page0.pa va = va.toNat := by
    have : page0.pa va = va.toNat % 2 ^ 40 := by simp [TlbEntry.pa, page0, pteDev, pteFrame, pageBytes]
    omega
  have h7 : s.backed va.toNat = true := by
    have : va.toNat / 2 ^ 36 < 16 := by omega
    have h8 : s.dieMask.getLsbD (va.toNat / 2 ^ 36) = true := h2 _ this
    simp only [State.backed, State.fitted, hv, h8, this, decide_true, Bool.true_and, Bool.true_or]
  unfold State.translate
  rw [h5]
  have h9 : checkPte s.hasFabric priv .load page0.pte = none := by
    simp [checkPte, page0, ptePrv, pteRd, pteWr, pteEx, pteDev]
  simp only [h9, h6, h7, Bool.not_true, Bool.and_false, Bool.false_eq_true, if_false]

/-- Then a span below 1 TiB is its own bytes, and a record there is read as they stand. -/
theorem span_eq {s : State} {k ctx : Nat} {priv : Bool} (h : ∀ va : DWord, va.toNat < 2 ^ 40 → s.translate k none ctx priv .load va = .ok page0) (n : Nat) :
    ∀ va : DWord, va.toNat + n ≤ 2 ^ 40 → s.translateSpan k ctx priv .load va n = .ok (List.range' va.toNat n) := by
  induction n with
  | zero => exact fun va _ => rfl
  | succ n ih =>
    intro va hv
    have h2 : (va + 1).toNat = va.toNat + 1 := by
      have h3 : (1 : DWord).toNat = 1 := rfl
      rw [BitVec.toNat_add, h3]; omega
    have h6 : page0.pa va = va.toNat := by
      have : page0.pa va = va.toNat % 2 ^ 40 := by simp [TlbEntry.pa, page0, pteDev, pteFrame, pageBytes]
      omega
    simp only [State.translateSpan, h va (by omega), ih (va + 1) (by omega), h2, h6, List.range'_succ]

theorem readRec_ok {s : State} {k ctx : Nat} (h : ∀ va : DWord, va.toNat < 2 ^ 40 → s.translate k none ctx true .load va = .ok page0)
    (va : DWord) (n : Nat) (hv : va.toNat + n ≤ 2 ^ 40) :
    s.readRec k ctx va n = some ((List.range' va.toNat n).map fun p => (s.byte p, s.badByte p)) := by
  simp only [State.readRec, span_eq h n va hv]

/-- The clock, the milestone and the banks: counter at 0x7000, the bank's image at 0x20000. -/
def yf (sub : BitVec 8) (sidx : BitVec 7) (imm : BitVec 25) : YFields := ⟨sub, age0, sidx, imm⟩
def gY : Group := { g0 with scalars := scalarsOf [(4, 0x7008), (8, 0x20000)], actBank := 1 }
def sY : State := stateOf (coreOf gY)
def gYWait (i : Instr) (vals : List Nat) : Group := { gY with waits := [waitOf i vals] }

theorem meets_CountersBanksAndClocksComplete :
    (∀ i ∈ [Instr.msinc { yf 0 4 0 with src := ⟨.inline 1, 0⟩ }, .mswait ⟨0, age0, 4, 0⟩, .ldact (yf 0 8 0)], sY.MemReady i gY) ∧
    (∀ i ∈ [Instr.actsel (yf 1 0 0), .clock (yf 0 0 0), .ptime (yf 0 0 0), .sleep (yf 0 0 0x1FFFFFF)], sY.Ready i gY) ∧
    (sY.yFault gY .store 0x7008 8 8 = none ∧ sY.counterBehind gY 0x7008 = false ∧ sY.loggedOverlap gY .global 8 [0x7008] = [] ∧ sY.iss.kept = []) ∧ sY.yFault gY .load 0x7008 8 8 = none ∧ sY.yFault gY .load 0x20000 16 bankBytes = none ∧
    ((∃ p, sY.readCounter 0 0 true 0x7008 (sY.leaseOf 0 0) 0 = .ok p) ∧ (gY.yPair (yf 0 4 0) 2).toNat = 0) ∧
    ((∀ p ∈ (sY.core 0).frames, p.2.ctx = gY.ctx) ∧ gY.actBank ≠ 0 ∧ (sY.core 0).bankHeld 0 0 = false ∧ ∀ x ∈ (sY.core 0).actWaits, x.bank = 1 → x.frame = 0) ∧
    (∃ bs, sY.readV 0 0 true 0x20000 bankBytes = .ok bs) ∧
    ((gYWait (.mswait (yf 0 4 0)) [0x7008, 0, 0]).waitOf 7 = some (waitOf (.mswait (yf 0 4 0)) [0x7008, 0, 0]) ∧
      (gYWait (.ldact (yf 0 8 0)) [0, 0x20000]).waitOf 7 = some (waitOf (.ldact (yf 0 8 0)) [0, 0x20000]) ∧ gY.slices[7].wake ≤ sY.cycle) := by
  refine ⟨memReady_all rfl (by decide), ready_all rfl (by decide), by decide, by decide, by decide, ⟨ok_of (by decide +kernel), by decide +kernel⟩, by decide,
    readV_ok (translate_page0 rfl (by decide)) rfl _ _ (by decide), by decide⟩

/-- An MSWAIT tried again, which holds its counter's address and its value. -/
theorem meets_CountersBanksAndClocksComplete_kept : (let s := { sY with iss := { iss0 with kept := [0x7008, 8] } }
    s.MemReady (.mswait (yf 0 4 0)) gY ∧ s.iss.kept = [(0x7008 : DWord).toNat, 8] ∧ s.counterBehind gY 0x7008 = false) :=
  ⟨memReady_of rfl (by decide), rfl, by decide⟩

/-! ## Witnesses: scheduling, launches and completion -/

/-- A team whose starved count has reached the limit. -/
theorem meets_SchedulingEvents_starved : (let s := stateOf { coreOf g0 with teams := [{ Team.placed with starved := 20000000 }] }
    ∃ p ∈ s.passTime.cores, ∃ team ∈ p.2.teams, 20000000 ≤ team.starved) :=
  ⟨_, .head _, _, .head _, by decide⟩


theorem meets_SchedulingEvents : s0.slotFree 0 0 = true ∧ (∀ p ∈ (s0.core 0).served 0, s0.dueNow 0 p.2 = none) ∧
    (∀ p ∈ s0.slotGangs 0 0, ∃ x, s0.headerOf 0 p.1 p.2 = .ok x) ∧
    (∃ b, s0.pick 0 0 ((s0.slotGangs 0 0).filter fun p => s0.clauseReady 0 p) = some ((g0, ⟨0, 0xFF⟩), b)) ∧
    s0.headerOf 0 g0 ⟨0, 0xFF⟩ = .ok (⟨0x10000, 0x1000, 0x3000⟩, ⟨0, 15, 15, 1, false⟩) ∧
    (s0.clearYields 0 ((s0.slotGangs 0 0).filter fun p => s0.clauseReady 0 p)).fetchClause 0 0 true ⟨0x10000, 0x1000, 0x3000⟩ 0x10000 1 =
      .ok [0, 0x73800000] ∧ (g0.lead 0xFF).iidx < 1 ∧ (s0.core 0).team? 0 = some Team.placed := by
  refine ⟨by decide, by decide, ?_, ⟨_, rfl⟩, by decide, by decide +kernel, by decide, rfl⟩
  intro p hp
  have h1 : s0.slotGangs 0 0 = [(g0, ⟨0, 0xFF⟩)] := by decide
  have h2 : s0.headerOf 0 g0 ⟨0, 0xFF⟩ = .ok (⟨0x10000, 0x1000, 0x3000⟩, ⟨0, 15, 15, 1, false⟩) := by decide
  rw [h1, List.mem_singleton] at hp
  subst hp
  exact ⟨_, h2⟩

/-- Die 0 with its queue served and a record to take; the pass has the page in its TLB. -/
def recBytes0 : List Byte := leBytes 64 0x1000000010000000100000000000000000000000000010080
def sPass : State := { s0 with cores := s0.cores ++ [(passKey 0, { Core.reset 0 0 0 with tlb := [page0] })], launches := [] }
/-- The header at 0x10040: no barriers, scratch or rack; four scalars, one core, divergence depth 1. -/
def hdr0 : KHeader := ⟨false, 0, 0, 4, 0, false, 0, 128, 0, 0x01010101, 0, 0, 0, 0, 0, 0, 1, 0⟩
def gLaunch : Group := { g0 with scalars := scalarsOf [(4, 0x6000)] }
def sLaunch : State := stateOf (coreOf gLaunch)
def recordQ : LaunchRec := ⟨0x10080, 0, 1, 1, 0, false, none, 1, 0, 0, 0, 0, 0, 0x6000⟩

theorem meets_LaunchesAreTakenAndPlaced_launch : sLaunch.MemReady (.launch (yf 0 4 0)) gLaunch ∧ sLaunch.yFault gLaunch .load 0x6000 64 64 = none ∧
    sLaunch.iss.kept = [] ∧ sLaunch.earlierWrites 0 0 1 = false ∧ (sLaunch.core 0).dirtyLeased = [] ∧ sLaunch.backsOut 0 sLaunch.nextOp = false ∧
    (let s1 := sLaunch.releaseDone 0 0
     s1.readV 0 0 true 0x6000 64 = .ok recBytes0 ∧ (s1.noteRecord 0 0 0x6000 recBytes0).checkRecord 0 0 0x6000 recBytes0 = .ok recordQ hdr0 [] ∧ recordQ.waitAddr = 0 ∧ (∀ p ∈ sLaunch.passRecs, p.src ≠ some (0, 0, 0))) := by
  refine ⟨memReady_of rfl (by decide), by decide, rfl, by decide, by decide, by decide, by decide +kernel, by decide +kernel, rfl, by decide⟩

/-- A LAUNCH tried again, which holds the address that it read. -/
theorem meets_LaunchesAreTakenAndPlaced_kept : (let s := { sLaunch with iss := { iss0 with kept := [0x6000] } }
    s.MemReady (.launch (yf 0 4 0)) gLaunch ∧ s.iss.kept = [(0x6000 : DWord).toNat] ∧ s.yFault gLaunch .load 0x6000 64 64 = none) :=
  ⟨memReady_of rfl (by decide), rfl, by decide⟩

theorem meets_LaunchesAreTakenAndPlaced_queue : (sPass.ctxField 0 0x28 2).testBit 0 = true ∧ (∀ p ∈ sPass.passRecs, p.record.ctx = 0 → p.queue.map (·.1) ≠ some 0) ∧
    (let k := passKey (sPass.leadDie 0)
     ∃ d, sPass.readV k 0 false (BitVec.ofNat 64 (sPass.queueAddr 0 0)) 32 = .ok d ∧ fieldOf d 0x0C 1 = 0 ∧ fieldOf d 0x18 8 < fieldOf d 0x10 8 ∧
       fieldOf d 0x10 8 - fieldOf d 0x18 8 ≤ fieldOf d 8 4 ∧ BitVec.ofNat 64 (fieldOf d 0 8 + 64 * (fieldOf d 0x18 8 % fieldOf d 8 4)) = (0x6000 : DWord) ∧
       sPass.readV k 0 false 0x6000 64 = .ok recBytes0 ∧
       ((sPass.notePages k 0 (BitVec.ofNat 64 (sPass.queueAddr 0 0)) 32).noteRecord k 0 0x6000 recBytes0).checkRecord k 0 0x6000 recBytes0 =
         .ok recordQ hdr0 []) := by
  refine ⟨by decide, by decide, (sPass.readV (passKey 0) 0 false 0x7000 32).toOption.getD [], by decide +kernel, by decide +kernel, by decide +kernel,
    by decide +kernel, by decide +kernel, by decide +kernel, by decide +kernel⟩

/-- An empty queue is one whose HEAD has reached its TAIL. -/
theorem meets_LaunchesAreTakenAndPlaced_empty : (let s := { sPass with mem := Memory.set sPass.mem 0x7018 1 }
    let d := (s.readV (passKey 0) 0 false 0x7000 32).toOption.getD []
    s.readV (passKey 0) 0 false 0x7000 32 = .ok d ∧ fieldOf d 0x0C 1 = 0 ∧ fieldOf d 0x10 8 ≤ fieldOf d 0x18 8) := by decide +kernel

/-- A record that waits for the counter at 0x7008, whose value is 8. -/
def passRec (v : DWord) (lease : Nat) : PassRec := ⟨3, { recordQ with waitAddr := 0x7008, waitVal := v }, hdr0, 0, none, 1, lease, none⟩
def sMilestone (v : DWord) (lease clock : Nat) : State :=
  { sPass with passRecs := [passRec v lease], cores := [(0, coreOf g0), (passKey 0, { Core.reset 0 0 0 with tlb := [page0], clock := clock })] }
theorem meets_LaunchesAreTakenAndPlaced_pass (v : DWord) (l c : Nat) : (sMilestone v l c).passRecs.find? (fun p => p.id == 3) = some (passRec v l) ∧
    (passRec v l).queue = none ∧ (sMilestone v l c).unloading 0 0x10080 = false ∧ (sMilestone v l c).passBefore 0 3 < 256 ∧
    { sMilestone v l c with unloads := [⟨0, 0x10000, 0x10100⟩] }.unloading 0 0x10080 = true ∧
    ∀ q ∈ (sMilestone v l c).passRecs, q.id < 3 → q.src ≠ (passRec v l).src :=
  ⟨rfl, rfl, rfl, lt_of_le_of_lt (List.length_filter_le _ _) (by decide : 1 < 256), rfl, fun q h hq => by rw [List.mem_singleton.mp h] at hq; exact absurd hq (Nat.lt_irrefl 3)⟩
/-- Its lease holds at clock 7, and has lapsed at clock 8; the counter has not or has its value. -/
theorem meets_LaunchesAreTakenAndPlaced_reached : ((passRec 8 7).lease ≠ 0 ∧ ((sMilestone 8 7 7).core (passKey 0)).clock ≤ (passRec 8 7).lease) ∧
    (passRec 9 7).lease < ((sMilestone 9 7 8).core (passKey 0)).clock ∧
    (((sMilestone 8 7 8).passCounter 0 (passRec 8 7).record).toOption.map fun x => x.2.1) = some true ∧
    (((sMilestone 9 7 8).passCounter 0 (passRec 9 7).record).toOption.map fun x => x.2.1) = some false := by decide +kernel

theorem meets_LaunchesAreTakenAndPlaced_clear : (let a : DWord := BitVec.ofNat 64 (sPass.queueAddr 0 0 + 0x0C)
    a.toNat % 128 ≤ 124 ∧ Memory.wf sPass.mem = true ∧ sPass.translate (passKey (sPass.leadDie 0)) none 0 (sPass.privCtx.contains 0) .store a = .ok page0 ∧
    sPass.hostLine (page0.pa a) = false ∧ page0.tracked (page0.pa a) = none ∧ ∀ j < 4, sPass.migrated (page0.pa a + j) = none ∧ sPass.place (page0.pa a + j) = page0.pa a + j) := by decide +kernel

/-- A launch with a cluster to place, and a core that stands alone for it. -/
def launchQ : Launch := ⟨2, recordQ, hdr0, 1, 0, 0, 0, 0, false, []⟩
def sPlace : State := { sPass with
  launches := [launchQ], dies := (List.range 16).map fun d => (d, { Die.reset with modeSet := true }) }
theorem meets_LaunchesAreTakenAndPlaced_place : sPlace.launch? 2 = some launchQ ∧ launchQ.next < launchQ.record.clusters ∧
    launchQ.record.dieMask.getLsbD (dieOf 7) = true ∧ [7] ∈ sPlace.rects 0 launchQ.hdr ∧ sPlace.fits launchQ [7] = true ∧
    (sPlace.launches.any fun m => m.before launchQ && sPlace.placeable m) = false ∧ [7].Nodup ∧ 0 ∈ dealt launchQ.record.groups 1 0 := by decide +kernel

/-- A group that has exited, a team and a launch that it leaves behind, and a launch that has nothing left. -/
def gGone : Group := g0.mapSlices 0xFF fun _ sl => { sl with exited := 0xF, active := 0 }
def sGone : State := stateOf { coreOf gGone with claims := [(5, 0)] }
def teamGone : Team := { Team.placed with live := 0 }
def sLeft : State := stateOf { coreOf g0 with frames := [], teams := [teamGone] }
def launchDone : Launch := { launchQ with record := { recordQ with doneAddr := 0x7FFF8, doneInc := 3, intr := true }, next := 1 }
def sDone : State := { sPass with launches := [launchDone], cores := [(passKey 0, { Core.reset 0 0 0 with tlb := [page0] })] }
def sStopped : State := { s0 with launches := [{ launch0 with stopped := true }] }

theorem meets_LaunchesEnd_retire : sGone.group? 0 0 = some gGone ∧ gGone.liveSlices = [] ∧ gGone.status = .running ∧
    (∀ q ∈ sGone.reqs, q.core = 0 → q.frame = 0 → q.isWrite = false) ∧
    (∀ h ∈ (sGone.core 0).handles, h.2.owner = 0 → h.2.state ≠ .running ∧ h.2.state ≠ .paused) ∧ (sGone.core 0).workOf 0 = false ∧
    (sGone.core 0).team? 0 = some Team.placed ∧ sGone.launch? 0 = some launch0 :=
  ⟨rfl, by decide, rfl, by decide, by decide, by decide, rfl, rfl⟩

theorem meets_LaunchesEnd_leave : (sLeft.core 0).team? 0 = some teamGone ∧ teamGone.live = 0 ∧ (∀ p ∈ teamGone.peers, sLeft.liveOn p 0 = 0) ∧
    (∀ q ∈ sLeft.reqs, q.core = 0 → q.frame = 64 → q.wb ≠ some 0) ∧ teamGone.preempting = false :=
  ⟨rfl, rfl, by decide, by decide, rfl⟩

theorem meets_LaunchesEnd_complete : sDone.launch? 2 = some launchDone ∧ launchDone.next = launchDone.record.clusters ∧ launchDone.live = 0 ∧
    (∀ p ∈ sDone.cores, (p.2.team? 2).isNone = true) ∧ (∀ v ∈ sDone.saved, v.launch ≠ 2) ∧ launchDone.record.doneAddr ≠ 0 ∧ Memory.wf sDone.mem = true ∧
    (sDone.raiseClock (passKey launchDone.lead) launchDone.maxClock).translate (passKey launchDone.lead) none 0 (sDone.privCtx.contains 0) .store
      launchDone.record.doneAddr = .ok page0 ∧
    (let pa := page0.pa launchDone.record.doneAddr
     pteDev page0.pte = false ∧ sDone.poisoned pa 8 = false ∧ sDone.hostLine pa = false ∧ page0.tracked pa = none ∧ ∀ j < 8, sDone.migrated (pa + j) = none ∧ sDone.place (pa + j) = pa + j) :=
  ⟨rfl, rfl, rfl, by decide, by decide, by decide, by decide, by decide +kernel, by decide +kernel⟩

theorem meets_LaunchesEnd_stopped : sStopped.launch? 0 = some { launch0 with stopped := true } ∧ sStopped.reqs = [] ∧
    ∀ p ∈ sStopped.cores, ∀ h ∈ p.2.handles, h.2.launch = 0 → h.2.state ≠ .running := ⟨rfl, rfl, by decide⟩

/-! ## Witnesses: the debugger, the fault service and pre-emption -/

def gStop (st : Status) (fault : Option FaultRec) : Group := { g0 with status := st, fault := fault }
/-- DBGCTL with ATTACH and ALLSTOP, its target frame 0, and a second group of the context on core 1. -/
def sAll : State := { s0 with cores := [(0, { coreOf g0 with dbgctl := 3 }), (1, coreOf g0)] }

theorem meets_StopsAndResumes_halt : sAll.group? 0 0 = some g0 ∧ g0.status = .running ∧ (sAll.core 0).target = 0 ∧ (sAll.core 0).dbgctl.getLsbD 0 = true ∧
    (sAll.core 0).dbgctl.getLsbD 1 = true ∧ (Sparse.get? sAll.cores 1).isSome = true ∧ sAll.group? 1 0 = some g0 ∧ dieOf 1 = dieOf 0 :=
  ⟨rfl, rfl, by decide, by decide, by decide, by decide, rfl, rfl⟩

/-- A group in the fault service that a debugger halts, and the same once halted. -/
theorem meets_StopsAndResumes_service : (let g := gStop .service (some ⟨.page, .P, 5, 0x10000, 0, 0, none⟩)
      (stateOf (coreOf g)).group? 0 0 = some g ∧ g.status = .service ∧ ((stateOf (coreOf g)).core 0).target = 0) ∧
    (let r : FaultRec := ⟨.page, .P, 5, 0x10000, 0, 0, none⟩
     let g := { gStop .service (some r) with halted := true }
     (stateOf (coreOf g)).group? 0 0 = some g ∧ g.fault = some r ∧ r.kind ≠ .L ∧ g.halted = true) :=
  ⟨⟨rfl, rfl, by decide⟩, rfl, rfl, by decide, rfl⟩

theorem meets_StopsAndResumes_resume : (let g := gStop .debug none
      let s := stateOf { coreOf g with stepArmed := [0] }
      s.group? 0 0 = some g ∧ g.status = .debug ∧ g.fault = none ∧ s.runStatus 0 g = .running ∧ ((s.core 0).team? g.launch).any (·.preempting) = false ∧
        0 ∈ (s.core 0).stepArmed ∧ (s.core 0).target = 0) ∧
    (let r := faultOf .P
     let g := gStop (.faulted false false) (some r)
     (stateOf (coreOf g)).group? 0 0 = some g ∧ g.status = .faulted false false ∧ g.fault = some r ∧ r.kind = .P ∧ r.slice = (0 : Fin 8).val ∧ g.halted = false) ∧
    (let r : FaultRec := ⟨.page, .P, 5, 0x10000, 0, 0, none⟩
     let g := gStop .service (some r)
     (stateOf (coreOf g)).group? 0 0 = some g ∧ g.status = .service ∧ g.fault = some r ∧ r.kind ≠ .L ∧ r.cause = .page ∧ g.hdr.trapMode = 0 ∧
       ∀ i : Fin 8, g.slices[i].handler = false) ∧ (0x80 : BitVec 8) ≠ 0 :=
  ⟨⟨rfl, rfl, rfl, rfl, by decide⟩, ⟨rfl, rfl, rfl, rfl, rfl, rfl⟩, ⟨rfl, rfl, rfl, by decide, rfl, rfl, by decide⟩, by decide⟩

/-- A cluster asked to stop and drained, and the same saved, with a free core to go back to. -/
def teamStop (g : Group) : State := stateOf { coreOf g with teams := [{ Team.placed with preempting := true }] }
def saved0 : Saved := ⟨2, 0, 1, 0, []⟩
/-- The start of a core record at 0x20000: its magic and version, its cluster of one core, and a group in frame 0. -/
def recCells : List Host.Cell := [(0x20000, 0x57), (0x20001, 0x43), (0x20002, 0x53), (0x20003, 0x52), (0x20004, 1), (0x20015, 1), (0x20018, 1)]
def sSaved : State := { sPlace with mem := someMemory ++ recCells, saved := [saved0], cores := [(7, { Core.reset 0 0 0 with tlb := [page0] })] }

theorem meets_PreemptionAndRestore_save : s0.group? 0 0 = some g0 ∧ s0.clusterCores 0 0 = [0] ∧ g0.launch = 0 ∧
    (s0.core 0).team? 0 = some Team.placed ∧ Team.placed.preempting = false ∧
    (let s := teamStop (gStop .preempt none)
     s.clusterCores 0 0 = [0] ∧ (s.core 0).team? 0 = some { Team.placed with preempting := true } ∧ s.clusterDrained 0 [0] = true ∧
       (s.core 0).groupsOf 0 = [(0, gStop .preempt none)] ∧ s.launch? 0 = some launch0 ∧ launch0.record.ctx = g0.ctx ∧ (s.die 0).blocks = [] ∧
       (let u := ((s.settleNest 0 0).settleEngines 0 0).settleGroup 0 0
        (u.group? 0 0).map (·.badBytes 0) = some [] ∧ (u.core 0).scratchPoison = [] ∧ (u.core 0).rackPoison = [])) ∧
    (let g := gStop (.faulted false false) (some (faultOf .P))
     let s := stateOf (coreOf g)
     s.clusterCores 0 0 = [0] ∧ s.group? 0 0 = some g ∧ (s.core 0).groupsOf 0 = [(0, g)] ∧ s.groupDrained 0 0 g = true ∧ g.waits = [] ∧
       ((s.settleGroup 0 0).group? 0 0).map (·.badBytes 0) = some []) ∧
    (let a : DWord := 0x20000 + BitVec.ofNat 64 0x7C
     [0x57, 0x43].length = 2 ∧ a.toNat % 128 + 2 ≤ 128 ∧ Memory.wf s0.mem = true ∧ s0.translate 0 none 0 true .store a = .ok page0 ∧
       s0.hostLine (page0.pa a) = false ∧ page0.tracked (page0.pa a) = none ∧
       ∀ j < 2, s0.migrated (page0.pa a + j) = none ∧ s0.place (page0.pa a + j) = page0.pa a + j) :=
  ⟨rfl, by decide, rfl, rfl, rfl, ⟨by decide, rfl, by decide, by decide, rfl, rfl, rfl, by decide +kernel⟩,
    ⟨by decide, rfl, rfl, by decide, rfl, by decide +kernel⟩, by decide⟩

/-- The bytes that a restore reads as the core's record. -/
def coreRec0 : List Byte := (List.range' 0x20000 (recRackOff launchQ.hdr.scratch + 4096 * launchQ.hdr.rack)).map sSaved.byte

theorem meets_PreemptionAndRestore_restore : sSaved.broughtUp = true ∧ sSaved.recUnit coreRec0 = false ∧ sSaved.launch? 2 = some launchQ ∧
    sSaved.saved.find? (fun v => v.launch == 2 && v.cluster == 0) = some saved0 ∧ [7].Nodup ∧
    (∀ k ∈ [7], (sSaved.core k).frames.isEmpty = true ∧ (sSaved.core k).teams.isEmpty = true ∧ (sSaved.core k).retired = false) ∧
    [7] ∈ sSaved.rects 0 launchQ.hdr ∧ sSaved.blockAllows launchQ saved0.die (dieOf 7) = true ∧
    (∃ bs, sSaved.readRec 7 0 0x20000 (recRackOff launchQ.hdr.scratch + 4096 * launchQ.hdr.rack) = some bs ∧ bs.map (·.1) = coreRec0) ∧
    recFits 1 0 coreRec0 = true ∧ recFrames coreRec0 = [0] ∧ (∀ i < 16, byteAt coreRec0 (0x710 + 32 * i) ≠ 1) ∧
    (∃ rs, sSaved.readRec 7 0 0x40000 (0x2000 + 128 * launchQ.hdr.pantry) = some rs ∧ fieldOf (rs.map (·.1)) 6 2 / 16 % 2 = 0) := by
  refine ⟨by decide, by decide +kernel, rfl, rfl, by decide, by decide, by decide +kernel, by decide, ⟨_, readRec_ok (translate_page0 rfl (by decide)) _ _ (by decide), ?_⟩,
    by decide +kernel, by decide +kernel, by decide +kernel, ⟨_, readRec_ok (translate_page0 rfl (by decide)) _ _ (by decide), by decide +kernel⟩⟩
  rw [List.map_map]; rfl

/-- What Sundoc's account keeps of the group in frame 0 of rank 0. -/
theorem meets_PreemptionAndRestore_note : (let n : GroupNote := { (default : GroupNote) with rank := 0, frame := 0, win := some 3 }
    { saved0 with notes := [n] }.notes.find? (fun n => n.rank == 0 && n.frame == 0) = some n) := by decide

/-! ## Witnesses: the package -/

def shoot0 (src : ShootSource) (started : Bool) : Shoot := ⟨src, 0, 0, 0x20000, 0, 0, [], started⟩
def gShoot : Group := { g0 with waits := [waitOf (.swrite (sfields .b32 0 1 0x242)) []] }

theorem meets_RebasingAndShootdowns : s0.topClock < s0.base + 2 ^ 31 ∧
    (let s := stateOf { coreOf g0 with clock := 2 ^ 31 }
     s.base + 2 ^ 31 ≤ s.topClock) ∧
    (∀ src ∈ [ShootSource.core 0, .driver], let s := { s0 with shoots := [shoot0 src false] }
      s.shoots = [shoot0 src false] ∧ (shoot0 src false).started = false ∧ (shoot0 src true).started = true ∧
        (∀ r ∈ s.reqs, r.id ∉ (shoot0 src true).pending ∧ (r.stage = .walk → r.sdgen = (s.core r.core).sdgen)) ∧
        ∀ p ∈ s.cores, p.2.handles = []) ∧
    ((stateOf (coreOf gShoot)).group? 0 0 = some gShoot ∧
      gShoot.waits.find? (fun w => w.seq == 0) = some (waitOf (.swrite (sfields .b32 0 1 0x242)) []) ∧ ((stateOf (coreOf gShoot)).core 0).stepping = []) := by
  refine ⟨by decide +kernel, by decide +kernel, by decide, rfl, by decide, rfl⟩

/-- Entry 31 of die 0 to die 15, in some state. -/
def conn31 (st : ConnState) (failing : Bool) (dest : Nat) : Conn := ⟨0, failing, st, 8, 7, dest, 0⟩
def sConn (c : Conn) : State := s0.setDie 0 { Die.reset with conn := Die.reset.conn.set 31 c }
def key15 : StreamKey := ⟨0, 5, 128 * 15 + 40⟩

/-- Entry 30 of die 0 that keeps bundle 7 busy, and entry 31 that would have it. -/
def sConnTwo (st : ConnState) : State :=
  s0.setDie 0 { Die.reset with conn := (Die.reset.conn.set 30 (conn31 st false 15)).set 31 (conn31 .idle false 15) }

theorem meets_ConnectionsFollowTheirStates : (∀ st ∈ [ConnState.idle, .setup, .up, .draining, .down], ∀ failing ∈ [true, false],
      (sConn (conn31 st failing 15)).connAt 0 31 = conn31 st failing 15) ∧
    (let s := sConn (conn31 .idle false 15)
     s.fitted 0 = true ∧ s.fitted 15 = true ∧ ∀ j < 32, (s.connAt 0 j).bundle = 7 → (s.connAt 0 j).busy = false) ∧
    ((sConn (conn31 .idle false 0)).connAt 0 31).dest = 0 ∧ s0.fitted 16 = false ∧
    (let s := { sConn (conn31 .draining false 15) with streams := [⟨key15, 32⟩] }
     ∀ x ∈ s.streams, x.key.sender / 128 = 0 → x.path = 32 → s.streamBusy x.key = false) ∧
    (opticalStream key15 = true ∧ key15.sender / 128 = 0 ∧ (conn31 .up false 15).dest = key15.receiver / 128 ∧
      (sConn (conn31 .up false 15)).streamBusy key15 = false) ∧
    ((sConnTwo .up).bundleUser 0 31 = some 30 ∧ (sConnTwo .up).connAt 0 31 = conn31 .idle false 15 ∧
      (let s := { s0.setDie 0 { Die.reset with conn := (Die.reset.conn.set 30 (conn31 .idle false 15)).set 31 { conn31 .setup false 15 with asked := 1 } } with cycle := 0 }
       s.bundleUser 0 30 = some 31 ∧ (s.connAt 0 31).asked = s.cycle + 1 ∧ (s.connAt 0 31).state = .setup ∧ s.connAt 0 30 = conn31 .idle false 15)) ∧
    (0x0008070F : DWord).toNat / 2 ^ 28 % 4 = 0 := by decide +kernel

/-- A die whose mode has been set, with a core that a reset found healthy. -/
theorem meets_SparesErrorsAndResets_mode : (let d := { Die.reset with modeSet := true, healthy := Die.reset.healthy &&& ~~~8, returning := 8 }
    let s := { s0 with cores := [] }.setDie 15 d
    s.dieBusy 15 = false ∧ s.fitted 15 = true ∧ (s.die 15).modeSet = true ∧ (s.die 15).returning.getLsbD 3 = true ∧ (s0.die 15).modeSet = false ∧
      s0.migrated 0x30000 = none) := by decide +kernel

theorem meets_SparesErrorsAndResets : (let s := { s0 with cores := [] }
      (∀ sl < 24, (s.die 0).spareWays.getLsbD sl = false) ∧ (∀ sl < 8, (s.die 0).spareRdc.getLsbD sl = false) ∧
        s.place (128 * 1023) = 128 * 1023 ∧ s.migrated (128 * 1023) = none ∧ (s.core 31).frames = [] ∧ (s.core 31).teams = [] ∧ (s.core 31).retired = false ∧ (s.die 0).healthy.getLsbD 31 = true ∧ (s.die 0).full = false ∧
        (s.die 0).lpct[31].toNat = 31 ∧ s.dieBusy 15 = false ∧ s.fitted 15 = true) ∧ 15 < [0, 1, 2, 3, 4, 5, 6, 7, 8, 9, 10, 11, 12, 13, 14, 15].length := by
  decide +kernel

def sInd (e : IndEntry) : State := s0.setDie 15 { Die.reset with ind := Die.reset.ind.set 63 e }

theorem meets_BiasHostAndMigration : (s0.regionBusy 15 32767 = false ∧ (s0.die 15).hostBias.contains 32767 = false) ∧ s0.hostLine (128 * 2 ^ 44) = true ∧
    (s0.inHbm 0xFFFFFFFFF8 8 = true ∧ s0.poisoned 0xFFFFFFFFF8 8 = false ∧ s0.inHbm (2 ^ 40) 8 = false ∧ s0.hostLine 0xFFFFFFFFF8 = false ∧
      ∀ j < 8, s0.migrated (0xFFFFFFFFF8 + j) = none ∧ s0.place (0xFFFFFFFFF8 + j) = 0xFFFFFFFFF8 + j) ∧ Memory.wf s0.mem = true ∧
    (∀ st ∈ [IndState.free, .copying, .flipped, .retiring, .error], (sInd ⟨3, 9, 1023, st⟩).indAt 15 63 = ⟨3, 9, 1023, st⟩) ∧
    (let s := sInd ⟨3, 9, 0, .free⟩
     9 < 2 ^ 19 ∧ s.fitted (9 / 2 ^ 15) = true ∧ 9 ≠ 15 * 2 ^ 15 + 3) := by decide +kernel

theorem meets_BiasHostAndMigration_frame : (sInd ⟨3, 9, 0, .free⟩).frameUsed 15 63 9 = false := by decide +kernel

/-! ## Witnesses: encodings, the step and the invariants -/

theorem meets_DecodeEncode : (Instr.nest nest0).wf = true ∧ (Instr.dup { fields .b64 1 with src0 := ⟨.lit0, 0⟩, lits := [1, 2] }).wf = true := by decide

theorem meets_WordsHaveOneMeaning : (decode [0x00004000, 0x11110000, 7]).toOption.map (·.2) = some [7] ∧
    (decodeHeader 0 0x0000FF08).isSome = true ∧ (let h : Header := ⟨0xFFF, 11, 15, 24, true⟩
      1 ≤ h.count.toNat ∧ h.count.toNat ≤ 24 ∧ flagCodeLegal h.flagA.toNat = true ∧ flagCodeLegal h.flagB.toNat = true) := by decide

/-- A slot that holds a clause of two instructions, DROP 2 and NOP, at its first. -/
def hold0 : Hold := ⟨0, 0xFF, 0x10000, ⟨0, 15, 15, 2, false⟩, 0, 0x10008, [0x08000000, 0x10200030, 0, 0x73800000], 0x10018⟩
def coreHold : Core := { coreOf g0 with slots := (coreOf g0).slots.set 0 ⟨some hold0, 0, 0, 0, 0, 0⟩ }
def sHold : State := { stateOf coreHold with agenda := [.issue 0 0] }
/-- The machine as the issue begins. -/
def sIssue : State := { sHold with agenda := [], tick := 1, iss := hold0.issuer 0 0xFF }

theorem meets_StepRunsDecoded_issue : ((sHold.core 0).slots.toList.getD 0 default).hold = some hold0 ∧
    ((sHold.core 0).slots.toList.getD 0 default).used ≠ sHold.cycle + 1 ∧ g0.holdsBack = false ∧ g0.due = [] ∧ sHold.group? 0 hold0.frame = some g0 ∧ g0.issues = true ∧
    g0.slicesAt hold0.mask hold0.clause hold0.idx = 0xFF ∧ (sHold.core 0).stepAllows g0 ⟨0, 0xFF⟩ = true ∧
    decode hold0.words = .ok (.drop 2, [0, 0x73800000]) ∧ sIssue.Ready (.drop 2) g0 :=
  ⟨by decide, by decide, by decide, rfl, rfl, by decide, by decide, by decide, by decide, ready_of rfl (by decide)⟩

/-- The state that the DROP answers, as its statement of completion gives it. -/
def sDropped : State := sIssue.finish (g0.mapLanes 0xFF fun _ l => { l with head := l.head - 2, net := l.net - 2 })
theorem meets_StepRunsDecoded_next : exec (.drop 2) sIssue = .next sDropped ∧
    ((sDropped.core 0).slots.toList.getD 0 default).hold = some hold0 ∧ (∃ x, sDropped.group? 0 0 = some x ∧ x.issues = true ∧
      x.slicesAt hold0.mask hold0.clause 0 = 0 ∧ x.slicesAt hold0.mask hold0.clause 1 ≠ 0 ∧
      x.holdsOn hold0.mask = false) ∧ 0 + 1 < hold0.hdr.count.toNat ∧
    (sDropped.core 0).stepping = [] := by
  refine ⟨?_, by decide, ⟨_, State.group?_finish _ _, by decide, by decide, by decide, by decide⟩, by decide, by decide⟩
  show execDrop 2 sIssue = _
  unfold execDrop
  rw [gate_ready (g := g0) (ready_of rfl (by decide))]
  rfl

/-- An instruction that waits to be tried again, and the group it is tried in. -/
def gRetry : Group := { g0 with waits := [⟨{ iss0 with nextIdx := 0 }, .nop, 0, [], true, true⟩] }
theorem meets_StepRunsDecoded_resume : (stateOf (coreOf gRetry)).group? 0 0 = some gRetry ∧ gRetry.waitOf 7 = gRetry.waits.head? ∧ gRetry.status = .running ∧
    (gRetry.waits.all fun w => w.parked && w.retry) = true ∧ (Instr.rebase).form = .event := ⟨rfl, by decide, rfl, by decide, rfl⟩

theorem meets_MemoryStaysCanonical : sHold.memOk = true ∧ ∃ t, step sHold = .next t :=
  ⟨by decide +kernel, _, rfl⟩

theorem meets_InstructionFrames : exec (.drop 2) sIssue = .next sDropped ∧ (Instr.drop 2).form.keepsMemory = true ∧ (Instr.drop 2).form.onLanes = true ∧
    sIssue.group? sIssue.iss.core sIssue.iss.frame = some g0 ∧ (Instr.drop 2).form.saves = false ∧ (0x7F : BitVec 8).getLsbD 7 = false :=
  ⟨meets_StepRunsDecoded_next.1, by decide, by decide, rfl, by decide, by decide⟩

end Sys2Proof.Tests
end

