-- ==== Sys2Proof/Proofs/CanonForm.lean ====
section
/-! The canonical form of every memory as a predicate of a state's memories alone, and the shared updates of a state that keep it
(R11, log entry 1). -/

namespace Sys2Proof.Machine

open Sys2Proof

-- One proof at a time: in parallel, the stacks of the threads exceed the memory that the check allows.
set_option Elab.async false

/-! ## The predicate -/

/-- The memories of a core in their canonical form. -/
def CanonStores (scratch rack : List Host.Cell) (banks : Vector (List Host.Cell) 2) : Prop :=
  Memory.wf scratch = true ∧ Memory.wf rack = true ∧ ∀ b ∈ banks.toList, Memory.wf b = true

/-- A core whose memories are in their canonical form. An update of any other field keeps it by computation. -/
def Core.Canon (c : Core) : Prop := CanonStores c.scratch c.rack c.banks

/-- A memory, and every core listed, in their canonical form. -/
def CanonMem (m : List Host.Cell) (cs : Sparse Core) : Prop := Memory.wf m = true ∧ ∀ p ∈ cs, p.2.Canon

/-- A state whose memories are in their canonical form. An update of any field but `mem` and `cores` keeps it by computation. -/
def State.Canon (s : State) : Prop := CanonMem s.mem s.cores

/-- What a step answers is in its canonical form, where it is a next state. -/
def Res.Canon : Res → Prop
  | .next t => t.Canon
  | _ => True

/-- Both branches of a test keep the form, whatever the test. -/
theorem State.Canon.either {p : Prop} [Decidable p] {s t : State} (hs : s.Canon) (ht : t.Canon) : (if p then s else t).Canon := by
  split
  · exact hs
  · exact ht

theorem Res.Canon.either {p : Prop} [Decidable p] {r q : Res} (hr : Res.Canon r) (hq : Res.Canon q) : Res.Canon (if p then r else q) := by
  split
  · exact hr
  · exact hq

theorem Core.memOk_iff {c : Core} : c.memOk = true ↔ c.Canon := by
  simp only [Core.memOk, Core.Canon, CanonStores, Bool.and_eq_true, List.all_eq_true, and_assoc]

theorem State.memOk_iff {s : State} : s.memOk = true ↔ s.Canon := by
  simp only [State.memOk, State.Canon, CanonMem, Bool.and_eq_true, List.all_eq_true, Core.memOk_iff]

theorem Res.Canon.next {r : Res} {t : State} (h : Res.Canon r) (e : r = .next t) : t.Canon := by
  subst e; exact h

/-! ## Cores -/

theorem Core.canon_reset (cycle die swgen : Nat) : (Core.reset cycle die swgen).Canon :=
  ⟨rfl, rfl, fun b hb => by rw [List.eq_of_mem_replicate hb]; rfl⟩

theorem Sparse.get?_mem {α : Type} {t : Sparse α} {k : Nat} {v : α} (h : Sparse.get? t k = some v) : (k, v) ∈ t := by
  induction t with
  | nil => cases h
  | cons p t ih =>
    obtain ⟨j, w⟩ := p
    unfold Sparse.get? at h
    split at h
    · subst_vars; cases h; exact List.mem_cons_self
    · exact List.mem_cons_of_mem _ (ih h)

theorem Sparse.mem_put {α : Type} {t : Sparse α} {k : Nat} {v : α} {p : Nat × α} (h : p ∈ Sparse.put t k v) : p = (k, v) ∨ p ∈ t := by
  induction t with
  | nil => exact .inl (List.mem_singleton.mp h)
  | cons q t ih =>
    unfold Sparse.put at h
    split at h
    · exact List.mem_cons.mp h
    · split at h
      · exact (List.mem_cons.mp h).imp_right (List.mem_cons_of_mem _)
      · rcases List.mem_cons.mp h with rfl | h
        · exact .inr List.mem_cons_self
        · exact (ih h).imp_right (List.mem_cons_of_mem _)

namespace State.Canon

variable {s : State}

theorem core (h : s.Canon) (k : Nat) : (s.core k).Canon := by
  unfold State.core
  split
  · exact h.2 _ (Sparse.get?_mem ‹_›)
  · exact Core.canon_reset 0 (dieOf k) s.swgen

theorem setCore {k : Nat} {c : Core} (h : s.Canon) (hc : c.Canon) : (s.setCore k c).Canon := by
  refine ⟨h.1, fun p hp => ?_⟩
  rcases Sparse.mem_put hp with rfl | hp
  · exact hc
  · exact h.2 p hp

/-- One core changed by an update that keeps its memories in their canonical form, as one of any other field does. -/
theorem modCore {k : Nat} {u : Core → Core} (h : s.Canon) (hu : ∀ c, c.Canon → (u c).Canon := by exact fun _ hc => hc) :
    (s.modCore k u).Canon := h.setCore (hu _ (h.core k))

/-- Every listed core changed so. -/
theorem mapCores {t : State} {u : Nat × Core → Nat × Core} (h : s.Canon) (hm : t.mem = s.mem := by rfl)
    (hc : t.cores = s.cores.map u := by rfl) (hu : ∀ p, p.2.Canon → (u p).2.Canon := by exact fun _ hc => hc) : t.Canon := by
  refine ⟨hm ▸ h.1, fun p hp => ?_⟩
  rw [hc] at hp
  obtain ⟨q, hq, rfl⟩ := List.mem_map.mp hp
  exact hu q (h.2 q hq)

/-- Steps each of which keeps the form keep it together. -/
theorem foldl {α : Type} {u : State → α → State} {xs : List α} (h : s.Canon) (hu : ∀ t a, t.Canon → (u t a).Canon) :
    (xs.foldl u s).Canon := by
  induction xs generalizing s with
  | nil => exact h
  | cons a xs ih => exact ih (hu s a h)

/-! ## Dies, groups, launches, reports -/

theorem modDie {d : Nat} {f : Die → Die} (h : s.Canon) : (s.modDie d f).Canon := h

theorem setDie {d : Nat} {x : Die} (h : s.Canon) : (s.setDie d x).Canon := h

theorem setGroup {k f : Nat} {g : Group} (h : s.Canon) : (s.setGroup k f g).Canon := h.modCore

theorem modGroup {k f : Nat} {u : Group → Group} (h : s.Canon) : (s.modGroup k f u).Canon := by
  unfold State.modGroup
  split
  · exact h.setGroup
  · exact h

theorem modLaunch {n : Nat} {u : Launch → Launch} (h : s.Canon) : (s.modLaunch n u).Canon := h

theorem prepend {ms : List Move} (h : s.Canon) : (s.prepend ms).Canon := h

theorem tell {r : Report} (h : s.Canon) : (s.tell r).Canon := h

theorem advance (h : s.Canon) : s.advance.Canon := h.modGroup

theorem finish {g : Group} (h : s.Canon) : (s.finish g).Canon := h.setGroup.advance

end State.Canon

end Sys2Proof.Machine
end

