-- ==== Sys2Proof/Proofs/CanonShared.lean ====
section
/-! The updates of translation, homes, barrier words and faults keep the canonical form of every memory. -/

namespace Sys2Proof.Machine

open Sys2Proof

-- One proof at a time: in parallel, the stacks of the threads exceed the memory that the check allows.
set_option Elab.async false

namespace State.Canon

variable {s : State}

/-! ## Translations (R188, R374) -/

theorem noteTlb {k : Nat} {e : TlbEntry} (h : s.Canon) : (s.noteTlb k e).Canon := h.modCore.modDie

theorem noteXlate {k : Nat} {lane : Option Nat} {va : DWord} {e : TlbEntry} (h : s.Canon) : (s.noteXlate k lane va e).Canon := by
  unfold State.noteXlate
  split
  · exact h.noteTlb.modCore
  · exact h.noteTlb

theorem noteWalk {k : Nat} {lane : Option Nat} {ctx : Nat} {va : DWord} (h : s.Canon) : (s.noteWalk k lane ctx va).Canon := by
  unfold State.noteWalk
  split
  · exact h.noteXlate
  · exact h

theorem clearXlate {k f : Nat} (h : s.Canon) : (s.clearXlate k f).Canon := h.modCore.modDie

theorem notePages {k ctx : Nat} {a : DWord} {n : Nat} (h : s.Canon) : (s.notePages k ctx a n).Canon := by
  refine h.foldl fun t p ht => ?_
  split
  · exact ht.noteTlb
  · exact ht

/-! ## Homes (R306 to R315, R333 to R348) -/

theorem setLineTs {line : Nat} {t : LineTs} (h : s.Canon) : (s.setLineTs line t).Canon := h

theorem setCode {block code : Nat} (h : s.Canon) : (s.setCode block code).Canon := h

theorem poisonBytes {pa n : Nat} (h : s.Canon) : (s.poisonBytes pa n).Canon := h

theorem storeBlock {pa : Nat} {comp : Bool} (h : s.Canon) : (s.storeBlock pa comp).Canon := by
  unfold State.storeBlock
  dsimp only
  split <;> exact h

theorem poisonHome {pa n : Nat} (h : s.Canon) : (s.poisonHome pa n).Canon := by
  unfold State.poisonHome State.poisonStored
  dsimp only
  split <;> exact h

theorem evict {line : Nat} (h : s.Canon) : (s.evict line).Canon := by
  unfold State.evict
  split
  · exact h
  · dsimp only
    split
    · exact storeBlock h
    · split
      · exact poisonHome h
      · exact h

theorem evictAll {ls : List Nat} (h : s.Canon) : (s.evictAll ls).Canon := h.foldl fun _ _ ht => ht.evict

theorem roomFor {line : Nat} (h : s.Canon) : (s.roomFor line).Canon := by
  unfold State.roomFor
  dsimp only
  split
  · exact h
  · split
    · exact h
    · exact h.evict

/-- One byte written at its home, and in the frame it migrates to. -/
theorem putByte {pa : Nat} {b : Byte} (h : s.Canon) : (s.putByte pa b).Canon := by
  refine ⟨?_, h.2⟩
  unfold State.putByte
  dsimp only
  split
  · exact Memory.wf_set (Memory.wf_set h.1 _ _) _ _
  · exact Memory.wf_set h.1 _ _

theorem putBytes {pa : Nat} {bs : List Byte} (h : s.Canon) : (s.putBytes pa bs).Canon := by
  induction bs generalizing s pa with
  | nil => exact h
  | cons b bs ih => exact ih h.putByte

theorem mapSubs {f : Sub → Sub} (h : s.Canon) : (s.mapSubs f).Canon := h

theorem forwardWrite {pa : Nat} {bs : List Byte} {wts : Nat} (h : s.Canon) : (s.forwardWrite pa bs wts).Canon := by
  unfold State.forwardWrite
  split <;> exact h

theorem lineWrite {pa : Nat} {bs : List Byte} {w : Nat} {comp : Bool} {op : Option Nat} (h : s.Canon) :
    (s.lineWrite pa bs w comp op).Canon := h.putBytes.setLineTs.forwardWrite

theorem markDirty {dirtymap pa : Nat} (h : s.Canon) : (s.markDirty dirtymap pa).Canon := h.roomFor.lineWrite

theorem homeWrite {pa : Nat} {bs : List Byte} {clk : Nat} {dirty : Option Nat} {comp : Bool} {op : Option Nat} (h : s.Canon) :
    (s.homeWrite pa bs clk dirty comp op).1.Canon := by
  unfold State.homeWrite State.homeWriteAt
  split
  · dsimp only
    split
    · exact h.roomFor.lineWrite.markDirty
    · exact h.roomFor.lineWrite
  · exact h.putBytes

theorem homeRenew {line clk lease : Nat} (h : s.Canon) : (s.homeRenew line clk lease).1.Canon := h.roomFor.setLineTs

theorem raiseClock {k v : Nat} (h : s.Canon) : (s.raiseClock k v).Canon := h.modCore

theorem putRdc {d line : Nat} {c : Copy} (h : s.Canon) : (s.putRdc d line c).Canon := h

theorem dropOlder {d line wts : Nat} (h : s.Canon) : (s.dropOlder d line wts).Canon := by
  unfold State.dropOlder
  split
  · exact h
  · split <;> exact h

theorem closeLine {line : Nat} (h : s.Canon) : (s.closeLine line).Canon := by
  unfold State.closeLine
  split <;> exact h

theorem refreshRdc {d pa wts : Nat} {line : List Byte} {spoilt : Bool} (h : s.Canon) : (s.refreshRdc d pa wts line spoilt).Canon := by
  unfold State.refreshRdc
  split
  · exact h
  · split
    · exact h
    · split
      · exact h.dropOlder
      · exact h.closeLine.putRdc

theorem keepRdc {d line : Nat} {c : Copy} (h : s.Canon) : (s.keepRdc d line c).Canon := by
  unfold State.keepRdc
  split <;> exact h

theorem hostStore {pa : Nat} {bs : List Byte} {comp : Bool} (h : s.Canon) : (s.hostStore pa bs comp).Canon := by
  unfold State.hostStore
  dsimp only
  split
  · exact h.putBytes.storeBlock
  · exact h.putBytes

theorem hostWrite {d pa : Nat} {bs : List Byte} {comp : Bool} (h : s.Canon) : (s.hostWrite d pa bs comp).Canon :=
  keepRdc h.hostStore

theorem performWrite {k pa : Nat} {bs : List Byte} {clk : Nat} {dirty : Option Nat} {comp : Bool} {op : Option Nat} (h : s.Canon) :
    (s.performWrite k pa bs clk dirty comp op).1.Canon := by
  unfold State.performWrite
  split
  · exact h.hostWrite
  · exact h.homeWrite

theorem writeHome {k pa : Nat} {bs : List Byte} {clk : Nat} {dirty : Option Nat} {comp : Bool} (h : s.Canon) :
    (s.writeHome k pa bs clk dirty comp).1.Canon := by
  unfold State.writeHome
  dsimp only
  split
  · exact h.performWrite
  · exact h.performWrite.refreshRdc

theorem storeV {k ctx : Nat} {priv : Bool} {a : DWord} {bs : List Byte} {n : Nat} (h : s.Canon) :
    (s.storeV k ctx priv a bs n).1.Canon := by
  induction n generalizing s a bs with
  | zero => exact h
  | succ n ih =>
    unfold State.storeV
    split
    · exact h
    · dsimp only
      split
      · exact h
      · exact ih h.noteTlb.writeHome

/-! ## Records in memory (R274), code (R377) -/

theorem storeRec {k ctx : Nat} {base : DWord} {ps : List Piece} (h : s.Canon) : (s.storeRec k ctx base ps).Canon :=
  h.foldl fun _ _ ht => ht.storeV

theorem poisonRec {k ctx : Nat} {as : List DWord} (h : s.Canon) : (s.poisonRec k ctx as).Canon := by
  refine h.foldl fun t a ht => ?_
  split
  · exact ht.poisonHome
  · exact ht

theorem noteFetch {k ctx : Nat} {e : CodeEntry} {pc : DWord} {n : Nat} (h : s.Canon) : (s.noteFetch k ctx e pc n).Canon :=
  h.notePages.notePages.notePages

/-! ## Barrier words (R293 to R298) -/

theorem setBar {k launch sc id : Nat} {w : Word} {clk : Nat} (h : s.Canon) : (s.setBar k launch sc id w clk).Canon := by
  unfold State.setBar
  split
  · exact h.modCore
  · exact h.modCore
  · exact h

theorem barComplete {k launch sc id : Nat} (h : s.Canon) : (s.barComplete k launch sc id).Canon := by
  unfold State.barComplete
  dsimp only
  split
  · exact h.setBar
  · exact h

theorem barArrive {k launch sc id : Nat} (h : s.Canon) : (s.barArrive k launch sc id).Canon := by
  unfold State.barArrive
  refine barComplete ?_
  split
  · exact h.setBar
  · exact h.setBar.raiseClock
  · exact h.setBar.modDie

theorem barLeave {k launch sc id : Nat} (h : s.Canon) : (s.barLeave k launch sc id).Canon := h.raiseClock.setBar

theorem withdraw {k launch : Nat} {w : Wait} (h : s.Canon) : (s.withdraw k launch w).Canon := by
  unfold State.withdraw
  split
  · dsimp only
    split
    · exact h
    · exact h.setBar
  · exact h

/-! ## Call records (R32, R34) -/

theorem noteSpill {k : Nat} {g : Group} (h : s.Canon) : (s.noteSpill k g).Canon := by
  unfold State.noteSpill
  split
  · exact h
  · exact h.notePages

/-- A spill that serves writes the shadow to memory. -/
theorem spill {k : Nat} {g : Group} {p : State × Group} (h : s.Canon) (e : s.spill k g = .ok p) : p.1.Canon := by
  obtain ⟨fault, hf⟩ : ∃ fault : Nat → Option (Cause × DWord), ∀ j, s.recFault k g .store j = fault j := ⟨_, fun _ => rfl⟩
  simp only [State.spill, hf] at e
  split at e
  · cases e; exact h
  · split at e <;> cases e
    exact h.noteSpill.storeRec.poisonRec

theorem fillReq {k f lane req : Nat} {es : List (BitVec 5)} {vs : List Word} (h : s.Canon) : (s.fillReq k f lane req es vs).Canon := by
  unfold State.fillReq
  split
  · exact h
  · exact h.setGroup.storeRec

/-! ## Stops (R176, R221, R265) -/

theorem reissue {k f : Nat} {w : Wait} (h : s.Canon) : (s.reissue k f w).Canon := h.modGroup

theorem abandonWait {k f : Nat} {w : Wait} (h : s.Canon) : (s.abandonWait k f w).Canon := by
  unfold State.abandonWait
  split
  · exact h
  · split
    · exact h
    · split
      · split
        · exact h.barLeave.modGroup
        · exact h.withdraw.modGroup
      · exact h.modCore.modGroup

theorem abandonWaits {k f : Nat} (h : s.Canon) : (s.abandonWaits k f).Canon := h.foldl fun _ _ ht => ht.abandonWait

theorem halt {k f : Nat} {st : Status} {flt : Option FaultRec} (h : s.Canon) : (s.halt k f st flt).Canon := h.abandonWaits.modGroup

theorem stopWhere {p : Nat → Group → Bool} {st : Status} (h : s.Canon) : (s.stopWhere p st).Canon := by
  refine h.foldl fun t x ht => ?_
  split
  · split
    · exact ht.halt
    · exact ht
  · exact ht

theorem haltDebug {k f : Nat} (h : s.Canon) : (s.haltDebug k f).Canon := by
  unfold State.haltDebug
  split
  · exact h
  · split
    · exact h.halt
    · split
      · exact h.setGroup
      · exact h.setGroup
      · exact h

theorem allStop {k : Nat} {g : Group} (h : s.Canon) : (s.allStop k g).Canon := by
  unfold State.allStop
  split
  · exact h.foldl fun _ _ ht => ht.haltDebug
  · exact h

theorem stopFaulted {k f : Nat} {g : Group} {r : FaultRec} {nested hfail : Bool} (h : s.Canon) :
    (s.stopFaulted k f g r nested hfail).Canon := h.setGroup.halt.tell.allStop

theorem stopGrid {k f : Nat} {g : Group} {r : FaultRec} (h : s.Canon) : (s.stopGrid k f g r).Canon := h.stopFaulted.stopWhere.modLaunch

/-! ## Taking a fault (R261 to R267) -/

theorem noteStart {k ctx : Nat} {a : DWord} (h : s.Canon) : (s.noteStart k ctx a).Canon := by
  unfold State.noteStart
  split
  · exact h.notePages.notePages
  · exact h

theorem noteEntry {k ctx : Nat} {priv : Bool} {i : Nat} (h : s.Canon) : (s.noteEntry k ctx priv i).Canon := by
  unfold State.noteEntry
  dsimp only
  split
  · exact h.notePages
  · exact h.notePages.noteStart

theorem enterHandler {k f : Nat} {g : Group} {mask : BitVec 8} {r : FaultRec} (h : s.Canon) : (s.enterHandler k f g mask r).Canon := by
  have ht : (s.noteEntry k g.ctx g.priv g.hdr.handler).Canon := h.noteEntry
  unfold State.enterHandler
  split
  · exact h.stopFaulted
  · dsimp only
    split
    · exact ht.stopFaulted
    · split
      · split
        · exact ht.stopFaulted
        · split
          · exact ht.noteSpill.stopFaulted
          · next e => exact (ht.spill e).setGroup
      · exact ht.stopFaulted

theorem deliver {k f : Nat} {g : Group} {mask : BitVec 8} {r : FaultRec} (h : s.Canon) : (s.deliver k f g mask r).Canon := by
  unfold State.deliver
  split
  · exact h.setGroup.halt.allStop
  split
  · exact h.stopFaulted
  split
  · exact h.stopFaulted
  split
  · exact h.enterHandler
  split
  · exact h.stopGrid
  · exact h.stopFaulted

theorem raise {k f : Nat} {mask : BitVec 8} {r : FaultRec} (h : s.Canon) : (s.raise k f mask r).Canon := by
  unfold State.raise
  split
  · exact h
  · split
    · split
      · exact h
      · exact h.setGroup
    · split
      · exact h.halt.tell.allStop
      · split
        · exact h
        · exact h.deliver
    · exact h

theorem raiseDue {k f : Nat} {d : Due} (h : s.Canon) : (s.raiseDue k f d).Canon := by
  unfold State.raiseDue
  split
  · exact h
  · split
    · split
      · exact h.deliver
      · exact h.raise
    · exact h.setGroup

theorem takeDue {k f : Nat} {d : Due} (h : s.Canon) : (s.takeDue k f d).Canon := by
  unfold State.takeDue
  refine raiseDue ?_
  split
  · exact h.modGroup.modCore
  · exact h.modGroup

theorem faultHere {c : Cause} {a : DWord} (h : s.Canon) : (s.faultHere c a).Canon := h.raise

theorem faultLogged {e : LogEntry} (h : s.Canon) : (s.faultLogged e).Canon := h.raise

theorem faultPoison {p : PoisonMark} (h : s.Canon) : (s.faultPoison p).Canon := h.raise

/-! ## Waits (R17, R210, R221) -/

theorem waitFor {g : Group} {ids : List Nat} (h : s.Canon) : (s.waitFor g ids).Canon := by
  unfold State.waitFor
  split
  · exact h.faultLogged
  · exact h

theorem waitHere {i : Instr} (h : s.Canon) : (s.waitHere i).Canon := by
  unfold State.waitHere
  split
  · exact h
  · exact h.modGroup

theorem waitLatched {i : Instr} {vals : List Nat} (h : s.Canon) : (s.waitLatched i vals).Canon := h.modGroup

theorem waitEvent {i : Instr} {vals : List Nat} (h : s.Canon) : (s.waitEvent i vals).Canon := h.modGroup

theorem askReplay {k f : Nat} (h : s.Canon) : (s.askReplay k f).Canon := h.modGroup.prepend

/-! ## The debugger's step (R177) -/

theorem raiseStep {k f : Nat} {g : Group} {slice : Nat} (h : s.Canon) : (s.raiseStep k f g slice).Canon := by
  unfold State.raiseStep
  dsimp only
  split
  · exact h.setGroup.modCore
  · exact h.modCore.raise

theorem reportStep {k f : Nat} {mask : BitVec 8} (h : s.Canon) : (s.reportStep k f mask).Canon := by
  unfold State.reportStep
  dsimp only
  split
  · split
    · exact h.raiseStep
    · exact h.modCore
  · exact h

theorem endWait {k f : Nat} {w : Wait} {u : Group → Group} (h : s.Canon) : (s.endWait k f w u).Canon := h.modGroup.reportStep

end State.Canon

end Sys2Proof.Machine
end

