-- ==== Sys2Proof/Proofs/CanonIssue.lean ====
section
/-! The gate of an instruction, control flow and accesses up to the moment they are sent off keep the canonical form of every memory. -/

namespace Sys2Proof.Machine

open Sys2Proof

-- One proof at a time: in parallel, the stacks of the threads exceed the memory that the check allows.
set_option Elab.async false

namespace State.Canon

variable {s : State}

/-! ## The gate and the shapes of a meaning (R10, R17, R76, R113) -/

theorem checked {i : Instr} {k : Group → Res} (h : s.Canon) (hk : ∀ g, Res.Canon (k g)) : Res.Canon (s.checked i k) := by
  unfold State.checked
  split
  · trivial
  · split
    · exact h.faultHere
    · exact hk _

theorem unblocked {i : Instr} {g : Group} {k : Res} (h : s.Canon) (hk : Res.Canon k) : Res.Canon (s.unblocked i g k) := by
  unfold State.unblocked
  split
  · split
    · exact h.faultPoison
    · exact hk
  · exact h.waitFor

theorem gate {i : Instr} {k : Group → Res} (h : s.Canon) (hk : ∀ g, Res.Canon (k g)) : Res.Canon (s.gate i k) :=
  h.checked fun g => h.unblocked (hk g)

theorem laneOp {i : Instr} {r : Group → Fin 32 → Lane → List Word} (h : s.Canon) : Res.Canon (s.laneOp i r) :=
  h.gate fun _ => h.finish

theorem reserveFor {lane : Fin 32} {n : Nat} {r : Req} (h : s.Canon) : (s.reserveFor lane n r).Canon := by
  unfold State.reserveFor
  split
  · exact h
  · next g _ => exact h.setGroup (g := { g with lanes := g.lanes.set lane (g.lanes[lane].reserve s.nextReq n) })

theorem longOp {i : Instr} {r : Group → Fin 32 → Lane → List Word} (h : s.Canon) : Res.Canon (s.longOp i r) :=
  h.gate fun _ => (h.foldl fun _ _ ht => ht.reserveFor).advance

theorem scalarOp {i : Instr} {u : Group → Group} (h : s.Canon) : Res.Canon (s.scalarOp i u) := h.gate fun _ => h.finish

theorem vOp {i : Instr} {op : Nat} {f : VFields} {r : Nat → Nat → Nat → List Word} (h : s.Canon) : Res.Canon (s.vOp i op f r) := by
  unfold State.vOp
  dsimp only
  split
  · exact h.longOp
  · exact h.laneOp

/-! ## Control flow (R154 to R172, R269) -/

theorem jump {g : Group} {a : DWord} (h : s.Canon) : (s.jump g a).Canon := h.setGroup

theorem uniform {i : Instr} {off : Word} {test : Group → Bool} {u : Group → Group} (h : s.Canon) :
    Res.Canon (s.uniform i off test u) := by
  refine h.gate fun g => ?_
  dsimp only
  split
  · exact h.faultHere
  · split
    · exact h.jump
    · exact h.finish

theorem fork {g : Group} {e : Nat} {target junction : DWord} {take : BitVec 32} (h : s.Canon) :
    (s.fork g e target junction take).Canon := h.setGroup

theorem perLane {i : Instr} {c : Operand} {junc target : Int} {takes : Nat → Bool} (h : s.Canon) :
    Res.Canon (s.perLane i c junc target takes) := by
  refine h.checked fun g => ?_
  dsimp only
  split
  · exact h.faultHere
  · split
    · exact h.faultHere
    · exact h.unblocked h.fork

theorem joinReady {g : Group} {sels : List Nat} {k : Res} (h : s.Canon) (hk : Res.Canon k) : Res.Canon (s.joinReady g sels k) := by
  unfold State.joinReady
  split
  · split
    · exact h.faultPoison
    · exact hk
  · exact h.waitFor

theorem execJoin {f : JoinFields} (h : s.Canon) : Res.Canon (execJoin f s) := by
  refine h.checked fun g => ?_
  dsimp only
  split
  · exact h.faultHere
  · split
    · exact h.faultHere
    · exact h.joinReady h.setGroup

theorem settled {g : Group} {k : Res} (h : s.Canon) (hk : Res.Canon k) : Res.Canon (s.settled g k) := by
  unfold State.settled
  split
  · exact hk
  · exact h.waitFor

theorem clean {g : Group} {ages : Nat} {k : Res} (h : s.Canon) (hk : Res.Canon k) : Res.Canon (s.clean g ages k) := by
  unfold State.clean
  split
  · exact h.faultPoison
  · exact hk

theorem spilled {g : Group} {k : State → Group → Res} (h : s.Canon) (hk : ∀ t x, t.Canon → Res.Canon (k t x)) :
    Res.Canon (s.spilled g k) := by
  unfold State.spilled
  split
  · exact h.noteSpill.faultHere
  · next e => exact hk _ _ (h.spill e)

theorem noteRecs {g : Group} (h : s.Canon) : (s.noteRecs g).Canon := by
  unfold State.noteRecs
  split
  · exact h
  · exact h.notePages

theorem fetched {g : Group} {k : State → Group → Res} (h : s.Canon) (hk : ∀ t x, t.Canon → Res.Canon (k t x)) :
    Res.Canon (s.fetched g k) := by
  unfold State.fetched
  dsimp only
  split
  · exact h.noteRecs.faultHere
  · exact hk _ _ h.noteRecs

theorem execCall {n : BitVec 4} {off : Word} (h : s.Canon) : Res.Canon (execCall n off s) := by
  refine h.gate fun g => ?_
  dsimp only
  split
  · exact h.faultHere
  · split
    · exact h.faultHere
    · exact h.settled (h.clean (h.spilled fun _ _ ht => ht.setGroup))

theorem execCalli {n : BitVec 4} {idx : Operand} {sig : Word} (h : s.Canon) : Res.Canon (execCalli n idx sig s) := by
  refine h.gate fun g => ?_
  dsimp only
  split
  · exact h.faultHere
  · split
    · exact h.faultHere
    · split
      · exact h.faultHere
      · exact h.settled (h.clean (h.spilled fun _ _ ht => ht.setGroup))

theorem execRet {n : BitVec 4} (h : s.Canon) : Res.Canon (execRet n s) := by
  refine h.checked fun g => ?_
  split
  · exact h.faultHere
  · split
    · exact h.faultHere
    · refine h.settled (h.fetched fun t x ht => ?_)
      split
      · exact ht.faultHere
      · exact h.clean ht.setGroup

theorem skipLogged {k f : Nat} {mask : BitVec 8} {flt : FaultRec} (h : s.Canon) : (s.skipLogged k f mask flt).Canon := by
  unfold State.skipLogged
  split
  · exact h
  · dsimp only
    split
    · exact (h.foldl fun _ _ ht => ht.fillReq).modGroup
    · split
      · exact h
      · exact h.setGroup

theorem resumeLogged {k f : Nat} {mask : BitVec 8} {flt : Option FaultRec} {skip : Bool} (h : s.Canon) :
    (s.resumeLogged k f mask flt skip).Canon := by
  unfold State.resumeLogged
  split
  · split
    · split
      · exact h.skipLogged
      · exact h.askReplay
    · exact h
  · exact h

theorem execEret (h : s.Canon) : Res.Canon (execEret s) := by
  refine h.checked fun g => ?_
  dsimp only
  split
  · exact h.faultHere
  · split
    · exact h.faultHere
    · refine h.fetched fun t x ht => ?_
      split
      · exact ht.faultHere
      · refine h.settled ?_
        split
        · exact ht.faultHere
        · split
          · exact ht.setGroup.stopFaulted
          · exact ht.setGroup.foldl fun _ _ hu => hu.resumeLogged

/-! ## Accesses sent off (R200 to R211, R417) -/

theorem faultAccess {g : Group} {as : List (Option Nat × DWord)} {x : Cause × DWord} (h : s.Canon) : (s.faultAccess g as x).Canon :=
  faultHere (h.foldl fun _ _ ht => ht.noteWalk)

theorem memGate {i : Instr} {k : Group → Res} (h : s.Canon) (hk : ∀ g, Res.Canon (k g)) : Res.Canon (s.memGate i k) := by
  refine h.gate fun g => ?_
  split
  · exact h
  · split
    · exact hk g
    · exact h.waitFor

theorem withPlaces {g : Group} {n : Nat} {k : Res} (h : s.Canon) (hk : Res.Canon k) : Res.Canon (s.withPlaces g n k) := by
  unfold State.withPlaces
  split
  · exact hk
  · dsimp only
    split
    · exact h
    · exact h.waitFor

theorem send {r : Req} (h : s.Canon) : (s.send r).Canon := h

theorem startBacks {k f seq : Nat} {mask : BitVec 8} {pc : DWord} (h : s.Canon) : (s.startBacks k f seq mask pc).Canon :=
  h.foldl fun _ _ ht => ht.modCore.send

theorem releaseDone {k f : Nat} (h : s.Canon) : (s.releaseDone k f).Canon := by
  unfold State.releaseDone
  split
  · exact h
  · refine modGroup ?_
    split <;> exact h.raiseClock

theorem fabricRelease {release : Bool} {sc : Scope} {g : Group} {k : State → Group → Res} (h : s.Canon)
    (hk : ∀ t x, t.Canon → Res.Canon (k t x)) : Res.Canon (s.fabricRelease release sc g k) := by
  unfold State.fabricRelease
  split
  · dsimp only
    split
    · exact h
    · split
      · exact h.startBacks
      · split
        · exact h
        · split
          · exact hk _ _ h.releaseDone
          · exact h
          · exact h.faultLogged
          · exact h.faultHere
  · exact hk _ _ h

theorem patchL1 {k pa : Nat} {bs : List Byte} (h : s.Canon) : (s.patchL1 k pa bs).Canon := by
  unfold State.patchL1
  split
  · exact h
  · exact h.modCore

theorem sent {flag : Option Nat} (h : s.Canon) : (s.sent flag).Canon := h.modGroup.advance

theorem sendLoad {g : Group} {r : Req} {n : Fin 32} {part : Nat × Nat} (h : s.Canon) : (s.sendLoad g r n part).Canon := by
  unfold State.sendLoad
  dsimp only
  split
  · split
    · exact h.noteXlate.reserveFor
    · exact h.reserveFor
  · exact h.reserveFor
  · split
    · exact h
    · exact h.reserveFor

theorem execLd {f : MFields} (h : s.Canon) : Res.Canon (execLd f s) := by
  refine h.memGate fun g => ?_
  dsimp only
  split
  · exact h.faultHere
  · split
    · exact h
    · exact h.withPlaces (sent (h.foldl fun _ _ ht => ht.foldl fun _ _ hu => hu.sendLoad))

/-- A translation noted for a request in the state in the making. -/
theorem placeAt {t : State} {g : Group} {lane : Option Nat} {acc : Acc} {r : Req} {p : State × Req} (h : t.Canon)
    (e : s.placeAt t g lane acc r = some p) : p.1.Canon := by
  unfold State.placeAt at e
  split at e <;> cases e
  exact h.noteXlate

theorem execPref {f : MFields} (h : s.Canon) : Res.Canon (execPref f s) := by
  refine h.memGate fun g => ?_
  have walked : ∀ as : List (Fin 32 × DWord), (as.foldl (fun (t : State) a =>
      match s.lookup s.iss.core (some (lastReg s.iss.frame a.1.val)) g.ctx a.2 with
      | some e => t.noteXlate s.iss.core (some (lastReg s.iss.frame a.1.val)) a.2 e
      | none => t) s).Canon := fun as => h.foldl fun t a ht => by
    split
    · exact ht.noteXlate
    · exact ht
  dsimp only
  split
  · exact h
  · split
    · exact (walked _).finish
    · exact sent ((walked _).foldl fun _ _ ht => ht.send)

theorem execRenew {f : MFields} (h : s.Canon) : Res.Canon (execRenew f s) := by
  refine h.memGate fun g => ?_
  dsimp only
  split
  · exact h.faultAccess
  · split
    · exact h
    · refine sent (h.foldl fun t a ht => ?_)
      split
      · next e => exact (ht.placeAt e).send
      · exact ht

theorem execWaitv {f : MFields} (h : s.Canon) : Res.Canon (execWaitv f s) := by
  refine h.memGate fun g => ?_
  dsimp only
  split
  · exact h.faultAccess
  · split
    · split
      · exact h
      · refine h.withPlaces (sent (h.foldl fun t a ht => ?_))
        split
        · next e => exact (ht.placeAt e).reserveFor
        · exact ht
    · exact h.waitFor

theorem sendStore {t : State} {g : Group} {lane : Option Nat} {r : Req} {bs : List Byte} {part : Nat × Nat} (h : t.Canon) :
    (s.sendStore t g lane r bs part).Canon := by
  unfold State.sendStore
  dsimp only
  split
  · split
    · next e => exact (h.placeAt e).send.patchL1
    · exact h
  · split
    · exact h
    · exact h.send

theorem execSt {f : MFields} (h : s.Canon) : Res.Canon (execSt f s) := by
  refine h.memGate fun g => ?_
  dsimp only
  split
  · exact h.faultAccess
  · split
    · refine h.fabricRelease fun t x ht => ?_
      split
      · exact ht
      · exact sent (ht.setGroup.foldl fun _ _ hu => hu.foldl fun _ _ hv => hv.sendStore)
    · exact h.waitFor

theorem atomicOp {i : Instr} {op : AtomOp} {f : MFields} (h : s.Canon) : Res.Canon (s.atomicOp i op f) := by
  refine h.memGate fun g => ?_
  dsimp only
  split
  · exact h.faultAccess
  · split
    · refine h.fabricRelease fun t x ht => ?_
      split
      · exact ht
      · refine sent (ht.setGroup.foldl fun u a hu => ?_)
        split
        · split
          · next e => exact (hu.placeAt e).reserveFor
          · exact hu
        · split
          · exact hu.reserveFor
          · exact hu
    · exact h.waitFor

theorem sSend {g : Group} {acc : Acc} {r : Req} {patch : Bool} (h : s.Canon) : Res.Canon (s.sSend g acc r patch) := by
  unfold State.sSend
  split
  · exact h
  · split
    · next e =>
      refine sent ?_
      split
      · exact (h.placeAt e).send.patchL1
      · exact (h.placeAt e).send
    · exact h

theorem execSld {f : SFields} (h : s.Canon) : Res.Canon (execSld f s) := by
  refine h.memGate fun g => ?_
  dsimp only
  split
  · exact h.faultAccess
  · exact h.withPlaces h.sSend

theorem execSst {f : SFields} (h : s.Canon) : Res.Canon (execSst f s) := by
  refine h.memGate fun g => ?_
  dsimp only
  split
  · exact h.faultAccess
  · split
    · exact h.sSend
    · exact h.waitFor

theorem execSatom {f : SFields} (h : s.Canon) : Res.Canon (execSatom f s) := by
  refine h.memGate fun g => ?_
  dsimp only
  split
  · exact h.faultAccess
  · split
    · exact h.sSend
    · exact h.waitFor

end State.Canon

end Sys2Proof.Machine
end

