-- ==== Sys2Proof/Proofs/CanonAccess.lean ====
section
/-! Accesses in flight keep the canonical form of every memory: translation, homes, replies, arrivals, scratch, block fills and replay. -/

namespace Sys2Proof.Machine

open Sys2Proof

-- One proof at a time: in parallel, the stacks of the threads exceed the memory that the check allows.
set_option Elab.async false

/-! ## Updates of a core -/

namespace Core.Canon

variable {c : Core}

/-- Steps each of which keeps the form keep it together. -/
theorem foldl {α : Type} {u : Core → α → Core} {xs : List α} (h : c.Canon) (hu : ∀ d a, d.Canon → (u d a).Canon) :
    (xs.foldl u c).Canon := by
  induction xs generalizing c with
  | nil => exact h
  | cons a xs ih => exact ih (hu c a h)

theorem setStatus {w : Nat} {v : BitVec 2} (h : c.Canon) : (c.setStatus w v).Canon := h

theorem fillL1 {line : Nat} {x : Copy} {hint : Hint} (h : c.Canon) : (c.fillL1 line x hint).Canon := by
  unfold Core.fillL1
  split <;> exact h

theorem useL1 {line : Nat} (h : c.Canon) : (c.useL1 line).Canon := by
  unfold Core.useL1
  split <;> exact h

theorem dropOlder {line wts : Nat} (h : c.Canon) : (c.dropOlder line wts).Canon := by
  unfold Core.dropOlder
  split
  · split <;> exact h
  · exact h

/-- Bytes written to scratch. -/
theorem storeScratch {p : Nat} {bs : List Byte} (h : c.Canon) : (c.storeScratch p bs).Canon := by
  obtain ⟨hs, hr, hb⟩ := h
  have hw : CanonStores (Memory.write c.scratch p bs) c.rack c.banks := ⟨Memory.wf_write bs hs p, hr, hb⟩
  unfold Core.storeScratch
  dsimp only
  split
  · exact hw
  · refine foldl hw fun d w hd => ?_
    split
    · exact hd.setStatus
    · exact hd

theorem touchScratch {p n : Nat} (h : c.Canon) : (c.touchScratch p n).Canon := by
  unfold Core.touchScratch
  split
  · exact h.foldl fun _ _ hd => hd.setStatus
  · exact h

theorem poisonScratch {ws : List Nat} (h : c.Canon) : (c.poisonScratch ws).Canon := h

/-- A block's bytes written to the words of scratch that are not dirty. -/
theorem fillBlock {m : MapRange} {block : Nat} {bs : List Byte} {rts : Nat} {poison : Bool} (h : c.Canon) :
    (c.fillBlock m block bs rts poison).Canon := by
  unfold Core.fillBlock
  refine foldl h fun d j hd => ?_
  dsimp only
  split
  · exact hd
  · exact ⟨Memory.wf_write _ hd.1 _, hd.2⟩

end Core.Canon

/-- What a release finds, in its canonical form. -/
def Released.Canon : Released → Prop
  | .hold t => t.Canon
  | .go t => t.Canon

theorem Released.Canon.hold {t : State} (h : Released.Canon (.hold t)) : t.Canon := h

theorem Released.Canon.go {t : State} (h : Released.Canon (.go t)) : t.Canon := h

namespace State.Canon

variable {s : State}

/-! ## Requests -/

theorem modReq {id : Nat} {u : Req → Req} (h : s.Canon) : (s.modReq id u).Canon := h

theorem doneReq {r : Req} (h : s.Canon) : (s.doneReq r).Canon := by
  unfold State.doneReq
  dsimp only
  split
  · exact h
  · exact modGroup h

theorem asyncFault {r : Req} {c : Cause} {a : DWord} (h : s.Canon) : (s.asyncFault r c a).Canon := h.modGroup

theorem logReq {r : Req} {c : Cause} {a : DWord} (h : s.Canon) : (s.logReq r c a).Canon := modGroup h

theorem backError {r : Req} {c : Cause} (h : s.Canon) : (s.backError r c).Canon := by
  have h1 : State.Canon { s with reqs := s.reqs.filter fun q => q.id != r.id } := h
  unfold State.backError
  dsimp only
  split
  · split
    · exact h1.tell
    · exact h1
  · split
    · exact h1.modGroup
    · exact h1.asyncFault

theorem execWalkComplete {req : Nat} (h : s.Canon) : Res.Canon (execWalkComplete req s) := by
  unfold Machine.execWalkComplete
  split
  · exact h
  · extract_lets priv acc
    clear_value priv acc
    refine .either h (.either h (.either ?_ ?_))
    · split
      · exact .either h.backError h.noteXlate
      · exact .either (.either h.tell h.noteWalk.backError) h.noteWalk.logReq
    · split
      · exact h.modReq
      · extract_lets
        split
        · exact .either h.noteTlb.logReq h.noteTlb
        · exact h.noteWalk.logReq

/-! ## Releases and homes (R204, R309, R334) -/

theorem release {k f seq : Nat} {sc : Scope} {mask : BitVec 8} {pc : DWord} {wb : Option Nat} {mark : Nat → State → State}
    (h : s.Canon) (hm : ∀ op t, t.Canon → (mark op t).Canon) : Released.Canon (s.release k f seq sc mask pc wb mark) := by
  unfold State.release
  split
  · exact h
  · split
    · exact h.releaseDone
    · split
      · exact hm _ _ h.startBacks
      · split
        · exact h
        · exact h.releaseDone

theorem releaseReq {r : Req} (h : s.Canon) : Released.Canon (s.releaseReq r) := by
  unfold State.releaseReq
  split
  · exact h.release fun _ _ ht => ht
  · exact h

theorem releaseHolds {r : Req} {t : State} (h : s.Canon) (e : s.releaseReq r = .hold t) : t.Canon := by
  have := h.releaseReq (r := r)
  rwa [e] at this

theorem releaseGoes {r : Req} {t : State} (h : s.Canon) (e : s.releaseReq r = .go t) : t.Canon := by
  have := h.releaseReq (r := r)
  rwa [e] at this

theorem execHomeStore {req : Nat} {evict : List Nat} (h : s.Canon) : Res.Canon (execHomeStore req evict s) := by
  unfold Machine.execHomeStore
  split
  · exact h
  · split
    · exact h
    · split
      · split
        · exact h
        · split
          · next e => exact h.releaseHolds e
          · next e => exact (h.releaseGoes e).modReq
      · split
        · next e => exact h.releaseHolds e
        · next e =>
          exact .either (h.releaseGoes e).backError (h.releaseGoes e).evictAll.performWrite

theorem execHomeAtomic {req : Nat} {evict : List Nat} (h : s.Canon) : Res.Canon (execHomeAtomic req evict s) := by
  unfold Machine.execHomeAtomic
  split
  · exact h
  · split
    · split
      · exact h
      · split
        · split
          · exact h
          · exact h.modReq
        · split
          · next e => exact h.releaseHolds e
          · next e =>
            have h2 : (State.evictAll _ evict).Canon := (h.releaseGoes e).evictAll
            dsimp only
            split
            · refine modReq ?_
              split
              · exact h2
              · exact h2.dropOlder
            · refine modReq ?_
              split
              · exact h2.performWrite.poisonHome
              · exact h2.performWrite
    · exact h

theorem replyWith {r : Req} {wts rts : Nat} {line : List Byte} {x : Crossing} (h : s.Canon) : (s.replyWith r wts rts line x).Canon := h

theorem replyCached {r : Req} {wts rts : Nat} {line : List Byte} (h : s.Canon) : (s.replyCached r wts rts line).Canon := h

theorem execHomeRenewal {req : Nat} {evict : List Nat} (h : s.Canon) : Res.Canon (execHomeRenewal req evict s) := by
  unfold Machine.execHomeRenewal
  split
  · exact h
  · dsimp only
    split
    · exact h
    · split
      · exact h.replyCached
      · split
        · exact h.evictAll.homeRenew.replyWith
        · exact h.evictAll.homeRenew.replyWith.keepRdc

theorem execHomeRead {req : Nat} (h : s.Canon) : Res.Canon (execHomeRead req s) := by
  unfold Machine.execHomeRead
  split
  · exact h
  · dsimp only
    split
    · exact h
    · split
      · split
        · exact h.modReq
        · exact h.modReq
      · split
        · exact h.replyWith.modReq.keepRdc
        · exact h.dropOlder.replyWith

/-! ## Replies and arrivals (R187, R312, R334, R414, R423) -/

theorem installCopy {r : Req} (h : s.Canon) : (s.installCopy r).Canon := by
  unfold State.installCopy
  exact .either (h.modCore fun _ hc => hc.dropOlder) (.either (h.modCore fun _ hc => hc.fillL1) h)

theorem copyRefused {r : Req} {c : Cause} (h : s.Canon) : (s.copyRefused r c).Canon := by
  unfold State.copyRefused
  refine modCore h fun c hc => ?_
  split
  · split <;> exact hc
  · exact hc

theorem countRetries {port n : Nat} (h : s.Canon) : (s.countRetries port n).Canon := h

theorem remoteAnswer {r : Req} {x : RemoteReply} (h : s.Canon) : (s.remoteAnswer r x).Canon := by
  induction x generalizing s with
  | none => exact h
  | retried port n x ih => exact ih h.countRetries
  | refused =>
    unfold State.remoteAnswer
    split
    · exact h.copyRefused
    · split
      · exact h.asyncFault.doneReq
      · split
        · exact h.doneReq
        · exact h.logReq
  | error =>
    unfold State.remoteAnswer
    split
    · exact h.copyRefused
    · split
      · exact h.asyncFault.doneReq
      · exact h.modReq.prepend
  | data bs w =>
    unfold State.remoteAnswer
    dsimp only
    split
    · split
      · exact h.modReq
      · exact h.modReq.prepend
    · refine prepend ?_
      split
      · exact h.modReq.putRdc
      · exact h.modReq

theorem execRenewalReply {req : Nat} {ext : RemoteReply} (h : s.Canon) : Res.Canon (execRenewalReply req ext s) := by
  unfold Machine.execRenewalReply
  split
  · exact h
  · split
    · exact h
    · split
      · exact h.remoteAnswer
      · split
        · exact h
        · exact h.installCopy.modReq.prepend

theorem readDone {r : Req} (h : s.Canon) : (s.readDone r).Canon := by
  unfold State.readDone
  split
  · exact h
  · have h1 {u} : (if r.dev then s else s.modGroup r.core r.frame u).Canon := .either h h.modGroup
    exact .either (.either (raiseClock (.either h1 h1.raiseClock)) (.either h1 h1.raiseClock)) h1

theorem ackRemote {r : Req} (h : s.Canon) : (s.ackRemote r).Canon := h.modGroup

theorem patchAtomic {r : Req} (h : s.Canon) : (s.patchAtomic r).Canon := by
  unfold State.patchAtomic
  split
  · exact h.modCore fun _ hc => hc.dropOlder
  · split
    · have h1 : (if r.line.isEmpty then s else s.refreshRdc (dieOf r.core) r.pa r.wts r.line r.spoilt).Canon := by
        split
        · exact h
        · exact h.refreshRdc
      dsimp only
      split
      · exact h1
      · exact h1.modCore
    · exact h

theorem drainPoisoned {before : Group} {r : Req} (h : s.Canon) : (s.drainPoisoned before r).Canon := by
  unfold State.drainPoisoned
  dsimp only
  split
  · exact h.raise
  · exact h

theorem fillLane {r : Req} {bs : List Byte} (h : s.Canon) : (s.fillLane r bs).Canon := by
  unfold State.fillLane
  split
  · exact h
  · dsimp only
    split
    · exact h.fillReq.modGroup.drainPoisoned
    · exact h.fillReq

theorem complete {r : Req} {bs : List Byte} (h : s.Canon) : (s.complete r bs).Canon := by
  unfold State.complete
  refine doneReq (readDone ?_)
  split
  · exact h.patchAtomic.fillLane.ackRemote
  · exact h.patchAtomic.fillLane

theorem waitvRead {r : Req} {bs : List Byte} (h : s.Canon) : (s.waitvRead r bs).Canon := by
  unfold State.waitvRead
  split
  · exact .either h h.modReq
  · exact h.complete

theorem completeLane {r : Req} (h : s.Canon) : (s.completeLane r).Canon := by
  unfold State.completeLane
  dsimp only
  split
  · exact h.foldl fun _ _ ht => ht.complete
  · exact h

theorem execLoadDataArrival {req : Nat} (h : s.Canon) : Res.Canon (execLoadDataArrival req s) := by
  unfold Machine.execLoadDataArrival
  split
  · exact h
  · split
    · exact h
    · split
      · split
        · exact h
        · split
          · exact h.waitvRead
          · split
            · exact h.doneReq
            · exact h.completeLane
      · split
        · exact h
        · have h1 {k line} : (s.modCore k fun x => x.useL1 line).Canon := h.modCore fun _ hc => hc.useL1
          exact .either h1.waitvRead h1.modReq.completeLane

theorem completeScalar {r : Req} {bs : List Byte} (h : s.Canon) : (s.completeScalar r bs).Canon :=
  h.patchAtomic.modGroup.readDone.doneReq

theorem execScalarDataArrival {req : Nat} (h : s.Canon) : Res.Canon (execScalarDataArrival req s) := by
  unfold Machine.execScalarDataArrival
  split
  · exact h
  · split
    · exact h
    · split
      · split
        · exact h
        · exact h.completeScalar
      · split
        · exact h
        · exact completeScalar (h.modCore fun _ hc => hc.useL1)

theorem execLongResultReady {req : Nat} (h : s.Canon) : Res.Canon (execLongResultReady req s) := by
  unfold Machine.execLongResultReady
  split
  · exact h
  · split
    · exact h
    · exact h.fillReq

theorem execStoreAck {req : Nat} (h : s.Canon) : Res.Canon (execStoreAck req s) := by
  unfold Machine.execStoreAck
  split
  · exact h
  · split
    · exact h
    · split
      · exact h.ackRemote.doneReq
      · split
        · exact h
        · refine doneReq ?_
          split
          · split
            · exact h.modGroup.modLaunch
            · exact h.modGroup
          · refine refreshRdc ?_
            split
            · exact h.modGroup.modLaunch
            · exact h.modGroup

theorem execWaitvReread {req : Nat} (h : s.Canon) : Res.Canon (execWaitvReread req s) := by
  unfold Machine.execWaitvReread
  split
  · exact h
  · split
    · exact h
    · exact State.Canon.either h.modReq h

/-! ## Scratch, block fills and replay (R186, R212, R225) -/

theorem performScratch {req : Nat} {r : Req} (h : s.Canon) : (s.performScratch req r).Canon := by
  unfold State.performScratch
  split
  · exact h
  · split
    · split <;> exact h
    · dsimp only
      split
      · exact h.modReq.prepend
      · split
        · exact h
        · split
          · next e => exact h.releaseHolds e
          · next e => exact doneReq ((h.releaseGoes e).modCore fun _ hc => hc.storeScratch)
      · split
        · exact h
        · split
          · next e => exact h.releaseHolds e
          · next e =>
            refine prepend (modReq ?_)
            split
            · exact (h.releaseGoes e).modCore fun _ hc => hc.storeScratch.poisonScratch
            · exact (h.releaseGoes e).modCore fun _ hc => hc.touchScratch
      · exact h

theorem readBlock {k : Nat} {m : MapRange} {block : Nat} {p : State × List Byte × Nat × Bool} (h : s.Canon)
    (e : s.readBlock k m block = .ok p) : p.1.Canon := by
  unfold State.readBlock at e
  dsimp only at e
  split at e
  · cases e
  · split at e <;> cases e
    dsimp only
    split
    · exact h.noteTlb
    · exact h.noteTlb.homeRenew

theorem execBlockFill {k range block : Nat} (h : s.Canon) : Res.Canon (execBlockFill k range block s) := by
  unfold Machine.execBlockFill
  split
  · exact h
  · dsimp only
    split
    · exact h
    · split
      · refine State.Canon.either ?_ (modCore ?_) <;>
          exact h.foldl fun t r ht => .either ht ht
      · next e =>
        have h2 {m b bs rts poison} : (State.modCore _ k fun c => c.fillBlock m b bs rts poison).Canon :=
          (h.readBlock e).modCore fun _ hc => hc.fillBlock
        exact .either h.modCore (prepend (.either (mapSubs h2) h2))

theorem replayFrom {k f : Nat} {es : List LogEntry} (h : s.Canon) : (s.replayFrom k f es).Canon := by
  induction es generalizing s with
  | nil => exact h.modGroup
  | cons e es ih =>
    unfold State.replayFrom
    dsimp only
    split
    · exact h
    · exact ih (modGroup h)

theorem execReplay {k f : Nat} (h : s.Canon) : Res.Canon (execReplay k f s) := by
  unfold Machine.execReplay
  split
  · exact h
  · exact h.replayFrom

end State.Canon

end Sys2Proof.Machine
end

