-- ==== Sys2Proof/Proofs/CanonEngine.lean ====
section
/-! The engines keep the canonical form of every memory: places read and written, units, operations and handles. -/

namespace Sys2Proof.Machine

open Sys2Proof

-- One proof at a time: in parallel, the stacks of the threads exceed the memory that the check allows.
set_option Elab.async false

namespace Core.Canon

variable {c : Core}

theorem setHandle {idx : Nat} {x : HandleSlot} (h : c.Canon) : (c.setHandle idx x).Canon := h

theorem clearDirty {ws : List Nat} (h : c.Canon) : (c.clearDirty ws).Canon := h.foldl fun _ _ hd => hd.setStatus

/-- Words of scratch marked again in their status. -/
theorem setStatuses {js : List Nat} {w : Nat → Nat} {v : Core → Nat → BitVec 2} (h : c.Canon) :
    (js.foldl (fun (c : Core) j => c.setStatus (w j) (v c j)) c).Canon := h.foldl fun _ _ hd => hd.setStatus

end Core.Canon

namespace State.Canon

variable {s : State} {k : Nat}

theorem addLock {l : RangeLock} (h : s.Canon) : (s.addLock k l).Canon := h.modCore

theorem dropLocks {owner : Nat} (h : s.Canon) : (s.dropLocks k owner).Canon := h.mapCores

/-! ## Places (R216, R224, R225) -/

theorem ensure {need : Core → Nat → Nat → Bool} {ps : List (Nat × Nat)} {t : State} (h : s.Canon) (e : s.ensure k need ps = .ok t) :
    t.Canon := by
  induction ps generalizing s with
  | nil => cases e; exact h
  | cons p ps ih =>
    unfold State.ensure at e
    dsimp only at e
    split at e
    · exact ih h e
    · split at e
      · exact ih h e
      · split at e
        · cases e
        · split at e
          · cases e
          · next hr => exact ih ((h.readBlock hr).modCore fun _ hc => hc.fillBlock) e

theorem readPlace {ctx n : Nat} {priv : Bool} {p : Place} {q : State × List Byte} (h : s.Canon)
    (e : s.readPlace k ctx priv p n = .ok q) : q.1.Canon := by
  unfold State.readPlace at e
  split at e
  · split at e
    · cases e
    · split at e
      · cases e
      · split at e <;> cases e
        exact h.notePages
  · split at e
    · cases e
    · next he => split at e <;> cases e; exact h.ensure he
  · split at e <;> cases e
    exact h

theorem writePlace {ctx : Nat} {priv : Bool} {p : Place} {bs : List Byte} {q : State × Nat} (h : s.Canon)
    (e : s.writePlace k ctx priv p bs = .ok q) : q.1.Canon := by
  unfold State.writePlace at e
  split at e
  · split at e
    · cases e
    · split at e <;> cases e
      exact h.storeV
  · dsimp only at e
    split at e <;> cases e
    next he => exact (h.ensure he).modCore fun _ hc => hc.storeScratch
  · cases e
    exact h.modCore fun _ ⟨hs, hr, hb⟩ => ⟨hs, Memory.wf_write _ hr _, hb⟩

/-! ## Units (R217 to R220, R229, R272, R316 to R318) -/

theorem moveUnit {hd : HandleSlot} {src dst : Place} {n : Nat} {f : List Byte → List Byte} {q : State × Nat} (h : s.Canon)
    (e : s.moveUnit k hd src dst n f = .ok q) : q.1.Canon := by
  unfold State.moveUnit at e
  split at e
  · cases e
  · next he => exact (h.readPlace he).writePlace e

theorem readColumn {hd : HandleSlot} {src : Place} {pitch b n : Nat} {q : State × List Byte} (h : s.Canon)
    (e : s.readColumn k hd src pitch b n = .ok q) : q.1.Canon := by
  induction n generalizing q with
  | zero => cases e; exact h
  | succ n ih =>
    unfold State.readColumn at e
    split at e
    · cases e
    · next he =>
      split at e <;> cases e
      next hp => exact ((ih he).readPlace hp :)

theorem copyUnitStep {hd : HandleSlot} {u : Nat} {q : State × Nat} (h : s.Canon) (e : s.copyUnitStep k hd u = .ok q) : q.1.Canon := by
  unfold State.copyUnitStep at e
  dsimp only at e
  split at e
  · split at e
    · split at e
      · cases e
      · next he => exact (h.readColumn he).writePlace e
    · exact h.moveUnit e
  · cases e

theorem copyndStep {hd : HandleSlot} {u : Nat} {q : State × Nat} (h : s.Canon) (e : s.copyndStep k hd u = .ok q) : q.1.Canon := by
  unfold State.copyndStep at e
  dsimp only at e
  split at e
  · exact h.moveUnit e
  · cases e

theorem readIndex {hd : HandleSlot} {u : Nat} {q : State × Nat} (h : s.Canon) (e : s.readIndex k hd u = .ok q) : q.1.Canon := by
  unfold State.readIndex at e
  split at e
  · cases e
  · split at e <;> cases e
    next he => exact h.readPlace he

theorem gatherStep {hd : HandleSlot} {u : Nat} {q : State × Nat} (h : s.Canon) (e : s.gatherStep k hd u = .ok q) : q.1.Canon := by
  unfold State.gatherStep at e
  split at e
  · cases e
  · next he =>
    dsimp only at e
    split at e
    · cases e
    · split at e
      · cases e
      · exact (h.readIndex he).moveUnit e

theorem combineAt {hd : HandleSlot} {w : ElemWord} {q : State × Nat} (h : s.Canon) (e : s.combineAt k hd w = .ok q) : q.1.Canon := by
  unfold State.combineAt at e
  dsimp only at e
  split at e <;> cases e
  exact h.noteTlb.writeHome

theorem elemWords {hd : HandleSlot} {u : Nat} {q : State × List ElemWord} (h : s.Canon) (e : s.elemWords k hd u = .ok q) : q.1.Canon := by
  unfold State.elemWords at e
  split at e
  · cases e; exact h
  · split at e
    · cases e
    · next hi =>
      dsimp only at e
      split at e
      · cases e
      · split at e
        · cases e
        · split at e <;> cases e
          next hp => exact (h.readIndex hi).readPlace hp

theorem scatterStep {hd : HandleSlot} {u : Nat} {q : State × Nat} (h : s.Canon) (e : s.scatterStep k hd u = .ok q) : q.1.Canon := by
  unfold State.scatterStep at e
  split at e
  · cases e
  · next he => cases e; exact h.elemWords he
  · next he => exact (h.elemWords he).combineAt e

theorem writeWords {hd : HandleSlot} {ws : List Nat} {q : State × Nat} (h : s.Canon) (e : s.writeWords k hd ws = .ok q) : q.1.Canon := by
  induction ws generalizing s q with
  | nil => cases e; exact h
  | cons w ws ih =>
    unfold State.writeWords at e
    dsimp only at e
    split at e
    · cases e
    · next hp =>
      split at e <;> cases e
      next hr => exact (ih (h.writePlace hp) hr :)

theorem backStep {hd : HandleSlot} {u : Nat} {q : State × Nat} (h : s.Canon) (e : s.backStep k hd u = .ok q) : q.1.Canon := by
  unfold State.backStep at e
  dsimp only at e
  split at e
  · cases e
  · exact h.writeWords e

theorem unitStep {hd : HandleSlot} {u : Nat} {q : State × Nat} (h : s.Canon) (e : s.unitStep k hd u = .ok q) : q.1.Canon := by
  unfold State.unitStep at e
  split at e
  · exact h.copyUnitStep e
  · exact h.copyndStep e
  · exact h.gatherStep e
  · exact h.scatterStep e
  · exact h.backStep e

/-! ## Operations (R215, R216, R272) -/

theorem endOp {idx : Nat} {hd : HandleSlot} (h : s.Canon) : (s.endOp k idx hd).Canon := by
  have h1 : State.Canon ((s.modCore k fun c => c.setHandle idx (HandleSlot.free (hd.gen + 1))).dropLocks k idx) := h.modCore.dropLocks
  unfold State.endOp
  dsimp only
  split
  · exact h1
  · exact h1.modGroup

theorem failOp {idx : Nat} {hd : HandleSlot} {c : Cause} {a : DWord} (h : s.Canon) : (s.failOp k idx hd c a).Canon := by
  unfold State.failOp
  dsimp only
  split
  · exact dropLocks h.modCore
  · exact h.endOp.tell

theorem pauseBack {idx : Nat} (h : s.Canon) : (s.pauseBack k idx).Canon :=
  .either (h.modCore fun _ hc => hc.setStatuses) h

theorem pauseOp {idx : Nat} {hd : HandleSlot} {c : Cause} {a : DWord} (h : s.Canon) : (s.pauseOp k idx hd c a).Canon :=
  h.modCore.tell.pauseBack

theorem noteStop {hd : HandleSlot} {a : DWord} (h : s.Canon) : (s.noteStop k hd a).Canon := by
  unfold State.noteStop
  exact .either (h.foldl fun _ _ ht => ht.noteWalk) h

theorem runUnits {idx n : Nat} (h : s.Canon) : (s.runUnits k idx n).Canon := by
  induction n generalizing s with
  | zero => exact h
  | succ n ih =>
    unfold State.runUnits
    refine .either h (.either h.endOp ?_)
    split
    · exact h
    · exact h.noteStop.pauseOp
    · exact h.noteStop.failOp
    · next he =>
      extract_lets h1 s2 s3
      have h2 : s2.Canon := modCore (h.unitStep he)
      have h3 : s3.Canon := by
        unfold s3
        split
        · exact h2.modGroup
        · exact h2
      exact .either h3.endOp (ih h3)

theorem finishElem {idx : Nat} (h : s.Canon) : (s.finishElem k idx).Canon := .either h.runUnits h

theorem resumeBack {idx : Nat} (h : s.Canon) : (s.resumeBack k idx).Canon := by
  unfold State.resumeBack
  refine .either ?_ h
  split
  · exact h.modCore fun _ hc => hc.clearDirty
  · exact h

theorem startOp {g : Group} {idx hdst : Nat} {x : HandleSlot} {rs : List Region} (h : s.Canon) : (s.startOp g idx hdst x rs).Canon :=
  finish (modCore (h.foldl fun _ _ ht => ht.addLock))

/-! ## The instructions of the engines (R214 to R221, R229) -/

theorem engineOp {i : Instr} {op : Nat} {f : EFields} {fault : List Word → Option (Cause × DWord)}
    {dev : Group → List Word → Option (Cause × DWord)} {regions : List Word → List Region} (h : s.Canon) :
    Res.Canon (s.engineOp i op f fault dev regions) := by
  refine h.memGate fun g => .either h ?_
  split
  · exact h.faultHere
  · dsimp only
    split
    · exact h
    · exact .either h h.startOp

theorem execCopy {f : EFields} (h : s.Canon) : Res.Canon (execCopy f s) := h.engineOp

theorem execCopynd {f : EFields} (h : s.Canon) : Res.Canon (execCopynd f s) := h.engineOp

theorem execGather {f : EFields} (h : s.Canon) : Res.Canon (execGather f s) := h.engineOp

theorem execScatter {f : EFields} (h : s.Canon) : Res.Canon (execScatter f s) := h.engineOp

theorem writeBack {g : Group} {op : Nat} {f : EFields} {m : MapRange} {idx : Nat} (h : s.Canon) : (s.writeBack g op f m idx).Canon := by
  have h1 {ws x} : State.Canon ((s.modCore s.iss.core fun c => c.clearDirty ws).startOp g idx f.hdst.toNat x []) :=
    startOp (h.modCore fun _ hc => hc.clearDirty)
  exact .either h1.endOp h1

theorem execWback {f : EFields} (h : s.Canon) : Res.Canon (execWback f s) := by
  refine h.memGate fun g => ?_
  dsimp only
  split
  · exact h.faultHere
  · split
    · exact h
    · exact .either h h.writeBack

theorem dropMap {m : MapRange} (h : s.Canon) : (s.dropMap k m).Canon := by
  unfold State.dropMap
  extract_lets base s1
  have h1 : s1.Canon := h.modCore
  exact .either h1.mapCores h1

theorem execUnmap {f : EFields} (h : s.Canon) : Res.Canon (execUnmap f s) := by
  refine h.memGate fun g => ?_
  dsimp only
  split
  · exact h.faultHere
  · split
    · exact h
    · exact .either h h.writeBack.dropMap

theorem reportOp {idx : Nat} {x : HandleSlot} (h : s.Canon) : (s.reportOp idx x).Canon := h.endOp.faultHere

theorem latchGate {i : Instr} {f : Group → Res} (h : s.Canon) (hf : ∀ g, Res.Canon (f g)) : Res.Canon (s.latchGate i f) :=
  .either (h.memGate hf) (h.checked hf)

theorem execWaith {f : EFields} (h : s.Canon) : Res.Canon (execWaith f s) := by
  refine h.latchGate fun g => ?_
  dsimp only
  split
  · exact h.faultHere
  · split
    · exact h.raiseClock.advance
    · exact .either h.reportOp h.waitLatched

theorem execTesth {f : EFields} (h : s.Canon) : Res.Canon (execTesth f s) := by
  refine h.memGate fun g => ?_
  dsimp only
  split
  · exact h.faultHere
  · exact h.finish

theorem dropReads {x : HandleSlot} (h : s.Canon) : (s.dropReads x).Canon := .either h h

theorem execCancelh {f : EFields} (h : s.Canon) : Res.Canon (execCancelh f s) := by
  refine h.memGate fun g => ?_
  dsimp only
  split
  · exact h.faultHere
  · split
    · exact h.finish
    · split
      · exact h.finishElem.advance
      · refine (dropReads (h.finishElem.modCore fun c hc => ?_)).endOp.advance
        split
        · exact hc.setStatuses
        · exact hc

theorem execWaitall {f : EFields} (h : s.Canon) : Res.Canon (execWaitall f s) := by
  refine h.memGate fun g => ?_
  dsimp only
  split
  · exact .either h h.reportOp
  · exact .either h.raiseClock.modGroup.advance h.waitHere

theorem execEngineResume {idx : Nat} (h : s.Canon) : Res.Canon (execEngineResume k idx s) := by
  unfold Machine.execEngineResume
  exact .either h h.modCore.resumeBack

end State.Canon

end Sys2Proof.Machine
end

