-- ==== Sys2Proof/Proofs/CanonMatrix.lean ====
section
/-! Mapped ranges, the rack and the matrix array keep the canonical form of every memory. -/

namespace Sys2Proof.Machine

open Sys2Proof

-- One proof at a time: in parallel, the stacks of the threads exceed the memory that the check allows.
set_option Elab.async false

namespace Core.Canon

variable {c : Core}

theorem applyWrite {m : MapRange} {off : Nat} {bs : List Byte} (h : c.Canon) : (c.applyWrite m off bs).Canon :=
  ⟨Memory.wf_write bs h.1 _, h.2⟩

theorem modMap {launch off : Nat} {u : MapRange → MapRange} (h : c.Canon) : (c.modMap launch off u).Canon := h

/-- Bytes written to the rack. -/
theorem storeRack {a : Nat} {bs : List Byte} {poison : List Nat} (h : c.Canon) :
    Core.Canon { c with rack := Memory.write c.rack a bs, rackPoison := poison } :=
  ⟨h.1, Memory.wf_write bs h.2.1 a, h.2.2⟩

theorem writeTile {a : Nat} {ws : List Word} (h : c.Canon) : (c.writeTile a ws).Canon := h.storeRack

theorem tileStep {x : Section} {w : SecWork} {j : Nat} (h : c.Canon) : (c.tileStep x w j).Canon := by
  unfold Core.tileStep
  dsimp only
  split
  · split
    · exact h
    · exact h.writeTile
  · exact h.writeTile

theorem setSect {n : Nat} {x : Section} (h : c.Canon) : (c.setSect n x).Canon := h

theorem claim {frame : Nat} {slots : List Nat} (h : c.Canon) : (c.claim frame slots).Canon := h

theorem loadRack {p d n : Nat} (h : c.Canon) : (c.loadRack p d n).Canon := h.storeRack

end Core.Canon

namespace State.Canon

variable {s : State} {k : Nat}

/-! ## Mapped and subscribed ranges (R223 to R231, R320, R344, R345) -/

theorem execMapRange {f : EFields} (h : s.Canon) : Res.Canon (execMapRange f s) := by
  refine h.memGate fun g => ?_
  dsimp only
  split
  · exact h.faultAccess
  · refine .either h (advance ?_)
    have h1 {u : Core → Core} (hu : ∀ c, c.Canon → (u c).Canon) : (s.modCore s.iss.core u).Canon := h.modCore hu
    refine .either ((notePages (h1 fun _ hc => ?_)).modDie.foldl fun _ _ ht => ht.modCore) (h1 fun _ hc => ?_) <;>
      exact Core.Canon.setStatuses (v := fun _ _ => 0) hc

theorem setSub {d n : Nat} {u : Sub} (h : s.Canon) : (s.setSub d n u).Canon := h.modDie

theorem execSubscriptionFillDone {range : Nat} (h : s.Canon) : Res.Canon (execSubscriptionFillDone k range s) := by
  unfold Machine.execSubscriptionFillDone
  split
  · exact h
  · split
    · exact h
    · extract_lets count s1 last
      have h1 : s1.Canon := h.modCore fun _ hc => hc.foldl fun _ _ hd => hd.applyWrite
      exact .either h h1.setSub.modCore

theorem execSequencerNumber {die sub write : Nat} (h : s.Canon) : Res.Canon (execSequencerNumber die sub write s) := by
  unfold Machine.execSequencerNumber
  split
  · exact h
  · split
    · exact h
    · refine .either h ?_
      dsimp only
      split
      · exact State.Canon.either h.setSub.modCore h.setSub
      · exact h.setSub

theorem execUpdateApply {range : Nat} (h : s.Canon) : Res.Canon (execUpdateApply k range s) := by
  unfold Machine.execUpdateApply
  split
  · exact h
  · split
    · exact h.modCore fun _ hc => hc.applyWrite.modMap
    · exact h

theorem execSubwait {f : EFields} (h : s.Canon) : Res.Canon (execSubwait f s) := by
  refine h.latchGate fun g => ?_
  dsimp only
  split
  · exact h.faultHere
  · exact .either h.raiseClock.advance h.waitLatched

theorem execSettle {f : EFields} (h : s.Canon) : Res.Canon (execSettle f s) := by
  refine h.memGate fun g => ?_
  dsimp only
  split
  · exact h.faultAccess
  · exact .either h h.waitEvent

theorem advanceGen (h : s.Canon) : s.advanceGen.Canon := h.mapCores

theorem settleCore {base len : Nat} (h : s.Canon) : (s.settleCore base len k).1.Canon := by
  unfold State.settleCore
  extract_lets c ws s1 q
  have h1 : s1.Canon := h.modCore fun _ hc => hc.clearDirty
  exact List.foldlRecOn (motive := fun t : State × Nat => t.1.Canon) ws _ h1 fun _ ht _ _ => ht.storeV

theorem settleAll {base len : Nat} {ks : List Nat} (h : s.Canon) : (s.settleAll base len ks).1.Canon := by
  induction ks generalizing s with
  | nil => exact h
  | cons k ks ih => exact ih h.settleCore

theorem execSettleComplete {f slice : Nat} (h : s.Canon) : Res.Canon (execSettleComplete k f slice s) := by
  unfold Machine.execSettleComplete
  split
  · exact h
  · split
    · exact h
    · split
      · exact h.settleAll.advanceGen.storeV.endWait
      · exact h

/-! ## The matrix array (R235 to R247) -/

theorem xGate {i : Instr} {q : Bool} {f : Group → Res} (h : s.Canon) (hf : ∀ g, Res.Canon (f g)) : Res.Canon (s.xGate i q f) :=
  h.memGate fun g => .either h.faultHere (hf g)

theorem slotFault {n : Nat} (h : s.Canon) : Res.Canon (s.slotFault n) := h.faultHere

theorem enqueue {g : Group} {op : Nat} {f : XFields} {owner : Option Nat} (h : s.Canon) : Res.Canon (s.enqueue g op f owner) :=
  .either h h.modCore.advance

theorem execTake {f : XFields} (h : s.Canon) : Res.Canon (execTake f s) := by
  refine h.xGate fun g => ?_
  dsimp only
  split
  · exact h.slotFault
  · split
    · exact h.slotFault
    · exact .either h (.either h.modCore.advance h.waitEvent)

theorem execTakeClaim {fr slice : Nat} (h : s.Canon) : Res.Canon (execTakeClaim k fr slice s) := by
  unfold Machine.execTakeClaim
  split
  · exact h
  · split
    · exact h
    · split
      · exact .either h h.modCore.endWait
      · exact h

theorem execFree {f : XFields} (h : s.Canon) : Res.Canon (execFree f s) := by
  refine h.xGate fun g => .either h ?_
  split
  · exact h.slotFault
  · exact .either h h.modCore.advance

theorem bloadChecked {g : Group} {f : XFields} (h : s.Canon) : Res.Canon (s.bloadChecked g f) := by
  unfold State.bloadChecked
  refine .either h.faultHere ?_
  split
  · exact h.slotFault
  · exact .either h h.enqueue

theorem cbloadChecked {g : Group} {f : XFields} (h : s.Canon) : Res.Canon (s.cbloadChecked g f) := by
  unfold State.cbloadChecked
  refine .either h.faultHere ?_
  split
  · exact h.slotFault
  · exact .either h h.enqueue

theorem execBload {f : XFields} (h : s.Canon) : Res.Canon (execBload f s) :=
  h.xGate fun _ => .either h.waitEvent h.bloadChecked

theorem execCbload {f : XFields} (h : s.Canon) : Res.Canon (execCbload f s) :=
  h.xGate fun _ => .either h.waitEvent h.cbloadChecked

theorem execSectionWaitEnd {fr slice : Nat} (h : s.Canon) : Res.Canon (execSectionWaitEnd k fr slice s) := by
  unfold Machine.execSectionWaitEnd
  split
  · exact h
  · split
    · exact h
    · refine .either h ?_
      dsimp only
      split
      · exact h.reissue.bloadChecked
      · exact h.reissue.cbloadChecked
      · exact h

theorem execBdrop {f : XFields} (h : s.Canon) : Res.Canon (execBdrop f s) := h.xGate fun _ => .either h.faultHere h.enqueue

theorem execBdropAct {n : Nat} (h : s.Canon) : Res.Canon (execBdropAct k n s) := by
  unfold Machine.execBdropAct
  dsimp only
  split
  · exact .either h h.modCore
  · exact h

theorem queueWork {g : Group} {op : Nat} {f : XFields} (h : s.Canon) : Res.Canon (s.queueWork g op f) := by
  unfold State.queueWork
  refine .either h ?_
  split
  · exact h.slotFault
  · exact .either h h.enqueue

theorem execMma {f : XFields} (h : s.Canon) : Res.Canon (execMma f s) := by
  refine h.xGate fun g => .either h.faultHere ?_
  split
  · exact h.faultHere
  · exact .either h.faultHere h.queueWork

theorem mxOp {i : Instr} {op : Nat} {f : XFields} (h : s.Canon) : Res.Canon (s.mxOp i op f) :=
  h.xGate fun _ => .either h.faultHere h.queueWork

theorem execSectionPerform {n : Nat} (h : s.Canon) : Res.Canon (execSectionPerform k n s) := by
  unfold Machine.execSectionPerform
  dsimp only
  split
  · exact h
  · split
    · exact h
    · exact .either h h.modCore
    · exact .either h h.modCore
    · split
      · exact h.modCore
      · exact .either h (h.modCore fun _ hc => hc.tileStep.setSect)

/-! ## Accumulators and rack copies (R248 to R251) -/

theorem execAccz {f : XFields} (h : s.Canon) : Res.Canon (execAccz f s) := by
  refine h.xGate fun g => .either h ?_
  split
  · exact h.slotFault
  · exact .either h (advance (h.modCore fun _ hc => hc.foldl fun _ _ hd => hd.storeRack))

theorem rackWork {g : Group} {i : Instr} {off low len : Nat} {source : Bool} {q : BitVec 4} (h : s.Canon) :
    Res.Canon (s.rackWork g i off low len source q) := by
  unfold State.rackWork
  refine .either h ?_
  extract_lets lock w s1
  have h1 : s1.Canon := h.addLock.modCore
  exact sent h1

theorem execAccrd {f : XFields} (h : s.Canon) : Res.Canon (execAccrd f s) := by
  refine h.xGate fun g => ?_
  dsimp only
  split
  · exact h.slotFault
  · split
    · exact h.faultHere
    · exact .either h h.rackWork

theorem execRkld {f : XFields} (h : s.Canon) : Res.Canon (execRkld f s) := by
  refine h.xGate fun g => .either h ?_
  split
  · exact h.slotFault
  · split
    · exact h.faultAccess
    · exact .either h h.rackWork

theorem execRkst {f : XFields} (h : s.Canon) : Res.Canon (execRkst f s) := by
  refine h.xGate fun g => ?_
  dsimp only
  split
  · exact h.slotFault
  · split
    · exact h.faultHere
    · exact .either h h.rackWork

theorem endRack {w : NestWork} (h : s.Canon) : (s.endRack k w).Canon := h.modCore.modGroup

theorem workFault {frame ticket : Nat} {c : Cause} {a : DWord} {fin : State → State} (h : s.Canon)
    (hf : ∀ t, t.Canon → (fin t).Canon) : (s.workFault k frame ticket c a fin).Canon :=
  .either h.modCore.tell (hf _ h.modGroup)

theorem performRack {w : NestWork} (h : s.Canon) : (s.performRack k w).Canon := by
  unfold State.performRack
  refine .either h ?_
  split
  · exact h
  · dsimp only
    split
    · exact endRack (h.modCore fun _ hc => hc.foldl fun _ _ hd => hd.storeScratch)
    · split
      · next e => exact endRack ((h.ensure e).modCore fun _ hc => hc.loadRack)
      · exact h
      · exact h.workFault fun _ ht => ht.endRack
      · exact h.workFault fun _ ht => ht.endRack
    · exact endRack (h.modCore fun _ hc => hc.storeScratch)
    · exact h

theorem execScratchPerform {req : Nat} (h : s.Canon) : Res.Canon (execScratchPerform req s) := by
  unfold Machine.execScratchPerform
  split
  · exact h.performScratch
  · split
    · exact h.performRack
    · exact h

end State.Canon

end Sys2Proof.Machine
end

