-- ==== Sys2Proof/Proofs/CanonSync.lean ====
section
/-! The nest unit, barriers, fences, exchanges, counters and activation banks keep the canonical form of every memory. -/

namespace Sys2Proof.Machine

open Sys2Proof

-- One proof at a time: in parallel, the stacks of the threads exceed the memory that the check allows.
set_option Elab.async false

namespace State.Canon

variable {s : State} {k fr : Nat}

/-! ## The nest unit (R255 to R258) -/

theorem execNest {f : NestFields} (h : s.Canon) : Res.Canon (execNest f s) := by
  refine h.memGate fun g => ?_
  split
  · exact h.faultAccess
  · extract_lets k c flag locks over' w s1
    have h1 : s1.Canon := modCore (h.foldl fun _ _ ht => ht.addLock)
    exact .either h (sent h1)

/-- A tuple changes a state only by what it reads and what it writes. -/
theorem nestTuple {g : Group} {base : Nat} {f : NestFields} {w : NestWork} {q : State × NestWork} (h : s.Canon)
    (e : s.nestTuple k g base f w = .ok q) : q.1.Canon := by
  unfold State.nestTuple at e
  extract_lets rd dst at e
  split at e
  · cases e
  · next e1 =>
    extract_lets a bRead at e
    have h1 := h.readPlace e1
    have hb : ∀ p, bRead = .ok p → p.1.Canon := by
      intro p e2
      unfold bRead at e2
      split at e2
      · cases e2; exact h1
      · split at e2
        · cases e2; exact h1
        · split at e2 <;> cases e2
          next er => exact (h1.readPlace er :)
    clear_value bRead
    split at e
    · cases e
    · next s2 b =>
      have h2 : s2.Canon := hb _ rfl
      extract_lets dRead at e
      have hd : ∀ p, dRead = .ok p → p.1.Canon := by
        intro p e3
        unfold dRead at e3
        split at e3
        · split at e3 <;> cases e3
          next er => exact (h2.readPlace er :)
        · cases e3; exact h2
      clear_value dRead
      split at e
      · cases e
      · next s3 d =>
        have h3 : s3.Canon := hd _ rfl
        extract_lets write src done at e
        have hw {t : State} {v : Nat} {bs : List Byte} (et : write bs = .ok (t, v)) (ed : done t = .ok q) : q.1.Canon := by
          cases ed
          exact .either h3 (h3.writePlace et)
        split at e
        · split at e
          · split at e
            · cases e
            · next ew => exact hw ew e
          · cases e; exact h3
        · split at e
          · cases e
          · next ew => exact hw ew e

theorem endNest {w : NestWork} (h : s.Canon) : (s.endNest k w).Canon := h.modCore.modGroup

theorem keepNest {w : NestWork} (h : s.Canon) : (s.keepNest k w).Canon := h.modCore

theorem nestRun {g : Group} {base : Nat} {f : NestFields} {w : NestWork} {n : Nat} (h : s.Canon) : (s.nestRun k g base f w n).Canon := by
  induction n generalizing s w with
  | zero => exact h.keepNest
  | succ n ih =>
    unfold State.nestRun
    split
    · exact h.keepNest
    · exact h.keepNest.workFault fun _ ht => ht.endNest
    · exact h.keepNest.workFault fun _ ht => ht.endNest
    · next e => exact .either (ih (h.nestTuple e)) (h.nestTuple e).endNest

theorem execNestPerform (h : s.Canon) : Res.Canon (execNestPerform k s) := by
  unfold Machine.execNestPerform
  split
  · exact h
  · split
    · exact .either h h.nestRun
    · exact h

/-! ## Barriers (R293 to R298) -/

theorem barGate {i : Instr} {f : YFields} {r : Group → Res} (h : s.Canon) (hr : ∀ g, Res.Canon (r g)) : Res.Canon (s.barGate i f r) :=
  h.gate fun g => .either h.faultHere (hr g)

theorem arriveHere {g : Group} {f : YFields} (h : s.Canon) : (s.arriveHere g f).Canon := h.releaseDone.barArrive

theorem execBara {f : YFields} (h : s.Canon) : Res.Canon (execBara f s) := h.barGate fun _ => .either h.arriveHere.advance h.waitEvent

theorem execBarw {f : YFields} (h : s.Canon) : Res.Canon (execBarw f s) :=
  h.barGate fun _ => .either h.barLeave.advance (.either h.faultHere h.waitEvent)

theorem execBar {f : YFields} (h : s.Canon) : Res.Canon (execBar f s) :=
  h.barGate fun _ => .either (.either h.arriveHere.barLeave.advance h.arriveHere.waitEvent) h.waitEvent

theorem setWait {w : Wait} {vals : List Nat} (h : s.Canon) : (s.setWait k fr w vals).Canon := h.modGroup

theorem barStep {g : Group} {w : Wait} {f : YFields} (h : s.Canon) : (s.barStep k fr g w f).Canon := by
  unfold State.barStep
  refine .either (.either h ?_) (.either h.barLeave.endWait h)
  extract_lets wb
  have hr {sc o} := h.release (k := k) (f := fr) (seq := w.seq) (sc := sc) (mask := w.iss.mask) (pc := w.iss.pc) (wb := o)
    (mark := fun op t => t.setWait k fr w [0, op + 1]) fun _ _ ht => ht.setWait
  split
  · next e => exact Released.Canon.hold (e ▸ hr)
  · next e =>
    have h1 := Released.Canon.go (e ▸ hr)
    dsimp only
    split
    · exact h1.barArrive.endWait
    · exact .either h1.barArrive.barLeave.endWait h1.barArrive.setWait

theorem execBarrierDepart {slice : Nat} (h : s.Canon) : Res.Canon (execBarrierDepart k fr slice s) := by
  unfold Machine.execBarrierDepart
  split
  · exact h
  · split
    · exact h
    · refine .either h ?_
      split
      · exact h.barStep
      · exact h.barStep
      · exact h.barStep
      · exact h

/-! ## FENCE (R338, R417) -/

theorem acquireClock {sc : Scope} (h : s.Canon) : (s.acquireClock k fr sc).Canon := h.raiseClock

theorem fenceClock {f : YFields} (h : s.Canon) : (s.fenceClock k fr f).Canon := by
  unfold State.fenceClock
  have h1 : (if yFenceRel f then s.releaseDone k fr else s).Canon := .either h.releaseDone h
  exact .either h1.acquireClock h1

theorem execFence {f : YFields} (h : s.Canon) : Res.Canon (execFence f s) := h.gate fun _ => .either h.fenceClock.advance h.waitEvent

theorem faultWait {w : Wait} {c : Cause} {a : DWord} (h : s.Canon) : (s.faultWait k fr w c a).Canon := h.reissue.raiseDue

theorem fenceAcquire {w : Wait} {f : YFields} (h : s.Canon) : (s.fenceAcquire k fr w f).Canon := by
  unfold State.fenceAcquire
  refine .either (.either ?_ (.either h h.acquireClock.endWait)) h.endWait
  split
  · exact h.reissue.faultLogged
  · exact h

theorem execFenceComplete {slice : Nat} (h : s.Canon) : Res.Canon (execFenceComplete k fr slice s) := by
  unfold Machine.execFenceComplete
  split
  · exact h
  · split
    · exact h
    · next w _ =>
      split
      · next f _ =>
        have hr := h.release (k := k) (f := fr) (seq := w.seq) (sc := yFenceScope f) (mask := w.iss.mask) (pc := w.iss.pc)
          (wb := w.vals.head?) (mark := fun op t => t.setWait k fr w [op]) fun _ _ ht => ht.setWait
        refine .either h (.either h.faultWait (.either ?_ h.fenceAcquire))
        split
        · next e => exact Released.Canon.hold (e ▸ hr)
        · next e =>
          have h1 := Released.Canon.go (e ▸ hr)
          refine .either ?_ h1.fenceAcquire
          split
          · exact h1
          · exact h1.reissue.faultLogged
          · exact h1.faultWait
          · exact h1.modGroup.fenceAcquire
      · exact h

/-! ## XSWAP (R299 to R301) -/

theorem execXswap {f : YFields} (h : s.Canon) : Res.Canon (execXswap f s) := by
  exact h.gate fun _ => .either h.faultHere (.either h h.waitEvent)

theorem execXswapMatch {slice : Nat} (h : s.Canon) : Res.Canon (execXswapMatch k fr slice s) := by
  unfold Machine.execXswapMatch
  split
  · exact h
  · split
    · exact h
    · refine .either h (.either h.faultWait ?_)
      split
      · exact h
      · split
        · exact h
        · exact .either h (.either h.faultWait.faultWait h.endWait.endWait)

/-! ## Milestone counters (R400) -/

theorem execMsinc {f : YFields} (h : s.Canon) : Res.Canon (execMsinc f s) := by
  refine h.memGate fun g => ?_
  dsimp only
  split
  · exact h.faultAccess
  · split
    · split
      · next e => exact (h.placeAt e).send.sent
      · exact h
    · exact h.waitFor

theorem readCounter {ctx lease clk : Nat} {priv : Bool} {a : DWord} {q : State × Nat × Nat × Nat} (h : s.Canon)
    (e : s.readCounter k ctx priv a lease clk = .ok q) : q.1.Canon := by
  unfold State.readCounter at e
  split at e
  · cases e
  · dsimp only at e
    split at e
    · cases e
    · split at e
      · cases e
      · split at e <;> cases e
        · exact h.noteTlb
        · exact h.noteTlb.homeRenew

theorem milestoneSeen {wts : Nat} (h : s.Canon) : (s.milestoneSeen k fr wts).Canon := h.raiseClock.modGroup

theorem execMswait {f : YFields} (h : s.Canon) : Res.Canon (execMswait f s) := by
  refine h.latchGate fun g => ?_
  extract_lets k a v
  split
  · exact h.faultAccess
  · generalize (if s.iss.kept.isEmpty then s.loggedOverlap g .global 8 [a] else []) = ids
    split
    · exact h.waitFor
    · refine .either h.waitLatched ?_
      split
      · exact h.faultHere
      · next e => exact .either (h.readCounter e).milestoneSeen.advance (h.readCounter e).waitEvent

theorem execMswaitReread {slice : Nat} (h : s.Canon) : Res.Canon (execMswaitReread k fr slice s) := by
  unfold Machine.execMswaitReread
  split
  · exact h
  · split
    · exact h
    · split
      · refine .either h ?_
        dsimp only
        split
        · exact h.faultWait
        · next e => exact .either (h.readCounter e).milestoneSeen.endWait (h.readCounter e).setWait
      · exact h

/-! ## Activation banks and SLEEP (R196, R259, R260) -/

/-- A bank written whole from its image. -/
theorem writeBank {g : Group} {bank : Nat} {a : DWord} {t : State} (h : s.Canon) (e : s.writeBank k g bank a = .ok t) : t.Canon := by
  unfold State.writeBank at e
  split at e <;> cases e
  refine h.notePages.modCore fun c ⟨hs, hr, hb⟩ => ⟨hs, hr, fun b m => ?_⟩
  rw [Vector.toList_setIfInBounds] at m
  rcases List.mem_or_eq_of_mem_set m with m | rfl
  · exact hb b m
  · exact Memory.wf_write _ Memory.wf_nil 0

theorem execLdact {f : YFields} (h : s.Canon) : Res.Canon (execLdact f s) := by
  refine h.memGate fun g => .either h.faultHere (.either h.faultHere ?_)
  split
  · exact h.faultAccess
  · refine .either h.modCore.waitEvent ?_
    split
    · exact h.faultHere
    · next e => exact (h.writeBank e).advance

theorem execLdactBankWrite {slice : Nat} (h : s.Canon) : Res.Canon (execLdactBankWrite k fr slice s) := by
  unfold Machine.execLdactBankWrite
  split
  · exact h
  · split
    · exact h
    · split
      · refine .either h (.either h.faultWait ?_)
        extract_lets s1
        have h1 : s1.Canon := h.modCore
        split
        · exact h1.faultWait
        · next e => exact (h1.writeBank e).endWait
      · exact h

theorem execActsel {f : YFields} (h : s.Canon) : Res.Canon (execActsel f s) := h.gate fun _ => .either h h.finish

theorem execClock {f : YFields} (h : s.Canon) : Res.Canon (execClock f s) := h.laneOp

theorem execPtime {f : YFields} (h : s.Canon) : Res.Canon (execPtime f s) := h.laneOp

theorem execSleep {f : YFields} (h : s.Canon) : Res.Canon (execSleep f s) := h.gate fun _ => h.finish

end State.Canon

end Sys2Proof.Machine
end

