-- ==== Sys2Proof/Proofs/CanonFabric.lean ====
section
/-! The fabric, the engines' own steps, and the stops and resumes of other agents keep the canonical form of every memory. -/

namespace Sys2Proof.Machine

open Sys2Proof

-- One proof at a time: in parallel, the stacks of the threads exceed the memory that the check allows.
set_option Elab.async false

/-- What a part of an FCOPY's source gives, in its canonical form. -/
def PartRead.Canon : PartRead → Prop
  | .bytes t _ => t.Canon
  | .wait t => t.Canon
  | .stop _ => True

namespace State.Canon

variable {s : State} {k fr : Nat}

/-! ## FWRITE and FATOM (R420) -/

theorem sendFwrite {g : Group} {f : YFields} {as : List (Fin 32 × DWord)} (h : s.Canon) : (s.sendFwrite g f as).Canon := by
  refine h.foldl fun t p ht => ?_
  dsimp only
  split
  · next e => exact (ht.placeAt e).send
  · exact ht

theorem execFwrite {f : YFields} (h : s.Canon) : Res.Canon (execFwrite f s) := by
  refine h.memGate fun g => ?_
  dsimp only
  split
  · exact h.faultAccess
  · split
    · exact h.fabricRelease fun _ _ ht => ht.setGroup.sendFwrite.sent
    · exact h.waitFor

theorem execFatom {f : YFields} (h : s.Canon) : Res.Canon (execFatom f s) := by
  refine h.memGate fun g => ?_
  dsimp only
  split
  · exact h.faultAccess
  · split
    · refine h.withPlaces (sent (h.foldl fun t p ht => ?_))
      split
      · next e => exact (ht.placeAt e).reserveFor
      · exact ht
    · exact h.waitFor

/-! ## FCOPY (R421) -/

theorem execFcopy {f : YFields} (h : s.Canon) : Res.Canon (execFcopy f s) := by
  refine h.memGate fun g => ?_
  extract_lets ws
  split
  · exact h.faultHere
  · refine h.fabricRelease fun t x ht => ?_
    split
    · exact ht
    · extract_lets hd u
      have hu : u.Canon := ht.setGroup.startOp
      exact .either ht hu

theorem copyReq {idx lane n : Nat} {x : HandleSlot} {kind : ReqKind} {e : TlbEntry} {a : DWord} {bs : List Byte} (h : s.Canon) :
    (s.copyReq k idx x kind lane e a n bs).Canon := h.send

theorem copyPart {idx : Nat} {x : HandleSlot} {p : DWord × Nat} (h : s.Canon) : PartRead.Canon (s.copyPart k idx x p) := by
  unfold State.copyPart
  split
  · trivial
  · split
    · split
      · exact h.noteTlb.copyReq
      · split
        · split
          · trivial
          · exact h
        · exact h
    · split
      · trivial
      · next e => exact (h.readPlace e :)

theorem copyParts {idx : Nat} {x : HandleSlot} {ps : List (DWord × Nat)} (h : s.Canon) : PartRead.Canon (s.copyParts k idx x ps) := by
  induction ps generalizing s with
  | nil => exact h
  | cons p ps ih =>
    have hp := h.copyPart (k := k) (idx := idx) (x := x) (p := p)
    unfold State.copyParts
    split
    · trivial
    · next e =>
      rw [e] at hp
      have hr := ih hp
      split
      · next e => rw [e] at hr; exact hr
      · exact hr
    · next e =>
      rw [e] at hp
      have hr := ih hp
      split
      · next e => rw [e] at hr; exact hr
      · exact hr

theorem copyWrite {idx : Nat} {x : HandleSlot} {a : DWord} {ws : List Word} {q : State × Nat} (h : s.Canon)
    (e : s.copyWrite k idx x a ws = .ok q) : q.1.Canon := by
  induction ws generalizing s a q with
  | nil => cases e; exact h
  | cons w ws ih =>
    unfold State.copyWrite at e
    split at e
    · cases e
    · extract_lets one at e
      have h1 : ∀ p, one = .ok p → p.1.Canon := by
        intro p e1
        unfold one at e1
        split at e1
        · cases e1; exact h.noteTlb.copyReq
        · exact h.writePlace e1
      clear_value one
      split at e
      · cases e
      · split at e <;> cases e
        next e2 => exact (ih (h1 _ rfl) e2 :)

theorem stopOp {idx : Nat} {x : HandleSlot} {e : EngStop} (h : s.Canon) : (s.stopOp k idx x e).Canon := by
  unfold State.stopOp
  split
  · exact h
  · exact h.noteStop.dropReads.pauseOp
  · exact h.noteStop.dropReads.failOp

theorem runCopy {idx n : Nat} (h : s.Canon) : (s.runCopy k idx n).Canon := by
  induction n generalizing s with
  | zero => exact h
  | succ n ih =>
    unfold State.runCopy
    extract_lets x op off m
    refine .either h (.either (.either h h.endOp) ?_)
    have hp := h.copyParts (k := k) (idx := idx) (x := x) (ps := lineParts (BitVec.ofNat 64 (blockWide x.block 0 + off)) m)
    split
    · exact h.stopOp
    · next e => rw [e] at hp; exact hp
    · next e =>
      rw [e] at hp
      split
      · exact stopOp hp
      · next e2 =>
        extract_lets s3 s4 s5
        have h4 : s4.Canon := modCore (s := s3) (copyWrite hp e2)
        have h5 : s5.Canon := by
          unfold s5
          split
          · exact h4.modGroup
          · exact h4
        exact ih h5

/-! ## The engines' own steps (R215, R216, R272) -/

theorem moveUnits {idx n : Nat} (h : s.Canon) : (s.moveUnits k idx n).Canon := .either h (.either h.runCopy h.runUnits)

theorem execEngineComplete {idx : Nat} (h : s.Canon) : Res.Canon (execEngineComplete k idx s) := h.moveUnits

theorem execEnginePause {idx units : Nat} (h : s.Canon) : Res.Canon (execEnginePause k idx units s) :=
  Res.Canon.either h.moveUnits.moveUnits h.moveUnits

/-! ## WINFENCE (R422) -/

theorem execWinfence {f : YFields} (h : s.Canon) : Res.Canon (execWinfence f s) := by
  refine h.gate fun g => ?_
  split
  · exact h.finish
  · exact h.faultHere
  · exact h.faultLogged
  · exact h.waitEvent

theorem execWinfenceWindowEnd {slice : Nat} (h : s.Canon) : Res.Canon (execWinfenceWindowEnd k fr slice s) := by
  unfold Machine.execWinfenceWindowEnd
  split
  · exact h
  · split
    · exact h
    · split
      · refine .either h ?_
        split
        · exact h
        · exact h.reissue.faultLogged
        · exact h.faultWait
        · exact h.endWait
      · exact h

/-! ## Requests of other devices (R410, R415, R423, R425) -/

theorem answerRemote {id : Nat} {a : RemoteReply} (h : s.Canon) : (s.answerRemote id a).Canon := h

theorem execRemoteRequest {r : RemoteRequest} (h : s.Canon) : Res.Canon (execRemoteRequest r s) := by
  unfold Machine.execRemoteRequest
  refine .either h ?_
  split
  · exact h
  · split
    · exact .either h h
    · exact h

theorem execRemoteWritePerform {id : Nat} (h : s.Canon) : Res.Canon (execRemoteWritePerform id s) := by
  unfold Machine.execRemoteWritePerform
  split
  · exact h
  · next o _ =>
    extract_lets behind s0 dirty put
    have hput {bs back} : (put bs back).Canon := writeHome (s := s0) h
    refine .either h ?_
    split
    · exact hput
    · exact .either h hput
    · exact h

theorem execRemoteWriteTimeout {req : Nat} (h : s.Canon) : Res.Canon (execRemoteWriteTimeout req s) := by
  unfold Machine.execRemoteWriteTimeout
  split
  · exact h
  · exact .either h.remoteAnswer.tell h

theorem engineLinkError {idx : Nat} (h : s.Canon) : (s.engineLinkError k idx).Canon := by
  unfold State.engineLinkError
  extract_lets x s1
  have h1 : s1.Canon := by
    unfold s1
    split
    · exact h.modGroup
    · exact h
  exact .either h h1.dropReads.failOp

theorem execHeadFlitError {req port : Nat} (h : s.Canon) : Res.Canon (execHeadFlitError req port s) := by
  unfold Machine.execHeadFlitError
  extract_lets s1
  have h1 : s1.Canon := h
  split
  · exact State.Canon.either h1.engineLinkError h1
  · exact .either h1 (.either h1.asyncFault.copyRefused (.either h1.asyncFault.doneReq h1.asyncFault.modReq.prepend))

/-! ## Package time (R411 to R413) -/

theorem execSyncLoss {err : Option (BitVec 16)} (h : s.Canon) : Res.Canon (execSyncLoss err s) := by
  unfold Machine.execSyncLoss
  split <;> exact h

theorem execSyncRegain {err : BitVec 16} (h : s.Canon) : Res.Canon (execSyncRegain err s) := Res.Canon.either h (.either h h)

theorem execFwincfgWrite {v : Word} (h : s.Canon) : Res.Canon (execFwincfgWrite v s) := Res.Canon.either h h

theorem execFdevcfgWrite {v : Word} (h : s.Canon) : Res.Canon (execFdevcfgWrite v s) := Res.Canon.either h h

/-! ## The debugger, resumes and the fault service (R176, R177, R216, R264, R265, R269) -/

theorem execDbgHalt (h : s.Canon) : Res.Canon (execDbgHalt k s) := by
  unfold Machine.execDbgHalt
  dsimp only
  split
  · exact h
  · exact h.haltDebug.allStop

theorem execDbgStep (h : s.Canon) : Res.Canon (execDbgStep k s) := modCore h

theorem setRunning (h : s.Canon) : (s.setRunning k fr).Canon := h.modGroup

theorem resumeFault {g : Group} {r : FaultRec} {skip nested hfail : Bool} (h : s.Canon) :
    (s.resumeFault k fr g r skip nested hfail).Canon := .either h.stopFaulted h.modGroup.setRunning.resumeLogged

theorem startStep (h : s.Canon) : (s.startStep k fr).Canon := by
  unfold State.startStep
  split
  · exact h
  · refine h.modCore fun c hc => ?_
    split <;> exact hc

theorem replayLog (h : s.Canon) : (s.replayLog k fr).Canon := by
  unfold State.replayLog
  split
  · exact .either h h.askReplay
  · exact h

theorem execGroupResume {skip : Bool} (h : s.Canon) : Res.Canon (execGroupResume k fr skip s) := by
  unfold Machine.execGroupResume
  split
  · exact h
  · extract_lets go s1
    have hgo {t : State} (ht : t.Canon) : (go t).Canon := ht.startStep.replayLog
    have h1 : s1.Canon := h.modLaunch
    split
    · exact hgo h1.resumeFault
    · exact hgo h1.setRunning
    · exact hgo h1.setRunning
    · exact hgo h.resumeFault
    · exact hgo h.setRunning
    · exact h

theorem answerGroup {g : Group} {repaired : Bool} (h : s.Canon) : (s.answerGroup k fr g repaired).Canon := by
  unfold State.answerGroup
  split
  · exact .either (.either h.setRunning.replayLog h.setRunning) h.setRunning.raiseDue
  · exact h

theorem answerEngine {idx : Nat} {repaired : Bool} (h : s.Canon) : (s.answerEngine k idx repaired).Canon :=
  .either h (.either h.modCore.resumeBack h.failOp)

theorem answerWork {ticket : Nat} {repaired : Bool} (h : s.Canon) : (s.answerWork k ticket repaired).Canon := by
  unfold State.answerWork
  refine .either h.modCore ?_
  dsimp only
  split
  · exact h.modGroup.endRack
  · split
    · exact h.modGroup.endNest
    · exact h

theorem execFaultServiceAnswer {repaired : Bool} (h : s.Canon) : Res.Canon (execFaultServiceAnswer k fr repaired s) := by
  unfold Machine.execFaultServiceAnswer
  refine .either h.answerWork (.either h.answerEngine ?_)
  split
  · exact h
  · exact h.answerGroup

theorem execSoftError {mask : BitVec 8} (h : s.Canon) : Res.Canon (execSoftError k fr mask s) :=
  Res.Canon.either h.modCore h.modGroup

end State.Canon

end Sys2Proof.Machine
end

