-- ==== Sys2Proof/Proofs/CanonPass.lean ====
section
/-! The pass keeps the canonical form of every memory: records, placement, retirement and completion. -/

namespace Sys2Proof.Machine

open Sys2Proof

-- One proof at a time: in parallel, the stacks of the threads exceed the memory that the check allows.
set_option Elab.async false

/-- Some of a canonical memory's cells are a canonical memory. -/
theorem Memory.wf_filter {m : List Host.Cell} (p : Host.Cell → Bool) (h : Memory.wf m = true) : Memory.wf (m.filter p) = true := by
  induction m with
  | nil => rfl
  | cons c t ih =>
    obtain ⟨hv, ha, ht⟩ := Memory.wf_cons.mp h
    rw [List.filter_cons]
    split
    · exact Memory.wf_cons.mpr ⟨hv, fun q hq => ha q (List.mem_filter.mp hq).1, ih ht⟩
    · exact ih ht

namespace Core.Canon

variable {c : Core}

/-- Bytes of the rack cleared. -/
theorem clearRack {p : Host.Cell → Bool} (h : c.Canon) : CanonStores c.scratch (c.rack.filter p) c.banks :=
  ⟨h.1, Memory.wf_filter p h.2.1, h.2.2⟩

theorem modTeam {launch : Nat} {u : Team → Team} (h : c.Canon) : (c.modTeam launch u).Canon := h

theorem dropGroup {fr : Nat} (h : c.Canon) : (c.dropGroup fr).Canon := h

theorem dropTeam {launch : Nat} (h : c.Canon) : (c.dropTeam launch).Canon := h

theorem dropLaunch {launch : Nat} (h : c.Canon) : (c.dropLaunch launch).Canon := h.foldl fun _ _ hd => hd.dropGroup

end Core.Canon

namespace State.Canon

variable {s : State} {k : Nat}

/-! ## Launch records and queues (R392 to R395) -/

theorem acceptLaunch {r : LaunchRec} {x : KHeader} {bank : List Byte} {w : Nat} (h : s.Canon) : (s.acceptLaunch r x bank w).Canon := h

theorem passCounter {die : Nat} {r : LaunchRec} {q : State × Bool × Nat × Nat} (h : s.Canon) (e : s.passCounter die r = .ok q) :
    q.1.Canon := by
  unfold State.passCounter at e
  dsimp only at e
  split at e
  · cases e; exact h
  · split at e <;> cases e
    next er => exact raiseClock (h.readCounter er :)

theorem passWrite {die ctx a : Nat} {bs : List Byte} (h : s.Canon) : (s.passWrite die ctx a bs).Canon := h.storeV

theorem stopQueue {ctx q reason : Nat} {a : DWord} (h : s.Canon) : (s.stopQueue ctx q reason a).Canon :=
  .either h.passWrite.tell.tell h.passWrite.tell

theorem acceptQueue {ctx q n : Nat} {r : LaunchRec} {x : KHeader} {bank : List Byte} {w : Nat} (h : s.Canon) :
    (s.acceptQueue ctx q n r x bank w).Canon := h.acceptLaunch.passWrite

theorem noteRecord {ctx : Nat} {a : DWord} {bs : List Byte} (h : s.Canon) : (s.noteRecord k ctx a bs).Canon := h.notePages.notePages

theorem execQueueTailUpdate {ctx q : Nat} (h : s.Canon) : Res.Canon (execQueueTailUpdate ctx q s) := by
  unfold Machine.execQueueTailUpdate
  extract_lets die k priv
  refine .either h ?_
  split
  · exact h
  · extract_lets base size tail head wTail
    refine .either h (.either h.stopQueue ?_)
    split
    · exact h.stopQueue
    · extract_lets t
      have ht : t.Canon := h.notePages.noteRecord
      split
      · refine .either ht.acceptQueue ?_
        split
        · exact ht.stopQueue
        · next e => exact (ht.passCounter e).acceptQueue
        · next e => exact (ht.passCounter e :)
      · exact ht.stopQueue

theorem execPassMilestoneReread {id : Nat} (h : s.Canon) : Res.Canon (execPassMilestoneReread id s) := by
  unfold Machine.execPassMilestoneReread
  split
  · exact h
  · extract_lets drop
    have hd {t : State} (ht : t.Canon) : (drop t).Canon := ht
    refine .either ?_ (.either h ?_)
    · split
      · exact (hd h).stopQueue
      · exact (hd h).tell
    · split
      · split
        · exact (hd h).stopQueue
        · exact (hd h).tell
      · next e => exact (h.passCounter e :)
      · next e =>
        dsimp only
        split
        · exact (hd (h.passCounter e)).acceptQueue
        · exact (hd (h.passCounter e)).acceptLaunch

theorem execQueueStatusClear {ctx : Nat} {act : PassAct} (h : s.Canon) : Res.Canon (execQueueStatusClear ctx act s) := by
  unfold Machine.execQueueStatusClear
  split
  · exact .either h h.passWrite
  · exact h
  · exact h

/-! ## LAUNCH (R400) -/

theorem handOver {g : Group} {r : LaunchRec} {x : KHeader} {bank : List Byte} {w : Nat} (h : s.Canon) : (s.handOver g r x bank w).Canon := by
  unfold State.handOver
  refine .either h ?_
  split
  · exact h.tell
  · next e => exact (h.passCounter e).acceptLaunch
  · next e => exact (h.passCounter e :)

theorem execLaunch {f : YFields} (h : s.Canon) : Res.Canon (execLaunch f s) := by
  refine h.latchGate fun g => ?_
  extract_lets k a wait
  have hw {t : State} (ht : t.Canon) : Res.Canon (wait t) := ht.waitLatched
  split
  · exact .either h.waitLatched h.advance
  · split
    · exact h.faultAccess
    · refine .either (hw h) (.either (hw h.startBacks) ?_)
      have h0 := h.releaseDone (k := k) (f := s.iss.frame)
      split
      · exact h0.faultHere
      · have h1 {a bs} := h0.noteRecord (k := k) (ctx := g.ctx) (a := a) (bs := bs)
        extract_lets s1
        split
        · exact h1.faultHere
        · exact h1.faultHere
        · exact .either h1.handOver.waitLatched h1.handOver.advance

/-! ## Placement (R183, R184, R232, R396) -/

theorem placeGroup {l : Launch} {cluster index : Nat} {csp : DWord} (h : s.Canon) : (s.placeGroup k l cluster index csp).Canon :=
  h.clearXlate.setGroup

theorem placeTeam {l : Launch} {a : PlaceArgs} {rank : Nat} (h : s.Canon) : (s.placeTeam l a rank).Canon := by
  unfold State.placeTeam
  dsimp only
  split
  · exact h
  · refine foldl (h.modCore fun _ hc => ?_) fun _ _ ht => ht.placeGroup
    exact hc.clearRack

theorem takeBlock {l : Launch} {die : Nat} {area : DWord} (h : s.Canon) : (s.takeBlock l die area).Canon := by
  unfold State.takeBlock
  refine .either h ?_
  dsimp only
  exact h

theorem execClusterPlace {a : PlaceArgs} (h : s.Canon) : Res.Canon (execClusterPlace a s) := by
  unfold Machine.execClusterPlace
  split
  · exact h
  · exact .either h (h.takeBlock.foldl fun _ _ ht => ht.placeTeam).modLaunch

/-! ## Retirement and completion (R27, R229, R233, R297, R397) -/

theorem barRetire {launch n : Nat} (h : s.Canon) : (s.barRetire k launch n).Canon :=
  h.foldl fun _ _ ht => ht.barComplete.barComplete.barComplete

theorem unmapTeam {launch : Nat} (h : s.Canon) : (s.unmapTeam k launch).Canon := by
  unfold State.unmapTeam
  extract_lets c ms op s1
  have h1 : s1.Canon := h.foldl fun _ _ ht => (ht.modCore fun _ hc => hc.setStatus).send
  exact foldl (s := { s1 with nextOp := op + 1 }) h1 fun _ _ ht => ht.dropMap

theorem execGroupRetire {fr : Nat} (h : s.Canon) : Res.Canon (execGroupRetire k fr s) := by
  unfold Machine.execGroupRetire
  split
  · exact h
  · next g _ =>
    extract_lets c busy s1 s2 s3 s4
    have h2 : s2.Canon := modCore (s := s1) h
    have h4 : s4.Canon := h2.modLaunch.barRetire
    exact .either h (State.Canon.either h4.unmapTeam h4)

theorem saveBlock {die launch : Nat} (h : s.Canon) : (s.saveBlock die launch).Canon := by
  unfold State.saveBlock
  refine .either h ?_
  split
  · exact h
  · exact h.storeRec

theorem execTeamLeave {launch : Nat} (h : s.Canon) : Res.Canon (execTeamLeave k launch s) := by
  unfold Machine.execTeamLeave
  split
  · exact h
  · exact .either h h.modCore.modLaunch.saveBlock

theorem doneIncrement {l : Launch} (h : s.Canon) : (s.doneIncrement l).Canon := by
  unfold State.doneIncrement
  refine .either h ?_
  split
  · exact h.noteWalk.tell
  · exact .either h.noteTlb.tell (.either h.noteTlb.tell h.noteTlb.writeHome)

theorem execLaunchComplete {id : Nat} (h : s.Canon) : Res.Canon (execLaunchComplete id s) := by
  unfold Machine.execLaunchComplete
  split
  · exact h
  · exact .either h h.raiseClock.doneIncrement

theorem dropUnhanded {id : Nat} (h : s.Canon) : (s.dropUnhanded id).Canon := h

theorem dropEngineLocks {launch : Nat} (h : s.Canon) : (s.dropEngineLocks launch).Canon := h.mapCores

theorem execEndLaunch {id : Nat} (h : s.Canon) : Res.Canon (execEndLaunch id s) := by
  unfold Machine.execEndLaunch
  split
  · exact h
  · extract_lets mine faulted busy dropDie s0 s1
    have h0 : s0.Canon := h.dropUnhanded.dropEngineLocks
    have h1 : s1.Canon := h0.mapCores (hu := fun _ hc => hc.dropLaunch)
    exact .either h h1

end State.Canon

end Sys2Proof.Machine
end

