-- ==== Sys2Proof/Proofs/CanonPackage.lean ====
section
/-! The steps of the package and of its host keep the canonical form of every memory. -/

namespace Sys2Proof.Machine

open Sys2Proof

-- One proof at a time: in parallel, the stacks of the threads exceed the memory that the check allows.
set_option Elab.async false

theorem State.canon_resetCore {s : State} {k cycle swgen : Nat} : (s.resetCore k cycle swgen).Canon :=
  Core.canon_reset cycle (dieOf k) swgen

namespace State.Canon

variable {s : State} {k d i : Nat}

/-! ## Time and translations of the whole package (R337, R374 to R376) -/

theorem raiseAll {v : Nat} (h : s.Canon) : (s.raiseAll v).Canon := h.foldl fun _ _ ht => ht.raiseClock

theorem execRebase (h : s.Canon) : Res.Canon (execRebase s) := by
  unfold Machine.execRebase
  have h2 {b : Nat} {t : State} (ht : t.Canon) : (t.fittedDies.foldl (fun (t : State) d => t.modDie d (Die.rebase b)) t).Canon :=
    ht.foldl fun _ _ hu => hu.modDie
  exact .either h (h2 h.raiseAll)

theorem sweep {x : Shoot} (h : s.Canon) : (s.sweep x).Canon := h.mapCores

theorem execShootdown {src : ShootSource} (h : s.Canon) : Res.Canon (execShootdown src s) := by
  unfold Machine.execShootdown
  split
  · exact h
  · exact .either h h.sweep

theorem execShootdownComplete (h : s.Canon) : Res.Canon (execShootdownComplete s) := by
  unfold Machine.execShootdownComplete
  split
  · exact h
  · refine .either h ?_
    dsimp only
    split
    · exact h
    · split
      · exact endWait (modCore (s := { s with shoots := _ }) h)
      · exact modCore (s := { s with shoots := _ }) h

/-! ## Connections and streams (R355 to R358) -/

theorem setConn {c : Conn} (h : s.Canon) : (s.setConn d i c).Canon := h.modDie

theorem connSetup (h : s.Canon) : (s.connSetup d i).Canon := by
  unfold State.connSetup
  refine .either h (.either h.setConn ?_)
  dsimp only
  split
  · exact h.setConn.setConn
  · exact h.setConn

theorem connTeardown (h : s.Canon) : (s.connTeardown d i).Canon := .either h.setConn h

theorem connClear (h : s.Canon) : (s.connClear d i).Canon := .either h.setConn h

theorem execCircuitUp (h : s.Canon) : Res.Canon (execCircuitUp d i s) := Res.Canon.either h.setConn h

theorem setPath {key : StreamKey} {path : Nat} (h : s.Canon) : (s.setPath key path).Canon := h

theorem execStreamMove {key : StreamKey} {path : Nat} (h : s.Canon) : Res.Canon (execStreamMove key path s) := Res.Canon.either h h.setPath

theorem drained (h : s.Canon) : (s.drained d i).Canon := .either h (setConn (h.foldl fun _ _ ht => ht.setPath))

theorem opticalFailure (h : s.Canon) : (s.opticalFailure d i).Canon := .either h.setConn.tell h

theorem execWavelengthFailure {bundle : Nat} (h : s.Canon) : Res.Canon (execWavelengthFailure d bundle s) :=
  Res.Canon.either h.modDie (h.modDie.foldl fun _ _ ht => .either ht.opticalFailure ht)

/-! ## Spares, errors and harvest (R302, R314, R325, R362 to R365) -/

theorem execSpareWayReplace {slice : Nat} {remote : Bool} {lines : List Nat} (h : s.Canon) :
    Res.Canon (execSpareWayReplace d slice remote lines s) :=
  Res.Canon.either (.either h h.modDie) (.either h h.evictAll.modDie)

theorem poisonStored {pa n : Nat} (h : s.Canon) : (s.poisonStored pa n).Canon := by
  unfold State.poisonStored
  dsimp only
  split
  · exact h
  · exact h

theorem loseBlock {block : Nat} (h : s.Canon) : (s.loseBlock block).Canon := by
  unfold State.loseBlock
  extract_lets src s1 bare
  have h1 : s1.Canon := h
  exact h1.foldl fun _ _ ht => ht.poisonStored

theorem execUncorrectableMemoryError {e : MemError} (h : s.Canon) : Res.Canon (execUncorrectableMemoryError e s) := by
  cases e with
  | l2Clean line => exact h.evict
  | l2Dirty line => exact h.poisonHome
  | hbm addr n => exact h.poisonStored
  | rdcClean d line => exact h.modDie
  | stamps line => exact State.Canon.either h h
  | metadata block => exact h.loseBlock
  | scratch k word => exact h.modCore
  | corrected d => exact h.modDie

theorem execL2SliceFailure {slice : Nat} (h : s.Canon) : Res.Canon (execL2SliceFailure d slice s) := h.modDie.tell

theorem returnCores (h : s.Canon) : (s.returnCores d).Canon := modDie (h.foldl fun _ _ ht => ht.modCore)

theorem execHarvestModeSet {dies : List Nat} {full : Bool} (h : s.Canon) : Res.Canon (execHarvestModeSet dies full s) :=
  Res.Canon.either h (h.foldl fun _ _ ht => ht.returnCores.modDie)

theorem execCoreRetire (h : s.Canon) : Res.Canon (execCoreRetire k s) := Res.Canon.either h h.setDie.modCore

theorem execPowerShareUpdate {shares : List Nat} (h : s.Canon) : Res.Canon (execPowerShareUpdate shares s) :=
  h.foldl fun _ _ ht => ht.modDie

/-! ## Resets (R361, R366, R367) -/

theorem execPackageReset (h : s.Canon) : Res.Canon (execPackageReset s) := by
  refine ⟨h.1, fun p hp => ?_⟩
  obtain ⟨q, -, rfl⟩ := List.mem_map.mp hp
  exact State.canon_resetCore

theorem closeConns (h : s.Canon) : (s.closeConns d).Canon := h.foldl fun _ _ ht => ht.setConn.drained

theorem execDieReset (h : s.Canon) : Res.Canon (execDieReset d s) :=
  Res.Canon.either h (raiseClock (setDie (h.evictAll.closeConns.foldl fun _ k ht =>
    ht.setCore (State.canon_resetCore (s := s) (k := k) (cycle := s.cycle) (swgen := s.swgen)))))

/-! ## Bias and the host (R313, R347 to R349) -/

theorem retireRegion {region : Nat} (h : s.Canon) : (s.retireRegion d region).Canon := h.raiseAll.evictAll

theorem dropCopies {region : Nat} (h : s.Canon) : (s.dropCopies d region).Canon := h

theorem execBiasFlipToHost {region : Nat} (h : s.Canon) : Res.Canon (execBiasFlipToHost d region s) :=
  Res.Canon.either h h.retireRegion.dropCopies.modDie

theorem execBiasFlipToDevice {region : Nat} (h : s.Canon) : Res.Canon (execBiasFlipToDevice d region s) :=
  Res.Canon.either h h.dropCopies.modDie

theorem execHostSnoop {line : Nat} {data : List Byte} (h : s.Canon) : Res.Canon (execHostSnoop d line data s) :=
  Res.Canon.either h h.modDie.hostStore

theorem execHostMemRead {a n : Nat} (h : s.Canon) : Res.Canon (execHostMemRead a n s) := Res.Canon.either trivial h

theorem homeWriteAt {pa : Nat} {bs : List Byte} {w : Nat} {dirty : Option Nat} {comp : Bool} {op : Option Nat} (h : s.Canon) :
    (s.homeWriteAt pa bs w dirty comp op).1.Canon := by
  unfold State.homeWriteAt
  dsimp only
  split
  · exact h.lineWrite.markDirty
  · exact h.lineWrite

theorem hostPut {a : Nat} {bs : List Byte} (h : s.Canon) : (s.hostPut a bs).Canon := .either h.hostStore h.roomFor.homeWriteAt

theorem execHostMemWrite {a : Nat} {data : List Byte} (h : s.Canon) : Res.Canon (execHostMemWrite a data s) :=
  Res.Canon.either trivial (h.foldl fun _ _ ht => ht.hostPut)

/-! ## Migration (R378 to R380) -/

theorem setInd {e : IndEntry} (h : s.Canon) : (s.setInd d i e).Canon := h.modDie

theorem migStart (h : s.Canon) : (s.migStart d i).Canon := .either h h.setInd

theorem migRetire (h : s.Canon) : (s.migRetire d i).Canon := .either h h.setInd

theorem migEnd (h : s.Canon) : (s.migEnd d i).Canon := .either h h.retireRegion.setInd

theorem migClear (h : s.Canon) : (s.migClear d i).Canon := .either h h.setInd

/-- A block copied to its new frame. -/
theorem execMigrationBlockCopy (h : s.Canon) : Res.Canon (execMigrationBlockCopy d i s) := by
  unfold Machine.execMigrationBlockCopy
  dsimp only
  generalize Memory.read s.mem _ _ = bs
  refine .either h (setInd ?_)
  exact ⟨Memory.wf_write bs h.1 _, h.2⟩

/-! ## BAR0 (R132, R357, R359, R373, R375, R378, R410, R412) -/

theorem writeConn {v : DWord} (h : s.Canon) : (s.writeConn d i v).Canon := by
  unfold State.writeConn
  extract_lets c x s1
  have h1 : s1.Canon := .either h.setConn h
  split
  · exact h1.connSetup
  · exact h1.connTeardown
  · exact h1.connClear
  · exact h1

theorem writeInd {high : Bool} {v : DWord} (h : s.Canon) : (s.writeInd d i high v).Canon := by
  unfold State.writeInd
  refine .either ?_ (.either h.setInd h)
  split
  · exact h.migStart
  · exact h.migRetire
  · exact h.migClear
  · exact h

theorem writeFixed {off : Nat} {v : DWord} (h : s.Canon) : (s.writeFixed off v).Canon := by
  unfold State.writeFixed
  exact .either h (.either h (.either h h))

theorem writeAperture {a field : Nat} {v : DWord} (h : s.Canon) : (s.writeAperture a field v).Canon := h

theorem execBar0Write {off : Nat} {v : DWord} (h : s.Canon) : Res.Canon (execBar0Write off v s) := by
  unfold Machine.execBar0Write
  exact .either h (.either h.execFwincfgWrite (.either h.execFdevcfgWrite (.either h.writeAperture (.either h.writeConn
    (.either h.writeInd h.writeFixed)))))

end State.Canon

end Sys2Proof.Machine
end

