-- ==== Sys2Proof/Proofs/CanonSched.lean ====
section
/-! Picks, issues, the passing of time and pre-emption keep the canonical form of every memory. -/

namespace Sys2Proof.Machine

open Sys2Proof

-- One proof at a time: in parallel, the stacks of the threads exceed the memory that the check allows.
set_option Elab.async false

/-- What a slot's next move finds, its state in its canonical form. -/
def Issue.Canon : Issue → Prop
  | .idle t => t.Canon
  | .run _ t => t.Canon

theorem Issue.Canon.either {p : Prop} [Decidable p] {x y : Issue} (hx : x.Canon) (hy : y.Canon) : (if p then x else y).Canon := by
  split
  · exact hx
  · exact hy

theorem Issue.Canon.idle {x : Issue} {t : State} (h : x.Canon) (e : x = .idle t) : t.Canon := by
  subst e; exact h

theorem Issue.Canon.run {x : Issue} {i : Instr} {t : State} (h : x.Canon) (e : x = .run i t) : t.Canon := by
  subst e; exact h

namespace State.Canon

variable {s : State} {k fr slot : Nat}

/-! ## The pick of a clause (R190 to R194, R263, R377) -/

theorem clearYields {l : List (Group × Gang)} (h : s.Canon) : (s.clearYields k l).Canon := h.foldl fun _ _ ht => ht.modGroup

theorem setHold {x : Option Hold} (h : s.Canon) : (s.setHold k slot x).Canon := h.modCore

theorem startClause {g : Group} {gang : Gang} {rotated : Bool} {e : CodeEntry} {x : Header} (h : s.Canon) :
    (s.startClause k slot g gang rotated e x).Canon := by
  unfold State.startClause
  dsimp only
  split
  · exact raise (.either h.noteFetch.modGroup h.noteFetch)
  · exact .either h.noteFetch.modCore.modGroup h.noteFetch.modCore.modGroup.setHold.prepend

theorem noteHeader {g : Group} {pc bad : DWord} (h : s.Canon) : (s.noteHeader k g pc bad).Canon := h.noteStart.noteWalk.noteWalk

theorem raiseHeader {p : Group × Gang} {r : FaultRec} (h : s.Canon) : (s.raiseHeader k p r).Canon := by
  unfold State.raiseHeader
  extract_lets answered s1
  have h1 : s1.Canon := .either h.modGroup h
  exact .either (raiseDue (.either h1.noteHeader.modGroup h1)) h

theorem takeFault {f : Nat} (h : s.Canon) : (s.takeFault k slot f).Canon := by
  unfold State.takeFault
  split
  · exact h
  · exact h.takeDue
  · exact h.raiseHeader

theorem takeFaults (h : s.Canon) : (s.takeFaults k slot).Canon := h.foldl fun _ _ ht => ht.takeFault

theorem pickClause (h : s.Canon) : (s.pickClause k slot).Canon := by
  unfold State.pickClause
  dsimp only
  split
  · exact h
  · split
    · exact h
    · exact h.clearYields.startClause

theorem execClauseStart (h : s.Canon) : Res.Canon (execClauseStart k slot s) := Res.Canon.either h h.takeFaults.pickClause

/-! ## Issue (R42, R45, R191, R221, R270) -/

theorem issueHead (h : s.Canon) : (s.issueHead k slot).Canon := by
  have hf {x} : (s.setHold k slot x).Canon := h.setHold
  unfold State.issueHead
  dsimp only
  split
  · exact h
  · split
    · exact hf
    · refine .either hf (.either h ?_)
      split
      · exact .either hf.takeDue h
      · refine .either (.either hf (.either h hf)) (.either h ?_)
        split
        · exact h
        · exact setHold (raise (s := { s with iss := _ }) h)
        · exact setHold (faultHere (s := { s with iss := _ }) h)

theorem noteTargets {g : Group} {x : Hold} (h : s.Canon) : (s.noteTargets k g x).Canon := by
  unfold State.noteTargets
  extract_lets from' reached
  have hf {ws} : (from' ws).Canon := h.foldl fun _ _ ht => ht.noteStart
  have hr {t : State} (ht : t.Canon) : (reached t).Canon := ht.foldl fun _ _ hu => hu.noteStart
  split
  · exact hf
  · exact hf
  · exact hf
  · exact hf
  · exact hf
  · exact hf
  · exact hf
  · exact hr h.notePages
  · exact hr h
  · exact hr h
  · exact h

theorem settleIssue {was : Nat} {left : Bool} (h : s.Canon) : (s.settleIssue k slot was left).Canon := by
  unfold State.settleIssue
  split
  · exact h
  · split
    · exact h.setHold
    · refine .either (.either h.setHold h) ?_
      extract_lets s0 after s2 s1
      have h0 : s0.Canon := h.noteTargets.modCore
      have h1 : s1.Canon := .either h0.setHold (.either h0.setHold.modGroup h0.setHold)
      exact h1.reportStep

theorem resumeHead {slice : Nat} (h : s.Canon) : (s.resumeHead k fr slice).Canon := by
  unfold State.resumeHead
  split
  · exact h
  · split
    · exact h
    · exact .either h h.reissue

/-! ## Time (R194, R196, R334) -/

theorem passTime (h : s.Canon) : s.passTime.Canon := h.mapCores

theorem execClockCreep (h : s.Canon) : Res.Canon (execClockCreep k s) := modCore h

theorem execPriorityPromotion {launch : Nat} (h : s.Canon) : Res.Canon (execPriorityPromotion k launch s) := modCore h

theorem execSleepEnd {slice : Nat} (h : s.Canon) : Res.Canon (execSleepEnd k fr slice s) := modGroup h

/-! ## Pre-emption (R270 to R276, R298, R321, R335) -/

theorem setRecs {launch cluster : Nat} {recs : Option RecAddrs} (h : s.Canon) : (s.setRecs launch cluster recs).Canon := by
  unfold State.setRecs
  split
  · exact h
  · exact h.foldl fun _ _ ht => ht.modCore

theorem execPreemptRequest {launch : Nat} {a : SaveArgs} (h : s.Canon) : Res.Canon (execPreemptRequest launch a s) :=
  foldl h.setRecs fun _ _ ht => ht.modCore

theorem logWaitv {r : Req} (h : s.Canon) : (s.logWaitv r).Canon := h.modReq.modGroup

theorem drainOne {mask : BitVec 8} {r : FaultRec} {done : Group → Group} (h : s.Canon) : (s.drainOne k fr mask r done).Canon :=
  .either h.raise.modGroup h.raise

theorem drainFaults (h : s.Canon) : (s.drainFaults k fr).Canon := by
  unfold State.drainFaults
  split
  · exact h
  · refine .either h ?_
    extract_lets late s1 s2
    have h1 : s1.Canon := modGroup (h.foldl fun _ _ ht => ht.raise)
    have h2 : s2.Canon := by
      unfold s2
      split
      · exact h1
      · exact h1.drainOne
    split
    · exact h2
    · exact h2.drainOne

theorem settleGroup (h : s.Canon) : (s.settleGroup k fr).Canon := by
  unfold State.settleGroup
  split
  · exact h
  · extract_lets s1 s2 s3 mine s4
    have h2 : s2.Canon := h.drainFaults.abandonWaits.raiseClock
    have h3 : s3.Canon := .either h2 h2
    have h4 : s4.Canon := h3.foldl fun _ _ ht => ht.logReq
    exact h4.foldl fun _ _ ht => ht.logWaitv

theorem settleNest {launch : Nat} (h : s.Canon) : (s.settleNest k launch).Canon := by
  unfold State.settleNest
  split
  · exact h
  · split
    · exact .either h h.nestRun
    · exact h

theorem settleEngines {launch : Nat} (h : s.Canon) : (s.settleEngines k launch).Canon :=
  h.foldl fun _ _ ht => .either (ht.modCore fun _ hc => hc.setStatuses) ht.finishElem

theorem writeGroup {t : Team} (h : s.Canon) : (s.writeGroup k fr t).Canon := by
  unfold State.writeGroup
  split
  · exact h
  · exact h.storeRec.storeRec.poisonRec

theorem writeCore {t : Team} {ctx : Nat} (h : s.Canon) : (s.writeCore k t ctx).Canon := h.storeRec.poisonRec

theorem dropSaved {launch : Nat} {peers : List Nat} (h : s.Canon) : (s.dropSaved k launch peers).Canon := by
  unfold State.dropSaved
  extract_lets frs s1 gone s2 s3
  have h2 : s2.Canon := foldl (s := s1) h fun _ _ ht => ht.modCore
  have h3 : s3.Canon := h2.mapSubs
  exact h3.modCore fun _ hc => hc.dropLaunch

theorem saveCluster {launch cluster : Nat} {ks : List Nat} (h : s.Canon) : (s.saveCluster launch cluster ks).Canon := by
  unfold State.saveCluster
  extract_lets each frs s1 s2 ctx write s3 ranked notes saved s4
  have h1 : s1.Canon := h.foldl fun _ _ ht => ht.settleNest.settleEngines
  have h2 : s2.Canon := h1.foldl fun _ _ ht => ht.foldl fun _ _ hu => hu.settleGroup
  have hw {t : State} {k : Nat} (ht : t.Canon) : (write t k).Canon := by
    unfold write
    split
    · exact ht
    · exact writeCore (ht.foldl fun _ _ hu => hu.writeGroup)
  have h3 : s3.Canon := h2.foldl fun _ _ ht => hw ht
  have h4 : s4.Canon := h3.foldl fun _ _ ht => ht.dropSaved
  exact saveBlock (s := { s4 with saved := _ }) h4

theorem execSaveRecords {launch : Nat} {a : SaveArgs} (h : s.Canon) : Res.Canon (execSaveRecords launch a s) := by
  refine Res.Canon.either h (.either (.either h.saveCluster h) (foldl h.setRecs fun t k ht => ?_))
  split
  · exact ht
  · exact ht.foldl fun _ _ hu => .either hu.settleGroup.writeGroup hu

end State.Canon

end Sys2Proof.Machine
end

