-- ==== Sys2Proof/Proofs/CanonRestore.lean ====
section
/-! A restored cluster and the writes of system registers keep the canonical form of every memory. -/

namespace Sys2Proof.Machine

open Sys2Proof

-- One proof at a time: in parallel, the stacks of the threads exceed the memory that the check allows.
set_option Elab.async false

theorem canon_cellsFrom {base : Nat} {bs : List Byte} : Memory.wf (cellsFrom base bs) = true := Memory.wf_write bs Memory.wf_nil base

namespace State.Canon

variable {s : State} {k fr : Nat}

/-! ## The operand log (R212, R271) -/

theorem relogPart {r : Req} {home : Option (Fin 32 × Nat × List (BitVec 5))} (h : s.Canon) : (s.relogPart k fr r home).Canon := by
  unfold State.relogPart
  extract_lets r1 r2
  exact modGroup (s := { s with reqs := _, nextReq := _ }) h

theorem relog {op j : Nat} {note : GroupNote} {bs cmps : List Byte} (h : s.Canon) : (s.relog k fr op j note bs cmps).Canon := by
  unfold State.relog
  extract_lets pc inst lmask flag faddr lanes mask src s0 va home put each
  have hput {u : Group → State} (hu : ∀ g, (u g).Canon) : (put u).Canon := by
    unfold put
    split
    · exact h
    · exact (hu _).modGroup
  have heach {i : Instr} {f : MFields} {kind : ReqKind} {parts : List (Nat × Nat)} : (each i f kind parts).Canon :=
    hput fun _ => h.foldl fun _ _ ht => ht.foldl fun _ _ hu => hu.relogPart
  split
  · exact heach
  · exact heach
  · exact hput fun _ => h.foldl fun _ _ ht => ht.relogPart
  · exact hput fun _ => h.relogPart
  · exact h

theorem relogAll {note : GroupNote} {places : List (List Byte)} (h : s.Canon) : (s.relogAll k fr note places).Canon := by
  unfold State.relogAll
  extract_lets es t
  have ht : t.Canon := h.foldl fun _ _ hu => hu.relog
  exact ht

theorem loadGroup {l : Launch} {t : Team} {index : Nat} {note : GroupNote} (h : s.Canon) :
    (s.loadGroup k l t fr index note).Canon := h.clearXlate.setGroup.relogAll.modGroup

/-! ## Core records (R253, R275 to R277) -/

/-- The memories of a core read back from its record. -/
theorem loadCore {l : Launch} {t : Team} {rs : List (Byte × Bool)} (h : s.Canon) : (s.loadCore k l t rs).Canon := by
  unfold State.loadCore
  extract_lets r ctx priv scrOff rackOff bad status claims handles s1
  have h1 : s1.Canon := h.modCore fun c _ => by
    refine ⟨canon_cellsFrom, canon_cellsFrom, fun b hb => ?_⟩
    obtain ⟨i, hi, rfl⟩ := List.mem_iff_getElem.mp hb
    simp only [Vector.getElem_toList, Vector.getElem_ofFn]
    exact canon_cellsFrom
  exact h1

theorem loadNest {t : Team} {r : List Byte} {flags : Nat → List (Option Nat)} {all : List NestRec} {i : Nat} {n : NestRec} (h : s.Canon) :
    (s.loadNest k t r flags all i n).Canon := by
  unfold State.loadNest
  split
  · exact h
  · extract_lets earlier starts range val w locks src
    have h1 : src.Canon := h.modCore
    exact h1

theorem loadNests {t : Team} {r : List Byte} {flags : Nat → List (Option Nat)} (h : s.Canon) : (s.loadNests k t r flags).Canon :=
  h.foldl fun _ _ ht => ht.loadNest

theorem newSub {cluster rank : Nat} {m : MapRange} (h : s.Canon) : (s.newSub k cluster rank m).Canon := h.notePages.modDie

theorem rehomeSub {cluster rank : Nat} {peers : List Nat} {m : MapRange} (h : s.Canon) : (s.rehomeSub k cluster rank peers m).Canon :=
  .either h (foldl (.either h.mapSubs h.newSub) fun _ _ ht => ht.modCore)

theorem resumeOp {idx : Nat} (h : s.Canon) : (s.resumeOp k idx).Canon := by
  unfold State.resumeOp
  refine .either h (.either (h.modCore fun _ hc => hc.clearDirty) ?_)
  split
  · exact h.modCore.resumeBack
  · exact h

/-! ## The restore (R277) -/

theorem carryBlock {l : Launch} {old die : Nat} (h : s.Canon) : (s.carryBlock l old die).Canon := .either h h

theorem adopt {f : ForeignLaunch} {die : Nat} (h : s.Canon) : (s.adopt f die).Canon := by
  unfold State.adopt
  dsimp only
  split
  · exact h
  · split
    · exact h
    · exact h

theorem wakeGroup (h : s.Canon) : (s.wakeGroup k fr).Canon := by
  unfold State.wakeGroup
  split
  · exact h
  · split
    · exact .either h.setGroup.replayLog h.setGroup.raiseDue
    · exact h.replayLog

theorem loadCluster {l : Launch} {a : RestoreArgs} {notes : List GroupNote} {recs : List (List (Byte × Bool))} (h : s.Canon) :
    (s.loadCluster l a notes recs).Canon := by
  unfold State.loadCluster
  extract_lets ranks core note bytes team each frames s1 s2 locks s3 s4 s5 s6 s7 s8 s9
  have heach {u : State → Nat → State} {t : State} (ht : t.Canon) (hu : ∀ v r, v.Canon → (u v r).Canon) : (each u t).Canon := ht.foldl hu
  have hframes {u : State → Nat → Nat → State} {t : State} (ht : t.Canon) (hu : ∀ v r f, v.Canon → (u v r f).Canon) : (frames u t).Canon :=
    heach ht fun _ r hv => hv.foldl fun w f hw => hu w r f hw
  have h1 : s1.Canon := heach h fun _ _ ht => ht.loadCore
  have h2 : s2.Canon := heach h1 fun _ _ ht => ht.foldl fun _ _ hu => hu.rehomeSub
  have h3 : s3.Canon := heach h2 fun _ _ ht => ht.modCore
  have h4 : s4.Canon := hframes h3 fun _ _ _ ht => ht.loadGroup
  have h5 : s5.Canon := heach h4 fun _ _ ht => ht.loadNests
  have h6 : s6.Canon := heach h5 fun _ _ ht => ht.foldl fun _ _ hu => hu.resumeOp
  have h7 : s7.Canon := hframes h6 fun _ _ _ ht => ht.wakeGroup
  have h8 : s8.Canon := heach h7 fun _ _ ht => ht.notePages
  have h9 : s9.Canon := hframes h8 fun _ _ _ ht => ht.notePages
  exact h9

theorem execRestore {a : RestoreArgs} (h : s.Canon) : Res.Canon (execRestore a s) := by
  unfold Machine.execRestore
  extract_lets die s0
  have h0 : s0.Canon := by
    unfold s0
    split
    · exact .either h.adopt h
    · exact h
  split
  · exact .either h (.either h.tell (.either h (.either h.tell h0.carryBlock.takeBlock.loadCluster)))
  · exact h

/-! ## System registers (R132, R199, R278, R361, R375) -/

theorem execLeaseWrite {f : SFields} (h : s.Canon) : Res.Canon (execLeaseWrite f s) := h.gate fun _ => h.modCore.advance

theorem execDieselWrite {f : SFields} (h : s.Canon) : Res.Canon (execDieselWrite f s) := h.gate fun _ => h.modCore.advance

theorem execSwrite {f : SFields} (h : s.Canon) : Res.Canon (execSwrite f s) := by
  refine h.gate fun g => .either h.modCore.advance.prepend (.either h.modCore.advance (.either h.modCore.advance
    (.either (.either h.faultHere h.finish) (.either h.modCore.advance ?_))))
  extract_lets w s1 shoot
  have h1 : s1.Canon := h.modCore
  exact waitEvent (s := { s1 with shoots := _ }) h1

end State.Canon

end Sys2Proof.Machine
end

