-- ==== Sys2Proof/Proofs/CanonStep.lean ====
section
/-! Every step keeps every memory in its canonical form (O59). -/

namespace Sys2Proof.Machine

open Sys2Proof

-- One proof at a time: in parallel, the stacks of the threads exceed the memory that the check allows.
set_option Elab.async false

namespace State.Canon

variable {s : State}

/-! ## The shapes of an instruction of lanes and scalars -/

theorem vInt {i : Instr} {op : Nat} {f : VFields} {r : Int → Int → Int → Int} (h : s.Canon) : Res.Canon (s.vInt i op f r) := h.vOp

theorem vFloat {i : Instr} {op : Nat} {f : VFields} {r : FVal → FVal → FVal → FVal} (h : s.Canon) : Res.Canon (s.vFloat i op f r) := h.vOp

theorem vSpecial {i : Instr} {op : Nat} {f : VFields} {r : FVal → SfOut} (h : s.Canon) : Res.Canon (s.vSpecial i op f r) := h.vOp

theorem iOp {i : Instr} {f : IFields} {r : Nat → List Word} (h : s.Canon) : Res.Canon (s.iOp i f r) := h.laneOp

theorem iInt {i : Instr} {f : IFields} {r : Int → Int → Int} (h : s.Canon) : Res.Canon (s.iInt i f r) := h.iOp

theorem iFloat {i : Instr} {f : IFields} {r : FVal → FVal → FVal → FVal} (h : s.Canon) : Res.Canon (s.iFloat i f r) := h.laneOp

theorem shuffle {i : Instr} {op : Nat} {f : GFields} {src : Nat → Nat → Option Nat} (h : s.Canon) : Res.Canon (s.shuffle i op f src) := h.laneOp

theorem sOp {i : Instr} {op : Nat} {f : SFields} {wide : Bool} {r : Group → Nat → Nat → Nat} (h : s.Canon) :
    Res.Canon (s.sOp i op f wide r) := h.scalarOp

theorem sInt {i : Instr} {op : Nat} {f : SFields} {r : Int → Int → Int} (h : s.Canon) : Res.Canon (s.sInt i op f r) := h.sOp

theorem sBits {i : Instr} {op : Nat} {f : SFields} {r : Nat → Nat → Nat} (h : s.Canon) : Res.Canon (s.sBits i op f r) := h.sOp

/-! ## Every instruction and every event, and the moves of the agenda -/

/-- Every instruction, and every event, keeps the form. -/
theorem exec {i : Instr} (h : s.Canon) : Res.Canon (exec i s) := by
  unfold Machine.exec
  cases i with
  | dup _ | sel _ | lea _ | and _ | or _ | xor _ | not _ | shl _ | shr _ | rotl _ | bfx _ | bfi _ | popc _ | clz _ | ctz _
  | brev _ | permb _ | pack _ | ceq _ | cne _ | clt _ | cle _ | cgt _ | cge _ | cuno _ | fclass _ | fdot2 _ | fdot4 _ | fscale _
  | cvtf _ | cvtfi _ | cvtif _ => exact h.vOp
  | add _ | sub _ | mul _ | mulhi _ | mad _ | div _ | rem _ | abs _ | neg _ | min _ | max _ | clamp _ | absdiff _ => exact h.vInt
  | fadd _ | fsub _ | fmul _ | ffma _ | fmin _ | fmax _ | frnd _ => exact h.vFloat
  | rcp _ | rsq _ | sqrt _ | exp2 _ | log2 _ | sin _ | cos _ | tanh _ | sigm _ => exact h.vSpecial
  | get _ | lane _ | ldi _ | ldhi _ | pchi _ | vany _ | vall _ | bcast _ | redadd _ | redmin _ | redmax _ | scanadd _
  | matchLanes _ | rank _ | clock _ | ptime _ | pair _ => exact h.laneOp
  | addi _ | muli _ | mini _ | maxi _ => exact h.iInt
  | andi _ | ori _ | xori _ | shli _ | shri _ | clti _ => exact h.iOp
  | faddi _ | fmuli _ | ffmai _ | fmini _ | fmaxi _ => exact h.iFloat
  | shfl _ | shflx _ | shflup _ | shfldn _ => exact h.shuffle
  | sread _ | ballot _ => exact h.scalarOp
  | smov _ | sand _ | sor _ | sxor _ | snot _ | sshl _ | sshr _ | sbfx _ | spopc _ | sclz _ | sctz _ => exact h.sBits
  | ssel _ | slea _ | scmp _ => exact h.sOp
  | sadd _ | ssub _ | smul _ | smulhi _ | sdiv _ | srem _ | smin _ | smax _ => exact h.sInt
  | act _ => exact h.longOp
  | aadd _ | amin _ | amax _ | aand _ | aor _ | axor _ | axchg _ | acas _ | afadd _ | ainc _ => exact h.atomicOp
  | copy _ | copynd _ | gather _ | scatter _ => exact h.engineOp
  | mxt _ | mxp _ | mxr _ => exact h.mxOp
  | br _ | brsz _ _ | brsnz _ _ | brdec _ _ => exact h.uniform
  | brz _ _ _ | brnz _ _ _ => exact h.perLane
  | save _ _ => exact h.gate fun _ => h.finish
  | drop _ => exact h.gate fun _ => h.finish
  | swrite _ => exact h.execSwrite
  | leaseWrite _ => exact h.execLeaseWrite
  | dieselWrite _ => exact h.execDieselWrite
  | dbgHalt _ => exact h.execDbgHalt
  | dbgStep _ => exact h.execDbgStep
  | sld _ => exact h.execSld
  | sst _ => exact h.execSst
  | satom _ => exact h.execSatom
  | ld _ => exact h.execLd
  | st _ => exact h.execSt
  | pref _ => exact h.execPref
  | renew _ => exact h.execRenew
  | waitv _ => exact h.execWaitv
  | mapRange _ => exact h.execMapRange
  | unmap _ => exact h.execUnmap
  | wback _ => exact h.execWback
  | settle _ => exact h.execSettle
  | subwait _ => exact h.execSubwait
  | waith _ => exact h.execWaith
  | testh _ => exact h.execTesth
  | cancelh _ => exact h.execCancelh
  | waitall _ => exact h.execWaitall
  | take _ => exact h.execTake
  | free _ => exact h.execFree
  | bload _ => exact h.execBload
  | cbload _ => exact h.execCbload
  | bdrop _ => exact h.execBdrop
  | mma _ => exact h.execMma
  | accz _ => exact h.execAccz
  | accrd _ => exact h.execAccrd
  | rkld _ => exact h.execRkld
  | rkst _ => exact h.execRkst
  | join _ => exact h.execJoin
  | call _ _ => exact h.execCall
  | calli _ _ _ => exact h.execCalli
  | ret _ => exact h.execRet
  | exit => exact h.gate fun _ => h.setGroup
  | yieldGang => exact h.gate fun _ => h.finish
  | nop => exact h.gate fun _ => h.finish
  | brk _ => exact h.gate fun _ => h.faultHere
  | trap _ => exact h.gate fun _ => h.faultHere
  | eret => exact h.execEret
  | bar _ => exact h.execBar
  | bara _ => exact h.execBara
  | barw _ => exact h.execBarw
  | fence _ => exact h.execFence
  | xswap _ => exact h.execXswap
  | msinc _ => exact h.execMsinc
  | mswait _ => exact h.execMswait
  | launch _ => exact h.execLaunch
  | ldact _ => exact h.execLdact
  | actsel _ => exact h.execActsel
  | sleep _ => exact h.execSleep
  | fwrite _ => exact h.execFwrite
  | fcopy _ => exact h.execFcopy
  | fatom _ => exact h.execFatom
  | winfence _ => exact h.execWinfence
  | nest _ => exact h.execNest
  | clauseStart _ _ => exact h.execClauseStart
  | loadDataArrival _ => exact h.execLoadDataArrival
  | scalarDataArrival _ => exact h.execScalarDataArrival
  | longResultReady _ => exact h.execLongResultReady
  | storeAck _ => exact h.execStoreAck
  | scratchPerform _ => exact h.execScratchPerform
  | homeStore _ _ => exact h.execHomeStore
  | homeAtomic _ _ => exact h.execHomeAtomic
  | homeRenewal _ _ => exact h.execHomeRenewal
  | homeRead _ => exact h.execHomeRead
  | renewalReply _ _ => exact h.execRenewalReply
  | waitvReread _ => exact h.execWaitvReread
  | clockCreep _ => exact h.execClockCreep
  | rebase => exact h.execRebase
  | priorityPromotion _ _ => exact h.execPriorityPromotion
  | sleepEnd _ _ _ => exact h.execSleepEnd
  | replay _ _ => exact h.execReplay
  | faultServiceAnswer _ _ _ => exact h.execFaultServiceAnswer
  | groupResume _ _ _ => exact h.execGroupResume
  | softError _ _ _ => exact h.execSoftError
  | preemptRequest _ _ => exact h.execPreemptRequest
  | saveRecords _ _ => exact h.execSaveRecords
  | restore _ => exact h.execRestore
  | engineComplete _ _ => exact h.execEngineComplete
  | enginePause _ _ _ => exact h.execEnginePause
  | engineResume _ _ => exact h.execEngineResume
  | blockFill _ _ _ => exact h.execBlockFill
  | subscriptionFillDone _ _ => exact h.execSubscriptionFillDone
  | sequencerNumber _ _ _ => exact h.execSequencerNumber
  | updateApply _ _ => exact h.execUpdateApply
  | sectionPerform _ _ => exact h.execSectionPerform
  | bdropAct _ _ => exact h.execBdropAct
  | nestPerform _ => exact h.execNestPerform
  | sectionWaitEnd _ _ _ => exact h.execSectionWaitEnd
  | takeClaim _ _ _ => exact h.execTakeClaim
  | ldactBankWrite _ _ _ => exact h.execLdactBankWrite
  | barrierDepart _ _ _ => exact h.execBarrierDepart
  | xswapMatch _ _ _ => exact h.execXswapMatch
  | fenceComplete _ _ _ => exact h.execFenceComplete
  | settleComplete _ _ _ => exact h.execSettleComplete
  | mswaitReread _ _ _ => exact h.execMswaitReread
  | winfenceWindowEnd _ _ _ => exact h.execWinfenceWindowEnd
  | groupRetire _ _ => exact h.execGroupRetire
  | teamLeave _ _ => exact h.execTeamLeave
  | launchComplete _ => exact h.execLaunchComplete
  | queueTailUpdate _ _ => exact h.execQueueTailUpdate
  | passMilestoneReread _ => exact h.execPassMilestoneReread
  | clusterPlace _ => exact h.execClusterPlace
  | shootdown _ => exact h.execShootdown
  | shootdownComplete => exact h.execShootdownComplete
  | walkComplete _ => exact h.execWalkComplete
  | connSetup _ _ => exact h.connSetup
  | connTeardown _ _ => exact h.connTeardown
  | connClear _ _ => exact h.connClear
  | circuitUp _ _ => exact h.execCircuitUp
  | circuitDrained _ _ => exact h.drained
  | opticalFailure _ _ => exact h.opticalFailure
  | wavelengthFailure _ _ => exact h.execWavelengthFailure
  | streamMove _ _ => exact h.execStreamMove
  | spareWayReplace _ _ _ _ => exact h.execSpareWayReplace
  | hbmRowRemap _ _ => exact h.modDie
  | meshLinkSpare _ _ => exact h.modDie
  | coreRetire _ => exact h.execCoreRetire
  | harvestModeSet _ _ => exact h.execHarvestModeSet
  | powerShareUpdate _ => exact h.execPowerShareUpdate
  | packageReset => exact h.execPackageReset
  | dieReset _ => exact h.execDieReset
  | biasFlipToHost _ _ => exact h.execBiasFlipToHost
  | biasFlipToDevice _ _ => exact h.execBiasFlipToDevice
  | hostSnoop _ _ _ => exact h.execHostSnoop
  | hostMemRead _ _ => exact h.execHostMemRead
  | hostMemWrite _ _ => exact h.execHostMemWrite
  | migStart _ _ => exact h.migStart
  | migRetire _ _ => exact h.migRetire.migEnd
  | migClear _ _ => exact h.migClear
  | migrationBlockCopy _ _ => exact h.execMigrationBlockCopy
  | bar0Write _ _ => exact h.execBar0Write
  | fwincfgWrite _ => exact h.execFwincfgWrite
  | fdevcfgWrite _ => exact h.execFdevcfgWrite
  | remoteRequest _ => exact h.execRemoteRequest
  | remoteWritePerform _ => exact h.execRemoteWritePerform
  | remoteWriteTimeout _ => exact h.execRemoteWriteTimeout
  | syncLoss _ => exact h.execSyncLoss
  | syncRegain _ => exact h.execSyncRegain
  | headFlitError _ _ => exact h.execHeadFlitError
  | uncorrectableMemoryError _ => exact h.execUncorrectableMemoryError
  | l2SliceFailure _ _ => exact h.execL2SliceFailure
  | endLaunch _ => exact h.execEndLaunch
  | queueStatusClear _ _ => exact h.execQueueStatusClear

theorem stepIssue {core slot : Nat} (h : s.Canon) : Res.Canon (s.stepIssue core slot) := by
  have hi := h.issueHead (k := core) (slot := slot)
  unfold State.stepIssue
  split
  · next e => exact hi.idle e
  · next i _ e =>
    have hx := (hi.run e).exec (i := i)
    split
    · next ex => exact (hx.next ex).settleIssue
    · trivial
    · trivial

theorem stepResume {core frame slice : Nat} (h : s.Canon) : Res.Canon (s.stepResume core frame slice) := by
  have hi := h.resumeHead (k := core) (fr := frame) (slice := slice)
  unfold State.stepResume
  split
  · next e => exact hi.idle e
  · next i _ e =>
    have hx := (hi.run e).exec (i := i)
    split
    · next ex => exact (hx.next ex).reportStep
    · trivial
    · trivial

theorem takeMove (h : s.Canon) : s.takeMove.2.Canon := by
  unfold State.takeMove
  split <;> exact h

theorem step (h : s.Canon) : Res.Canon (step s) := by
  have h1 := h.takeMove
  unfold Machine.step
  split <;> rename_i e <;> rw [e] at h1
  · exact h1.stepIssue
  · exact .either h1.exec h1
  · split
    · exact h1
    · exact h1.prepend
  · exact h1.passTime
  · exact h1.moveUnits
  · exact h1.stepResume

end State.Canon

/-- Settles O59: a step's writes to a memory are writes of bytes, which keep the canonical form, or restrict it to some cells. -/
theorem memoryStaysCanonical : Obligations.MemoryStaysCanonical := by
  unfold Obligations.MemoryStaysCanonical
  intro s t hs ht
  exact State.memOk_iff.mpr ((State.memOk_iff.mp hs).step.next ht)

end Sys2Proof.Machine
end

