-- ==== Sys2Proof/Proofs/GateForms.lean ====
section
/-! Each instruction of code goes through its checks, and through its interlocks, before anything else (O24). -/

namespace Sys2Proof.Machine

open Sys2Proof

-- One proof at a time: in parallel, the stacks of the threads exceed the memory that the check allows.
set_option Elab.async false

variable {s : State} {g : Group} {i : Instr}

/-! ## What the checks come to (R76) -/

theorem checked_fails {c : Cause} (hg : s.group? s.iss.core s.iss.frame = some g) (hc : s.checks g i = some c) (k : Group → Res) :
    s.checked i k = .next (s.faultHere c 0) := by
  simp only [State.checked, hg, hc]

theorem checked_passes (hg : s.group? s.iss.core s.iss.frame = some g) (hc : s.checks g i = none) (k : Group → Res) :
    s.checked i k = k g := by
  simp only [State.checked, hg, hc]

/-- The fault of the first check of R76 that fails, for each check in turn. -/
theorem checks_order {c : Cause} (h : s.checks g i = some c) :
    (c = .illop ↔ i.wf = false ∨ g.hdr.allows i.form = false) ∧
    (c = .fmtFault ↔ i.wf = true ∧ g.hdr.allows i.form = true ∧ formFmtLegal i.form = false) ∧
    (c = .unitAbsent ↔ i.wf = true ∧ g.hdr.allows i.form = true ∧ formFmtLegal i.form = true ∧ s.unitAbsent i.form = true) ∧
    (c = .prot ↔ i.wf = true ∧ g.hdr.allows i.form = true ∧ formFmtLegal i.form = true ∧ s.unitAbsent i.form = false ∧
      g.priv = false ∧ formPrivileged i.form = true) := by
  simp only [State.checks, Bool.or_eq_true, Bool.not_eq_true', Bool.and_eq_true] at h
  split at h
  · next bad => cases h; simp [bad]; grind
  · next good =>
    obtain ⟨hw, ha⟩ : i.wf = true ∧ g.hdr.allows i.form = true := by simpa using good
    split at h
    · next bad => cases h; simp [hw, ha, bad]
    · next hf =>
      split at h
      · next absent => cases h; simp [hw, ha, hf, absent]
      · next present =>
        split at h
        · next bad => cases h; simp [hw, ha, hf, present, bad]
        · cases h

/-! ## What the interlocks come to (R17, R210, R262) -/

/-- With no load logged an instruction that waits changes nothing. -/
theorem waitFor_of_log_nil (h : g.log = []) (ids : List Nat) : s.waitFor g ids = s := by
  simp only [State.waitFor, h, List.find?_nil]

theorem unblocked_blocked (hb : g.blockedBy s.iss.mask (formAges i.form) (formPushes i.form) ≠ []) (hl : g.log = []) (k : Res) :
    s.unblocked i g k = .next s := by
  simp only [State.unblocked, waitFor_of_log_nil hl]

theorem unblocked_poisoned {p : PoisonMark} (hb : g.blockedBy s.iss.mask (formAges i.form) (formPushes i.form) = [])
    (hp : g.poisonRead s.iss.mask (formAges i.form) = some p) (k : Res) : s.unblocked i g k = .next (s.faultPoison p) := by
  simp only [State.unblocked, hb, hp]

/-- An instruction that reads no entry and pushes none waits for none. -/
theorem blockedBy_nil (mask : BitVec 8) : g.blockedBy mask [] 0 = [] := by
  simp [Group.blockedBy, Lane.nextEntries]

/-- An instruction that reads no entry reads no poisoned one. -/
theorem poisonRead_nil (mask : BitVec 8) : g.poisonRead mask [] = none := by
  simp [Group.poisonRead]

theorem ages_zero (o : Operand) : o.ages 0 = [] := by
  unfold Operand.ages
  split <;> rfl

/-! ## The shapes of an instruction -/

/-- What an instruction comes to where its checks and interlocks come first: it goes through both, or it goes through its checks, and
it reads no entry by its fields and pushes none, so that no interlock holds it. -/
inductive State.Gated (s : State) (i : Instr) : Res → Prop
  | gate (k : Group → Res) : s.Gated i (s.gate i k)
  | free (k : Group → Res) (ages : formAges i.form = []) (pushes : formPushes i.form = 0) : s.Gated i (s.checked i k)

namespace State.Gated

theorem laneOp {r : Group → Fin 32 → Lane → List Word} : s.Gated i (s.laneOp i r) := .gate _

theorem longOp {r : Group → Fin 32 → Lane → List Word} : s.Gated i (s.longOp i r) := .gate _

theorem vOp {op : Nat} {f : VFields} {r : Nat → Nat → Nat → List Word} : s.Gated i (s.vOp i op f r) := by
  unfold State.vOp
  extract_lets
  split
  · exact longOp
  · exact laneOp

theorem vInt {op : Nat} {f : VFields} {r : Int → Int → Int → Int} : s.Gated i (s.vInt i op f r) := vOp

theorem vFloat {op : Nat} {f : VFields} {r : FVal → FVal → FVal → FVal} : s.Gated i (s.vFloat i op f r) := vOp

theorem vSpecial {op : Nat} {f : VFields} {r : FVal → SfOut} : s.Gated i (s.vSpecial i op f r) := vOp

theorem iOp {f : IFields} {r : Nat → List Word} : s.Gated i (s.iOp i f r) := laneOp

theorem iInt {f : IFields} {r : Int → Int → Int} : s.Gated i (s.iInt i f r) := iOp

theorem iFloat {f : IFields} {r : FVal → FVal → FVal → FVal} : s.Gated i (s.iFloat i f r) := laneOp

theorem shuffle {op : Nat} {f : GFields} {src : Nat → Nat → Option Nat} : s.Gated i (s.shuffle i op f src) := laneOp

theorem scalarOp {u : Group → Group} : s.Gated i (s.scalarOp i u) := .gate _

theorem sOp {op : Nat} {f : SFields} {wide : Bool} {r : Group → Nat → Nat → Nat} : s.Gated i (s.sOp i op f wide r) := scalarOp

theorem sInt {op : Nat} {f : SFields} {r : Int → Int → Int} : s.Gated i (s.sInt i op f r) := sOp

theorem sBits {op : Nat} {f : SFields} {r : Nat → Nat → Nat} : s.Gated i (s.sBits i op f r) := sOp

theorem uniform {off : Word} {test : Group → Bool} {u : Group → Group} : s.Gated i (s.uniform i off test u) := .gate _

theorem memGate {k : Group → Res} : s.Gated i (s.memGate i k) := .gate _

theorem atomicOp {op : AtomOp} {f : MFields} : s.Gated i (s.atomicOp i op f) := memGate

theorem engineOp {op : Nat} {f : EFields} {fault : List Word → Option (Cause × DWord)}
    {dev : Group → List Word → Option (Cause × DWord)} {regions : List Word → List Region} :
    s.Gated i (s.engineOp i op f fault dev regions) := memGate

theorem xGate {byQuarter : Bool} {k : Group → Res} : s.Gated i (s.xGate i byQuarter k) := memGate

theorem mxOp {op : Nat} {f : XFields} : s.Gated i (s.mxOp i op f) := xGate

theorem barGate {f : YFields} {k : Group → Res} : s.Gated i (s.barGate i f k) := .gate _

/-- An instruction that is tried again after it has latched its scalars passes its interlocks no more: it has none (R214). -/
theorem latchGate {k : Group → Res} (ages : formAges i.form = []) (pushes : formPushes i.form = 0) : s.Gated i (s.latchGate i k) := by
  unfold State.latchGate
  split
  · exact memGate
  · exact .free k ages pushes

/-- Every instruction of code but JOIN and the per-lane branches, which have checks of their own before their interlocks. -/
theorem exec (hi : i.form ≠ .event) (hj : ∀ f, i ≠ .join f) (hb : ∀ c j t, i ≠ .brz c j t ∧ i ≠ .brnz c j t) :
    s.Gated i (exec i s) := by
  unfold Machine.exec
  cases i with
  | dup _ | sel _ | lea _ | and _ | or _ | xor _ | not _ | shl _ | shr _ | rotl _ | bfx _ | bfi _ | popc _ | clz _ | ctz _
  | brev _ | permb _ | pack _ | ceq _ | cne _ | clt _ | cle _ | cgt _ | cge _ | cuno _ | fclass _ | fdot2 _ | fdot4 _ | fscale _
  | cvtf _ | cvtfi _ | cvtif _ => exact vOp
  | add _ | sub _ | mul _ | mulhi _ | mad _ | div _ | rem _ | abs _ | neg _ | min _ | max _ | clamp _ | absdiff _ => exact vInt
  | fadd _ | fsub _ | fmul _ | ffma _ | fmin _ | fmax _ | frnd _ => exact vFloat
  | rcp _ | rsq _ | sqrt _ | exp2 _ | log2 _ | sin _ | cos _ | tanh _ | sigm _ => exact vSpecial
  | act _ => exact longOp
  | get _ | lane _ | ldi _ | ldhi _ | pchi _ | vany _ | vall _ | bcast _ | redadd _ | redmin _ | redmax _ | scanadd _
  | matchLanes _ | rank _ | clock _ | ptime _ | pair _ => exact laneOp
  | addi _ | muli _ | mini _ | maxi _ => exact iInt
  | andi _ | ori _ | xori _ | shli _ | shri _ | clti _ => exact iOp
  | faddi _ | fmuli _ | ffmai _ | fmini _ | fmaxi _ => exact iFloat
  | shfl _ | shflx _ | shflup _ | shfldn _ => exact shuffle
  | sread _ | ballot _ => exact scalarOp
  | smov _ | sand _ | sor _ | sxor _ | snot _ | sshl _ | sshr _ | sbfx _ | spopc _ | sclz _ | sctz _ => exact sBits
  | ssel _ | slea _ | scmp _ => exact sOp
  | sadd _ | ssub _ | smul _ | smulhi _ | sdiv _ | srem _ | smin _ | smax _ => exact sInt
  | br _ | brsz _ _ | brsnz _ _ | brdec _ _ => exact uniform
  | save _ _ | drop _ | swrite _ | leaseWrite _ | dieselWrite _ | call _ _ | calli _ _ _ | exit | yieldGang | nop | brk _ | trap _
  | fence _ | xswap _ | actsel _ | sleep _ | winfence _ => exact .gate _
  | sld _ | sst _ | satom _ | ld _ | st _ | pref _ | renew _ | waitv _ | mapRange _ | unmap _ | wback _ | settle _ | testh _
  | cancelh _ | waitall _ | msinc _ | ldact _ | fwrite _ | fcopy _ | fatom _ | nest _ => exact memGate
  | aadd _ | amin _ | amax _ | aand _ | aor _ | axor _ | axchg _ | acas _ | afadd _ | ainc _ => exact atomicOp
  | copy _ | copynd _ | gather _ | scatter _ => exact engineOp
  | subwait _ | waith _ => exact latchGate rfl rfl
  | mswait _ | launch _ => exact latchGate (ages_zero _) rfl
  | take _ | free _ | bload _ | cbload _ | bdrop _ | mma _ | accz _ | accrd _ | rkld _ | rkst _ => exact xGate
  | mxt _ | mxp _ | mxr _ => exact mxOp
  | bar _ | bara _ | barw _ => exact barGate
  | ret _ | eret => exact .free _ rfl rfl
  | join f => exact absurd rfl (hj f)
  | brz c j t => exact absurd rfl (hb c j t).1
  | brnz c j t => exact absurd rfl (hb c j t).2
  | _ => exact absurd rfl hi

/-- An instruction that fails a check reports it. -/
theorem fails {r : Res} {c : Cause} (h : s.Gated i r) (hg : s.group? s.iss.core s.iss.frame = some g) (hc : s.checks g i = some c) :
    r = .next (s.faultHere c 0) := by
  cases h with
  | gate k => exact gate_checks hg hc k
  | free k _ _ => exact checked_fails hg hc k

/-- An instruction that waits for an entry, with no load logged, changes nothing. -/
theorem waits {r : Res} (h : s.Gated i r) (hg : s.group? s.iss.core s.iss.frame = some g) (hc : s.checks g i = none)
    (hb : g.blockedBy s.iss.mask (formAges i.form) (formPushes i.form) ≠ []) (hl : g.log = []) : r = .next s := by
  cases h with
  | gate k => rw [gate_blocked hg hc hb, waitFor_of_log_nil hl]
  | free k ages pushes => exact absurd (by rw [ages, pushes, blockedBy_nil]) hb

/-- An instruction that reads a poisoned entry reports it. -/
theorem reportsPoison {r : Res} {p : PoisonMark} (h : s.Gated i r) (hg : s.group? s.iss.core s.iss.frame = some g)
    (hc : s.checks g i = none) (hb : g.blockedBy s.iss.mask (formAges i.form) (formPushes i.form) = [])
    (hp : g.poisonRead s.iss.mask (formAges i.form) = some p) : r = .next (s.faultPoison p) := by
  cases h with
  | gate k => exact gate_poisoned hg hc hb hp k
  | free k ages _ => rw [ages, poisonRead_nil] at hp; cases hp

end State.Gated

end Sys2Proof.Machine
end

