-- ==== Sys2Proof/Proofs/GateOrder.lean ====
section
/-! The gate of an instruction (O24): the per-lane branches, and the obligation. -/

namespace Sys2Proof.Machine

open Sys2Proof

-- One proof at a time: in parallel, the stacks of the threads exceed the memory that the check allows.
set_option Elab.async false

variable {s : State} {g : Group} {i : Instr}

/-! ## The per-lane branches (R158, R159) -/

/-- The target of a branch by a signed number of words (R154). -/
theorem relative_toInt {n : Nat} (t : BitVec n) : s.relative t.toInt = s.iss.pc + t.signExtend 64 * 4 := by
  unfold State.relative
  rw [BitVec.ofInt_mul, BitVec.mul_comm]
  rfl

/-- A per-lane branch with sound targets and a free divergence entry goes through its interlocks. -/
theorem perLane_unblocked {c : Operand} {m n : Nat} {j : BitVec m} {t : BitVec n} (takes : Nat → Bool)
    (hg : s.group? s.iss.core s.iss.frame = some g) (hc : s.checks g i = none) (hd : g.divDepth < g.hdr.divDepth)
    (ht : s.targetFault g (s.iss.pc + t.signExtend 64 * 4) = none) (hj : s.targetFault g (s.iss.pc + j.signExtend 64 * 4) = none) :
    ∃ k, s.perLane i c j.toInt t.toInt takes = s.unblocked i g k := by
  rw [State.perLane, checked_passes hg hc]
  simp only [relative_toInt, ht, hj, Option.or_none, if_neg (Nat.not_le.mpr hd)]
  exact ⟨_, rfl⟩

/-- BRZ and BRNZ with sound targets and a free divergence entry go through their interlocks. -/
theorem exec_branch_unblocked {c : Operand} {j : BitVec 22} {t : BitVec 20} (hi : i = .brz c j t ∨ i = .brnz c j t)
    (hg : s.group? s.iss.core s.iss.frame = some g) (hc : s.checks g i = none) (hd : g.divDepth < g.hdr.divDepth)
    (ht : s.targetFault g (s.iss.pc + t.signExtend 64 * 4) = none) (hj : s.targetFault g (s.iss.pc + j.signExtend 64 * 4) = none) :
    ∃ k, exec i s = s.unblocked i g k := by
  rcases hi with rfl | rfl <;> unfold exec
  · unfold execBrz
    exact perLane_unblocked _ hg hc hd ht hj
  · unfold execBrnz
    exact perLane_unblocked _ hg hc hd ht hj

/-! ## The checks of every instruction -/

/-- An instruction of code that fails a check takes the check's fault and has no other effect (R76). -/
theorem exec_fails {c : Cause} (hi : i.form ≠ .event) (hg : s.group? s.iss.core s.iss.frame = some g) (hc : s.checks g i = some c) :
    exec i s = .next (s.faultHere c 0) := by
  by_cases hj : ∃ f, i = .join f
  · obtain ⟨f, rfl⟩ := hj
    exact checked_fails hg hc _
  by_cases hb : ∃ c j t, i = .brz c j t ∨ i = .brnz c j t
  · obtain ⟨o, j, t, rfl | rfl⟩ := hb
    · exact checked_fails hg hc _
    · exact checked_fails hg hc _
  push Not at hj hb
  exact (State.Gated.exec hi hj hb).fails hg hc

/-- Settles O24: each instruction goes through its checks first, and through its interlocks next, but for JOIN, whose ages it reads by a
rule of its own, and the per-lane branches, which check their targets and their divergence entry between the two. -/
theorem gateOfAnInstruction : Obligations.GateOfAnInstruction := by
  unfold Obligations.GateOfAnInstruction
  refine ⟨fun s g i c hi hg hc => ⟨exec_fails hi hg hc, checks_order hc⟩, fun s g i hi hg hc => ⟨fun hj hb => ?_, ?_⟩⟩
  · have h := State.Gated.exec (s := s) hi hj hb
    exact ⟨h.waits hg hc, fun hn p hp => h.reportsPoison hg hc hn hp⟩
  · intro c j t hbr hd ht hjt
    obtain ⟨k, hk⟩ := exec_branch_unblocked hbr hg hc hd ht hjt
    rw [hk]
    exact ⟨fun hn hl => unblocked_blocked hn hl k, fun hn p hp => unblocked_poisoned hn hp k⟩

end Sys2Proof.Machine
end

