-- ==== Sys2Proof/Proofs/MovesAndScalars.lean ====
section
/-! The trail instructions (O1) and the register-to-register scalar instructions (O12) complete. -/

namespace Sys2Proof.Machine

open Sys2Proof

-- One proof at a time: in parallel, the stacks of the threads exceed the memory that the check allows.
set_option Elab.async false

variable {s : State} {g : Group} {i : Instr}

/-! ## Trail instructions (R116, R117) -/

/-- Below the conversions an instruction is long-latency under f64 alone (R137). -/
theorem vLong_of_lt {op : Nat} {f : VFields} (h : op < 0x4A) : vLong op f = (f.ty == .f64) := by
  have h1 : ¬ (0x4A ≤ op ∧ op ≤ 0x4C) := by omega
  have h2 : ¬ (0x50 ≤ op ∧ op ≤ 0x59) := by omega
  simp only [vLong, decide_eq_false h1, decide_eq_false h2, Bool.false_and, Bool.or_false]

/-- A ready instruction below the conversions pushes at once, or later under f64. -/
theorem vOp_ready_of_lt {op : Nat} {f : VFields} (h : s.Ready i g) (hop : op < 0x4A) (r : Nat → Nat → Nat → List Word) :
    s.vOp i op f r = .next (if f.ty = .f64 then s.vSentOff g op f r else s.vPushed g op f r) := by
  simp only [vOp_ready h, vLong_of_lt hop, beq_iff_eq]

/-- A selection read from its false branch. -/
theorem selected_words (wide : Bool) (c x y : Nat) :
    wordsOf wide (if c ≠ 0 then x else y) = if c = 0 then wordsOf wide y else wordsOf wide x := by
  by_cases h : c = 0 <;> simp [h]

/-- Settles O1: each is the shape of its meaning, taken up by the ready group. -/
theorem trailInstructionsComplete : Obligations.TrailInstructionsComplete := by
  unfold Obligations.TrailInstructionsComplete
  intro s g f slot age n
  refine ⟨fun h => ?_, fun h => ?_, fun h => ?_, fun h => ?_, fun h => ?_, fun h => ?_⟩
  · change execDup f s = _
    rw [execDup, vOp_ready_of_lt h (by decide)]
  · change execSel f s = _
    rw [execSel, vOp_ready_of_lt h (by decide)]
    simp only [selected_words]
  · change execGet slot s = _
    rw [execGet, laneOp_ready h]
  · change execLane f s = _
    rw [execLane, laneOp_ready h]
  · change execSave age slot s = _
    rw [execSave, gate_ready h]
    simp only [Lane.age, Lane.at, BitVec.ofNat_toNat, BitVec.setWidth_eq]
  · change execDrop n s = _
    rw [execDrop, gate_ready h]
    simp only [Lane.drop, BitVec.ofNat_toNat, BitVec.setWidth_eq]

/-! ## Scalar instructions (R115, R119, R129, R130) -/

/-- A ready instruction of class S writes its result to DST. -/
theorem sOp_ready {op : Nat} {f : SFields} {wide : Bool} (h : s.Ready i g) (r : Group → Nat → Nat → Nat) :
    s.sOp i op f wide r = .next (s.sWritten g op f wide (r g)) := scalarOp_ready h _

theorem keepInt_wrap (t : Ty) (x : Int) : keepInt t false x = (BitVec.ofInt t.width x).toNat := by
  simp [keepInt, wrapInt]

/-- An integer result of class S wraps in the width of its type. -/
theorem sInt_ready {op : Nat} {f : SFields} (h : s.Ready i g) (k : Int → Int → Int) : s.sInt i op f k =
    .next (s.sWritten g op f f.ty.is64 fun a b => (BitVec.ofInt f.ty.width (k (intVal f.ty a) (intVal f.ty b))).toNat) := by
  simp only [State.sInt, sOp_ready h, keepInt_wrap]

theorem divInt_eq (t : Ty) (x y : Int) :
    divInt t x y = if y = 0 then (if t.isSigned ∧ 0 ≤ x then 1 else -1) else Int.tdiv x y := by
  unfold divInt
  by_cases hs : t.isSigned = true <;> by_cases hx : x < 0 <;> simp [hs, hx, not_le.mpr, not_lt.mp]

theorem remInt_eq (x y : Int) : remInt x y = x - y * Int.tdiv x y := by
  unfold remInt
  split
  · next h => simp [h]
  · exact Int.tmod_def x y

theorem pick_min (x y : Int) : (if y < x then y else x) = min x y := by grind

theorem pick_max (x y : Int) : (if x < y then y else x) = max x y := by grind

theorem toNat_decided (b : Bool) : b.toNat = if b then 1 else 0 := by cases b <;> rfl

/-- Settles O12: each is a function of its two sources, written to DST by the ready group. -/
theorem scalarInstructionsComplete : Obligations.ScalarInstructionsComplete := by
  unfold Obligations.ScalarInstructionsComplete
  intro s g f p w int hp h
  simp only [List.mem_cons, List.not_mem_nil, or_false] at hp
  rcases hp with rfl | rfl | rfl | rfl | rfl | rfl | rfl | rfl | rfl | rfl | rfl | rfl | rfl | rfl | rfl | rfl | rfl | rfl | rfl | rfl |
    rfl | rfl
  · change execSmov f s = _
    rw [execSmov, State.sBits, sOp_ready h]
  · change execSsel f s = _
    rw [execSsel, sOp_ready h]
    simp only [ite_not]
  · change execSadd f s = _
    rw [execSadd, sInt_ready h]
  · change execSsub f s = _
    rw [execSsub, sInt_ready h]
  · change execSmul f s = _
    rw [execSmul, sInt_ready h]
  · change execSmulhi f s = _
    rw [execSmulhi, sInt_ready h]
    rfl
  · change execSdiv f s = _
    rw [execSdiv, sInt_ready h]
    simp only [divInt_eq, int, w]
  · change execSrem f s = _
    rw [execSrem, sInt_ready h]
    simp only [remInt_eq, int, w]
  · change execSmin f s = _
    rw [execSmin, sInt_ready h]
    simp only [pick_min, int, w]
  · change execSmax f s = _
    rw [execSmax, sInt_ready h]
    simp only [pick_max, int, w]
  · change execSlea f s = _
    rw [execSlea, sOp_ready h]
  · change execSand f s = _
    rw [execSand, State.sBits, sOp_ready h]
  · change execSor f s = _
    rw [execSor, State.sBits, sOp_ready h]
  · change execSxor f s = _
    rw [execSxor, State.sBits, sOp_ready h]
  · change execSnot f s = _
    rw [execSnot, State.sBits, sOp_ready h]
  · change execSshl f s = _
    rw [execSshl, State.sBits, sOp_ready h]
  · change execSshr f s = _
    rw [execSshr, State.sBits, sOp_ready h]
  · change execSbfx f s = _
    rw [execSbfx, State.sBits, sOp_ready h]
  · change execSpopc f s = _
    rw [execSpopc, State.sBits, sOp_ready h]
  · change execSclz f s = _
    rw [execSclz, State.sBits, sOp_ready h]
  · change execSctz f s = _
    rw [execSctz, State.sBits, sOp_ready h]
  · change execScmp f s = _
    rw [execScmp, sOp_ready h]
    simp only [toNat_decided]
end Sys2Proof.Machine
end

