-- ==== Sys2Proof/Proofs/CallRecords.lean ====
section
/-! What a call does to a group, field by field, and that a return at once undoes it (O19). -/

namespace Sys2Proof.Machine

open Sys2Proof

-- One proof at a time: in parallel, the stacks of the threads exceed the memory that the check allows.
set_option Elab.async false

/-! ## Tables filled key by key -/

namespace Sparse

variable {α β : Type} {key : β → Nat} {val : β → α}

theorem get?_foldl_put_notMem {xs : List β} {t : Sparse α} {k : Nat} (h : ∀ x ∈ xs, k ≠ key x) :
    Sparse.get? (xs.foldl (fun t x => Sparse.put t (key x) (val x)) t) k = Sparse.get? t k := by
  induction xs generalizing t with
  | nil => rfl
  | cons a xs ih =>
    rw [List.foldl_cons, ih fun x hx => h x (List.mem_cons_of_mem _ hx), get?_put, if_neg (h a List.mem_cons_self)]

/-- A table into which values are put under keys of their own holds each of them. -/
theorem get?_foldl_put {xs : List β} {t : Sparse α} {x : β} (inj : Function.Injective key) (h : x ∈ xs) :
    Sparse.get? (xs.foldl (fun t x => Sparse.put t (key x) (val x)) t) (key x) = some (val x) := by
  induction xs generalizing t with
  | nil => cases h
  | cons a xs ih =>
    by_cases hx : x ∈ xs
    · exact ih hx
    · obtain rfl : x = a := (List.mem_cons.mp h).resolve_right hx
      rw [List.foldl_cons, get?_foldl_put_notMem fun y hy e => hx (by rwa [inj e]), get?_put, if_pos rfl]

end Sparse

theorem laneKey_injective (level : Fin 32 → Nat) : Function.Injective fun l => laneKey (level l) l.val := by
  intro l m h
  simp only [laneKey] at h
  omega

theorem sliceKey_injective (level : Fin 8 → Nat) : Function.Injective fun i => sliceKey (level i) i.val := by
  intro i j h
  simp only [sliceKey] at h
  omega

/-! ## Lanes and slices of a split -/

@[simp] theorem mem_activeLanes {g : Group} {mask : BitVec 8} {l : Fin 32} : l ∈ g.activeLanes mask ↔ g.on mask l = true := by
  simp [Group.activeLanes]

@[simp] theorem mem_slicesOf {mask : BitVec 8} {i : Fin 8} : i ∈ slicesOf mask ↔ mask.getLsbD i.val = true := by
  simp [slicesOf]

/-- The slice of an active lane of a split is one of the split's. -/
theorem slice_of_on {g : Group} {mask : BitVec 8} {l : Fin 32} (h : g.on mask l = true) :
    mask.getLsbD (sliceOfLane l).val = true := by
  simp only [Group.on, Bool.and_eq_true] at h
  exact h.1

/-- Which lanes of a split execute is a matter of ACTIVE and EXITED alone. -/
theorem on_congr {g h : Group} (ha : ∀ i : Fin 8, h.slices[i].active = g.slices[i].active)
    (he : ∀ i : Fin 8, h.slices[i].exited = g.slices[i].exited) (mask : BitVec 8) (l : Fin 32) : h.on mask l = g.on mask l := by
  simp only [Group.on, Group.laneActive, ha, he]

/-! ## The call (R32, R33) -/

section

variable {g : Group} {mask : BitVec 8} {n : Nat} {args : Fin 32 → Lane → List Word} {ret : Fin 8 → DWord × Nat} {flt : Option FaultRec}
  {t : DWord}

@[simp] theorem callInto_lane (l : Fin 32) : (g.callInto mask n args ret flt t).lanes[l] =
    if g.on mask l then g.lanes[l].enter (args l g.lanes[l]) else g.lanes[l] := by
  simp only [Group.callInto, Group.mapSlices_lanes, Group.mapLanes_lane]

@[simp] theorem callInto_slice (i : Fin 8) : (g.callInto mask n args ret flt t).slices[i] =
    if mask.getLsbD i.val then
      { g.slices[i] with depth := g.slices[i].depth + 1, dvtop := 63, pc := t, iidx := 0,
                         handler := flt.isSome || g.slices[i].handler, skip := !flt.isSome && g.slices[i].skip }
    else g.slices[i] := by
  simp only [Group.callInto, Group.mapSlices_slice, Group.mapLanes_slices]

@[simp] theorem callInto_scalars : (g.callInto mask n args ret flt t).scalars = g.scalars := by
  simp only [Group.callInto, Group.mapSlices_scalars, Group.mapLanes_scalars]
@[simp] theorem callInto_flags : (g.callInto mask n args ret flt t).flags = g.flags := by
  simp only [Group.callInto, Group.mapSlices_flags, Group.mapLanes_flags]
@[simp] theorem callInto_div : (g.callInto mask n args ret flt t).div = g.div := by
  simp only [Group.callInto, Group.mapSlices_div, Group.mapLanes_div]
@[simp] theorem callInto_status : (g.callInto mask n args ret flt t).status = g.status := by
  simp only [Group.callInto, Group.mapSlices_status, Group.mapLanes_status]

/-- The record of each active lane, at the level that its slice calls into. -/
theorem callInto_laneRec {l : Fin 32} (h : g.on mask l = true) :
    Sparse.get? (g.callInto mask n args ret flt t).laneRecs (laneKey (g.slices[sliceOfLane l].depth + 1) l.val) =
      some g.lanes[l].toRec :=
  Sparse.get?_foldl_put (laneKey_injective fun l => g.slices[sliceOfLane l].depth + 1) (mem_activeLanes.mpr h)

/-- The record of each slice, at the level that it calls into. -/
theorem callInto_sliceRec {i : Fin 8} (h : mask.getLsbD i.val = true) :
    Sparse.get? (g.callInto mask n args ret flt t).sliceRecs (sliceKey (g.slices[i].depth + 1) i.val) =
      some ⟨(ret i).1, g.slices[i].active, BitVec.ofNat 4 n, g.divDepth, g.slices[i].dvtop, (ret i).2, flt.isSome⟩ :=
  Sparse.get?_foldl_put (sliceKey_injective fun i => g.slices[i].depth + 1) (mem_slicesOf.mpr h)

/-- The fault of each slice that a handler entry has written a trap record for. -/
theorem callInto_trap {i : Fin 8} {r : FaultRec} (h : mask.getLsbD i.val = true) :
    Sparse.get? (g.callInto mask n args ret (some r) t).traps (sliceKey (g.slices[i].depth + 1) i.val) = some r :=
  Sparse.get?_foldl_put (val := fun _ => r) (sliceKey_injective fun i => g.slices[i].depth + 1) (mem_slicesOf.mpr h)

/-- A call leaves each lane active that was. -/
@[simp] theorem callInto_on (m : BitVec 8) (l : Fin 32) : (g.callInto mask n args ret flt t).on m l = g.on m l := by
  refine on_congr (fun i => ?_) (fun i => ?_) m l <;> rw [callInto_slice] <;> split <;> rfl

/-! ## The return at once (R170) -/

theorem enter_pantry (l : Lane) (ws : List Word) : (l.enter ws).pantry = l.pantry := by
  have push : ∀ (ws : List Word) (m : Lane), (ws.foldl Lane.push m).pantry = m.pantry := fun ws => by
    induction ws with
    | nil => exact fun _ => rfl
    | cons w ws ih => exact fun m => ih (m.push w)
  exact push ws _

/-- A record gives its lane back to one with the lane's pantry. -/
theorem ofRec_toRec {l m : Lane} (h : m.pantry = l.pantry) : m.ofRec l.toRec = l := by
  simp only [Lane.ofRec, Lane.toRec, h]

/-- A return at once finds each active lane as it called, with the returned values on top. -/
theorem restoreLanes_callInto (vals : Lane → List Word) (l : Fin 32) :
    ((g.callInto mask n args ret flt t).restoreLanes mask vals).lanes[l] =
      if g.on mask l then g.lanes[l].emits (vals (g.callInto mask n args ret flt t).lanes[l]) else g.lanes[l] := by
  rw [Group.restoreLanes, Group.mapLanes_lane, callInto_on]
  by_cases hon : g.on mask l = true
  · have hdepth : (g.callInto mask n args ret flt t).slices[sliceOfLane l].depth = g.slices[sliceOfLane l].depth + 1 := by
      rw [callInto_slice, if_pos (slice_of_on hon)]
    have hpantry : (g.callInto mask n args ret flt t).lanes[l].pantry = g.lanes[l].pantry := by
      rw [callInto_lane, if_pos hon, enter_pantry]
    simp only [hon, if_true, hdepth, callInto_laneRec hon, ofRec_toRec hpantry]
  · simp only [hon, if_false, callInto_lane, Bool.false_eq_true]

end

/-- Settles O19: the records that a call puts into the shadow are those that a return at once reads. -/
theorem callRecordsRestoreTheCaller : Obligations.CallRecordsRestoreTheCaller := by
  unfold Obligations.CallRecordsRestoreTheCaller
  refine ⟨?_, fun g mask n args ret t vals l => restoreLanes_callInto vals l⟩
  intro g mask n args ret t h
  refine ⟨fun l hl => ⟨callInto_laneRec hl, ?_⟩, fun l hl => ?_, fun i hi => ⟨callInto_sliceRec hi, ?_⟩, fun i hi => ?_, callInto_scalars, callInto_flags, callInto_div⟩
  · rw [callInto_lane, if_pos hl]
    rfl
  · rw [callInto_lane, if_neg (Bool.eq_false_iff.mp hl)]
  · rw [callInto_slice, if_pos hi]
    exact ⟨rfl, rfl, rfl, rfl, rfl, rfl⟩
  · rw [callInto_slice, if_neg (Bool.eq_false_iff.mp hi)]

end Sys2Proof.Machine
end

