-- ==== Sys2Proof/Proofs/Calls.lean ====
section
/-! CALL and CALLI with sound targets complete (O18). -/

namespace Sys2Proof.Machine

open Sys2Proof

-- One proof at a time: in parallel, the stacks of the threads exceed the memory that the check allows.
set_option Elab.async false

variable {s s1 : State} {g g1 : Group} {n : BitVec 4}

/-! ## The gates of a call (R34, R167, R262) -/

theorem settled_nil (h : g.allPending s.iss.mask = []) (k : Res) : s.settled g k = k := by
  simp only [State.settled, h]

theorem clean_none {ages : Nat} (h : g.poisonRead s.iss.mask (List.range ages) = none) (k : Res) : s.clean g ages k = k := by
  simp only [State.clean, h]

theorem spilled_ok (h : s.spill s.iss.core g = .ok (s1, g1)) (k : State → Group → Res) : s.spilled g k = k s1 g1 := by
  simp only [State.spilled, h]

/-- Freeing the shadow changes the tables of call records and nothing else of the group (R34). -/
theorem spill_group {k : Nat} (h : s.spill k g = .ok (s1, g1)) :
    ∃ lanes slices held, g1 = { g with laneRecs := lanes, sliceRecs := slices, recHeld := held } := by
  obtain ⟨fault, hf⟩ : ∃ fault : Nat → Option (Cause × DWord), ∀ j, s.recFault k g .store j = fault j := ⟨_, fun _ => rfl⟩
  simp only [State.spill, hf] at h
  split at h
  · cases h
    exact ⟨_, _, _, rfl⟩
  · split at h <;> cases h
    exact ⟨_, _, _, rfl⟩

theorem spill_slices {k : Nat} (h : s.spill k g = .ok (s1, g1)) : g1.slices = g.slices := by
  obtain ⟨_, _, _, rfl⟩ := spill_group h
  rfl

/-- CALL with a sound target, below the call depth, calls out once the shadow is free. -/
theorem exec_call {off : Word} (hfull : g.callFull s.iss.mask = false) (hpend : g.allPending s.iss.mask = [])
    (hpoison : g.poisonRead s.iss.mask (List.range n.toNat) = none) (hspill : s.spill s.iss.core g = .ok (s1, g1))
    (hr : s.Ready (.call n off) g) (ht : s.targetFault g (s.iss.pc + off.signExtend 64 * 4) = none) :
    exec (.call n off) s = .next (s1.setGroup s.iss.core s.iss.frame
      { s.callOut g1 s.iss.mask n.toNat (s.iss.pc + off.signExtend 64 * 4) with seq := g.seq + 1 }) := by
  change execCall n off s = _
  rw [execCall, gate_ready hr]
  simp only [relative_toInt, ht, hfull, Bool.false_eq_true, if_false, settled_nil hpend, clean_none hpoison, spilled_ok hspill]

/-! ## Slices by the function they name (R168, R169) -/

/-- The slices of a split that name a function, each with its index and whether its lanes all name it. -/
def State.named (s : State) (g : Group) (idx : Operand) : List (Fin 8 × Nat × Bool) :=
  (slicesOf s.iss.mask).filterMap fun i => (s.sliceIndex g idx i).map fun p => (i, p)

/-- The slices that name one function. -/
def namedMask (named : List (Fin 8 × Nat × Bool)) (i : Nat) : BitVec 8 :=
  (named.filter fun p => p.2.1 == i).foldl (fun m p => m ||| BitVec.ofNat 8 (2 ^ p.1.val)) 0

/-- The call by the slices that name one function, where its checks pass. -/
def State.callIndex (s : State) (g : Group) (idx : Operand) (sig : Word) (n : Nat) (h : Group) (i : Nat) : Group :=
  match s.callee g sig i with
  | .ok a => s.callOut h (namedMask (s.named g idx) i) n a
  | .error _ => h

variable {idx : Operand} {sig : Word}

theorem mem_named {j : Fin 8} {p : Nat × Bool} :
    (j, p) ∈ s.named g idx ↔ s.iss.mask.getLsbD j.val = true ∧ s.sliceIndex g idx j = some p := by
  simp only [State.named, List.mem_filterMap, mem_slicesOf, Option.map_eq_some_iff, Prod.mk.injEq]
  constructor
  · rintro ⟨i, hi, q, hq, rfl, rfl⟩
    exact ⟨hi, hq⟩
  · rintro ⟨hj, hp⟩
    exact ⟨j, hj, p, hp, rfl, rfl⟩

theorem getLsbD_twoPow : ∀ i j : Fin 8, (BitVec.ofNat 8 (2 ^ i.val)).getLsbD j.val = decide (i = j) := by decide

theorem getLsbD_foldl_or {β : Type} (f : β → Fin 8) (xs : List β) (m : BitVec 8) (j : Fin 8) :
    (xs.foldl (fun m p => m ||| BitVec.ofNat 8 (2 ^ (f p).val)) m).getLsbD j.val = true ↔
      m.getLsbD j.val = true ∨ ∃ p ∈ xs, f p = j := by
  induction xs generalizing m with
  | nil => simp
  | cons a xs ih =>
    rw [List.foldl_cons, ih, BitVec.getLsbD_or, getLsbD_twoPow]
    simp [or_assoc]

/-- A slice is among those of one function exactly where it names it. -/
theorem getLsbD_namedMask (i : Nat) (j : Fin 8) : (namedMask (s.named g idx) i).getLsbD j.val = true ↔
    s.iss.mask.getLsbD j.val = true ∧ ∃ same, s.sliceIndex g idx j = some (i, same) := by
  have h0 : (0 : BitVec 8).getLsbD j.val = false := by simp
  rw [namedMask, getLsbD_foldl_or, h0]
  simp only [Bool.false_eq_true, false_or, List.mem_filter, beq_iff_eq]
  constructor
  · rintro ⟨⟨j, i', same⟩, ⟨h, rfl⟩, rfl⟩
    exact ⟨(mem_named.mp h).1, same, (mem_named.mp h).2⟩
  · rintro ⟨hj, same, h⟩
    exact ⟨(j, i, same), ⟨mem_named.mpr ⟨hj, h⟩, rfl⟩, rfl⟩

/-! ## Numbers put in order -/

theorem mem_insertNat {l : List Nat} {x n : Nat} : x ∈ insertNat l n ↔ x = n ∨ x ∈ l := by
  induction l with
  | nil => simp [insertNat]
  | cons m t ih =>
    unfold insertNat
    split
    · simp
    · split
      · subst_vars; simp
      · simp only [List.mem_cons, ih]; tauto

theorem sorted_insertNat {l : List Nat} {n : Nat} (h : l.Pairwise (· < ·)) : (insertNat l n).Pairwise (· < ·) := by
  induction l with
  | nil => simp [insertNat]
  | cons m t ih =>
    obtain ⟨hm, ht⟩ := List.pairwise_cons.mp h
    unfold insertNat
    split
    · next hn =>
      refine List.pairwise_cons.mpr ⟨fun x hx => ?_, h⟩
      rcases List.mem_cons.mp hx with rfl | hx
      · exact hn
      · exact hn.trans (hm x hx)
    · split
      · exact h
      · refine List.pairwise_cons.mpr ⟨fun x hx => ?_, ih ht⟩
        rcases mem_insertNat.mp hx with rfl | hx
        · omega
        · exact hm x hx

theorem mem_foldl_insertNat {xs l : List Nat} {x : Nat} : x ∈ xs.foldl insertNat l ↔ x ∈ xs ∨ x ∈ l := by
  induction xs generalizing l with
  | nil => simp
  | cons a xs ih => rw [List.foldl_cons, ih, mem_insertNat, List.mem_cons]; tauto

theorem sorted_foldl_insertNat {xs l : List Nat} (h : l.Pairwise (· < ·)) : (xs.foldl insertNat l).Pairwise (· < ·) := by
  induction xs generalizing l with
  | nil => exact h
  | cons a xs ih => exact ih (sorted_insertNat h)

/-- The indices that the slices name, each once. -/
def State.indices (s : State) (g : Group) (idx : Operand) : List Nat := ((s.named g idx).map fun p => p.2.1).foldl insertNat []

theorem mem_indices {i : Nat} : i ∈ s.indices g idx ↔ ∃ j same, (j, i, same) ∈ s.named g idx := by
  simp only [State.indices, mem_foldl_insertNat, List.mem_map, List.not_mem_nil, or_false]
  constructor
  · rintro ⟨⟨j, i, same⟩, h, rfl⟩
    exact ⟨j, same, h⟩
  · rintro ⟨j, same, h⟩
    exact ⟨_, h, rfl⟩

theorem nodup_indices : (s.indices g idx).Nodup :=
  (sorted_foldl_insertNat List.Pairwise.nil).imp fun h => Nat.ne_of_lt h

/-! ## CALLI -/

theorem calleeFault_none {is : List Nat} (h : ∀ i ∈ is, ∃ a, s.callee g sig i = .ok a) : s.calleeFault g sig is = none := by
  induction is with
  | nil => rfl
  | cons i is ih =>
    obtain ⟨a, ha⟩ := h i List.mem_cons_self
    simp only [State.calleeFault, ha]
    exact ih fun j hj => h j (List.mem_cons_of_mem _ hj)

/-- CALLI whose slices each name one sound function calls out function by function once the shadow is free. -/
theorem exec_calli (hfull : g.callFull s.iss.mask = false) (hpend : g.allPending s.iss.mask = [])
    (hpoison : g.poisonRead s.iss.mask (List.range n.toNat) = none) (hspill : s.spill s.iss.core g = .ok (s1, g1))
    (hr : s.Ready (.calli n idx sig) g)
    (hs : ∀ j ∈ slicesOf s.iss.mask, ∀ p, s.sliceIndex g idx j = some p → p.2 = true ∧ ∃ a, s.callee g sig p.1 = .ok a) :
    exec (.calli n idx sig) s = .next (s1.setGroup s.iss.core s.iss.frame
      { (s.indices g idx).foldl (s.callIndex g idx sig n.toNat) g1 with seq := g.seq + 1 }) := by
  have hone : (s.named g idx).find? (fun p => !p.2.2) = none := by
    refine List.find?_eq_none.mpr fun ⟨j, p⟩ hp => ?_
    obtain ⟨hj, hjp⟩ := mem_named.mp hp
    simp [(hs j (mem_slicesOf.mpr hj) p hjp).1]
  have hsound : s.calleeFault g sig (s.indices g idx) = none := by
    refine calleeFault_none fun i hi => ?_
    obtain ⟨j, same, hp⟩ := mem_indices.mp hi
    obtain ⟨hj, hjp⟩ := mem_named.mp hp
    exact (hs j (mem_slicesOf.mpr hj) _ hjp).2
  change execCalli n idx sig s = _
  rw [execCalli, gate_ready hr]
  simp only [State.named] at hone
  simp only [State.indices, State.named] at hsound
  simp only [hone, hsound, hfull, Bool.false_eq_true, if_false, settled_nil hpend, clean_none hpoison, spilled_ok hspill]
  rfl

/-- A slice's place after the calls of some functions: it has called the one that it names, if that is among them, and stands as before else. -/
theorem foldl_callIndex_slice {j : Fin 8} {i : Nat} {same : Bool} {a : DWord} (hj : s.iss.mask.getLsbD j.val = true)
    (hi : s.sliceIndex g idx j = some (i, same)) (ha : s.callee g sig i = .ok a) {is : List Nat} (hnd : is.Nodup) (h : Group) :
    (is.foldl (s.callIndex g idx sig n.toNat) h).slices[j] = if i ∈ is then
      { h.slices[j] with depth := h.slices[j].depth + 1, dvtop := 63, pc := a, iidx := 0 } else h.slices[j] := by
  have other : ∀ (h : Group) (m : Nat), m ≠ i → (s.callIndex g idx sig n.toNat h m).slices[j] = h.slices[j] := by
    intro h m hm
    unfold State.callIndex
    split
    · rw [State.callOut, callInto_slice, if_neg fun hb => ?_]
      obtain ⟨-, same', h'⟩ := (getLsbD_namedMask m j).mp hb
      rw [hi] at h'
      cases h'
      exact hm rfl
    · rfl
  have own : ∀ h : Group, (s.callIndex g idx sig n.toNat h i).slices[j] =
      { h.slices[j] with depth := h.slices[j].depth + 1, dvtop := 63, pc := a, iidx := 0 } := by
    intro h
    rw [State.callIndex, ha]
    dsimp only
    rw [State.callOut, callInto_slice, if_pos ((getLsbD_namedMask i j).mpr ⟨hj, same, hi⟩)]
    rfl
  induction is generalizing h with
  | nil => rfl
  | cons m is ih =>
    obtain ⟨hm, hnd⟩ := List.nodup_cons.mp hnd
    rw [List.foldl_cons, ih hnd]
    by_cases hmi : m = i
    · subst hmi
      rw [if_neg hm, if_pos List.mem_cons_self, own]
    · simp only [other h m hmi, List.mem_cons, Ne.symm hmi, false_or]

/-- Where every slice of a split names one function, the split calls it whole. -/
theorem indices_one {i : Nat} (hne : slicesOf s.iss.mask ≠ []) (h : ∀ j ∈ slicesOf s.iss.mask, s.sliceIndex g idx j = some (i, true)) :
    s.indices g idx = [i] ∧ namedMask (s.named g idx) i = s.iss.mask := by
  constructor
  · have only : ∀ x ∈ s.indices g idx, x = i := by
      intro x hx
      obtain ⟨j, same, hp⟩ := mem_indices.mp hx
      obtain ⟨hj, hjp⟩ := mem_named.mp hp
      rw [h j (mem_slicesOf.mpr hj)] at hjp
      cases hjp
      rfl
    obtain ⟨j, hj⟩ := List.exists_mem_of_ne_nil _ hne
    have hi : i ∈ s.indices g idx := mem_indices.mpr ⟨j, true, mem_named.mpr ⟨mem_slicesOf.mp hj, h j hj⟩⟩
    have hnd : (s.indices g idx).Nodup := nodup_indices
    revert only hi hnd
    generalize s.indices g idx = is
    intro only hi hnd
    exact List.perm_singleton.mp ((List.perm_ext_iff_of_nodup hnd (List.nodup_singleton i)).mpr fun x =>
      ⟨fun hx => List.mem_singleton.mpr (only x hx), fun hx => List.mem_singleton.mp hx ▸ hi⟩)
  · refine BitVec.eq_of_getLsbD_eq fun j hj => Bool.eq_iff_iff.mpr ((getLsbD_namedMask i ⟨j, hj⟩).trans ⟨And.left, fun hb => ⟨hb, true, ?_⟩⟩)
    exact h ⟨j, hj⟩ (mem_slicesOf.mpr hb)

/-- Settles O18: each call goes through its gates to the call of R33, CALLI's by the function that each slice names. -/
theorem callsComplete : Obligations.CallsComplete := by
  unfold Obligations.CallsComplete
  intro s s1 g g1 n hfull hpend hpoison hspill
  refine ⟨fun hg => ?_, fun off hr ht => exec_call hfull hpend hpoison hspill hr ht, fun idx sig i a hr hne hi ha => ?_, fun idx sig hr hs => ?_⟩
  · rw [State.spill_nil s _ hg] at hspill
    cases hspill
    exact ⟨rfl, rfl⟩
  · have hs : ∀ j ∈ slicesOf s.iss.mask, ∀ p, s.sliceIndex g idx j = some p → p.2 = true ∧ ∃ a, s.callee g sig p.1 = .ok a := by
      intro j hj p hp
      rw [hi j hj] at hp
      cases hp
      exact ⟨rfl, a, ha⟩
    obtain ⟨his, hmask⟩ := indices_one hne hi
    rw [exec_calli hfull hpend hpoison hspill hr hs, his, List.foldl_cons, List.foldl_nil, State.callIndex, ha]
    dsimp only
    rw [hmask]
  · refine ⟨_, exec_calli hfull hpend hpoison hspill hr hs, fun j hj p a hp ha => ?_⟩
    obtain ⟨i, same⟩ := p
    have hin : i ∈ s.indices g idx := mem_indices.mpr ⟨j, same, mem_named.mpr ⟨mem_slicesOf.mp hj, hp⟩⟩
    rw [foldl_callIndex_slice (mem_slicesOf.mp hj) hp ha nodup_indices g1, if_pos hin, spill_slices hspill]
    exact ⟨rfl, rfl, rfl, rfl⟩

end Sys2Proof.Machine
end

