-- ==== Sys2Proof/Proofs/TlbOnly.lean ====
section
/-! PROOF. Walks leave translations in the TLBs and change nothing else (R188, R374). -/

namespace Sys2Proof.Machine

open Sys2Proof

-- One proof at a time: in parallel, the stacks of the threads exceed the memory that the check allows.
set_option Elab.async false

/-- The second state is the first but for the translations that cores and dies hold. -/
structure State.TlbOnly (s t : State) : Prop where
  rest : ∃ cores dies, t = { s with cores := cores, dies := dies }
  core : ∀ j, ∃ tlb last, t.core j = { s.core j with tlb := tlb, lastPage := last }
  die : ∀ d, ∃ tlb, t.die d = { s.die d with tlb := tlb }

namespace State.TlbOnly

variable {s t u : State} {k ctx : Nat}

theorem refl (s : State) : s.TlbOnly s := ⟨⟨_, _, rfl⟩, fun _ => ⟨_, _, rfl⟩, fun _ => ⟨_, rfl⟩⟩

theorem trans (h : s.TlbOnly t) (h' : t.TlbOnly u) : s.TlbOnly u := by
  obtain ⟨⟨cs, ds, rest⟩, hc, hd⟩ := h
  obtain ⟨⟨cs', ds', rest'⟩, hc', hd'⟩ := h'
  refine ⟨⟨cs', ds', by rw [rest', rest]⟩, fun j => ?_, fun d => ?_⟩
  · obtain ⟨_, _, ej⟩ := hc j
    obtain ⟨tlb, last, ej'⟩ := hc' j
    exact ⟨tlb, last, by rw [ej', ej]⟩
  · obtain ⟨_, ed⟩ := hd d
    obtain ⟨tlb, ed'⟩ := hd' d
    exact ⟨tlb, by rw [ed', ed]⟩

theorem noteTlb (s : State) (k : Nat) (e : TlbEntry) : s.TlbOnly (s.noteTlb k e) := by
  refine ⟨⟨_, _, rfl⟩, fun j => ?_, fun d => ?_⟩
  · simp only [State.noteTlb, State.modCore, State.modDie, State.core_setDie]
    by_cases hj : j = k
    · rw [hj, State.core_setCore]
      exact ⟨_, _, rfl⟩
    · rw [State.core_setCore_ne _ _ hj]
      exact ⟨_, _, rfl⟩
  · simp only [State.noteTlb, State.modCore, State.modDie, State.die_setCore]
    by_cases hd : d = dieOf k
    · rw [hd, State.die_setDie]
      exact ⟨_, rfl⟩
    · rw [State.die_setDie_ne _ _ hd]
      exact ⟨_, rfl⟩

theorem noteXlate (s : State) (k : Nat) (lane : Option Nat) (va : DWord) (e : TlbEntry) : s.TlbOnly (s.noteXlate k lane va e) := by
  unfold State.noteXlate
  split
  · refine (noteTlb s k e).trans ⟨⟨_, _, rfl⟩, fun j => ?_, fun d => ⟨_, rfl⟩⟩
    simp only [State.modCore]
    by_cases hj : j = k
    · rw [hj, State.core_setCore]
      exact ⟨_, _, rfl⟩
    · rw [State.core_setCore_ne _ _ hj]
      exact ⟨_, _, rfl⟩
  · exact noteTlb s k e

theorem noteWalk (s : State) (k : Nat) (lane : Option Nat) (ctx : Nat) (va : DWord) : s.TlbOnly (s.noteWalk k lane ctx va) := by
  unfold State.noteWalk
  split
  · exact noteXlate ..
  · exact refl s

theorem foldl {α : Type} {f : State → α → State} (hf : ∀ (s : State) (a : α), s.TlbOnly (f s a)) (as : List α) (s : State) : s.TlbOnly (as.foldl f s) := by
  induction as generalizing s with
  | nil => exact refl s
  | cons a as ih => exact (hf s a).trans (ih _)

theorem notePages (s : State) (k ctx : Nat) (a : DWord) (n : Nat) : s.TlbOnly (s.notePages k ctx a n) :=
  foldl (fun s p => by
    split
    · exact noteTlb s k _
    · exact refl s) _ s

theorem noteStart (s : State) (k ctx : Nat) (a : DWord) : s.TlbOnly (s.noteStart k ctx a) := by
  unfold State.noteStart
  split
  · exact (notePages ..).trans (notePages ..)
  · exact refl s

theorem noteEntry (s : State) (k ctx : Nat) (priv : Bool) (i : Nat) : s.TlbOnly (s.noteEntry k ctx priv i) := by
  unfold State.noteEntry
  split
  · exact notePages ..
  · exact (notePages ..).trans (noteStart ..)

theorem noteRecord (s : State) (k ctx : Nat) (a : DWord) (bs : List Byte) : s.TlbOnly (s.noteRecord k ctx a bs) :=
  (notePages ..).trans (notePages ..)

variable (h : s.TlbOnly t)
include h

theorem mem : t.mem = s.mem := by
  obtain ⟨_, _, e⟩ := h.rest
  rw [e]

theorem reqs : t.reqs = s.reqs := by
  obtain ⟨_, _, e⟩ := h.rest
  rw [e]

theorem launches : t.launches = s.launches := by
  obtain ⟨_, _, e⟩ := h.rest
  rw [e]

theorem frames (j : Nat) : (t.core j).frames = (s.core j).frames := by
  obtain ⟨_, _, e⟩ := h.core j
  rw [e]

theorem group? (j n : Nat) : t.group? j n = s.group? j n := by
  rw [State.group?, State.group?, h.frames]

end State.TlbOnly

end Sys2Proof.Machine
end
-- ==== Sys2Proof/Proofs/Handler.lean ====
section
/-! PROOF. A fault that the handler takes under trap mode 1 (R265, R266). -/

namespace Sys2Proof.Machine

open Sys2Proof

-- One proof at a time: in parallel, the stacks of the threads exceed the memory that the check allows.
set_option Elab.async false

variable {s s1 : State} {k n : Nat} {mask : BitVec 8} {g g1 : Group} {r : FaultRec} {e : FEntry}

theorem debugTakes_unattached (h : s.attached k g = false) : s.debugTakes k g r = false := by
  simp [State.debugTakes, h]

theorem inHandler_false (h : ∀ i ∈ slicesOf mask, g.slices[i].handler = false) : g.inHandler mask = false := by
  simpa [Group.inHandler] using h

theorem toService_false (hp : r.cause ≠ .page) (hm : r.cause = .prot → s.migrating k g.ctx r.addr = false) :
    s.toService k g r = false := by
  simpa [State.toService, hp] using hm

/-- Freeing the shadow leaves what a group shows. -/
theorem spill_keeps {t : State} (h : t.spill k g = .ok (s1, g1)) : g1.lanes = g.lanes ∧ g1.scalars = g.scalars ∧ g1.flags = g.flags ∧
    g1.status = g.status ∧ g1.div = g.div ∧ g1.slices = g.slices := by
  obtain ⟨_, _, _, rfl⟩ := spill_group h
  exact ⟨rfl, rfl, rfl, rfl, rfl, rfl⟩

/-- The call of the handler, from a group whose shadow is free. -/
def Group.trapCall (g g1 : Group) (mask : BitVec 8) (r : FaultRec) (a : DWord) : Group :=
  g1.callInto mask 0 (fun _ _ => handlerArgs r) (fun i => (g.slices[i].pc, g.slices[i].iidx)) (some r) a

/-- The group that has entered the handler. -/
def Group.intoHandler (g g1 : Group) (mask : BitVec 8) (r : FaultRec) (a : DWord) : Group :=
  { g.trapCall g1 mask r a with fault := none, drainFault := false, seq := g.seq + 1 }

/-- A handler whose entry is sound is entered (R266). -/
theorem enterHandler_sound (hlen : g.hdr.handler < s.ftLen g.ctx) (he : s.ftEntry k g.ctx g.priv g.hdr.handler = .ok e)
    (hv : e.valid = true) (hb : s.startBit k g.ctx g.priv e.addr = .ok true)
    (hd : ∀ i ∈ slicesOf mask, g.slices[i].depth < g.hdr.callDepth)
    (hs : (s.noteEntry k g.ctx g.priv g.hdr.handler).spill k g = .ok (s1, g1)) :
    s.enterHandler k n g mask r = s1.setGroup k n (g.intoHandler g1 mask r e.addr) := by
  have depth : ((slicesOf mask).any fun i => g.slices[i].depth == g.hdr.callDepth) = false := by
    simp only [List.any_eq_false, beq_iff_eq]
    exact fun i hi => Nat.ne_of_lt (hd i hi)
  rw [State.enterHandler, if_neg (Nat.not_le.mpr hlen)]
  simp only [he, hb, hs, hv, depth, Bool.not_true, Bool.or_self, Bool.false_eq_true, if_false]
  rfl

/-- A fault that goes neither to the fault service nor to the debugger, and for which no entry of its lanes waits, goes to the handler
under trap mode 1 (R265). -/
theorem raise_enters (hg : s.group? k n = some g) (hrun : g.status = .running) (hatt : s.attached k g = false)
    (hpage : r.cause ≠ .page) (hprot : r.cause = .prot → s.migrating k g.ctx r.addr = false) (hecc : r.cause ≠ .ecc)
    (hmode : g.hdr.trapMode = 1) (hh : ∀ i ∈ slicesOf mask, g.slices[i].handler = false) (hpend : s.pendingData g mask = false) :
    s.raise k n mask r = s.enterHandler k n g mask r := by
  have waits : s.handlerWaits k g mask r = false := by simp [State.handlerWaits, hpend]
  rw [State.raise, hg]
  simp only [hrun, toService_false hpage hprot, waits, Bool.false_eq_true, if_false, State.deliver,
    debugTakes_unattached hatt, inHandler_false hh, beq_eq_false_iff_ne.mpr hecc, hmode, if_true]

theorem trapCall_slice {a : DWord} {i : Fin 8} (h : mask.getLsbD i.val = true) : (g.trapCall g1 mask r a).slices[i] =
    { g1.slices[i] with depth := g1.slices[i].depth + 1, dvtop := 63, pc := a, iidx := 0, handler := true, skip := false } := by
  rw [Group.trapCall, callInto_slice, if_pos h]
  rfl

theorem intoHandler_status {a : DWord} : (g.intoHandler g1 mask r a).status = g1.status := by
  simp only [Group.intoHandler, Group.trapCall, callInto_status]

theorem intoHandler_scalars {a : DWord} : (g.intoHandler g1 mask r a).scalars = g1.scalars := by
  simp only [Group.intoHandler, Group.trapCall, callInto_scalars]

theorem intoHandler_flags {a : DWord} : (g.intoHandler g1 mask r a).flags = g1.flags := by
  simp only [Group.intoHandler, Group.trapCall, callInto_flags]

theorem intoHandler_lane {a : DWord} (l : Fin 32) : (g.intoHandler g1 mask r a).lanes[l] =
    if g1.on mask l then g1.lanes[l].enter (handlerArgs r) else g1.lanes[l] := by
  have call : (g.intoHandler g1 mask r a).lanes = (g.trapCall g1 mask r a).lanes := rfl
  rw [call, Group.trapCall, callInto_lane]

theorem intoHandler_slices {a : DWord} : (g.intoHandler g1 mask r a).slices = (g.trapCall g1 mask r a).slices := rfl

theorem intoHandler_sliceRec {a : DWord} {i : Fin 8} (h : mask.getLsbD i.val = true) : (g.intoHandler g1 mask r a).sliceRec i =
    ⟨g.slices[i].pc, g1.slices[i].active, 0, g1.divDepth, g1.slices[i].dvtop, g.slices[i].iidx, true⟩ := by
  have recs : (g.intoHandler g1 mask r a).sliceRecs = (g.trapCall g1 mask r a).sliceRecs := rfl
  rw [Group.sliceRec, recs, intoHandler_slices, trapCall_slice h, Group.trapCall, callInto_sliceRec h]
  rfl

theorem intoHandler_trapOf {a : DWord} {i : Fin 8} (h : mask.getLsbD i.val = true) : (g.intoHandler g1 mask r a).trapOf i = some r := by
  have traps : (g.intoHandler g1 mask r a).traps = (g.trapCall g1 mask r a).traps := rfl
  rw [Group.trapOf, traps, intoHandler_slices, trapCall_slice h, Group.trapCall, callInto_trap h]

/-- Settles O26: the checks of the entry pass, the call of the handler is entered, and what it keeps is what a call keeps. -/
theorem handlerEntered : Obligations.HandlerEntered := by
  unfold Obligations.HandlerEntered
  intro s k n mask g r e s1 g1 hg hrun hatt hpage hprot hecc hmode hsl hpend hlen he hv hb t hs
  have ht : s.TlbOnly t := .noteEntry ..
  refine ⟨fun h0 => ?_, ht.mem, ht.reqs, ht.group?, g.intoHandler g1 mask r e.addr, ?_, ?_⟩
  · exact (congrArg Prod.fst (Except.ok.inj ((State.spill_nil _ _ h0).symm.trans hs))).symm
  · rw [raise_enters hg hrun hatt hpage hprot hecc hmode (fun i hi => (hsl i hi).1) hpend,
      enterHandler_sound hlen he hv hb (fun i hi => (hsl i hi).2) hs]
  obtain ⟨hl, hsc, hf, hst, hdiv, hact⟩ := spill_keeps hs
  refine ⟨(intoHandler_status).trans (hst.trans hrun), intoHandler_scalars.trans hsc, intoHandler_flags.trans hf, fun l => ?_, fun i hi => ?_⟩
  · rw [intoHandler_lane, on_congr (g := g) (fun i => by rw [hact]) (fun i => by rw [hact]), hl]
    rfl
  · have hm := mem_slicesOf.mp hi
    rw [intoHandler_sliceRec hm, intoHandler_slices, trapCall_slice hm, hact, Group.divDepth, hdiv]
    exact ⟨rfl, rfl, rfl, rfl, intoHandler_trapOf hm⟩

end Sys2Proof.Machine
end

