-- ==== Sys2Proof/Proofs/Arrivals.lean ====
section
/-! PROOF. Replies and acknowledgements reach the core (R17, R23, R24, R197, R207, R212, R334). -/

namespace Sys2Proof.Machine

open Sys2Proof

-- One proof at a time: in parallel, the stacks of the threads exceed the memory that the check allows.
set_option Elab.async false

/-! ## Steps that change neither memory, requests, agenda nor groups -/

/-- Memory, requests, agenda and groups are as before: caches and clocks may have changed. -/
structure State.Quiet (s t : State) : Prop where
  mem : t.mem = s.mem
  reqs : t.reqs = s.reqs
  agenda : t.agenda = s.agenda
  group? : ∀ j m, t.group? j m = s.group? j m

namespace State.Quiet

variable {s t u : State}

theorem refl (s : State) : s.Quiet s := ⟨rfl, rfl, rfl, fun _ _ => rfl⟩

theorem trans (h : s.Quiet t) (h' : t.Quiet u) : s.Quiet u :=
  ⟨h'.mem.trans h.mem, h'.reqs.trans h.reqs, h'.agenda.trans h.agenda, fun j m => (h'.group? j m).trans (h.group? j m)⟩

theorem modCore {k : Nat} {f : Core → Core} (hf : ∀ c, (f c).frames = c.frames) : s.Quiet (s.modCore k f) := by
  refine ⟨rfl, rfl, rfl, fun j m => ?_⟩
  simp only [State.group?, State.modCore]
  by_cases hj : j = k
  · rw [hj, State.core_setCore, hf]
  · rw [State.core_setCore_ne _ _ hj]

theorem modDie (d : Nat) (f : Die → Die) : s.Quiet (s.modDie d f) := ⟨rfl, rfl, rfl, fun _ _ => rfl⟩

theorem raiseClock (k v : Nat) : s.Quiet (s.raiseClock k v) := modCore fun _ => rfl

theorem closeLine (line : Nat) : s.Quiet (s.closeLine line) := by
  unfold State.closeLine
  split
  · exact ⟨rfl, rfl, rfl, fun _ _ => rfl⟩
  · exact refl s

theorem dropOlder (d line wts : Nat) : s.Quiet (s.dropOlder d line wts) := by
  unfold State.dropOlder
  split
  · exact refl s
  · split
    · exact modDie ..
    · exact refl s

theorem refreshRdc (d pa wts : Nat) (line : List Byte) (spoilt : Bool) : s.Quiet (s.refreshRdc d pa wts line spoilt) := by
  unfold State.refreshRdc
  split
  · exact refl s
  · split
    · exact refl s
    · split
      · exact dropOlder ..
      · exact (closeLine _).trans (modDie ..)

end State.Quiet

theorem Core.fillL1_frames (c : Core) (line : Nat) (x : Copy) (h : Hint) : (c.fillL1 line x h).frames = c.frames := by
  unfold Core.fillL1
  split <;> rfl

theorem Core.dropOlder_frames (c : Core) (line wts : Nat) : (c.dropOlder line wts).frames = c.frames := by
  unfold Core.dropOlder
  split
  · split <;> rfl
  · rfl

theorem State.Quiet.installCopy {s : State} (r : Req) : s.Quiet (s.installCopy r) := by
  unfold State.installCopy
  simp only
  split
  · exact modCore fun c => c.dropOlder_frames _ _
  · split
    · split
      · exact modCore fun c => c.fillL1_frames _ _ _
      · exact refl s
    · rw [if_pos rfl]
      exact modCore fun c => c.fillL1_frames _ _ _

/-! ## Requests -/

variable {s : State} {id : Nat} {r : Req} {g : Group}

theorem req?_id (h : s.req? id = some r) : r.id = id := by
  simpa using List.find?_some h

/-- A request that has been changed is found under its number. -/
theorem req?_modReq {u : Req → Req} (h : s.req? id = some r) (hu : (u r).id = r.id) : (s.modReq id u).req? id = some (u r) := by
  have found : ∀ l : List Req, l.find? (fun q => q.id == id) = some r →
      (l.map fun q => if q.id == id then u q else q).find? (fun q => q.id == id) = some (u r) := by
    intro l
    induction l with
    | nil => simp
    | cons q l ih =>
      by_cases hq : q.id = id
      · intro hl
        obtain rfl : q = r := by simpa [hq] using hl
        simp [hq, hu]
      · intro hl
        have hl' : l.find? (fun q => q.id == id) = some r := by simpa [hq] using hl
        simpa [hq] using ih hl'
  exact found s.reqs h

/-- The request list without a request. -/
def State.dropReq (s : State) (r : Req) : State := { s with reqs := s.reqs.filter fun q => q.id != r.id }

theorem doneReq_eq (s : State) (r : Req) : s.doneReq r = if (s.dropReq r).reqs.any fun q => q.op == r.op && q.stage != .logged then s.dropReq r
    else (s.dropReq r).modGroup r.core r.frame fun g => g.flagDown r.flag := rfl

/-- A request that is over leaves the list, and its flag falls with the last access of its instruction (R24). -/
theorem doneReq_ends (hg : s.group? r.core r.frame = some g) : (s.doneReq r).mem = s.mem ∧
    (s.doneReq r).reqs = s.reqs.filter (fun q => q.id != r.id) ∧
    (s.doneReq r).group? r.core r.frame =
      some (if (s.doneReq r).reqs.any fun q => q.op == r.op && q.stage != .logged then g else g.flagDown r.flag) := by
  have hg1 : (s.dropReq r).group? r.core r.frame = some g := hg
  rw [doneReq_eq]
  split
  · next h => exact ⟨rfl, rfl, hg1⟩
  · next h =>
    refine ⟨State.modGroup_mem .., State.modGroup_reqs .., ?_⟩
    rw [State.modGroup_reqs, State.group?_modGroup hg1, if_neg h]

theorem flagDown_lanes (g : Group) (f : Option Nat) : (g.flagDown f).lanes = g.lanes := by cases f <;> rfl
theorem flagDown_scalars (g : Group) (f : Option Nat) : (g.flagDown f).scalars = g.scalars := by cases f <;> rfl
theorem flagDown_ackmax (g : Group) (f : Option Nat) : (g.flagDown f).ackmax = g.ackmax := by cases f <;> rfl

/-- The flags of a group depend on its flags alone when one falls. -/
theorem flagDown_flags {g h : Group} (e : h.flags = g.flags) (f : Option Nat) : (h.flagDown f).flags = (g.flagDown f).flags := by
  cases f with
  | none => exact e
  | some i => simp only [Group.flagDown, e]

/-! ## The end of a read -/

/-- The registers after a read touch neither memory, requests nor what the lanes, scalars and flags of its group hold. -/
theorem readDone_keeps (hg : s.group? r.core r.frame = some g) : ∃ h, (s.readDone r).group? r.core r.frame = some h ∧
    (s.readDone r).mem = s.mem ∧ (s.readDone r).reqs = s.reqs ∧ h.lanes = g.lanes ∧ h.scalars = g.scalars ∧ h.flags = g.flags := by
  unfold State.readDone
  split
  · exact ⟨g, hg, rfl, rfl, rfl, rfl, rfl⟩
  simp only
  generalize hs1 : (if r.dev then s else s.modGroup r.core r.frame _) = s1
  have base : ∃ h, s1.group? r.core r.frame = some h ∧ s1.mem = s.mem ∧ s1.reqs = s.reqs ∧ h.lanes = g.lanes ∧ h.scalars = g.scalars ∧
      h.flags = g.flags := by
    rw [← hs1]
    split
    · exact ⟨g, hg, rfl, rfl, rfl, rfl, rfl⟩
    · exact ⟨_, State.group?_modGroup hg _, State.modGroup_mem .., State.modGroup_reqs .., rfl, rfl, rfl⟩
  obtain ⟨h, hh, hm, hr, kept⟩ := base
  have quiet : ∀ t, s1.Quiet t → ∃ h, t.group? r.core r.frame = some h ∧ t.mem = s.mem ∧ t.reqs = s.reqs ∧ h.lanes = g.lanes ∧
      h.scalars = g.scalars ∧ h.flags = g.flags :=
    fun t ht => ⟨h, (ht.group? _ _).trans hh, ht.mem.trans hm, ht.reqs.trans hr, kept⟩
  apply quiet
  split
  · split
    · split
      · exact .raiseClock ..
      · exact (State.Quiet.raiseClock ..).trans (.raiseClock ..)
    · split
      · exact .refl _
      · exact .raiseClock ..
  · exact .refl _

/-- With no call record in memory that waits, data goes to the group alone. -/
theorem fillReq_group {k f lane req : Nat} {es : List (BitVec 5)} {vs : List Word} (hg : s.group? k f = some g) (hheld : g.recHeld = []) :
    s.fillReq k f lane req es vs = s.setGroup k f (g.fillReq lane req es vs) := by
  simp only [State.fillReq, hg, hheld, List.flatMap_nil, State.storeRec, List.foldl_nil]

section fillReq
variable (g : Group) (lane req : Nat) (es : List (BitVec 5)) (vs : List Word)

theorem fillReq_flags : (g.fillReq lane req es vs).flags = g.flags := by simp only [Group.fillReq]
theorem fillReq_scalars : (g.fillReq lane req es vs).scalars = g.scalars := by simp only [Group.fillReq]
theorem fillReq_lane (l : Fin 32) : (g.fillReq lane req es vs).lanes[l] =
    if l.val = lane then g.lanes[l].fill req es vs else g.lanes[l] := by
  simp only [Group.fillReq, Fin.getElem_fin, Vector.getElem_ofFn]

end fillReq

theorem patchAtomic_plain (h : r.isAtomic = false) : s.patchAtomic r = s := by
  simp [State.patchAtomic, h]

theorem isAtomic_load (h : r.kind = .load) : r.isAtomic = false := by
  simp [Req.isAtomic, h]

/-- The end of a read whose group has become another: its registers and its flag. -/
theorem read_ends {h : Group} (t : State) (hg : t.group? r.core r.frame = some h) (hm : t.mem = s.mem) (hr : t.reqs = s.reqs)
    (hf : h.flags = g.flags) : ∃ h', ((t.readDone r).doneReq r).group? r.core r.frame = some h' ∧
    (((t.readDone r).doneReq r).mem = s.mem ∧ ((t.readDone r).doneReq r).reqs = s.reqs.filter (fun q => q.id != r.id) ∧
      h'.flags = (if ((t.readDone r).doneReq r).reqs.any fun q => q.op == r.op && q.stage != .logged then g else g.flagDown r.flag).flags) ∧
    h'.lanes = h.lanes ∧ h'.scalars = h.scalars := by
  obtain ⟨h1, hh1, hm1, hr1, hl1, hs1, hf1⟩ := readDone_keeps hg
  obtain ⟨hm2, hr2, hh2⟩ := doneReq_ends hh1
  refine ⟨_, hh2, ⟨hm2.trans (hm1.trans hm), hr2.trans (by rw [hr1, hr]), ?_⟩, ?_, ?_⟩
  · split
    · exact hf1.trans hf
    · exact flagDown_flags (hf1.trans hf) _
  · split
    · exact hl1
    · exact (flagDown_lanes ..).trans hl1
  · split
    · exact hs1
    · exact (flagDown_scalars ..).trans hs1

/-! ## Scalars -/

theorem getD_setIfInBounds {α : Type} {n i j : Nat} {xs : Vector α n} {v d : α} (h : i < n) :
    (xs.setIfInBounds i v).getD j d = if i = j then v else xs.getD j d := by
  simp only [Vector.getD, Array.getD_eq_getD_getElem?, Vector.getElem?_toArray, Vector.getElem?_setIfInBounds, h, if_true]
  split <;> rfl

/-- Words that arrive at scalars in a row: each takes its own unless a later write has it already (R23). -/
theorem arrive_scalars {seq d n : Nat} (v : Nat → Word) (hn : d + n ≤ 96) (g : Group) :
    let h := (List.range n).foldl (fun g j => g.arriveScalar (d + j) seq (v j)) g
    h.lanes = g.lanes ∧ h.flags = g.flags ∧
      (∀ j, d + n ≤ j → h.sseq.getD j 0 = g.sseq.getD j 0) ∧
      ∀ j < 96, h.scalar j = if d ≤ j ∧ j < d + n ∧ ¬ seq < g.sseq.getD j 0 then v (j - d) else g.scalar j := by
  induction n with
  | zero => exact ⟨rfl, rfl, fun _ _ => rfl, fun j _ => by rw [if_neg (by omega)]; rfl⟩
  | succ n ih =>
    obtain ⟨hl, hf, hq, hs⟩ := ih (by omega)
    simp only [List.range_succ, List.foldl_append, List.foldl_cons, List.foldl_nil]
    generalize (List.range n).foldl (fun g j => g.arriveScalar (d + j) seq (v j)) g = h at hl hf hq hs ⊢
    have hseq := hq (d + n) le_rfl
    unfold Group.arriveScalar
    split
    · next late =>
      refine ⟨hl, hf, fun j hj => hq j (by omega), fun j hj => ?_⟩
      rw [hs j hj]
      by_cases e : j = d + n
      · subst e
        rw [if_neg (by omega), if_neg (by omega)]
      · exact if_congr (by omega) rfl rfl
    · next fresh =>
      refine ⟨hl, hf, fun j hj => ?_, fun j hj => ?_⟩
      · rw [← hq j (by omega)]
        rw [getD_setIfInBounds (by omega), if_neg (by omega)]
      · by_cases e : j = d + n
        · subst e
          rw [if_pos (by omega), Group.scalar, getD_setIfInBounds hj, if_pos rfl, Nat.add_sub_cancel_left]
        · rw [Group.scalar, getD_setIfInBounds (by omega), if_neg (Ne.symm e)]
          exact (hs j hj).trans (if_congr (by omega) rfl rfl)

/-! ## The events -/

/-- A lane's read without poison ends by filling its group (R17). -/
theorem complete_plain (hk : r.kind = .load) (hp : r.poison = false) (hg : s.group? r.core r.frame = some g) (hheld : g.recHeld = [])
    (bs : List Byte) :
    s.complete r bs = ((s.setGroup r.core r.frame (g.fillReq r.lane r.id r.entries (r.words bs))).readDone r).doneReq r := by
  simp only [State.complete, patchAtomic_plain (isAtomic_load hk), State.fillLane, hg, hp, isAtomic_load hk, fillReq_group hg hheld,
    Bool.and_false, Bool.false_and, Bool.false_eq_true, if_false]

/-- LOAD_DATA_ARRIVAL of a lane's only part (R17, R24). -/
theorem exec_loadDataArrival (hr : s.req? id = some r) (hs : r.stage = .data) (hk : r.kind = .load) (hd : r.dst = none) (hl : r.lane < 32)
    (hp : (s.reqs.filter fun q => q.sameLane r && q.kind == r.kind) = [r]) :
    exec (.loadDataArrival id) s = .next (s.complete r r.data) := by
  have lane : s.completeLane r = s.complete r r.data := by
    simp only [State.completeLane, hp, List.all_cons, List.all_nil, hs, beq_self_eq_true, Bool.and_self, if_true, List.foldl_cons, List.foldl_nil]
  have hl' : r.lane ≠ 34 := by omega
  change execLoadDataArrival id s = _
  simp [execLoadDataArrival, hr, hs, hk, hd, hl', isAtomic_load hk, lane]

/-- SCALAR_DATA_ARRIVAL (R23). -/
theorem exec_scalarDataArrival {d n : Nat} (hr : s.req? id = some r) (hs : r.stage = .data) (hk : r.kind = .load) (hd : r.dst = some (d, n)) :
    exec (.scalarDataArrival id) s = .next (s.completeScalar r r.data) := by
  change execScalarDataArrival id s = _
  simp [execScalarDataArrival, hr, hs, hd, isAtomic_load hk]

/-- A group that takes a write's acknowledgement (R197, R347). -/
def Group.acked (g : Group) (wts : Nat) (host : Bool) : Group := { g with ackmax := Nat.max g.ackmax wts, hostSt := g.hostSt || host }

/-- STORE_ACK of an access to memory of the package (R197, R334). -/
theorem exec_storeAck (hr : s.req? id = some r) (hk : r.kind = .store) (hs : r.stage = .ack) (hd : r.dev = false)
    (hb : s.answerBehind r = false) (hf : r.frame < 64) (hg : s.group? r.core r.frame = some g) :
    ∃ t : State, exec (.storeAck id) s = .next (t.doneReq r) ∧ t.mem = s.mem ∧ t.reqs = s.reqs ∧
      t.group? r.core r.frame = some (g.acked r.wts (s.hostLine r.pa)) := by
  have hne : r.frame ≠ 64 := by omega
  let s1 := s.modGroup r.core r.frame fun g => g.acked r.wts (s.hostLine r.pa)
  have quiet : s1.Quiet (if r.line.isEmpty then s1 else s1.refreshRdc (dieOf r.core) r.pa r.wts r.line r.spoilt) := by
    split
    · exact .refl _
    · exact .refreshRdc ..
  refine ⟨_, ?_, quiet.mem.trans (State.modGroup_mem ..), quiet.reqs.trans (State.modGroup_reqs ..),
    (quiet.group? _ _).trans (State.group?_modGroup hg _)⟩
  change execStoreAck id s = _
  simp only [execStoreAck, hr, hk, hs, hd, hb, hne, ne_eq, not_true_eq_false, or_self, if_false, Bool.false_eq_true]
  rfl

/-- A replay changes no memory. -/
theorem replayFrom_mem {k f : Nat} (es : List LogEntry) : ∀ s : State, (s.replayFrom k f es).mem = s.mem := by
  induction es with
  | nil => exact fun s => State.modGroup_mem ..
  | cons e es ih =>
    intro s
    unfold State.replayFrom
    simp only
    split
    · rfl
    · exact (ih _).trans (State.modGroup_mem ..)

/-- The logged loads of an instruction sent to translation again (R212). -/
def State.sendLogged (s : State) (k : Nat) (e : LogEntry) : State :=
  { s with reqs := s.reqs.map fun q => if q.op == e.op && q.stage == .logged then { q with stage := .walk, sdgen := (s.core k).sdgen } else q }

/-- The only entry of a log is issued again where its flag has room. -/
theorem replayFrom_one {k f : Nat} {e : LogEntry} (hg : s.group? k f = some g) (hlog : g.log = [e]) (hfull : g.flagFull e.flag = false) :
    (s.replayFrom k f [e]).reqs = (s.sendLogged k e).reqs ∧
      ∃ h, (s.replayFrom k f [e]).group? k f = some h ∧ h.log = [] ∧ h.replay = false := by
  have hg1 : (s.sendLogged k e).group? k f = some g := hg
  have one : s.replayFrom k f [e] = ((s.sendLogged k e).modGroup k f fun g =>
      { (if s.reqs.any (fun r => r.op == e.op && r.stage != .logged) then g else g.flagUp e.flag) with
        log := g.log.filter fun x => x.op != e.op }).modGroup k f fun g => { g with replay := false } := by
    simp only [State.replayFrom, hg, Option.any_some, hfull, Bool.false_and, Bool.false_eq_true, if_false]
    rfl
  rw [one]
  refine ⟨(State.modGroup_reqs ..).trans (State.modGroup_reqs ..), _, State.group?_modGroup (State.group?_modGroup hg1 _) _, ?_, rfl⟩
  simp [hlog]

/-- Settles O31: each arrival changes its group alone, and the request's end lowers its flag. -/
theorem arrivalEventsComplete : Obligations.ArrivalEventsComplete := by
  unfold Obligations.ArrivalEventsComplete
  intro s id r g hr hg hheld ended
  have hid := req?_id hr
  refine ⟨fun hs hk hd hb => ?_, fun hs hk hd hl hp hparts => ?_, fun d n hs hk hd hn hp => ?_, fun hk hl => ?_,
    fun hk hs hd hb hf => ?_, fun c hs hd hc hlt => ?_, ?_⟩
  · have quiet : s.Quiet (s.installCopy r) := .installCopy r
    have hr1 : (s.installCopy r).req? id = some r := by rw [State.req?, quiet.reqs]; exact hr
    refine ⟨((s.installCopy r).modReq id fun q => { q with stage := .data, data := (r.data.drop (r.pa % 128)).take r.size }).prepend [r.arrival],
      ?_, quiet.mem, congrArg (r.arrival :: ·) quiet.agenda, req?_modReq hr1 rfl⟩
    change execRenewalReply id .none s = _
    simp [execRenewalReply, hr, hs, hk, hd, hb, Req.isWrite, Req.isAtomic]
  · obtain ⟨h, hh, hend, hl1, hs1⟩ := read_ends (s := s) (r := r) (g := g)
      (s.setGroup r.core r.frame (g.fillReq r.lane r.id r.entries (r.words r.data))) (State.group?_setGroup ..) (State.setGroup_mem ..)
      (State.setGroup_reqs ..) (fillReq_flags ..)
    refine ⟨_, h, ?_, hh, hend, hs1.trans (fillReq_scalars ..), fun l => ?_⟩
    · rw [exec_loadDataArrival hr hs hk hd hl hparts, complete_plain hk hp hg hheld]
    · rw [hl1, fillReq_lane]
  · obtain ⟨hal, haf, -, has⟩ := arrive_scalars (seq := r.seq) (fun j => (leWords r.data).getD j 0) hn g
    obtain ⟨h, hh, hend, hl1, hs1⟩ := read_ends (s := s) (r := r) (g := g)
      (s.setGroup r.core r.frame _) (State.group?_setGroup ..) (State.setGroup_mem ..) (State.setGroup_reqs ..) haf
    refine ⟨_, h, ?_, hh, hend, hl1.trans hal, fun j hj => ?_⟩
    · rw [exec_scalarDataArrival hr hs hk hd]
      simp only [State.completeScalar, patchAtomic_plain (isAtomic_load hk), State.modGroup_some hg, hd, hp, Bool.false_eq_true, if_false]
    · rw [Group.scalar, hs1]
      exact has j hj
  · refine ⟨(s.setGroup r.core r.frame (g.fillReq r.lane r.id r.entries (leWords r.data))).dropReq r, _, ?_, State.group?_setGroup s ..,
      rfl, fillReq_flags .., ?_, fun l => ?_⟩
    · change execLongResultReady id s = _
      simp only [execLongResultReady, hr, hk, ne_eq, not_true_eq_false, if_false, fillReq_group hg hheld, State.dropReq, hid]
    · rw [State.dropReq, hid]
      rfl
    · exact fillReq_lane ..
  · obtain ⟨t, ht, hm, hreq, hgt⟩ := exec_storeAck hr hk hs hd hb hf hg
    obtain ⟨hm2, hr2, hh2⟩ := doneReq_ends hgt
    refine ⟨_, _, ht, hh2, ⟨hm2.trans hm, hr2.trans (by rw [hreq]), ?_⟩, ?_, ?_, ?_⟩
    · split
      · rfl
      · exact flagDown_flags (g := g) (h := g.acked r.wts (s.hostLine r.pa)) rfl _
    · split
      · rfl
      · exact (flagDown_lanes ..).trans rfl
    · split
      · rfl
      · exact (flagDown_scalars ..).trans rfl
    · split
      · rfl
      · exact (flagDown_ackmax ..).trans rfl
  · refine ⟨s.modReq id fun q => { q with stage := .ready }, ?_, rfl, req?_modReq hr rfl⟩
    change execWaitvReread id s = _
    simp [execWaitvReread, hr, hs, hd, hc, hlt]
  · refine ⟨s.replayFrom r.core r.frame g.log, ?_, replayFrom_mem _ s, fun e hlog hfull => ?_⟩
    · change execReplay r.core r.frame s = _
      simp only [execReplay, hg]
    · obtain ⟨hreqs, hgroup⟩ := replayFrom_one hg hlog hfull
      rw [hlog]
      refine ⟨hreqs.trans ?_, hgroup⟩
      simp only [State.sendLogged, Bool.and_eq_true, beq_iff_eq]

end Sys2Proof.Machine
end

