-- ==== Sys2Proof/Proofs/HomeWrites.lean ====
section
/-! PROOF. What writes at a home may change: memory and its bookkeeping at the homes, copies and translations of the dies, and the
translations of the cores; nothing else of a core, a group or a launch (R306 to R315, R333, R379). -/

namespace Sys2Proof.Machine

open Sys2Proof

-- One proof at a time: in parallel, the stacks of the threads exceed the memory that the check allows.
set_option Elab.async false

/-- A table with every value changed. -/
theorem Sparse.get?_mapValues {α β : Type} (f : α → β) (l : Sparse α) (k : Nat) :
    Sparse.get? (l.map fun p => (p.1, f p.2)) k = (Sparse.get? l k).map f := by
  induction l with
  | nil => rfl
  | cons p l ih =>
    simp only [List.map_cons, Sparse.get?]
    split
    · rfl
    · exact ih

/-- Two states of a die with the same indirection entries, host bias and barrier blocks. -/
def Die.SameMap (d e : Die) : Prop := e.ind = d.ind ∧ e.hostBias = d.hostBias ∧ e.blocks = d.blocks

theorem Die.SameMap.rfl {d : Die} : d.SameMap d := ⟨Eq.refl _, Eq.refl _, Eq.refl _⟩

theorem Die.SameMap.trans {d e f : Die} (h : d.SameMap e) (h' : e.SameMap f) : d.SameMap f :=
  ⟨h'.1.trans h.1, h'.2.1.trans h.2.1, h'.2.2.trans h.2.2⟩

/-- The second state is the first after work at homes. -/
structure State.HomeSide (s t : State) : Prop where
  rest : ∃ mem poison comp lines cores dies,
    t = { s with mem := mem, poison := poison, comp := comp, lines := lines, cores := cores, dies := dies }
  core : ∀ j, ∃ tlb last, t.core j = { s.core j with tlb := tlb, lastPage := last }
  die : ∀ d, (s.die d).SameMap (t.die d)

theorem State.TlbOnly.homeSide {s t : State} (h : s.TlbOnly t) : s.HomeSide t := by
  obtain ⟨⟨_, _, rest⟩, core, die⟩ := h
  refine ⟨⟨_, _, _, _, _, _, rest⟩, core, fun d => ?_⟩
  obtain ⟨_, e⟩ := die d
  rw [e]
  exact .rfl

namespace State.HomeSide

variable {s t u : State}

theorem refl (s : State) : s.HomeSide s := (State.TlbOnly.refl s).homeSide

theorem trans (h : s.HomeSide t) (h' : t.HomeSide u) : s.HomeSide u := by
  obtain ⟨⟨_, _, _, _, _, _, rest⟩, hc, hd⟩ := h
  obtain ⟨⟨_, _, _, _, _, _, rest'⟩, hc', hd'⟩ := h'
  refine ⟨⟨_, _, _, _, _, _, rest'.trans (by rw [rest])⟩, fun j => ?_, fun d => (hd d).trans (hd' d)⟩
  obtain ⟨_, _, ej⟩ := hc j
  obtain ⟨tlb, last, ej'⟩ := hc' j
  exact ⟨tlb, last, by rw [ej', ej]⟩

theorem store (s : State) (mem : List Host.Cell) (poison : List Nat) (comp : Sparse Nat) (lines : Sparse LineTs) :
    s.HomeSide { s with mem := mem, poison := poison, comp := comp, lines := lines } :=
  ⟨⟨_, _, _, _, _, _, rfl⟩, fun _ => ⟨_, _, rfl⟩, fun _ => .rfl⟩

theorem modDie {n : Nat} {f : Die → Die} (hf : ∀ d, Die.SameMap d (f d) := by exact fun _ => ⟨rfl, rfl, rfl⟩) : s.HomeSide (s.modDie n f) := by
  refine ⟨⟨_, _, _, _, _, _, rfl⟩, fun _ => ⟨_, _, rfl⟩, fun d => ?_⟩
  by_cases hd : d = n
  · rw [hd, State.modDie, State.die_setDie]
    exact hf _
  · rw [State.modDie, State.die_setDie_ne _ _ hd]
    exact .rfl

/-- Every die that is listed changed. -/
theorem mapDies {f : Die → Die} (hf : ∀ d, Die.SameMap d (f d)) :
    s.HomeSide { s with dies := s.dies.map fun (p : Nat × Die) => (p.1, f p.2) } := by
  refine ⟨⟨_, _, _, _, _, _, rfl⟩, fun _ => ⟨_, _, rfl⟩, fun d => ?_⟩
  simp only [State.die, Sparse.get?_mapValues]
  cases Sparse.get? s.dies d with
  | none => exact .rfl
  | some x => exact hf x

theorem foldl {α : Type} {f : State → α → State} (hf : ∀ (s : State) (a : α), s.HomeSide (f s a)) (as : List α) (s : State) :
    s.HomeSide (as.foldl f s) := by
  induction as generalizing s with
  | nil => exact refl s
  | cons a as ih => exact (hf s a).trans (ih _)

/-! ## Lines and blocks at their homes -/

theorem setLineTs (s : State) (line : Nat) (x : LineTs) : s.HomeSide (s.setLineTs line x) := by
  unfold State.setLineTs
  exact (store s s.mem s.poison s.comp (Sparse.put s.lines line x)).trans modDie

theorem storeBlock (s : State) (pa : Nat) (comp : Bool) : s.HomeSide (s.storeBlock pa comp) := by
  unfold State.storeBlock
  dsimp only
  split
  · exact (store s _ _ _ _).trans (store _ _ _ _ _)
  · exact store s _ _ _ _

theorem poisonHome (s : State) (pa n : Nat) : s.HomeSide (s.poisonHome pa n) := by
  unfold State.poisonHome State.poisonStored
  dsimp only
  split
  · exact (store s _ _ _ _).trans (store _ _ _ _ _)
  · exact store s _ _ _ _

theorem evict (s : State) (line : Nat) : s.HomeSide (s.evict line) := by
  unfold State.evict
  split
  · exact refl s
  · dsimp only
    have left := store s s.mem s.poison s.comp (Sparse.erase s.lines line)
    split
    · refine trans ?_ (storeBlock ..)
      exact left.trans modDie
    · split
      · refine trans ?_ (poisonHome ..)
        exact left.trans modDie
      · exact left.trans modDie

theorem roomFor (s : State) (line : Nat) : s.HomeSide (s.roomFor line) := by
  unfold State.roomFor
  dsimp only
  split
  · exact refl s
  · split
    · exact refl s
    · exact evict s _

theorem putBytes (bs : List Byte) (s : State) (pa : Nat) : s.HomeSide (s.putBytes pa bs) := by
  induction bs generalizing s pa with
  | nil => exact refl s
  | cons b bs ih => exact (store s _ _ _ _).trans (ih _ _)

theorem forwardWrite (s : State) (pa : Nat) (bs : List Byte) (wts : Nat) : s.HomeSide (s.forwardWrite pa bs wts) := by
  unfold State.forwardWrite
  split
  · exact refl s
  · exact modDie

theorem lineWrite (s : State) (pa : Nat) (bs : List Byte) (w : Nat) (comp : Bool) (op : Option Nat) : s.HomeSide (s.lineWrite pa bs w comp op) :=
  ((putBytes bs s pa).trans (setLineTs ..)).trans (forwardWrite ..)

theorem homeWrite (s : State) (pa : Nat) (bs : List Byte) (clk : Nat) (dirty : Option Nat) (comp : Bool) (op : Option Nat) :
    s.HomeSide (s.homeWrite pa bs clk dirty comp op).1 := by
  unfold State.homeWrite State.homeWriteAt
  split
  · dsimp only
    split
    · exact ((roomFor s _).trans (lineWrite ..)).trans ((roomFor ..).trans (lineWrite ..))
    · exact (roomFor s _).trans (lineWrite ..)
  · exact putBytes ..

theorem homeRenew (s : State) (line clk lease : Nat) : s.HomeSide (s.homeRenew line clk lease).1 := (roomFor ..).trans (setLineTs ..)

/-! ## Copies of the dies -/

theorem dropOlder (s : State) (d line wts : Nat) : s.HomeSide (s.dropOlder d line wts) := by
  unfold State.dropOlder
  split
  · exact refl s
  · split
    · exact modDie
    · exact refl s

theorem putRdc (s : State) (d line : Nat) (c : Copy) : s.HomeSide (s.putRdc d line c) := modDie

theorem refreshRdc (s : State) (d pa wts : Nat) (line : List Byte) (spoilt : Bool) : s.HomeSide (s.refreshRdc d pa wts line spoilt) := by
  unfold State.refreshRdc
  split
  · exact refl s
  · split
    · exact refl s
    · split
      · exact dropOlder ..
      · refine trans ?_ (putRdc ..)
        unfold State.closeLine
        split
        · exact store s _ _ _ _
        · exact refl s

theorem keepRdc (s : State) (d line : Nat) (c : Copy) : s.HomeSide (s.keepRdc d line c) := by
  unfold State.keepRdc
  split
  · exact refl s
  · exact putRdc ..

theorem hostWrite (s : State) (d pa : Nat) (bs : List Byte) (comp : Bool) : s.HomeSide (s.hostWrite d pa bs comp) := by
  have stored : s.HomeSide (s.hostStore pa bs comp) := by
    unfold State.hostStore
    dsimp only
    split
    · exact (putBytes ..).trans (storeBlock ..)
    · exact putBytes ..
  refine (stored.trans (mapDies (f := fun x => { x with rdc := Sparse.erase x.rdc (lineOf pa) }) fun _ => ⟨rfl, rfl, rfl⟩)).trans (keepRdc ..)

/-! ## Stores of a core or a pass -/

theorem writeHome (s : State) (k pa : Nat) (bs : List Byte) (clk : Nat) (dirty : Option Nat) (comp : Bool) :
    s.HomeSide (s.writeHome k pa bs clk dirty comp).1 := by
  have performed : s.HomeSide (s.performWrite k pa bs clk dirty comp none).1 := by
    unfold State.performWrite
    split
    · exact hostWrite ..
    · exact homeWrite ..
  unfold State.writeHome
  dsimp only
  split
  · exact performed
  · exact performed.trans (refreshRdc ..)

theorem storeV (n : Nat) (s : State) (k ctx : Nat) (priv : Bool) (a : DWord) (bs : List Byte) : s.HomeSide (s.storeV k ctx priv a bs n).1 := by
  induction n generalizing s a bs with
  | zero => exact refl s
  | succ n ih =>
    unfold State.storeV
    split
    · exact refl s
    · split
      · exact refl s
      · exact ((State.TlbOnly.noteTlb ..).homeSide.trans (writeHome ..)).trans (ih ..)

theorem storeRec (s : State) (k ctx : Nat) (base : DWord) (ps : List Piece) : s.HomeSide (s.storeRec k ctx base ps) :=
  foldl (fun _ _ => storeV ..) ps s

theorem poisonRec (s : State) (k ctx : Nat) (as : List DWord) : s.HomeSide (s.poisonRec k ctx as) :=
  foldl (fun s a => by
    split
    · exact poisonHome s _ _
    · exact refl s) as s

theorem noteSpill (s : State) (k : Nat) (g : Group) : s.HomeSide (s.noteSpill k g) := by
  unfold State.noteSpill
  split
  · exact refl s
  · exact (State.TlbOnly.notePages ..).homeSide

/-- Freeing the shadow of a group writes memory and leaves the cores but for their translations. -/
theorem spill {k : Nat} {g g1 : Group} (h : s.spill k g = .ok (t, g1)) : s.HomeSide t := by
  obtain ⟨fault, hf⟩ : ∃ fault : Nat → Option (Cause × DWord), ∀ j, s.recFault k g .store j = fault j := ⟨_, fun _ => rfl⟩
  simp only [State.spill, hf] at h
  split at h
  · cases h
    exact refl s
  · split at h
    · cases h
    · cases h
      exact ((noteSpill ..).trans (storeRec ..)).trans (poisonRec ..)

/-! ## What stays -/

section Stays

variable (h : s.HomeSide t)
include h

theorem eq_rest {α : Type} (f : State → α)
    (hf : ∀ mem poison comp lines cores dies,
      f { s with mem := mem, poison := poison, comp := comp, lines := lines, cores := cores, dies := dies } = f s) : f t = f s := by
  obtain ⟨_, _, _, _, _, _, e⟩ := h.rest
  rw [e, hf]

theorem launches : t.launches = s.launches := h.eq_rest (·.launches) fun _ _ _ _ _ _ => rfl
theorem reqs : t.reqs = s.reqs := h.eq_rest (·.reqs) fun _ _ _ _ _ _ => rfl
theorem interrupts : t.interrupts = s.interrupts := h.eq_rest (·.interrupts) fun _ _ _ _ _ _ => rfl
theorem passRecs : t.passRecs = s.passRecs := h.eq_rest (·.passRecs) fun _ _ _ _ _ _ => rfl
theorem saved : t.saved = s.saved := h.eq_rest (·.saved) fun _ _ _ _ _ _ => rfl
theorem iss : t.iss = s.iss := h.eq_rest (·.iss) fun _ _ _ _ _ _ => rfl

theorem frames (j : Nat) : (t.core j).frames = (s.core j).frames := by
  obtain ⟨_, _, e⟩ := h.core j
  rw [e]

theorem teams (j : Nat) : (t.core j).teams = (s.core j).teams := by
  obtain ⟨_, _, e⟩ := h.core j
  rw [e]

theorem group? (j n : Nat) : t.group? j n = s.group? j n := by
  rw [State.group?, State.group?, h.frames]

theorem team? (j n : Nat) : (t.core j).team? n = (s.core j).team? n := by
  rw [Core.team?, Core.team?, h.teams]

theorem stores (j : Nat) : (s.core j).sameStores (t.core j) := by
  obtain ⟨_, _, e⟩ := h.core j
  rw [e]
  exact ⟨rfl, rfl, rfl, rfl⟩

theorem indOf (pa : Nat) (a b : IndState) : t.indOf pa a b = s.indOf pa a b := by
  rw [State.indOf, State.indOf, (h.die _).1]

theorem place (pa : Nat) : t.place pa = s.place pa := by
  rw [State.place, State.place, h.indOf]

theorem migrated (pa : Nat) : t.migrated pa = s.migrated pa := by
  rw [State.migrated, State.migrated, h.indOf]

theorem hostLine (pa : Nat) : t.hostLine pa = s.hostLine pa := by
  rw [State.hostLine, State.hostLine, (h.die _).2.1]

end Stays

end State.HomeSide

end Sys2Proof.Machine
end

