-- ==== Sys2Proof/Proofs/LineStores.lean ====
section
/-! PROOF. Bytes stored in one line at its home, where no frame moves, are the only bytes that change (R309, R334, R379). -/

namespace Sys2Proof.Machine

open Sys2Proof

-- One proof at a time: in parallel, the stacks of the threads exceed the memory that the check allows.
set_option Elab.async false

variable {s : State} {pa n : Nat} {bs : List Byte}

/-! ## Bookkeeping at the homes leaves the bytes -/

theorem setLineTs_mem (s : State) (line : Nat) (x : LineTs) : (s.setLineTs line x).mem = s.mem := rfl

theorem storeBlock_mem (s : State) (pa : Nat) (comp : Bool) : (s.storeBlock pa comp).mem = s.mem := by
  unfold State.storeBlock
  dsimp only
  split <;> rfl

theorem poisonHome_mem (s : State) (pa n : Nat) : (s.poisonHome pa n).mem = s.mem := by
  unfold State.poisonHome State.poisonStored
  dsimp only
  split <;> rfl

theorem evict_mem (s : State) (line : Nat) : (s.evict line).mem = s.mem := by
  unfold State.evict
  split
  · rfl
  · dsimp only
    split
    · exact storeBlock_mem ..
    · split
      · exact poisonHome_mem ..
      · rfl

theorem roomFor_mem (s : State) (line : Nat) : (s.roomFor line).mem = s.mem := by
  unfold State.roomFor
  dsimp only
  split
  · rfl
  · split
    · rfl
    · exact evict_mem ..

theorem forwardWrite_mem (s : State) (pa : Nat) (bs : List Byte) (wts : Nat) : (s.forwardWrite pa bs wts).mem = s.mem := by
  unfold State.forwardWrite
  split <;> rfl

theorem homeRenew_mem (s : State) (line clk lease : Nat) : (s.homeRenew line clk lease).1.mem = s.mem := roomFor_mem ..

/-! ## Bytes written where they stand -/

/-- No byte of a range stands in a frame that moves: each is stored at its own address, and nowhere else (R378, R379). -/
def State.Settled (s : State) (pa n : Nat) : Prop := ∀ j < n, s.migrated (pa + j) = none ∧ s.place (pa + j) = pa + j

theorem State.HomeSide.settled {t : State} (h : s.HomeSide t) (hs : s.Settled pa n) : t.Settled pa n := fun j hj => by
  rw [h.migrated, h.place]
  exact hs j hj

/-- A walk poisons no byte. -/
theorem State.TlbOnly.poisoned {t : State} (h : s.TlbOnly t) (pa n : Nat) : t.poisoned pa n = s.poisoned pa n := by
  have poison : t.poison = s.poison := by
    obtain ⟨_, _, e⟩ := h.rest
    rw [e]
  simp only [State.poisoned, State.badByte, poison, h.homeSide.place]

theorem putBytes_mem (hs : s.Settled pa bs.length) : (s.putBytes pa bs).mem = Memory.write s.mem pa bs := by
  induction bs generalizing s pa with
  | nil => rfl
  | cons b bs ih =>
    have first : (s.putByte pa b).mem = Memory.set s.mem pa b := by
      obtain ⟨hm, hp⟩ := hs 0 (by simp)
      rw [Nat.add_zero] at hm hp
      simp only [State.putByte, hm, hp]
    have side : s.HomeSide (s.putByte pa b) := .store s ..
    have later : (s.putByte pa b).Settled (pa + 1) bs.length := side.settled fun j hj => by
      rw [Nat.add_assoc, Nat.add_comm 1]
      exact hs (j + 1) (by simpa using hj)
    rw [State.putBytes, ih later, first, Memory.write]

/-- A write of untracked bytes at a home in HBM or in memory that no frame moves. -/
theorem homeWrite_mem {clk : Nat} {comp : Bool} {op : Option Nat} (hs : s.Settled pa bs.length) :
    (s.homeWrite pa bs clk none comp op).1.mem = Memory.write s.mem pa bs := by
  unfold State.homeWrite State.homeWriteAt
  split
  · have room := State.HomeSide.roomFor s (lineOf pa)
    simp only [State.lineWrite, forwardWrite_mem, setLineTs_mem]
    rw [putBytes_mem (room.settled hs), roomFor_mem]
  · exact putBytes_mem hs

theorem dropOlder_mem (s : State) (d line wts : Nat) : (s.dropOlder d line wts).mem = s.mem := (State.Quiet.dropOlder ..).mem

theorem writeHome_mem {k clk : Nat} {comp : Bool} (hl : s.hostLine pa = false) (hs : s.Settled pa bs.length) :
    (s.writeHome k pa bs clk none comp).1.mem = Memory.write s.mem pa bs := by
  have performed : (s.performWrite k pa bs clk none comp none).1.mem = Memory.write s.mem pa bs := by
    rw [State.performWrite, hl]
    exact homeWrite_mem hs
  unfold State.writeHome
  dsimp only
  split
  · exact performed
  · exact (State.Quiet.refreshRdc ..).mem.trans performed

/-! ## Stores in one line -/

theorem storeV_nil (s : State) (k ctx : Nat) (priv : Bool) (a : DWord) (n : Nat) : s.storeV k ctx priv a [] n = (s, 0) := by
  cases n <;> rfl

theorem storeV_line {k ctx : Nat} {priv : Bool} {a : DWord} {e : TlbEntry} (hne : bs ≠ []) (hlen : a.toNat % 128 + bs.length ≤ 128)
    (he : s.translate k none ctx priv .store a = .ok e) (hl : s.hostLine (e.pa a) = false) (ht : e.tracked (e.pa a) = none)
    (hs : s.Settled (e.pa a) bs.length) : (s.storeV k ctx priv a bs (n + 1)).1.mem = Memory.write s.mem (e.pa a) bs := by
  have whole : bs.take (128 - a.toNat % 128) = bs := List.take_of_length_le (by omega)
  have none' : bs.drop (128 - a.toNat % 128) = [] := List.drop_of_length_le (by omega)
  have note := (State.TlbOnly.noteTlb s k e)
  have empty : bs.isEmpty = false := by simpa using hne
  unfold State.storeV
  simp only [empty, Bool.false_eq_true, if_false, he, whole, none', storeV_nil, ht]
  rw [writeHome_mem (by rw [note.homeSide.hostLine, hl]) (note.homeSide.settled hs), note.mem]

/-- The bytes of a memory after a write: those written, and elsewhere those before. -/
theorem get_write_getD {m : List Host.Cell} (h : Memory.wf m = true) (a x : Nat) :
    Memory.get (Memory.write m a bs) x = if a ≤ x ∧ x < a + bs.length then bs.getD (x - a) 0 else Memory.get m x := by
  rw [Memory.get_write bs h]
  by_cases hx : a ≤ x ∧ x < a + bs.length
  · have hi : x - a < bs.length := by omega
    rw [if_pos hx, if_pos hx.1, List.getD_eq_getElem?_getD, List.getElem?_eq_getElem hi]
    rfl
  · rw [if_neg hx]
    split
    · rw [List.getElem?_eq_none (by omega)]
      rfl
    · rfl

end Sys2Proof.Machine
end

