-- ==== Sys2Proof/Proofs/LaunchEnds.lean ====
section
/-! PROOF. Groups retire, teams leave, launches complete or are ended (R27, R233, R265, R397). -/

namespace Sys2Proof.Machine

open Sys2Proof

-- One proof at a time: in parallel, the stacks of the threads exceed the memory that the check allows.
set_option Elab.async false

variable {s t u : State} {k fr n launch id : Nat}

/-! ## Teams of a core -/

theorem modTeam_team? (c : Core) {v : Team → Team} (hv : ∀ x, (v x).launch = x.launch) :
    (c.modTeam launch v).team? n = (c.team? n).map fun x => if x.launch == launch then v x else x := by
  have find : ∀ l : List Team, (l.map fun x => if x.launch == launch then v x else x).find? (fun x => x.launch == n) =
      (l.find? fun x => x.launch == n).map fun x => if x.launch == launch then v x else x := by
    intro l
    induction l with
    | nil => rfl
    | cons x l ih =>
      have same : (if x.launch == launch then v x else x).launch = x.launch := by
        split
        · exact hv x
        · rfl
      simp only [List.map_cons, List.find?_cons, same, ih]
      split <;> rfl
  exact find c.teams

theorem team?_launch {c : Core} {team : Team} (h : c.team? n = some team) : team.launch = n := by
  simpa using List.find?_some h

theorem dropTeam_team? (c : Core) (launch : Nat) : (c.dropTeam launch).team? launch = none := by
  simp [Core.dropTeam, Core.team?]

/-! ## Launches -/

theorem launch?_id {l : Launch} (h : s.launch? n = some l) : l.id = n := by
  simpa using List.find?_some h

theorem launch?_modLaunch {l : Launch} {v : Launch → Launch} (h : s.launch? n = some l) (hv : ∀ x, (v x).id = x.id) :
    (s.modLaunch n v).launch? n = some (v l) := by
  have find : ∀ ls : List Launch, ls.find? (fun x => x.id == n) = some l →
      (ls.map fun x => if x.id == n then v x else x).find? (fun x => x.id == n) = some (v l) := by
    intro ls
    induction ls with
    | nil => simp
    | cons x ls ih =>
      by_cases hx : x.id = n
      · intro hl
        obtain rfl : x = l := by simpa [hx] using hl
        simp [hx, hv]
      · intro hl
        have hl' : ls.find? (fun x => x.id == n) = some l := by simpa [hx] using hl
        simpa [hx] using ih hl'
  exact find s.launches h

theorem launch?_dropped (ls : List Launch) (id : Nat) : (ls.filter fun m => m.id != id).find? (fun m => m.id == id) = none := by
  simp

/-! ## Barriers and write-backs leave the frames, the claims and the count of a team's groups -/

/-- A core with the same frames and claims, and with as many groups in each team. -/
structure Core.SameStaff (c d : Core) : Prop where
  frames : d.frames = c.frames
  claims : d.claims = c.claims
  live : ∀ n team, c.team? n = some team → ∃ team', d.team? n = some team' ∧ team'.live = team.live

theorem Core.SameStaff.of_teams {c d : Core} (hf : d.frames = c.frames) (hc : d.claims = c.claims) (ht : d.teams = c.teams) : c.SameStaff d :=
  ⟨hf, hc, fun n team h => ⟨team, by rw [Core.team?, ht]; exact h, rfl⟩⟩

theorem Core.SameStaff.refl (c : Core) : c.SameStaff c := .of_teams rfl rfl rfl

theorem Core.SameStaff.trans {c d e : Core} (h : c.SameStaff d) (h' : d.SameStaff e) : c.SameStaff e :=
  ⟨h'.frames.trans h.frames, h'.claims.trans h.claims, fun n team ht => by
    obtain ⟨team', ht', hl⟩ := h.live n team ht
    obtain ⟨team'', ht'', hl'⟩ := h'.live n team' ht'
    exact ⟨team'', ht'', hl'.trans hl⟩⟩

theorem Core.SameStaff.modTeam {c : Core} {v : Team → Team} (hv : ∀ x, (v x).launch = x.launch) (hl : ∀ x, (v x).live = x.live) :
    c.SameStaff (c.modTeam launch v) :=
  ⟨rfl, rfl, fun n team h => ⟨_, by rw [modTeam_team? c hv, h]; rfl, by dsimp only; split <;> simp only [hl]⟩⟩

/-- Memory, launches and the staff of every core stay. -/
structure State.SameStaff (s t : State) : Prop where
  mem : t.mem = s.mem
  launches : t.launches = s.launches
  core : ∀ j, (s.core j).SameStaff (t.core j)

namespace State.SameStaff

theorem refl (s : State) : s.SameStaff s := ⟨rfl, rfl, fun _ => .refl _⟩

theorem trans (h : s.SameStaff t) (h' : t.SameStaff u) : s.SameStaff u :=
  ⟨h'.mem.trans h.mem, h'.launches.trans h.launches, fun j => (h.core j).trans (h'.core j)⟩

theorem modCore {f : Core → Core} (hf : ∀ c, Core.SameStaff c (f c) := by exact fun _ => .of_teams rfl rfl rfl) : s.SameStaff (s.modCore k f) := by
  refine ⟨rfl, rfl, fun j => ?_⟩
  by_cases hj : j = k
  · rw [hj, State.modCore, State.core_setCore]
    exact hf _
  · rw [State.modCore, State.core_setCore_ne _ _ hj]
    exact .refl _

theorem modDie {d : Nat} {f : Die → Die} : s.SameStaff (s.modDie d f) := ⟨rfl, rfl, fun _ => .refl _⟩

theorem foldl {α : Type} {f : State → α → State} (hf : ∀ (s : State) (a : α), s.SameStaff (f s a)) (as : List α) (s : State) :
    s.SameStaff (as.foldl f s) := by
  induction as generalizing s with
  | nil => exact refl s
  | cons a as ih => exact (hf s a).trans (ih _)

theorem setBar {sc i : Nat} {w : Word} {clk : Nat} : s.SameStaff (s.setBar k launch sc i w clk) := by
  unfold State.setBar
  split
  · exact modCore fun c => .modTeam (fun _ => rfl) fun _ => rfl
  · exact modCore fun c => .modTeam (fun _ => rfl) fun _ => rfl
  · exact modDie

theorem barComplete {sc i : Nat} : s.SameStaff (s.barComplete k launch sc i) := by
  unfold State.barComplete
  dsimp only
  split
  · exact setBar
  · exact refl s

theorem barRetire : s.SameStaff (s.barRetire k launch n) :=
  foldl (fun _ _ => (barComplete.trans barComplete).trans barComplete) _ s

/-- Every core that is listed changed, and the dies. -/
theorem mapCores {f : Core → Core} {dies : Sparse Die} (hf : ∀ c, Core.SameStaff c (f c) := by exact fun _ => .of_teams rfl rfl rfl) :
    s.SameStaff { s with dies := dies, cores := s.cores.map fun p => (p.1, f p.2) } := by
  refine ⟨rfl, rfl, fun j => ?_⟩
  simp only [State.core, Sparse.get?_mapValues]
  cases Sparse.get? s.cores j with
  | none => exact .refl _
  | some c => exact hf c

theorem dropMap {m : MapRange} : s.SameStaff (s.dropMap k m) := by
  have first : s.SameStaff (s.modCore k fun c => { c with maps := c.maps.filter fun x => !(x.launch == m.launch && x.off == m.off) }) :=
    modCore
  unfold State.dropMap
  dsimp only
  split
  · exact first.trans (mapCores (f := fun c => { c with subBounds := c.subBounds.filter fun b => !(b.1 == k && b.2.1 == (s.core k).mapBase m) }))
  · exact first

theorem unmapTeam : s.SameStaff (s.unmapTeam k launch) := by
  unfold State.unmapTeam
  refine trans ?_ (foldl (fun _ _ => dropMap) _ _)
  refine trans (foldl (fun t p => ?_) _ s) ⟨rfl, rfl, fun _ => .refl _⟩
  have sent (u : State) (r : Req) : u.SameStaff (u.send r) := ⟨rfl, rfl, fun _ => .refl _⟩
  exact trans modCore (sent ..)

end State.SameStaff

/-! ## A group retires (R27, R233, R397) -/

/-- The state in which a group's frame, its claims and its place in its team and launch are given up. -/
def State.retire (s : State) (k fr : Nat) (g : Group) : State :=
  ({ s with reqs := s.reqs.filter fun q => !(q.core == k && q.frame == fr) }.modCore k
    fun c => (c.dropGroup fr).modTeam g.launch fun t => { t with live := t.live - 1 }).modLaunch g.launch fun l =>
      { l with live := l.live - 1, maxClock := Nat.max (Nat.max l.maxClock (s.core k).clock) (Nat.max g.ackmax g.rdmax) }

/-- A group with no lane left and nothing outstanding retires; its barriers and its ranges follow. -/
theorem exec_groupRetire {g : Group} (hg : s.group? k fr = some g) (hlive : g.liveSlices = []) (hrun : g.status = .running)
    (hreqs : ∀ q ∈ s.reqs, q.core = k → q.frame = fr → q.isWrite = false)
    (hops : ∀ h ∈ (s.core k).handles, h.2.owner = fr → h.2.state ≠ .running ∧ h.2.state ≠ .paused) (hwork : (s.core k).workOf fr = false) :
    ∃ t, exec (.groupRetire k fr) s = .next t ∧ (s.retire k fr g).SameStaff t := by
  have writes : (s.reqs.any fun q => q.core == k && q.frame == fr && q.isWrite) = false := by
    simp only [List.any_eq_false, Bool.and_eq_true, beq_iff_eq]
    rintro q hq ⟨⟨hk, hf⟩, hw⟩
    rw [hreqs q hq hk hf] at hw
    cases hw
  have ops : ((s.core k).handles.any fun h => h.2.owner == fr && (h.2.state == .running || h.2.state == .paused)) = false := by
    simp only [List.any_eq_false, Bool.and_eq_true, Bool.or_eq_true, beq_iff_eq]
    rintro h hh ⟨ho, hst⟩
    exact hst.elim (hops h hh ho).1 (hops h hh ho).2
  have step (u : State) : u.SameStaff (if u.liveOn k g.launch = 0 then u.unmapTeam k g.launch else u) := by
    split
    · exact .unmapTeam
    · exact .refl u
  refine ⟨_, ?_, (State.SameStaff.barRetire (k := k) (launch := g.launch) (n := g.hdr.barriers)).trans (step _)⟩
  change execGroupRetire k fr s = _
  simp only [execGroupRetire, hg, hlive, hrun, writes, ops, hwork, ne_eq, not_true_eq_false, Bool.or_self, Bool.false_eq_true, or_self, if_false]
  rfl

theorem retire_core (s : State) (k fr : Nat) (g : Group) :
    (s.retire k fr g).core k = ((s.core k).dropGroup fr).modTeam g.launch fun t => { t with live := t.live - 1 } :=
  State.core_setCore ..

/-- What is left of a group that has retired: no frame, no claim, one group less in its team and in its launch. -/
theorem retire_leaves {g : Group} {team : Team} {l : Launch} (ht : (s.core k).team? g.launch = some team) (hl : s.launch? g.launch = some l) :
    (s.retire k fr g).group? k fr = none ∧ (∀ p ∈ ((s.retire k fr g).core k).claims, p.2 ≠ fr) ∧
      ((s.retire k fr g).core k).team? g.launch = some { team with live := team.live - 1 } ∧
      ∃ l', (s.retire k fr g).launch? g.launch = some l' ∧ l'.live = l.live - 1 := by
  rw [State.group?, retire_core]
  refine ⟨?_, fun p hp => ?_, ?_, _, launch?_modLaunch hl fun _ => rfl, rfl⟩
  · change Sparse.get? (Sparse.erase (s.core k).frames fr) fr = none
    rw [Sparse.get?_erase, if_pos rfl]
  · simpa using (List.mem_filter.mp (show p ∈ (s.core k).claims.filter fun p => p.2 != fr from hp)).2
  · have same : ((s.core k).dropGroup fr).team? g.launch = some team := ht
    rw [modTeam_team? (v := fun t => { t with live := t.live - 1 }) _ fun _ => rfl, same, Option.map_some, if_pos (beq_iff_eq.mpr (team?_launch ht))]

/-! ## A team leaves (R323, R397) -/

theorem saveBlock_side (s : State) (d launch : Nat) : (∀ j, ((s.saveBlock d launch).core j).teams = (s.core j).teams) ∧
    (∀ j, ((s.saveBlock d launch).core j).frames = (s.core j).frames) ∧
    ((∀ b ∈ (s.die d).blocks, b.launch ≠ launch) → (s.saveBlock d launch).mem = s.mem) := by
  unfold State.saveBlock
  split
  · exact ⟨fun _ => rfl, fun _ => rfl, fun _ => rfl⟩
  · split
    · exact ⟨fun _ => rfl, fun _ => rfl, fun _ => rfl⟩
    · next b hb =>
      refine ⟨fun j => (State.HomeSide.storeRec ..).teams j, fun j => (State.HomeSide.storeRec ..).frames j, fun h => ?_⟩
      exact absurd (by simpa using List.find?_some hb) (h b (List.mem_of_find?_eq_some hb))

/-- A team whose cluster has no group left and whose write-backs are acknowledged leaves its core. -/
theorem exec_teamLeave {team : Team} (ht : (s.core k).team? launch = some team) (hlive : team.live = 0)
    (hpeers : ∀ p ∈ team.peers, s.liveOn p launch = 0) (hbacks : ∀ q ∈ s.reqs, q.core = k → q.frame = 64 → q.wb ≠ some launch)
    (hpre : team.preempting = false) : exec (.teamLeave k launch) s = .next
      (((s.modCore k fun c => c.dropTeam launch).modLaunch launch fun l => { l with maxClock := Nat.max l.maxClock (s.core k).clock }).saveBlock
        (dieOf k) launch) := by
  have cluster : (team.peers.any fun p => decide (0 < s.liveOn p launch)) = false := by
    simp only [List.any_eq_false, decide_eq_true_eq]
    exact fun p hp => by rw [hpeers p hp]; exact Nat.lt_irrefl 0
  have backs : (s.reqs.any fun q => q.core == k && q.frame == 64 && q.wb == some launch) = false := by
    simp only [List.any_eq_false, Bool.and_eq_true, beq_iff_eq]
    exact fun q hq ⟨⟨hk, hf⟩, hw⟩ => hbacks q hq hk hf hw
  change execTeamLeave k launch s = _
  simp only [execTeamLeave, ht, hlive, cluster, backs, hpre, Nat.lt_irrefl, Bool.false_eq_true, or_self, if_false]

/-! ## A launch completes (R397) -/

/-- The done increment changes neither launches nor interrupts, and no memory where the record names no milestone. -/
theorem doneIncrement_keeps (s : State) (l : Launch) : (s.doneIncrement l).launches = s.launches ∧ (s.doneIncrement l).interrupts = s.interrupts ∧
    (l.record.doneAddr = 0 → (s.doneIncrement l).mem = s.mem) := by
  unfold State.doneIncrement
  dsimp only
  split
  · exact ⟨rfl, rfl, fun _ => rfl⟩
  · next ha =>
    have kept {t : State} (h : s.HomeSide t) : t.launches = s.launches ∧ t.interrupts = s.interrupts ∧
        (l.record.doneAddr = 0 → t.mem = s.mem) := ⟨h.launches, h.interrupts, fun h0 => absurd h0 ha⟩
    have told {t : State} {r : Report} (h : s.HomeSide t) : (t.tell r).launches = s.launches ∧ (t.tell r).interrupts = s.interrupts ∧
        (l.record.doneAddr = 0 → (t.tell r).mem = s.mem) := ⟨(kept h).1, (kept h).2.1, (kept h).2.2⟩
    split
    · exact told (State.TlbOnly.noteWalk ..).homeSide
    · next e _ =>
      have note := (State.TlbOnly.noteTlb s (passKey l.lead) e).homeSide
      split
      · exact told note
      · split
        · exact told note
        · exact kept (note.trans (.writeHome ..))

/-- Bytes that no frame moves are read where they are stored. -/
theorem phys_settled {pa n : Nat} (h : s.Settled pa n) (hn : 0 < n) : s.phys pa n = Memory.read s.mem pa n := by
  have at' (j : Nat) (hj : j < n) : s.byte (pa + j) = Memory.get s.mem (pa + j) := by rw [State.byte, (h j hj).2]
  unfold State.phys
  split
  · rw [show s.place pa = pa from (h 0 hn).2]
  · apply List.ext_getElem
    · simp
    · intro i h1 h2
      rw [List.getElem_map, List.getElem_range, Memory.getElem_read, at' i (by simpa using h1)]

/-- The done increment at a home that no frame moves adds to the milestone's word and changes no other byte. -/
theorem doneIncrement_mem {l : Launch} {e : TlbEntry} (ha : l.record.doneAddr ≠ 0)
    (he : s.translate (passKey l.lead) none l.record.ctx (s.privCtx.contains l.record.ctx) .store l.record.doneAddr = .ok e)
    (hdev : pteDev e.pte = false) (hp : s.poisoned (e.pa l.record.doneAddr) 8 = false) (hl : s.hostLine (e.pa l.record.doneAddr) = false)
    (ht : e.tracked (e.pa l.record.doneAddr) = none) (hs : s.Settled (e.pa l.record.doneAddr) 8) :
    (s.doneIncrement l).mem = Memory.write s.mem (e.pa l.record.doneAddr)
      (leBytes 8 ((leNat (Memory.read s.mem (e.pa l.record.doneAddr) 8) + l.record.doneInc.toNat) % 2 ^ 64)) := by
  have note := State.TlbOnly.noteTlb s (passKey l.lead) e
  have hs' : (s.noteTlb (passKey l.lead) e).Settled (e.pa l.record.doneAddr) 8 := note.homeSide.settled hs
  have poison : (s.noteTlb (passKey l.lead) e).poisoned (e.pa l.record.doneAddr) 8 = false := by rw [note.poisoned, hp]
  unfold State.doneIncrement
  simp only [if_neg ha, he, hdev, poison, ht, Bool.false_eq_true, if_false]
  rw [writeHome_mem (by rw [note.homeSide.hostLine, hl]) (by rw [leBytes_length]; exact hs'), phys_settled hs' (by decide), note.mem]

/-- A launch taken from the list, with its interrupt to the host. -/
def State.ended (s : State) (id : Nat) (l : Launch) : State :=
  { s with launches := s.launches.filter fun m => m.id != id, dieSaves := s.dieSaves.filter (fun p => p.launch != id),
           interrupts := if l.record.intr then s.interrupts ++ [id] else s.interrupts }

/-- A launch whose clusters have all ended completes. -/
theorem exec_launchComplete {l : Launch} (hl : s.launch? id = some l) (hn : l.next = l.record.clusters) (hlive : l.live = 0)
    (hst : l.stopped = false) (hteams : ∀ p ∈ s.cores, p.2.team? id = none) (hsaved : ∀ v ∈ s.saved, v.launch ≠ id) :
    exec (.launchComplete id) s = .next (((s.raiseClock (passKey l.lead) l.maxClock).doneIncrement l).ended id l) := by
  have teams : (s.cores.any fun p => (p.2.team? id).isSome) = false := by
    simp only [List.any_eq_false, Bool.not_eq_true, Option.isSome_eq_false_iff, Option.isNone_iff_eq_none]
    exact hteams
  have saved : (s.saved.any fun v => v.launch == id) = false := by
    simp only [List.any_eq_false, beq_iff_eq]
    exact hsaved
  change execLaunchComplete id s = _
  simp only [execLaunchComplete, hl, hn, hlive, hst, teams, saved, ne_eq, not_true_eq_false, Bool.false_eq_true, or_self, if_false]
  rfl

/-! ## Sundoc ends a launch (R265) -/

theorem foldl_dropGroup_frames (fs : List Nat) (c : Core) (f : Nat) :
    Sparse.get? (fs.foldl (fun (c : Core) f => c.dropGroup f) c).frames f = if f ∈ fs then none else Sparse.get? c.frames f := by
  induction fs generalizing c with
  | nil => simp
  | cons x fs ih =>
    have one : Sparse.get? (c.dropGroup x).frames f = if f = x then none else Sparse.get? c.frames f := Sparse.get?_erase ..
    rw [List.foldl_cons, ih, one]
    by_cases hf : f ∈ fs <;> by_cases hx : f = x <;> simp [hf, hx]

/-- What a core holds of a launch is given up: the frames of its groups are free. -/
theorem dropLaunch_frame {c : Core} {f : Nat} {g : Group} (hg : Sparse.get? c.frames f = some g) (hl : g.launch = launch) :
    Sparse.get? (c.dropLaunch launch).frames f = none := by
  have mine : f ∈ (c.frames.filter fun p => p.2.launch == launch).map (·.1) :=
    List.mem_map.mpr ⟨(f, g), List.mem_filter.mpr ⟨Sparse.get?_mem hg, by simpa using hl⟩, rfl⟩
  refine Eq.trans ?_ ((foldl_dropGroup_frames _ c f).trans (if_pos mine))
  rfl

/-- A stopped launch with no write and no operation left is ended. -/
theorem exec_endLaunch {l : Launch} (hl : s.launch? id = some l) (hst : l.stopped = true)
    (hreqs : ∀ q ∈ s.reqs, ∀ g, s.group? q.core q.frame = some g → g.launch = id → q.isWrite = false)
    (hops : ∀ p ∈ s.cores, ∀ h ∈ p.2.handles, h.2.launch = id → h.2.state ≠ .running) :
    ∃ t, exec (.endLaunch id) s = .next t ∧ t.launch? id = none ∧ t.mem = s.mem ∧ t.interrupts = s.interrupts ∧
      t.cores = ((s.dropUnhanded id).dropEngineLocks id).cores.map fun p => (p.1, p.2.dropLaunch id) := by
  change ∃ t, execEndLaunch id s = .next t ∧ _
  unfold execEndLaunch
  rw [hl]
  dsimp only
  split
  · next busy =>
    simp only [hst, Bool.true_or, Bool.not_true, Bool.false_or, Bool.or_eq_true, List.any_eq_true, Bool.and_eq_true, beq_iff_eq] at busy
    obtain ⟨q, hq, hmine, hw⟩ | ⟨p, hp, h, hh, hlaunch, hrun⟩ := busy
    · split at hmine
      · next g hg =>
        rw [hreqs q hq g hg (beq_iff_eq.mp hmine)] at hw
        cases hw
      · cases hmine
    · exact absurd hrun (hops p hp h hh hlaunch)
  · exact ⟨_, rfl, launch?_dropped .., rfl, rfl, rfl⟩

/-- A core without the locks of a launch's engine operations. -/
def State.unlocked (s : State) (id : Nat) (c : Core) : Core := { c with locks := c.locks.filter fun l => !s.lockOf id l }

/-- Once a launch is ended no frame holds a group of it. -/
theorem ended_frames {g : Group} (hg : s.group? k fr = some g) (hl : g.launch = id) {t : State}
    (ht : t.cores = ((s.dropUnhanded id).dropEngineLocks id).cores.map fun p => (p.1, p.2.dropLaunch id)) : t.group? k fr = none := by
  have listed : ∃ c, Sparse.get? s.cores k = some c ∧ Sparse.get? c.frames fr = some g := by
    unfold State.group? State.core at hg
    cases hc : Sparse.get? s.cores k with
    | none => rw [hc] at hg; cases hg
    | some c => exact ⟨c, rfl, by rw [hc] at hg; exact hg⟩
  obtain ⟨c, hc, hf⟩ := listed
  have freed : Sparse.get? ((s.dropUnhanded id).dropEngineLocks id).cores k = some ((s.dropUnhanded id).unlocked id c) :=
    (Sparse.get?_mapValues ((s.dropUnhanded id).unlocked id) s.cores k).trans (by rw [hc]; rfl)
  have core : Sparse.get? t.cores k = some (((s.dropUnhanded id).unlocked id c).dropLaunch id) := by
    rw [ht]
    exact (Sparse.get?_mapValues (fun c : Core => c.dropLaunch id) _ k).trans (by rw [freed]; rfl)
  rw [State.group?, State.core, core]
  exact dropLaunch_frame hf hl

/-- A word of 8 bytes read back where it has been written. -/
theorem leNat_read_write {m : List Host.Cell} (h : Memory.wf m = true) (a v : Nat) :
    leNat (Memory.read (Memory.write m a (leBytes 8 (v % 2 ^ 64))) a 8) = v % 2 ^ 64 := by
  have back := Memory.read_write h a (leBytes 8 (v % 2 ^ 64))
  rw [leBytes_length] at back
  rw [back, leNat_leBytes]
  omega

/-- Settles O47: what a retirement, a departure, a completion and Sundoc's end give up, and the one word that a completion writes. -/
theorem launchesEnd : Obligations.LaunchesEnd := by
  unfold Obligations.LaunchesEnd
  intro s
  refine ⟨fun k fr g team l hg hlive hrun hreqs hops hwork ht hl => ?_, fun k launch team ht hlive hpeers hbacks hpre => ?_,
    fun id l hl hn hlive hst hteams hsaved => ?_, fun id l hl hst hreqs hops => ?_⟩
  · obtain ⟨t, ex, staff⟩ := exec_groupRetire hg hlive hrun hreqs hops hwork
    obtain ⟨hframe, hclaims, hteam, l', hl', hdec⟩ := retire_leaves ht hl
    obtain ⟨team', hteam', hlive'⟩ := (staff.core k).live _ _ hteam
    refine ⟨t, team', l', ex, ?_, staff.mem, ?_, hteam', hlive', ?_, hdec⟩
    · rw [State.group?, (staff.core k).frames]
      exact hframe
    · rw [(staff.core k).claims]
      exact hclaims
    · rw [State.launch?, staff.launches]
      exact hl'
  · obtain ⟨hteams, hframes, hmem⟩ := saveBlock_side
      ((s.modCore k fun c => c.dropTeam launch).modLaunch launch fun l => { l with maxClock := Nat.max l.maxClock (s.core k).clock }) (dieOf k) launch
    have core : ((s.modCore k fun c => c.dropTeam launch).core k) = (s.core k).dropTeam launch := State.core_setCore ..
    refine ⟨_, exec_teamLeave ht hlive hpeers hbacks hpre, hmem, ?_, ?_⟩
    · rw [Core.team?, hteams]
      exact (congrArg (Core.team? · launch) core).trans (dropTeam_team? ..)
    · rw [hframes]
      exact (congrArg Core.frames core).trans rfl
  · obtain ⟨hls, hint, hmem⟩ := doneIncrement_keeps (s.raiseClock (passKey l.lead) l.maxClock) l
    refine ⟨_, exec_launchComplete hl hn hlive hst hteams hsaved, launch?_dropped .., ?_, hmem, ?_⟩
    · rw [State.ended, hint]
      rfl
    · intro e ha hwf he pa hdev hp hh ht hs
      have mem : (((s.raiseClock (passKey l.lead) l.maxClock).doneIncrement l).ended id l).mem = _ :=
        doneIncrement_mem (s := s.raiseClock (passKey l.lead) l.maxClock) ha he hdev hp hh ht hs
      rw [mem]
      exact ⟨leNat_read_write hwf .., fun x hx => Memory.get_write_out hwf (by simpa using hx)⟩
  · obtain ⟨t, ex, hlaunch, hmem, hint, hcores⟩ := exec_endLaunch hl hst hreqs hops
    exact ⟨t, ex, hlaunch, hmem, hint, fun k fr g hg hgl => ended_frames hg hgl hcores⟩

end Sys2Proof.Machine
end

