-- ==== Sys2Proof/Proofs/FaultFrames.lean ====
section
/-! PROOF. What a stop, a fault and the entry of a handler leave of a group (R221, R262 to R267). -/

namespace Sys2Proof.Machine

open Sys2Proof

-- One proof at a time: in parallel, the stacks of the threads exceed the memory that the check allows.
set_option Elab.async false

variable {s t u : State} {k fr : Nat} {g h : Group}

/-! ## What a stop leaves -/

/-- A group that holds the same: lanes, scalars, flags and divergence entries. -/
structure Group.SameHeld (g h : Group) : Prop where
  lanes : h.lanes = g.lanes
  scalars : h.scalars = g.scalars
  flags : h.flags = g.flags
  div : h.div = g.div

theorem Group.SameHeld.refl (g : Group) : g.SameHeld g := ⟨rfl, rfl, rfl, rfl⟩

theorem Group.SameHeld.trans {x : Group} (a : g.SameHeld h) (b : h.SameHeld x) : g.SameHeld x :=
  ⟨b.lanes.trans a.lanes, b.scalars.trans a.scalars, b.flags.trans a.flags, b.div.trans a.div⟩

/-- A group that a stop has touched: it holds the same, and its slices stand where they stood if none of them waited. -/
structure Group.Calm (g h : Group) : Prop extends g.SameHeld h where
  still : g.waits = [] → h.waits = [] ∧ h.slices = g.slices

theorem Group.Calm.refl (g : Group) : g.Calm g := ⟨.refl g, fun h => ⟨h, rfl⟩⟩

theorem Group.Calm.trans {x : Group} (a : g.Calm h) (b : h.Calm x) : g.Calm x :=
  ⟨a.toSameHeld.trans b.toSameHeld, fun h0 => by
    obtain ⟨hw, hs⟩ := a.still h0
    obtain ⟨hw', hs'⟩ := b.still hw
    exact ⟨hw', hs'.trans hs⟩⟩

/-- Every group of a state stands, touched by stops alone. -/
structure State.Calm (s t : State) : Prop where
  group : ∀ k fr g, s.group? k fr = some g → ∃ h, t.group? k fr = some h ∧ g.Calm h

namespace State.Calm

theorem of_groups (h : ∀ k fr, t.group? k fr = s.group? k fr) : s.Calm t :=
  ⟨fun k fr g hg => ⟨g, (h k fr).trans hg, .refl g⟩⟩

theorem refl (s : State) : s.Calm s := of_groups fun _ _ => rfl

theorem trans (a : s.Calm t) (b : t.Calm u) : s.Calm u := ⟨fun k fr g hg => by
  obtain ⟨h, hh, hc⟩ := a.group k fr g hg
  obtain ⟨x, hx, hc'⟩ := b.group k fr h hh
  exact ⟨x, hx, hc.trans hc'⟩⟩

theorem foldl {α : Type} {f : State → α → State} (hf : ∀ (s : State) (a : α), s.Calm (f s a)) (as : List α) (s : State) :
    s.Calm (as.foldl f s) := by
  induction as generalizing s with
  | nil => exact refl s
  | cons a as ih => exact (hf s a).trans (ih _)

/-- One group put in the place of another that it agrees with. -/
theorem setGroup (hg : s.group? k fr = some g) (hc : g.Calm h) : s.Calm (s.setGroup k fr h) := ⟨fun j m x hx => by
  by_cases e : (j, m) = (k, fr)
  · obtain ⟨rfl, rfl⟩ := Prod.mk.inj e
    obtain rfl : g = x := Option.some.inj (hg.symm.trans hx)
    exact ⟨h, State.group?_setGroup .., hc⟩
  · exact ⟨x, (State.group?_setGroup_ne _ _ e).trans hx, .refl x⟩⟩

theorem modGroup {v : Group → Group} (hv : ∀ g, Group.Calm g (v g)) : s.Calm (s.modGroup k fr v) := by
  unfold State.modGroup
  split
  · next g hg => exact setGroup hg (hv g)
  · exact refl s

end State.Calm

/-! ## Barrier words and waits (R221, R297) -/

theorem group?_modCore {f : Core → Core} (hf : ∀ c, (f c).frames = c.frames) (j m : Nat) : (s.modCore k f).group? j m = s.group? j m :=
  (State.Quiet.modCore hf).group? j m

theorem group?_setBar (s : State) (k launch sc i : Nat) (w : Word) (clk j m : Nat) : (s.setBar k launch sc i w clk).group? j m = s.group? j m := by
  rw [State.group?, (State.SameStaff.setBar.core j).frames]
  rfl

theorem group?_barLeave (s : State) (k launch sc i j m : Nat) : (s.barLeave k launch sc i).group? j m = s.group? j m :=
  (group?_setBar ..).trans ((State.Quiet.raiseClock ..).group? j m)

theorem group?_withdraw (s : State) (k launch : Nat) (w : Wait) (j m : Nat) : (s.withdraw k launch w).group? j m = s.group? j m := by
  unfold State.withdraw
  split
  · dsimp only
    split
    · rfl
    · exact group?_setBar ..
  · rfl

theorem mapSlices_sameHeld (g : Group) (mask : BitVec 8) (v : Fin 8 → Slice → Slice) : g.SameHeld (g.mapSlices mask v) :=
  ⟨Group.mapSlices_lanes .., Group.mapSlices_scalars .., Group.mapSlices_flags .., Group.mapSlices_div ..⟩

theorem waits_sameHeld (g : Group) (ws : List Wait) : g.SameHeld { g with waits := ws } := ⟨rfl, rfl, rfl, rfl⟩

theorem endWait_sameHeld (g : Group) (w : Wait) : g.SameHeld (g.endWait w) := by
  unfold Group.endWait
  dsimp only
  split
  · exact waits_sameHeld ..
  · exact (mapSlices_sameHeld ..).trans (waits_sameHeld ..)

theorem dropWait_sameHeld (g : Group) (w : Wait) : g.SameHeld (g.dropWait w) :=
  (mapSlices_sameHeld ..).trans (waits_sameHeld ..)

/-- A wait that is abandoned changes its own group alone, and not what it holds. -/
theorem abandonWait_group (hg : s.group? k fr = some g) (w : Wait) :
    (∃ h, (s.abandonWait k fr w).group? k fr = some h ∧ g.SameHeld h) ∧
      ∀ j m, (j, m) ≠ (k, fr) → (s.abandonWait k fr w).group? j m = s.group? j m := by
  have change {u : State} {v : Group → Group} (hu : ∀ j m, u.group? j m = s.group? j m) (hv : g.SameHeld (v g)) :
      (∃ h, (u.modGroup k fr v).group? k fr = some h ∧ g.SameHeld h) ∧
        ∀ j m, (j, m) ≠ (k, fr) → (u.modGroup k fr v).group? j m = s.group? j m := by
    have hug := (hu k fr).trans hg
    refine ⟨⟨_, State.group?_modGroup hug v, hv⟩, fun j m hne => ?_⟩
    rw [State.modGroup_some hug, State.group?_setGroup_ne _ _ hne, hu]
  unfold State.abandonWait
  rw [hg]
  dsimp only
  split
  · exact ⟨⟨g, hg, .refl g⟩, fun _ _ _ => rfl⟩
  · split
    · split
      · exact change (fun j m => group?_barLeave ..) (endWait_sameHeld ..)
      · exact change (fun j m => group?_withdraw ..) (dropWait_sameHeld ..)
    · exact change (group?_modCore (by exact fun _ => rfl)) (dropWait_sameHeld ..)

theorem abandonWaits_group (hg : s.group? k fr = some g) (ws : List Wait) :
    (∃ h, (ws.foldl (fun (t : State) w => t.abandonWait k fr w) s).group? k fr = some h ∧ g.SameHeld h) ∧
      ∀ j m, (j, m) ≠ (k, fr) → (ws.foldl (fun (t : State) w => t.abandonWait k fr w) s).group? j m = s.group? j m := by
  induction ws generalizing s g with
  | nil => exact ⟨⟨g, hg, .refl g⟩, fun _ _ _ => rfl⟩
  | cons w ws ih =>
    obtain ⟨⟨h, hh, held⟩, other⟩ := abandonWait_group hg w
    obtain ⟨⟨x, hx, held'⟩, other'⟩ := ih hh
    exact ⟨⟨x, hx, held.trans held'⟩, fun j m hne => (other' j m hne).trans (other j m hne)⟩

namespace State.Calm

theorem abandonWaits (s : State) (k fr : Nat) : s.Calm (s.abandonWaits k fr) := by
  unfold State.abandonWaits
  cases hg : s.group? k fr with
  | none => exact refl s
  | some g =>
    refine ⟨fun j m x hx => ?_⟩
    by_cases hw : g.waits = []
    · exact ⟨x, by rw [Option.map_some, Option.getD_some, hw]; exact hx, .refl x⟩
    · obtain ⟨⟨h, hh, held⟩, other⟩ := abandonWaits_group hg g.waits
      by_cases e : (j, m) = (k, fr)
      · obtain ⟨rfl, rfl⟩ := Prod.mk.inj e
        obtain rfl : g = x := Option.some.inj (hg.symm.trans hx)
        exact ⟨h, hh, held, fun h0 => absurd h0 hw⟩
      · exact ⟨x, (other j m e).trans hx, .refl x⟩

/-! ## Stops (R176, R265, R278) -/

theorem halt (s : State) (k fr : Nat) (st : Status) (flt : Option FaultRec) : s.Calm (s.halt k fr st flt) :=
  (abandonWaits s k fr).trans (modGroup fun _ => ⟨⟨rfl, rfl, rfl, rfl⟩, fun h => ⟨h, rfl⟩⟩)

theorem modLaunch (s : State) (n : Nat) (f : Launch → Launch) : s.Calm (s.modLaunch n f) := of_groups fun _ _ => rfl

theorem tell (s : State) (r : Report) : s.Calm (s.tell r) := of_groups fun _ _ => rfl

theorem stopWhere (s : State) (p : Nat → Group → Bool) (st : Status) : s.Calm (s.stopWhere p st) := by
  refine foldl (fun t x => ?_) _ s
  split
  · split
    · exact halt ..
    · exact refl t
  · exact refl t

theorem haltDebug (s : State) (k fr : Nat) : s.Calm (s.haltDebug k fr) := by
  unfold State.haltDebug
  split
  · exact refl s
  · next g hg =>
    have halted : s.Calm (s.setGroup k fr { g with halted := true }) := setGroup hg ⟨⟨rfl, rfl, rfl, rfl⟩, fun h => ⟨h, rfl⟩⟩
    split
    · exact halt ..
    · split
      · exact halted
      · exact halted
      · exact refl s

theorem allStop (s : State) (k : Nat) (g : Group) : s.Calm (s.allStop k g) := by
  unfold State.allStop
  split
  · exact foldl (fun t (x : Nat × Nat) => haltDebug t x.1 x.2) _ s
  · exact refl s

theorem stopFaulted (hg : s.group? k fr = some g) (r : FaultRec) (nested hfail : Bool) : s.Calm (s.stopFaulted k fr g r nested hfail) :=
  (setGroup hg (.refl g)).trans ((halt ..).trans ((tell ..).trans (allStop ..)))

theorem stopGrid (hg : s.group? k fr = some g) (r : FaultRec) : s.Calm (s.stopGrid k fr g r) :=
  ((stopFaulted hg r _ _).trans (stopWhere ..)).trans (modLaunch ..)

end State.Calm

/-! ## Faults (R261 to R267) -/

/-- What a fault on a split leaves of its group: the lanes outside the split, every pantry slot, the scalars, the flags and the
divergence entries, and the slices outside the split unless a stop has abandoned their waits. -/
structure Group.Frame (mask : BitVec 8) (saves : Bool) (written : List Nat) (g h : Group) : Prop where
  lanes : ∀ l : Fin 32, g.on mask l = false → h.lanes[l] = g.lanes[l]
  pantry : saves = false → ∀ l : Fin 32, h.lanes[l].pantry = g.lanes[l].pantry
  flags : h.flags = g.flags
  div : h.div = g.div
  scalars : ∀ j, j ∉ written → h.scalar j = g.scalar j
  slices : g.waits = [] → ∀ j : Fin 8, mask.getLsbD j.val = false → h.slices[j] = g.slices[j]

variable {mask : BitVec 8} {saves : Bool} {written : List Nat}

theorem Group.Calm.frame (c : g.Calm h) : Group.Frame mask saves written g h :=
  ⟨fun _ _ => by rw [c.lanes], fun _ _ => by rw [c.lanes], c.flags, c.div, fun _ _ => by rw [Group.scalar, c.scalars, Group.scalar],
    fun h0 _ _ => by rw [(c.still h0).2]⟩

theorem intoHandler_div {g1 : Group} {r : FaultRec} {a : DWord} : (g.intoHandler g1 mask r a).div = g1.div := by
  simp only [Group.intoHandler, Group.trapCall, callInto_div]

theorem intoHandler_slice_out {g1 : Group} {r : FaultRec} {a : DWord} {i : Fin 8} (hi : mask.getLsbD i.val = false) :
    (g.intoHandler g1 mask r a).slices[i] = g1.slices[i] := by
  rw [intoHandler_slices, Group.trapCall, callInto_slice, if_neg (Bool.eq_false_iff.mp hi)]

/-- The group that has entered the handler. -/
theorem intoHandler_frame {s1 : State} {g1 : Group} {r : FaultRec} {a : DWord} (hs : s.spill k g = .ok (s1, g1)) :
    Group.Frame mask saves written g (g.intoHandler g1 mask r a) := by
  obtain ⟨hl, hsc, hf, -, hdiv, hact⟩ := spill_keeps hs
  have hon (l : Fin 32) : g1.on mask l = g.on mask l := on_congr (fun i => by rw [hact]) (fun i => by rw [hact]) mask l
  refine ⟨fun l hl' => ?_, fun _ l => ?_, intoHandler_flags.trans hf, intoHandler_div.trans hdiv, fun j _ => ?_, fun _ j hj => ?_⟩
  · rw [intoHandler_lane, hon, hl', if_neg Bool.false_ne_true, hl]
  · rw [intoHandler_lane, hl]
    split
    · exact enter_pantry ..
    · rfl
  · rw [Group.scalar, intoHandler_scalars, hsc, Group.scalar]
  · rw [intoHandler_slice_out hj, hact]

/-- A state in which a group's frame holds what another leaves of it. -/
def State.Framed (t : State) (k fr : Nat) (mask : BitVec 8) (saves : Bool) (written : List Nat) (g : Group) : Prop :=
  ∃ h, t.group? k fr = some h ∧ g.Frame mask saves written h

theorem State.Calm.framed (c : s.Calm t) (hg : s.group? k fr = some g) : t.Framed k fr mask saves written g := by
  obtain ⟨h, hh, hc⟩ := c.group k fr g hg
  exact ⟨h, hh, hc.frame⟩

variable {r : FaultRec}

theorem enterHandler_framed (hg : s.group? k fr = some g) : (s.enterHandler k fr g mask r).Framed k fr mask saves written g := by
  have noted : (s.noteEntry k g.ctx g.priv g.hdr.handler).group? k fr = some g := ((State.TlbOnly.noteEntry ..).group? k fr).trans hg
  have fail := (State.Calm.stopFaulted noted r false true).framed (mask := mask) (saves := saves) (written := written) noted
  unfold State.enterHandler
  split
  · exact (State.Calm.stopFaulted hg r false true).framed hg
  · dsimp only
    split
    · exact fail
    · split
      · split
        · exact fail
        · split
          · have spilt := ((State.HomeSide.noteSpill (s.noteEntry k g.ctx g.priv g.hdr.handler) k g).group? k fr).trans noted
            exact (State.Calm.stopFaulted spilt r false true).framed spilt
          · next hs => exact ⟨_, State.group?_setGroup .., intoHandler_frame hs⟩
      · exact fail

theorem deliver_framed (hg : s.group? k fr = some g) : (s.deliver k fr g mask r).Framed k fr mask saves written g := by
  unfold State.deliver
  split
  · exact (((State.Calm.setGroup hg (.refl g)).trans (.halt ..)).trans (.allStop ..)).framed hg
  split
  · exact (State.Calm.stopFaulted hg ..).framed hg
  split
  · exact (State.Calm.stopFaulted hg ..).framed hg
  split
  · exact enterHandler_framed hg
  split
  · exact (State.Calm.stopGrid hg ..).framed hg
  · exact (State.Calm.stopFaulted hg ..).framed hg

/-- Whatever a fault leads to, its group keeps what lies outside the split. -/
theorem raise_framed (hg : s.group? k fr = some g) : (s.raise k fr mask r).Framed k fr mask saves written g := by
  unfold State.raise
  rw [hg]
  dsimp only
  split
  · split
    · exact (State.Calm.refl s).framed hg
    · have noted : g.Calm { g with fault := some r, drainFault := true } := ⟨⟨rfl, rfl, rfl, rfl⟩, fun h => ⟨h, rfl⟩⟩
      exact (State.Calm.setGroup hg noted).framed hg
  · split
    · exact (((State.Calm.halt ..).trans (.tell ..)).trans (.allStop ..)).framed hg
    · split
      · exact (State.Calm.refl s).framed hg
      · exact deliver_framed hg
  · exact (State.Calm.refl s).framed hg

/-! ## What a fault leaves of the stores (R34, R265) -/

/-- The second state has the scratch, rack, banks and claims of the first. -/
structure State.SameCores (s t : State) : Prop where
  core : ∀ j, (s.core j).sameStores (t.core j)

namespace State.SameCores

theorem of_same (h : s.sameStores t) : s.SameCores t := ⟨h.2⟩

theorem of_home (h : s.HomeSide t) : s.SameCores t := ⟨h.stores⟩

theorem refl (s : State) : s.SameCores s := of_same s.sameStores_refl

theorem trans (a : s.SameCores t) (b : t.SameCores u) : s.SameCores u := ⟨fun j => by
  obtain ⟨h1, h2, h3, h4⟩ := a.core j
  obtain ⟨h1', h2', h3', h4'⟩ := b.core j
  exact ⟨h1'.trans h1, h2'.trans h2, h3'.trans h3, h4'.trans h4⟩⟩

theorem stopFaulted (s : State) (k fr : Nat) (g : Group) (r : FaultRec) (nested hfail : Bool) :
    s.SameCores (s.stopFaulted k fr g r nested hfail) := of_same (s.sameStores_stopFaulted ..)

theorem enterHandler (s : State) (k fr : Nat) (g : Group) (mask : BitVec 8) (r : FaultRec) : s.SameCores (s.enterHandler k fr g mask r) := by
  have noted : s.SameCores (s.noteEntry k g.ctx g.priv g.hdr.handler) := of_same (s.sameStores_noteEntry ..)
  have fail := noted.trans (stopFaulted _ k fr g r false true)
  unfold State.enterHandler
  split
  · exact stopFaulted ..
  · dsimp only
    split
    · exact fail
    · split
      · split
        · exact fail
        · split
          · exact (noted.trans (of_home (.noteSpill ..))).trans (stopFaulted ..)
          · next hs => exact (noted.trans (of_home (.spill hs))).trans (of_same (State.sameStores_setGroup ..))
      · exact fail

theorem deliver (s : State) (k fr : Nat) (g : Group) (mask : BitVec 8) (r : FaultRec) : s.SameCores (s.deliver k fr g mask r) := by
  unfold State.deliver
  split
  · exact (of_same (s.sameStores_setGroup ..)).trans ((of_same (State.sameStores_halt ..)).trans (of_same (State.sameStores_allStop ..)))
  split
  · exact stopFaulted ..
  split
  · exact stopFaulted ..
  split
  · exact enterHandler ..
  split
  · exact of_same (s.sameStores_stopGrid ..)
  · exact stopFaulted ..

theorem raise (s : State) (k fr : Nat) (mask : BitVec 8) (r : FaultRec) : s.SameCores (s.raise k fr mask r) := by
  unfold State.raise
  split
  · exact refl s
  · split
    · split
      · exact refl s
      · exact of_same (s.sameStores_setGroup ..)
    · split
      · exact of_same (State.sameStores_trans (s.sameStores_halt ..) (State.sameStores_trans (State.sameStores_tell ..) (State.sameStores_allStop ..)))
      · split
        · exact refl s
        · exact deliver ..
    · exact refl s

end State.SameCores

end Sys2Proof.Machine
end

