-- ==== Sys2Proof/Proofs/LaneFrames.lean ====
section
/-! PROOF. What the instructions of lanes and scalars leave alone, whatever they come to (R113, R129). -/

namespace Sys2Proof.Machine

open Sys2Proof

-- One proof at a time: in parallel, the stacks of the threads exceed the memory that the check allows.
set_option Elab.async false

variable {s t u : State} {i : Instr} {g h x : Group} {mask : BitVec 8} {saves : Bool} {written : List Nat}

/-! ## Groups -/

namespace Group.Frame

theorem refl (g : Group) : g.Frame mask saves written g := (Group.Calm.refl g).frame

/-- What a group holds and its slices outside the split are all that a frame speaks of. -/
theorem held (a : g.Frame mask saves written h) (c : h.SameHeld x) (hs : ∀ j : Fin 8, mask.getLsbD j.val = false → x.slices[j] = h.slices[j]) :
    g.Frame mask saves written x where
  lanes l hl := by rw [c.lanes, a.lanes l hl]
  pantry hn l := by rw [c.lanes, a.pantry hn l]
  flags := c.flags.trans a.flags
  div := c.div.trans a.div
  scalars j hj := by rw [Group.scalar, c.scalars]; exact a.scalars j hj
  slices h0 j hj := (hs j hj).trans (a.slices h0 j hj)

theorem mapSlices (a : g.Frame mask saves written h) (v : Fin 8 → Slice → Slice) : g.Frame mask saves written (h.mapSlices mask v) :=
  a.held (mapSlices_sameHeld ..) fun j hj => by rw [Group.mapSlices_slice, if_neg (Bool.eq_false_iff.mp hj)]

theorem seq (a : g.Frame mask saves written h) (n : Nat) : g.Frame mask saves written { h with seq := n } :=
  a.held ⟨rfl, rfl, rfl, rfl⟩ fun _ _ => rfl

theorem waiting (a : g.Frame mask saves written h) (ws : List Wait) (n : Nat) : g.Frame mask saves written { h with waits := ws, seq := n } :=
  a.held ⟨rfl, rfl, rfl, rfl⟩ fun _ _ => rfl

/-- Lanes of the split that keep their pantries, or that save. -/
theorem mapLanes {v : Fin 32 → Lane → Lane} (hp : saves = false → ∀ (n : Fin 32) (l : Lane), (v n l).pantry = l.pantry) :
    g.Frame mask saves written (g.mapLanes mask v) where
  lanes l hl := by rw [Group.mapLanes_lane, if_neg (Bool.eq_false_iff.mp hl)]
  pantry hn l := by
    rw [Group.mapLanes_lane]
    split
    · exact hp hn ..
    · rfl
  flags := Group.mapLanes_flags ..
  div := Group.mapLanes_div ..
  scalars j _ := by rw [Group.scalar, Group.mapLanes_scalars, Group.scalar]
  slices _ j _ := by rw [Group.mapLanes_slices]

/-- One scalar that is among those written. -/
theorem setScalar (a : g.Frame mask saves written h) {i : Nat} (hi : i ∈ written) (v : Word) : g.Frame mask saves written (h.setScalar i v) where
  lanes := a.lanes
  pantry := a.pantry
  flags := a.flags
  div := a.div
  scalars j hj := by
    have ne : i ≠ j := fun e => hj (e ▸ hi)
    have same : (h.setScalar i v).scalar j = h.scalar j := by
      simp only [Group.setScalar, Group.scalar, Vector.getD, Array.getD_eq_getD_getElem?, Vector.getElem?_toArray,
        Vector.getElem?_setIfInBounds, if_neg ne]
    exact same.trans (a.scalars j hj)
  slices := a.slices

theorem setDst (a : g.Frame mask saves written h) {dst : BitVec 7} {wide : Bool} (hd : dst.toNat ∈ written)
    (hw : wide = true → dst.toNat + 1 ∈ written) (v : Nat) : g.Frame mask saves written (h.setDst dst wide v) := by
  unfold Group.setDst
  split
  · next w => exact (a.setScalar hd _).setScalar (hw w) _
  · exact a.setScalar hd _

end Group.Frame

/-! ## States -/

namespace State.Framed

variable {k fr : Nat}

theorem setGroup (hf : g.Frame mask saves written h) : (s.setGroup k fr h).Framed k fr mask saves written g := ⟨h, State.group?_setGroup .., hf⟩

theorem modGroup (ht : s.Framed k fr mask saves written g) {v : Group → Group}
    (hv : ∀ h, g.Frame mask saves written h → g.Frame mask saves written (v h)) : (s.modGroup k fr v).Framed k fr mask saves written g := by
  obtain ⟨h, hh, hf⟩ := ht
  exact ⟨v h, State.group?_modGroup hh v, hv h hf⟩

theorem of_groups (ht : s.Framed k fr mask saves written g) (e : ∀ j m, t.group? j m = s.group? j m) : t.Framed k fr mask saves written g := by
  obtain ⟨h, hh, hf⟩ := ht
  exact ⟨h, (e k fr).trans hh, hf⟩

theorem advance (ht : s.Framed s.iss.core s.iss.frame s.iss.mask saves written g) :
    s.advance.Framed s.iss.core s.iss.frame s.iss.mask saves written g :=
  ht.modGroup fun _ hf => (hf.mapSlices _).seq _

theorem advance_of {j : Issuer} (e : s.iss = j) (ht : s.Framed j.core j.frame j.mask saves written g) :
    s.advance.Framed j.core j.frame j.mask saves written g := by
  subst e
  exact ht.advance

end State.Framed

/-! ## Instructions -/

/-- No call record of the issuing group is kept back: its shadow is free and none of those in memory waits for data. -/
def State.RecordsFree (s : State) : Prop := ∀ g, s.group? s.iss.core s.iss.frame = some g → g.sliceRecs = [] ∧ g.recHeld = []

/-- The stores of every core stay, and memory too where no call record is kept back. -/
structure State.KeepsStores (s t : State) : Prop where
  cores : s.SameCores t
  mem : s.RecordsFree → t.mem = s.mem

namespace State.KeepsStores

theorem of_same (h : s.sameStores t) : s.KeepsStores t := ⟨.of_same h, fun _ => h.1⟩

theorem refl (s : State) : s.KeepsStores s := of_same s.sameStores_refl

theorem then_same (a : s.KeepsStores t) (b : t.sameStores u) : s.KeepsStores u :=
  ⟨a.cores.trans (.of_same b), fun h => b.1.trans (a.mem h)⟩

/-- Steps that leave every group as it is come before. -/
theorem after_home (a : s.HomeSide t) (ha : s.RecordsFree → t.mem = s.mem) (b : t.KeepsStores u) : s.KeepsStores u :=
  ⟨(State.SameCores.of_home a).trans b.cores, fun h =>
    (b.mem fun g hg => h g (by rw [a.iss, a.group?] at hg; exact hg)).trans (ha h)⟩

theorem raise (s : State) (mask : BitVec 8) (r : FaultRec) : s.KeepsStores (s.raise s.iss.core s.iss.frame mask r) :=
  ⟨.raise .., fun h => (s.sameStores_raise _ _ _ _ fun g hg => (h g hg).1).1⟩

end State.KeepsStores

/-- Instructions of lanes and of scalars, those of scalar memory apart. -/
def Form.lanesOrScalars (f : Form) : Prop := f.onLanes = true ∨ ∃ op x, f = .s op x ∧ op < 0x50

/-- What an instruction leaves alone. -/
structure State.Kept (s : State) (i : Instr) (t : State) : Prop extends s.KeepsStores t where
  frame : Form.lanesOrScalars i.form → ∀ g, s.group? s.iss.core s.iss.frame = some g →
    t.Framed s.iss.core s.iss.frame s.iss.mask i.form.saves i.form.writesScalars g

/-- Whatever next state there is, it leaves those things alone. -/
def Res.Kept (s : State) (i : Instr) (r : Res) : Prop := ∀ t, r = .next t → s.Kept i t

theorem Res.Kept.next (h : s.Kept i t) : Res.Kept s i (.next t) := fun _ e => by
  cases e
  exact h

namespace State.Kept

/-- Of an instruction of no lanes and no scalars memory alone is asked. -/
theorem of_stores (hb : ¬ Form.lanesOrScalars i.form) (h : s.KeepsStores t) : s.Kept i t := ⟨h, fun hl => absurd hl hb⟩

theorem raise (s : State) (i : Instr) (r : FaultRec) : s.Kept i (s.raise s.iss.core s.iss.frame s.iss.mask r) :=
  ⟨.raise .., fun _ _ hg => raise_framed hg⟩

theorem faultHere (s : State) (i : Instr) (c : Cause) (a : DWord) : s.Kept i (s.faultHere c a) := raise ..

theorem faultPoison (s : State) (i : Instr) (p : PoisonMark) : s.Kept i (s.faultPoison p) := raise ..

theorem refl (s : State) (i : Instr) : s.Kept i s := ⟨.refl s, fun _ g hg => ⟨g, hg, .refl g⟩⟩

theorem waitFor (s : State) (i : Instr) (g : Group) (ids : List Nat) : s.Kept i (s.waitFor g ids) := by
  unfold State.waitFor
  split
  · exact raise ..
  · exact refl s i

/-- The group takes the place of one that it leaves alone what it must, and its split goes on. -/
theorem finish (hg : s.group? s.iss.core s.iss.frame = some g) (hf : g.Frame s.iss.mask i.form.saves i.form.writesScalars h) :
    s.Kept i (s.finish h) := by
  refine ⟨.of_same (s.sameStores_finish h), fun _ x hx => ?_⟩
  obtain rfl : g = x := Option.some.inj (hg.symm.trans hx)
  exact State.Framed.advance (s := s.setGroup s.iss.core s.iss.frame h) (.setGroup hf)

/-- A core's registers change, and the split goes on. -/
theorem modCore_advance {f : Core → Core} (hs : ∀ c : Core, c.sameStores (f c) := by exact fun _ => ⟨rfl, rfl, rfl, rfl⟩)
    (hf : ∀ c, (f c).frames = c.frames := by exact fun _ => rfl) : s.Kept i (s.modCore s.iss.core f).advance := by
  refine ⟨.of_same (State.sameStores_trans (s.sameStores_modCore _ (hs _)) (State.sameStores_advance _)), fun _ g hg => ?_⟩
  exact State.Framed.advance (s := s.modCore s.iss.core f) ⟨g, (group?_modCore hf ..).trans hg, .refl g⟩

end State.Kept

namespace Res.Kept

theorem either {c : Prop} [Decidable c] {a b : Res} (ha : Res.Kept s i a) (hb : Res.Kept s i b) : Res.Kept s i (if c then a else b) := by
  split
  · exact ha
  · exact hb

theorem checked {k : Group → Res} (hk : ∀ g, s.group? s.iss.core s.iss.frame = some g → Res.Kept s i (k g)) : Res.Kept s i (s.checked i k) := by
  unfold State.checked
  split
  · nofun
  · next g hg =>
    split
    · exact .next (.faultHere ..)
    · exact hk g hg

theorem unblocked {k : Res} (hk : Res.Kept s i k) : Res.Kept s i (s.unblocked i g k) := by
  unfold State.unblocked
  split
  · split
    · exact .next (.faultPoison ..)
    · exact hk
  · exact .next (.waitFor ..)

theorem gate {k : Group → Res} (hk : ∀ g, s.group? s.iss.core s.iss.frame = some g → Res.Kept s i (k g)) : Res.Kept s i (s.gate i k) :=
  checked fun g hg => (hk g hg).unblocked

/-! ## The shapes of an instruction of lanes and scalars -/

theorem laneOp {r : Group → Fin 32 → Lane → List Word} : Res.Kept s i (s.laneOp i r) :=
  gate fun _ hg => .next (.finish hg (.mapLanes fun _ _ _ => Lane.emits_pantry ..))

theorem scalarOp {v : Group → Group} (hv : ∀ g : Group, g.Frame s.iss.mask i.form.saves i.form.writesScalars (v g)) : Res.Kept s i (s.scalarOp i v) :=
  gate fun g hg => .next (.finish hg (hv g))

theorem sOp {op : Nat} {f : SFields} {wide : Bool} {r : Group → Nat → Nat → Nat} (hd : f.dst.toNat ∈ i.form.writesScalars)
    (hw : wide = true → f.dst.toNat + 1 ∈ i.form.writesScalars) : Res.Kept s i (s.sOp i op f wide r) :=
  scalarOp fun g => (Group.Frame.refl g).setDst hd hw _

end Res.Kept

/-! ## Results that come later (R137) -/

theorem reserve_pantry (req : Nat) : ∀ (n : Nat) (l : Lane), (l.reserve req n).pantry = l.pantry
  | 0, _ => rfl
  | n + 1, _ => (reserve_pantry req n _ :)

/-- A lane of the split that waits for a result. -/
theorem reserveFor_framed {k fr : Nat} {lane : Fin 32} {n : Nat} {r : Req} (hon : g.on mask lane = true) (hk : r.core = k) (hfr : r.frame = fr)
    (ht : s.Framed k fr mask saves written g) : (s.reserveFor lane n r).Framed k fr mask saves written g := by
  subst hk hfr
  obtain ⟨h, hh, hf⟩ := ht
  simp only [State.reserveFor, hh]
  have lane_set (m : Fin 32) : (h.lanes.set lane (h.lanes[lane].reserve s.nextReq n))[m] =
      if lane = m then h.lanes[lane].reserve s.nextReq n else h.lanes[m] := by
    simp only [Fin.getElem_fin, Vector.getElem_set, Fin.ext_iff]
  refine ⟨_, State.group?_setGroup s .., fun l hl => ?_, fun hn l => ?_, hf.flags, hf.div, hf.scalars, hf.slices⟩
  · refine (lane_set l).trans ?_
    rw [if_neg (fun e => by rw [← e, hon] at hl; cases hl), hf.lanes l hl]
  · rw [lane_set]
    split
    · next e => rw [reserve_pantry, e, hf.pantry hn l]
    · exact hf.pantry hn l

/-- The request whose end gives a lane its result (R137). -/
def longReq (t : State) (g : Group) (l : Fin 32) (ws : List Word) : Req := { Req.blank t g l.val with kind := .long, data := wordsBytes ws }

/-- Some lanes wait for results, each for its own. -/
def State.reserveAll (s : State) (g : Group) (r : Fin 32 → List Word) (ls : List (Fin 32)) : State :=
  ls.foldl (fun t l => t.reserveFor l (r l).length (longReq t g l (r l))) s

theorem reserveFor_iss (s : State) (lane : Fin 32) (n : Nat) (r : Req) : (s.reserveFor lane n r).iss = s.iss := by
  unfold State.reserveFor
  split <;> rfl

theorem reserveAll_iss {r : Fin 32 → List Word} (ls : List (Fin 32)) : ∀ s : State, (s.reserveAll g r ls).iss = s.iss := by
  induction ls with
  | nil => exact fun _ => rfl
  | cons l ls ih => exact fun s => (ih _).trans (reserveFor_iss ..)

theorem reserveAll_framed {j : Issuer} {r : Fin 32 → List Word} : ∀ (ls : List (Fin 32)) (s : State), s.iss = j →
    (∀ l ∈ ls, g.on mask l = true) → s.Framed j.core j.frame mask saves written g → (s.reserveAll g r ls).Framed j.core j.frame mask saves written g
  | [], _, _, _, ht => ht
  | l :: ls, s, e, hon, ht => reserveAll_framed ls _ ((reserveFor_iss ..).trans e) (fun m hm => hon m (List.mem_cons_of_mem _ hm))
      (reserveFor_framed (r := longReq s g l (r l)) (hon l List.mem_cons_self) (congrArg Issuer.core e) (congrArg Issuer.frame e) ht)

/-- The active lanes of the split wait for their results, and the split goes on. -/
theorem State.Kept.sentOff {r : Fin 32 → Lane → List Word} (hg : s.group? s.iss.core s.iss.frame = some g) : s.Kept i (s.sentOff g r) := by
  let s1 := s.reserveAll g (fun l => r l g.lanes[l]) (g.activeLanes s.iss.mask)
  have same : s.sameStores s1 := State.sameStores_foldl _ (fun t l => t.sameStores_reserveFor ..) _ s
  refine ⟨.of_same (State.sameStores_trans same s1.sameStores_advance), fun _ x hx => ?_⟩
  obtain rfl : g = x := Option.some.inj (hg.symm.trans hx)
  exact .advance_of (s := s1) (reserveAll_iss ..) (reserveAll_framed _ s rfl (fun l hl => mem_activeLanes.mp hl) ⟨g, hg, .refl g⟩)

namespace Res.Kept

theorem longOp {r : Group → Fin 32 → Lane → List Word} : Res.Kept s i (s.longOp i r) := gate fun _ hg => .next (.sentOff hg)

theorem vOp {op : Nat} {f : VFields} {r : Nat → Nat → Nat → List Word} : Res.Kept s i (s.vOp i op f r) := by
  unfold State.vOp
  extract_lets
  split
  · exact longOp
  · exact laneOp

end Res.Kept

end Sys2Proof.Machine
end

