-- ==== Sys2Proof/Proofs/InstructionFrames.lean ====
section
/-! PROOF. What every instruction leaves alone (R27, R34, R113, R129). -/

namespace Sys2Proof.Machine

open Sys2Proof

-- One proof at a time: in parallel, the stacks of the threads exceed the memory that the check allows.
set_option Elab.async false

variable {s t u : State} {i : Instr} {g h : Group}

/-! ## Call records that go to memory and come back (R32, R34) -/

/-- The forms of class B: control. -/
def Form.isControl : Form → Bool
  | .bw _ _ _ | .bz _ _ _ _ | .bs _ _ _ | .join _ | .calli _ _ _ | .ret _ | .b0 _ | .bi _ _ => true
  | _ => false

theorem not_lanesOrScalars {f : Form} (h : Form.isControl f = true) : ¬ Form.lanesOrScalars f := by
  rintro (hl | ⟨op, x, rfl, -⟩)
  · cases f <;> cases hl <;> cases h
  · cases h

/-- Of control instructions memory alone is asked. -/
theorem Res.Kept.of_stores (hb : Form.isControl i.form = true) {r : Res} (h : ∀ t, r = .next t → s.KeepsStores t) : Res.Kept s i r :=
  fun t e => .of_stores (not_lanesOrScalars hb) (h t e)

theorem noteSpill_nil {k : Nat} (h : g.sliceRecs = []) : s.noteSpill k g = s := by
  simp only [State.noteSpill, h]

theorem spilled_error {x : Cause × DWord} (h : s.spill s.iss.core g = .error x) (k : State → Group → Res) :
    s.spilled g k = .next ((s.noteSpill s.iss.core g).faultHere x.1 x.2) := by
  simp only [State.spilled, h]

/-- Reading call records back leaves what waits in those that memory holds. -/
theorem fetchRecs_recHeld {k : Nat} {mask : BitVec 8} {pc : DWord} (hs : s.fetchRecs k g mask pc = .ok h) : h.recHeld = g.recHeld := by
  obtain ⟨fault, hf⟩ : ∃ fault : Nat → Option (Cause × DWord), ∀ j, s.recFault k g .load j = fault j := ⟨_, fun _ => rfl⟩
  simp only [State.fetchRecs, hf] at hs
  split at hs
  · cases hs
    rfl
  · split at hs <;> cases hs
    rfl

namespace State.KeepsStores

theorem setGroup (s : State) (k fr : Nat) (g : Group) : s.KeepsStores (s.setGroup k fr g) := of_same (s.sameStores_setGroup ..)

theorem faultHere (s : State) (c : Cause) (a : DWord) : s.KeepsStores (s.faultHere c a) := raise ..

/-- Freeing the shadow of a group that has none writes nothing. -/
theorem after_spill (hg : s.group? s.iss.core s.iss.frame = some g) {p : State × Group} (hs : s.spill s.iss.core g = .ok p)
    (hk : p.1.sameStores t) : s.KeepsStores t := by
  refine after_home (.spill hs) (fun h => ?_) (of_same hk)
  have free : p = (s, g) := Except.ok.inj (hs.symm.trans (State.spill_nil _ _ (h g hg).1))
  rw [free]

/-- A fault on the way to the records comes after walks alone. -/
theorem faultSpill (hg : s.group? s.iss.core s.iss.frame = some g) (c : Cause) (a : DWord) :
    s.KeepsStores ((s.noteSpill s.iss.core g).faultHere c a) :=
  after_home (.noteSpill ..) (fun h => by rw [noteSpill_nil (h g hg).1]) (faultHere ..)

/-- The records of an earlier call go to memory where there are some; a fault on the way, too, leaves the stores. -/
theorem spilled {k : State → Group → Res} (hg : s.group? s.iss.core s.iss.frame = some g)
    (hk : ∀ s1 g1 t, k s1 g1 = .next t → s1.sameStores t) (e : s.spilled g k = .next t) : s.KeepsStores t := by
  cases hs : s.spill s.iss.core g with
  | error x =>
    rw [spilled_error hs] at e
    cases e
    exact faultSpill hg ..
  | ok p =>
    rw [spilled_ok hs] at e
    exact after_spill hg hs (hk _ _ _ e)

/-- Nor do walks for the records of the split change a store, whatever comes after. -/
theorem fetched {k : State → Group → Res}
    (hk : ∀ v h, s.HomeSide v → v.mem = s.mem → (g.recHeld = [] → h.recHeld = []) → k v h = .next t → s.KeepsStores t)
    (e : s.fetched g k = .next t) : s.KeepsStores t := by
  have noted : s.TlbOnly (s.noteRecs g) := by
    unfold State.noteRecs
    split
    · exact .refl s
    · exact .notePages ..
  cases hs : s.fetchRecs s.iss.core g s.iss.mask s.iss.pc with
  | error x =>
    simp only [State.fetched, hs] at e
    cases e
    exact after_home noted.homeSide (fun _ => noted.mem) (faultHere ..)
  | ok h =>
    simp only [State.fetched, hs] at e
    exact hk _ h noted.homeSide noted.mem (fun h0 => (fetchRecs_recHeld hs).trans h0) e

end State.KeepsStores

/-! ## Logged loads that a resume fills (R212, R269) -/

/-- A frame whose group has no call record in memory that waits. -/
def State.Unheld (s : State) (k fr : Nat) : Prop := ∀ g, s.group? k fr = some g → g.recHeld = []

/-- The stores of every core stay; memory does too, and no call record comes to wait, where none waits. -/
structure State.Fills (k fr : Nat) (s t : State) : Prop where
  cores : s.SameCores t
  unheld : s.Unheld k fr → t.mem = s.mem ∧ t.Unheld k fr

namespace State.Fills

variable {k fr : Nat}

theorem of_group (a : s.sameStores t) (ht : s.Unheld k fr → t.Unheld k fr) : Fills k fr s t := ⟨.of_same a, fun h => ⟨a.1, ht h⟩⟩

theorem refl (s : State) : Fills k fr s s := of_group s.sameStores_refl id

theorem trans (a : Fills k fr s t) (b : Fills k fr t u) : Fills k fr s u :=
  ⟨a.cores.trans b.cores, fun h => ⟨(b.unheld (a.unheld h).2).1.trans (a.unheld h).1, (b.unheld (a.unheld h).2).2⟩⟩

theorem foldl {α : Type} {f : State → α → State} (hf : ∀ (s : State) (a : α), Fills k fr s (f s a)) (as : List α) (s : State) :
    Fills k fr s (as.foldl f s) := by
  induction as generalizing s with
  | nil => exact refl s
  | cons a as ih => exact (hf s a).trans (ih _)

theorem setGroup (hh : s.Unheld k fr → h.recHeld = []) : Fills k fr s (s.setGroup k fr h) :=
  of_group (s.sameStores_setGroup ..) fun hs x hx => by
    rw [State.group?_setGroup] at hx
    cases hx
    exact hh hs

theorem modGroup {v : Group → Group} (hv : ∀ g, (v g).recHeld = g.recHeld) : Fills k fr s (s.modGroup k fr v) := by
  unfold State.modGroup
  split
  · next g hg => exact setGroup fun hs => (hv g).trans (hs g hg)
  · exact refl s

theorem reqs (s : State) (rs : List Req) : Fills k fr s { s with reqs := rs } :=
  of_group ⟨rfl, fun _ => ⟨rfl, rfl, rfl, rfl⟩⟩ id

theorem fillReq (s : State) (lane req : Nat) (es : List (BitVec 5)) (vs : List Word) : Fills k fr s (s.fillReq k fr lane req es vs) := by
  cases hg : s.group? k fr with
  | none =>
    have none : s.fillReq k fr lane req es vs = s := by simp only [State.fillReq, hg]
    rw [none]
    exact refl s
  | some g =>
    refine ⟨?_, fun hs => ?_⟩
    · simp only [State.fillReq, hg]
      exact (SameCores.of_same (s.sameStores_setGroup ..)).trans (.of_home (.storeRec ..))
    · have held := hs g hg
      rw [fillReq_group hg held]
      exact (setGroup fun _ => by simp only [Group.fillReq, held, List.map_nil]).unheld hs

theorem askReplay (s : State) : Fills k fr s (s.askReplay k fr) :=
  (modGroup (v := fun g => { g with replay := true }) fun _ => rfl).trans (of_group ⟨rfl, fun _ => ⟨rfl, rfl, rfl, rfl⟩⟩ id)

theorem skipLogged (s : State) (mask : BitVec 8) (flt : FaultRec) : Fills k fr s (s.skipLogged k fr mask flt) := by
  unfold State.skipLogged
  split
  · exact refl s
  · next g hg =>
    dsimp only
    split
    · next e _ =>
      have log (t : State) := modGroup (s := t) (k := k) (fr := fr) (v := fun g => { g with log := g.log.filter fun x => x.op != e.op }) fun _ => rfl
      exact ((foldl (fun t (r : Req) => fillReq t ..) _ s).trans (log _)).trans (reqs ..)
    · split
      · exact refl s
      · exact setGroup fun hs => hs g hg

theorem resumeLogged (s : State) (mask : BitVec 8) (flt : Option FaultRec) (skip : Bool) : Fills k fr s (s.resumeLogged k fr mask flt skip) := by
  unfold State.resumeLogged
  split
  · split
    · split
      · exact skipLogged ..
      · exact askReplay s
    · exact refl s
  · exact refl s

end State.Fills

/-- Records that are used up leave none that waits, where none waited. -/
theorem leave_recHeld {mask : BitVec 8} {ret : Lane → List Word} {v : Fin 8 → Slice → Slice} (hh : g.recHeld = []) :
    (g.leave mask ret v).recHeld = [] := by
  have kept : ((g.restoreLanes mask ret).mapSlices mask fun i sl => v i { sl with
      pc := (g.sliceRec i).retPc, iidx := 0, depth := sl.depth - 1, dvtop := (g.sliceRec i).dvtop,
      active := (g.sliceRec i).active &&& ~~~sl.exited }).recHeld = [] := by
    rw [Group.mapSlices_recHeld, Group.restoreLanes, Group.mapLanes_recHeld, hh]
  unfold Group.leave Group.dropRecs
  dsimp only
  rw [kept]
  generalize List.filter _ (List.finRange 32) = ls
  induction ls with
  | nil => rfl
  | cons l ls ih => exact ih

theorem seq_recHeld (g : Group) (n : Nat) : ({ g with seq := n } : Group).recHeld = g.recHeld := rfl

/-! ## Control (R154 to R172, R269) -/

namespace Res.Kept

section
variable (hb : Form.isControl i.form = true)
include hb

theorem stores (h : s.KeepsStores t) : Res.Kept s i (.next t) := .next (.of_stores (not_lanesOrScalars hb) h)

theorem same (h : s.sameStores t) : Res.Kept s i (.next t) := stores hb (.of_same h)

theorem uniform {off : Word} {test : Group → Bool} {v : Group → Group} : Res.Kept s i (s.uniform i off test v) := by
  refine gate fun g _ => ?_
  dsimp only
  split
  · exact .next (.faultHere ..)
  · exact either (same hb (s.sameStores_setGroup ..)) (same hb (s.sameStores_finish _))

theorem perLane {c : Operand} {junc target : Int} {takes : Nat → Bool} : Res.Kept s i (s.perLane i c junc target takes) := by
  refine checked fun g _ => ?_
  dsimp only
  split
  · exact .next (.faultHere ..)
  · exact either (.next (.faultHere ..)) (unblocked (same hb (s.sameStores_setGroup ..)))

end

theorem settled {k : Res} (hk : Res.Kept s i k) : Res.Kept s i (s.settled g k) := by
  unfold State.settled
  split
  · exact hk
  · exact .next (.waitFor ..)

theorem clean {ages : Nat} {k : Res} (hk : Res.Kept s i k) : Res.Kept s i (s.clean g ages k) := by
  unfold State.clean
  split
  · exact .next (.faultPoison ..)
  · exact hk

theorem joinReady {sels : List Nat} {k : Res} (hk : Res.Kept s i k) : Res.Kept s i (s.joinReady g sels k) := by
  unfold State.joinReady
  split
  · split
    · exact .next (.faultPoison ..)
    · exact hk
  · exact .next (.waitFor ..)

theorem execJoin {f : JoinFields} : Res.Kept s (.join f) (execJoin f s) := by
  refine checked fun g _ => ?_
  dsimp only
  split
  · exact .next (.faultHere ..)
  · exact either (.next (.faultHere ..)) (joinReady (same rfl (s.sameStores_setGroup ..)))

/-- A call, once its target is sound. -/
theorem calls (hb : Form.isControl i.form = true) {n : Nat} {out : Group → Group} (hg : s.group? s.iss.core s.iss.frame = some g) :
    Res.Kept s i (s.settled g <| s.clean g n <| s.spilled g fun s1 g1 => .next (s1.setGroup s.iss.core s.iss.frame (out g1))) := by
  refine settled (clean (of_stores hb fun t => .spilled hg fun s1 g1 t e => ?_))
  cases e
  exact s1.sameStores_setGroup ..

theorem execCall {n : BitVec 4} {off : Word} : Res.Kept s (.call n off) (execCall n off s) := by
  refine gate fun g hg => ?_
  dsimp only
  split
  · exact .next (.faultHere ..)
  · exact either (.next (.faultHere ..)) (calls rfl hg)

theorem execCalli {n : BitVec 4} {idx : Operand} {sig : Word} : Res.Kept s (.calli n idx sig) (execCalli n idx sig s) := by
  refine gate fun g hg => ?_
  dsimp only
  split
  · exact .next (.faultHere ..)
  · split
    · exact .next (.faultHere ..)
    · exact either (.next (.faultHere ..)) (calls rfl hg)

theorem execRet {n : BitVec 4} : Res.Kept s (.ret n) (execRet n s) := by
  refine checked fun g hg => either (.next (.faultHere ..)) ?_
  split
  · exact .next (.faultHere ..)
  · refine settled (of_stores rfl fun t => .fetched fun v h home mem _ e => ?_)
    split at e
    · cases e
      exact .after_home home (fun _ => mem) (.faultHere ..)
    · unfold State.clean at e
      split at e
      · cases e
        exact .raise ..
      · cases e
        exact .after_home home (fun _ => mem) (.setGroup ..)

end Res.Kept

/-- A resume fills what it skips, in a state in which its group has left its handler. -/
theorem State.KeepsStores.resume (home : s.HomeSide t) (mem : t.mem = s.mem) {k fr : Nat} (held : s.RecordsFree → g.recHeld = [])
    (h : State.Fills k fr (t.setGroup k fr g) u) : s.KeepsStores u := by
  refine ⟨(State.SameCores.of_home home).trans ((State.SameCores.of_same (t.sameStores_setGroup ..)).trans h.cores), fun free => ?_⟩
  refine ((h.unheld fun x hx => ?_).1.trans (State.setGroup_mem ..)).trans mem
  rw [State.group?_setGroup] at hx
  cases hx
  exact held free

namespace Res.Kept

theorem execEret : Res.Kept s .eret (execEret s) := by
  refine checked fun g hg => ?_
  dsimp only
  refine either (.next (.faultHere ..)) ?_
  split
  · exact .next (.faultHere ..)
  · refine of_stores rfl fun t => .fetched fun v h home mem held e => ?_
    split at e
    · cases e
      exact .after_home home (fun _ => mem) (.faultHere ..)
    · unfold State.settled at e
      split at e
      · split at e
        · cases e
          exact .after_home home (fun _ => mem) (.faultHere ..)
        · split at e
          · cases e
            exact .after_home home (fun _ => mem) (.of_same (State.sameStores_trans (v.sameStores_setGroup ..) (State.sameStores_stopFaulted ..)))
          · cases e
            refine .resume home mem (fun free => ?_) (.foldl (fun w p => .resumeLogged ..) _ _)
            exact (seq_recHeld ..).trans (leave_recHeld (held (free g hg).2))
      · cases e
        exact (State.Kept.waitFor s .eret g _).toKeepsStores

/-! ## System registers (R132, R199, R278, R361, R375) -/

theorem prepend {ms : List Move} (h : s.Kept i t) : s.Kept i (t.prepend ms) :=
  ⟨h.toKeepsStores.then_same ⟨rfl, fun _ => ⟨rfl, rfl, rfl, rfl⟩⟩, fun hl g hg => (h.frame hl g hg).of_groups fun _ _ => rfl⟩

/-- A register that an event writes: the split waits, and steps past its clause where it stands at its end. -/
theorem waitEvent {f : Core → Core} {sh : List Shoot} {w : List Nat} (hs : ∀ c : Core, c.sameStores (f c)) (hf : ∀ c, (f c).frames = c.frames) :
    s.Kept i (State.waitEvent { s.modCore s.iss.core f with shoots := sh } i w) := by
  refine ⟨.of_same (State.sameStores_trans (s.sameStores_modCore _ (hs _)) (State.sameStores_trans ⟨rfl, fun _ => ⟨rfl, rfl, rfl, rfl⟩⟩ (State.sameStores_modGroup ..))),
    fun _ g hg => ?_⟩
  have there : State.Framed { s.modCore s.iss.core f with shoots := sh } s.iss.core s.iss.frame s.iss.mask i.form.saves i.form.writesScalars g :=
    ⟨g, (group?_modCore hf ..).trans hg, .refl g⟩
  refine there.modGroup fun h hh => ?_
  dsimp only
  split
  · exact (hh.mapSlices _).waiting _ _
  · exact hh.waiting _ _

theorem execSwrite {f : SFields} : Res.Kept s (.swrite f) (execSwrite f s) := by
  refine gate fun g hg => either (.next (prepend .modCore_advance)) (either (.next .modCore_advance) (either (.next .modCore_advance)
    (either (either (.next (.faultHere ..)) (.next (.finish hg ((Group.Frame.refl g).mapSlices _)))) (either (.next .modCore_advance) ?_))))
  exact .next (waitEvent (fun _ => ⟨rfl, rfl, rfl, rfl⟩) fun _ => rfl)

theorem execLeaseWrite {f : SFields} : Res.Kept s (.leaseWrite f) (execLeaseWrite f s) := gate fun _ _ => .next .modCore_advance

theorem execDieselWrite {f : SFields} : Res.Kept s (.dieselWrite f) (execDieselWrite f s) := gate fun _ _ => .next .modCore_advance

theorem execSave {age : BitVec 5} {slot : BitVec 6} : Res.Kept s (.save age slot) (execSave age slot s) :=
  gate fun _ hg => .next (.finish hg (.mapLanes nofun))

theorem execDrop {n : BitVec 5} : Res.Kept s (.drop n) (execDrop n s) :=
  gate fun _ hg => .next (.finish hg (.mapLanes fun _ _ _ => rfl))

theorem execBallot {f : GFields} : Res.Kept s (.ballot f) (execBallot f s) :=
  scalarOp fun g => (Group.Frame.refl g).setScalar (List.mem_singleton.mpr rfl) _

/-! ## The shapes of an instruction -/

theorem vInt {op : Nat} {f : VFields} {r : Int → Int → Int → Int} : Res.Kept s i (s.vInt i op f r) := vOp

theorem vFloat {op : Nat} {f : VFields} {r : FVal → FVal → FVal → FVal} : Res.Kept s i (s.vFloat i op f r) := vOp

theorem vSpecial {op : Nat} {f : VFields} {r : FVal → SfOut} : Res.Kept s i (s.vSpecial i op f r) := vOp

theorem iOp {f : IFields} {r : Nat → List Word} : Res.Kept s i (s.iOp i f r) := laneOp

theorem iInt {f : IFields} {r : Int → Int → Int} : Res.Kept s i (s.iInt i f r) := iOp

theorem iFloat {f : IFields} {r : FVal → FVal → FVal → FVal} : Res.Kept s i (s.iFloat i f r) := laneOp

theorem shuffle {op : Nat} {f : GFields} {src : Nat → Nat → Option Nat} : Res.Kept s i (s.shuffle i op f src) := laneOp

/-- Class S writes DST, and DST + 1 where the type has 64 bits (R129). -/
theorem writesScalars_typed {n : Nat} {f : SFields} (h41 : n ≠ 0x41) (h18 : n ≠ 0x18) (h30 : n ≠ 0x30) :
    (Form.s n f).writesScalars = if f.ty.is64 then [f.dst.toNat, f.dst.toNat + 1] else [f.dst.toNat] := by
  unfold Form.writesScalars
  split
  · next h => cases h
  · next h => cases h; exact absurd rfl h41
  · next h =>
    cases h
    simp [h18, h30]
  · next h => exact absurd rfl (h _ _)

theorem typed {f : SFields} {n : Nat} (hi : i.form = .s n f)
    (h : n ≠ 0x41 ∧ n ≠ 0x18 ∧ n ≠ 0x30) {r : Group → Nat} : Res.Kept s i (s.scalarOp i fun g => g.setDst f.dst f.ty.is64 (r g)) := by
  obtain ⟨h41, h18, h30⟩ := h
  refine scalarOp fun g => (Group.Frame.refl g).setDst ?_ (fun wide => ?_) _
  · rw [hi, writesScalars_typed h41 h18 h30]
    split <;> simp
  · simp [hi, writesScalars_typed h41 h18 h30, wide]

theorem sBits {n : Nat} {f : SFields} {r : Nat → Nat → Nat} (hi : i.form = .s n f) (h : n ≠ 0x41 ∧ n ≠ 0x18 ∧ n ≠ 0x30) :
    Res.Kept s i (s.sBits i n f r) := typed hi h

theorem sInt {n : Nat} {f : SFields} {r : Int → Int → Int} (hi : i.form = .s n f) (h : n ≠ 0x41 ∧ n ≠ 0x18 ∧ n ≠ 0x30) :
    Res.Kept s i (s.sInt i n f r) := typed hi h

theorem execSsel {f : SFields} : Res.Kept s (.ssel f) (execSsel f s) := typed rfl (by decide)

theorem execSread {f : SFields} : Res.Kept s (.sread f) (execSread f s) := typed rfl (by decide)

end Res.Kept

/-- What every instruction leaves alone that accesses no memory. -/
theorem exec_kept (hi : i.form.keepsMemory = true) : Res.Kept s i (Machine.exec i s) := by
  unfold Machine.exec
  cases i with
  | dup _ | sel _ | lea _ | and _ | or _ | xor _ | not _ | shl _ | shr _ | rotl _ | bfx _ | bfi _ | popc _ | clz _ | ctz _
  | brev _ | permb _ | pack _ | ceq _ | cne _ | clt _ | cle _ | cgt _ | cge _ | cuno _ | fclass _ | fdot2 _ | fdot4 _ | fscale _
  | cvtf _ | cvtfi _ | cvtif _ => exact .vOp
  | add _ | sub _ | mul _ | mulhi _ | mad _ | div _ | rem _ | abs _ | neg _ | min _ | max _ | clamp _ | absdiff _ => exact .vInt
  | fadd _ | fsub _ | fmul _ | ffma _ | fmin _ | fmax _ | frnd _ => exact .vFloat
  | rcp _ | rsq _ | sqrt _ | exp2 _ | log2 _ | sin _ | cos _ | tanh _ | sigm _ => exact .vSpecial
  | act _ => exact .longOp
  | get _ | lane _ | ldi _ | ldhi _ | pchi _ | vany _ | vall _ | bcast _ | redadd _ | redmin _ | redmax _ | scanadd _
  | matchLanes _ | rank _ | clock _ | ptime _ | pair _ => exact .laneOp
  | addi _ | muli _ | mini _ | maxi _ => exact .iInt
  | andi _ | ori _ | xori _ | shli _ | shri _ | clti _ => exact .iOp
  | faddi _ | fmuli _ | ffmai _ | fmini _ | fmaxi _ => exact .iFloat
  | shfl _ | shflx _ | shflup _ | shfldn _ => exact .shuffle
  | save _ _ => exact .execSave
  | drop _ => exact .execDrop
  | ballot _ => exact .execBallot
  | smov _ | sand _ | sor _ | sxor _ | snot _ | sshl _ | sshr _ | sbfx _ | spopc _ | sclz _ | sctz _ => exact .sBits rfl (by decide)
  | sadd _ | ssub _ | smul _ | smulhi _ | sdiv _ | srem _ | smin _ | smax _ => exact .sInt rfl (by decide)
  | ssel _ => exact .execSsel
  | sread _ => exact .execSread
  | slea f => exact .sOp (.head _) fun _ => .tail _ (.head _)
  | scmp f => exact .sOp (.head _) nofun
  | swrite _ => exact .execSwrite
  | leaseWrite _ => exact .execLeaseWrite
  | dieselWrite _ => exact .execDieselWrite
  | br _ | brsz _ _ | brsnz _ _ | brdec _ _ => exact .uniform rfl
  | brz _ _ _ | brnz _ _ _ => exact .perLane rfl
  | join _ => exact .execJoin
  | call _ _ => exact .execCall
  | calli _ _ _ => exact .execCalli
  | ret _ => exact .execRet
  | exit => exact .gate fun _ _ => .same rfl (s.sameStores_setGroup ..)
  | yieldGang | nop => exact .gate fun _ _ => .same rfl (s.sameStores_finish ..)
  | brk _ | trap _ => exact .gate fun _ _ => .next (.faultHere ..)
  | eret => exact .execEret
  | _ => cases hi

/-- Instructions of lanes and scalars access no memory. -/
theorem keepsMemory_of_lanesOrScalars {f : Form} (h : Form.lanesOrScalars f) : f.keepsMemory = true := by
  rcases h with hl | ⟨op, x, rfl, hop⟩
  · cases f <;> cases hl <;> rfl
  · exact decide_eq_true hop

/-- Settles O60: each instruction's next states are faults, waits, and the one that it completes with. -/
theorem instructionFrames : Obligations.InstructionFrames := by
  unfold Obligations.InstructionFrames
  intro s t i e
  refine ⟨fun hm => ⟨(exec_kept hm t e).cores.core, (exec_kept hm t e).mem⟩, fun g op f hg hl => ?_⟩
  have hl' : Form.lanesOrScalars i.form := hl.imp_right fun h => ⟨op, f, h⟩
  obtain ⟨h, hh, hf⟩ := (exec_kept (keepsMemory_of_lanesOrScalars hl') t e).frame hl' g hg
  exact ⟨h, hh, hf.lanes, hf.pantry, hf.flags, hf.div, hf.scalars, hf.slices⟩

end Sys2Proof.Machine
end

