-- ==== Sys2Proof/Proofs/LaunchRecords.lean ====
section
/-! PROOF. Launch records that are taken: by LAUNCH, from a queue, at a milestone (R390, R394, R395, R400). -/

namespace Sys2Proof.Machine

open Sys2Proof

-- One proof at a time: in parallel, the stacks of the threads exceed the memory that the check allows.
set_option Elab.async false

variable {s t : State} {g : Group} {r : LaunchRec} {h : KHeader} {bank : List Byte} {w k fr : Nat}

/-- A launch with nothing placed has been added. -/
def State.Added (s t : State) (r : LaunchRec) (h : KHeader) (bank : List Byte) : Prop :=
  ∃ l, t.launches = s.launches ++ [l] ∧ l.record = r ∧ l.hdr = h ∧ l.bank = bank ∧ l.next = 0 ∧ l.live = 0 ∧ l.stopped = false

theorem acceptLaunch_added (e : t.launches = s.launches) : s.Added (t.acceptLaunch r h bank w) r h bank :=
  ⟨_, congrArg (· ++ [_]) e, rfl, rfl, rfl, rfl, rfl, rfl⟩

theorem acceptLaunch_nextRec (s : State) : (s.acceptLaunch r h bank w).nextRec = s.nextRec := rfl

/-- A record without a milestone has it met. -/
theorem passCounter_none {die : Nat} (hr : r.waitAddr = 0) : s.passCounter die r = .ok (s, true, 0, 0) := by
  simp only [State.passCounter, hr, if_true]

/-! ## LAUNCH (R400) -/

/-- An instruction that has passed its interlocks, or need not pass them again, goes on with its group (R214). -/
theorem latchGate_ready {i : Instr} (hr : s.MemReady i g) (f : Group → Res) : s.latchGate i f = f g := by
  unfold State.latchGate
  split
  · exact memGate_ready hr f
  · obtain ⟨⟨hg, hc, -, -⟩, -, -⟩ := hr
    exact checked_passes hg hc f

/-- A release raises a clock, and the host's mark where the group has stored to the host (R342, R400). -/
theorem releaseDone_keeps (hg : s.group? k fr = some g) : (s.releaseDone k fr).mem = s.mem ∧ (s.releaseDone k fr).launches = s.launches ∧
    (s.releaseDone k fr).passRecs = s.passRecs ∧ (s.releaseDone k fr).iss = s.iss ∧
    (s.releaseDone k fr).group? k fr = some { g with hostSt := false } := by
  have raised : (s.raiseClock k g.ackmax).group? k fr = some g := ((State.Quiet.raiseClock ..).group? ..).trans hg
  unfold State.releaseDone
  rw [hg]
  dsimp only
  generalize ht : (if g.hostSt = true then _ else s.raiseClock k g.ackmax) = t
  have kept : t.mem = s.mem ∧ t.launches = s.launches ∧ t.passRecs = s.passRecs ∧ t.iss = s.iss ∧ t.group? k fr = some g := by
    rw [← ht]
    split
    · exact ⟨rfl, rfl, rfl, rfl, raised⟩
    · exact ⟨rfl, rfl, rfl, rfl, raised⟩
  obtain ⟨hm, hl, hp, hi, hgt⟩ := kept
  exact ⟨(State.modGroup_mem ..).trans hm, (State.modGroup_launches ..).trans hl, (State.modGroup_passRecs ..).trans hp,
    (State.modGroup_iss ..).trans hi, State.group?_modGroup hgt _⟩

theorem seq_sameHeld (g : Group) (n : Nat) : g.SameHeld { g with seq := n } := ⟨rfl, rfl, rfl, rfl⟩

theorem advance_holds {j : Issuer} (e : t.iss = j) (hg : t.group? j.core j.frame = some g) :
    ∃ x, t.advance.group? j.core j.frame = some x ∧ x.lanes = g.lanes ∧ x.scalars = g.scalars := by
  subst e
  have held := (mapSlices_sameHeld g t.iss.mask fun _ sl => { sl with pc := t.iss.nextPc, iidx := t.iss.nextIdx }).trans (seq_sameHeld _ (g.seq + 1))
  exact ⟨_, State.group?_modGroup hg _, held.lanes, held.scalars⟩

/-- The group that has handed a record over goes on. -/
theorem accept_advance {j : Issuer} (hi : t.iss = j) (hg : t.group? j.core j.frame = some g) (hl : t.launches = s.launches) :
    ∃ x, (t.acceptLaunch r h bank w).advance.group? j.core j.frame = some x ∧ x.lanes = g.lanes ∧ x.scalars = g.scalars ∧
      (t.acceptLaunch r h bank w).advance.mem = t.mem ∧ s.Added (t.acceptLaunch r h bank w).advance r h bank := by
  obtain ⟨x, hx, lanes, scalars⟩ := advance_holds (t := t.acceptLaunch r h bank w) hi hg
  obtain ⟨l, hl, facts⟩ := acceptLaunch_added (r := r) (h := h) (bank := bank) (w := w) hl
  exact ⟨x, hx, lanes, scalars, State.advance_mem _, l, (State.advance_launches _).trans hl, facts⟩

/-- With no record of its group before it, a record without a milestone is accepted at once. -/
theorem handOver_accepts (hr : r.waitAddr = 0) (hp : ∀ p ∈ s.passRecs, p.src ≠ some (g.launch, g.cluster, g.index)) (wl : Nat) :
    s.handOver g r h bank wl = s.acceptLaunch r h bank (Nat.max wl 0) := by
  have held : s.passHeld s.nextRec (some (g.launch, g.cluster, g.index)) = false := by
    simp only [State.passHeld, Option.isSome_some, Bool.true_and, List.any_eq_false, Bool.and_eq_true, beq_iff_eq, not_and]
    exact fun p hm e => absurd e (hp p hm)
  simp only [State.handOver, held, passCounter_none hr, Bool.false_eq_true, if_false]

section
variable {f : YFields} {a : DWord} {bs : List Byte}

/-- LAUNCH with nothing to release and a sound record that need not wait hands it over. -/
theorem exec_launch {s0 s1 : State} (hr : s.MemReady (.launch f) g) (hk : s.iss.kept = [] ∧ a = g.yPair f 0 ∨ s.iss.kept = [a.toNat])
    (hy : s.yFault g .load a 64 64 = none) (hw : s.earlierWrites s.iss.core s.iss.frame (g.seq + 1) = false)
    (hd : (s.core s.iss.core).dirtyLeased = []) (hb : s.backsOut s.iss.core s.nextOp = false)
    (h0 : s.releaseDone s.iss.core s.iss.frame = s0) (hv : s0.readV s.iss.core g.ctx g.priv a 64 = .ok bs)
    (h1 : s0.noteRecord s.iss.core g.ctx a bs = s1) (hc : s1.checkRecord s.iss.core g.ctx a bs = .ok r h bank)
    (hn : r.waitAddr = 0) (hp : ∀ p ∈ s1.passRecs, p.src ≠ some (g.launch, g.cluster, g.index)) :
    exec (.launch f) s = .next (s1.acceptLaunch r h bank (Nat.max (s1.core s.iss.core).clock 0)).advance := by
  have addr : s.latchedPair 0 (g.yPair f 0) = a := by
    rcases hk with ⟨hk, rfl⟩ | hk
    · simp only [State.latchedPair, hk, List.getElem?_nil, Option.map_none, Option.getD_none]
    · simp only [State.latchedPair, hk, List.getElem?_cons_zero, Option.map_some, Option.getD_some, BitVec.ofNat_toNat, BitVec.setWidth_eq]
  have short : ∀ x y, s.iss.kept ≠ [x, y] := by
    rcases hk with ⟨hk, -⟩ | hk <;> rw [hk] <;> simp
  change execLaunch f s = _
  rw [execLaunch, latchGate_ready hr]
  dsimp only
  split
  · next x y e => exact absurd e (short x y)
  · simp only [addr, hy, hw, hd, hb, h0, hv, h1, hc, handOver_accepts hn hp, acceptLaunch_nextRec, List.isEmpty_nil, Bool.false_eq_true,
      or_self, false_and, if_false, not_true_eq_false, ne_eq]

/-- What a launch that is handed over comes to: its record is accepted, and the group and memory stay. -/
theorem launch_taken (hr : s.MemReady (.launch f) g) (hk : s.iss.kept = [] ∧ a = g.yPair f 0 ∨ s.iss.kept = [a.toNat])
    (hy : s.yFault g .load a 64 64 = none) (hw : s.earlierWrites s.iss.core s.iss.frame (g.seq + 1) = false)
    (hd : (s.core s.iss.core).dirtyLeased = []) (hb : s.backsOut s.iss.core s.nextOp = false)
    (hv : (s.releaseDone s.iss.core s.iss.frame).readV s.iss.core g.ctx g.priv a 64 = .ok bs)
    (hc : ((s.releaseDone s.iss.core s.iss.frame).noteRecord s.iss.core g.ctx a bs).checkRecord s.iss.core g.ctx a bs = .ok r h bank)
    (hn : r.waitAddr = 0) (hp : ∀ p ∈ s.passRecs, p.src ≠ some (g.launch, g.cluster, g.index)) :
    ∃ t x, exec (.launch f) s = .next t ∧ t.group? s.iss.core s.iss.frame = some x ∧ x.lanes = g.lanes ∧ x.scalars = g.scalars ∧
      t.mem = s.mem ∧ s.Added t r h bank := by
  obtain ⟨mem, launches, passRecs, iss, group⟩ := releaseDone_keeps hr.1.1
  have noted := State.TlbOnly.noteRecord (s.releaseDone s.iss.core s.iss.frame) s.iss.core g.ctx a bs
  have run := exec_launch hr hk hy hw hd hb rfl hv rfl hc hn (by rw [noted.homeSide.passRecs, passRecs]; exact hp)
  generalize State.noteRecord _ _ _ _ _ = s1 at noted run
  obtain ⟨x, hx, lanes, scalars, mem', added⟩ := accept_advance (noted.homeSide.iss.trans iss) ((noted.group? _ _).trans group) (noted.launches.trans launches)
  exact ⟨_, x, run, hx, lanes, scalars, mem'.trans (noted.mem.trans mem), added⟩

end

/-! ## Queues (R393 to R395) -/

section
variable {ctx q : Nat} {d bs : List Byte}

theorem acceptQueue_added {n : Nat} (e : t.launches = s.launches) : s.Added (t.acceptQueue ctx q n r h bank w) r h bank := by
  obtain ⟨l, hl, facts⟩ := acceptLaunch_added (r := r) (h := h) (bank := bank) (w := w) e
  exact ⟨l, (State.HomeSide.storeV ..).launches.trans hl, facts⟩

/-- The pass of a queue with no record behind its HEAD has nothing to do. -/
theorem exec_queueEmpty (hd : s.readV (passKey (s.leadDie ctx)) ctx (s.privCtx.contains ctx) (BitVec.ofNat 64 (s.queueAddr ctx q)) 32 = .ok d)
    (ht : fieldOf d 0x10 8 ≤ fieldOf d 0x18 8) : exec (.queueTailUpdate ctx q) s = .next s := by
  change execQueueTailUpdate ctx q s = _
  unfold execQueueTailUpdate
  dsimp only
  split
  · rfl
  · rw [hd]
    dsimp only
    rw [if_pos (.inr ht)]

/-- The pass of a served queue accepts the sound record at its HEAD. -/
theorem exec_queueTake {addr : DWord} {s1 : State} (hq : q < 16) (hs : (s.ctxField ctx 0x28 2).testBit q = true)
    (hp : ∀ p ∈ s.passRecs, p.record.ctx = ctx → p.queue.map (·.1) ≠ some q)
    (hd : s.readV (passKey (s.leadDie ctx)) ctx (s.privCtx.contains ctx) (BitVec.ofNat 64 (s.queueAddr ctx q)) 32 = .ok d)
    (hz : fieldOf d 0x0C 1 = 0) (hlt : fieldOf d 0x18 8 < fieldOf d 0x10 8) (hle : fieldOf d 0x10 8 - fieldOf d 0x18 8 ≤ fieldOf d 8 4)
    (ha : BitVec.ofNat 64 (fieldOf d 0 8 + 64 * (fieldOf d 0x18 8 % fieldOf d 8 4)) = addr)
    (hv : s.readV (passKey (s.leadDie ctx)) ctx (s.privCtx.contains ctx) addr 64 = .ok bs)
    (h1 : (s.notePages (passKey (s.leadDie ctx)) ctx (BitVec.ofNat 64 (s.queueAddr ctx q)) 32).noteRecord (passKey (s.leadDie ctx)) ctx addr bs = s1)
    (hc : s1.checkRecord (passKey (s.leadDie ctx)) ctx addr bs = .ok r h bank) (hn : r.waitAddr = 0) :
    ∃ w, exec (.queueTailUpdate ctx q) s = .next (s1.acceptQueue ctx q (fieldOf d 0x18 8) r h bank w) := by
  have free : (s.passRecs.any fun p => p.record.ctx == ctx && (p.queue.map (·.1)) == some q) = false := by
    simp only [List.any_eq_false, Bool.and_eq_true, beq_iff_eq, not_and]
    exact hp
  refine ⟨s.wtsAt (passKey (s.leadDie ctx)) ctx (BitVec.ofNat 64 (s.queueAddr ctx q + 0x10)), ?_⟩
  change execQueueTailUpdate ctx q s = _
  simp only [execQueueTailUpdate, free, hs, hd, hz, ha, hv, h1, hc, hn, Nat.not_le.mpr hq, Nat.not_le.mpr hlt, Nat.not_lt.mpr hle, not_true_eq_false, or_self,
    Bool.false_eq_true, if_false, if_true, ne_eq]

end

/-! ## Milestones (R395) -/

/-- A counter that is read leaves memory, the launches and the records that wait. -/
theorem readCounter_keeps {ctx lease clk : Nat} {priv : Bool} {a : DWord} {p : State × Nat × Nat × Nat}
    (e : s.readCounter k ctx priv a lease clk = .ok p) : p.1.mem = s.mem ∧ p.1.launches = s.launches ∧ p.1.passRecs = s.passRecs := by
  unfold State.readCounter at e
  dsimp only at e
  split at e
  · cases e
  · next x _ =>
    have noted := State.TlbOnly.noteTlb s k x
    split at e
    · cases e
    split at e
    · cases e
    split at e
    · cases e
      exact ⟨noted.mem, noted.launches, noted.homeSide.passRecs⟩
    · cases e
      have renewed := noted.homeSide.trans (.homeRenew (s.noteTlb k x) (lineOf (x.pa a)) clk lease)
      exact ⟨(homeRenew_mem ..).trans noted.mem, renewed.launches, renewed.passRecs⟩

theorem passCounter_keeps {die wts lease : Nat} {met : Bool} (e : s.passCounter die r = .ok (t, met, wts, lease)) :
    t.mem = s.mem ∧ t.launches = s.launches ∧ t.passRecs = s.passRecs := by
  unfold State.passCounter at e
  dsimp only at e
  split at e
  · cases e
    exact ⟨rfl, rfl, rfl⟩
  · split at e
    · cases e
    · next hr =>
      cases e
      exact readCounter_keeps hr

section
variable {id : Nat} {p : PassRec}

/-- A program's record whose entry is to be unloaded is dropped, and Sundoc told (R390). -/
theorem exec_rereadRefused (hf : s.passRecs.find? (fun p => p.id == id) = some p) (hq : p.queue = none)
    (hu : s.unloading p.record.ctx p.record.entry.toNat = true) :
    exec (.passMilestoneReread id) s = .next ({ s with passRecs := s.passRecs.filter fun x => x.id != id }.tell (.launchErr p.record.addr)) := by
  change execPassMilestoneReread id s = _
  simp only [execPassMilestoneReread, hf, hu, hq, if_true]

/-- The constant block that a record's pass reads when the milestone is met, none where it cannot be read (R35, log entry 20). -/
def State.rereadBank (s : State) (p : PassRec) : List Byte :=
  match s.kernelAt (passKey p.die) p.record.ctx (s.privCtx.contains p.record.ctx) p.record.entry p.record.shapeOvr with
  | .ok (some (_, b)) => b
  | _ => []

/-- The milestone of a program's record is read when none of its group comes before and the pass has room, once the lease has lapsed. -/
theorem exec_reread (hf : s.passRecs.find? (fun p => p.id == id) = some p) (hu : s.unloading p.record.ctx p.record.entry.toNat = false)
    (hp : ∀ q ∈ s.passRecs, q.id < id → q.src ≠ p.src) (hb : s.passBefore p.die id < 256) :
    (p.lease ≠ 0 → (s.core (passKey p.die)).clock ≤ p.lease → exec (.passMilestoneReread id) s = .next s) ∧
    (p.lease < (s.core (passKey p.die)).clock → p.queue = none → ∀ s1 wts lease,
      (s.passCounter p.die p.record = .ok (s1, false, wts, lease) → exec (.passMilestoneReread id) s =
        .next { s1 with passRecs := s1.passRecs.map fun x => if x.id = id then { x with lease := lease } else x }) ∧
      (s.passCounter p.die p.record = .ok (s1, true, wts, lease) → exec (.passMilestoneReread id) s =
        .next ({ s1 with passRecs := s1.passRecs.filter fun x => x.id != id }.acceptLaunch p.record p.hdr (s1.rereadBank p) (Nat.max p.w wts)))) := by
  have held : s.passHeld id p.src = false := by
    simp only [State.passHeld, Bool.and_eq_false_iff, List.any_eq_false, Bool.and_eq_true, beq_iff_eq, decide_eq_true_eq, not_and]
    exact .inr fun q hq e hlt => hp q hq hlt e
  have room : ¬ 256 ≤ s.passBefore p.die id := by omega
  refine ⟨fun h0 hle => ?_, fun hlt hq s1 wts lease => ⟨fun hc => ?_, fun hc => ?_⟩⟩
  all_goals change execPassMilestoneReread id s = _
  · simp only [execPassMilestoneReread, hf, hu, Bool.false_eq_true, if_false]
    rw [if_pos (.inr (.inr ⟨hle, h0⟩))]
  · simp only [execPassMilestoneReread, hf, hu, held, room, Nat.not_le.mpr hlt, hc, Bool.false_eq_true, and_false, false_and, or_self, if_false]
  · simp only [execPassMilestoneReread, hf, hu, held, room, Nat.not_le.mpr hlt, hc, hq, Bool.false_eq_true, and_false, false_and, or_self, if_false]
    rfl

end

/-! ## STATUS and unloading (R390, R394) -/

theorem zero_getD (n : Nat) : ([0, 0, 0, 0] : List Byte).getD n 0 = 0 := by
  rcases n with _ | _ | _ | _ | n <;> rfl

/-- Clearing STATUS of a queue whose word lies in one line at a home in the package writes four zero bytes (R394). -/
theorem passWrite_clear {die ctx a : Nat} {e : TlbEntry} (hlen : (BitVec.ofNat 64 a).toNat % 128 ≤ 124) (hwf : Memory.wf s.mem = true)
    (he : s.translate (passKey die) none ctx (s.privCtx.contains ctx) .store (BitVec.ofNat 64 a) = .ok e)
    (hl : s.hostLine (e.pa (BitVec.ofNat 64 a)) = false) (ht : e.tracked (e.pa (BitVec.ofNat 64 a)) = none)
    (hs : s.Settled (e.pa (BitVec.ofNat 64 a)) 4) (x : Nat) : Memory.get (s.passWrite die ctx a (leBytes 4 0)).mem x =
      if e.pa (BitVec.ofNat 64 a) ≤ x ∧ x < e.pa (BitVec.ofNat 64 a) + 4 then 0 else Memory.get s.mem x := by
  have zeros : leBytes 4 0 = [0, 0, 0, 0] := rfl
  have stored := storeV_line (bs := [0, 0, 0, 0]) (n := 4) (by simp) (by simp only [List.length_cons, List.length_nil]; omega) he hl ht hs
  rw [State.passWrite, zeros]
  refine (congrArg (Memory.get · x) stored).trans ?_
  rw [get_write_getD hwf, zero_getD]
  rfl

end Sys2Proof.Machine
end

