-- ==== Sys2Proof/Proofs/Placement.lean ====
section
/-! PROOF. A cluster that may be placed is: each group dealt to a core stands in a frame that was free (R15, R22, R28, R291, R396). -/

namespace Sys2Proof.Machine

open Sys2Proof

-- One proof at a time: in parallel, the stacks of the threads exceed the memory that the check allows.
set_option Elab.async false

variable {s t u : State} {k : Nat} {l : Launch} {a : PlaceArgs}

/-! ## Free frames (R190) -/

theorem Sparse.length_put {α : Type} (m : Sparse α) (n : Nat) (v : α) : (Sparse.put m n v).length ≤ m.length + 1 := by
  induction m with
  | nil => simp [Sparse.put]
  | cons p m ih =>
    unfold Sparse.put
    split
    · simp
    · split
      · simp
      · simpa using ih

/-- A core with fewer than 64 frames taken has a free one. -/
theorem freeFrame_free {c : Core} (h : c.frames.length < 64) : Sparse.get? c.frames c.freeFrame = none := by
  unfold Core.freeFrame
  cases hf : (List.range 64).find? fun f => (Sparse.get? c.frames f).isNone with
  | some f => simpa using List.find?_some hf
  | none =>
    have taken : List.range 64 ⊆ c.frames.map Prod.fst := fun f hm => by
      have some : (Sparse.get? c.frames f).isSome = true := by
        simpa [Option.isSome_iff_ne_none] using List.find?_eq_none.mp hf f hm
      obtain ⟨g, hg⟩ := Option.isSome_iff_exists.mp some
      exact List.mem_map.mpr ⟨(f, g), Sparse.get?_mem hg, rfl⟩
    have le := (List.nodup_range.subperm taken).length_le
    simp only [List.length_range, List.length_map] at le
    omega

/-! ## A group at its start (R15, R18, R22, R28) -/

/-- A group of a launch at its start, wherever it is placed. -/
def Launch.Starts (l : Launch) (cluster index : Nat) (g : Group) : Prop := ∃ priv at' csp, g = l.group priv cluster index at' csp

theorem ofWords_lo_hi (v : DWord) : DWord.ofWords v.lo v.hi = v := by
  refine BitVec.eq_of_getLsbD_eq fun i hi => ?_
  simp only [DWord.ofWords, DWord.lo, DWord.hi, BitVec.getLsbD_append, BitVec.getLsbD_setWidth, BitVec.getLsbD_ushiftRight]
  by_cases h : i < 32
  · simp [h]
  · have e : 32 + (i - 32) = i := by omega
    have lt : i - 32 < 32 := by omega
    simp [h, e, lt]

section
variable {cluster index at' : Nat} {priv : Bool} {csp : DWord}

theorem group_lane (n : Fin 32) : (l.group priv cluster index at' csp).lanes[n] = Lane.start := Vector.getElem_replicate ..

theorem group_slice (n : Fin 8) : (l.group priv cluster index at' csp).slices[n] = Slice.start l.record.entry := Vector.getElem_replicate ..

theorem group_scalars : (l.group priv cluster index at' csp).scalar64 0 = l.record.args ∧
    (l.group priv cluster index at' csp).scalar 2 = BitVec.ofNat 32 index ∧ (l.group priv cluster index at' csp).scalar 3 = BitVec.ofNat 32 cluster ∧
    ∀ j, 4 ≤ j → (l.group priv cluster index at' csp).scalar j = 0 := by
  have scalar (j : Nat) : (l.group priv cluster index at' csp).scalar j =
      if 3 = j then BitVec.ofNat 32 cluster else if 2 = j then BitVec.ofNat 32 index else if 1 = j then l.record.args.hi else
        if 0 = j then l.record.args.lo else 0 := by
    simp only [Group.scalar, Launch.group]
    rw [getD_setIfInBounds (by decide), getD_setIfInBounds (by decide), getD_setIfInBounds (by decide), getD_setIfInBounds (by decide)]
    have zero : (Vector.replicate 96 (0 : Word)).getD j 0 = 0 := by
      simp only [Vector.getD, Vector.toArray_replicate, Array.getD_eq_getD_getElem?, Array.getElem?_replicate]
      split <;> rfl
    rw [zero]
  refine ⟨?_, by simp [scalar], by simp [scalar], fun j hj => ?_⟩
  · rw [Group.scalar64, scalar, scalar]
    exact ofWords_lo_hi _
  · rw [scalar, if_neg (by omega), if_neg (by omega), if_neg (by omega), if_neg (by omega)]

/-- At its start a group is one split. -/
theorem group_split : (l.group priv cluster index at' csp).splitOf 0 = 0xFF := by
  simp only [Group.splitOf, group_slice, Slice.start, beq_self_eq_true, Bool.and_self, Bool.true_and]
  decide

end

/-! ## Groups into frames (R188, R190, R291) -/

/-- Placing on a core leaves memory, the launches, the other cores, and every group that stands on it. -/
structure State.Places (k : Nat) (s t : State) : Prop where
  mem : t.mem = s.mem
  launches : t.launches = s.launches
  core : ∀ j, j ≠ k → t.core j = s.core j
  stays : ∀ m g, s.group? k m = some g → t.group? k m = some g

namespace State.Places

theorem refl (s : State) : s.Places k s := ⟨rfl, rfl, fun _ _ => rfl, fun _ _ h => h⟩

theorem trans (a : State.Places k s t) (b : State.Places k t u) : State.Places k s u :=
  ⟨b.mem.trans a.mem, b.launches.trans a.launches, fun j hj => (b.core j hj).trans (a.core j hj), fun m g h => b.stays m g (a.stays m g h)⟩

/-- A frame that is free afterwards was free before. -/
theorem free (a : State.Places k s t) {m : Nat} (h : t.group? k m = none) : s.group? k m = none := by
  cases hs : s.group? k m with
  | none => rfl
  | some g => rw [a.stays m g hs] at h; cases h

end State.Places

theorem frames_setGroup (s : State) (f : Nat) (g : Group) : ((s.setGroup k f g).core k).frames = Sparse.put (s.core k).frames f g := by
  rw [State.setGroup, State.modCore, State.core_setCore]

/-- One group into a core with a free frame. -/
theorem placeGroup_places {cluster index : Nat} {csp : DWord} (h : (s.core k).frames.length < 64) :
    State.Places k s (s.placeGroup k l cluster index csp) ∧
    ((s.placeGroup k l cluster index csp).core k).frames.length ≤ (s.core k).frames.length + 1 ∧
    ∃ f g, s.group? k f = none ∧ (s.placeGroup k l cluster index csp).group? k f = some g ∧ l.Starts cluster index g := by
  have cleared : (s.clearXlate k (s.core k).freeFrame).core k = { s.core k with
      tlb := [], lastPage := (s.core k).lastPage.filter fun p => p.1 / 32 != (s.core k).freeFrame } := by
    simp only [State.clearXlate, State.modCore, State.modDie, State.core_setDie, State.core_setCore]
  have free : s.group? k (s.core k).freeFrame = none := freeFrame_free h
  refine ⟨⟨rfl, rfl, fun j hj => ?_, fun m x hx => ?_⟩, ?_, _, _, free, State.group?_setGroup .., _, _, _, rfl⟩
  · simp only [State.placeGroup, State.setGroup, State.clearXlate, State.modCore, State.modDie]
    rw [State.core_setCore_ne _ _ hj, State.core_setDie, State.core_setCore_ne _ _ hj]
  · have ne : (k, m) ≠ (k, (s.core k).freeFrame) := fun e => by
      rw [(Prod.mk.inj e).2, free] at hx
      cases hx
    refine (State.group?_setGroup_ne _ _ ne).trans ?_
    rw [State.group?, cleared]
    exact hx
  · rw [State.placeGroup, frames_setGroup, cleared]
    exact Sparse.length_put ..

/-- Some groups into a core with a free frame for each. -/
theorem placeGroups_places {cluster : Nat} {csp : Nat → DWord} (is : List Nat) : ∀ s : State, (s.core k).frames.length + is.length ≤ 64 →
    State.Places k s (is.foldl (fun t i => t.placeGroup k l cluster i (csp i)) s) ∧
    ∀ i ∈ is, ∃ f g, s.group? k f = none ∧ (is.foldl (fun t i => t.placeGroup k l cluster i (csp i)) s).group? k f = some g ∧ l.Starts cluster i g := by
  induction is with
  | nil => exact fun s _ => ⟨.refl s, fun i hi => nomatch hi⟩
  | cons i is ih =>
    intro s h
    rw [List.length_cons] at h
    obtain ⟨first, len, f, g, hf, hg, starts⟩ := placeGroup_places (s := s) (k := k) (l := l) (cluster := cluster) (index := i) (csp := csp i) (by omega)
    obtain ⟨later, placed⟩ := ih (s.placeGroup k l cluster i (csp i)) (by omega)
    refine ⟨first.trans later, fun j hj => ?_⟩
    rcases List.mem_cons.mp hj with rfl | hj
    · exact ⟨f, g, hf, later.stays f g hg, starts⟩
    · obtain ⟨f', g', hf', hg', starts'⟩ := placed j hj
      exact ⟨f', g', first.free hf', hg', starts'⟩

/-! ## Teams onto cores (R184, R232, R396) -/

theorem admits_room {c : Core} {launch n : Nat} {h : KHeader} (hc : (c.admits launch h n).isSome = true) : c.frames.length + n ≤ 64 := by
  by_contra full
  have none' : c.admits launch h n = none := by
    unfold Core.admits
    dsimp only
    rw [if_pos (by simp only [Bool.or_eq_true, decide_eq_true_eq]; omega)]
  rw [none'] at hc
  cases hc

/-- A team onto a core that admits it, or a core left as it is. -/
theorem placeTeam_places (s : State) (l : Launch) (a : PlaceArgs) (r : Nat) : State.Places (a.cores.getD r 0) s (s.placeTeam l a r) ∧
    (((s.core (a.cores.getD r 0)).admits l.id l.hdr (dealt l.record.groups a.cores.length r).length).isSome = true →
      ∀ i ∈ dealt l.record.groups a.cores.length r, ∃ f g, s.group? (a.cores.getD r 0) f = none ∧
        (s.placeTeam l a r).group? (a.cores.getD r 0) f = some g ∧ l.Starts l.next i g) := by
  cases hc : (s.core (a.cores.getD r 0)).admits l.id l.hdr (dealt l.record.groups a.cores.length r).length with
  | none =>
    have none' : s.placeTeam l a r = s := by simp only [State.placeTeam, hc]
    rw [none']
    exact ⟨.refl s, nofun⟩
  | some x =>
    have room := admits_room (Option.isSome_iff_exists.mpr ⟨x, hc⟩)
    obtain ⟨carve, scr, rack⟩ := x
    have team {f : Core → Core} (hf : ∀ c, (f c).frames = c.frames) : State.Places (a.cores.getD r 0) s (s.modCore (a.cores.getD r 0) f) :=
      ⟨rfl, rfl, fun j hj => State.core_setCore_ne _ _ hj, fun m g hg => (group?_modCore hf ..).trans hg⟩
    have frames {f : Core → Core} (hf : ∀ c, (f c).frames = c.frames) :
        ((s.modCore (a.cores.getD r 0) f).core (a.cores.getD r 0)).frames = (s.core (a.cores.getD r 0)).frames := by
      rw [State.modCore, State.core_setCore, hf]
    simp only [State.placeTeam, hc]
    generalize hs1 : s.modCore (a.cores.getD r 0) _ = s1
    have first : State.Places (a.cores.getD r 0) s s1 := hs1 ▸ team fun _ => rfl
    have len : (s1.core (a.cores.getD r 0)).frames = (s.core (a.cores.getD r 0)).frames := hs1 ▸ frames fun _ => rfl
    obtain ⟨later, placed⟩ := placeGroups_places (k := a.cores.getD r 0) (l := l) (cluster := l.next) (csp := fun g => a.callStacks.getD g 0)
      (dealt l.record.groups a.cores.length r) s1 (by rw [len]; exact room)
    refine ⟨first.trans later, fun _ i hi => ?_⟩
    obtain ⟨f, g, hf, hg, starts⟩ := placed i hi
    exact ⟨f, g, first.free hf, hg, starts⟩

/-- Teams onto cores leave memory, the launches, and every core that takes none. -/
theorem placeTeams_keep (l : Launch) (a : PlaceArgs) (rs : List Nat) : ∀ s : State, (rs.foldl (fun t r => t.placeTeam l a r) s).mem = s.mem ∧
    (rs.foldl (fun t r => t.placeTeam l a r) s).launches = s.launches ∧
    ∀ j, (∀ r ∈ rs, j ≠ a.cores.getD r 0) → (rs.foldl (fun t r => t.placeTeam l a r) s).core j = s.core j := by
  induction rs with
  | nil => exact fun _ => ⟨rfl, rfl, fun _ _ => rfl⟩
  | cons r rs ih =>
    intro s
    obtain ⟨hm, hl, hc⟩ := ih (s.placeTeam l a r)
    have first := (placeTeam_places s l a r).1
    exact ⟨hm.trans first.mem, hl.trans first.launches, fun j hj =>
      (hc j fun q hq => hj q (List.mem_cons_of_mem _ hq)).trans (first.core j (hj r List.mem_cons_self))⟩

/-- Teams onto cores of their own that admit them: each group stands in a frame that was free. -/
theorem placeTeams_start (l : Launch) (a : PlaceArgs) (rs : List Nat) : ∀ s : State, (rs.map fun r => a.cores.getD r 0).Nodup →
    (∀ r ∈ rs, ((s.core (a.cores.getD r 0)).admits l.id l.hdr (dealt l.record.groups a.cores.length r).length).isSome = true) →
    ∀ r ∈ rs, ∀ i ∈ dealt l.record.groups a.cores.length r, ∃ f g, s.group? (a.cores.getD r 0) f = none ∧
      (rs.foldl (fun t r => t.placeTeam l a r) s).group? (a.cores.getD r 0) f = some g ∧ l.Starts l.next i g := by
  induction rs with
  | nil => exact fun _ _ _ r hr => nomatch hr
  | cons r rs ih =>
    intro s hn ha q hq i hi
    obtain ⟨own, rest⟩ := List.nodup_cons.mp hn
    have apart : ∀ p ∈ rs, a.cores.getD p 0 ≠ a.cores.getD r 0 := fun p hp e => own (List.mem_map.mpr ⟨p, hp, e⟩)
    obtain ⟨first, placed⟩ := placeTeam_places s l a r
    have same : ∀ p ∈ rs, (s.placeTeam l a r).core (a.cores.getD p 0) = s.core (a.cores.getD p 0) := fun p hp => first.core _ (apart p hp)
    rcases List.mem_cons.mp hq with rfl | hq
    · obtain ⟨f, g, hf, hg, starts⟩ := placed (ha q List.mem_cons_self) i hi
      refine ⟨f, g, hf, ?_, starts⟩
      rw [List.foldl_cons, State.group?, (placeTeams_keep l a rs _).2.2 _ fun p hp e => apart p hp e.symm]
      exact hg
    · obtain ⟨f, g, hf, hg, starts⟩ := ih (s.placeTeam l a r) rest (fun p hp => by
        rw [same p hp]
        exact ha p (List.mem_cons_of_mem _ hp)) q hq i hi
      refine ⟨f, g, ?_, hg, starts⟩
      rw [State.group?, ← same q hq]
      exact hf

/-- A die-barrier block is a die's alone. -/
theorem takeBlock_keeps (s : State) (l : Launch) (die : Nat) (area : DWord) : (s.takeBlock l die area).mem = s.mem ∧
    (s.takeBlock l die area).launches = s.launches ∧ ∀ j, (s.takeBlock l die area).core j = s.core j := by
  unfold State.takeBlock
  split
  · exact ⟨rfl, rfl, fun _ => rfl⟩
  · exact ⟨rfl, rfl, fun _ => rfl⟩

/-- CLUSTER_PLACE of a cluster that may be placed, with no launch before it. -/
theorem exec_clusterPlace (hl : s.launch? a.launch = some l) (hs : l.stopped = false) (hn : l.next < l.record.clusters)
    (hd : l.record.dieMask.getLsbD (dieOf (a.cores.headD 0)) = true) (hr : a.cores ∈ s.rects (dieOf (a.cores.headD 0)) l.hdr)
    (hf : s.fits l a.cores = true) (hb : (s.launches.any fun m => m.before l && s.placeable m) = false) : exec (.clusterPlace a) s =
      .next (((List.range a.cores.length).foldl (fun (t : State) r => t.placeTeam l a r) (s.takeBlock l (dieOf (a.cores.headD 0)) a.area)).modLaunch l.id
        fun m => { m with next := m.next + 1, live := m.live + m.record.groups }) := by
  change execClusterPlace a s = _
  simp only [execClusterPlace, hl, hs, hd, hf, hb, List.contains_iff_mem.mpr hr, decide_eq_false (Nat.not_le.mpr hn), Bool.not_true, Bool.or_self, Bool.false_eq_true,
    if_false]

/-- A cluster that fits its cores has each of them admit its team. -/
theorem fits_admits {cores : List Nat} (hf : s.fits l cores = true) : ∀ r < cores.length,
    ((s.core (cores.getD r 0)).admits l.id l.hdr (dealt l.record.groups cores.length r).length).isSome = true := by
  simp only [State.fits, Bool.and_eq_true, List.all_eq_true, List.mem_range] at hf
  exact hf.2

/-- Cores of a list without repetition, by their ranks. -/
theorem ranks_nodup {cores : List Nat} (h : cores.Nodup) : ((List.range cores.length).map fun r => cores.getD r 0).Nodup := by
  have same : ((List.range cores.length).map fun r => cores.getD r 0) = cores := by
    refine List.ext_getElem (by simp) fun i h1 h2 => ?_
    simp [h2]
  rw [same]
  exact h

/-- What the placement of a cluster comes to: its launch counts it, and each group dealt to a core starts in a frame that was free. -/
theorem cluster_placed (hl : s.launch? a.launch = some l) (hs : l.stopped = false) (hn : l.next < l.record.clusters)
    (hd : l.record.dieMask.getLsbD (dieOf (a.cores.headD 0)) = true) (hr : a.cores ∈ s.rects (dieOf (a.cores.headD 0)) l.hdr)
    (hf : s.fits l a.cores = true) (hb : (s.launches.any fun m => m.before l && s.placeable m) = false) :
    ∃ t l', exec (.clusterPlace a) s = .next t ∧ t.mem = s.mem ∧ t.launch? l.id = some l' ∧ l'.next = l.next + 1 ∧ l'.live = l.live + l.record.groups ∧
      (a.cores.Nodup → ∀ r < a.cores.length, ∀ i ∈ dealt l.record.groups a.cores.length r,
        ∃ f g, s.group? (a.cores.getD r 0) f = none ∧ t.group? (a.cores.getD r 0) f = some g ∧ l.Starts l.next i g) := by
  obtain ⟨bm, bl, bc⟩ := takeBlock_keeps s l (dieOf (a.cores.headD 0)) a.area
  have run := exec_clusterPlace hl hs hn hd hr hf hb
  generalize s.takeBlock l (dieOf (a.cores.headD 0)) a.area = s1 at bm bl bc run
  obtain ⟨hm, hls, -⟩ := placeTeams_keep l a (List.range a.cores.length) s1
  have there : (List.foldl (fun t r => t.placeTeam l a r) s1 (List.range a.cores.length)).launch? l.id = some l := by
    rw [State.launch?, hls, bl, launch?_id hl]
    exact hl
  refine ⟨_, _, run, hm.trans bm, launch?_modLaunch there fun _ => rfl, rfl, rfl, fun hnd r hr i hi => ?_⟩
  obtain ⟨f, g, free, hg, starts⟩ := placeTeams_start l a (List.range a.cores.length) s1 (ranks_nodup hnd)
    (fun q hq => by rw [bc]; exact fits_admits hf q (List.mem_range.mp hq)) r (List.mem_range.mpr hr) i hi
  refine ⟨f, g, ?_, hg, starts⟩
  rw [State.group?, ← bc]
  exact free

/-- Settles O46: a record is accepted where its checks pass and its milestone is met, and a placement fills free frames. -/
theorem launchesAreTakenAndPlaced : Obligations.LaunchesAreTakenAndPlaced := by
  unfold Obligations.LaunchesAreTakenAndPlaced
  refine ⟨fun s => ⟨?_, ?_, ?_, ?_, ?_⟩, ?_⟩
  · intro g f a bs r h bank k s1 hr hk hy hw hd hb hv hc hn hp
    exact launch_taken hr hk hy hw hd hb hv hc hn hp
  · intro ctx q d bs r h bank k priv addr hq hs hp hd hz
    refine ⟨exec_queueEmpty hd, fun hlt hle hv hc hn => ?_⟩
    obtain ⟨w, run⟩ := exec_queueTake hq hs hp hd hz hlt hle rfl hv rfl hc hn
    exact ⟨_, run, acceptQueue_added ((State.TlbOnly.notePages ..).trans (.noteRecord ..)).launches⟩
  · intro id p s1 wts lease hf hq
    refine ⟨fun hu => ⟨_, exec_rereadRefused hf hq hu, rfl, rfl, rfl, rfl⟩, fun hu hp hb => ?_⟩
    obtain ⟨early, late⟩ := exec_reread hf hu hp hb
    refine ⟨early, fun hlt hc => ?_, fun hlt hc => ?_⟩
    · obtain ⟨hm, hl, hr⟩ := passCounter_keeps hc
      exact ⟨_, (late hlt hq s1 wts lease).1 hc, hl, hm, congrArg (List.map _) hr⟩
    · obtain ⟨hm, hl, hr⟩ := passCounter_keeps hc
      exact ⟨_, _, (late hlt hq s1 wts lease).2 hc, congrArg (List.filter _) hr, hm,
        acceptLaunch_added (t := { s1 with passRecs := s1.passRecs.filter fun x => x.id != id }) hl⟩
  · intro ctx lo hi
    refine ⟨{ s with unloads := s.unloads ++ [⟨ctx, lo, hi⟩] }, rfl, rfl, rfl, fun entry hlo hhi => ?_⟩
    simp [State.unloading, hlo, hhi]
  · intro ctx q e a pa hq hs hlen hwf he hl ht hj
    refine ⟨s.passWrite (s.leadDie ctx) ctx (s.queueAddr ctx q + 0x0C) (leBytes 4 0), ?_, (State.HomeSide.storeV ..).launches,
      passWrite_clear hlen hwf he hl ht hj⟩
    change execQueueStatusClear ctx (.clear q) s = _
    simp only [execQueueStatusClear, Nat.not_le.mpr hq, hs, not_true_eq_false, or_self, if_false]
  · intro s a l hl hs hn hd hr hf hb
    obtain ⟨t, l', run, hm, hl', next, live, placed⟩ := cluster_placed hl hs hn hd hr hf hb
    refine ⟨t, l', run, hm, hl', next, live, fun hnd r hr i hi => ?_⟩
    obtain ⟨fr, g, free, hg, priv, at', csp, rfl⟩ := placed hnd r hr i hi
    obtain ⟨args, index, cluster, rest⟩ := group_scalars (l := l) (cluster := l.next) (index := i) (at' := at') (priv := priv) (csp := csp)
    refine ⟨fr, _, free, hg, rfl, rfl, group_lane, fun n => ?_, group_split, args, index, cluster, rest⟩
    rw [group_slice]
    exact ⟨rfl, rfl, rfl, rfl, rfl, rfl⟩

end Sys2Proof.Machine
end

