-- ==== Sys2Proof/Proofs/RestoreTranslations.lean ====
section
/-! PROOF. A restore reads the records of later groups after the TLBs have been cleared for an earlier one (R188, R277): O49 fails where a
record can be read through a held translation alone. -/

namespace Sys2Proof.Machine

open Sys2Proof

-- One proof at a time: in parallel, the stacks of the threads exceed the memory that the check allows.
set_option Elab.async false

variable {s t u : State} {k fr n ctx : Nat} {va : DWord} {l : Launch}

/-! ## Records that no translation reaches (R188, R373) -/

/-- A context without tables, where no held translation covers an address. -/
structure State.Misses (s : State) (k ctx : Nat) (va : DWord) : Prop where
  root : s.ctxField ctx 0 8 = 0
  core : ∀ e ∈ (s.core k).tlb, e.hits ctx va = false
  die : ∀ e ∈ (s.die (dieOf k)).tlb, e.hits ctx va = false

namespace State.Misses

theorem lookup (h : s.Misses k ctx va) : s.lookup k none ctx va = none := by
  have hc : (s.core k).tlb.find? (fun e => e.hits ctx va) = none := List.find?_eq_none.mpr fun e he => by simp [h.core e he]
  have hd : (s.die (dieOf k)).tlb.find? (fun e => e.hits ctx va) = none := List.find?_eq_none.mpr fun e he => by simp [h.die e he]
  have hw : s.walk ctx va = none := by simp only [State.walk, h.root, if_true]
  simp [State.lookup, hc, hd, hw]

theorem readRec (h : s.Misses k ctx va) (hn : 0 < n) : s.readRec k ctx va n = none := by
  obtain ⟨m, rfl⟩ := Nat.exists_eq_add_of_lt hn
  simp [State.readRec, State.translateSpan, State.translate, h.lookup]

theorem modCore {f : Core → Core} (h : s.Misses k ctx va) (hf : ∀ c, (f c).tlb = c.tlb) : (s.modCore k f).Misses k ctx va :=
  ⟨h.root, by rw [State.modCore, State.core_setCore, hf]; exact h.core, h.die⟩

end State.Misses

/-- Once the TLBs are cleared nothing covers any address. -/
theorem clearXlate_misses (h : s.ctxField ctx 0 8 = 0) (va : DWord) : (s.clearXlate k fr).Misses k ctx va where
  root := by
    have hp : ∀ pa, (s.clearXlate k fr).place pa = s.place pa := fun pa => (State.HomeSide.modDie (s := s.modCore k _)).place pa
    have hm : (s.clearXlate k fr).mem = s.mem := rfl
    have hx : (s.clearXlate k fr).ctxtab = s.ctxtab := rfl
    refine Eq.trans ?_ h
    simp only [State.ctxField, State.phys, State.byte, hp, hm, hx]
  core := by
    have : ((s.clearXlate k fr).core k).tlb = [] := by
      simp only [State.clearXlate, State.modCore]
      exact congrArg Core.tlb (State.core_setCore ..)
    simp [this]
  die := by simp [State.clearXlate, State.modDie]

/-! ## The core of a restore's team (R275, R277) -/

variable {tm : Team} {rs : List (Byte × Bool)}

theorem loadCore_maps : ((s.loadCore k l tm rs).core k).maps = (List.range 16).filterMap fun i =>
    mapFrom l.id l.record.ctx (s.privCtx.contains l.record.ctx) (((rs.map (·.1)).drop (0x700 + 32 * i)).take 32) :=
  congrArg Core.maps (State.core_setCore ..)

theorem loadCore_tlb : ((s.loadCore k l tm rs).core k).tlb = (s.core k).tlb := by
  refine (congrArg Core.tlb (State.core_setCore ..)).trans ?_
  rfl

theorem loadCore_misses (h : s.Misses k ctx va) : (s.loadCore k l tm rs).Misses k ctx va :=
  ⟨h.root, by rw [loadCore_tlb]; exact h.core, h.die⟩

/-! ## Groups whose records are not read (R274, R277) -/

/-- A group that a restore has taken for zeroes: at HEAD 0, with no fault of the drain and nothing logged. -/
structure Group.Zeroed (g : Group) : Prop where
  head : g.lanes[(0 : Fin 32)].head = 0
  drainFault : g.drainFault = false
  log : g.log = []

theorem groupFrom_zeroed (l : Launch) (priv : Bool) (cluster index placedAt : Nat) (at' : DWord) (st : List Byte) (note : GroupNote) (op : Nat) :
    (l.groupFrom priv cluster index placedAt at' [] st note op).Zeroed where
  head := by simp [Launch.groupFrom, laneFrom, byteAt]
  drainFault := by simp [Launch.groupFrom, fieldOf, leNat]
  log := rfl

/-- A group with its instruction numbers changed. -/
theorem Group.Zeroed.numbered {g : Group} (h : g.Zeroed) (seq : Nat) (sseq : Vector Nat 96) : { g with seq := seq, sseq := sseq }.Zeroed :=
  ⟨h.head, h.drainFault, h.log⟩

theorem modGroup_setGroup (s : State) (k fr : Nat) (g : Group) (v : Group → Group) :
    (s.setGroup k fr g).modGroup k fr v = s.setGroup k fr (v g) := by
  simp [State.modGroup, State.group?_setGroup]

theorem relogAll_nil (s : State) (k fr : Nat) (note : GroupNote) : s.relogAll k fr note [] = s := rfl

/-- Without its record a group is restored zeroed. -/
theorem loadGroup_zeroed (tm : Team) (index : Nat) (note : GroupNote) (h : s.Misses k l.record.ctx (tm.grpRecs.getD fr 0)) :
    ∃ g : Group, g.Zeroed ∧ s.loadGroup k l tm fr index note = (s.clearXlate k fr).setGroup k fr g := by
  have hr : s.readRec k l.record.ctx (tm.grpRecs.getD fr 0) (0x2000 + 128 * l.hdr.pantry) = none := h.readRec (by omega)
  have h0 : byteAt [] 0x7D = 0 := rfl
  simp only [State.loadGroup, hr, Option.getD_none, List.map_nil, h0, List.range_zero, relogAll_nil, modGroup_setGroup]
  exact ⟨_, (groupFrom_zeroed ..).numbered _ _, rfl⟩

/-! ## The steps of a restore after its groups are loaded (R277) -/

/-- A frame holds a zeroed group. -/
def State.ZeroedAt (s : State) (k fr : Nat) : Prop := ∃ g, s.group? k fr = some g ∧ g.Zeroed

theorem State.ZeroedAt.of_group? (h : s.ZeroedAt k fr) (e : t.group? k fr = s.group? k fr) : t.ZeroedAt k fr := by
  rwa [State.ZeroedAt, e]

theorem group?_foldl {α : Type} {f : State → α → State} (hf : ∀ s x, (f s x).group? k fr = s.group? k fr) (xs : List α) (s : State) :
    (xs.foldl f s).group? k fr = s.group? k fr := by
  induction xs generalizing s with
  | nil => rfl
  | cons x xs ih => exact (ih _).trans (hf s x)

theorem group?_queueNest (s : State) (j i : Nat) (w : NestWork) (locks : List RangeLock) (k fr : Nat) :
    { s.modCore j (fun c => { c with nestQ := c.nestQ ++ [w], locks := c.locks ++ locks }) with nextReq := i }.group? k fr = s.group? k fr :=
  group?_modCore (f := fun c => { c with nestQ := c.nestQ ++ [w], locks := c.locks ++ locks }) (fun _ => rfl) k fr

theorem group?_loadNest (s : State) (j : Nat) (tm : Team) (r : List Byte) (flags : Nat → List (Option Nat)) (all : List NestRec) (i : Nat) (x : NestRec)
    (k fr : Nat) : (s.loadNest j tm r flags all i x).group? k fr = s.group? k fr := by
  unfold State.loadNest
  split
  · rfl
  · exact group?_queueNest ..

theorem group?_loadNests (s : State) (j : Nat) (tm : Team) (r : List Byte) (flags : Nat → List (Option Nat)) (k fr : Nat) :
    (s.loadNests j tm r flags).group? k fr = s.group? k fr := by
  unfold State.loadNests
  refine group?_foldl ?_ _ s
  exact fun _ _ => group?_loadNest ..

theorem clearDirty_frames (ws : List Nat) (c : Core) : (c.clearDirty ws).frames = c.frames := by
  unfold Core.clearDirty
  induction ws generalizing c with
  | nil => rfl
  | cons w ws ih => exact ih _

theorem group?_resumeBack (s : State) (j i k fr : Nat) : (s.resumeBack j i).group? k fr = s.group? k fr := by
  unfold State.resumeBack
  dsimp only
  split
  · split
    · refine group?_modCore ?_ k fr
      exact clearDirty_frames _
    · rfl
  · rfl

theorem group?_resumeOp (s : State) (j i k fr : Nat) : (s.resumeOp j i).group? k fr = s.group? k fr := by
  unfold State.resumeOp
  dsimp only
  split
  · rfl
  · split
    · refine group?_modCore ?_ k fr
      exact clearDirty_frames _
    · split
      · refine (group?_resumeBack ..).trans (group?_modCore ?_ k fr)
        exact fun _ => rfl
      · rfl

/-- A zeroed group has nothing to wake for. -/
theorem wakeGroup_zeroed (h : s.ZeroedAt k fr) : s.wakeGroup k fr = s := by
  obtain ⟨g, hg, -, hd, hl⟩ := h
  have hr : s.replayLog k fr = s := by simp [State.replayLog, hg, hl]
  simp [State.wakeGroup, hg, hd, hr]

theorem group?_clearXlate (s : State) (j f k fr : Nat) : (s.clearXlate j f).group? k fr = s.group? k fr := by
  unfold State.clearXlate
  refine ((State.Quiet.modDie ..).group? k fr).trans (group?_modCore ?_ k fr)
  exact fun _ => rfl

/-- Of the groups of frames 0 and 1, the first with a record that nothing translates, the second finds the TLBs cleared. -/
theorem loadGroups_zeroed (tm : Team) (x y : Nat) (note note' : GroupNote) (h : s.Misses k l.record.ctx (tm.grpRecs.getD 0 0)) :
    ((s.loadGroup k l tm 0 x note).loadGroup k l tm 1 y note').ZeroedAt k 0 ∧
      ((s.loadGroup k l tm 0 x note).loadGroup k l tm 1 y note').ZeroedAt k 1 := by
  obtain ⟨g, hg, e⟩ := loadGroup_zeroed tm x note h
  have h1 : (s.loadGroup k l tm 0 x note).Misses k l.record.ctx (tm.grpRecs.getD 1 0) := by
    rw [e]
    exact (clearXlate_misses h.root _).modCore fun _ => rfl
  obtain ⟨g', hg', e'⟩ := loadGroup_zeroed tm y note' h1
  rw [e', e]
  refine ⟨⟨g, ?_, hg⟩, g', State.group?_setGroup .., hg'⟩
  rw [State.group?_setGroup_ne _ _ (by simp), group?_clearXlate, State.group?_setGroup]

/-- NESTs, engine operations and the wake of zeroed groups leave the second zeroed. -/
theorem resumed_zeroed {tm : Team} {r : List Byte} {flags : Nat → List (Option Nat)} {hs : List Nat} (h : s.ZeroedAt k 0 ∧ s.ZeroedAt k 1) :
    (((hs.foldl (fun (t : State) i => t.resumeOp k i) (s.loadNests k tm r flags)).wakeGroup k 0).wakeGroup k 1).ZeroedAt k 1 := by
  have e (fr : Nat) : (hs.foldl (fun (t : State) i => t.resumeOp k i) (s.loadNests k tm r flags)).group? k fr = s.group? k fr :=
    (group?_foldl (fun t i => group?_resumeOp t k i k fr) hs _).trans (group?_loadNests ..)
  have h0 := h.1.of_group? (e 0)
  have h1 := h.2.of_group? (e 1)
  rwa [wakeGroup_zeroed h0, wakeGroup_zeroed h1]

theorem zeroedAt_notePages {c i : Nat} {b : DWord} (h : s.ZeroedAt k fr) : (s.notePages k c b i).ZeroedAt k fr :=
  h.of_group? ((State.TlbOnly.notePages s k c b i).group? k fr)

theorem zeroedAt_saved (h : s.ZeroedAt k fr) (vs : List Saved) : { s with saved := vs }.ZeroedAt k fr := h

/-- A restore onto one core that has the groups of frames 0 and 1 to load, the first from an address that nothing translates: the second is
restored zeroed, whatever its record holds. -/
theorem loadCluster_zeroed {a : RestoreArgs} {bs : List (Byte × Bool)} (notes : List GroupNote) (hk : a.cores = [k])
    (hf : recFrames (bs.map (·.1)) = [0, 1]) (hm : ((s.loadCore k l (l.teamAgain a 0 2) bs).core k).maps = [])
    (hs : (s.loadCore k l (l.teamAgain a 0 2) bs).Misses k l.record.ctx ((l.teamAgain a 0 2).grpRecs.getD 0 0)) :
    (s.loadCluster l a notes [bs]).ZeroedAt k 1 := by
  have h1 : List.range 1 = [0] := rfl
  simp only [State.loadCluster, hk, h1, List.foldl_cons, List.foldl_nil, List.getD_cons_zero, hf, List.length_cons, List.length_nil, hm]
  have h4 := loadGroups_zeroed (l.teamAgain a 0 2) ((a.indexes.getD 0 []).getD 0 0) ((a.indexes.getD 0 []).getD 1 0)
    ((notes.find? fun n => n.rank == 0 && n.frame == 0).getD default) ((notes.find? fun n => n.rank == 0 && n.frame == 1).getD default)
    (hs.modCore (f := fun c => { c with
      locks := (List.range 64).filterMap (fun i => (s.loadCore k l (l.teamAgain a 0 2) bs).lockFrom k l [k] (((bs.map (·.1)).drop (0x300 + 16 * i)).take 16)) ++
        c.rackSources k l.record.ctx }) fun _ => rfl)
  exact zeroedAt_saved (zeroedAt_notePages (zeroedAt_notePages (zeroedAt_notePages (resumed_zeroed h4)))) _

/-! ## A saved cluster whose second record stands behind a held translation -/

/-- A translation of the first 1 TiB to itself, for context 0. -/
def heldPage : TlbEntry := ⟨0, 0, 1, 0x1F, 0⟩

theorem heldPage_pa (h : va.toNat < 2 ^ 40) : heldPage.pa va = va.toNat := by
  simp only [TlbEntry.pa, heldPage, pteDev, pteFrame, pageBytes]
  simp
  omega

/-- A core that holds the page reads any byte of it. -/
theorem translate_held (hc : (s.core k).tlb = [heldPage]) (hd : s.dieMask = 0xFFFF) (hv : va.toNat < 2 ^ 40) :
    s.translate k none 0 true .load va = .ok heldPage := by
  have hhit : heldPage.hits 0 va = true := by
    simp [TlbEntry.hits, heldPage, pageBytes]
    omega
  have hl : s.lookup k none 0 va = some heldPage := by simp [State.lookup, hc, hhit]
  have hp : checkPte s.hasFabric true .load heldPage.pte = none := by simp [checkPte, heldPage, ptePrv, pteRd, pteWr, pteEx, pteDev]
  have hb : s.backed va.toNat = true := by
    have h16 : va.toNat / 2 ^ 36 < 16 := by omega
    have hf : ∀ d < 16, (0xFFFF : BitVec 16).getLsbD d = true := by decide
    simp only [State.backed, State.fitted, hd, hf _ h16, hv, h16, decide_true, Bool.true_and, Bool.true_or]
  simp [State.translate, hl, hp, heldPage_pa hv, hb]

theorem translateSpan_held (hc : (s.core k).tlb = [heldPage]) (hd : s.dieMask = 0xFFFF) (n : Nat) :
    ∀ va : DWord, va.toNat + n ≤ 2 ^ 40 → s.translateSpan k 0 true .load va n = .ok (List.range' va.toNat n) := by
  induction n with
  | zero => exact fun _ _ => rfl
  | succ n ih =>
    intro va hv
    have h1 : (va + 1).toNat = va.toNat + 1 := by bv_omega
    have ht := translate_held (va := va) hc hd (by omega)
    simp only [State.translateSpan, ht, ih (va + 1) (by omega), heldPage_pa (va := va) (by omega), h1, List.range'_succ]

theorem readRec_held (hc : (s.core k).tlb = [heldPage]) (hd : s.dieMask = 0xFFFF) (hv : va.toNat + n ≤ 2 ^ 40) :
    s.readRec k 0 va n = some ((List.range' va.toNat n).map fun p => (s.byte p, s.badByte p)) := by
  simp only [State.readRec, translateSpan_held hc hd n va hv]

/-- A launch of one core, with no scratch, rack, barriers or pantry, in context 0. -/
def launchHeld : Launch := { (default : Launch) with id := 2, hdr := { (default : KHeader) with shape := 0x10000 } }

/-- A core record at 0x20000 for groups in frames 0 and 1, and at 0x40000 the record of the second, with lane 0 at HEAD 1. -/
def cellsHeld : List Host.Cell :=
  [(0x20000, 0x57), (0x20001, 0x43), (0x20002, 0x53), (0x20003, 0x52), (0x20004, 1), (0x20015, 1), (0x20018, 3), (0x40100, 1)]

/-- Context 0 has no tables; core 0 holds a translation of the first 1 TiB still. -/
def sHeld : State :=
  { State.reset with
    mem := cellsHeld, cores := [(0, { Core.reset 0 0 0 with tlb := [heldPage] })],
    dies := (List.range 16).map fun d => (d, { Die.reset with modeSet := true }), launches := [launchHeld], saved := [⟨2, 0, 2, 0, []⟩] }

/-- The cluster goes back to core 0; frame 0's record is past the held page. -/
def restoreHeld : RestoreArgs := ⟨2, 0, [0], ⟨[0x20000], [[0x10000000000, 0x40000]]⟩, [], none⟩

/-- The core record as core 0 reads it. -/
def recHeld : List (Byte × Bool) := (List.range' 0x20000 0x8000).map fun p => (sHeld.byte p, sHeld.badByte p)

def bytesHeld : List Byte := (List.range' 0x20000 0x8000).map sHeld.byte

theorem recHeld_bytes : recHeld.map (·.1) = bytesHeld := by
  rw [recHeld, List.map_map]
  rfl

theorem bytesHeld_sound : recFits 1 0 bytesHeld = true ∧ recFrames bytesHeld = [0, 1] ∧ sHeld.recUnit bytesHeld = false ∧
    (∀ i < 16, byteAt bytesHeld (0x710 + 32 * i) ≠ 1) ∧ (List.range 16).filterMap (fun i => mapFrom 2 0 false ((bytesHeld.drop (0x700 + 32 * i)).take 32)) = [] := by
  decide +kernel

theorem sHeld_readRec (va : DWord) (n : Nat) (h : va.toNat + n ≤ 2 ^ 40) :
    sHeld.readRec 0 0 va n = some ((List.range' va.toNat n).map fun p => (sHeld.byte p, sHeld.badByte p)) :=
  readRec_held rfl rfl h

theorem sHeld_launch : sHeld.launch? 2 = some launchHeld ∧
    sHeld.saved.find? (fun v => v.launch == 2 && v.cluster == 0) = some ⟨2, 0, 2, 0, []⟩ := ⟨rfl, rfl⟩

theorem sHeld_cores : sHeld.broughtUp = true ∧ [0] ∈ sHeld.rects 0 launchHeld.hdr ∧ sHeld.blockAllows launchHeld 0 0 = true := by
  decide +kernel

theorem sHeld_recs : sHeld.readRec 0 0 0x20000 0x8000 = some recHeld :=
  sHeld_readRec 0x20000 0x8000 (by decide)

/-- The bytes of the second group's record before the restore. -/
theorem sHeld_second : ((List.range' (0x40000 : DWord).toNat 0x2000).map fun p => (sHeld.byte p, sHeld.badByte p)).map (·.1) =
    (List.range' 0x40000 0x2000).map sHeld.byte := by
  rw [List.map_map]
  rfl

theorem exec_restoreHeld : exec (.restore restoreHeld) sHeld = .next (sHeld.loadCluster launchHeld restoreHeld [] [recHeld]) := by
  obtain ⟨hup, hrect, hblk⟩ := sHeld_cores
  obtain ⟨hfit, -, hunit, -, -⟩ := bytesHeld_sound
  change execRestore restoreHeld sHeld = _
  have hrecs : ((List.range [0].length).map fun r => sHeld.readRec ([0].getD r 0) launchHeld.record.ctx ([0x20000].getD r 0)
      (recRackOff launchHeld.hdr.scratch + 4096 * launchHeld.hdr.rack)) = [some recHeld] :=
    congrArg (fun x => [x]) sHeld_recs
  have hd : dieOf ([0].headD 0) = 0 := rfl
  have hempty : ([0].all fun k => (sHeld.core k).frames.isEmpty && (sHeld.core k).teams.isEmpty && !(sHeld.core k).retired) = true := by decide
  simp only [execRestore, restoreHeld, sHeld_launch.1, sHeld_launch.2, hd]
  rw [if_neg (by simp [hup, hempty, hrect, hblk]), hrecs, if_neg (by simp), if_neg (by simp [recHeld_bytes, hfit]), if_neg (by simp [recHeld_bytes, hunit])]
  rfl

/-- The second group is at HEAD 0 after the restore. -/
theorem restoreHeld_zeroed : (sHeld.loadCluster launchHeld restoreHeld [] [recHeld]).ZeroedAt 0 1 := by
  obtain ⟨-, hfr, -, -, hmaps⟩ := bytesHeld_sound
  refine loadCluster_zeroed [] rfl (by rw [recHeld_bytes]; exact hfr) ?_ ?_
  · rw [loadCore_maps, recHeld_bytes]
    exact hmaps
  · exact loadCore_misses ⟨by decide +kernel, by decide +kernel, by decide +kernel⟩

/-- Refutes O49: the last clause has every group's record read as it can be read before the restore, but a frame that takes a group clears the
TLBs (R188), so that a record behind a held translation, which the tables no longer give, is lost for the group of the next frame. -/
theorem not_preemptionAndRestore : ¬ Obligations.PreemptionAndRestore := by
  unfold Obligations.PreemptionAndRestore
  intro h
  obtain ⟨-, -, -, -, -, restore⟩ := h sHeld 2 0 none
  obtain ⟨hup, hrect, hblk⟩ := sHeld_cores
  obtain ⟨hfit, hfr, hunit, hmode, -⟩ := bytesHeld_sound
  have hone : ∀ {r}, r < restoreHeld.cores.length → r = 0 := fun hr => Nat.lt_one_iff.mp hr
  obtain ⟨t, ht, -, hteams⟩ := restore restoreHeld launchHeld ⟨2, 0, 2, 0, []⟩ (fun _ => bytesHeld) default rfl rfl rfl sHeld_launch.1 sHeld_launch.2
    (by decide) (by decide) hrect hblk hup (fun _ _ => hunit) fun r hr => by
      obtain rfl := hone hr
      exact ⟨⟨recHeld, sHeld_recs, recHeld_bytes⟩, hfit⟩
  obtain rfl := Host.Outcome.next.inj (exec_restoreHeld.symm.trans ht)
  obtain ⟨-, -, -, -, -, -, hgroups⟩ := hteams 0 (by decide)
  obtain ⟨g, hg, -, -, hread⟩ := hgroups 1 (by rw [hfr]; simp)
  obtain ⟨-, hlanes, -⟩ := hread _ (sHeld_readRec 0x40000 0x2000 (by decide)) (fun _ _ => hmode) (by rw [sHeld_second]; decide +kernel)
  obtain ⟨hhead, -⟩ := hlanes 0
  obtain ⟨g', hg', hz⟩ := restoreHeld_zeroed
  obtain rfl : g = g' := Option.some.inj (hg.symm.trans hg')
  rw [hz.head, sHeld_second] at hhead
  exact absurd hhead (by decide +kernel)

end Sys2Proof.Machine
end

