-- ==== Sys2Proof/Proofs/CodeFields.lean ====
section
/-! PROOF. Fields of a code value, units of words, and the codes of what a field names (R37, R46, R47, R52, R64, R74, R75, R95). -/

namespace Sys2Proof

-- One proof at a time: in parallel, the stacks of the threads exceed the memory that the check allows.
set_option Elab.async false

/-! ## Fields of a value (R37) -/

theorem mul_add_div_of_lt {a m b : Nat} (h : b < m) : (a * m + b) / m = a := by
  rw [Nat.add_comm, Nat.add_mul_div_right _ _ (Nat.zero_lt_of_lt h), Nat.div_eq_of_lt h, Nat.zero_add]

/-- Field values that each fit the width a layout gives them. -/
def Fits (ws vs : List Nat) : Prop := List.Forall₂ (fun w v => v < 2 ^ w) ws vs

theorem Fits.nil : Fits [] [] := List.Forall₂.nil

theorem Fits.cons {w v : Nat} {ws vs : List Nat} (h : v < 2 ^ w) (t : Fits ws vs) : Fits (w :: ws) (v :: vs) := List.Forall₂.cons h t

/-- What holds of every list of field values that fit a layout, value by value. -/
def EachField : List Nat → (List Nat → Prop) → Prop
  | [], P => P []
  | w :: ws, P => ∀ v, v < 2 ^ w → EachField ws fun vs => P (v :: vs)

theorem Fits.elim {ws vs : List Nat} {P : List Nat → Prop} (hf : Fits ws vs) (h : EachField ws P) : P vs := by
  induction hf generalizing P with
  | nil => exact h
  | cons hv _ ih => exact ih (h _ hv)

theorem packBits_lt (ws vs : List Nat) : packBits ws vs < 2 ^ ws.sum := by
  induction ws generalizing vs with
  | nil => simp [packBits]
  | cons w ws ih =>
    cases vs with
    | nil => exact Nat.two_pow_pos _
    | cons v vs =>
      have hv : v % 2 ^ w < 2 ^ w := Nat.mod_lt _ (Nat.two_pow_pos w)
      rw [packBits, List.sum_cons, Nat.pow_add]
      exact Nat.lt_of_lt_of_le (by rw [Nat.succ_mul]; exact Nat.add_lt_add_left (ih vs) _) (Nat.mul_le_mul_right _ hv)

theorem unpackBits_packBits {ws vs : List Nat} (h : Fits ws vs) : unpackBits ws (packBits ws vs) = vs := by
  suffices ∀ a, unpackBits ws (a * 2 ^ ws.sum + packBits ws vs) = vs by simpa using this 0
  induction h with
  | nil => exact fun a => rfl
  | @cons w v ws vs hv _ ih =>
    intro a
    have split : a * 2 ^ (w :: ws).sum + packBits (w :: ws) (v :: vs) = (a * 2 ^ w + v) * 2 ^ ws.sum + packBits ws vs := by
      rw [packBits, List.sum_cons, Nat.pow_add, Nat.mod_eq_of_lt hv]
      ring
    have top : ((a * 2 ^ w + v) * 2 ^ ws.sum + packBits ws vs) / 2 ^ ws.sum % 2 ^ w = v := by
      rw [mul_add_div_of_lt (packBits_lt ws vs), Nat.mul_add_mod_of_lt hv]
    rw [split, unpackBits, top, ih]

theorem fits_unpackBits (ws : List Nat) (x : Nat) : Fits ws (unpackBits ws x) := by
  induction ws with
  | nil => exact Fits.nil
  | cons w ws ih => exact .cons (Nat.mod_lt _ (Nat.two_pow_pos w)) ih

theorem packBits_unpackBits (ws : List Nat) (x : Nat) : packBits ws (unpackBits ws x) = x % 2 ^ ws.sum := by
  induction ws with
  | nil => simp [packBits, Nat.mod_one]
  | cons w ws ih =>
    rw [unpackBits, packBits, ih, List.sum_cons, Nat.mod_mod, Nat.add_comm w, Nat.pow_add, Nat.mod_mul]
    ring

/-! ## Units and literal words (R37, R47) -/

theorem unitWords_unitOf (lo hi : Word) : unitWords (unitOf lo hi) = [lo, hi] := by
  have hlo : (lo.toNat + 2 ^ 32 * hi.toNat) % 2 ^ 32 = lo.toNat := by rw [Nat.add_mul_mod_self_left, Nat.mod_eq_of_lt lo.isLt]
  have hhi : (lo.toNat + 2 ^ 32 * hi.toNat) / 2 ^ 32 = hi.toNat := by
    rw [Nat.add_mul_div_left _ _ (Nat.two_pow_pos 32), Nat.div_eq_of_lt lo.isLt, Nat.zero_add]
  simp only [unitWords, unitOf, hhi, BitVec.ofNat_toNat, BitVec.setWidth_eq, List.cons.injEq, and_true]
  exact BitVec.eq_of_toNat_eq (by rw [BitVec.toNat_ofNat, hlo])

theorem unitOf_words {u : Nat} (h : u < 2 ^ 64) : unitOf (BitVec.ofNat 32 u) (BitVec.ofNat 32 (u / 2 ^ 32)) = u := by
  have high : u / 2 ^ 32 < 2 ^ 32 := Nat.div_lt_of_lt_mul h
  rw [unitOf, BitVec.toNat_ofNat, BitVec.toNat_ofNat, Nat.mod_eq_of_lt high, Nat.mod_add_div]

theorem unitOf_lt (lo hi : Word) : unitOf lo hi < 2 ^ 64 := by
  have := lo.isLt
  have := hi.isLt
  unfold unitOf
  omega

theorem takeUnits_valueWords (n x : Nat) (ws : List Word) : takeUnits n (valueWords n x ++ ws) = some (x % 2 ^ (64 * n), ws) := by
  induction n with
  | zero => simp [takeUnits, valueWords, Nat.mod_one]
  | succ n ih =>
    have hu := unitOf_words (Nat.mod_lt (x / 2 ^ (64 * n)) (Nat.two_pow_pos 64))
    change takeUnits (n + 1) (_ :: _ :: (valueWords n x ++ ws)) = _
    rw [takeUnits, ih]
    simp only [hu]
    rw [Nat.mul_succ, Nat.pow_add, Nat.mod_mul, Nat.add_comm, Nat.mul_comm (2 ^ (64 * n))]

/-- The words of a value of `n` units are those of its low bits. -/
theorem valueWords_mul_add (n a x : Nat) : valueWords n (a * 2 ^ (64 * n) + x) = valueWords n x := by
  induction n generalizing a with
  | zero => rfl
  | succ n ih =>
    have split : a * 2 ^ (64 * (n + 1)) + x = x + (a * 2 ^ 64) * 2 ^ (64 * n) := by
      rw [Nat.mul_succ, Nat.pow_add]
      ring
    have low := ih (a * 2 ^ 64)
    rw [Nat.add_comm] at low
    rw [split, valueWords, low, Nat.add_mul_div_right _ _ (Nat.two_pow_pos _), Nat.add_mul_mod_self_right, valueWords]

theorem words_of_takeUnits {n x : Nat} {ws rest : List Word} (h : takeUnits n ws = some (x, rest)) :
    x < 2 ^ (64 * n) ∧ valueWords n x ++ rest = ws := by
  induction n generalizing x ws with
  | zero => cases h; simp [valueWords]
  | succ n ih =>
    match ws with
    | [] | [_] => simp [takeUnits] at h
    | lo :: hi :: ws =>
      rw [takeUnits] at h
      split at h
      · next y rest' hy =>
        cases h
        obtain ⟨hlt, rfl⟩ := ih hy
        constructor
        · rw [Nat.mul_succ, Nat.add_comm (64 * n), Nat.pow_add]
          have := Nat.mul_le_mul_right (2 ^ (64 * n)) (unitOf_lt lo hi)
          rw [Nat.succ_mul] at this
          omega
        · rw [valueWords, valueWords_mul_add, mul_add_div_of_lt hlt, Nat.mod_eq_of_lt (unitOf_lt lo hi), unitWords_unitOf]
          rfl
      · cases h

theorem takeLits_append (ls ws : List Word) : takeLits ls.length (ls ++ ws) = some (ls, ws) := by
  induction ls with
  | nil => rfl
  | cons l ls ih => simp [takeLits, ih]

theorem words_of_takeLits {n : Nat} {ws ls rest : List Word} (h : takeLits n ws = some (ls, rest)) :
    ls.length = n ∧ ls ++ rest = ws := by
  induction n generalizing ws ls with
  | zero => cases h; exact ⟨rfl, rfl⟩
  | succ n ih =>
    cases ws with
    | nil => cases h
    | cons w ws =>
      obtain ⟨⟨ls', rest'⟩, h', e⟩ := Option.map_eq_some_iff.mp h
      cases e
      obtain ⟨rfl, rfl⟩ := ih h'
      exact ⟨rfl, rfl⟩

/-! ## Facts about every number, the small ones one by one -/

theorem below_zero {P : Nat → Prop} : ∀ m < 0, P m := fun _ h => absurd h (Nat.not_lt_zero _)

theorem below_succ {P : Nat → Prop} {n : Nat} (h : ∀ m < n, P m) (hn : P n) : ∀ m < n + 1, P m :=
  fun m hm => (Nat.lt_succ_iff_lt_or_eq.mp hm).elim (h m) fun e => e ▸ hn

theorem of_below {P : Nat → Prop} {n : Nat} (h : ∀ m < n, P m) (hn : ∀ m, P (m + n)) (m : Nat) : P m := by
  by_cases hm : m < n
  · exact h m hm
  · exact Nat.sub_add_cancel (Nat.le_of_not_lt hm) ▸ hn (m - n)

/-- A table that has no entry from some place on. -/
theorem lt_of_table {α : Type} {o : Nat → Option α} {n m : Nat} {a : α} (hn : ∀ m, o (m + n) = none) (h : o m = some a) : m < n := by
  by_contra hm
  rw [← Nat.sub_add_cancel (Nat.le_of_not_lt hm), hn] at h
  cases h

/-! ## Numbers and bits as fields -/

theorem toNat_ofNat_of_lt {w v : Nat} (h : v < 2 ^ w) : (BitVec.ofNat w v).toNat = v := by
  rw [BitVec.toNat_ofNat, Nat.mod_eq_of_lt h]

/-- A field whose upper bits are fixed holds a value in its low bits. -/
theorem toNat_ofNat_above {w b n : Nat} (hb : 2 ^ w ∣ b) (h : b ≤ n) (h' : n < b + 2 ^ w) : b + (BitVec.ofNat w n).toNat = n := by
  obtain ⟨k, rfl⟩ := Nat.exists_eq_add_of_le h
  obtain ⟨a, rfl⟩ := hb
  rw [BitVec.toNat_ofNat, Nat.mul_add_mod, Nat.mod_eq_of_lt (Nat.lt_of_add_lt_add_left h')]

theorem ofNat_above {w b : Nat} (hb : 2 ^ w ∣ b) (x : BitVec w) : BitVec.ofNat w (b + x.toNat) = x := by
  obtain ⟨a, rfl⟩ := hb
  exact BitVec.eq_of_toNat_eq (by rw [BitVec.toNat_ofNat, Nat.mul_add_mod, Nat.mod_eq_of_lt x.isLt])

theorem bitOf_toNat (b : Bool) : bitOf b.toNat = b := by cases b <;> rfl

theorem toNat_bitOf {n : Nat} (h : n < 2 ^ 1) : (bitOf n).toNat = n := by
  obtain rfl | rfl := Nat.le_one_iff_eq_zero_or_eq_one.mp (Nat.lt_succ_iff.mp h)
  all_goals rfl

/-! ## Codes of field values (R46, R52, R64, R74, R75, R95) -/

/-- A code of `w` bits: every value has one, which decodes to it, and what another number decodes to, if anything, has that code. -/
structure IsCode {α : Type} (code : α → Nat) (ofCode : Nat → Option α) (w : Nat) : Prop where
  lt : ∀ a, code a < 2 ^ w
  ofCode_code : ∀ a, ofCode (code a) = some a
  elim : ∀ n, (ofCode n).elim n code = n

theorem IsCode.code_of_ofCode {α : Type} {code : α → Nat} {ofCode : Nat → Option α} {w n : Nat} {a : α} (h : IsCode code ofCode w)
    (ha : ofCode n = some a) : code a = n := by
  have := h.elim n
  rwa [ha] at this

/-- A form whose next field names something. -/
theorem IsCode.bind {α β : Type} {code : α → Nat} {ofCode : Nat → Option α} {w n : Nat} {k : α → Option β} {b : β} {P : Prop}
    (hc : IsCode code ofCode w) (h : (ofCode n).bind k = some b) (hP : ∀ a, code a = n → k a = some b → P) : P := by
  obtain ⟨a, ha, hk⟩ := Option.bind_eq_some_iff.mp h
  exact hP a (hc.code_of_ofCode ha) hk

theorem Ty.isCode : IsCode Ty.code Ty.ofCode 4 where
  lt x := by cases x <;> decide
  ofCode_code x := by cases x <;> rfl
  elim := by
    refine of_below (n := 14) ?_ fun _ => rfl
    iterate 14 refine below_succ ?_ rfl
    exact below_zero

theorem Rm.isCode : IsCode Rm.code Rm.ofCode 2 where
  lt x := by cases x <;> decide
  ofCode_code x := by cases x <;> rfl
  elim := by
    refine of_below (n := 4) ?_ fun _ => rfl
    iterate 4 refine below_succ ?_ rfl
    exact below_zero

theorem Size.isCode : IsCode Size.code Size.ofCode 3 where
  lt x := by cases x <;> decide
  ofCode_code x := by cases x <;> rfl
  elim := by
    refine of_below (n := 5) ?_ fun _ => rfl
    iterate 5 refine below_succ ?_ rfl
    exact below_zero

theorem Space.isCode : IsCode Space.code Space.ofCode 3 where
  lt x := by cases x <;> decide
  ofCode_code x := by cases x <;> rfl
  elim := by
    refine of_below (n := 4) ?_ fun _ => rfl
    iterate 4 refine below_succ ?_ rfl
    exact below_zero

theorem Order.isCode : IsCode Order.code Order.ofCode 3 where
  lt x := by cases x <;> decide
  ofCode_code x := by cases x <;> rfl
  elim := by
    refine of_below (n := 5) ?_ fun _ => rfl
    iterate 5 refine below_succ ?_ rfl
    exact below_zero

theorem Scope.isCode : IsCode Scope.code Scope.ofCode 3 where
  lt x := by cases x <;> decide
  ofCode_code x := by cases x <;> rfl
  elim := by
    refine of_below (n := 6) ?_ fun _ => rfl
    iterate 6 refine below_succ ?_ rfl
    exact below_zero

theorem Hint.isCode : IsCode Hint.code Hint.ofCode 2 where
  lt x := by cases x <;> decide
  ofCode_code x := by cases x <;> rfl
  elim := by
    refine of_below (n := 4) ?_ fun _ => rfl
    iterate 4 refine below_succ ?_ rfl
    exact below_zero

theorem PairInt.isCode : IsCode PairInt.op PairInt.ofOp 8 where
  lt x := by cases x <;> decide
  ofCode_code x := by cases x <;> rfl
  elim := by
    refine of_below (n := 54) ?_ fun _ => rfl
    iterate 54 refine below_succ ?_ rfl
    exact below_zero

theorem PairFloat.isCode : IsCode PairFloat.op PairFloat.ofOp 8 where
  lt x := by cases x <;> decide
  ofCode_code x := by cases x <;> rfl
  elim := by
    refine of_below (n := 70) ?_ fun _ => rfl
    iterate 70 refine below_succ ?_ rfl
    exact below_zero

theorem NestOp.isCode : IsCode NestOp.code NestOp.ofCode 6 where
  lt x := by cases x <;> decide
  ofCode_code x := by cases x <;> rfl
  elim := by
    refine of_below (n := 11) ?_ fun _ => rfl
    iterate 11 refine below_succ ?_ rfl
    exact below_zero

/-- The parts of a specifier's code: its kind, its modifier and its index. -/
theorem specifier_parts {m : BitVec 3} {x : Nat} (k : Nat) (hx : x < 128) :
    (m.toNat * 128 + (1024 * k + x)) / 1024 = k ∧ BitVec.ofNat 3 ((m.toNat * 128 + (1024 * k + x)) / 128) = m ∧
      (m.toNat * 128 + (1024 * k + x)) % 128 = x := by
  have high : (m.toNat * 128 + (1024 * k + x)) = (k * 8 + m.toNat) * 128 + x := by ring
  have shift : ((k * 8 + m.toNat) * 128 + x) / 128 = k * 8 + m.toNat := mul_add_div_of_lt hx
  rw [high]
  refine ⟨?_, ?_, Nat.mul_add_mod_of_lt hx⟩
  · rw [← Nat.div_div_eq_div_mul _ 128 8, shift, mul_add_div_of_lt m.isLt]
  · rw [shift, ofNat_above (Nat.dvd_mul_left 8 k)]

theorem specifier_lt (m : BitVec 3) {k x : Nat} (hk : k < 4) (hx : x < 128) : m.toNat * 128 + (1024 * k + x) < 2 ^ 12 := by
  have := m.isLt
  omega

theorem specifier_eq {n k : Nat} (hk : n / 1024 = k) : (BitVec.ofNat 3 (n / 128)).toNat * 128 + (1024 * k + n % 128) = n := by
  have high : 8 * k + n / 128 % 8 = n / 128 := by rw [← hk, ← Nat.div_div_eq_div_mul n 128 8, Nat.div_add_mod]
  calc (BitVec.ofNat 3 (n / 128)).toNat * 128 + (1024 * k + n % 128)
    _ = 128 * (8 * k + n / 128 % 8) + n % 128 := by rw [BitVec.toNat_ofNat]; ring
    _ = n := by rw [high, Nat.div_add_mod]

theorem Operand.code_lt (o : Operand) : o.code < 2 ^ 12 := by
  obtain ⟨src, mod⟩ := o
  cases src with
  | age i =>
    have h := specifier_lt mod (k := 0) (by decide) (Nat.lt_trans i.isLt (by decide))
    rw [Nat.mul_zero, Nat.zero_add] at h
    exact h
  | scalar i => exact specifier_lt mod (k := 1) (by decide) i.isLt
  | const i => exact specifier_lt mod (k := 2) (by decide) i.isLt
  | inline i => exact specifier_lt mod (k := 3) (by decide) (Nat.lt_trans i.isLt (by decide))
  | lit0 => exact specifier_lt mod (k := 3) (x := 64) (by decide) (by decide)
  | lit1 => exact specifier_lt mod (k := 3) (x := 65) (by decide) (by decide)

theorem Operand.ofCode_code (o : Operand) : Operand.ofCode o.code = some o := by
  obtain ⟨src, mod⟩ := o
  cases src with
  | age i =>
    have hi := i.isLt
    obtain ⟨hk, hm, hx⟩ := specifier_parts (m := mod) (x := i.toNat) 0 (by omega)
    rw [Nat.mul_zero, Nat.zero_add] at hk hm hx
    simp only [Operand.code, Operand.ofCode, hk, hm, hx, if_pos hi, BitVec.ofNat_toNat, BitVec.setWidth_eq]
  | scalar i =>
    obtain ⟨hk, hm, hx⟩ := specifier_parts (m := mod) 1 i.isLt
    simp only [Operand.code, Operand.ofCode, hk, hm, hx, BitVec.ofNat_toNat, BitVec.setWidth_eq]
  | const i =>
    obtain ⟨hk, hm, hx⟩ := specifier_parts (m := mod) 2 i.isLt
    simp only [Operand.code, Operand.ofCode, hk, hm, hx, BitVec.ofNat_toNat, BitVec.setWidth_eq]
  | inline i =>
    have hi := i.isLt
    obtain ⟨hk, hm, hx⟩ := specifier_parts (m := mod) (x := i.toNat) 3 (by omega)
    simp only [Operand.code, Operand.ofCode, hk, hm, hx, if_pos hi, BitVec.ofNat_toNat, BitVec.setWidth_eq]
  | lit0 =>
    obtain ⟨hk, hm, hx⟩ := specifier_parts (m := mod) (x := 64) 3 (by decide)
    simp only [Operand.code, Operand.ofCode, hk, hm, hx]
    rfl
  | lit1 =>
    obtain ⟨hk, hm, hx⟩ := specifier_parts (m := mod) (x := 65) 3 (by decide)
    simp only [Operand.code, Operand.ofCode, hk, hm, hx]
    rfl

theorem Operand.code_of_ofCode {n : Nat} {o : Operand} (h : Operand.ofCode n = some o) : o.code = n := by
  unfold Operand.ofCode at h
  dsimp only at h
  split at h
  · next hk =>
    split at h
    · next hx =>
      cases h
      have := specifier_eq hk
      rw [Nat.mul_zero, Nat.zero_add] at this
      rwa [← toNat_ofNat_of_lt (w := 5) hx] at this
    · cases h
  · next hk =>
    cases h
    have := specifier_eq hk
    rwa [← toNat_ofNat_of_lt (w := 7) (v := n % 128) (Nat.mod_lt n (by decide))] at this
  · next hk =>
    cases h
    have := specifier_eq hk
    rwa [← toNat_ofNat_of_lt (w := 7) (v := n % 128) (Nat.mod_lt n (by decide))] at this
  · next hk =>
    have eq := specifier_eq hk
    split at h
    · next hx =>
      cases h
      rwa [← toNat_ofNat_of_lt (w := 6) hx] at eq
    · split at h
      · next hx =>
        cases h
        rwa [hx] at eq
      · split at h
        · next hx =>
          cases h
          rwa [hx] at eq
        · cases h
  · cases h

theorem Operand.isCode : IsCode Operand.code Operand.ofCode 12 where
  lt := Operand.code_lt
  ofCode_code := Operand.ofCode_code
  elim n := by
    cases h : Operand.ofCode n with
    | none => rfl
    | some o => exact Operand.code_of_ofCode h

end Sys2Proof
end

