-- ==== Sys2Proof/Proofs/CodeForms.lean ====
section
/-! PROOF. The instruction that a form stands for, and class by class the field values that a form encodes to and is decoded from
(R56 to R75). -/

namespace Sys2Proof

-- One proof at a time: in parallel, the stacks of the threads exceed the memory that the check allows.
set_option Elab.async false

/-! ## The instruction of a form (R56 to R75) -/

theorem ofV_form (f : VFields) : ∀ op, (Instr.ofV op f).elim (.v op f) Instr.form = .v op f := by
  refine of_below (n := 0x5a) ?_ fun _ => rfl
  iterate 90 refine below_succ ?_ rfl
  exact below_zero

theorem ofI_form (f : IFields) : ∀ op, (Instr.ofI op f).elim (.i op f) Instr.form = .i op f := by
  refine of_below (n := 0x45) ?_ fun _ => rfl
  iterate 69 refine below_succ ?_ rfl
  exact below_zero

theorem ofM_form (f : MFields) : ∀ op, (Instr.ofM op f).elim (.m op f) Instr.form = .m op f := by
  refine of_below (n := 0x12) ?_ fun _ => rfl
  iterate 18 refine below_succ ?_ rfl
  exact below_zero

theorem ofE_form (f : EFields) : ∀ op, (Instr.ofE op f).elim (.e op f) Instr.form = .e op f := by
  refine of_below (n := 0x14) ?_ fun _ => rfl
  iterate 20 refine below_succ ?_ rfl
  exact below_zero

theorem ofX_form (f : XFields) : ∀ op, (Instr.ofX op f).elim (.x op f) Instr.form = .x op f := by
  refine of_below (n := 0xd) ?_ fun _ => rfl
  iterate 13 refine below_succ ?_ rfl
  exact below_zero

theorem ofG_form (f : GFields) : ∀ op, (Instr.ofG op f).elim (.g op f) Instr.form = .g op f := by
  refine of_below (n := 0xe) ?_ fun _ => rfl
  iterate 14 refine below_succ ?_ rfl
  exact below_zero

theorem ofY_form (f : YFields) : ∀ op, (Instr.ofY op f).elim (.y op f) Instr.form = .y op f := by
  refine of_below (n := 0x24) ?_ fun _ => rfl
  iterate 36 refine below_succ ?_ rfl
  exact below_zero

theorem ofS_form (f : SFields) : ∀ op, (Instr.ofS op f).elim (.s op f) Instr.form = .s op f := by
  -- SWRITE, LEASE_WRITE and DIESEL_WRITE have one form
  have write : (Instr.ofS 0x41 f).elim (.s 0x41 f) Instr.form = .s 0x41 f := by
    change Instr.form (if f.imm = 0x00A#12 then .leaseWrite f else if f.imm = 0x105#12 then .dieselWrite f else .swrite f) = _
    split_ifs <;> rfl
  refine of_below (n := 0x53) ?_ fun _ => rfl
  iterate 17 refine below_succ ?_ rfl
  refine below_succ ?_ write
  iterate 65 refine below_succ ?_ rfl
  exact below_zero

theorem bw_form (n : BitVec 4) (off : Word) : ∀ op, ((Form.bw op n off).toInstr).elim (.bw op n off) Instr.form = .bw op n off := by
  have br : ((Form.bw 0 n off).toInstr).elim (.bw 0 n off) Instr.form = .bw 0 n off := by
    by_cases hn : n = 0
    · subst hn; rfl
    · rw [show (Form.bw 0 n off).toInstr = none from if_neg hn]; rfl
  refine of_below (n := 10) ?_ fun _ => rfl
  iterate 9 refine below_succ ?_ rfl
  exact below_succ below_zero br

theorem bz_form (c : Operand) (j : BitVec 22) (t : BitVec 20) :
    ∀ op, ((Form.bz op c j t).toInstr).elim (.bz op c j t) Instr.form = .bz op c j t := by
  refine of_below (n := 3) ?_ fun _ => rfl
  iterate 3 refine below_succ ?_ rfl
  exact below_zero

theorem bs_form (r : BitVec 7) (off : Word) : ∀ op, ((Form.bs op r off).toInstr).elim (.bs op r off) Instr.form = .bs op r off := by
  refine of_below (n := 6) ?_ fun _ => rfl
  iterate 6 refine below_succ ?_ rfl
  exact below_zero

theorem b0_form : ∀ op, ((Form.b0 op).toInstr).elim (.b0 op) Instr.form = .b0 op := by
  refine of_below (n := 18) ?_ fun _ => rfl
  iterate 18 refine below_succ ?_ rfl
  exact below_zero

theorem bi_form (imm : BitVec 16) : ∀ op, ((Form.bi op imm).toInstr).elim (.bi op imm) Instr.form = .bi op imm := by
  refine of_below (n := 17) ?_ fun _ => rfl
  iterate 17 refine below_succ ?_ rfl
  exact below_zero

/-- The instruction of a form has that form. -/
theorem form_of_toInstr {f : Form} {i : Instr} (h : f.toInstr = some i) : i.form = f := by
  have key : f.toInstr.elim f Instr.form = f := by
    cases f with
    | v op f => exact ofV_form f op
    | i op f => exact ofI_form f op
    | s op f => exact ofS_form f op
    | m op f => exact ofM_form f op
    | e op f => exact ofE_form f op
    | x op f => exact ofX_form f op
    | bw op n off => exact bw_form n off op
    | bz op c j t => exact bz_form c j t op
    | bs op r off => exact bs_form r off op
    | b0 op => exact b0_form op
    | bi op imm => exact bi_form imm op
    | g op f => exact ofG_form f op
    | y op f => exact ofY_form f op
    | _ => rfl
  rwa [h] at key

/-- An instruction that its form stands for if it is sound. -/
def Instr.ReadsBack (i : Instr) : Prop := i.wf = true → i.form.toInstr = some i

theorem Instr.ReadsBack.of_eq {i : Instr} (h : i.form.toInstr = some i) : i.ReadsBack := fun _ => h

theorem Instr.ReadsBack.of_unsound {i : Instr} (h : i.wf = false) : i.ReadsBack := fun hw => absurd (h.symm.trans hw) Bool.false_ne_true

theorem Instr.readsBack (i : Instr) : i.ReadsBack := by
  cases i
  case swrite f => exact Laws.Encoding.swrite f
  case leaseWrite f => exact Laws.Encoding.leaseWrite f
  case dieselWrite f => exact Laws.Encoding.dieselWrite f
  -- an event's form is not sound
  all_goals try exact .of_unsound rfl
  all_goals exact .of_eq rfl

/-- A sound instruction is the one that its form stands for. -/
theorem toInstr_form {i : Instr} (h : i.wf = true) : i.form.toInstr = some i := i.readsBack h

/-! ## Forms of field values (R56 to R75) -/

/-! The field values of a form. -/

theorem vals_v (op : Nat) (f : VFields) : (Form.v op f).code.vals = [1, op, f.ty.code, f.lits.length, f.nfmt.toNat, f.rm.code,
    f.sat.toNat, f.narrow.toNat, f.src0.code, f.src1.code, f.src2.code, 0, f.grade.toNat] := rfl

theorem vals_get (slot : BitVec 6) : (Form.get slot).code.vals = [1, 0, 0, 0, 0, 0, 0, 0, 0, 0, 0x400 + slot.toNat, 0, 0] := rfl

theorem vals_save (age : BitVec 5) (slot : BitVec 6) :
    (Form.save age slot).code.vals = [1, 0, 0, 0, 0, 0, 0, 0, age.toNat, 0, 0x800 + slot.toNat, 0, 0] := rfl

theorem vals_drop (n : BitVec 5) : (Form.drop n).code.vals = [1, 2, 0, 0, 0, 0, 0, 0, 0xC00 + n.toNat, 0, 0, 0, 0] := rfl

theorem vals_i (op : Nat) (f : IFields) :
    (Form.i op f).code.vals = [2, op, f.ty.code, f.src0.code, f.src1.code, f.rm.code, f.sat.toNat, 0, f.imm.toNat] := rfl

theorem vals_s (op : Nat) (f : SFields) : (Form.s op f).code.vals =
    [3, op, f.ty.code, f.lits.length, f.dst.toNat, f.srcA.code, f.srcB.code, f.cond.toNat, f.imm.toNat] := rfl

theorem vals_m (op : Nat) (f : MFields) : (Form.m op f).code.vals = [4, op, f.size.code, f.space.code, f.order.code, f.scope.code,
    f.addr.code, f.data.code, f.sx.toNat, f.fsel.toNat, f.hint.code, 0, f.offset.toNat] := rfl

theorem vals_e (op : Nat) (f : EFields) :
    (Form.e op f).code.vals = [5, op, f.hdst.toNat, f.blk.toNat, f.var.toNat, f.imm.toNat] := rfl

theorem vals_x (op : Nat) (f : XFields) : (Form.x op f).code.vals = [6, op, f.slotA.toNat, f.slotD.toNat, f.scale.toNat,
    f.sect.toNat, f.fmtA.toNat, f.fmtB.toNat, f.flags.toNat, f.soff.toNat, f.count.toNat] := rfl

theorem vals_g (op : Nat) (f : GFields) :
    (Form.g op f).code.vals = [8, op, f.ty.code, f.src0.code, f.src1.code, f.sdst.toNat, f.imm.toNat] := rfl

theorem vals_y (op : Nat) (f : YFields) :
    (Form.y op f).code.vals = [9, op, f.sub.toNat, f.src.code, f.sidx.toNat, f.imm.toNat] := rfl

theorem vals_pair (f : PairFields) : (Form.pair f).code.vals = [10, f.op0.op, f.ty0.code, f.a0.code, f.b0.code, 0, f.sat0.toNat, 0,
    f.op1.op, f.ty1.code, f.a1.code, f.b1.code, f.rm1.code, 0, 0] := rfl

theorem vals_nest (f : NestFields) : (Form.nest f).code.vals = [11, f.op.code, if f.float then 3 else 1, f.levels.toNat, f.sd.toNat,
    f.sa.toNat, f.sb.toNat, f.narrow.toNat, f.rm.code, f.bscalar.toNat, f.nfmt2.toNat] ++ f.extents.map (·.toNat) ++
    f.strides.map (·.toNat) ++ [0] := rfl

/-! The form of field values, class by class: one field after the other has to name something. -/

theorem formV_other {lits : List Word} {op s2 : Nat} (h0 : ¬ (op = 0 ∧ s2 ≠ 0)) (h2 : op ≠ 2) (c ty n nf rm sat nar s0 s1 grade : Nat) :
    formV lits [c, op, ty, n, nf, rm, sat, nar, s0, s1, s2, 0, grade] =
      (Ty.ofCode ty).bind fun t => (Rm.ofCode rm).bind fun r => (Operand.ofCode s0).bind fun a => (Operand.ofCode s1).bind fun b =>
      (Operand.ofCode s2).bind fun c =>
        some (.v op ⟨t, BitVec.ofNat 4 nf, r, bitOf sat, bitOf nar, a, b, c, bitOf grade, lits⟩) := by
  refine (if_neg h0).trans ((if_neg h2).trans ?_)
  rcases Ty.ofCode ty with _ | _
  · rfl
  rcases Rm.ofCode rm with _ | _
  · rfl
  rcases Operand.ofCode s0 with _ | _
  · rfl
  rcases Operand.ofCode s1 with _ | _
  · rfl
  rcases Operand.ofCode s2 with _ | _
  · rfl
  rfl

theorem formV_slot {lits : List Word} {s2 : Nat} (h : s2 ≠ 0) (c ty n nf rm sat nar s0 s1 grade : Nat) :
    formV lits [c, 0, ty, n, nf, rm, sat, nar, s0, s1, s2, 0, grade] =
      if ty = 0 ∧ nf = 0 ∧ rm = 0 ∧ sat = 0 ∧ nar = 0 ∧ s1 = 0 ∧ grade = 0 ∧ lits = [] then
        if 0x400 ≤ s2 ∧ s2 < 0x440 ∧ s0 = 0 then some (.get (BitVec.ofNat 6 s2))
        else if 0x800 ≤ s2 ∧ s2 < 0x840 ∧ s0 < 32 then some (.save (BitVec.ofNat 5 s0) (BitVec.ofNat 6 s2))
        else none
      else none :=
  if_pos ⟨rfl, h⟩

theorem formV_count (lits : List Word) (c ty n nf rm sat nar s0 s1 s2 grade : Nat) :
    formV lits [c, 2, ty, n, nf, rm, sat, nar, s0, s1, s2, 0, grade] =
      if ty = 0 ∧ nf = 0 ∧ rm = 0 ∧ sat = 0 ∧ nar = 0 ∧ s1 = 0 ∧ s2 = 0 ∧ grade = 0 ∧ lits = [] ∧ 0xC00 ≤ s0 ∧ s0 < 0xC20 then
        some (.drop (BitVec.ofNat 5 s0))
      else none := rfl

theorem formV_reserved {rsv : Nat} (h : rsv ≠ 0) (lits : List Word) (c op ty n nf rm sat nar s0 s1 s2 grade : Nat) :
    formV lits [c, op, ty, n, nf, rm, sat, nar, s0, s1, s2, rsv, grade] = none :=
  if_pos h

theorem formI_fields (c op ty s0 s1 rm sat rsv imm : Nat) : formI [c, op, ty, s0, s1, rm, sat, rsv, imm] =
    (Ty.ofCode ty).bind fun t => (Operand.ofCode s0).bind fun a => (Operand.ofCode s1).bind fun b => (Rm.ofCode rm).bind fun r =>
      if rsv ≠ 0 then none else some (.i op ⟨t, a, b, r, bitOf sat, BitVec.ofNat 20 imm⟩) := by
  unfold formI
  dsimp only
  rcases Ty.ofCode ty with _ | _
  · rfl
  rcases Operand.ofCode s0 with _ | _
  · rfl
  rcases Operand.ofCode s1 with _ | _
  · rfl
  rcases Rm.ofCode rm with _ | _
  · rfl
  rfl

theorem formS_fields (lits : List Word) (c op ty n dst sa sb cond imm : Nat) : formS lits [c, op, ty, n, dst, sa, sb, cond, imm] =
    (Ty.ofCode ty).bind fun t => (Operand.ofCode sa).bind fun a => (Operand.ofCode sb).bind fun b =>
      some (.s op ⟨t, BitVec.ofNat 7 dst, a, b, BitVec.ofNat 3 cond, BitVec.ofNat 12 imm, lits⟩) := by
  unfold formS
  dsimp only
  rcases Ty.ofCode ty with _ | _
  · rfl
  rcases Operand.ofCode sa with _ | _
  · rfl
  rcases Operand.ofCode sb with _ | _
  · rfl
  rfl

theorem formM_fields (c op size space order scope addr data sx fsel hint rsv off : Nat) :
    formM [c, op, size, space, order, scope, addr, data, sx, fsel, hint, rsv, off] =
      (Size.ofCode size).bind fun sz => (Space.ofCode space).bind fun sp => (Order.ofCode order).bind fun or =>
      (Scope.ofCode scope).bind fun sc => (Operand.ofCode addr).bind fun a => (Operand.ofCode data).bind fun d =>
      (Hint.ofCode hint).bind fun h => if rsv ≠ 0 then none
        else some (.m op ⟨sz, sp, or, sc, a, d, bitOf sx, bitOf fsel, h, BitVec.ofNat 12 off⟩) := by
  unfold formM
  dsimp only
  rcases Size.ofCode size with _ | _
  · rfl
  rcases Space.ofCode space with _ | _
  · rfl
  rcases Order.ofCode order with _ | _
  · rfl
  rcases Scope.ofCode scope with _ | _
  · rfl
  rcases Operand.ofCode addr with _ | _
  · rfl
  rcases Operand.ofCode data with _ | _
  · rfl
  rcases Hint.ofCode hint with _ | _
  · rfl
  rfl

theorem formG_fields (c op ty s0 s1 sdst imm : Nat) : formG [c, op, ty, s0, s1, sdst, imm] =
    (Ty.ofCode ty).bind fun t => (Operand.ofCode s0).bind fun a => (Operand.ofCode s1).bind fun b =>
      some (.g op ⟨t, a, b, BitVec.ofNat 7 sdst, BitVec.ofNat 17 imm⟩) := by
  unfold formG
  dsimp only
  rcases Ty.ofCode ty with _ | _
  · rfl
  rcases Operand.ofCode s0 with _ | _
  · rfl
  rcases Operand.ofCode s1 with _ | _
  · rfl
  rfl

theorem formP_fields (c op0 ty0 a0 b0 rm0 sat0 r0 op1 ty1 a1 b1 rm1 sat1 r1 : Nat) :
    formP [c, op0, ty0, a0, b0, rm0, sat0, r0, op1, ty1, a1, b1, rm1, sat1, r1] =
      (PairInt.ofOp op0).bind fun o0 => (Ty.ofCode ty0).bind fun t0 => (Operand.ofCode a0).bind fun x0 =>
      (Operand.ofCode b0).bind fun y0 => (PairFloat.ofOp op1).bind fun o1 => (Ty.ofCode ty1).bind fun t1 =>
      (Operand.ofCode a1).bind fun x1 => (Operand.ofCode b1).bind fun y1 => (Rm.ofCode rm1).bind fun rm =>
        if rm0 ≠ 0 ∨ r0 ≠ 0 ∨ sat1 ≠ 0 ∨ r1 ≠ 0 then none
        else some (.pair ⟨o0, t0, x0, y0, bitOf sat0, o1, t1, x1, y1, rm⟩) := by
  unfold formP
  dsimp only
  rcases PairInt.ofOp op0 with _ | _
  · rfl
  rcases Ty.ofCode ty0 with _ | _
  · rfl
  rcases Operand.ofCode a0 with _ | _
  · rfl
  rcases Operand.ofCode b0 with _ | _
  · rfl
  rcases PairFloat.ofOp op1 with _ | _
  · rfl
  rcases Ty.ofCode ty1 with _ | _
  · rfl
  rcases Operand.ofCode a1 with _ | _
  · rfl
  rcases Operand.ofCode b1 with _ | _
  · rfl
  rcases Rm.ofCode rm1 with _ | _
  · rfl
  rfl

theorem code_eq {layout vs vs' : List Nat} {lits : List Word} (h : vs = vs') : (⟨layout, vs, lits⟩ : Code) = ⟨layout, vs', lits⟩ := by
  rw [h]

/-- A form that a nonzero reserved field refuses. -/
theorem of_reserved {rsv : Nat} {x f : Form} (h : (if rsv ≠ 0 then none else some x) = some f) : rsv = 0 ∧ x = f := by
  split at h
  · cases h
  · next zero => exact ⟨not_not.mp zero, Option.some.inj h⟩

theorem fits_codeV {op : Nat} {f : VFields} (hop : op < 2 ^ 8) (hl : f.lits.length < 2 ^ 2) : Fits layoutV (Form.v op f).code.vals :=
  .cons (by decide) <| .cons hop <| .cons (Ty.isCode.lt _) <| .cons hl <| .cons f.nfmt.isLt <| .cons (Rm.isCode.lt _) <|
  .cons (Bool.toNat_lt _) <| .cons (Bool.toNat_lt _) <| .cons (Operand.isCode.lt _) <| .cons (Operand.isCode.lt _) <|
  .cons (Operand.isCode.lt _) <| .cons (by decide) <| .cons (Bool.toNat_lt _) .nil

theorem formV_code {op : Nat} {f : VFields} (h0 : op = 0 → f.src2 = Operand.zero) (h2 : op ≠ 2) :
    formV f.lits (Form.v op f).code.vals = some (.v op f) := by
  have hs : ¬ (op = 0 ∧ f.src2.code ≠ 0) := fun ⟨h, hc⟩ => hc (by rw [h0 h]; rfl)
  rw [vals_v, formV_other hs h2]
  simp only [Option.bind_some, Ty.isCode.ofCode_code, Rm.isCode.ofCode_code,
    Operand.ofCode_code, BitVec.ofNat_toNat, BitVec.setWidth_eq, bitOf_toNat]

theorem formV_get (slot : BitVec 6) : formV [] (Form.get slot).code.vals = some (.get slot) := by
  have some' : 0x400 + slot.toNat ≠ 0 := Nat.ne_of_gt (Nat.add_pos_left (by decide) _)
  have hi : 0x400 + slot.toNat < 0x440 := Nat.add_lt_add_left slot.isLt 0x400
  rw [vals_get, formV_slot some', if_pos ⟨rfl, rfl, rfl, rfl, rfl, rfl, rfl, rfl⟩, if_pos ⟨Nat.le_add_right .., hi, rfl⟩,
    ofNat_above (w := 6) (b := 0x400) (by decide)]

theorem formV_save (age : BitVec 5) (slot : BitVec 6) : formV [] (Form.save age slot).code.vals = some (.save age slot) := by
  have some' : 0x800 + slot.toNat ≠ 0 := Nat.ne_of_gt (Nat.add_pos_left (by decide) _)
  have lo : 0x800 ≤ 0x800 + slot.toNat := Nat.le_add_right ..
  have hi : 0x800 + slot.toNat < 0x840 := Nat.add_lt_add_left slot.isLt 0x800
  have get : ¬ (0x400 ≤ 0x800 + slot.toNat ∧ 0x800 + slot.toNat < 0x440 ∧ age.toNat = 0) :=
    fun ⟨_, h, _⟩ => Nat.not_lt.mpr (Nat.le_trans (by decide) lo) h
  rw [vals_save, formV_slot some', if_pos ⟨rfl, rfl, rfl, rfl, rfl, rfl, rfl, rfl⟩, if_neg get, if_pos ⟨lo, hi, age.isLt⟩,
    ofNat_above (w := 6) (b := 0x800) (by decide), BitVec.ofNat_toNat, BitVec.setWidth_eq]

theorem formV_drop (n : BitVec 5) : formV [] (Form.drop n).code.vals = some (.drop n) := by
  have hi : 0xC00 + n.toNat < 0xC20 := Nat.add_lt_add_left n.isLt 0xC00
  rw [vals_drop, formV_count, if_pos ⟨rfl, rfl, rfl, rfl, rfl, rfl, rfl, rfl, rfl, Nat.le_add_right .., hi⟩,
    ofNat_above (w := 5) (b := 0xC00) (by decide)]

/-- A save slot's number stands in a V instruction of opcode 0x00 that is GET or SAVE. -/
theorem code_of_slot {lits : List Word} {ty nf rm sat nar s0 s1 s2 grade : Nat} {f : Form} (h2 : s2 ≠ 0)
    (h : formV lits [1, 0, ty, lits.length, nf, rm, sat, nar, s0, s1, s2, 0, grade] = some f) :
    f.code = ⟨layoutV, [1, 0, ty, lits.length, nf, rm, sat, nar, s0, s1, s2, 0, grade], lits⟩ := by
  rw [formV_slot h2] at h
  split at h
  · next zero =>
    obtain ⟨hty, hnf, hrm, hsat, hnar, h1, hgrade, rfl⟩ := zero
    split at h
    · next slot =>
      obtain ⟨lo, hi, h0⟩ := slot
      cases h
      refine code_eq ?_
      simp only [toNat_ofNat_above (w := 6) (b := 0x400) (by decide) lo hi, hty, hnf, hrm, hsat, hnar, h0, h1, hgrade, List.length_nil]
    · split at h
      · next slot =>
        obtain ⟨lo, hi, hage⟩ := slot
        cases h
        refine code_eq ?_
        simp only [toNat_ofNat_above (w := 6) (b := 0x800) (by decide) lo hi, toNat_ofNat_of_lt (w := 5) hage, hty, hnf, hrm, hsat, hnar,
          h1, hgrade, List.length_nil]
      · cases h
  · cases h

theorem code_of_count {lits : List Word} {ty nf rm sat nar s0 s1 s2 grade : Nat} {f : Form}
    (h : formV lits [1, 2, ty, lits.length, nf, rm, sat, nar, s0, s1, s2, 0, grade] = some f) :
    f.code = ⟨layoutV, [1, 2, ty, lits.length, nf, rm, sat, nar, s0, s1, s2, 0, grade], lits⟩ := by
  rw [formV_count] at h
  split at h
  · next zero =>
    obtain ⟨hty, hnf, hrm, hsat, hnar, h1, h2, hgrade, rfl, lo, hi⟩ := zero
    cases h
    refine code_eq ?_
    simp only [toNat_ofNat_above (w := 5) (b := 0xC00) (by decide) lo hi, hty, hnf, hrm, hsat, hnar, h1, h2, hgrade, List.length_nil]
  · cases h

theorem code_of_formV {lits : List Word} {vs : List Nat} {f : Form} (hf : Fits layoutV vs) (hc : vs[0]? = some 1)
    (hl : vs[3]? = some lits.length) (h : formV lits vs = some f) : f.code = ⟨layoutV, vs, lits⟩ := by
  refine hf.elim (P := fun vs => vs[0]? = some 1 → vs[3]? = some lits.length → formV lits vs = some f → f.code = ⟨layoutV, vs, lits⟩)
    ?_ hc hl h
  clear hf hc hl h
  intro _ _ op _ ty _ nlits _ nf hnf rm _ sat hsat nar hnar s0 _ s1 _ s2 _ rsv _ grade hgrade hc hl h
  cases hc; cases hl
  by_cases hrsv : rsv = 0
  · subst hrsv
    by_cases h0 : op = 0 ∧ s2 ≠ 0
    · obtain ⟨rfl, hs⟩ := h0
      exact code_of_slot hs h
    by_cases h2 : op = 2
    · subst h2
      exact code_of_count h
    rw [formV_other h0 h2] at h
    refine Ty.isCode.bind h fun t ht h => ?_
    refine Rm.isCode.bind h fun r hr h => ?_
    refine Operand.isCode.bind h fun a ha h => ?_
    refine Operand.isCode.bind h fun b hb h => ?_
    refine Operand.isCode.bind h fun c hc h => ?_
    cases h
    refine code_eq ?_
    simp only [ht, hr, ha, hb,
      hc, toNat_bitOf hsat, toNat_bitOf hnar, toNat_bitOf hgrade, toNat_ofNat_of_lt hnf]
  · rw [formV_reserved hrsv] at h
    cases h

theorem fits_codeI {op : Nat} {f : IFields} (hop : op < 2 ^ 8) : Fits layoutI (Form.i op f).code.vals :=
  .cons (by decide) <| .cons hop <| .cons (Ty.isCode.lt _) <| .cons (Operand.isCode.lt _) <| .cons (Operand.isCode.lt _) <|
  .cons (Rm.isCode.lt _) <| .cons (Bool.toNat_lt _) <| .cons (by decide) <| .cons f.imm.isLt .nil

theorem formI_code (op : Nat) (f : IFields) : formI (Form.i op f).code.vals = some (.i op f) := by
  rw [vals_i, formI_fields]
  simp only [Option.bind_some, ne_eq, not_true, if_false, Ty.isCode.ofCode_code, Rm.isCode.ofCode_code, Operand.ofCode_code,
    BitVec.ofNat_toNat, BitVec.setWidth_eq, bitOf_toNat]

theorem code_of_formI {vs : List Nat} {f : Form} (hf : Fits layoutI vs) (hc : vs[0]? = some 2) (h : formI vs = some f) :
    f.code = ⟨layoutI, vs, []⟩ := by
  refine hf.elim (P := fun vs => vs[0]? = some 2 → formI vs = some f → f.code = ⟨layoutI, vs, []⟩) ?_ hc h
  clear hf hc h
  intro _ _ op _ ty _ s0 _ s1 _ rm _ sat hsat rsv _ imm himm hc h
  cases hc
  rw [formI_fields] at h
  refine Ty.isCode.bind h fun t ht h => ?_
  refine Operand.isCode.bind h fun a ha h => ?_
  refine Operand.isCode.bind h fun b hb h => ?_
  refine Rm.isCode.bind h fun r hr h => ?_
  obtain ⟨rfl, rfl⟩ := of_reserved h
  refine code_eq ?_
  simp only [ht, hr, ha, hb,
    toNat_bitOf hsat, toNat_ofNat_of_lt himm]

theorem fits_codeS {op : Nat} {f : SFields} (hop : op < 2 ^ 8) (hl : f.lits.length < 2 ^ 2) : Fits layoutS (Form.s op f).code.vals :=
  .cons (by decide) <| .cons hop <| .cons (Ty.isCode.lt _) <| .cons hl <| .cons f.dst.isLt <| .cons (Operand.isCode.lt _) <|
  .cons (Operand.isCode.lt _) <| .cons f.cond.isLt <| .cons f.imm.isLt .nil

theorem formS_code (op : Nat) (f : SFields) : formS f.lits (Form.s op f).code.vals = some (.s op f) := by
  rw [vals_s, formS_fields]
  simp only [Option.bind_some, Ty.isCode.ofCode_code, Operand.ofCode_code, BitVec.ofNat_toNat, BitVec.setWidth_eq]

theorem code_of_formS {lits : List Word} {vs : List Nat} {f : Form} (hf : Fits layoutS vs) (hc : vs[0]? = some 3)
    (hl : vs[3]? = some lits.length) (h : formS lits vs = some f) : f.code = ⟨layoutS, vs, lits⟩ := by
  refine hf.elim (P := fun vs => vs[0]? = some 3 → vs[3]? = some lits.length → formS lits vs = some f → f.code = ⟨layoutS, vs, lits⟩)
    ?_ hc hl h
  clear hf hc hl h
  intro _ _ op _ ty _ nlits _ dst hdst s0 _ s1 _ cond hcond imm himm hc hl h
  cases hc; cases hl
  rw [formS_fields] at h
  refine Ty.isCode.bind h fun t ht h => ?_
  refine Operand.isCode.bind h fun a ha h => ?_
  refine Operand.isCode.bind h fun b hb h => ?_
  cases h
  refine code_eq ?_
  simp only [ht, ha, hb, toNat_ofNat_of_lt hdst,
    toNat_ofNat_of_lt hcond, toNat_ofNat_of_lt himm]

theorem fits_codeM {op : Nat} {f : MFields} (hop : op < 2 ^ 6) : Fits layoutM (Form.m op f).code.vals :=
  .cons (by decide) <| .cons hop <| .cons (Size.isCode.lt _) <| .cons (Space.isCode.lt _) <| .cons (Order.isCode.lt _) <|
  .cons (Scope.isCode.lt _) <| .cons (Operand.isCode.lt _) <| .cons (Operand.isCode.lt _) <| .cons (Bool.toNat_lt _) <|
  .cons (Bool.toNat_lt _) <| .cons (Hint.isCode.lt _) <| .cons (by decide) <| .cons f.offset.isLt .nil

theorem formM_code (op : Nat) (f : MFields) : formM (Form.m op f).code.vals = some (.m op f) := by
  rw [vals_m, formM_fields]
  simp only [Option.bind_some, ne_eq, not_true, if_false, Size.isCode.ofCode_code, Space.isCode.ofCode_code, Order.isCode.ofCode_code,
    Scope.isCode.ofCode_code, Hint.isCode.ofCode_code, Operand.ofCode_code, BitVec.ofNat_toNat, BitVec.setWidth_eq, bitOf_toNat]

theorem code_of_formM {vs : List Nat} {f : Form} (hf : Fits layoutM vs) (hc : vs[0]? = some 4) (h : formM vs = some f) :
    f.code = ⟨layoutM, vs, []⟩ := by
  refine hf.elim (P := fun vs => vs[0]? = some 4 → formM vs = some f → f.code = ⟨layoutM, vs, []⟩) ?_ hc h
  clear hf hc h
  intro _ _ op _ size _ space _ order _ scope _ addr _ data _ sx hsx fs hfs hint _ rsv _ off hoff hc h
  cases hc
  rw [formM_fields] at h
  refine Size.isCode.bind h fun sz hsz h => ?_
  refine Space.isCode.bind h fun sp hsp h => ?_
  refine Order.isCode.bind h fun or hor h => ?_
  refine Scope.isCode.bind h fun sc hsc h => ?_
  refine Operand.isCode.bind h fun a ha h => ?_
  refine Operand.isCode.bind h fun d hd h => ?_
  refine Hint.isCode.bind h fun hi hhi h => ?_
  obtain ⟨rfl, rfl⟩ := of_reserved h
  refine code_eq ?_
  simp only [hsz, hsp, hor,
    hsc, hhi, ha, hd,
    toNat_bitOf hsx, toNat_bitOf hfs, toNat_ofNat_of_lt hoff]

theorem fits_codeE {op : Nat} {f : EFields} (hop : op < 2 ^ 6) : Fits layoutE (Form.e op f).code.vals :=
  .cons (by decide) <| .cons hop <| .cons f.hdst.isLt <| .cons f.blk.isLt <| .cons f.var.isLt <| .cons f.imm.isLt .nil

theorem formE_code (op : Nat) (f : EFields) : formE (Form.e op f).code.vals = some (.e op f) := by
  unfold formE
  simp only [vals_e, BitVec.ofNat_toNat, BitVec.setWidth_eq]

theorem code_of_formE {vs : List Nat} {f : Form} (hf : Fits layoutE vs) (hc : vs[0]? = some 5) (h : formE vs = some f) :
    f.code = ⟨layoutE, vs, []⟩ := by
  refine hf.elim (P := fun vs => vs[0]? = some 5 → formE vs = some f → f.code = ⟨layoutE, vs, []⟩) ?_ hc h
  clear hf hc h
  intro _ _ op _ hdst hh blk hb var hv imm himm hc h
  cases hc; cases h
  refine code_eq ?_
  simp only [toNat_ofNat_of_lt hh, toNat_ofNat_of_lt hb, toNat_ofNat_of_lt hv, toNat_ofNat_of_lt himm]

theorem fits_codeX {op : Nat} {f : XFields} (hop : op < 2 ^ 6) : Fits layoutX (Form.x op f).code.vals :=
  .cons (by decide) <| .cons hop <| .cons f.slotA.isLt <| .cons f.slotD.isLt <| .cons f.scale.isLt <| .cons f.sect.isLt <|
  .cons f.fmtA.isLt <| .cons f.fmtB.isLt <| .cons f.flags.isLt <| .cons f.soff.isLt <| .cons f.count.isLt .nil

theorem formX_code (op : Nat) (f : XFields) : formX (Form.x op f).code.vals = some (.x op f) := by
  unfold formX
  simp only [vals_x, BitVec.ofNat_toNat, BitVec.setWidth_eq]

theorem code_of_formX {vs : List Nat} {f : Form} (hf : Fits layoutX vs) (hc : vs[0]? = some 6) (h : formX vs = some f) :
    f.code = ⟨layoutX, vs, []⟩ := by
  refine hf.elim (P := fun vs => vs[0]? = some 6 → formX vs = some f → f.code = ⟨layoutX, vs, []⟩) ?_ hc h
  clear hf hc h
  intro _ _ op _ a ha d hd scale hscale sect hsect fa hfa fb hfb fl hfl soff hsoff count hcount hc h
  cases hc; cases h
  refine code_eq ?_
  simp only [toNat_ofNat_of_lt ha, toNat_ofNat_of_lt hd, toNat_ofNat_of_lt hscale, toNat_ofNat_of_lt hsect,
    toNat_ofNat_of_lt hfa, toNat_ofNat_of_lt hfb, toNat_ofNat_of_lt hfl, toNat_ofNat_of_lt hsoff, toNat_ofNat_of_lt hcount]

theorem fits_codeG {op : Nat} {f : GFields} (hop : op < 2 ^ 8) : Fits layoutG (Form.g op f).code.vals :=
  .cons (by decide) <| .cons hop <| .cons (Ty.isCode.lt _) <| .cons (Operand.isCode.lt _) <| .cons (Operand.isCode.lt _) <|
  .cons f.sdst.isLt <| .cons f.imm.isLt .nil

theorem formG_code (op : Nat) (f : GFields) : formG (Form.g op f).code.vals = some (.g op f) := by
  rw [vals_g, formG_fields]
  simp only [Option.bind_some, Ty.isCode.ofCode_code, Operand.ofCode_code, BitVec.ofNat_toNat, BitVec.setWidth_eq]

theorem code_of_formG {vs : List Nat} {f : Form} (hf : Fits layoutG vs) (hc : vs[0]? = some 8) (h : formG vs = some f) :
    f.code = ⟨layoutG, vs, []⟩ := by
  refine hf.elim (P := fun vs => vs[0]? = some 8 → formG vs = some f → f.code = ⟨layoutG, vs, []⟩) ?_ hc h
  clear hf hc h
  intro _ _ op _ ty _ s0 _ s1 _ sdst hsdst imm himm hc h
  cases hc
  rw [formG_fields] at h
  refine Ty.isCode.bind h fun t ht h => ?_
  refine Operand.isCode.bind h fun a ha h => ?_
  refine Operand.isCode.bind h fun b hb h => ?_
  cases h
  refine code_eq ?_
  simp only [ht, ha, hb, toNat_ofNat_of_lt hsdst,
    toNat_ofNat_of_lt himm]

theorem fits_codeY {op : Nat} {f : YFields} (hop : op < 2 ^ 8) : Fits layoutY (Form.y op f).code.vals :=
  .cons (by decide) <| .cons hop <| .cons f.sub.isLt <| .cons (Operand.isCode.lt _) <| .cons f.sidx.isLt <| .cons f.imm.isLt .nil

theorem formY_code (op : Nat) (f : YFields) : formY (Form.y op f).code.vals = some (.y op f) := by
  unfold formY
  simp only [vals_y, Operand.ofCode_code, Option.map_some, BitVec.ofNat_toNat, BitVec.setWidth_eq]

theorem code_of_formY {vs : List Nat} {f : Form} (hf : Fits layoutY vs) (hc : vs[0]? = some 9) (h : formY vs = some f) :
    f.code = ⟨layoutY, vs, []⟩ := by
  refine hf.elim (P := fun vs => vs[0]? = some 9 → formY vs = some f → f.code = ⟨layoutY, vs, []⟩) ?_ hc h
  clear hf hc h
  intro _ _ op _ sub hsub s0 _ sidx hsidx imm himm hc h
  cases hc
  obtain ⟨o, ho, rfl⟩ := Option.map_eq_some_iff.mp h
  refine code_eq ?_
  simp only [Operand.code_of_ofCode ho, toNat_ofNat_of_lt hsub, toNat_ofNat_of_lt hsidx, toNat_ofNat_of_lt himm]

theorem fits_codeP (f : PairFields) : Fits layoutP (Form.pair f).code.vals :=
  .cons (by decide) <| .cons (PairInt.isCode.lt _) <| .cons (Ty.isCode.lt _) <| .cons (Operand.isCode.lt _) <|
  .cons (Operand.isCode.lt _) <| .cons (by decide) <| .cons (Bool.toNat_lt _) <| .cons (by decide) <| .cons (PairFloat.isCode.lt _) <|
  .cons (Ty.isCode.lt _) <| .cons (Operand.isCode.lt _) <| .cons (Operand.isCode.lt _) <| .cons (Rm.isCode.lt _) <|
  .cons (by decide) <| .cons (by decide) .nil

theorem formP_code (f : PairFields) : formP (Form.pair f).code.vals = some (.pair f) := by
  rw [vals_pair, formP_fields]
  simp only [Option.bind_some, ne_eq, not_true, or_self, if_false, PairInt.isCode.ofCode_code, PairFloat.isCode.ofCode_code,
    Ty.isCode.ofCode_code, Rm.isCode.ofCode_code, Operand.ofCode_code, bitOf_toNat]

theorem code_of_formP {vs : List Nat} {f : Form} (hf : Fits layoutP vs) (hc : vs[0]? = some 10) (h : formP vs = some f) :
    f.code = ⟨layoutP, vs, []⟩ := by
  refine hf.elim (P := fun vs => vs[0]? = some 10 → formP vs = some f → f.code = ⟨layoutP, vs, []⟩) ?_ hc h
  clear hf hc h
  intro _ _ op0 _ ty0 _ a0 _ b0 _ r0 _ sat hsat r1 _ op1 _ ty1 _ a1 _ b1 _ rm _ r2 _ r3 _ hc h
  cases hc
  rw [formP_fields] at h
  refine PairInt.isCode.bind h fun o0 ho0 h => ?_
  refine Ty.isCode.bind h fun t0 ht0 h => ?_
  refine Operand.isCode.bind h fun x0 hx0 h => ?_
  refine Operand.isCode.bind h fun y0 hy0 h => ?_
  refine PairFloat.isCode.bind h fun o1 ho1 h => ?_
  refine Ty.isCode.bind h fun t1 ht1 h => ?_
  refine Operand.isCode.bind h fun x1 hx1 h => ?_
  refine Operand.isCode.bind h fun y1 hy1 h => ?_
  refine Rm.isCode.bind h fun r hr h => ?_
  split at h
  · cases h
  next zero =>
  cases h
  simp only [ne_eq, not_or, not_not] at zero
  obtain ⟨h0, h1, h2, h3⟩ := zero
  refine code_eq ?_
  simp only [h0, h1, h2, h3, ho0, ht0, hx0, hy0,
    toNat_bitOf hsat, ho1, ht1, hx1,
    hy1, hr]

/-! ## Branches, whose layout is their opcode's (R70) -/

theorem layoutB_cases : ∀ op, layoutB op = none ∨
    (layoutB op = some layoutBw ∧ (op = 0x00 ∨ op = 0x09)) ∨ (layoutB op = some layoutBz ∧ (op = 0x01 ∨ op = 0x02)) ∨
    (layoutB op = some layoutBs ∧ (op = 0x03 ∨ op = 0x04 ∨ op = 0x05)) ∨ (layoutB op = some layoutJoin ∧ op = 0x08) ∨
    (layoutB op = some layoutCalli ∧ op = 0x0A) ∨ (layoutB op = some layoutRet ∧ op = 0x0B) ∨
    (layoutB op = some layoutB0 ∧ (op = 0x0C ∨ op = 0x0D ∨ op = 0x0E ∨ op = 0x11)) ∨
    (layoutB op = some layoutBi ∧ (op = 0x0F ∨ op = 0x10)) :=
  of_below (n := 0x12) (by
    iterate 18 refine below_succ ?_ (by decide)
    exact below_zero) fun _ => .inl rfl

theorem layoutB_some {op : Nat} {l : List Nat} (h : layoutB op = some l) :
    (l = layoutBw ∧ (op = 0x00 ∨ op = 0x09)) ∨ (l = layoutBz ∧ (op = 0x01 ∨ op = 0x02)) ∨
    (l = layoutBs ∧ (op = 0x03 ∨ op = 0x04 ∨ op = 0x05)) ∨ (l = layoutJoin ∧ op = 0x08) ∨ (l = layoutCalli ∧ op = 0x0A) ∨
    (l = layoutRet ∧ op = 0x0B) ∨ (l = layoutB0 ∧ (op = 0x0C ∨ op = 0x0D ∨ op = 0x0E ∨ op = 0x11)) ∨
    (l = layoutBi ∧ (op = 0x0F ∨ op = 0x10)) := by
  simpa only [h, Option.some.injEq, reduceCtorEq, false_or] using layoutB_cases op

theorem formB_bw {op : Nat} (h : op = 0x00 ∨ op = 0x09) (c o n rsv off : Nat) :
    formB op [c, o, n, rsv, off] = if rsv ≠ 0 then none else some (.bw op (BitVec.ofNat 4 n) (BitVec.ofNat 32 off)) := by
  rcases h with rfl | rfl <;> rfl

theorem formB_bz {op : Nat} (h : op = 0x01 ∨ op = 0x02) (c o x j t : Nat) :
    formB op [c, o, x, j, t] = (Operand.ofCode x).map fun a => .bz op a (BitVec.ofNat 22 j) (BitVec.ofNat 20 t) := by
  rcases h with rfl | rfl <;> rfl

theorem formB_bs {op : Nat} (h : op = 0x03 ∨ op = 0x04 ∨ op = 0x05) (c o r rsv off : Nat) :
    formB op [c, o, r, rsv, off] = if rsv ≠ 0 then none else some (.bs op (BitVec.ofNat 7 r) (BitVec.ofNat 32 off)) := by
  rcases h with rfl | rfl | rfl <;> rfl

theorem formB_join (c o d n e0 e1 e2 e3 e4 e5 rsv : Nat) : formB 0x08 [c, o, d, n, e0, e1, e2, e3, e4, e5, rsv] =
    if rsv ≠ 0 then none
    else some (.join ⟨BitVec.ofNat 8 d, BitVec.ofNat 3 n, BitVec.ofNat 5 e0, BitVec.ofNat 5 e1, BitVec.ofNat 5 e2, BitVec.ofNat 5 e3,
      BitVec.ofNat 5 e4, BitVec.ofNat 5 e5⟩) := rfl

theorem formB_calli (c o n idx rsv sig : Nat) : formB 0x0A [c, o, n, idx, rsv, sig] = (Operand.ofCode idx).bind fun a =>
    if rsv ≠ 0 then none else some (.calli (BitVec.ofNat 4 n) a (BitVec.ofNat 32 sig)) := by
  change (match Operand.ofCode idx with
    | some a => if rsv ≠ 0 then none else some (Form.calli (BitVec.ofNat 4 n) a (BitVec.ofNat 32 sig))
    | none => none) = _
  cases Operand.ofCode idx <;> rfl

theorem formB_ret (c o k rsv : Nat) : formB 0x0B [c, o, k, rsv] = if rsv ≠ 0 then none else some (.ret (BitVec.ofNat 4 k)) := rfl

theorem formB_b0 {op : Nat} (h : op = 0x0C ∨ op = 0x0D ∨ op = 0x0E ∨ op = 0x11) (c o rsv : Nat) :
    formB op [c, o, rsv] = if rsv ≠ 0 then none else some (.b0 op) := by
  rcases h with rfl | rfl | rfl | rfl <;> rfl

theorem formB_bi {op : Nat} (h : op = 0x0F ∨ op = 0x10) (c o rsv imm : Nat) :
    formB op [c, o, rsv, imm] = if rsv ≠ 0 then none else some (.bi op (BitVec.ofNat 16 imm)) := by
  rcases h with rfl | rfl <;> rfl

/-- Field values of a branch that make up a form are those that the form encodes to. -/
def BranchCoded (op : Nat) (l : List Nat) (f : Form) (vs : List Nat) : Prop :=
  vs[0]? = some 7 → vs[1]? = some op → formB op vs = some f → f.code = ⟨l, vs, []⟩

theorem code_of_formB {op : Nat} {l vs : List Nat} {f : Form} (hl : layoutB op = some l) (hf : Fits l vs) (hc : vs[0]? = some 7)
    (ho : vs[1]? = some op) (h : formB op vs = some f) : f.code = ⟨l, vs, []⟩ := by
  obtain ⟨rfl, hop⟩ | ⟨rfl, hop⟩ | ⟨rfl, hop⟩ | ⟨rfl, rfl⟩ | ⟨rfl, rfl⟩ | ⟨rfl, rfl⟩ | ⟨rfl, hop⟩ | ⟨rfl, hop⟩ :=
    layoutB_some hl
  · refine hf.elim (P := BranchCoded op layoutBw f) ?_ hc ho h
    clear hf hc ho h
    intro _ _ o _ n hn rsv _ off hoff hc ho h
    cases hc; cases ho
    rw [formB_bw hop] at h
    obtain ⟨rfl, rfl⟩ := of_reserved h
    refine code_eq ?_
    simp only [toNat_ofNat_of_lt hn, toNat_ofNat_of_lt hoff]
  · refine hf.elim (P := BranchCoded op layoutBz f) ?_ hc ho h
    clear hf hc ho h
    intro _ _ o _ a _ j hj t ht hc ho h
    cases hc; cases ho
    rw [formB_bz hop] at h
    obtain ⟨a, ha, rfl⟩ := Option.map_eq_some_iff.mp h
    refine code_eq ?_
    simp only [Operand.code_of_ofCode ha, toNat_ofNat_of_lt hj, toNat_ofNat_of_lt ht]
  · refine hf.elim (P := BranchCoded op layoutBs f) ?_ hc ho h
    clear hf hc ho h
    intro _ _ o _ r hr rsv _ off hoff hc ho h
    cases hc; cases ho
    rw [formB_bs hop] at h
    obtain ⟨rfl, rfl⟩ := of_reserved h
    refine code_eq ?_
    simp only [toNat_ofNat_of_lt hr, toNat_ofNat_of_lt hoff]
  · refine hf.elim (P := BranchCoded 0x08 layoutJoin f) ?_ hc ho h
    clear hf hc ho h
    intro _ _ o _ d hd n hn e0 h0 e1 h1 e2 h2 e3 h3 e4 h4 e5 h5 rsv _ hc ho h
    cases hc; cases ho
    rw [formB_join] at h
    obtain ⟨rfl, rfl⟩ := of_reserved h
    refine code_eq ?_
    simp only [toNat_ofNat_of_lt hd, toNat_ofNat_of_lt hn, toNat_ofNat_of_lt h0, toNat_ofNat_of_lt h1,
      toNat_ofNat_of_lt h2, toNat_ofNat_of_lt h3, toNat_ofNat_of_lt h4, toNat_ofNat_of_lt h5]
  · refine hf.elim (P := BranchCoded 0x0A layoutCalli f) ?_ hc ho h
    clear hf hc ho h
    intro _ _ o _ n hn idx _ rsv _ sig hs hc ho h
    cases hc; cases ho
    rw [formB_calli] at h
    obtain ⟨a, ha, h⟩ := Option.bind_eq_some_iff.mp h
    obtain ⟨rfl, rfl⟩ := of_reserved h
    refine code_eq ?_
    simp only [Operand.code_of_ofCode ha, toNat_ofNat_of_lt hn, toNat_ofNat_of_lt hs]
  · refine hf.elim (P := BranchCoded 0x0B layoutRet f) ?_ hc ho h
    clear hf hc ho h
    intro _ _ o _ k hk rsv _ hc ho h
    cases hc; cases ho
    rw [formB_ret] at h
    obtain ⟨rfl, rfl⟩ := of_reserved h
    refine code_eq ?_
    simp only [toNat_ofNat_of_lt hk]
  · refine hf.elim (P := BranchCoded op layoutB0 f) ?_ hc ho h
    clear hf hc ho h
    intro _ _ o _ rsv _ hc ho h
    cases hc; cases ho
    rw [formB_b0 hop] at h
    obtain ⟨rfl, rfl⟩ := of_reserved h
    rfl
  · refine hf.elim (P := BranchCoded op layoutBi f) ?_ hc ho h
    clear hf hc ho h
    intro _ _ o _ rsv _ imm himm hc ho h
    cases hc; cases ho
    rw [formB_bi hop] at h
    obtain ⟨rfl, rfl⟩ := of_reserved h
    refine code_eq ?_
    simp only [toNat_ofNat_of_lt himm]

/-! ## Nests, whose extents and strides are lists (R75) -/

theorem fits_append {as bs cs ds : List Nat} (h : Fits as bs) (h' : Fits cs ds) : Fits (as ++ cs) (bs ++ ds) := List.rel_append h h'

theorem fits_append_left {as cs vs : List Nat} (h : Fits (as ++ cs) vs) : ∃ bs ds, Fits as bs ∧ Fits cs ds ∧ vs = bs ++ ds := by
  induction as generalizing vs with
  | nil => exact ⟨[], vs, Fits.nil, h, rfl⟩
  | cons a as ih =>
    obtain _ | ⟨hv, ht⟩ := h
    obtain ⟨bs, ds, hb, hd, rfl⟩ := ih ht
    exact ⟨_ :: bs, ds, .cons hv hb, hd, rfl⟩

theorem fits_replicate {w n : Nat} {l : List (BitVec w)} (h : l.length = n) : Fits (List.replicate n w) (l.map (·.toNat)) := by
  subst h
  induction l with
  | nil => exact Fits.nil
  | cons b l ih => exact .cons b.isLt ih

theorem map_toNat_map_ofNat {w n : Nat} {vs : List Nat} (h : Fits (List.replicate n w) vs) :
    (vs.map (BitVec.ofNat w ·)).map BitVec.toNat = vs := by
  induction n generalizing vs with
  | zero => cases h; rfl
  | succ n ih =>
    obtain _ | ⟨hv, ht⟩ := h
    rw [List.map_cons, List.map_cons, ih ht, toNat_ofNat_of_lt hv]

theorem map_ofNat_map_toNat {w : Nat} (l : List (BitVec w)) : (l.map (·.toNat)).map (BitVec.ofNat w ·) = l := by
  simp [Function.comp_def]

theorem fits_codeN {f : NestFields} (he : f.extents.length = 5) (hs : f.strides.length = 15) : Fits layoutN (Form.nest f).code.vals :=
  have elemType : (if f.float then 3 else 1) < 2 ^ 4 := by split <;> decide
  have first : Fits [4, 6, 4, 3, 7, 7, 7, 1, 2, 1, 2] [11, f.op.code, if f.float then 3 else 1, f.levels.toNat, f.sd.toNat, f.sa.toNat,
      f.sb.toNat, f.narrow.toNat, f.rm.code, f.bscalar.toNat, f.nfmt2.toNat] :=
    .cons (by decide) <| .cons (NestOp.isCode.lt _) <| .cons elemType <| .cons f.levels.isLt <| .cons f.sd.isLt <| .cons f.sa.isLt <|
    .cons f.sb.isLt <| .cons (Bool.toNat_lt _) <| .cons (Rm.isCode.lt _) <| .cons (Bool.toNat_lt _) <| .cons f.nfmt2.isLt .nil
  fits_append (fits_append (fits_append first (fits_replicate he)) (fits_replicate hs)) (.cons (by decide) .nil)

/-- The parts of a nest's last fields: extents, strides and the reserved bits. -/
theorem nest_parts {es ss : List Nat} {z : Nat} (he : es.length = 5) (hs : ss.length = 15) :
    (es ++ ss ++ [z]).take 5 = es ∧ ((es ++ ss ++ [z]).drop 5).take 15 = ss ∧ ((es ++ ss ++ [z]).drop 20).headD 1 = z := by
  refine ⟨?_, ?_, ?_⟩
  · rw [List.append_assoc, List.take_left' he]
  · rw [List.append_assoc, List.drop_left' he, List.take_left' hs]
  · rw [List.drop_left' (by rw [List.length_append, he, hs])]
    rfl

theorem formN_code {f : NestFields} (he : f.extents.length = 5) (hs : f.strides.length = 15) :
    formN (Form.nest f).code.vals = some (.nest f) := by
  obtain ⟨pe, ps, pz⟩ := nest_parts (es := f.extents.map (·.toNat)) (ss := f.strides.map (·.toNat)) (z := 0) (by simp [he]) (by simp [hs])
  rw [List.append_assoc] at pe ps pz
  have float : ((if f.float then 3 else 1) == 3) = f.float ∧ ¬ ((if f.float then 3 else 1) ≠ 1 ∧ (if f.float then 3 else 1) ≠ 3) := by
    cases f.float <;> decide
  unfold formN
  simp only [vals_nest, List.cons_append, List.nil_append, List.append_assoc, NestOp.isCode.ofCode_code, Rm.isCode.ofCode_code,
    pe, ps, pz, float, ne_eq, not_true, or_self, if_false, map_ofNat_map_toNat, BitVec.ofNat_toNat, BitVec.setWidth_eq, bitOf_toNat]

theorem code_of_formN {vs : List Nat} {f : Form} (hf : Fits layoutN vs) (hc : vs[0]? = some 11) (h : formN vs = some f) :
    f.code = ⟨layoutN, vs, []⟩ := by
  obtain ⟨upto, last, hupto, hlast, rfl⟩ := fits_append_left hf
  obtain ⟨front, ss, hfront, hss, rfl⟩ := fits_append_left hupto
  obtain ⟨first, es, hfirst, hes, rfl⟩ := fits_append_left hfront
  obtain _ | ⟨-, _ | -⟩ := hlast
  next z =>
  obtain ⟨pe, ps, pz⟩ := nest_parts (es := es) (ss := ss) (z := z) (by simpa using hes.length_eq.symm) (by simpa using hss.length_eq.symm)
  refine hfirst.elim (P := fun first => (first ++ es ++ ss ++ [z])[0]? = some 11 → formN (first ++ es ++ ss ++ [z]) = some f →
    f.code = ⟨layoutN, first ++ es ++ ss ++ [z], []⟩) ?_ hc h
  clear hf hupto hfront hfirst hc h
  intro _ _ op _ et _ lv hlv sd hsd sa hsa sb hsb nar hnar rm _ bs hbs nf hnf hc h
  cases hc
  change (match NestOp.ofCode op, Rm.ofCode rm with
    | some o, some r =>
      if (et ≠ 1 ∧ et ≠ 3) ∨ ((es ++ ss ++ [z]).drop 20).headD 1 ≠ 0 then none
      else some (Form.nest ⟨o, et == 3, BitVec.ofNat 3 lv, BitVec.ofNat 7 sd, BitVec.ofNat 7 sa, BitVec.ofNat 7 sb, bitOf nar, r, bitOf bs,
        BitVec.ofNat 2 nf, ((es ++ ss ++ [z]).take 5).map (BitVec.ofNat 12), (((es ++ ss ++ [z]).drop 5).take 15).map (BitVec.ofNat 10)⟩)
    | _, _ => none) = some f at h
  rw [pe, ps, pz] at h
  split at h
  · next o r ho hr =>
    split at h
    · cases h
    next sound =>
    obtain ⟨float, rfl⟩ : (et = 1 ∨ et = 3) ∧ z = 0 := by omega
    cases h
    have het : (if et == 3 then 3 else 1) = et := by obtain rfl | rfl := float <;> rfl
    refine code_eq ?_
    simp only [NestOp.isCode.code_of_ofCode ho, Rm.isCode.code_of_ofCode hr, het, toNat_ofNat_of_lt hlv, toNat_ofNat_of_lt hsd,
      toNat_ofNat_of_lt hsa, toNat_ofNat_of_lt hsb, toNat_bitOf hnar, toNat_bitOf hbs, toNat_ofNat_of_lt hnf,
      map_toNat_map_ofNat hes, map_toNat_map_ofNat hss]
  · cases h

end Sys2Proof
end

