-- ==== Sys2Proof/Proofs/Encoding.lean ====
section
/-! PROOF. Decoding and encoding are each other's inverse (O54, O55), and words of the spec decode (O56). -/

namespace Sys2Proof

-- One proof at a time: in parallel, the stacks of the threads exceed the memory that the check allows.
set_option Elab.async false

/-! ## Values that hold a form -/

/-- A value of `n` units and literal words that hold a form: the class is in the value's highest bits (R37, R47). -/
structure Form.Held (f : Form) (n x : Nat) (lits : List Word) : Prop where
  units : classUnits (x / 2 ^ (64 * n - 4)) = some n
  count : litCount (x / 2 ^ (64 * n - 4)) x = lits.length
  form : formOf (x / 2 ^ (64 * n - 4)) x lits = some f

theorem layoutB_shape {op : Nat} {l : List Nat} (h : layoutB op = some l) : ∃ t, l = 4 :: 6 :: t ∧ t.sum = 54 := by
  obtain ⟨rfl, -⟩ | ⟨rfl, -⟩ | ⟨rfl, -⟩ | ⟨rfl, -⟩ | ⟨rfl, -⟩ | ⟨rfl, -⟩ | ⟨rfl, -⟩ | ⟨rfl, -⟩ := layoutB_some h
  all_goals exact ⟨_, rfl, rfl⟩

theorem litCount_none {cls : Nat} (h : cls ≠ 1 ∧ cls ≠ 3) (x : Nat) : litCount cls x = 0 := if_neg (by omega)

/-- The literal count of classes V and S is their fourth field. -/
theorem litCount_unpackBits {l : List Nat} {cls x : Nat} (hcls : cls = 1 ∨ cls = 3) (hl : l = layoutV ∨ l = layoutS) :
    (unpackBits l x)[3]? = some (litCount cls x) := by
  rw [litCount, if_pos hcls]
  rcases hl with rfl | rfl <;> simp [unpackBits, layoutV, layoutS]

theorem litCount_field {l : List Nat} {cls x n : Nat} (hcls : cls = 1 ∨ cls = 3) (hl : l = layoutV ∨ l = layoutS)
    (h : (unpackBits l x)[3]? = some n) : litCount cls x = n :=
  Option.some.inj ((litCount_unpackBits hcls hl).symm.trans h)

theorem layoutB_head {op : Nat} {l : List Nat} (hl : layoutB op = some l) : l[0]? = some 4 ∧ l.sum = 64 * 1 := by
  obtain ⟨t, rfl, ht⟩ := layoutB_shape hl
  simp [ht]

/-- The opcode of class B is its second field. -/
theorem opcode_unpackBits {op : Nat} {l : List Nat} (hl : layoutB op = some l) (x : Nat) :
    (unpackBits l x)[1]? = some (x / 2 ^ 54 % 64) := by
  obtain ⟨t, rfl, ht⟩ := layoutB_shape hl
  simp [unpackBits, ht]

/-! The form of a value, class by class. -/

theorem formOf_V (x : Nat) (lits : List Word) : formOf 1 x lits = formV lits (unpackBits layoutV x) := rfl
theorem formOf_I (x : Nat) (lits : List Word) : formOf 2 x lits = formI (unpackBits layoutI x) := rfl
theorem formOf_S (x : Nat) (lits : List Word) : formOf 3 x lits = formS lits (unpackBits layoutS x) := rfl
theorem formOf_M (x : Nat) (lits : List Word) : formOf 4 x lits = formM (unpackBits layoutM x) := rfl
theorem formOf_E (x : Nat) (lits : List Word) : formOf 5 x lits = formE (unpackBits layoutE x) := rfl
theorem formOf_X (x : Nat) (lits : List Word) : formOf 6 x lits = formX (unpackBits layoutX x) := rfl
theorem formOf_G (x : Nat) (lits : List Word) : formOf 8 x lits = formG (unpackBits layoutG x) := rfl
theorem formOf_Y (x : Nat) (lits : List Word) : formOf 9 x lits = formY (unpackBits layoutY x) := rfl
theorem formOf_P (x : Nat) (lits : List Word) : formOf 10 x lits = formP (unpackBits layoutP x) := rfl
theorem formOf_N (x : Nat) (lits : List Word) : formOf 11 x lits = formN (unpackBits layoutN x) := rfl

theorem formOf_B {op x : Nat} {l : List Nat} (hl : layoutB op = some l) (hop : x / 2 ^ 54 % 64 = op) :
    formOf 7 x [] = formB op (unpackBits l x) := by
  change (match layoutB (x / 2 ^ 54 % 64) with
    | some l => formB (x / 2 ^ 54 % 64) (unpackBits l x)
    | none => none) = _
  rw [hop, hl]

theorem formOf_B_none {x : Nat} (hl : layoutB (x / 2 ^ 54 % 64) = none) : formOf 7 x [] = none := by
  change (match layoutB (x / 2 ^ 54 % 64) with
    | some l => formB (x / 2 ^ 54 % 64) (unpackBits l x)
    | none => none) = _
  rw [hl]

/-! ### Encoded forms -/

/-- The value of a layout's field values holds the form that they stand for. -/
theorem held_packBits {f : Form} {l vs : List Nat} {n cls : Nat} {lits : List Word} {form : List Nat → Option Form}
    (hof : ∀ x, unpackBits l x = vs → formOf cls x lits = form (unpackBits l x)) (h4 : l[0]? = some 4) (hs : l.sum = 64 * n)
    (hu : classUnits cls = some n) (hf : Fits l vs) (h0 : vs[0]? = some cls)
    (hc : ∀ x, unpackBits l x = vs → litCount cls x = lits.length) (hform : form vs = some f) :
    f.Held n (packBits l vs) lits := by
  have hx := unpackBits_packBits hf
  have count := hc _ hx
  have held := hof _ hx
  rw [hx, hform] at held
  cases hf with
  | nil => cases h4
  | @cons w v ws vs hv ht =>
  obtain rfl : w = 4 := Option.some.inj h4
  obtain rfl : v = cls := Option.some.inj h0
  have hws : 64 * n - 4 = ws.sum := Nat.sub_eq_of_eq_add (hs.symm.trans (Nat.add_comm ..))
  have hcls : packBits (4 :: ws) (v :: vs) / 2 ^ (64 * n - 4) = v := by
    rw [packBits, hws, mul_add_div_of_lt (packBits_lt ws vs), Nat.mod_eq_of_lt hv]
  constructor <;> rw [hcls] <;> assumption

theorem held_branch {f : Form} {op : Nat} {l vs : List Nat} (hl : layoutB op = some l) (hf : Fits l vs) (h0 : vs[0]? = some 7)
    (h1 : vs[1]? = some op) (hform : formB op vs = some f) : f.Held 1 (packBits l vs) [] := by
  obtain ⟨h4, hs⟩ := layoutB_head hl
  have hof : ∀ x, unpackBits l x = vs → formOf 7 x [] = formB op (unpackBits l x) := fun x hx =>
    formOf_B hl (by rw [← Option.some_inj, ← opcode_unpackBits hl, hx, h1])
  exact held_packBits hof h4 hs rfl hf h0 (fun x _ => litCount_none (by decide) x) hform

theorem litsNamed_le {n : Nat} {us : List Use} {os : List Operand} (h : litsNamed n us os = true) : n ≤ 2 := by
  simp only [litsNamed, Bool.and_eq_true, decide_eq_true_eq] at h
  exact h.1.1

/-- The sources and the literal words of a sound V instruction (R47, R55). -/
theorem vLegal_sources {op : Nat} {f : VFields} (h : vLegal op f = true) : ∃ r sub, vRule op f = some r ∧
    usesLegal f.lits.length sub r.uses [f.src0, f.src1, f.src2] = true ∧ f.lits.length ≤ 2 := by
  unfold vLegal at h
  split at h
  · cases h
  · next r hr =>
    simp only [Bool.and_eq_true] at h
    obtain ⟨⟨⟨⟨⟨⟨⟨-, huses⟩, hlits⟩, -⟩, -⟩, -⟩, -⟩, -⟩ := h
    exact ⟨r, _, hr, huses, litsNamed_le hlits⟩

theorem vLegal_dup {f : VFields} (h : vLegal 0 f = true) : f.src2 = Operand.zero := by
  obtain ⟨r, sub, hr, huses, -⟩ := vLegal_sources h
  cases hr
  simp only [usesLegal, Bool.and_eq_true, beq_iff_eq] at huses
  exact huses.2.2.1

theorem sLegal_lits {op : Nat} {f : SFields} (h : sLegal op f = true) : f.lits.length ≤ 2 := by
  unfold sLegal at h
  split at h
  · cases h
  · simp only [Bool.and_eq_true] at h
    obtain ⟨⟨⟨⟨⟨-, hlits⟩, -⟩, -⟩, -⟩, -⟩ := h
    exact litsNamed_le hlits

theorem nestLegal_lengths {f : NestFields} (h : nestLegal f = true) : f.extents.length = 5 ∧ f.strides.length = 15 := by
  have lengths : (f.extents.length == 5 && f.strides.length == 15) = true := by
    by_contra wrong
    rw [nestLegal, Bool.eq_false_iff.mpr wrong] at h
    simp only [Bool.false_and, Bool.false_eq_true] at h
  obtain ⟨he, hs⟩ := Bool.and_eq_true_iff.mp lengths
  exact ⟨beq_iff_eq.mp he, beq_iff_eq.mp hs⟩

theorem held_v {op : Nat} {f : VFields} (hop : op < 2 ^ 8) (h2 : op ≠ 2) (h : vLegal op f = true) :
    (Form.v op f).Held 1 (packBits layoutV (Form.v op f).code.vals) f.lits := by
  obtain ⟨-, -, -, -, hlits⟩ := vLegal_sources h
  have hf := fits_codeV (f := f) hop (by omega)
  exact held_packBits (fun x _ => formOf_V x _) rfl rfl rfl hf rfl (fun x hx => litCount_field (.inl rfl) (.inl rfl) (hx ▸ rfl))
    (formV_code (fun h0 => vLegal_dup (h0 ▸ h)) h2)

/-- The field values of a save slot or a drop count fit class V: all but the opcode and two operands are zero. -/
theorem fits_slots {op s0 s2 : Nat} (hop : op < 2 ^ 8) (h0 : s0 < 2 ^ 12) (h2 : s2 < 2 ^ 12) :
    Fits layoutV [1, op, 0, 0, 0, 0, 0, 0, s0, 0, s2, 0, 0] :=
  have zero {w : Nat} : 0 < 2 ^ w := Nat.two_pow_pos w
  .cons (by decide) <| .cons hop <| .cons zero <| .cons zero <| .cons zero <| .cons zero <| .cons zero <| .cons zero <| .cons h0 <|
  .cons zero <| .cons h2 <| .cons zero <| .cons zero .nil

/-- A form of class V without literal words. -/
theorem held_slots {f : Form} (hf : Fits layoutV f.code.vals) (h0 : f.code.vals[0]? = some 1) (h3 : f.code.vals[3]? = some 0)
    (hform : formV [] f.code.vals = some f) : f.Held 1 (packBits layoutV f.code.vals) [] :=
  held_packBits (fun x _ => formOf_V x _) rfl rfl rfl hf h0 (fun _ hx => litCount_field (.inl rfl) (.inl rfl) (hx ▸ h3)) hform

theorem held_get (slot : BitVec 6) : (Form.get slot).Held 1 (packBits layoutV (Form.get slot).code.vals) [] :=
  have hs : 0x400 + slot.toNat < 2 ^ 12 := by have := slot.isLt; omega
  held_slots (fits_slots (by decide) (by decide) hs) rfl rfl (formV_get slot)

theorem held_save (age : BitVec 5) (slot : BitVec 6) : (Form.save age slot).Held 1 (packBits layoutV (Form.save age slot).code.vals) [] :=
  have hs : 0x800 + slot.toNat < 2 ^ 12 := by have := slot.isLt; omega
  held_slots (fits_slots (by decide) (Nat.lt_trans age.isLt (by decide)) hs) rfl rfl (formV_save age slot)

theorem held_drop (n : BitVec 5) : (Form.drop n).Held 1 (packBits layoutV (Form.drop n).code.vals) [] :=
  have hn : 0xC00 + n.toNat < 2 ^ 12 := by have := n.isLt; omega
  held_slots (fits_slots (by decide) hn (by decide)) rfl rfl (formV_drop n)

theorem held_i {op : Nat} (f : IFields) (hop : op < 2 ^ 8) : (Form.i op f).Held 1 (packBits layoutI (Form.i op f).code.vals) [] :=
  have hf := fits_codeI hop
  held_packBits (fun x _ => formOf_I x _) rfl rfl rfl hf rfl (fun x _ => litCount_none (by decide) x) (formI_code op f)

theorem held_s {op : Nat} {f : SFields} (hop : op < 2 ^ 8) (h : sLegal op f = true) :
    (Form.s op f).Held 1 (packBits layoutS (Form.s op f).code.vals) f.lits := by
  have hf := fits_codeS (f := f) hop (by have := sLegal_lits h; omega)
  exact held_packBits (fun x _ => formOf_S x _) rfl rfl rfl hf rfl (fun x hx => litCount_field (.inr rfl) (.inr rfl) (hx ▸ rfl)) (formS_code op f)

theorem held_m {op : Nat} (f : MFields) (hop : op < 2 ^ 6) : (Form.m op f).Held 1 (packBits layoutM (Form.m op f).code.vals) [] :=
  have hf := fits_codeM hop
  held_packBits (fun x _ => formOf_M x _) rfl rfl rfl hf rfl (fun x _ => litCount_none (by decide) x) (formM_code op f)

theorem held_e {op : Nat} (f : EFields) (hop : op < 2 ^ 6) : (Form.e op f).Held 1 (packBits layoutE (Form.e op f).code.vals) [] :=
  have hf := fits_codeE hop
  held_packBits (fun x _ => formOf_E x _) rfl rfl rfl hf rfl (fun x _ => litCount_none (by decide) x) (formE_code op f)

theorem held_x {op : Nat} (f : XFields) (hop : op < 2 ^ 6) : (Form.x op f).Held 1 (packBits layoutX (Form.x op f).code.vals) [] :=
  have hf := fits_codeX hop
  held_packBits (fun x _ => formOf_X x _) rfl rfl rfl hf rfl (fun x _ => litCount_none (by decide) x) (formX_code op f)

theorem held_g {op : Nat} (f : GFields) (hop : op < 2 ^ 8) : (Form.g op f).Held 1 (packBits layoutG (Form.g op f).code.vals) [] :=
  have hf := fits_codeG hop
  held_packBits (fun x _ => formOf_G x _) rfl rfl rfl hf rfl (fun x _ => litCount_none (by decide) x) (formG_code op f)

theorem held_y {op : Nat} (f : YFields) (hop : op < 2 ^ 8) : (Form.y op f).Held 1 (packBits layoutY (Form.y op f).code.vals) [] :=
  have hf := fits_codeY hop
  held_packBits (fun x _ => formOf_Y x _) rfl rfl rfl hf rfl (fun x _ => litCount_none (by decide) x) (formY_code op f)

theorem held_pair (f : PairFields) : (Form.pair f).Held 2 (packBits layoutP (Form.pair f).code.vals) [] :=
  have hf := fits_codeP f
  held_packBits (fun x _ => formOf_P x _) rfl rfl rfl hf rfl (fun x _ => litCount_none (by decide) x) (formP_code f)

theorem held_nest {f : NestFields} (h : nestLegal f = true) : (Form.nest f).Held 4 (packBits layoutN (Form.nest f).code.vals) [] := by
  obtain ⟨he, hs⟩ := nestLegal_lengths h
  have hf := fits_codeN he hs
  exact held_packBits (fun x _ => formOf_N x _) rfl rfl rfl hf rfl (fun x _ => litCount_none (by decide) x)
    (formN_code he hs)

theorem held_bw {op : Nat} (h : op = 0x00 ∨ op = 0x09) (n : BitVec 4) (off : Word) :
    (Form.bw op n off).Held 1 (packBits layoutBw (Form.bw op n off).code.vals) [] := by
  have hl : layoutB op = some layoutBw := by rcases h with rfl | rfl <;> rfl
  have hop : op < 2 ^ 6 := by rcases h with rfl | rfl <;> decide
  have hf : Fits layoutBw (Form.bw op n off).code.vals :=
    .cons (by decide) <| .cons hop <| .cons n.isLt <| .cons (by decide) <| .cons off.isLt .nil
  refine held_branch hl hf rfl rfl ((formB_bw h _ _ _ _ _).trans ?_)
  simp only [ne_eq, not_true, if_false, BitVec.ofNat_toNat, BitVec.setWidth_eq]

theorem held_bz {op : Nat} (h : op = 0x01 ∨ op = 0x02) (c : Operand) (j : BitVec 22) (t : BitVec 20) :
    (Form.bz op c j t).Held 1 (packBits layoutBz (Form.bz op c j t).code.vals) [] := by
  have hl : layoutB op = some layoutBz := by rcases h with rfl | rfl <;> rfl
  have hop : op < 2 ^ 6 := by rcases h with rfl | rfl <;> decide
  have hf : Fits layoutBz (Form.bz op c j t).code.vals :=
    .cons (by decide) <| .cons hop <| .cons (Operand.isCode.lt _) <| .cons j.isLt <| .cons t.isLt .nil
  refine held_branch hl hf rfl rfl ((formB_bz h _ _ _ _ _).trans ?_)
  simp only [Operand.ofCode_code, Option.map_some, BitVec.ofNat_toNat, BitVec.setWidth_eq]

theorem held_bs {op : Nat} (h : op = 0x03 ∨ op = 0x04 ∨ op = 0x05) (r : BitVec 7) (off : Word) :
    (Form.bs op r off).Held 1 (packBits layoutBs (Form.bs op r off).code.vals) [] := by
  have hl : layoutB op = some layoutBs := by rcases h with rfl | rfl | rfl <;> rfl
  have hop : op < 2 ^ 6 := by rcases h with rfl | rfl | rfl <;> decide
  have hf : Fits layoutBs (Form.bs op r off).code.vals :=
    .cons (by decide) <| .cons hop <| .cons r.isLt <| .cons (by decide) <| .cons off.isLt .nil
  refine held_branch hl hf rfl rfl ((formB_bs h _ _ _ _ _).trans ?_)
  simp only [ne_eq, not_true, if_false, BitVec.ofNat_toNat, BitVec.setWidth_eq]

theorem held_b0 {op : Nat} (h : op = 0x0C ∨ op = 0x0D ∨ op = 0x0E ∨ op = 0x11) :
    (Form.b0 op).Held 1 (packBits layoutB0 (Form.b0 op).code.vals) [] := by
  have hl : layoutB op = some layoutB0 := by rcases h with rfl | rfl | rfl | rfl <;> rfl
  have hop : op < 2 ^ 6 := by rcases h with rfl | rfl | rfl | rfl <;> decide
  have hf : Fits layoutB0 (Form.b0 op).code.vals := .cons (by decide) <| .cons hop <| .cons (by decide) .nil
  exact held_branch hl hf rfl rfl (formB_b0 h _ _ _)

theorem held_bi {op : Nat} (h : op = 0x0F ∨ op = 0x10) (imm : BitVec 16) :
    (Form.bi op imm).Held 1 (packBits layoutBi (Form.bi op imm).code.vals) [] := by
  have hl : layoutB op = some layoutBi := by rcases h with rfl | rfl <;> rfl
  have hop : op < 2 ^ 6 := by rcases h with rfl | rfl <;> decide
  have hf : Fits layoutBi (Form.bi op imm).code.vals := .cons (by decide) <| .cons hop <| .cons (by decide) <| .cons imm.isLt .nil
  refine held_branch hl hf rfl rfl ((formB_bi h _ _ _ _).trans ?_)
  simp only [ne_eq, not_true, if_false, BitVec.ofNat_toNat, BitVec.setWidth_eq]

theorem held_join (f : JoinFields) : (Form.join f).Held 1 (packBits layoutJoin (Form.join f).code.vals) [] := by
  have hf : Fits layoutJoin (Form.join f).code.vals :=
    .cons (by decide) <| .cons (by decide) <| .cons f.d.isLt <| .cons f.c.isLt <| .cons f.sel0.isLt <| .cons f.sel1.isLt <|
    .cons f.sel2.isLt <| .cons f.sel3.isLt <| .cons f.sel4.isLt <| .cons f.sel5.isLt <| .cons (by decide) .nil
  refine held_branch (op := 0x08) rfl hf rfl rfl ((formB_join _ _ _ _ _ _ _ _ _ _ _).trans ?_)
  simp only [ne_eq, not_true, if_false, BitVec.ofNat_toNat, BitVec.setWidth_eq]

theorem held_calli (n : BitVec 4) (idx : Operand) (sig : Word) :
    (Form.calli n idx sig).Held 1 (packBits layoutCalli (Form.calli n idx sig).code.vals) [] := by
  have hf : Fits layoutCalli (Form.calli n idx sig).code.vals :=
    .cons (by decide) <| .cons (by decide) <| .cons n.isLt <| .cons (Operand.isCode.lt _) <| .cons (by decide) <| .cons sig.isLt .nil
  refine held_branch (op := 0x0A) rfl hf rfl rfl ((formB_calli _ _ _ _ _ _).trans ?_)
  simp only [Operand.ofCode_code, Option.bind_some, ne_eq, not_true, if_false, BitVec.ofNat_toNat, BitVec.setWidth_eq]

theorem held_ret (k : BitVec 4) : (Form.ret k).Held 1 (packBits layoutRet (Form.ret k).code.vals) [] := by
  have hf : Fits layoutRet (Form.ret k).code.vals :=
    .cons (by decide) <| .cons (by decide) <| .cons k.isLt <| .cons (by decide) .nil
  refine held_branch (op := 0x0B) rfl hf rfl rfl ((formB_ret _ _ _ _).trans ?_)
  simp only [ne_eq, not_true, if_false, BitVec.ofNat_toNat, BitVec.setWidth_eq]

theorem bw_some {op : Nat} {n : BitVec 4} {off : Word} {i : Instr} (h : (Form.bw op n off).toInstr = some i) : op = 0x00 ∨ op = 0x09 := by
  have key : ∀ op, (Form.bw op n off).toInstr = none ∨ op = 0x00 ∨ op = 0x09 := by
    refine of_below (n := 0x0A) ?_ fun _ => .inl rfl
    refine below_succ ?_ (.inr (by decide))
    iterate 8 refine below_succ ?_ (.inl rfl)
    exact below_succ below_zero (.inr (by decide))
  simpa [h] using key op

theorem bz_some {op : Nat} {c : Operand} {j : BitVec 22} {t : BitVec 20} {i : Instr} (h : (Form.bz op c j t).toInstr = some i) :
    op = 0x01 ∨ op = 0x02 := by
  have key : ∀ op, (Form.bz op c j t).toInstr = none ∨ op = 0x01 ∨ op = 0x02 := by
    refine of_below (n := 0x03) ?_ fun _ => .inl rfl
    iterate 2 refine below_succ ?_ (.inr (by decide))
    exact below_succ below_zero (.inl rfl)
  simpa [h] using key op

theorem bs_some {op : Nat} {r : BitVec 7} {off : Word} {i : Instr} (h : (Form.bs op r off).toInstr = some i) :
    op = 0x03 ∨ op = 0x04 ∨ op = 0x05 := by
  have key : ∀ op, (Form.bs op r off).toInstr = none ∨ op = 0x03 ∨ op = 0x04 ∨ op = 0x05 := by
    refine of_below (n := 0x06) ?_ fun _ => .inl rfl
    iterate 3 refine below_succ ?_ (.inr (by decide))
    iterate 3 refine below_succ ?_ (.inl rfl)
    exact below_zero
  simpa [h] using key op

theorem b0_some {op : Nat} {i : Instr} (h : (Form.b0 op).toInstr = some i) : op = 0x0C ∨ op = 0x0D ∨ op = 0x0E ∨ op = 0x11 := by
  have key : ∀ op, (Form.b0 op).toInstr = none ∨ op = 0x0C ∨ op = 0x0D ∨ op = 0x0E ∨ op = 0x11 := by
    refine of_below (n := 0x12) ?_ fun _ => .inl rfl
    iterate 18 refine below_succ ?_ (by decide)
    exact below_zero
  simpa [h] using key op

theorem bi_some {op : Nat} {imm : BitVec 16} {i : Instr} (h : (Form.bi op imm).toInstr = some i) : op = 0x0F ∨ op = 0x10 := by
  have key : ∀ op, (Form.bi op imm).toInstr = none ∨ op = 0x0F ∨ op = 0x10 := by
    refine of_below (n := 0x11) ?_ fun _ => .inl rfl
    iterate 2 refine below_succ ?_ (.inr (by decide))
    iterate 15 refine below_succ ?_ (.inl rfl)
    exact below_zero
  simpa [h] using key op

/-- The value that encodes a sound form holds it. -/
theorem held_code {f : Form} {i : Instr} (hi : f.toInstr = some i) (hl : f.legal = true) :
    ∃ n, f.code.layout.sum = 64 * n ∧ f.Held n (packBits f.code.layout f.code.vals) f.code.lits ∧ f.code.lits.length ≤ 2 := by
  cases f with
  | v op f =>
    obtain ⟨-, -, -, -, hlits⟩ := vLegal_sources hl
    exact ⟨1, rfl, held_v (lt_of_table (o := (Instr.ofV · f)) (fun _ => rfl) hi) (by rintro rfl; cases hi) hl, hlits⟩
  | get slot => exact ⟨1, rfl, held_get slot, Nat.zero_le _⟩
  | save age slot => exact ⟨1, rfl, held_save age slot, Nat.zero_le _⟩
  | drop n => exact ⟨1, rfl, held_drop n, Nat.zero_le _⟩
  | i op f => exact ⟨1, rfl, held_i f (lt_of_table (o := (Instr.ofI · f)) (fun _ => rfl) hi), Nat.zero_le _⟩
  | s op f => exact ⟨1, rfl, held_s (lt_of_table (o := (Instr.ofS · f)) (fun _ => rfl) hi) hl, sLegal_lits hl⟩
  | m op f => exact ⟨1, rfl, held_m f (lt_of_table (o := (Instr.ofM · f)) (fun _ => rfl) hi), Nat.zero_le _⟩
  | e op f => exact ⟨1, rfl, held_e f (lt_of_table (o := (Instr.ofE · f)) (fun _ => rfl) hi), Nat.zero_le _⟩
  | x op f => exact ⟨1, rfl, held_x f (lt_of_table (o := (Instr.ofX · f)) (fun _ => rfl) hi), Nat.zero_le _⟩
  | bw op n off => exact ⟨1, rfl, held_bw (bw_some hi) n off, Nat.zero_le _⟩
  | bz op c j t => exact ⟨1, rfl, held_bz (bz_some hi) c j t, Nat.zero_le _⟩
  | bs op r off => exact ⟨1, rfl, held_bs (bs_some hi) r off, Nat.zero_le _⟩
  | join f => exact ⟨1, rfl, held_join f, Nat.zero_le _⟩
  | calli n idx sig => exact ⟨1, rfl, held_calli n idx sig, Nat.zero_le _⟩
  | ret k => exact ⟨1, rfl, held_ret k, Nat.zero_le _⟩
  | b0 op => exact ⟨1, rfl, held_b0 (b0_some hi), Nat.zero_le _⟩
  | bi op imm => exact ⟨1, rfl, held_bi (bi_some hi) imm, Nat.zero_le _⟩
  | g op f => exact ⟨1, rfl, held_g f (lt_of_table (o := (Instr.ofG · f)) (fun _ => rfl) hi), Nat.zero_le _⟩
  | y op f => exact ⟨1, rfl, held_y f (lt_of_table (o := (Instr.ofY · f)) (fun _ => rfl) hi), Nat.zero_le _⟩
  | pair f => exact ⟨2, rfl, held_pair f, Nat.zero_le _⟩
  | nest f => exact ⟨4, rfl, held_nest hl, Nat.zero_le _⟩
  | event => cases hi

/-! ### Decoded values -/

theorem unpackBits_class {l : List Nat} {n x : Nat} (h4 : l[0]? = some 4) (hs : l.sum = 64 * n) (hx : x < 2 ^ (64 * n)) :
    (unpackBits l x)[0]? = some (x / 2 ^ (64 * n - 4)) := by
  obtain _ | ⟨w, ws⟩ := l
  · cases h4
  obtain rfl : w = 4 := Option.some.inj h4
  have hws : 64 * n - 4 = ws.sum := Nat.sub_eq_of_eq_add (hs.symm.trans (Nat.add_comm ..))
  rw [← hs, List.sum_cons, Nat.pow_add] at hx
  rw [hws, unpackBits, Nat.mod_eq_of_lt (Nat.div_lt_of_lt_mul (by rwa [Nat.mul_comm] at hx))]
  rfl

theorem classUnits_range {cls n : Nat} (h : classUnits cls = some n) : 1 ≤ cls ∧ cls ≤ 11 := by
  by_contra out
  rw [classUnits, if_neg (by omega), if_neg (by omega), if_neg (by omega)] at h
  cases h

/-- The code of a form that a value and literal words hold is their own. -/
theorem code_of_held {f : Form} {n x : Nat} {lits : List Word} (h : f.Held n x lits) (hx : x < 2 ^ (64 * n)) :
    ∃ l, l.sum = 64 * n ∧ f.code = ⟨l, unpackBits l x, lits⟩ := by
  obtain ⟨units, count, form⟩ := h
  have hcls : ∀ l : List Nat, l[0]? = some 4 → l.sum = 64 * n → (unpackBits l x)[0]? = some (x / 2 ^ (64 * n - 4)) :=
    fun l h4 hs => unpackBits_class h4 hs hx
  generalize x / 2 ^ (64 * n - 4) = cls at *
  have plain : cls ≠ 1 ∧ cls ≠ 3 → lits = [] := fun h => List.length_eq_zero_iff.mp (by rw [← count, litCount_none h])
  obtain ⟨lo, hi⟩ := classUnits_range units
  interval_cases cls
  · cases units
    have h3 := litCount_unpackBits (l := layoutV) (x := x) (.inl rfl) (.inl rfl)
    exact ⟨layoutV, rfl, code_of_formV (fits_unpackBits _ _) (hcls _ rfl rfl) (count ▸ h3) form⟩
  · cases units
    obtain rfl := plain (by decide)
    exact ⟨layoutI, rfl, code_of_formI (fits_unpackBits _ _) (hcls _ rfl rfl) form⟩
  · cases units
    have h3 := litCount_unpackBits (l := layoutS) (x := x) (.inr rfl) (.inr rfl)
    exact ⟨layoutS, rfl, code_of_formS (fits_unpackBits _ _) (hcls _ rfl rfl) (count ▸ h3) form⟩
  · cases units
    obtain rfl := plain (by decide)
    exact ⟨layoutM, rfl, code_of_formM (fits_unpackBits _ _) (hcls _ rfl rfl) form⟩
  · cases units
    obtain rfl := plain (by decide)
    exact ⟨layoutE, rfl, code_of_formE (fits_unpackBits _ _) (hcls _ rfl rfl) form⟩
  · cases units
    obtain rfl := plain (by decide)
    exact ⟨layoutX, rfl, code_of_formX (fits_unpackBits _ _) (hcls _ rfl rfl) form⟩
  · cases units
    obtain rfl := plain (by decide)
    cases hl : layoutB (x / 2 ^ 54 % 64) with
    | some l =>
      rw [formOf_B hl rfl] at form
      obtain ⟨h4, hs⟩ := layoutB_head hl
      exact ⟨l, hs, code_of_formB hl (fits_unpackBits _ _) (hcls _ h4 hs) (opcode_unpackBits hl x) form⟩
    | none =>
      rw [formOf_B_none hl] at form
      cases form
  · cases units
    obtain rfl := plain (by decide)
    exact ⟨layoutG, rfl, code_of_formG (fits_unpackBits _ _) (hcls _ rfl rfl) form⟩
  · cases units
    obtain rfl := plain (by decide)
    exact ⟨layoutY, rfl, code_of_formY (fits_unpackBits _ _) (hcls _ rfl rfl) form⟩
  · cases units
    obtain rfl := plain (by decide)
    exact ⟨layoutP, rfl, code_of_formP (fits_unpackBits _ _) (hcls _ rfl rfl) form⟩
  · cases units
    obtain rfl := plain (by decide)
    exact ⟨layoutN, rfl, code_of_formN (fits_unpackBits _ _) (hcls _ rfl rfl) form⟩

/-! ## Decoding and encoding words -/

/-- The first unit of a value is its highest bits. -/
theorem takeUnits_first {n x : Nat} {ws rest : List Word} (h : takeUnits (n + 1) ws = some (x, rest)) :
    ∃ r, takeUnits 1 ws = some (x / 2 ^ (64 * n), r) := by
  match ws with
  | [] | [_] => simp [takeUnits] at h
  | lo :: hi :: ws =>
    rw [takeUnits] at h
    split at h
    · next y rest' hy =>
      cases h
      rw [mul_add_div_of_lt (words_of_takeUnits hy).1]
      exact ⟨ws, by simp [takeUnits]⟩
    · cases h

theorem classUnits_pos {cls n : Nat} (h : classUnits cls = some n) : 1 ≤ n := by
  obtain ⟨lo, hi⟩ := classUnits_range h
  interval_cases cls <;> cases h <;> decide

theorem class_of_first {n x : Nat} (hn : 1 ≤ n) : x / 2 ^ (64 * (n - 1)) / 2 ^ 60 = x / 2 ^ (64 * n - 4) := by
  obtain ⟨m, rfl⟩ := Nat.exists_eq_add_of_le' hn
  rw [Nat.div_div_eq_div_mul, ← Nat.pow_add]
  rfl

/-- What words that decode hold: a value and literal words, which hold the form of a sound instruction (R37, R45, R47, R76). -/
theorem decode_eq_ok_iff {ws rest : List Word} {i : Instr} : decode ws = .ok (i, rest) ↔
    ∃ n x lits f, takeUnits n ws = some (x, lits ++ rest) ∧ Form.Held f n x lits ∧ lits.length ≠ 3 ∧ f.toInstr = some i ∧ i.wf = true := by
  constructor
  · intro h
    unfold decode at h
    split at h
    · cases h
    next u0 r0 h0 =>
    dsimp only at h
    split at h
    · cases h
    next n hn =>
    split at h
    · cases h
    next x r hx =>
    split at h
    · cases h
    next h3 =>
    split at h
    · cases h
    next lits r' hlits =>
    split at h
    · cases h
    next f hf =>
    split at h
    · cases h
    next j hj =>
    split at h
    · next hw =>
      cases h
      obtain ⟨hlen, rfl⟩ := words_of_takeLits hlits
      have pos := classUnits_pos hn
      obtain ⟨r1, h1⟩ := takeUnits_first (n := n - 1) (by rwa [Nat.sub_add_cancel pos])
      obtain rfl : x / 2 ^ (64 * (n - 1)) = u0 := congrArg Prod.fst (Option.some.inj (h1.symm.trans h0))
      rw [class_of_first pos] at hn h3 hlen hf
      exact ⟨n, x, lits, f, hx, ⟨hn, hlen.symm, hf⟩, hlen ▸ h3, hj, hw⟩
    · cases h
  · rintro ⟨n, x, lits, f, hx, ⟨units, count, form⟩, h3, hi, hw⟩
    have hn := classUnits_pos units
    obtain ⟨r, h1⟩ := takeUnits_first (n := n - 1) (by rwa [Nat.sub_add_cancel hn])
    rw [← class_of_first hn] at units count form
    unfold decode
    simp only [h1, units, hx, count, if_neg h3, takeLits_append, form, hi, hw, if_true]

/-- Settles O54: the words of a sound instruction hold the value that its fields make up, and that value holds its form. -/
theorem decodeEncode : Obligations.DecodeEncode := by
  unfold Obligations.DecodeEncode
  intro i ws hw
  have hi := toInstr_form hw
  obtain ⟨n, hs, held, hlits⟩ := held_code hi (by simp only [Instr.wf, Bool.and_eq_true] at hw; exact hw.1)
  have hlt := packBits_lt i.form.code.layout i.form.code.vals
  refine decode_eq_ok_iff.mpr ⟨n, _, _, _, ?_, held, by omega, hi, hw⟩
  rw [encode, hs, Nat.mul_div_cancel_left n (by decide), List.append_assoc, takeUnits_valueWords, Nat.mod_eq_of_lt (hs ▸ hlt)]

theorem encode_of_decode {ws rest : List Word} {i : Instr} (h : decode ws = .ok (i, rest)) : encode i ++ rest = ws := by
  obtain ⟨n, x, lits, f, hx, held, -, hi, -⟩ := decode_eq_ok_iff.mp h
  obtain ⟨hlt, rfl⟩ := words_of_takeUnits hx
  obtain ⟨l, hs, hcode⟩ := code_of_held held hlt
  rw [encode, form_of_toInstr hi, hcode]
  simp only [packBits_unpackBits, hs, Nat.mul_div_cancel_left n (show 0 < 64 by decide), Nat.mod_eq_of_lt hlt, List.append_assoc]

/-! ## Clause headers (R39, R41) -/

theorem encodeHeader_of_decodeHeader {lo hi : Word} {h : Header} (hd : decodeHeader lo hi = some h) : encodeHeader h = [lo, hi] := by
  have hp := packBits_unpackBits layoutH (unitOf lo hi)
  refine (fits_unpackBits layoutH (unitOf lo hi)).elim
    (P := fun vs => unpackBits layoutH (unitOf lo hi) = vs → encodeHeader h = [lo, hi]) ?_ rfl
  intro cls _ wait hw fa ha fb hb count hn y hy rsv _ hvs
  unfold decodeHeader at hd
  rw [hvs] at hd hp
  dsimp only at hd
  split at hd
  · next sound =>
    obtain ⟨rfl, rfl, -⟩ := sound
    cases hd
    rw [encodeHeader]
    simp only [toNat_ofNat_of_lt hw, toNat_ofNat_of_lt ha, toNat_ofNat_of_lt hb, toNat_ofNat_of_lt hn, toNat_bitOf hy]
    rw [hp, Nat.mod_eq_of_lt (show unitOf lo hi < 2 ^ layoutH.sum from unitOf_lt lo hi), unitWords_unitOf]
  · cases hd

theorem decodeHeader_encodeHeader {h : Header} (hn : 1 ≤ h.count.toNat) (hx : h.count.toNat ≤ 24)
    (ha : flagCodeLegal h.flagA.toNat = true) (hb : flagCodeLegal h.flagB.toNat = true) :
    ∃ lo hi, encodeHeader h = [lo, hi] ∧ decodeHeader lo hi = some h := by
  have hf : Fits layoutH [0, h.wait.toNat, h.flagA.toNat, h.flagB.toNat, h.count.toNat, h.yield.toNat, 0] :=
    .cons (by decide) <| .cons h.wait.isLt <| .cons h.flagA.isLt <| .cons h.flagB.isLt <| .cons h.count.isLt <|
    .cons (Bool.toNat_lt _) <| .cons (by decide) .nil
  refine ⟨_, _, rfl, ?_⟩
  rw [decodeHeader, unitOf_words (packBits_lt layoutH _), unpackBits_packBits hf]
  simp only [hn, hx, ha, hb, true_and, if_true, BitVec.ofNat_toNat, BitVec.setWidth_eq, bitOf_toNat]

/-- Settles O55: what decodes, instruction or header, is the value of its own fields, and a header's fields fit its layout. -/
theorem wordsHaveOneMeaning : Obligations.WordsHaveOneMeaning := by
  unfold Obligations.WordsHaveOneMeaning
  refine ⟨fun ws rest i h => ?_, fun _ _ _ => encodeHeader_of_decodeHeader, fun _ => decodeHeader_encodeHeader⟩
  obtain ⟨-, -, -, -, -, -, -, -, hw⟩ := decode_eq_ok_iff.mp h
  exact ⟨hw, encode_of_decode h⟩

/-- Settles O56: each word decodes, step by step, to the instruction that it stands for. -/
theorem decodedWords : Obligations.DecodedWords := by
  unfold Obligations.DecodedWords
  decide

end Sys2Proof
end

