-- ==== Sys2Proof/Proofs/StepMoves.lean ====
section
/-! PROOF. A step makes the next move of the agenda, and the slot of a gang that goes on holds the next words of its clause (O57). -/

namespace Sys2Proof
-- One proof at a time: in parallel, the stacks of the threads exceed the memory that the check allows.
set_option Elab.async false

open Machine

/-! ## The words behind an instruction -/

theorem length_valueWords (n x : Nat) : (valueWords n x).length = 2 * n := by
  induction n with
  | zero => rfl
  | succ n ih =>
    rw [valueWords, List.length_append, ih, Nat.mul_succ, Nat.add_comm]
    rfl

/-- The first unit of an instruction tells how many words it takes (R37, R47). -/
theorem instrWords_of_units {lo hi : Word} {n x : Nat} (hu : unitOf lo hi = x / 2 ^ (64 * (n - 1)))
    (units : classUnits (x / 2 ^ (64 * n - 4)) = some n) : instrWords lo hi = 2 * n + litCount (x / 2 ^ (64 * n - 4)) x := by
  have hc : unitOf lo hi / 2 ^ 60 = x / 2 ^ (64 * n - 4) := by rw [hu, class_of_first (classUnits_pos units)]
  have literals : litCount (x / 2 ^ (64 * n - 4)) (unitOf lo hi) = litCount (x / 2 ^ (64 * n - 4)) x := by
    by_cases hl : x / 2 ^ (64 * n - 4) = 1 ∨ x / 2 ^ (64 * n - 4) = 3
    · obtain rfl : n = 1 := by
        rcases hl with e | e
        all_goals
          rw [e] at units
          exact (Option.some.inj units).symm
      rw [hu, Nat.sub_self, Nat.mul_zero, Nat.pow_zero, Nat.div_one]
    · rw [litCount_none (not_or.mp hl), litCount_none (not_or.mp hl)]
  unfold instrWords
  simp only [hc, units, literals]

/-- Words that decode begin with a unit that tells how many of them the instruction takes. -/
theorem drop_instrWords {ws rest : List Word} {i : Instr} (h : decode ws = .ok (i, rest)) :
    ∃ lo hi t, ws = lo :: hi :: t ∧ ws.drop (instrWords lo hi) = rest := by
  obtain ⟨n, x, lits, f, hx, ⟨units, count, -⟩, -⟩ := decode_eq_ok_iff.mp h
  have pos := classUnits_pos units
  obtain ⟨r, h1⟩ := takeUnits_first (n := n - 1) (by rwa [Nat.sub_add_cancel pos])
  match ws with
  | [] => cases h1
  | [w] => cases h1
  | lo :: hi :: t =>
    refine ⟨lo, hi, t, rfl, ?_⟩
    have hu : takeUnits 1 (lo :: hi :: t) = some (unitOf lo hi * 2 ^ 0 + 0, t) := rfl
    rw [h1] at hu
    have first : x / 2 ^ (64 * (n - 1)) = unitOf lo hi := (congrArg Prod.fst (Option.some.inj hu)).trans (Nat.mul_one _)
    rw [instrWords_of_units first.symm units, count, ← (words_of_takeUnits hx).2, ← List.append_assoc]
    exact List.drop_left' (by rw [List.length_append, length_valueWords])

end Sys2Proof

namespace Sys2Proof.Machine
open Sys2Proof

theorem Hold.next_words {h : Hold} {rest : List Word} {i : Instr} (hd : decode h.words = .ok (i, rest)) (mask : BitVec 8) :
    (h.next mask).words = rest := by
  obtain ⟨lo, hi, t, hw, hr⟩ := drop_instrWords hd
  rw [← hr]
  unfold Hold.next
  rw [hw]

/-! ## The slot of a gang -/

/-- What a slot holds. -/
def State.held (s : State) (k slot : Nat) : Option Hold := ((s.core k).slots.toList.getD slot default).hold

theorem held_setHold (s : State) (k : Nat) {slot : Nat} (hs : slot < 4) (h : Option Hold) : (s.setHold k slot h).held k slot = h := by
  simp only [State.held, State.setHold, State.modCore, State.core_setCore, Vector.toList_setIfInBounds, List.getD_eq_getElem?_getD]
  rw [List.getElem?_set_self (by simpa using hs)]
  rfl

theorem noteTargets_tlbOnly (s : State) (k : Nat) (g : Group) (h : Hold) : s.TlbOnly (s.noteTargets k g h) := by
  unfold State.noteTargets
  extract_lets from' reached
  have hf (ws) : s.TlbOnly (from' ws) := .foldl (fun _ _ => .noteStart ..) ..
  have hr (t : State) : t.TlbOnly (reached t) := .foldl (fun _ _ => .noteStart ..) ..
  split
  · exact hf _
  · exact hf _
  · exact hf _
  · exact hf _
  · exact hf _
  · exact hf _
  · exact hf _
  · exact .trans (.notePages ..) (hr _)
  · exact hr _
  · exact hr _
  · exact .refl s

/-- Where the debugger steps no group of a core, no step is reported. -/
theorem reportStep_idle {s : State} {k : Nat} (h : (s.core k).stepping = []) (f : Nat) (mask : BitVec 8) : s.reportStep k f mask = s := by
  unfold State.reportStep
  dsimp only
  rw [h]
  cases s.group? k f <;> rfl

/-- A gang all of whose slices have gone on to the next instruction keeps its slot, which holds that instruction (R191). -/
theorem held_settleIssue {t : State} {k slot was : Nat} {h : Hold} {y : Group} (hs : slot < 4) (hold : t.held k slot = some h)
    (hg : t.group? k h.frame = some y) (issues : y.issues = true) (gone : y.slicesAt h.mask h.clause h.idx = 0)
    (next : y.slicesAt h.mask h.clause (h.idx + 1) ≠ 0) (more : h.idx + 1 < h.hdr.count.toNat) (free : y.holdsOn h.mask = false)
    (step : (t.core k).stepping = []) :
    (t.settleIssue k slot was false).held k slot = some (h.next (y.slicesAt h.mask h.clause (h.idx + 1))) := by
  have stays : (y.issues && ((y.seq == was && y.slicesAt h.mask h.clause h.idx != 0) || y.holdsOn h.mask)) ≠ true := by
    rw [gone, free, bne_self_eq_false, Bool.and_false, Bool.or_false, Bool.and_false]
    exact Bool.false_ne_true
  have goes : (y.issues && y.slicesAt h.mask h.clause (h.idx + 1) != 0 && decide (h.idx + 1 < h.hdr.count.toNat)) = true := by
    rw [issues, bne_iff_ne.mpr next, decide_eq_true more]
    rfl
  unfold State.settleIssue
  rw [show ((t.core k).slots.toList.getD slot default).hold = some h from hold]
  dsimp -zeta only
  rw [hg]
  dsimp -zeta only
  rw [if_neg stays]
  extract_lets s0 after s2 s1
  have settled : s1 = s0.setHold k slot (some (h.next after)) := if_pos goes
  have calm : (s1.core k).stepping = [] := by
    obtain ⟨tlb, last, e⟩ := (noteTargets_tlbOnly t k y h).core k
    rw [settled]
    simp only [State.setHold, State.modCore, State.core_setCore, s0, e]
    exact step
  rw [reportStep_idle calm, settled, held_setHold _ _ hs]
  rfl

/-! ## Moves -/

variable {s : State} {m : Move} {ms : List Move}

/-- What a step does with the head of the agenda. -/
theorem takeMove_cons (h : s.agenda = m :: ms) : s.takeMove = (m, { s with agenda := ms, tick := s.tick + 1 }) := by
  rw [State.takeMove, h]

/-- What a slot finds whose gang stands at its next instruction, in a group that issues. -/
theorem issueHead_run {k slot : Nat} {h : Hold} {g : Group} {i : Instr} {rest : List Word} (hold : s.held k slot = some h)
    (fresh : ((s.core k).slots.toList.getD slot default).used ≠ s.cycle + 1) (hg : s.group? k h.frame = some g) (issues : g.issues = true)
    (back : g.holdsBack = false) (due : ∀ d ∈ g.due, d.mask &&& g.slicesAt h.mask h.clause h.idx = 0)
    (here : g.slicesAt h.mask h.clause h.idx ≠ 0)
    (allowed : (s.core k).stepAllows g ⟨h.frame, g.slicesAt h.mask h.clause h.idx⟩ = true) (hd : decode h.words = .ok (i, rest)) :
    s.issueHead k slot = .run i { s with iss := h.issuer k (g.slicesAt h.mask h.clause h.idx) } := by
  have none' : (g.due.filter fun d => d.mask &&& g.slicesAt h.mask h.clause h.idx != 0) = [] :=
    List.filter_eq_nil_iff.mpr fun d hm => by simp [due d hm]
  unfold State.issueHead
  dsimp only
  rw [show ((s.core k).slots.toList.getD slot default).hold = some h from hold]
  dsimp only
  rw [hg]
  dsimp only
  rw [issues, back, if_neg (by decide), if_neg (not_or.mpr ⟨fresh, Bool.false_ne_true⟩), none']
  dsimp only [leastBy, List.head?]
  rw [if_neg here, allowed, if_neg (by decide), hd]

theorem seqAt_held {k slot : Nat} {h : Hold} {g : Group} (hold : s.held k slot = some h) (hg : s.group? k h.frame = some g) :
    s.seqAt k slot = g.seq := by
  unfold State.seqAt
  rw [show ((s.core k).slots.toList.getD slot default).hold = some h from hold, Option.bind_some, hg]
  rfl

theorem resumeHead_run {k f slice : Nat} {g : Group} {w : Wait} (hg : s.group? k f = some g) (hw : g.waitOf slice = some w)
    (goes : (g.status = .running ∧ g.replay = false) ∨ w.kept = true) (retry : w.retry = true) :
    s.resumeHead k f slice = .run w.instr (s.reissue k f w) := by
  unfold State.resumeHead
  rw [hg]
  dsimp only
  rw [hw]
  dsimp only
  refine if_neg ?_
  rintro (⟨stops, kept⟩ | once)
  · rcases goes with ⟨run, replay⟩ | keeps
    · rw [replay] at stops
      exact stops.elim (· run) Bool.false_ne_true
    · exact kept keeps
  · exact once retry

theorem step_issue {k slot : Nat} {i : Instr} {s1 t : State} (h : s.agenda = .issue k slot :: ms)
    (run : State.issueHead { s with agenda := ms, tick := s.tick + 1 } k slot = .run i s1) (ht : exec i s1 = .next t) :
    step s = .next (t.settleIssue k slot (s1.seqAt k slot) (i == .eret)) := by
  rw [step, takeMove_cons h]
  change State.stepIssue _ k slot = _
  rw [State.stepIssue, run]
  dsimp only
  rw [ht]

theorem step_resume {k f slice : Nat} {i : Instr} {s1 t : State} (h : s.agenda = .resume k f slice :: ms)
    (run : State.resumeHead { s with agenda := ms, tick := s.tick + 1 } k f slice = .run i s1) (ht : exec i s1 = .next t) :
    step s = .next (t.reportStep k f t.iss.mask) := by
  rw [step, takeMove_cons h]
  change State.stepResume _ k f slice = _
  rw [State.stepResume, run]
  dsimp only
  rw [ht]

end Sys2Proof.Machine

namespace Sys2Proof
open Machine

/-- Settles O57: each move finds what its hypotheses say it finds, and the slot of a gang that goes on is settled at the next
instruction. -/
theorem stepRunsDecoded : Obligations.StepRunsDecoded := by
  unfold Obligations.StepRunsDecoded
  intro s m ms hm
  refine ⟨?_, ?_, ?_, ?_, ?_, ?_, ?_⟩
  · intro k slot h g i rest e x here hold fresh hg issues back due at' allowed hd t ht
    subst e
    have run := issueHead_run (s := { s with agenda := ms, tick := s.tick + 1 }) hold fresh hg issues back due at' allowed hd
    have seq := seqAt_held (s := { s with agenda := ms, tick := s.tick + 1, iss := h.issuer k here }) hold hg
    refine ⟨seq ▸ step_issue hm run ht, fun y d hs hi held e hy hyi gone next more free calm => ?_⟩
    subst e
    have left : (i == .eret) = false := beq_eq_false_iff_ne.mpr hi
    rw [left]
    exact ⟨held_settleIssue hs held hy hyi gone next more free calm, Hold.next_words hd _⟩
  · intro i e hi
    subst e
    rw [step, takeMove_cons hm]
    exact if_pos hi
  · intro k fr slice g w t e hg hw goes retry ht
    subst e
    exact step_resume hm (resumeHead_run (s := { s with agenda := ms, tick := s.tick + 1 }) hg hw goes retry) ht
  · rintro rfl
    rw [step, takeMove_cons hm]
  · rintro n rfl
    rw [step, takeMove_cons hm]
  · rintro rfl
    rw [step, takeMove_cons hm]
  · rintro k idx n rfl
    rw [step, takeMove_cons hm]

end Sys2Proof
end

