-- ==== Sys2Proof/Proofs/Nests.lean ====
section
/-! PROOF. A NEST takes its place, writes its tuples, and leaves the queue (O38). -/

namespace Sys2Proof.Machine
open Sys2Proof
-- One proof at a time: in parallel, the stacks of the threads exceed the memory that the check allows.
set_option Elab.async false

/-! ## Scratch that no range maps (R225) -/

theorem ensure_of_needs_none {s : State} {k : Nat} {need : Core → Nat → Nat → Bool} (h : ∀ p n, need (s.core k) p n = false)
    (ps : List (Nat × Nat)) : s.ensure k need ps = .ok s := by
  induction ps with
  | nil => rfl
  | cons p ps ih =>
    rw [State.ensure, h, ih]
    rfl

theorem mapAt_none {c : Core} (h : c.maps = []) (p : Nat) : c.mapAt p = none := by
  unfold Core.mapAt
  rw [h]
  rfl

theorem readPlace_plain {s : State} {k : Nat} (hm : (s.core k).maps = []) (hp : (s.core k).scratchPoison = []) (ctx x n : Nat) (priv : Bool) :
    s.readPlace k ctx priv (.scr k x) n = .ok (s, Memory.read (s.core k).scratch x n) := by
  have needs (p n : Nat) : (s.core k).loadFills p n = false := by rw [Core.loadFills, mapAt_none hm]
  have clean : ((wordsOfSpan x n).find? fun w => ([] : List Nat).contains w) = none := List.find?_eq_none.mpr fun _ _ => Bool.false_ne_true
  unfold State.readPlace
  dsimp only
  rw [ensure_of_needs_none needs]
  dsimp only
  rw [hp, clean]

theorem storeScratch_scratch {c : Core} (hm : c.maps = []) (p : Nat) (bs : List Byte) :
    (c.storeScratch p bs).scratch = Memory.write c.scratch p bs := by
  unfold Core.storeScratch
  dsimp only
  rw [hm]
  rfl

theorem writePlace_plain {s : State} {k : Nat} (hm : (s.core k).maps = []) (ctx x : Nat) (priv : Bool) (bs : List Byte) :
    s.writePlace k ctx priv (.scr k x) bs = .ok (s.modCore k fun y => y.storeScratch x bs, 0) := by
  have needs (p n : Nat) : (s.core k).writeFills p n = false := by rw [Core.writeFills, mapAt_none hm]
  unfold State.writePlace
  dsimp only
  rw [ensure_of_needs_none needs]

/-! ## NEST at issue (R241, R258) -/

theorem addLocks (k : Nat) (locks : List RangeLock) (s : State) :
    let t := locks.foldl (fun (t : State) l => t.addLock k l) s
    t.iss = s.iss ∧ t.mem = s.mem ∧ (t.core k).frames = (s.core k).frames ∧ (t.core k).scratch = (s.core k).scratch ∧
      (t.core k).nestQ = (s.core k).nestQ ∧ (t.core k).locks = (s.core k).locks ++ locks := by
  induction locks generalizing s with
  | nil => exact ⟨rfl, rfl, rfl, rfl, rfl, (List.append_nil _).symm⟩
  | cons l locks ih =>
    obtain ⟨hi, hm, hf, hs, hq, hl⟩ := ih (s.addLock k l)
    rw [State.addLock, State.modCore, State.core_setCore] at hf hs hq hl
    exact ⟨hi, hm, hf, hs, hq, hl.trans (List.append_assoc ..)⟩

/-- A group that changes leaves all else of the cores as it was. -/
theorem core_modGroup {α : Type} {F : Core → α} (hF : ∀ (c : Core) frames, F { c with frames := frames } = F c) (s : State) (k f : Nat)
    (u : Group → Group) (j : Nat) : F ((s.modGroup k f u).core j) = F (s.core j) := by
  unfold State.modGroup
  split
  · by_cases hj : j = k
    · rw [hj, State.core_setGroup, hF]
    · rw [State.core_setGroup_ne _ _ _ hj]
  · rfl

theorem flagUp_lanes (g : Group) (f : Option Nat) : (g.flagUp f).lanes = g.lanes := by cases f <;> rfl
theorem flagUp_scalars (g : Group) (f : Option Nat) : (g.flagUp f).scalars = g.scalars := by cases f <;> rfl

/-- What the unit of nests works on in a core. -/
def Core.nestWork (c : Core) : List Host.Cell × List NestWork × List RangeLock := (c.scratch, c.nestQ, c.locks)

theorem advance_group {t : State} {j : Issuer} {g : Group} (e : t.iss = j) (hg : t.group? j.core j.frame = some g) :
    ∃ x, t.advance.group? j.core j.frame = some x ∧ x.lanes = g.lanes ∧ x.scalars = g.scalars ∧ x.flags = g.flags := by
  subst e
  exact ⟨_, State.group?_modGroup hg _, rfl, rfl, rfl⟩

/-- An instruction whose operation is sent off counts its flag and goes on. -/
theorem sent_group {s : State} {g : Group} (hg : s.group? s.iss.core s.iss.frame = some g) (flag : Option Nat) :
    (∃ h, (s.sent flag).group? s.iss.core s.iss.frame = some h ∧ h.lanes = g.lanes ∧ h.scalars = g.scalars ∧
      h.flags = (g.flagUp flag).flags) ∧ (s.sent flag).mem = s.mem ∧
      ((s.sent flag).core s.iss.core).nestWork = (s.core s.iss.core).nestWork := by
  obtain ⟨h, hh, lanes, scalars, flags⟩ := advance_group (State.modGroup_iss ..) (State.group?_modGroup hg fun g => g.flagUp flag)
  exact ⟨⟨h, hh, lanes.trans (flagUp_lanes g flag), scalars.trans (flagUp_scalars g flag), flags⟩,
    (State.advance_mem _).trans (State.modGroup_mem ..),
    (core_modGroup (F := Core.nestWork) (fun _ _ => rfl) ..).trans (core_modGroup (F := Core.nestWork) (fun _ _ => rfl) ..)⟩

/-- The work that a NEST becomes at issue. -/
def nestWorkOf (s : State) (g : Group) (f : NestFields) : NestWork :=
  { instr := .nest f, frame := s.iss.frame, flag := flagOf s.iss.flagA,
    vals := [g.scalar f.sd.toNat, g.scalar f.sa.toNat, g.scalar f.sb.toNat], tuple := 0, partialRed := none, qmask := 0, seq := g.seq,
    ticket := s.nextReq, bad := 0, before := [], wrote := [], why := none }

/-- A state with a NEST's locks taken and its work in the queue. -/
def nestQueued (s : State) (g : Group) (f : NestFields) : State :=
  { (((s.nestLocks g f).foldl (fun (t : State) l => t.addLock s.iss.core l) s).modCore s.iss.core fun c =>
      { c with nestQ := c.nestQ ++ [nestWorkOf s g f] }) with nextReq := s.nextReq + 1 }

/-- Where its checks find no fault and its queue, its flag and the lock entries have room, a NEST takes its place. -/
theorem execNest_queued {s : State} {g : Group} {f : NestFields} (ready : s.MemReady (.nest f) g) (fault : s.nestFault g f = none)
    (clash : ((s.nestLocks g f).any fun l => (s.core s.iss.core).engineOver [] l.start l.len) = false)
    (room : (s.core s.iss.core).nestQ.length < 5) (full : g.flagFull (flagOf s.iss.flagA) = false)
    (entries : (s.core s.iss.core).locksUsed + (s.nestLocks g f).length ≤ 64) :
    execNest f s = .next ((nestQueued s g f).sent (flagOf s.iss.flagA)) := by
  unfold execNest
  rw [memGate_ready ready]
  dsimp only
  rw [fault]
  dsimp only
  rw [clash, full, decide_eq_false (Nat.not_le.mpr room), decide_eq_false (Nat.not_lt.mpr entries)]
  exact if_neg Bool.false_ne_true

/-- A queued NEST has its locks and its place, and changes neither memory nor its group. -/
theorem nestQueued_core (s : State) (g : Group) (f : NestFields) :
    (nestQueued s g f).iss = s.iss ∧ (nestQueued s g f).mem = s.mem ∧
      ((nestQueued s g f).core s.iss.core).frames = (s.core s.iss.core).frames ∧
      ((nestQueued s g f).core s.iss.core).nestWork = ((s.core s.iss.core).scratch, (s.core s.iss.core).nestQ ++ [nestWorkOf s g f],
        (s.core s.iss.core).locks ++ s.nestLocks g f) := by
  obtain ⟨hi, hm, hf, hs, hq, hl⟩ := addLocks s.iss.core (s.nestLocks g f) s
  generalize e : (s.nestLocks g f).foldl (fun (t : State) l => t.addLock s.iss.core l) s = t at hi hm hf hs hq hl
  have queued : (nestQueued s g f).core s.iss.core = { t.core s.iss.core with nestQ := (t.core s.iss.core).nestQ ++ [nestWorkOf s g f] } := by
    rw [nestQueued, e]
    exact State.core_setCore ..
  refine ⟨?_, ?_, ?_, ?_⟩
  · rw [nestQueued, e]
    exact hi
  · rw [nestQueued, e]
    exact hm
  · rw [queued]
    exact hf
  · rw [queued, Core.nestWork, hs, hq, hl]

/-! ## One tuple (R256, R257) -/

/-- A source element that no other tuple of its NEST writes is read as it stands. -/
theorem nestSource_now {s : State} {k base o : Nat} {g : Group} {f : NestFields} {w : NestWork} (single : f.op.reduces = false)
    (fresh : w.wrote = []) (apart : ∀ u, w.tuple < u → u < nestTuples f →
      ¬ (w.outPlace f base u < w.place f base o + 4 ∧ w.place f base o < w.outPlace f base u + nestDstBytes f)) (now : Nat) :
    s.nestSource k g base f w o now = now := by
  have none' : ((List.range (nestTuples f)).filter fun u => decide (nestOut f w.tuple < u) && nestOut f u == u &&
      decide (w.outPlace f base u < w.place f base o + 4 ∧ w.place f base o < w.outPlace f base u + nestDstBytes f)) = [] := by
    refine List.filter_eq_nil_iff.mpr fun u hu hk => ?_
    rw [nestOut, single, if_neg Bool.false_ne_true] at hk
    simp only [Bool.and_eq_true, decide_eq_true_eq] at hk
    exact apart u hk.1.1 (List.mem_range.mp hu) hk.2
  unfold State.nestSource
  rw [fresh]
  dsimp only
  rw [none']
  rfl

/-- An element-by-element tuple over scratch that no range maps: its two elements are read as they stand, and its value is written. -/
theorem nestTuple_plain {s : State} {k base : Nat} {g : Group} {f : NestFields} {w : NestWork} (single : f.op.reduces = false)
    (two : f.op.noB = false) (fma : f.op ≠ .fma) (fresh : w.wrote = []) (maps : (s.core k).maps = [])
    (clean : (s.core k).scratchPoison = [])
    (apart : ∀ o ∈ (if f.bscalar then [1] else [1, 2]), ∀ u, w.tuple < u → u < nestTuples f →
      ¬ (w.outPlace f base u < w.place f base o + 4 ∧ w.place f base o < w.outPlace f base u + nestDstBytes f)) :
    let el := fun (o : Nat) => leNat (Memory.read (s.core k).scratch (w.place f base o) 4)
    let v := nestResult f (el 1) (if f.bscalar then (w.vals.getD 2 0).toNat else el 2) 0
    s.nestTuple k g base f w = .ok (s.modCore k fun y => y.storeScratch (w.place f base 0) v,
      { s.nestWrote k g w (w.place f base 0) with tuple := w.tuple + 1, partialRed := none }) := by
  intro el v
  have rd (o : Nat) : s.readPlace k g.ctx g.priv (.scr k (w.place f base o)) 4 = .ok (s, Memory.read (s.core k).scratch (w.place f base o) 4) :=
    readPlace_plain maps clean ..
  have src1 : s.nestSource k g base f w 1 (leNat (Memory.read (s.core k).scratch (w.place f base 1) 4)) = el 1 :=
    nestSource_now single fresh (apart 1 (by split <;> simp)) _
  unfold State.nestTuple
  cases hb : f.bscalar with
  | true =>
    simp only [rd, src1, two, single, Bool.false_eq_true, if_false, if_true, fma, hb, writePlace_plain maps, fresh, List.contains_nil,
      Bool.false_and, v]
  | false =>
    have src2 : s.nestSource k g base f w 2 (leNat (Memory.read (s.core k).scratch (w.place f base 2) 4)) = el 2 :=
      nestSource_now single fresh (apart 2 (by simp [hb])) _
    simp only [rd, src1, src2, two, single, Bool.false_eq_true, if_false, fma, hb, writePlace_plain maps, fresh, List.contains_nil,
      Bool.false_and, v]

/-! ## The end of a NEST (R222, R258) -/

theorem nestRun_ends {s t1 : State} {k base : Nat} {g : Group} {f : NestFields} {w w1 : NestWork}
    (h : s.nestTuple k g base f w = .ok (t1, w1)) (last : nestTuples f ≤ w1.tuple) (n : Nat) :
    s.nestRun k g base f w (n + 1) = t1.endNest k w := by
  rw [State.nestRun, h]
  exact if_neg (Nat.not_lt.mpr last)

theorem execNestPerform_runs {s : State} {k : Nat} {g : Group} {f : NestFields} {w : NestWork} {q : List NestWork}
    (hq : (s.core k).nestQ = w :: q) (hi : w.instr = .nest f) (hw : w.why = none) (hg : s.group? k w.frame = some g)
    (behind : (s.reqs.any fun q => q.core == k && q.frame == w.frame && q.isWrite && q.unperformed && decide (q.seq < w.seq)) = false) :
    execNestPerform k s = .next (s.nestRun k g ((((s.core k).team? g.launch).map (·.scratchBase)).getD 0) f w 128) := by
  unfold execNestPerform
  rw [hq]
  dsimp only
  rw [hi, hg]
  dsimp only
  rw [hw, behind]
  exact if_neg Bool.false_ne_true

/-- A NEST that is over has left the queue, and its flag falls. -/
theorem endNest_leaves {t : State} {k : Nat} {w : NestWork} {g : Group} (hg : t.group? k w.frame = some g) :
    (t.endNest k w).mem = t.mem ∧ ((t.endNest k w).core k).scratch = (t.core k).scratch ∧
      (∀ x ∈ ((t.endNest k w).core k).nestQ, x.ticket ≠ w.ticket) ∧ (t.endNest k w).group? k w.frame = some (g.flagDown w.flag) := by
  unfold State.endNest
  extract_lets s1
  have quiet : t.Quiet s1 := .modCore fun _ => rfl
  have hc : s1.core k = _ := State.core_setCore ..
  refine ⟨(State.modGroup_mem ..).trans quiet.mem, (core_modGroup (F := (·.scratch)) (fun _ _ => rfl) ..).trans (congrArg (·.scratch) hc), ?_,
    State.group?_modGroup ((quiet.group? ..).trans hg) _⟩
  rw [core_modGroup (F := (·.nestQ)) (fun _ _ => rfl), hc]
  exact fun x hx => bne_iff_ne.mp (List.mem_filter.mp hx).2

end Sys2Proof.Machine

namespace Sys2Proof
open Machine

/-- Settles O38: the NEST's work and locks stand at the end of their lists, a tuple reads its sources as they stand and writes scratch once,
and the run of the last tuple ends the NEST. -/
theorem nestCompletes : Obligations.NestCompletes := by
  unfold Obligations.NestCompletes
  intro s g f
  refine ⟨?_, ?_, ?_⟩
  · intro k c flag locks ready fault clash room full entries
    obtain ⟨hi, hm, hf, hc⟩ := nestQueued_core s g f
    have ⟨⟨issuing, _⟩, _⟩ := ready
    have hg : (nestQueued s g f).group? (nestQueued s g f).iss.core (nestQueued s g f).iss.frame = some g := by
      rw [hi, State.group?, hf]
      exact issuing
    obtain ⟨⟨h, hh, lanes, scalars, flags⟩, mem, core⟩ := sent_group hg flag
    rw [hi] at hh core
    obtain ⟨scratch, hrest⟩ := Prod.mk.inj (core.trans hc)
    obtain ⟨queue, held⟩ := Prod.mk.inj hrest
    exact ⟨_, h, nestWorkOf s g f, execNest_queued ready fault clash room full entries, hh, lanes, scalars, flags, mem.trans hm, scratch,
      queue, held, rfl, rfl, rfl⟩
  · intro k base w single two fma fresh maps clean wf at' apart el v
    refine ⟨_, _, nestTuple_plain single two fma fresh maps clean apart, rfl, rfl, fun a => ?_⟩
    rw [State.modCore, State.core_setCore, storeScratch_scratch maps]
    exact get_write_getD wf ..
  · intro k n w q t1 w1 hq hi hw hg hn behind tuple last hg1
    subst hn
    obtain ⟨mem, scratch, left, group⟩ := endNest_leaves hg1
    exact ⟨_, _, (execNestPerform_runs hq hi hw hg behind).trans (congrArg _ (nestRun_ends tuple last 127)), mem, scratch, left, group, rfl⟩

end Sys2Proof
end

