-- ==== Sys2Proof/Proofs/Elements.lean ====
section
/-! PROOF. Elements of a packed value, and of an integer result (O3). -/

namespace Sys2Proof.Machine

open Sys2Proof
-- One proof at a time: in parallel, the stacks of the threads exceed the memory that the check allows.
set_option Elab.async false

/-! ## Elements of a value (R92) -/

theorem getD_splitElems (w : Nat) {n : Nat} (x : Nat) {e : Nat} (he : e < n) :
    (splitElems w n x).getD e 0 = x / 2 ^ (w * e) % 2 ^ w := by
  induction n generalizing x e with
  | zero => cases he
  | succ n ih =>
    cases e with
    | zero => rw [Nat.mul_zero, Nat.pow_zero, Nat.div_one]; rfl
    | succ e =>
      change (splitElems w n (x / 2 ^ w)).getD e 0 = _
      rw [ih _ (Nat.lt_of_succ_lt_succ he), Nat.div_div_eq_div_mul, ← pow_add, Nat.mul_succ, Nat.add_comm w]

theorem joinElems_elem (w : Nat) {xs : List Nat} {e : Nat} (he : e < xs.length) :
    joinElems w xs / 2 ^ (w * e) % 2 ^ w = xs[e] % 2 ^ w := by
  induction xs generalizing e with
  | nil => cases he
  | cons x xs ih =>
    cases e with
    | zero =>
      rw [Nat.mul_zero, Nat.pow_zero, Nat.div_one]
      exact (Nat.add_mul_mod_self_left ..).trans (Nat.mod_mod ..)
    | succ e =>
      have tail : (x % 2 ^ w + 2 ^ w * joinElems w xs) / 2 ^ w = joinElems w xs := by
        rw [Nat.add_mul_div_left _ _ (Nat.two_pow_pos w), Nat.div_eq_of_lt (Nat.mod_lt _ (Nat.two_pow_pos w)), Nat.zero_add]
      change (x % 2 ^ w + 2 ^ w * joinElems w xs) / 2 ^ (w * (e + 1)) % 2 ^ w = _
      rw [Nat.mul_succ, Nat.add_comm (w * e), pow_add, ← Nat.div_div_eq_div_mul, tail]
      exact ih (Nat.lt_of_succ_lt_succ he)

/-! ## Integers brought into a width (R104, R115) -/

theorem wrapInt_cast (w : Nat) (v : Int) : ((wrapInt w v : Nat) : Int) = v % 2 ^ w :=
  Int.toNat_of_nonneg (Int.emod_nonneg _ (pow_ne_zero _ two_ne_zero))

theorem clampInt_eq_max_min {lo hi : Int} (h : lo ≤ hi) (x : Int) : clampInt lo hi x = max lo (min hi x) := by
  unfold clampInt
  rcases lt_or_ge x lo with below | above
  · rw [if_pos below, max_eq_left ((min_le_right ..).trans below.le)]
  · rw [if_neg above.not_gt]
    rcases lt_or_ge hi x with large | under
    · rw [if_pos large, min_eq_left large.le, max_eq_right h]
    · rw [if_neg under.not_gt, min_eq_right under, max_eq_right above]

theorem intMin_le_intMax (w : Nat) (signed : Bool) : intMin w signed ≤ intMax w signed := by
  cases signed
  · exact Int.sub_nonneg_of_le (one_le_pow₀ (by decide))
  · exact (neg_nonpos.mpr (pow_nonneg zero_le_two _)).trans (Int.sub_nonneg_of_le (one_le_pow₀ (by decide)))

theorem keepInt_mod (t : Ty) (sat : Bool) (v : Int) : ((keepInt t sat v % 2 ^ t.width : Nat) : Int) =
    (if sat then max (intMin t.width t.isSigned) (min (intMax t.width t.isSigned) v) else v) % 2 ^ t.width := by
  rw [keepInt, Int.natCast_mod, wrapInt_cast, clampInt_eq_max_min (intMin_le_intMax ..)]
  rw [Nat.cast_pow]
  exact Int.emod_emod ..

theorem intMap_elem {t : Ty} (sat : Bool) (k : Int → Int → Int → Int) (x y z : Nat) {e : Nat} (he : e < t.lanes) :
    intMap t sat k x y z / 2 ^ (t.width * e) % 2 ^ t.width = keepInt t sat
      (k (intVal t ((t.elems x).getD e 0)) (intVal t ((t.elems y).getD e 0)) (intVal t ((t.elems z).getD e 0))) % 2 ^ t.width := by
  refine (joinElems_elem _ (by rwa [List.length_map, List.length_range])).trans ?_
  rw [List.getElem_map, List.getElem_range]

end Sys2Proof.Machine

namespace Sys2Proof
open Machine

/-- Settles O3: a result is joined of its elements, each of which is of the sources' elements in its place. -/
theorem integerElementsAreIndependent : Obligations.IntegerElementsAreIndependent := by
  unfold Obligations.IntegerElementsAreIndependent
  intro t sat k x y z e _ he
  have src (v : Nat) : (t.elems v).getD e 0 = v / 2 ^ (t.width * e) % 2 ^ t.width := getD_splitElems _ _ he
  refine (congrArg Nat.cast (intMap_elem sat k x y z he)).trans ?_
  rw [keepInt_mod, src, src, src]
  rfl

end Sys2Proof
end

