-- ==== Sys2Proof/Proofs/ExactFloats.lean ====
section
/-! PROOF. Sums, products and the order of finite values, as those of rationals (O8). -/

namespace Sys2Proof.Machine

open Sys2Proof
-- One proof at a time: in parallel, the stacks of the threads exceed the memory that the check allows.
set_option Elab.async false

/-! ## Finite values as rationals (R87, R97) -/

theorem FVal.exists_fin {v : FVal} (h : v.finite) : ∃ n m e, v = .fin n m e := by
  cases v with
  | fin n m e => exact ⟨n, m, e, rfl⟩
  | nan => cases h
  | inf n => cases h

@[simp] theorem FVal.isNan_of_finite {v : FVal} (h : v.finite) : v.isNan = false := by
  obtain ⟨n, m, e, rfl⟩ := exists_fin h
  rfl

@[simp] theorem FVal.isInf_of_finite {v : FVal} (h : v.finite) : v.isInf = false := by
  obtain ⟨n, m, e, rfl⟩ := exists_fin h
  rfl

theorem FVal.rat_fin_zero (n : Bool) (e : Int) : (FVal.fin n 0 e).rat = 0 := by
  rw [rat, Nat.cast_zero, mul_zero, zero_mul]

theorem FVal.rat_of_isZero {v : FVal} (h : v.isZero = true) : v.rat = 0 := by
  cases v with
  | fin n m e =>
    have hm : m = 0 := beq_iff_eq.mp h
    rw [hm, rat_fin_zero]
  | nan => rfl
  | inf n => rfl

/-- The mantissa brought down to a lower exponent stands for the same number. -/
theorem FVal.scaled_rat {v : FVal} {q : Int} (hv : v.finite) (h : v.isZero = false → q ≤ v.exp) :
    (v.scaled q : ℚ) * 2 ^ q = v.rat := by
  obtain ⟨n, m, e, rfl⟩ := exists_fin hv
  have cast : ((FVal.fin n m e).scaled q : ℚ) = (if n then -1 else 1) * (m * 2 ^ (e - q).toNat) := by
    change (((if n then -1 else 1) * (m * 2 ^ (e - q).toNat) : Int) : ℚ) = _
    rw [Int.cast_mul, Int.cast_mul, Int.cast_natCast, Int.cast_pow]
    cases n <;> rfl
  rw [cast, mul_assoc, mul_assoc]
  by_cases hm : m = 0
  · rw [hm, rat_fin_zero, Nat.cast_zero, zero_mul, mul_zero]
  · have le : q ≤ e := h (beq_false_of_ne hm)
    rw [← zpow_natCast, ← zpow_add₀ two_ne_zero, Int.toNat_of_nonneg (sub_nonneg.mpr le), sub_add_cancel, ← mul_assoc]
    rfl

theorem minExp_le {vs : List FVal} {v : FVal} (hv : v ∈ vs) (hz : v.isZero = false) : minExp vs ≤ v.exp := by
  induction vs with
  | nil => cases hv
  | cons u us ih =>
    cases us with
    | nil => exact (congrArg FVal.exp (List.mem_singleton.mp hv)).ge
    | cons w ws =>
      change (if u.isZero then minExp (w :: ws) else if (w :: ws).all (·.isZero) then u.exp else min u.exp (minExp (w :: ws))) ≤ v.exp
      rcases List.mem_cons.mp hv with rfl | hv
      · rw [hz, if_neg Bool.false_ne_true]
        by_cases all : (w :: ws).all (·.isZero) = true
        · rw [if_pos all]
        · rw [if_neg all]
          exact min_le_left ..
      · by_cases hu : u.isZero = true
        · rw [if_pos hu]
          exact ih hv
        · rw [if_neg hu, if_neg fun all => Bool.false_ne_true (hz ▸ List.all_eq_true.mp all v hv)]
          exact (min_le_right ..).trans (ih hv)

theorem FVal.ofInt_finite (x q : Int) (z : Bool) : (FVal.ofInt x q z).finite := by
  unfold FVal.ofInt
  split <;> rfl

theorem FVal.ofInt_rat (x q : Int) (z : Bool) : (FVal.ofInt x q z).rat = x * 2 ^ q := by
  unfold FVal.ofInt
  split
  · rename_i hx
    rw [hx, rat_of_isZero rfl, Int.cast_zero, zero_mul]
  · refine congrArg (· * (2 : ℚ) ^ q) ?_
    rw [Nat.cast_natAbs]
    rcases lt_or_ge x 0 with hx | hx
    · rw [decide_eq_true hx, if_pos rfl, abs_of_neg hx, Int.cast_neg, neg_one_mul, neg_neg]
    · rw [decide_eq_false hx.not_gt, if_neg Bool.false_ne_true, abs_of_nonneg hx, one_mul]

/-- The sum of finite values, as an integer times a power of two. -/
theorem sumExact_finite {vs : List FVal} (h : ∀ v ∈ vs, v.finite = true) (rm : Rm) :
    ∃ z, sumExact rm vs = FVal.ofInt (((vs.filter fun v => !v.isZero).map (·.scaled (minExp (vs.filter fun v => !v.isZero)))).foldl (· + ·) 0)
      (minExp (vs.filter fun v => !v.isZero)) z := by
  have none' {p : FVal → Bool} (hp : ∀ v : FVal, v.finite = true → p v = false) : vs.any p = false :=
    List.any_eq_false.mpr fun v hv => by rw [hp v (h v hv)]; exact Bool.false_ne_true
  have nan : vs.any (·.isNan) = false := none' fun _ hv => FVal.isNan_of_finite hv
  have inf (p : FVal → Bool) : (vs.any fun v => v.isInf && p v) = false := none' fun _ hv => by rw [FVal.isInf_of_finite hv]; rfl
  have inf' : vs.any (·.isInf) = false := none' fun _ hv => FVal.isInf_of_finite hv
  unfold sumExact
  rw [nan, inf, inf']
  exact ⟨_, rfl⟩

theorem sum_filter_isZero (vs : List FVal) : ((vs.filter fun v => !v.isZero).map FVal.rat).sum = (vs.map FVal.rat).sum := by
  induction vs with
  | nil => rfl
  | cons v vs ih =>
    rw [List.filter_cons, List.map_cons, List.sum_cons]
    cases hz : v.isZero with
    | true => rw [FVal.rat_of_isZero hz, zero_add]; exact ih
    | false => exact (List.sum_cons ..).trans (congrArg _ ih)

/-- The sum of any list of finite values is their sum as rationals. -/
theorem sumExact_rat {vs : List FVal} (h : ∀ v ∈ vs, v.finite = true) (rm : Rm) : (sumExact rm vs).finite ∧
    (sumExact rm vs).rat = (vs.map FVal.rat).sum := by
  obtain ⟨z, hs⟩ := sumExact_finite h rm
  rw [hs]
  refine ⟨FVal.ofInt_finite .., ?_⟩
  rw [FVal.ofInt_rat, ← sum_filter_isZero, ← List.sum_eq_foldl]
  generalize hnz : vs.filter (fun v => !v.isZero) = nz
  have scaled : ∀ v ∈ nz, (v.scaled (minExp nz) : ℚ) * 2 ^ minExp nz = v.rat := fun v hv => by
    have ⟨hm, _⟩ := List.mem_filter.mp (hnz ▸ hv)
    exact v.scaled_rat (h v hm) (minExp_le hv)
  rw [← List.map_congr_left scaled, List.sum_map_mul_right, Int.cast_list_sum, List.map_map]
  rfl

theorem mulExact_rat {v w : FVal} (hv : v.finite) (hw : w.finite) : (mulExact v w).finite ∧ (mulExact v w).rat = v.rat * w.rat := by
  obtain ⟨a, m, e, rfl⟩ := FVal.exists_fin hv
  obtain ⟨b, n, f, rfl⟩ := FVal.exists_fin hw
  refine ⟨rfl, ?_⟩
  by_cases hz : m * n = 0
  · have none' : (FVal.fin a m e).rat * (FVal.fin b n f).rat = 0 := by
      rcases Nat.mul_eq_zero.mp hz with rfl | rfl
      · exact mul_eq_zero_of_left (FVal.rat_of_isZero rfl) _
      · exact mul_eq_zero_of_right _ (FVal.rat_of_isZero rfl)
    exact none'.symm ▸ FVal.rat_of_isZero (v := mulExact (.fin a m e) (.fin b n f)) (beq_iff_eq.mpr hz)
  · have sign : (if a != b then -1 else 1 : ℚ) = (if a then -1 else 1) * if b then -1 else 1 := by
      match a, b with
      | false, false => exact (one_mul 1).symm
      | false, true => exact (one_mul (-1)).symm
      | true, false => exact (mul_one (-1)).symm
      | true, true => exact ((neg_mul_neg 1 1).trans (one_mul 1)).symm
    refine (congrArg (fun x : Int => (if a != b then -1 else 1 : ℚ) * ((m * n : ℕ) : ℚ) * 2 ^ x) (if_neg hz)).trans ?_
    rw [sign, Nat.cast_mul, zpow_add₀ two_ne_zero]
    exact (congrArg (· * _) (mul_mul_mul_comm ..)).trans (mul_mul_mul_comm ..)

/-! ## The order of values (R125) -/

theorem FVal.lt_rat {v w : FVal} (hv : v.finite) (hw : w.finite) : v.lt w = decide (v.rat < w.rat) := by
  obtain ⟨a, m, e, rfl⟩ := exists_fin hv
  obtain ⟨b, n, f, rfl⟩ := exists_fin hw
  have below {u : FVal} (hm : u ∈ [FVal.fin a m e, .fin b n f]) (hz : u.isZero = false) :
      minExp ([FVal.fin a m e, .fin b n f].filter fun v => !v.isZero) ≤ u.exp :=
    minExp_le (List.mem_filter.mpr ⟨hm, hz ▸ rfl⟩) hz
  have left := scaled_rat hv (below List.mem_cons_self)
  have right := scaled_rat hw (below (List.mem_cons_of_mem _ List.mem_cons_self))
  unfold FVal.lt
  dsimp only
  generalize minExp _ = q at left right ⊢
  rw [← left, ← right, decide_eq_decide, mul_lt_mul_iff_left₀ (zpow_pos two_pos q), Int.cast_lt]

theorem FVal.numEq_rat {v w : FVal} (hv : v.finite) (hw : w.finite) : v.numEq w = decide (v.rat = w.rat) := by
  rw [numEq, isNan_of_finite hv, isNan_of_finite hw, lt_rat hv hw, lt_rat hw hv]
  rcases lt_trichotomy v.rat w.rat with h | h | h
  · rw [decide_eq_true h, decide_eq_false h.ne]
    rfl
  · rw [h, decide_eq_false (lt_irrefl _), decide_eq_true rfl]
    rfl
  · rw [decide_eq_false h.not_gt, decide_eq_true h, decide_eq_false h.ne']
    rfl

/-! ## NaN and infinities (R98) -/

theorem sumExact_nan {vs : List FVal} (h : .nan ∈ vs) (rm : Rm) : sumExact rm vs = .nan :=
  if_pos (List.any_eq_true.mpr ⟨.nan, h, rfl⟩)

@[simp] theorem mulExact_nan_right (v : FVal) : mulExact v .nan = .nan := by
  cases v <;> rfl

@[simp] theorem fmin_nan_left (v : FVal) : fmin .nan v = v := rfl
@[simp] theorem fmax_nan_left (v : FVal) : fmax .nan v = v := rfl

@[simp] theorem fmin_nan_right (v : FVal) : fmin v .nan = v := by
  cases v <;> rfl

@[simp] theorem fmax_nan_right (v : FVal) : fmax v .nan = v := by
  cases v <;> rfl

end Sys2Proof.Machine

namespace Sys2Proof
open Machine

/-- Settles O8: a finite value is an integer times a power of two, and a sum or a comparison brings both to one power. -/
theorem exactArithmetic : Obligations.ExactArithmetic := by
  unfold Obligations.ExactArithmetic
  refine ⟨fun rm v w hv hw => ?_, fun rm v => ?_, fun rm n => ?_⟩
  · obtain ⟨sumFin, sumRat⟩ := sumExact_rat (vs := [v, w]) (by simp [hv, hw]) rm
    obtain ⟨mulFin, mulRat⟩ := mulExact_rat hv hw
    exact ⟨sumFin, sumRat.trans (congrArg _ (add_zero _)), mulFin, mulRat, FVal.lt_rat hv hw, FVal.numEq_rat hv hw⟩
  · exact ⟨sumExact_nan List.mem_cons_self rm, sumExact_nan (List.mem_cons_of_mem _ List.mem_cons_self) rm, rfl,
      mulExact_nan_right v, fmin_nan_left v, fmin_nan_right v, fmax_nan_left v, fmax_nan_right v⟩
  · cases n <;> exact ⟨rfl, rfl, rfl, rfl⟩

end Sys2Proof
end

