-- ==== Sys2Proof/Proofs/FloatCodes.lean ====
section
/-! PROOF. A code is a sign and a magnitude, and its value rounds to itself (O9). -/

namespace Sys2Proof.Machine

open Sys2Proof
-- One proof at a time: in parallel, the stacks of the threads exceed the memory that the check allows.
set_option Elab.async false

namespace FFmt
variable {f : FFmt}

/-! ## The figures of the formats (R87, R88) -/

/-- The magnitudes of a format: its mantissas times its exponents, `2 * bias + 2` of them. -/
theorem signBit_eq (f : FFmt) : f.signBit = (2 * f.bias + 2) * 2 ^ f.mant := by
  cases f <;> rfl

theorem two_pow_bits (f : FFmt) : 2 ^ f.bits = f.signBit + f.signBit := by
  cases f <;> rfl

/-- What the format holds above its largest finite magnitude: the top exponent, the NaN of e4m3, or nothing. -/
theorem maxCode_succ (f : FFmt) : f.maxCode + 1 =
    if f.hasInf then (2 * f.bias + 1) * 2 ^ f.mant else if f = .e4m3 then 0x7F else f.signBit := by
  cases f <;> rfl

theorem maxCode_lt (f : FFmt) : f.maxCode < f.signBit := by
  cases f <;> decide

/-- The exponent field of the infinities and NaNs. -/
theorem top_eq (f : FFmt) : f.signBit / 2 ^ f.mant - 1 = 2 * f.bias + 1 := by
  cases f <;> rfl

/-! ## Codes as signs and magnitudes -/

-- `noncomputable`, here and below: what serves proofs only needs no code of its own.
/-- The code of a sign and a magnitude. -/
noncomputable abbrev signed (f : FFmt) (neg : Bool) (mag : Nat) : Nat := (if neg then f.signBit else 0) + mag

/-- Every code of a format is of its sign and its magnitude. -/
theorem signed_parts {c : Nat} (hc : c < 2 ^ f.bits) : f.signed (c / f.signBit % 2 == 1) (c % f.signBit) = c := by
  rw [f.two_pow_bits] at hc
  rcases Nat.lt_or_ge c f.signBit with h | h
  · rw [Nat.div_eq_of_lt h, Nat.mod_eq_of_lt h]
    exact Nat.zero_add c
  · obtain ⟨mag, rfl⟩ := Nat.exists_eq_add_of_le h
    have low := Nat.lt_of_add_lt_add_left hc
    rw [Nat.add_div_left _ (Nat.zero_lt_of_lt low), Nat.add_mod_left, Nat.div_eq_of_lt low, Nat.mod_eq_of_lt low]
    rfl

theorem signed_mod {mag : Nat} (neg : Bool) (h : mag < f.signBit) : f.signed neg mag % f.signBit = mag := by
  cases neg
  · exact (congrArg (· % _) (Nat.zero_add mag)).trans (Nat.mod_eq_of_lt h)
  · exact (Nat.add_mod_left ..).trans (Nat.mod_eq_of_lt h)

/-- What a code stands for: an infinity, a NaN, or a whole number of units of its own last place. -/
inductive Decodes (f : FFmt) (neg : Bool) (mag : Nat) : FVal → Prop
  | inf (has : f.hasInf = true) (top : (2 * f.bias + 1) * 2 ^ f.mant = mag) : Decodes f neg mag (.inf neg)
  | nan (above : f.hasInf = true → (2 * f.bias + 1) * 2 ^ f.mant < mag) : Decodes f neg mag .nan
  | fin {m x : Nat} {e : Int} (le : mag ≤ f.maxCode) (parts : x * 2 ^ f.mant + m = mag) (hm : m < 2 ^ (f.mant + 1))
    (lead : x = 0 ∨ 2 ^ f.mant ≤ m) (he : e + f.mant + f.bias = x + 1) : Decodes f neg mag (.fin neg m e)

/-- A magnitude that is neither an infinity's nor a NaN's is finite. -/
theorem le_maxCode {mag : Nat} (h : mag < f.signBit) (inf : ¬ (f.hasInf && mag / 2 ^ f.mant == 2 * f.bias + 1) = true)
    (nan : ¬ (f == .e4m3 && mag == 0x7F) = true) : mag ≤ f.maxCode := by
  refine Nat.le_of_lt_add_one ?_
  rw [f.maxCode_succ]
  split
  · rename_i has
    rw [has, Bool.true_and, beq_iff_eq] at inf
    refine (Nat.div_lt_iff_lt_mul (Nat.two_pow_pos _)).mp (Nat.lt_of_le_of_ne (Nat.le_of_lt_succ ?_) inf)
    exact (Nat.div_lt_iff_lt_mul (Nat.two_pow_pos _)).mpr (f.signBit_eq ▸ h)
  · split
    · rename_i four
      rw [four, beq_self_eq_true, Bool.true_and, beq_iff_eq] at nan
      rw [four] at h
      exact Nat.lt_of_le_of_ne (Nat.le_of_lt_succ h) nan
    · exact h

theorem decodes_ite {neg : Bool} {mag : Nat} {p : Prop} [Decidable p] {v w : FVal} (hv : p → f.Decodes neg mag v)
    (hw : ¬ p → f.Decodes neg mag w) : f.Decodes neg mag (if p then v else w) := by
  split
  · exact hv ‹p›
  · exact hw ‹¬ p›

/-- A code's value, by the exponent and mantissa fields of its magnitude. -/
theorem decode_stands (f : FFmt) (c : Nat) : f.Decodes (c / f.signBit % 2 == 1) (c % f.signBit) (f.decode c) := by
  have h : c % f.signBit < f.signBit := Nat.mod_lt c (Nat.two_pow_pos _)
  have parts := Nat.div_add_mod' (c % f.signBit) (2 ^ f.mant)
  have frac := Nat.mod_lt (c % f.signBit) (Nat.two_pow_pos f.mant)
  have wide : 2 ^ (f.mant + 1) = 2 ^ f.mant + 2 ^ f.mant := by rw [Nat.pow_succ, Nat.mul_two]
  unfold decode
  rw [f.top_eq]
  dsimp only
  generalize c % f.signBit = mag at *
  refine decodes_ite (fun inf => ?_) fun fin => decodes_ite (fun four => .nan fun has => ?_) fun num =>
    decodes_ite (fun sub => .fin (le_maxCode h fin num) (sub ▸ parts) ?_ (.inl rfl) (by rw [sub_add_cancel, sub_add_cancel]; rfl))
      fun normal => ?_
  · obtain ⟨has, top⟩ := Bool.and_eq_true_iff.mp inf
    rw [beq_iff_eq.mp top] at parts
    exact decodes_ite (fun zero => .inf has (by rwa [zero] at parts))
      fun some => .nan fun _ => parts ▸ Nat.lt_add_of_pos_right (Nat.pos_of_ne_zero some)
  · rw [beq_iff_eq.mp (Bool.and_eq_true_iff.mp four).1] at has
    cases has
  · exact wide ▸ frac.trans_le (Nat.le_add_left ..)
  · obtain ⟨x, hx⟩ := Nat.exists_eq_succ_of_ne_zero normal
    rw [hx] at parts ⊢
    rw [Nat.succ_mul, Nat.add_assoc, Nat.add_comm (2 ^ f.mant)] at parts
    exact .fin (le_maxCode h fin num) parts (wide ▸ Nat.add_lt_add_right frac _) (.inr (Nat.le_add_left ..))
      (by rw [sub_add_cancel, sub_add_cancel]; rfl)

end FFmt

/-! ## Rounding what needs none (R95) -/

/-- A whole number of units stays. -/
theorem roundQuantum_exact (rm : Rm) (neg : Bool) (m : Nat) (e : Int) : roundQuantum rm neg m e false e = m := by
  have above : ¬ e ≤ e - 2 := (Int.sub_lt_self e (by decide)).not_ge
  have two : (e - (e - 2)).toNat = 2 := congrArg Int.toNat (Int.sub_sub_self e 2)
  have whole : 4 * m / 2 ^ 2 = m := Nat.mul_div_cancel_left m (by decide)
  have stays (odd : Bool) : ¬ roundsUp rm neg odd false (4 * m % 2 ^ 2) (2 ^ 2) = true := by
    rw [show 4 * m % 2 ^ 2 = 0 from Nat.mul_mod_right 4 m]
    cases rm <;> cases neg <;> exact Bool.false_ne_true
  refine (if_neg above).trans ?_
  rw [two]
  exact (if_neg (Nat.not_lt.mpr (Nat.le_add_left ..))).trans ((if_neg (stays _)).trans whole)

namespace FFmt
variable {f : FFmt}

/-- A magnitude in units of its own last place is its own code. -/
theorem round_exact {rm : Rm} {sat neg : Bool} {m x : Nat} {e : Int} (he : e + f.mant + f.bias = x + 1) (hm : m < 2 ^ (f.mant + 1))
    (lead : x = 0 ∨ 2 ^ f.mant ≤ m) (le : x * 2 ^ f.mant + m ≤ f.maxCode) :
    f.round rm sat neg m e false = f.signed neg (x * 2 ^ f.mant + m) := by
  rcases Nat.eq_zero_or_pos m with rfl | pos
  · rcases lead with rfl | lead
    · rw [Nat.zero_mul]
      rfl
    · exact absurd lead (Nat.two_pow_pos _).not_ge
  have log : Nat.log2 m ≤ f.mant := Nat.le_of_lt_succ ((Nat.log2_lt pos.ne').mpr hm)
  have full : x = 0 ∨ Nat.log2 m = f.mant := lead.imp_right fun h => log.antisymm ((Nat.le_log2 pos.ne').mpr h)
  have ex : x + 1 ≤ f.bias + 1 + f.bias := by
    rcases lead with rfl | lead
    · exact (Nat.le_add_left 1 _).trans (Nat.le_add_right ..)
    · rw [Nat.add_right_comm, ← Nat.two_mul]
      refine Nat.le_of_lt_succ (Nat.lt_of_mul_lt_mul_right (a := 2 ^ f.mant) ?_)
      rw [← f.signBit_eq, Nat.add_mul, Nat.one_mul]
      exact (Nat.add_le_add_left lead _).trans_lt (le.trans_lt f.maxCode_lt)
  have top : ¬ e + Nat.log2 m > f.bias + 1 :=
    ((Int.add_le_add_left (Int.ofNat_le.mpr log) e).trans (Int.le_of_add_le_add_right (he.trans_le (Int.ofNat_le.mpr ex)))).not_gt
  have unit : max (e + Nat.log2 m - f.mant) (1 - f.bias - f.mant) = e := by
    rcases full with rfl | full
    · have least : (1 - f.bias - f.mant : Int) = e := sub_eq_of_eq_add (sub_eq_of_eq_add he.symm)
      rw [least]
      exact max_eq_right (sub_le_iff_le_add.mpr (Int.add_le_add_left (Int.ofNat_le.mpr log) e))
    · rw [full, add_sub_cancel_right]
      exact max_eq_left (sub_le_iff_le_add.mpr (sub_le_iff_le_add.mpr (he ▸ le_add_of_nonneg_left (Int.natCast_nonneg x))))
  refine (if_neg pos.ne').trans ((if_neg top).trans ?_)
  rw [unit]
  dsimp only
  rw [roundQuantum_exact, he, add_sub_cancel_right]
  exact if_neg le.not_gt

/-- A code that is no NaN, rounded from its own value, is itself. -/
theorem encode_decode {c : Nat} (hc : c < 2 ^ f.bits) (h : (f.decode c).isNan = false) (rm : Rm) :
    f.encode rm false (f.decode c) = c := by
  have code := signed_parts hc
  have stands := f.decode_stands c
  generalize f.decode c = v at h stands ⊢
  rw [← code]
  cases stands with
  | inf has top => exact (if_pos has).trans (congrArg _ ((congrArg (· * _) f.top_eq).trans top))
  | nan _ => cases h
  | fin le parts room lead he =>
    rw [← parts] at le ⊢
    exact round_exact he room lead le

end FFmt

end Sys2Proof.Machine

namespace Sys2Proof
open Machine

/-- Settles O9: a code's value is a whole number of units of its own last place, and rounding leaves those as they are. -/
theorem exactValuesAreKept : Obligations.ExactValuesAreKept := fun _ rm _ hc h => FFmt.encode_decode hc h rm

end Sys2Proof
end

