-- ==== Sys2Proof/Proofs/Reductions.lean ====
section
/-! PROOF. Masks, sums and extremes over lanes, and what an atomic writes (O14). -/

namespace Sys2Proof.Machine

open Sys2Proof
-- One proof at a time: in parallel, the stacks of the threads exceed the memory that the check allows.
set_option Elab.async false

/-! ## Masks (R174) -/

theorem ofBits_testBit (bs : List Bool) (j : Nat) : (ofBits bs).testBit j = bs.getD j false := by
  induction bs generalizing j with
  | nil => exact Nat.zero_testBit j
  | cons b bs ih =>
    have bit : ofBits (b :: bs) = Nat.bit b (ofBits bs) := (Nat.add_comm ..).trans (Nat.bit_val ..).symm
    rw [bit]
    cases j with
    | zero => exact Nat.testBit_bit_zero ..
    | succ j => exact (Nat.testBit_bit_succ ..).trans (ih j)

theorem maskWhere_testBit (vs : List (Option Nat)) (p : Nat → Bool) (j : Nat) :
    (maskWhere vs p).testBit j = (vs.getD j none).any p := by
  rw [maskWhere, ofBits_testBit, List.getD_eq_getElem?_getD, List.getD_eq_getElem?_getD, List.getElem?_map]
  rcases vs[j]? with _ | _ | x <;> rfl

/-! ## The least and the greatest of a list -/

/-- One of two values, one that `R` has before the other. -/
def Chosen {α : Type} (R : α → α → Prop) (a b x : α) : Prop := x = a ∧ R a b ∨ x = b ∧ R b a

theorem chosen_ite {α : Type} {R : α → α → Prop} {a b x y : α} {p : Prop} [Decidable p] (hx : p → Chosen R a b x)
    (hy : ¬ p → Chosen R a b y) : Chosen R a b (if p then x else y) := by
  split
  · exact hx ‹p›
  · exact hy ‹¬ p›

/-- A fold that keeps one of two values at each step, one that `R` has before both, ends with one of the list's that `R` has before
them all. -/
theorem foldl_choice {α : Type} {R : α → α → Prop} {op : α → α → α} (refl : ∀ a, R a a) (trans : ∀ {a b c}, R a b → R b c → R a c)
    (choice : ∀ a b, Chosen R a b (op a b)) (a : α) (xs : List α) :
    xs.foldl op a ∈ a :: xs ∧ ∀ x ∈ a :: xs, R (xs.foldl op a) x := by
  induction xs generalizing a with
  | nil => exact ⟨List.mem_cons_self, fun x hx => List.mem_singleton.mp hx ▸ refl x⟩
  | cons b xs ih =>
    rw [List.foldl_cons]
    obtain ⟨mem, before⟩ := ih (op a b)
    obtain ⟨head, tail⟩ := List.forall_mem_cons.mp before
    rcases choice a b with ⟨one, le⟩ | ⟨one, le⟩
    · rw [one] at mem head tail ⊢
      exact ⟨(List.mem_cons.mp mem).elim (fun h => List.mem_cons.mpr (.inl h)) fun h => List.mem_cons_of_mem _ (List.mem_cons_of_mem _ h),
        List.forall_mem_cons.mpr ⟨head, List.forall_mem_cons.mpr ⟨trans head le, tail⟩⟩⟩
    · rw [one] at mem head tail ⊢
      exact ⟨List.mem_cons_of_mem _ mem, List.forall_mem_cons.mpr ⟨trans head le, List.forall_mem_cons.mpr ⟨head, tail⟩⟩⟩

theorem mem_present {vs : List (Option Nat)} {x : Nat} : x ∈ vs.filterMap id ↔ some x ∈ vs :=
  List.mem_filterMap.trans ⟨fun ⟨_, h, e⟩ => e ▸ h, fun h => ⟨_, h, rfl⟩⟩

/-! ## Integers (R174) -/

theorem sumLanes_int {t : Ty} (ht : t ≠ .f32) {vs : List (Option Nat)} (hv : ∀ v ∈ vs, ∀ x, v = some x → x < 2 ^ 32) (n : Nat) :
    sumLanes t vs n = ((vs.take n).map fun v => v.getD 0).sum % 2 ^ 32 := by
  have fold (xs : List Nat) (c x : Nat) (hx : x < 2 ^ 32) : xs.foldl (addStep t) (if t = .f32 then c else x) = (x + xs.sum) % 2 ^ 32 := by
    rw [if_neg ht]
    induction xs generalizing x with
    | nil => exact (Nat.mod_eq_of_lt hx).symm
    | cons y ys ih =>
      rw [List.foldl_cons, addStep, if_neg ht, ih _ (Nat.mod_lt _ (Nat.two_pow_pos 32)), List.sum_cons, Nat.mod_add_mod, Nat.add_assoc]
  unfold sumLanes
  rw [addIdentity, if_neg ht]
  match h : vs.take n with
  | [] => rfl
  | none :: ws => exact fold _ _ _ (Nat.two_pow_pos 32)
  | some x :: ws => exact fold _ _ _ (hv _ (List.mem_of_mem_take (h ▸ List.mem_cons_self)) x rfl)

/-- The order whose first value an extreme is: rising for the least, falling for the greatest. -/
def IntBefore (t : Ty) (greatest : Bool) (a b : Nat) : Prop := if greatest then intVal t b ≤ intVal t a else intVal t a ≤ intVal t b

theorem extremeOf_int {t : Ty} (ht : t ≠ .f32) {vs : List (Option Nat)} {x : Nat} (hx : some x ∈ vs) (greatest : Bool) :
    some (extremeOf t greatest vs) ∈ vs ∧ IntBefore t greatest (extremeOf t greatest vs) x := by
  rw [show extremeOf t greatest vs = _ from if_neg ht]
  have hx := mem_present.mpr hx
  match h : vs.filterMap id with
  | [] =>
    rw [h] at hx
    cases hx
  | y :: ys =>
    obtain ⟨mem, before⟩ := foldl_choice (R := IntBefore t greatest)
      (op := fun a b => if decide (intVal t a < intVal t b) == greatest then b else a)
      (fun a => by cases greatest <;> exact le_rfl)
      (fun h1 h2 => by
        cases greatest
        · exact le_trans h1 h2
        · exact le_trans h2 h1)
      (fun a b => by
        cases greatest
        · exact chosen_ite (fun h => .inr ⟨rfl, le_of_not_gt (of_decide_eq_false (beq_iff_eq.mp h))⟩)
            fun h => .inl ⟨rfl, (of_decide_eq_true (Bool.eq_true_of_not_eq_false fun f => h (beq_iff_eq.mpr f))).le⟩
        · exact chosen_ite (fun h => .inr ⟨rfl, (of_decide_eq_true (beq_iff_eq.mp h)).le⟩)
            fun h => .inl ⟨rfl, le_of_not_gt fun lt => h (beq_iff_eq.mpr (decide_eq_true lt))⟩) y ys
    rw [← h] at mem before
    exact ⟨mem_present.mp mem, before x hx⟩

/-! ## Singles (R98, R174) -/

-- `noncomputable`, here and below: what serves proofs only needs no code of its own.
/-- The place of a number in the order of the reals and the infinities. -/
noncomputable def FVal.ext : FVal → WithBot (WithTop ℚ)
  | .inf true => ⊥
  | .inf false => (⊤ : WithTop ℚ)
  | v => (v.rat : WithTop ℚ)

theorem FVal.lt_ext {v w : FVal} (hv : v.isNan = false) (hw : w.isNan = false) : v.lt w = decide (v.ext < w.ext) := by
  match v, w with
  | .inf true, .inf true => exact (decide_eq_false (lt_irrefl _)).symm
  | .inf true, .inf false => exact (decide_eq_true (WithBot.bot_lt_coe _)).symm
  | .inf false, .inf true => exact (decide_eq_false not_lt_bot).symm
  | .inf false, .inf false => exact (decide_eq_false (lt_irrefl _)).symm
  | .inf true, .fin _ _ _ => exact (decide_eq_true (WithBot.bot_lt_coe _)).symm
  | .inf false, .fin _ _ _ => exact (decide_eq_false fun h => not_top_lt (WithBot.coe_lt_coe.mp h)).symm
  | .fin _ _ _, .inf true => exact (decide_eq_false not_lt_bot).symm
  | .fin _ _ _, .inf false => exact (decide_eq_true (WithBot.coe_lt_coe.mpr (WithTop.coe_lt_top _))).symm
  | .fin a m e, .fin b n f =>
    rw [FVal.lt_rat rfl rfl]
    exact decide_eq_decide.mpr (WithBot.coe_lt_coe.trans WithTop.coe_lt_coe).symm

/-- The place of a number with −0 below +0 (R98). -/
noncomputable def FVal.key (v : FVal) : WithBot (WithTop ℚ) ×ₗ Bool := toLex (v.ext, !v.isNeg)

theorem FVal.key_le {v w : FVal} : v.key ≤ w.key ↔ v.ext < w.ext ∨ v.ext = w.ext ∧ (!v.isNeg) ≤ !w.isNeg :=
  Prod.Lex.toLex_le_toLex

section
variable {v w : FVal} (hv : v.isNan = false) (hw : w.isNan = false)
include hv hw

theorem FVal.key_le_of_lt (h : v.lt w = true) : v.key ≤ w.key :=
  key_le.mpr (.inl (of_decide_eq_true ((lt_ext hv hw).symm.trans h)))

theorem FVal.key_le_of_not_lt (h : ¬ w.lt v = true) (sign : (!v.isNeg) ≤ !w.isNeg) : v.key ≤ w.key := by
  rw [lt_ext hw hv, decide_eq_true_iff] at h
  exact key_le.mpr ((le_of_not_gt h).lt_or_eq.imp_right fun h => ⟨h, sign⟩)

/-- A number not above another in the order of R98 has it not below. -/
theorem FVal.lt_of_key_le (h : v.key ≤ w.key) : w.lt v = false :=
  (lt_ext hw hv).trans (decide_eq_false ((key_le.mp h).elim (fun h => h.not_gt) fun h => h.1.not_gt))

end

/-- The order whose first number an extreme is: rising for the least, falling for the greatest, and NaN after every number. -/
def FVal.Before (greatest : Bool) (v w : FVal) : Prop :=
  w.isNan = true ∨ (v.isNan = false ∧ if greatest then w.key ≤ v.key else v.key ≤ w.key)

namespace FVal.Before
variable {greatest : Bool} {u v w : FVal}

theorem refl (greatest : Bool) (v : FVal) : v.Before greatest v := by
  cases h : v.isNan
  · exact .inr ⟨h, by cases greatest <;> exact le_rfl⟩
  · exact .inl h

theorem trans (h1 : u.Before greatest v) (h2 : v.Before greatest w) : u.Before greatest w := by
  rcases h2 with hw | ⟨hv, h2⟩
  · exact .inl hw
  · rcases h1 with hv' | ⟨hu, h1⟩
    · exact absurd (hv.symm.trans hv') Bool.false_ne_true
    · cases greatest
      · exact .inr ⟨hu, le_trans h1 h2⟩
      · exact .inr ⟨hu, le_trans h2 h1⟩

theorem num (h : v.Before greatest w) (hw : w.isNan = false) : v.isNan = false ∧ if greatest then w.key ≤ v.key else v.key ≤ w.key :=
  h.resolve_left (hw ▸ Bool.false_ne_true)

end FVal.Before

/-- The step of an extreme of singles (R98, R174). -/
noncomputable abbrev fextreme (greatest : Bool) (a b : FVal) : FVal := if greatest then fmax a b else fmin a b

section
variable (a b : FVal)

theorem FVal.eq_nan {v : FVal} (h : v.isNan = true) : v = .nan := by
  cases v with
  | nan => rfl
  | inf n => cases h
  | fin n m e => cases h

theorem isNan_eq_false {x : FVal} (h : ¬ x.isNan = true) : x.isNan = false := Bool.eq_false_iff.mpr h

theorem fmin_choice : Chosen (FVal.Before false) a b (fmin a b) := by
  refine chosen_ite (fun na => .inr ⟨rfl, .inl na⟩) fun na => chosen_ite (fun nb => .inl ⟨rfl, .inl nb⟩) fun nb => ?_
  have na := isNan_eq_false na
  have nb := isNan_eq_false nb
  exact chosen_ite (fun lt => .inl ⟨rfl, .inr ⟨na, FVal.key_le_of_lt na nb lt⟩⟩) fun ge =>
    chosen_ite (fun lt => .inr ⟨rfl, .inr ⟨nb, FVal.key_le_of_lt nb na lt⟩⟩) fun le =>
    chosen_ite (fun neg => .inl ⟨rfl, .inr ⟨na, FVal.key_le_of_not_lt na nb le (neg ▸ Bool.false_le _)⟩⟩)
      fun pos => .inr ⟨rfl, .inr ⟨nb, FVal.key_le_of_not_lt nb na ge (Bool.eq_false_iff.mpr pos ▸ Bool.le_true _)⟩⟩

theorem fmax_choice : Chosen (FVal.Before true) a b (fmax a b) := by
  refine chosen_ite (fun na => .inr ⟨rfl, .inl na⟩) fun na => chosen_ite (fun nb => .inl ⟨rfl, .inl nb⟩) fun nb => ?_
  have na := isNan_eq_false na
  have nb := isNan_eq_false nb
  exact chosen_ite (fun lt => .inr ⟨rfl, .inr ⟨nb, FVal.key_le_of_lt na nb lt⟩⟩) fun ge =>
    chosen_ite (fun lt => .inl ⟨rfl, .inr ⟨na, FVal.key_le_of_lt nb na lt⟩⟩) fun le =>
    chosen_ite (fun neg => .inr ⟨rfl, .inr ⟨nb, FVal.key_le_of_not_lt na nb le (neg ▸ Bool.false_le _)⟩⟩)
      fun pos => .inl ⟨rfl, .inr ⟨na, FVal.key_le_of_not_lt nb na ge (Bool.eq_false_iff.mpr pos ▸ Bool.le_true _)⟩⟩

theorem fextreme_choice (greatest : Bool) : Chosen (FVal.Before greatest) a b (fextreme greatest a b) := by
  cases greatest
  · exact fmin_choice a b
  · exact fmax_choice a b

end

/-- The extreme of singles is the value of the lane that is before every other. -/
theorem extremeOf_f32 {vs : List (Option Nat)} (hv : ∀ v ∈ vs, ∀ x, v = some x → x < 2 ^ 32) {x : Nat} (hx : some x ∈ vs)
    (num : (FFmt.f32.decode x).isNan = false) (greatest : Bool) : some (extremeOf .f32 greatest vs) ∈ vs ∧
      (FFmt.f32.decode (extremeOf .f32 greatest vs)).Before greatest (FFmt.f32.decode x) := by
  obtain ⟨mem, before⟩ := foldl_choice (FVal.Before.refl greatest) FVal.Before.trans (fextreme_choice · · greatest) .nan
    ((vs.filterMap id).map FFmt.f32.decode)
  change some (FFmt.f32.encode .rne false (((vs.filterMap id).map FFmt.f32.decode).foldl (fextreme greatest) .nan)) ∈ vs ∧
    (FFmt.f32.decode (FFmt.f32.encode .rne false (((vs.filterMap id).map FFmt.f32.decode).foldl (fextreme greatest) .nan))).Before
      greatest (FFmt.f32.decode x)
  have first := before _ (List.mem_cons_of_mem _ (List.mem_map_of_mem (mem_present.mpr hx)))
  generalize List.foldl _ _ _ = r at mem first ⊢
  obtain ⟨real, -⟩ := first.num num
  rcases List.mem_cons.mp mem with rfl | mem
  · cases real
  · obtain ⟨y, hy, rfl⟩ := List.mem_map.mp mem
    have lane := mem_present.mp hy
    rw [FFmt.encode_decode (hv _ lane y rfl) real .rne]
    exact ⟨lane, first⟩

theorem extremeOf_f32_nan {vs : List (Option Nat)} (h : ∀ x, some x ∈ vs → (FFmt.f32.decode x).isNan = true) (greatest : Bool) :
    extremeOf .f32 greatest vs = 0x7FC00000 := by
  obtain ⟨mem, -⟩ := foldl_choice (FVal.Before.refl greatest) FVal.Before.trans (fextreme_choice · · greatest) .nan
    ((vs.filterMap id).map FFmt.f32.decode)
  change FFmt.f32.encode .rne false (((vs.filterMap id).map FFmt.f32.decode).foldl (fextreme greatest) .nan) = _
  generalize List.foldl _ _ _ = r at mem ⊢
  rcases List.mem_cons.mp mem with rfl | mem
  · rfl
  · obtain ⟨y, hy, rfl⟩ := List.mem_map.mp mem
    rw [FVal.eq_nan (h y (mem_present.mp hy))]
    rfl

theorem key_negZero_lt_posZero : (FFmt.f32.decode 0x80000000).key < (FFmt.f32.decode 0).key := by
  have neg : FFmt.f32.decode 0x80000000 = .fin true 0 (-149) := rfl
  have pos : FFmt.f32.decode 0 = .fin false 0 (-149) := rfl
  have same : (FVal.fin true 0 (-149)).ext = (FVal.fin false 0 (-149)).ext :=
    congrArg (fun q : ℚ => ((q : WithTop ℚ) : WithBot (WithTop ℚ))) ((FVal.rat_fin_zero ..).trans (FVal.rat_fin_zero ..).symm)
  rw [neg, pos]
  exact Prod.Lex.toLex_lt_toLex.mpr (.inr ⟨same, Bool.false_lt_true⟩)

/-! ## Codes that results take (R89, R96) -/

namespace FFmt
variable {f : FFmt}

/-- A code that a result takes in a format with infinities: the canonical NaN, or a sign and a magnitude up to the infinity's. -/
def IsResult (f : FFmt) (c : Nat) : Prop := c = f.nanCode ∨ ∃ neg, ∃ mag ≤ (2 * f.bias + 1) * 2 ^ f.mant, c = f.signed neg mag

theorem isResult_ite {p : Prop} [Decidable p] {a b : Nat} (ha : p → f.IsResult a) (hb : ¬ p → f.IsResult b) :
    f.IsResult (if p then a else b) := by
  split
  · exact ha ‹p›
  · exact hb ‹¬ p›

section
variable (has : f.hasInf = true)
include has

theorem isResult_finite (neg : Bool) {mag : Nat} (le : mag ≤ f.maxCode) : f.IsResult (f.signed neg mag) := by
  have top := f.maxCode_succ
  rw [if_pos has] at top
  exact .inr ⟨neg, mag, (le.trans (Nat.le_succ _)).trans_eq top, rfl⟩

theorem isResult_overflow (rm : Rm) (sat neg : Bool) : f.IsResult (f.overflow rm sat neg) :=
  isResult_ite (fun _ => isResult_ite (fun _ => .inr ⟨neg, _, (congrArg (· * _) f.top_eq).le, rfl⟩) fun no => absurd has no)
    fun _ => isResult_finite has neg le_rfl

/-- Every result in a format with infinities is one of these codes. -/
theorem isResult_encode (rm : Rm) (sat : Bool) (v : FVal) : f.IsResult (f.encode rm sat v) := by
  cases v with
  | nan => exact .inl rfl
  | inf neg => exact isResult_overflow has .rne sat neg
  | fin neg m e =>
    exact isResult_ite (fun _ => isResult_finite has neg (Nat.zero_le _)) fun _ => isResult_ite (fun _ => isResult_overflow has rm sat neg)
      fun _ => isResult_ite (fun _ => isResult_overflow has rm sat neg) fun le => isResult_finite has neg (Nat.le_of_not_lt le)

end

/-- A single's value, rounded again, is itself, for a NaN too. -/
theorem encode_decode_encode (rm : Rm) (sat : Bool) (v : FVal) :
    FFmt.f32.encode .rne false (FFmt.f32.decode (FFmt.f32.encode rm sat v)) = FFmt.f32.encode rm sat v := by
  rcases isResult_encode (f := .f32) rfl rm sat v with code | ⟨neg, mag, le, code⟩
  · rw [code]
    rfl
  · have hm : mag < FFmt.f32.signBit := le.trans_lt (by decide)
    have lt : FFmt.f32.signed neg mag < 2 ^ FFmt.f32.bits := by
      rw [two_pow_bits]
      cases neg
      · exact (Nat.zero_add mag).trans_lt (hm.trans_le (Nat.le_add_left ..))
      · exact Nat.add_lt_add_left hm _
    have stands := FFmt.f32.decode_stands (FFmt.f32.signed neg mag)
    rw [signed_mod neg hm] at stands
    rw [code]
    refine encode_decode lt ?_ .rne
    generalize FFmt.f32.decode _ = v at stands ⊢
    cases stands with
    | inf _ _ => rfl
    | nan above => exact absurd (above rfl) le.not_gt
    | fin _ _ _ _ _ => rfl

end FFmt

/-! ## Sums of singles (R97, R110) -/

/-- A finite value that is not zero is its own signed mantissa at its own exponent. -/
theorem ofInt_scaled (n : Bool) (m : Nat) (x : Int) (z : Bool) :
    FVal.ofInt (0 + (FVal.fin n (m + 1) x).scaled x) x z = .fin n (m + 1) x := by
  have unit : (((m + 1 : Nat) : Int) * 2 ^ (x - x).toNat : Int) = (m + 1 : Nat) := by
    rw [Int.sub_self]
    exact Int.mul_one _
  refine (congrArg (FVal.ofInt · x z) ((Int.zero_add _).trans (congrArg (_ * ·) unit))).trans ?_
  cases n
  · exact congrArg (FVal.ofInt · x z) (Int.one_mul _)
  · have below : -((m + 1 : Nat) : Int) < 0 := Int.negSucc_lt_zero m
    refine (congrArg (FVal.ofInt · x z) (Int.neg_one_mul _)).trans ((if_neg below.ne).trans ?_)
    rw [decide_eq_true below, Int.natAbs_neg]
    rfl

/-- −0 leaves a sum as it is. -/
theorem encode_sum_negZero (f : FFmt) (v : FVal) (e : Int) :
    f.encode .rne false (sumExact .rne [v, .fin true 0 e]) = f.encode .rne false v ∧
      f.encode .rne false (sumExact .rne [.fin true 0 e, v]) = f.encode .rne false v := by
  match v with
  | .nan => exact ⟨rfl, rfl⟩
  | .inf n => cases n <;> exact ⟨rfl, rfl⟩
  | .fin n 0 x => cases n <;> exact ⟨rfl, rfl⟩
  | .fin n (m + 1) x => exact ⟨congrArg _ (ofInt_scaled n m x _), congrArg _ (ofInt_scaled n m x _)⟩

/-- A sum of singles, as a fold from −0. -/
theorem sumLanes_f32 (vs : List (Option Nat)) (n : Nat) :
    sumLanes .f32 vs n = ((vs.take n).map fun v => v.getD 0x80000000).foldl (addStep .f32) 0x80000000 := by
  unfold sumLanes
  match vs.take n with
  | [] => rfl
  | v :: ws => exact congrArg (List.foldl (addStep .f32) · _) (encode_sum_negZero .f32 _ _).2.symm

theorem sumLanes_f32_succ {vs : List (Option Nat)} {n : Nat} (hn : n < vs.length) :
    sumLanes .f32 vs (n + 1) = addStep .f32 (sumLanes .f32 vs n) ((vs.getD n none).getD 0x80000000) := by
  rw [sumLanes_f32, sumLanes_f32, List.take_succ_eq_append_getElem hn, List.map_append, List.foldl_append, List.getD_eq_getElem _ _ hn]
  rfl

/-- A lane that is missing leaves the sum as it is. -/
theorem addStep_f32_missing (vs : List (Option Nat)) (n : Nat) : addStep .f32 (sumLanes .f32 vs n) 0x80000000 = sumLanes .f32 vs n := by
  refine (encode_sum_negZero .f32 (FFmt.f32.decode _) _).1.trans ?_
  rw [sumLanes_f32]
  generalize (vs.take n).map (fun v => v.getD 0x80000000) = xs
  rcases List.eq_nil_or_concat xs with rfl | ⟨ys, y, rfl⟩
  · rfl
  · rw [List.concat_eq_append, List.foldl_append]
    exact FFmt.encode_decode_encode ..

/-! ## Atomics (R97, R111, R208) -/

theorem sextNat_eq_toInt (w x : Nat) : sextNat w x = (BitVec.ofNat w x).toInt := by
  rw [BitVec.toInt_eq_toNat_cond, BitVec.toNat_ofNat, Nat.cast_pow]
  rfl

theorem value_minmax (w old d cmp : Nat) :
    AtomOp.value .min false w old d cmp = some (min old d) ∧ AtomOp.value .max false w old d cmp = some (max old d) := by
  refine ⟨congrArg some ?_, congrArg some ?_⟩
  · rw [min_comm, min_def_lt]
    exact if_congr decide_eq_true_iff rfl rfl
  · rw [max_def_lt]
    exact if_congr decide_eq_true_iff rfl rfl

theorem value_minmax_signed {w old d : Nat} (cmp : Nat) (ho : old < 2 ^ w) (hd : d < 2 ^ w) :
    (∃ v, AtomOp.value .min true w old d cmp = some v ∧ v < 2 ^ w ∧
      (BitVec.ofNat w v).toInt = min (BitVec.ofNat w old).toInt (BitVec.ofNat w d).toInt) ∧
    ∃ v, AtomOp.value .max true w old d cmp = some v ∧ v < 2 ^ w ∧
      (BitVec.ofNat w v).toInt = max (BitVec.ofNat w old).toInt (BitVec.ofNat w d).toInt := by
  have less (a b : Nat) : decide (sextNat w a < sextNat w b) = true ↔ (BitVec.ofNat w a).toInt < (BitVec.ofNat w b).toInt := by
    rw [sextNat_eq_toInt, sextNat_eq_toInt, decide_eq_true_iff]
  have pick {p : Prop} [Decidable p] (a b : Nat) (ha : a < 2 ^ w) (hb : b < 2 ^ w) : (if p then a else b) < 2 ^ w := by
    split
    · exact ha
    · exact hb
  refine ⟨⟨_, rfl, pick _ _ hd ho, ?_⟩, ⟨_, rfl, pick _ _ hd ho, ?_⟩⟩
  · rw [min_comm, min_def_lt, apply_ite (fun v => (BitVec.ofNat w v).toInt)]
    exact if_congr (less d old) rfl rfl
  · rw [max_def_lt, apply_ite (fun v => (BitVec.ofNat w v).toInt)]
    exact if_congr (less old d) rfl rfl

theorem value_add (w old d cmp : Nat) :
    AtomOp.value .add false w old d cmp = some (BitVec.ofNat w old + BitVec.ofNat w d).toNat := by
  rw [BitVec.toNat_add, BitVec.toNat_ofNat, BitVec.toNat_ofNat, ← Nat.add_mod]
  rfl

theorem value_inc {w old d : Nat} (cmp : Nat) (hd : d < 2 ^ w) :
    (d ≤ old → AtomOp.value .inc false w old d cmp = some 0) ∧ (old < d → AtomOp.value .inc false w old d cmp = some (old + 1)) := by
  refine ⟨fun h => congrArg some (if_pos h), fun h => congrArg some ?_⟩
  rw [if_neg h.not_ge, Nat.mod_eq_of_lt (Nat.lt_of_le_of_lt h hd)]

end Sys2Proof.Machine

namespace Sys2Proof
open Machine

/-- Settles O14: a sum is a fold over the lanes, and an extreme a fold that keeps the lane which is before the others. -/
theorem reductionAndAtomicValues : Obligations.ReductionAndAtomicValues := by
  unfold Obligations.ReductionAndAtomicValues
  refine ⟨fun vs len hv => ⟨fun p j _ => maskWhere_testBit vs p j, fun t n ht => sumLanes_int ht hv n, fun t x ht hx => ?_, ?_⟩,
    fun old d cmp w ho hd => ?_⟩
  · have single : t ≠ .f32 := by rcases ht with rfl | rfl <;> decide
    obtain ⟨least, below⟩ := extremeOf_int single hx false
    obtain ⟨most, above⟩ := extremeOf_int single hx true
    exact ⟨below, above, least, most⟩
  · refine ⟨rfl, fun n hn => ?_, fun x hx num => ?_, fun hx zero => ?_, fun hx zero => ?_, fun nan => ?_⟩
    · rw [sumLanes_f32_succ (len ▸ hn)]
      cases vs.getD n none with
      | none => exact addStep_f32_missing vs n
      | some x => rfl
    · obtain ⟨least, below⟩ := extremeOf_f32 hv hx num false
      obtain ⟨most, above⟩ := extremeOf_f32 hv hx num true
      obtain ⟨leastNum, le⟩ := below.num num
      obtain ⟨mostNum, ge⟩ := above.num num
      exact ⟨least, leastNum, FVal.lt_of_key_le leastNum num le, most, mostNum, FVal.lt_of_key_le num mostNum ge⟩
    · obtain ⟨-, below⟩ := extremeOf_f32 hv hx rfl false
      rw [zero] at below
      exact key_negZero_lt_posZero.not_ge (below.num rfl).2
    · obtain ⟨-, above⟩ := extremeOf_f32 hv hx rfl true
      rw [zero] at above
      exact key_negZero_lt_posZero.not_ge (above.num rfl).2
    · exact ⟨extremeOf_f32_nan nan false, extremeOf_f32_nan nan true⟩
  · obtain ⟨min, max⟩ := value_minmax w old d cmp
    obtain ⟨smin, smax⟩ := value_minmax_signed cmp ho hd
    obtain ⟨zero, up⟩ := value_inc (old := old) cmp hd
    exact ⟨value_add .., min, max, smin, smax, fun _ => rfl, rfl, rfl, rfl, rfl, rfl, zero, up⟩

end Sys2Proof
end

