-- ==== Sys2Proof/Proofs/Tiles.lean ====
section
/-! PROOF. The words of a D tile, from the bytes in the rack before it (O41). -/

namespace Sys2Proof.Machine

open Sys2Proof
-- One proof at a time: in parallel, the stacks of the threads exceed the memory that the check allows.
set_option Elab.async false

/-! ## Parts of a read (R11) -/

theorem leNat_cons_div (b : Byte) (bs : List Byte) : leNat (b :: bs) / 256 = leNat bs :=
  (Nat.add_mul_div_left _ _ (by decide)).trans ((congrArg (· + _) (Nat.div_eq_of_lt b.isLt)).trans (Nat.zero_add _))

theorem leNat_cons_mod (b : Byte) (bs : List Byte) : leNat (b :: bs) % 256 = b.toNat :=
  (Nat.add_mul_mod_self_left ..).trans (Nat.mod_eq_of_lt b.isLt)

theorem leNat_drop (bs : List Byte) (i : Nat) : leNat bs / 256 ^ i = leNat (bs.drop i) := by
  induction i generalizing bs with
  | zero => exact Nat.div_one _
  | succ i ih =>
    rw [Nat.pow_succ', ← Nat.div_div_eq_div_mul]
    cases bs with
    | nil => exact Nat.zero_div _
    | cons b bs => rw [leNat_cons_div, ih, List.drop_succ_cons]

theorem leNat_take (bs : List Byte) (k : Nat) : leNat bs % 256 ^ k = leNat (bs.take k) := by
  induction k generalizing bs with
  | zero => exact Nat.mod_one _
  | succ k ih =>
    cases bs with
    | nil => exact Nat.zero_mod _
    | cons b bs =>
      rw [Nat.pow_succ', Nat.mod_mul, leNat_cons_mod, leNat_cons_div, ih]
      rfl

theorem Memory.read_drop (m : List Host.Cell) (a n i : Nat) : (Memory.read m a n).drop i = Memory.read m (a + i) (n - i) := by
  induction i generalizing a n with
  | zero => rfl
  | succ i ih =>
    cases n with
    | zero =>
      rw [Nat.zero_sub]
      rfl
    | succ n =>
      rw [Nat.succ_sub_succ, ← Nat.add_assoc, Nat.add_right_comm]
      exact ih (a + 1) n

theorem Memory.read_take (m : List Host.Cell) (a : Nat) {n k : Nat} (h : k ≤ n) : (Memory.read m a n).take k = Memory.read m a k := by
  induction k generalizing a n with
  | zero => rfl
  | succ k ih =>
    cases n with
    | zero => cases h
    | succ n => exact congrArg (_ :: ·) (ih _ (Nat.le_of_succ_le_succ h))

/-- Some of the bytes just written, read back. -/
theorem Memory.read_write_part {m : List Host.Cell} (h : Memory.wf m = true) (a : Nat) (bs : List Byte) {i k : Nat} (hk : k + i ≤ bs.length) :
    Memory.read (Memory.write m a bs) (a + i) k = (bs.drop i).take k := by
  have all := Memory.read_drop (Memory.write m a bs) a bs.length i
  rw [Memory.read_write h] at all
  rw [all, Memory.read_take _ _ (Nat.le_sub_of_add_le hk)]

/-- Bytes in the middle of a row, as a number. -/
theorem Core.rackNat_part (c : Core) (a : Nat) {n i k : Nat} (h : k + i ≤ n) :
    c.rackNat a n / 2 ^ (8 * i) % 2 ^ (8 * k) = c.rackNat (a + i) k := by
  rw [pow_mul, pow_mul]
  refine (congrArg (· % _) (leNat_drop ..)).trans ((leNat_take ..).trans ?_)
  rw [Memory.read_drop, Memory.read_take _ _ (Nat.le_sub_of_add_le h)]
  rfl

theorem Core.rackNat_word (c : Core) (a : Nat) : (BitVec.ofNat 32 (c.rackNat a 4)).toNat = c.rackNat a 4 :=
  Nat.mod_eq_of_lt ((leNat_lt (Memory.read c.rack a 4)).trans_eq (by rw [Memory.length_read]; rfl))

/-- An i8 element of a row is the byte in its place (R92). -/
theorem sextNat_mxElem (c : Core) (a : Nat) {i : Nat} (h : i < 128) :
    sextNat 8 (mxElem 8 (c.rackNat a 128) i) = (Memory.get c.rack (a + i)).toInt := by
  have byte : mxElem 8 (c.rackNat a 128) i = (Memory.get c.rack (a + i)).toNat := c.rackNat_part a (k := 1) (Nat.add_comm i 1 ▸ h)
  rw [byte, sextNat_eq_toInt, BitVec.ofNat_toNat, BitVec.setWidth_eq]

/-! ## The words of a tile (R238) -/

theorem drop_flatMap {α β : Type} {f : α → List β} {k : Nat} (h : ∀ x, (f x).length = k) (xs : List α) (m : Nat) :
    (xs.flatMap f).drop (k * m) = (xs.drop m).flatMap f := by
  induction m generalizing xs with
  | zero => rfl
  | succ m ih =>
    cases xs with
    | nil => exact List.drop_nil
    | cons x xs => rw [List.flatMap_cons, Nat.mul_succ, Nat.add_comm, ← h x, List.drop_length_add_append, h x, ih, List.drop_succ_cons]

theorem length_flatMap_uniform {α β : Type} {f : α → List β} {k : Nat} (h : ∀ x, (f x).length = k) (xs : List α) :
    (xs.flatMap f).length = k * xs.length := by
  induction xs with
  | nil => rfl
  | cons x xs ih => rw [List.flatMap_cons, List.length_append, h, ih, List.length_cons, Nat.mul_succ, Nat.add_comm]

theorem length_word (w : Word) : (leBytes 4 w.toNat).length = 4 := leBytes_length ..

theorem leNat_wordsBytes (ws : List Word) (i : Nat) : leNat (((wordsBytes ws).drop (4 * i)).take 4) = (ws.getD i 0).toNat := by
  rw [wordsBytes, drop_flatMap length_word, List.getD_eq_getElem?_getD, ← List.head?_drop]
  cases ws.drop i with
  | nil => rfl
  | cons w rest =>
    rw [List.flatMap_cons, List.take_left' (length_word w), leNat_leBytes]
    exact Nat.mod_eq_of_lt w.isLt

-- `noncomputable`, here and below: what serves proofs only needs no code of its own.
/-- A row of a D tile. -/
noncomputable def tileRow (u : Nat → Nat → Nat) (m : Nat) : List Word := (List.range 64).map fun n => BitVec.ofNat 32 (u m n)

theorem length_tileRow (u : Nat → Nat → Nat) (m : Nat) : (tileRow u m).length = 64 := by
  rw [tileRow, List.length_map, List.length_range]

theorem tileWords_eq (u : Nat → Nat → Nat) : tileWords u = (List.range 32).flatMap (tileRow u) := rfl

theorem getD_tileWords (u : Nat → Nat → Nat) {m n : Nat} (hm : m < 32) (hn : n < 64) :
    (tileWords u).getD (64 * m + n) 0 = BitVec.ofNat 32 (u m n) := by
  have row : ((List.range 32).drop m).head? = some m := by rw [List.head?_drop, List.getElem?_range hm]
  obtain ⟨rest, hrest⟩ := List.head?_eq_some_iff.mp row
  rw [List.getD_eq_getElem?_getD, ← List.getElem?_drop, tileWords_eq, drop_flatMap (length_tileRow u), hrest, List.flatMap_cons,
    List.getElem?_append_left ((length_tileRow u m).symm ▸ hn), tileRow, List.getElem?_map, List.getElem?_range hn]
  rfl

@[simp] theorem Core.writeTile_rack (c : Core) (a : Nat) (ws : List Word) : (c.writeTile a ws).rack = Memory.write c.rack a (wordsBytes ws) := rfl

/-- A word of a tile just written. -/
theorem Core.rackNat_writeTile {c : Core} (h : Memory.wf c.rack = true) (a : Nat) (u : Nat → Nat → Nat) {m n : Nat} (hm : m < 32) (hn : n < 64) :
    BitVec.ofNat 32 ((c.writeTile a (tileWords u)).rackNat (a + 256 * m + 4 * n) 4) = BitVec.ofNat 32 (u m n) := by
  have bytes : (wordsBytes (tileWords u)).length = 4 * (64 * 32) := by
    rw [wordsBytes, length_flatMap_uniform length_word, tileWords_eq, length_flatMap_uniform (length_tileRow u), List.length_range]
  have room : 4 + 4 * (64 * m + n) ≤ (wordsBytes (tileWords u)).length := by
    rw [bytes]
    lia
  have place : a + 256 * m + 4 * n = a + 4 * (64 * m + n) := by rw [Nat.mul_add, ← Nat.mul_assoc, Nat.add_assoc]
  rw [place, rackNat, writeTile_rack, Memory.read_write_part h a _ room, leNat_wordsBytes, getD_tileWords u hm hn, BitVec.ofNat_toNat,
    BitVec.setWidth_eq]

/-- The D tile of a tile of work (R238). -/
noncomputable abbrev Core.tileD (c : Core) (w : SecWork) (j : Nat) : Nat := 4096 * (c.rackBaseOf w.frame + w.f.slotD.toNat + 2 * j)

theorem Core.tileStep_mma {c : Core} (h : Memory.wf c.rack = true) {x : Section} {w : SecWork} {b : BLatch} (hw : w.op = 0x05) (hb : x.b = some b)
    (j : Nat) {m n : Nat} (hm : m < 32) (hn : n < 64) : BitVec.ofNat 32 ((c.tileStep x w j).rackNat (c.tileD w j + 256 * m + 4 * n) 4) =
      BitVec.ofNat 32 (mmaElem c b x.cb w.f (c.rackBaseOf w.frame) j m n (c.rackNat (c.tileD w j + 256 * m + 4 * n) 4)) := by
  have old : c.rackNat (c.tileD w j + 256 * m) 256 / 2 ^ (32 * n) % 2 ^ 32 = c.rackNat (c.tileD w j + 256 * m + 4 * n) 4 := by
    rw [show 32 * n = 8 * (4 * n) from Nat.mul_assoc 8 4 n]
    exact c.rackNat_part _ (k := 4) (by lia)
  rw [← old]
  unfold tileStep
  rw [if_pos hw, hb]
  exact rackNat_writeTile h _ _ hm hn

theorem Core.tileStep_mx {c : Core} (h : Memory.wf c.rack = true) {x : Section} {w : SecWork} {op : Nat} (hw : w.op = op) (h5 : op ≠ 0x05)
    (j : Nat) {m n : Nat} (hm : m < 32) (hn : n < 64) : BitVec.ofNat 32 ((c.tileStep x w j).rackNat (c.tileD w j + 256 * m + 4 * n) 4) =
      BitVec.ofNat 32 (mxElemOut c op w.f (c.rackBaseOf w.frame + w.f.slotA.toNat + j) m n) := by
  unfold tileStep
  rw [hw, if_neg h5]
  exact rackNat_writeTile h _ _ hm hn

/-! ## Integer tiles (R92, R246, R247) -/

theorem foldl_add {α : Type} {g k : α → Int} {xs : List α} (h : ∀ x ∈ xs, g x = k x) (z : Int) :
    xs.foldl (fun acc i => acc + g i) z = z + (xs.map k).sum := by
  rw [← List.map_congr_left h]
  clear h
  induction xs generalizing z with
  | nil => exact (Int.add_zero z).symm
  | cons x xs ih => rw [List.foldl_cons, ih, List.map_cons, List.sum_cons, Int.add_assoc]

theorem ofNat_wrapInt (v : Int) : BitVec.ofNat 32 (wrapInt 32 v) = BitVec.ofInt 32 v := by
  have low : (BitVec.ofInt 32 v).toNat = wrapInt 32 v := BitVec.toNat_ofInt ..
  rw [← low, BitVec.ofNat_toNat, BitVec.setWidth_eq]

theorem mmaElem_i8 {c : Core} {b : BLatch} {f : XFields} (hf : f.fmtA = 8) (hk : b.kclass = 128) (cb : Option Nat) (base j m n d0 : Nat) :
    BitVec.ofNat 32 (mmaElem c b cb f base j m n d0) = BitVec.ofInt 32 ((if f.flags.getLsbD 0 then 0 else (BitVec.ofNat 32 d0).toInt) +
      ((List.range 128).map fun i => (Memory.get c.rack (4096 * (base + f.slotA.toNat + j) + 128 * m + i)).toInt *
        (Memory.get c.rack (4096 * b.slot + 128 * n + i)).toInt).sum) := by
  refine (congrArg _ (if_pos (congrArg BitVec.toNat hf))).trans ((ofNat_wrapInt _).trans (congrArg _ ?_))
  rw [hk]
  refine (foldl_add (fun i hi => congr (congrArg _ (sextNat_mxElem c _ (List.mem_range.mp hi)))
    (sextNat_mxElem c _ (List.mem_range.mp hi))) _).trans (congrArg (· + _) ?_)
  split
  · rfl
  · exact sextNat_eq_toInt ..

/-- An i8 element widened is the byte in its place. -/
theorem mxWiden_i8 (c : Core) (a : Nat) {i : Nat} (h : i < 128) :
    BitVec.ofNat 32 (mxWiden 8 (mxElem 8 (c.rackNat a 128) i)) = BitVec.ofInt 32 (Memory.get c.rack (a + i)).toInt :=
  (ofNat_wrapInt _).trans (congrArg _ (sextNat_mxElem c a h))

/-! ## Transposed, permuted and reduced tiles (R247) -/

theorem lt_min_kOfFmt {n : Nat} (fmt : Nat) (hn : n < 64) : n < Nat.min 64 (kOfFmt fmt) := by
  refine Nat.lt_min.mpr ⟨hn, hn.trans_le ?_⟩
  unfold kOfFmt
  split <;> [skip; split] <;> decide

section
variable {f : XFields} {fmt : Nat} (hf : f.fmtA.toNat = fmt) (c : Core) (slot m : Nat) {n : Nat}
include hf

theorem mxElemOut_transpose : mxElemOut c 0x06 f slot m n =
    if n < 32 then mxWiden fmt (mxElem fmt (c.rackNat (4096 * slot + 128 * n) 128) (32 * f.count.toNat + m)) else 0 :=
  hf ▸ rfl

theorem mxElemOut_permute (hn : n < 64) : mxElemOut c 0x07 f slot m n =
    mxWiden fmt (mxElem fmt (c.rackNat (4096 * slot + 128 *
      (if f.count.toNat / 32 % 2 = 0 then (m + f.count.toNat % 32) % 32 else m ^^^ (f.count.toNat % 32))) 128)
        (64 * (f.count.toNat / 64) + n)) :=
  hf ▸ if_pos (lt_min_kOfFmt _ hn)

theorem mxElemOut_reduce (hn : n < 64) : mxElemOut c 0x08 f slot m n =
    if m = 0 then (if fmt = 8 then wrapInt 32 ((List.range 32).foldl
        (fun acc r => acc + sextNat 8 (mxElem fmt (c.rackNat (4096 * slot + 128 * r) 128) (64 * (f.count.toNat / 64) + n))) 0)
      else FFmt.f32.encode .rne false (sumExact .rne ((List.range 32).map fun r =>
        (mxFmt fmt).decode (mxElem fmt (c.rackNat (4096 * slot + 128 * r) 128) (64 * (f.count.toNat / 64) + n))))) else 0 :=
  hf ▸ if_congr (and_iff_left (lt_min_kOfFmt _ hn)) rfl rfl

end

/-- An i8 element of a tile is there under the same condition as the byte in its place. -/
theorem ofNat_ite {p : Prop} [Decidable p] {x : Nat} {v : Int} (h : p → BitVec.ofNat 32 x = BitVec.ofInt 32 v) :
    BitVec.ofNat 32 (if p then x else 0) = BitVec.ofInt 32 (if p then v else 0) := by
  split
  · exact h ‹p›
  · rfl

theorem mxWiden_float {fmt : Nat} (h : fmt ≠ 8) (x : Nat) : mxWiden fmt x = FFmt.f32.encode .rne false ((mxFmt fmt).decode x) := if_neg h

/-! ## Float tiles (R93, R94, R106 to R109) -/

/-- The exponent of the e8m0 scale at a byte of the rack (R106, R109). -/
noncomputable abbrev Core.e8m0 (c : Core) (p : Nat) : Option Int :=
  if Memory.get c.rack p = 0xFF then none else some (((Memory.get c.rack p).toNat : Int) - 127)

theorem scaleExp_rackNat (c : Core) (p : Nat) : scaleExp (c.rackNat p 1) = c.e8m0 p :=
  if_congr (BitVec.toNat_inj (x := Memory.get c.rack p) (y := 0xFF#8)) rfl rfl

/-- The scale of a row in a block (R106, R238). -/
noncomputable abbrev rowScale (f : XFields) (c : Core) (base j k m q : Nat) : Option Int :=
  if f.scale = 127 then some 0 else c.e8m0 (4096 * (base + f.scale.toNat) + 32 * f.soff.toNat + j * k + k / 32 * m + q)

/-- The scale of a column in a block (R106, R238). -/
noncomputable abbrev colScale (wscale : Option Nat) (c : Core) (n q : Nat) : Option Int :=
  match wscale with
  | none => some 0
  | some p => c.e8m0 (p + 64 * q + n)

theorem rowScale_eq (f : XFields) (c : Core) (base j k m q : Nat) :
    rowScale f c base j k m q = (xScaleByte f).elim (some 0) fun a => scaleExp (c.rackNat (4096 * base + a + j * k + k / 32 * m + q) 1) := by
  unfold rowScale xScaleByte
  by_cases one : f.scale = 127
  · rw [if_pos one, if_pos one]
    rfl
  · rw [if_neg one, if_neg one, Option.elim_some, scaleExp_rackNat, Nat.mul_add, Nat.mul_comm _ 4096, Nat.mul_comm _ 32,
      ← Nat.add_assoc (4096 * base)]

theorem colScale_eq (wscale : Option Nat) (c : Core) (n q : Nat) :
    colScale wscale c n q = wscale.elim (some 0) fun a => scaleExp (c.rackNat (a + 64 * q + n) 1) := by
  cases wscale with
  | none => rfl
  | some p => exact (scaleExp_rackNat ..).symm

theorem pair_eq_bind (sa sb : Option Int) : (match sa, sb with | some x, some y => some (x + y) | _, _ => none) =
    sa.bind fun u => sb.map fun v => u + v := by
  cases sa <;> cases sb <;> rfl

/-- A float element of D gathers its blocks, each scaled where its row's and its column's scale are there (R106 to R109). -/
theorem mmaElem_float {f : XFields} (hf : f.fmtA.toNat ≠ 8) (c : Core) (b : BLatch) (cb : Option Nat) (base j m n d0 : Nat) :
    mmaElem c b cb f base j m n d0 = (List.range (b.kclass / 32)).foldl (fun d q =>
      mxBlock (f.fmtA.toNat == 6 || f.fmtA.toNat == 7) (f.flags.getLsbD 1)
        ((rowScale f c base j b.kclass m q).bind fun u => (colScale b.wscale c n q).map fun v => u + v)
        ((List.range 32).map fun i => mulExact
          ((mxFmt f.fmtA.toNat).decode (mxElem f.fmtA.toNat (c.rackNat (4096 * (base + f.slotA.toNat + j) + 128 * m) 128) (32 * q + i)))
          (b.elem c cb n (32 * q + i))) d) (if f.flags.getLsbD 0 then 0 else d0) := by
  refine (if_neg hf).trans (congrArg (List.foldl · _ _) (funext fun d => funext fun q => congrArg (mxBlock _ _ · _ d) ?_))
  rw [rowScale_eq, colScale_eq]
  cases xScaleByte f with
  | none =>
    cases b.wscale with
    | none => rfl
    | some p => exact pair_eq_bind (some 0) (scaleExp _)
  | some a =>
    cases b.wscale with
    | none => exact pair_eq_bind (scaleExp _) (some 0)
    | some p => exact pair_eq_bind (scaleExp _) (scaleExp _)

theorem cb2Weight_eq (c : Core) (cbSlot col k : Nat) : cb2Weight c cbSlot col k =
    (let ix := col / 2 ^ (16 * (k / 8)) % 2 ^ 16
     let v := (BitVec.ofNat 4 (c.rackNat (4096 * cbSlot + 4 * (ix / 256)) 4 / 2 ^ (4 * (k % 8)))).toInt
     if ix.testBit (k % 8) then -v else v) := by
  have low (x : Nat) : (x % 2 ^ 8).testBit (k % 8) = x.testBit (k % 8) := by
    rw [Nat.testBit_mod_two_pow, decide_eq_true (Nat.mod_lt k (by decide)), Bool.true_and]
  dsimp only
  rw [← sextNat_eq_toInt, ← low]
  rfl

end Sys2Proof.Machine

namespace Sys2Proof
open Machine

/-- Settles O41: each word written is an element, and each element is of the bytes in its row and column. -/
theorem tileValues : Obligations.TileValues := by
  unfold Obligations.TileValues
  refine ⟨fun c x w j m n wf hm hn => ?_, fun sat e ps d => ⟨rfl, rfl, rfl, fun none' => ?_, fun top some' => ?_⟩⟩
  · intro base byte a d word after cnt h row fa kA code el wide
    have eight (i8 : w.f.fmtA = 8) : w.f.fmtA.toNat = 8 := congrArg BitVec.toNat i8
    have notI8 (float : fa ∈ [0, 1, 2, 3, 4, 6, 7]) : w.f.fmtA.toNat ≠ 8 := fun h => absurd (h ▸ float : 8 ∈ [0, 1, 2, 3, 4, 6, 7]) (by decide)
    have inner (hh : h < 2) : 64 * h + n < 128 := Nat.add_lt_add_of_le_of_lt (Nat.mul_le_mul_left 64 (Nat.le_of_lt_succ hh)) hn
    have mx {op : Nat} (hop : w.op = op) (h5 : op ≠ 0x05) := Core.tileStep_mx wf (x := x) hop h5 j hm hn
    refine ⟨fun i8 => ⟨fun b hop hb hk => ?_, fun hop hcnt => ?_, fun hop hh => ?_, fun hop hh => ?_⟩,
      fun float => ⟨fun hop _ => ?_, fun hop _ => ?_, fun hop _ _ => ?_, fun b hop hb => ?_⟩⟩
    · exact (Core.tileStep_mma wf hop hb j hm hn).trans (mmaElem_i8 i8 hk ..)
    · exact (mx hop (by decide)).trans ((congrArg _ (mxElemOut_transpose (eight i8) ..)).trans (ofNat_ite fun _ => mxWiden_i8 c _
        (Nat.add_lt_add_of_le_of_lt (Nat.mul_le_mul_left 32 (Nat.le_of_lt_succ hcnt)) hm)))
    · exact (mx hop (by decide)).trans ((congrArg _ (mxElemOut_permute (eight i8) _ _ _ hn)).trans (mxWiden_i8 c _ (inner hh)))
    · refine (mx hop (by decide)).trans ((congrArg _ (mxElemOut_reduce (eight i8) _ _ _ hn)).trans (ofNat_ite fun _ => ?_))
      exact (ofNat_wrapInt _).trans (congrArg _ ((foldl_add (fun r _ => sextNat_mxElem c _ (inner hh)) 0).trans (Int.zero_add _)))
    · refine (mx hop (by decide)).trans ((congrArg _ (mxElemOut_transpose rfl ..)).trans ?_)
      rw [mxWiden_float (notI8 float)]
      exact apply_ite ..
    · exact (mx hop (by decide)).trans (congrArg _ ((mxElemOut_permute rfl _ _ _ hn).trans (mxWiden_float (notI8 float) _)))
    · refine (mx hop (by decide)).trans ((congrArg _ (mxElemOut_reduce rfl _ _ _ hn)).trans ?_)
      rw [if_neg (notI8 float)]
      exact apply_ite ..
    · intro k index entry nibble col e8m0 sa sb
      have elem (i : Nat) : b.elem c x.cb n i = col i := by
        rw [BLatch.elem, cb2Weight_eq]
        rfl
      have scale (q : Nat) : colScale b.wscale c n q = sb q := by
        change colScale b.wscale c n q = match b.wscale with | none => some 0 | some p => c.e8m0 (p + 64 * q + n)
        cases b.wscale <;> rfl
      refine (Core.tileStep_mma wf hop hb j hm hn).trans (congrArg _ ((mmaElem_float (notI8 float) ..).trans ?_))
      simp only [elem, scale]
      rw [← c.rackNat_word (c.tileD w j + 256 * m + 4 * n)]
      rfl
  · unfold mxBlock
    rw [none']
    rfl
  · unfold mxBlock
    rw [some']
    rfl

end Sys2Proof
end
